-- ==== Sys2Proof/Word.lean ====
section
/-!
DEFINITION. Word.lean: the word types of the part and their plainest arithmetic (R3: everything is little-endian).
-/
namespace Sys2Proof

/-- A general register, a control register or an aligned pool word (R135, R155, R187). -/
abbrev W64 := BitVec 64

/-- One byte of any store. -/
abbrev Byte := BitVec 8

/-- A general register number s0 to s63 (R135). -/
abbrev Reg := BitVec 6

/-- A 48-bit syllable (R99). -/
abbrev Syl := BitVec 48

/-- A 192-bit bundle, the syllable of slot S in its low bits (R99, Table 5-1). -/
abbrev BundleBits := BitVec 192

/-- A 64-bit word with a natural number's low bits. -/
def w64 (n : Nat) : W64 := BitVec.ofNat 64 n

/-- 1 when a condition holds and 0 otherwise, as compare instructions write it (R167). -/
def boolW (b : Bool) : W64 := if b then 1 else 0

end Sys2Proof
end

