-- ==== Sys2Proof/Syntax.lean ====
section
/-!
DEFINITION. Syntax.lean: every row of the opcode table as a constructor of Instr. A row is one whole step of the
part: a host register write, a command of the Shepherd, an event of the hardware, or one syllable of a bundle.
Only the fields a syllable uses stand in its constructor; the rest must be zero (R105).
-/
namespace Sys2Proof

/-- The four slots of a bundle in slot order (Table 5-1). -/
inductive Slot where
  | s | m | v | d
  deriving DecidableEq, Repr

/-- Access widths of the scalar memory instructions: 1, 2, 4 and 8 bytes (Table 7-8). -/
inductive Width where
  | b1 | b2 | b4 | b8
  deriving DecidableEq, Repr

/-- Integer compare conditions (Table 7-4). -/
inductive IntCond where
  | eq | ne | lt | le | ltn | len
  deriving DecidableEq, Repr

/-- Float compare conditions (R177). -/
inductive FpCond where
  | eq | lt | le | un
  deriving DecidableEq, Repr

/-- Scalar types of FCVT (Table 7-1). -/
inductive ScalarTy where
  | i32 | f16 | bf16 | f32 | f64 | i64 | n32 | n64
  deriving DecidableEq, Repr

/-- The two types of scalar float arithmetic (R173). -/
inductive FpTy where
  | f32 | f64
  deriving DecidableEq, Repr

/-- Rounding modes an instruction can name in a mode field (R173). -/
inductive RMode where
  | rne | rtz | rdn | rup
  deriving DecidableEq, Repr

/-- Sign operations of FSGN (R180). -/
inductive SgnOp where
  | j | jn | jx
  deriving DecidableEq, Repr

/-- Operations of AMO and of DAMO (Table 15-7, Table 11-2). -/
inductive AmoOp where
  | add | min | max | and | or | xor | swp
  deriving DecidableEq, Repr

/-- Operand width of AMO and AMOCAS (Table 15-7). -/
inductive AmoTy where
  | i32 | i64
  deriving DecidableEq, Repr

/-- The ordering suffix of an atomic (R405). -/
structure AmoOrd where
  acq : Bool
  rel : Bool
  deriving DecidableEq, Repr

/-- Vector element types (Table 5-9). -/
inductive VTy where
  | i8 | i16 | i32 | i48 | f16 | bf16 | f32 | f48 | f64
  deriving DecidableEq, Repr

/-- Operands of the EN format (Table 5-3). -/
structure En where
  idx : BitVec 6
  rep : BitVec 8
  step : BitVec 6
  dly : BitVec 6
  deriving DecidableEq, Repr

/-- Vector operands with a type and a modifier in fn[7:4] (R120). -/
structure Vr where
  vd : BitVec 6
  va : BitVec 6
  vb : BitVec 6
  ty : VTy
  md : BitVec 4
  deriving DecidableEq, Repr

/-- A base address register of a function (R53): which BAR a host write goes to. -/
inductive Bar where
  | bar0 | bar2 | bar4
  deriving DecidableEq, Repr

/-- One command as taken from a ring (Table 3-4), with the function and ring index it came from. -/
structure Command where
  fn : Nat
  index : BitVec 32
  cookie : BitVec 32
  handle : BitVec 16
  flags : BitVec 8
  arg0 : W64
  arg1 : W64
  arg2 : W64
  arg3 : W64
  seq : W64
  atag : BitVec 128
  deriving DecidableEq, Repr

/-- A storage object that can be poisoned by an uncorrectable error (R409): a semaphore, a fold slot, a window. -/
inductive SyncObj where
  | sem (n : Nat) | fold (f : Nat) | window (w : Nat)
  deriving DecidableEq, Repr

/-- Every row of the opcode table. Tile-level events act on the tile the state names as current. -/
inductive Instr where
  -- power, resets and host registers (01, 03, 18, 19)
  | powerOn
  | functionLevelReset (n : Nat)
  | notify (fn : Nat) (v : W64)
  | khead (fn : Nat) (v : W64)
  | rcfgWrite (fn : Nat) (v : W64)
  | hostRegisterWrite (fn : Nat) (bar : Bar) (off : Nat) (v : W64)
  -- commands (03)
  | create (c : Command)
  | loadImage (c : Command)
  | start (c : Command)
  | mbwrite (c : Command)
  | preempt (c : Command)
  | resume (c : Command)
  | move (c : Command)
  | pageRelease (c : Command)
  | pageAccept (c : Command)
  | read (c : Command)
  | destroy (c : Command)
  | attest (c : Command)
  | sessionOpen (c : Command)
  | heartbeat (c : Command)
  | resync (c : Command)
  | setBudget (c : Command)
  | qconf (c : Command)
  | dieResume (c : Command)
  | hostMap (c : Command)
  | hostUnmap (c : Command)
  -- partitions, panel, debug and trace registers
  | pcommit (v : W64)
  | partitionRequestTimeout (pad : Nat)
  | panelnoWrite (v : W64)
  | einjctlGo (v : W64)
  | debugStop (fn : Nat)
  | debugGo (fn : Nat)
  | dump (fn : Nat)
  | arm (fn : Nat)
  | dpodcmdStop (v : W64)
  | dpodcmdGo (v : W64)
  | tcfgWrite (fn : Nat) (v : W64)
  | thead (fn : Nat) (v : W64)
  | traceRecordWrite
  | traceSample
  -- Shepherd events
  | temperatureReport (x y : Nat) (t : Int)
  | shepherdTakeover
  | heartbeatTimeout (fn : Nat)
  | holdExpiry (fn : Nat)
  | budgetWindow
  | sliceEnd (fn : Nat)
  | watchdog (pad : Nat) (reason : Nat)
  | reclaimReq (pad : Nat) (pos : Nat)
  | forcedReclaim (pad : Nat)
  | jobEnd (pad : Nat)
  -- hardware events
  | alignivExpiry
  | tickBeat
  | alignRelease
  | movePageSwitch
  | timerPend
  | trapEntry
  | paddockWideFault
  | engineRunStart (u : Slot)
  | breakpointStop
  | matrixProductStart
  | matrixRowRetire
  | vectorWriteLand
  | droverTransferFinish (slot : Nat)
  | pageWalkComplete
  | strArrival
  | foldAdvance (f : Nat)
  | windowPutApply
  | windowAck
  | reductionMerge
  | orderedRoundApply (w : Nat)
  | tileRetirement
  | rowShiftMigration
  | rowShiftRemap
  -- control register writes with a row of their own
  | kwrSyncrstFold (a : Reg)
  | kwrSyncrstWindow (a : Reg)
  | kwrLosssel (a : Reg)
  | kwrLossval (a : Reg)
  | kwrTrcemit (a : Reg)
  | kwrWdesc (w : BitVec 6) (a : Reg)
  | kwrWmap (w : BitVec 6) (a : Reg)
  | kwrPoolscope (a : Reg)
  | kwrTimer (a : Reg)
  -- scalar integer (07)
  | nop
  | add (d a b : Reg)
  | addi (d a : Reg) (imm : BitVec 14)
  | sub (d a b : Reg)
  | mul (d a b : Reg)
  | mulh (d a b : Reg)
  | mulhn (d a b : Reg)
  | div (d a b : Reg)
  | divn (d a b : Reg)
  | rem (d a b : Reg)
  | remn (d a b : Reg)
  | and (d a b : Reg)
  | andi (d a : Reg) (imm : BitVec 14)
  | or (d a b : Reg)
  | ori (d a : Reg) (imm : BitVec 14)
  | xor (d a b : Reg)
  | xori (d a : Reg) (imm : BitVec 14)
  | andn (d a b : Reg)
  | shl (d a b : Reg)
  | shli (d a : Reg) (n : BitVec 6)
  | shr (d a b : Reg)
  | shri (d a : Reg) (n : BitVec 6)
  | sar (d a b : Reg)
  | sari (d a : Reg) (n : BitVec 6)
  | rotl (d a b : Reg)
  | clz (d a : Reg)
  | ctz (d a : Reg)
  | popc (d a : Reg)
  | min (d a b : Reg)
  | max (d a b : Reg)
  | minn (d a b : Reg)
  | maxn (d a b : Reg)
  | cmp (c : IntCond) (d a b : Reg)
  | cmpi (c : IntCond) (d a : Reg) (imm : BitVec 14)
  | sel (d a b c : Reg)
  | movi (d : Reg) (imm : BitVec 20)
  | orhi (d : Reg) (imm : BitVec 16) (h : BitVec 2)
  | bfx (d a : Reg) (pos lenM1 : BitVec 6)
  | bfxs (d a : Reg) (pos lenM1 : BitVec 6)
  | bfi (d a : Reg) (pos lenM1 : BitVec 6)
  | bset (d a : Reg) (n : BitVec 6)
  | bclr (d a : Reg) (n : BitVec 6)
  | lea (d a b : Reg) (sh : BitVec 3)
  -- scalar float (07)
  | fadd (t : FpTy) (md : RMode) (d a b : Reg)
  | fsub (t : FpTy) (md : RMode) (d a b : Reg)
  | fmul (t : FpTy) (md : RMode) (d a b : Reg)
  | ffma (t : FpTy) (md : RMode) (d a b : Reg)
  | fmin (t : FpTy) (d a b : Reg)
  | fmax (t : FpTy) (d a b : Reg)
  | fcmp (c : FpCond) (t : FpTy) (d a b : Reg)
  | fcvt (td ts : ScalarTy) (md : RMode) (d a : Reg)
  | frsqa (t : FpTy) (d a : Reg)
  | frcpa (t : FpTy) (d a : Reg)
  | fclass (t : FpTy) (d a : Reg)
  | fsgn (op : SgnOp) (t : FpTy) (d a b : Reg)
  -- scalar memory and atomics (07, 15)
  | ld (w : Width) (d a : Reg) (off : BitVec 14)
  | ldz (w : Width) (d a : Reg) (off : BitVec 14)
  | st (w : Width) (d a : Reg) (off : BitVec 14)
  | ldp (d a : Reg) (off : BitVec 14)
  | stp (d a : Reg) (off : BitVec 14)
  | str (d a : Reg) (dx dy : BitVec 6)
  | spill (d a : Reg) (off : BitVec 14)
  | fill (d : Reg)
  | amo (op : AmoOp) (t : AmoTy) (o : AmoOrd) (d a b : Reg)
  | amocas (t : AmoTy) (o : AmoOrd) (d a b : Reg)
  | famoadd (t : FpTy) (md : RMode) (o : AmoOrd) (d a b : Reg)
  -- control flow (06, 07)
  | br (off : BitVec 26)
  | call (off : BitVec 26)
  | ret (a : Reg)
  | jr (d a : Reg)
  | loop (cnt : Reg) (len : BitVec 12) (lvl : BitVec 2)
  | loopi (n : BitVec 6) (len : BitVec 12) (lvl : BitVec 2)
  | lbrk (len : BitVec 12) (lvl : BitVec 2)
  | idle (d : Reg) (n : BitVec 20)
  | ppt (n : BitVec 12)
  | align
  | halt
  -- synchronisation (14)
  | semsig (set : Bool) (a : Reg) (n : BitVec 6) (q : BitVec 8)
  | semwt (a : Reg) (n : BitVec 6) (q : BitVec 8)
  | semtst (d a : Reg) (n : BitVec 6) (q : BitVec 8)
  | semwtt (d a b : Reg) (q : BitVec 8)
  | semrd (d : Reg) (q : BitVec 8)
  | farv (d : Reg) (f : BitVec 8)
  | fwt (d a : Reg) (f : BitVec 8)
  | fwtt (d a b : Reg) (f : BitVec 8)
  | fbar (d a : Reg) (n : BitVec 6) (f : BitVec 8)
  | wacq (a : Reg) (w : BitVec 6)
  | wrd (recv : Bool) (d : Reg) (w : BitVec 6)
  -- engine configuration (07)
  | mcfg (r a : BitVec 6) (w : BitVec 8)
  | vcfg (r a : BitVec 6) (w : BitVec 8)
  | dcfg (r a : BitVec 6) (w : BitVec 8)
  | tirw (r a : BitVec 6) (w : BitVec 8)
  | tirr (d r : BitVec 6) (w : BitVec 8)
  | fmtw (r a : BitVec 6)
  | ringw (r a : BitVec 6) (w : BitVec 8)
  | ringr (d r : BitVec 6) (w : BitVec 8)
  -- system (07, 08)
  | trap (n : BitVec 20)
  | eret
  | krd (d : Reg) (k : BitVec 8)
  | kwr (k : BitVec 8) (a : Reg)
  | mbrd (d : Reg) (n : BitVec 4)
  | mbwr (n : BitVec 4) (a : Reg)
  | msload (a b : Reg)
  | msbind (n a : BitVec 6)
  | msrd (entry : Bool) (d a : Reg)
  | caprd (d a : Reg) (k : BitVec 14)
  | srng (hi : Bool) (stream : BitVec 7) (d a b : Reg)
  | uopn (n : BitVec 6) (d a b : Reg)
  -- matrix (12)
  | mnop
  | mgo (e : En)
  | mma (e : En)
  | mzero (e : En)
  | mwb (e : En)
  | mscl (e : En)
  | mpop (e : En)
  | mvwin (e : En)
  -- vector (13)
  | vnop
  | vld (vd : BitVec 6) (a : Reg) (k : BitVec 6)
  | vst (vd : BitVec 6) (a : Reg) (k : BitVec 6)
  | vadd (o : Vr)
  | vsub (o : Vr)
  | vmul (o : Vr)
  | vfma (o : Vr)
  | vmin (o : Vr)
  | vmax (o : Vr)
  | vabs (o : Vr)
  | vneg (o : Vr)
  | vand (vd va vb : BitVec 6)
  | vor (vd va vb : BitVec 6)
  | vxor (vd va vb : BitVec 6)
  | vshl (o : Vr)
  | vshr (o : Vr)
  | vsar (o : Vr)
  | vcvt (td ts : VTy) (md : BitVec 3) (p : BitVec 3) (vd va : BitVec 6)
  | vcmp (o : Vr)
  | vsel (o : Vr)
  | vrsqa (o : Vr)
  | vrcpa (o : Vr)
  | vexp2a (vd va : BitVec 6)
  | vlog2a (vd va : BitVec 6)
  | vtint (o : Vr)
  | vrng (vd : BitVec 6) (a b : Reg)
  | vredadd (o : Vr)
  | vredmax (o : Vr)
  | vbcast (ty : VTy) (vd : BitVec 6) (a : Reg)
  | vperm (o : Vr)
  | vmovs (ty : VTy) (vd : BitVec 6) (a : Reg) (vb : BitVec 6) (hi : BitVec 4)
  | vchain (e : En)
  -- Drover (11)
  | dnop
  | dcopy (e : En)
  | dgather (e : En)
  | dscatter (e : En)
  | dfill (e : En)
  | dput (e : En)
  | dget (e : En)
  | dputadd (e : En)
  | damo (e : En)
  | dtab (e : En)
  | dfence (e : En)
  -- failures and the passing of time
  | dieFailure (x y : Nat)
  | regionCycle
  | hbmDataArrival
  | replayInputApply
  | syncObjectPoisoned (o : SyncObj)
  | reset
  deriving DecidableEq, Repr

/-- The guard of a syllable (R101, R102). -/
structure Guard where
  reg : BitVec 6
  bit : BitVec 6
  neg : Bool
  deriving DecidableEq, Repr

/-- The guard of an unguarded syllable. -/
def Guard.none : Guard := { reg := 0, bit := 0, neg := false }

/-- One decoded syllable. -/
structure Syllable where
  guard : Guard
  instr : Instr
  deriving DecidableEq, Repr

/-- A decoded bundle, one syllable for each slot (R99). -/
structure Bundle where
  s : Syllable
  m : Syllable
  v : Syllable
  d : Syllable
  deriving DecidableEq, Repr

end Sys2Proof
end

