-- ==== Sys2Proof/Config.lean ====
section
/-!
DEFINITION. Config.lean: what this part fixes and the spec leaves open. Every constant here without a body is a FREE
VALUE: nothing in Lean can find out what it is, so a statement that mentions it holds whatever it is. The assumption
log says of each where the spec leaves it open.
-/
namespace Sys2Proof.Config

/-- Extra cycles of an HBM or window run beyond the least of its band (R287), by the state's draw counter (log entry 24). -/
opaque latency : Nat → Nat
/-- Region cycles, 0 to 64, from a paddock-wide fault to the freeze (R426) (log entry 26). -/
opaque freezeDelay : Nat → Nat
/-- Region cycles, 0 to 1,024, until a request is taken by the paddock (R434) (log entry 26). -/
opaque requestDelay : Nat → Nat
/-- Cycles, 0 to 64, from the one on which a loose run's semaphore condition came to hold until it starts (R143), by the engine's
place, the run and that cycle (log entry 25). -/
opaque looseSlack : Nat → Nat → Nat → Nat
/-- Which of the legal placements the Shepherd takes (R82) (log entry 22). -/
opaque placement : Nat → Nat
/-- How many pairs of reduction contributions meet in a switch on a dtick (R403) (log entry 27). -/
opaque merges : Nat → Nat
/-- Which two of the contributions that may merge meet next, by the dtick and the messages in the fabric (R403) (log entry 27). -/
opaque mergePick : Nat → Nat → Nat
/-- Whether the host refuses an adapter access of a function at a host address (R59) (log entry 3). -/
opaque hostRefuses : Nat → Nat → Bool
/-- Fused seam latency of the seam east (0) or south (1) of a die, clamped to 18 to 40 where it is used (R81) (log entry 23). -/
opaque fused : Nat → Nat → Nat → Nat
/-- Rate over 1.6 GHz to which a die's clock is trimmed at boot, in 1/2^20 cycle for each 1,024 dticks, bounded where it is used
(R18) (log entry 5). -/
opaque trim : Nat → Nat → Int
/-- What thermal wander adds to the rate of a die's clock in a piece of 1,024 dticks, in 1/2^20 cycle a piece, bounded where it is
used (R18, R85) (log entry 5). -/
opaque drift : Nat → Nat → Nat → Int
/-- Extra cycles of a run that reaches host memory (R284), by the state's draw counter (log entry 24). -/
opaque hostLatency : Nat → Nat
/-- Factory repair: SHIFT of a row of the die of an index (R94), as the fuses hold it; taken modulo 9 (R16, R464) (log entry 4). -/
opaque factoryShift : Nat → Nat → Nat
/-- How much before or after the others a word of a put arrives at its home (R402), by the state's draw counter and the word's place in the
window (log entry 24). -/
opaque putLead : Nat → Nat → Nat
/-- The address that the drain at a pre-emption writes to a register's word of the spill table (R235), by the state's draw counter and the
register (log entry 64). -/
opaque parkAddress : Nat → Nat → W64
/-- Dtick at which a page of a background copy arrives, relative to the one before (R92) (log entry 28). -/
opaque copyDelay : Nat → Nat
/-- The part's serial and firmware measurements as attestation reports them (R65, Table 3-8) (log entry 20). -/
opaque identityByte : Nat → Byte
/-- ECDH over P-384: the shared secret of the part's one-time key with a host's public key (R61) (log entry 20). -/
opaque ecdhSecret : Nat → List Byte → List Byte
/-- The part's one-time public key of a session (R61) (log entry 20). -/
opaque ecdhPublic : Nat → List Byte
/-- HKDF-SHA-384 of a secret under a label (R61) (log entry 20). -/
opaque hkdf : List Byte → List Byte → List Byte
/-- The GCM tag over bytes under a key and counter (R62) (log entry 20). -/
opaque gcmTag : List Byte → Nat → List Byte → BitVec 128
/-- Words of the identity certificate chain (R469) (log entry 20). -/
opaque certWord : Nat → W64
/-- SHA-384 (R65) (log entry 20). -/
opaque sha384 : List Byte → List Byte
/-- The signature of a report under the part's identity key (R65) (log entry 20). -/
opaque sign : List Byte → List Byte
/-- Which source's record enters the trace ring next (R451), by the state's draw counter (log entry 30). -/
opaque traceSource : Nat → Nat

end Sys2Proof.Config
end

