-- ==== Sys2Proof/Machine/FMap.lean ====
section
/-!
DEFINITION. Machine/FMap.lean: finite maps keyed by numbers, and memories of bytes, both as lists in rising key order,
so that states stay plain data and equal contents are equal lists.
-/
namespace Sys2Proof.Machine

/-- A finite map: entries in strictly rising key order. -/
abbrev FMap (α : Type) := List (Nat × α)

/-- Strictly rising keys. -/
def FMap.sorted {α : Type} : FMap α → Bool
  | [] => true
  | [_] => true
  | p :: q :: m => decide (p.1 < q.1) && FMap.sorted (q :: m)

def FMap.get? {α : Type} : FMap α → Nat → Option α
  | [], _ => none
  | p :: m, k => if p.1 = k then some p.2 else FMap.get? m k

/-- The entry of k, or a default. -/
def FMap.getD {α : Type} (m : FMap α) (k : Nat) (d : α) : α := (FMap.get? m k).getD d

/-- Put an entry, replacing one of the same key. -/
def FMap.put {α : Type} : FMap α → Nat → α → FMap α
  | [], k, v => [(k, v)]
  | p :: m, k, v =>
    if k < p.1 then (k, v) :: p :: m
    else if k = p.1 then (k, v) :: m
    else p :: FMap.put m k v

/-- Remove an entry. -/
def FMap.del {α : Type} : FMap α → Nat → FMap α
  | [], _ => []
  | p :: m, k => if p.1 = k then m else p :: FMap.del m k

/-- Change an entry that is there. -/
def FMap.modify {α : Type} : FMap α → Nat → (α → α) → FMap α
  | [], _, _ => []
  | p :: m, k, f => if p.1 = k then (p.1, f p.2) :: m else p :: FMap.modify m k f

/-- The keys. -/
def FMap.keys {α : Type} (m : FMap α) : List Nat := m.map (·.1)

/-- A word register file: absent numbers read zero. -/
abbrev Regs := FMap W64

def Regs.rd (m : Regs) (k : Nat) : W64 := FMap.getD m k 0

/-- A byte memory. An unlisted address reads as zero (R237), and no listed byte is zero. -/
abbrev Mem := List Host.Cell

def Mem.rd (m : Mem) (a : Nat) : Byte := FMap.getD (α := Byte) m a 0

/-- The canonical form: strictly rising addresses and no byte equal to what an unlisted address reads as. -/
def Mem.wf (m : Mem) : Bool := FMap.sorted (α := Byte) m && m.all (fun c => c.2 != 0)

/-- The cells below an address. -/
def Mem.below (m : Mem) (a : Nat) : Mem := m.takeWhile (fun c => decide (c.1 < a))

/-- The cells at or above an address. -/
def Mem.above (m : Mem) (a : Nat) : Mem := m.dropWhile (fun c => decide (c.1 < a))

/-- The listed cells of a run of bytes from an address. -/
def Mem.cells : Nat → List Byte → Mem
  | _, [] => []
  | a, b :: bs => if b = 0 then Mem.cells (a + 1) bs else (a, b) :: Mem.cells (a + 1) bs

/-- Write a run of bytes from an address. -/
def Mem.write (m : Mem) (a : Nat) (bs : List Byte) : Mem :=
  Mem.below m a ++ Mem.cells a bs ++ Mem.above m (a + bs.length)

/-- Read n bytes from an address, in one pass over the list. -/
def Mem.read : Mem → Nat → Nat → List Byte
  | _, _, 0 => []
  | m, a, n + 1 =>
    match Mem.above m a with
    | [] => 0 :: Mem.read [] (a + 1) n
    | c :: m' => if c.1 = a then c.2 :: Mem.read m' (a + 1) n else 0 :: Mem.read (c :: m') (a + 1) n

/-- Clear n bytes from an address. -/
def Mem.clear (m : Mem) (a n : Nat) : Mem := Mem.below m a ++ Mem.above m (a + n)

/-- A little-endian run of bytes as a number (R3). -/
def leNat : List Byte → Nat
  | [] => 0
  | b :: bs => b.toNat + 256 * leNat bs

/-- The n low bytes of a number, lowest first (R3). -/
def natLE : Nat → Nat → List Byte
  | 0, _ => []
  | n + 1, x => BitVec.ofNat 8 x :: natLE n (x / 256)

/-- The 64-bit word at a byte address. -/
def Mem.rd64 (m : Mem) (a : Nat) : W64 := BitVec.ofNat 64 (leNat (Mem.read m a 8))

/-- Write a 64-bit word. -/
def Mem.wr64 (m : Mem) (a : Nat) (w : W64) : Mem := Mem.write m a (natLE 8 w.toNat)

/-- Sorted insertion into a set of numbers without repeats. -/
def nsAdd : List Nat → Nat → List Nat
  | [], k => [k]
  | x :: xs, k => if k < x then k :: x :: xs else if k = x then x :: xs else x :: nsAdd xs k

def nsDel (l : List Nat) (k : Nat) : List Nat := l.filter (· != k)

end Sys2Proof.Machine
end

