-- ==== Sys2Proof/Machine/Bits.lean ====
section
/-!
DEFINITION. Machine/Bits.lean: bit fields of 64-bit words, sign extension, and small helpers shared by every family.
-/
namespace Sys2Proof.Machine

/-- Bits hi down to lo of a word, as a number. -/
def bits (w : W64) (hi lo : Nat) : Nat := w.toNat / 2 ^ lo % 2 ^ (hi + 1 - lo)

/-- One bit of a word. -/
def bit (w : W64) (n : Nat) : Bool := w.getLsbD n

/-- A number placed at a bit position. -/
def fld (v lo : Nat) : W64 := BitVec.ofNat 64 (v * 2 ^ lo)

/-- A number of n bits read as two's complement. -/
def sext (n v : Nat) : Int := if v % 2 ^ n < 2 ^ (n - 1) then (v % 2 ^ n : Nat) else (v % 2 ^ n : Nat) - (2 ^ n : Nat)

/-- The low 64 bits of an integer. -/
def w64i (i : Int) : W64 := BitVec.ofInt 64 i

/-- A word with bits hi down to lo replaced. -/
def setBits (w : W64) (hi lo v : Nat) : W64 :=
  BitVec.ofNat 64 (w.toNat - bits w hi lo * 2 ^ lo + v % 2 ^ (hi + 1 - lo) * 2 ^ lo)

/-- Keep of new the bits of a mask, and of old the others: how a register whose map marks only some bits writable
is written (R155). -/
def maskWrite (old new mask : W64) : W64 := (new &&& mask) ||| (old &&& ~~~mask)

/-- The number of one bits. -/
def popcount (n : Nat) : Nat → Nat
  | 0 => 0
  | k + 1 => n % 2 + popcount (n / 2) k

/-- The ceiling of a quotient. -/
def ceilDiv (a b : Nat) : Nat := (a + b - 1) / b

/-- The first of a list, absent beyond its end. -/
def nth {α : Type} (l : List α) (n : Nat) (d : α) : α := l.getD n d

/-- A position of a list replaced. -/
def setNth {α : Type} : List α → Nat → α → List α
  | [], _, _ => []
  | _ :: xs, 0, v => v :: xs
  | x :: xs, n + 1, v => x :: setNth xs n v

end Sys2Proof.Machine
end

