-- ==== Sys2Proof/Machine/State.lean ====
section
/-!
DEFINITION. Machine/State.lean: the state of the part as plain data, and the state after power-on. Every piece of state
the spec names stands here; INVENTORY.md lists each with its rule and its reset value.
-/
namespace Sys2Proof.Machine

-- Traps (17)

/-- The causes of Table 17-1. -/
inductive Cause where
  | illegalSyllable | privilege | timing | seam | seqTag | queueImbalance | page | scope | protection
  | dataPoison | syncPoison | misalign | timer | brk | trap | watchdog | preempt | pauseptInvalid | ring
  deriving DecidableEq, Repr

/-- What a trap record says of a fault (R419), before the parts that entry fills in; wq: it is the poison of a semaphore that a run's
WQ names (R145); uop: an access of a run of micro-operations met it (R224). -/
structure FaultInfo where
  cause : Cause
  eng : Bool
  unit : Slot
  run : Nat
  t1 : W64
  t2 : W64
  t3 : W64
  wq : Bool := false
  uop : Bool := false
  deriving DecidableEq, Repr

-- The control core (06)

/-- A general register write in flight, and the flags that land with it (R135, R174). -/
structure RegWrite where
  reg : Reg
  val : W64
  left : Nat
  flags : BitVec 7
  deriving DecidableEq, Repr

/-- A write that takes effect on a later cycle (R199, R202, R228). -/
inductive Late where
  | ctl (k : Nat) (v : W64)
  | mn (r w : Nat) (v : W64)
  | ch (r w : Nat) (v : W64)
  | dd (r w : Nat) (v : W64)
  | ti (r w : Nat) (v : W64)
  | ft (r : Nat) (v : W64)
  | rg (r w : Nat) (v : W64)
  | mbox (n : Nat) (v : W64)
  | cstore (off : Nat) (v : W64)
  | bind (n : Nat) (v : W64)
  deriving DecidableEq, Repr

/-- What a scalar or micro-operation access does in its access cycle (R137, R190, R220, R406); a FILL's second access knows how
many register writes in flight were issued before it. -/
inductive Acc where
  | load (w : Width) (sx : Bool) (d : Reg)
  | loadPair (d : Reg)
  | store (data : List Byte)
  | spill (d : Reg) (v : W64)
  | fillTable (d : Reg)
  | fillWord (d : Reg) (older : Nat)
  | amo (op : AmoOp) (t : AmoTy) (o : AmoOrd) (d : Reg) (x : W64)
  | amocas (t : AmoTy) (o : AmoOrd) (d : Reg) (x e : W64)
  | famoadd (t : FpTy) (md : RMode) (o : AmoOrd) (d : Reg) (x : W64)
  | ust (data : List Byte)
  | uld (w : Width) (sx : Bool) (t : Nat)
  deriving DecidableEq, Repr

/-- A scalar access in flight: cycles left to its access cycle. -/
structure Access where
  acc : Acc
  ea : Nat
  left : Nat
  deriving DecidableEq, Repr

/-- A hardware loop level (R148). -/
structure Level where
  active : Bool
  first : Nat
  last : Nat
  cnt : W64
  trip : W64
  deriving DecidableEq, Repr

/-- A pending transfer (R146, R153): its target, the delay bundles to come, and whether it is a BR or JR (R152). -/
structure Xfer where
  target : W64
  left : Nat
  jump : Bool
  deriving DecidableEq, Repr

/-- The block of a UREP in progress (R217). -/
structure RepBlock where
  first : Nat
  len : Nat
  todo : Nat
  deriving DecidableEq, Repr

/-- A run of a bound sequence (R214 to R220). -/
structure UopRun where
  n : Nat
  entry : W64
  d : Reg
  a : W64
  b : W64
  di : W64
  mc : Nat
  pos : Nat
  rep : Option RepBlock
  temps : Regs
  tpend : List RegWrite
  flags : BitVec 7
  committed : Bool
  stores : List (Nat × List Byte)
  dval : Option W64
  hbmWait : Option Nat
  deriving DecidableEq, Repr

/-- Why the core issues nothing although it runs (R194, R214, R379). -/
inductive Hold where
  | none
  | idle (left : Nat)
  | fbar (left : Nat) (slot : Nat) (tok : BitVec 32)
  | uop (r : UopRun)
  deriving DecidableEq, Repr

/-- The control core of a tile. held: conditions recognised in the handler and not yet raised; returned: the bundle before was
an ERET (R424); waiting: conditions that a committed run keeps waiting (R224); frame: a discarded run whose temporaries still
land (R225); conds: conditions recognised on this cycle; lately: a queue or a transfer slot was in use on the last cycle (R161); dead: its
die has stopped (R29). -/
structure Core where
  regs : Regs
  pend : List RegWrite
  late : List (Late × Nat)
  landed : List Late
  acc : List Access
  pc : W64
  halted : Bool
  levels : FMap Level
  xfer : Option Xfer
  shJump : Bool
  hold : Hold
  waitFrom : Option Nat
  aligning : Bool
  ppt : Option Nat
  entering : Bool
  svc : Bool
  priv : Bool
  ppriv : Bool
  tie : Bool
  next : Option W64
  trapAfter : Option W64
  held : List FaultInfo
  returned : Bool
  waiting : List FaultInfo
  frame : Option UopRun
  conds : List FaultInfo
  pendAt : Nat
  faulted : Bool
  lately : Bool
  dead : Bool
  deriving DecidableEq, Repr

-- Stores (05, 08, 09)

/-- A store of bytes with an error code and a poison bit on each aligned 64-bit word: poisoned words by number, and
data bits inverted by an error not yet met, by word (R238, R475); errors corrected and found uncorrectable, not yet
counted by the Shepherd (R462). -/
structure Store where
  bytes : Mem
  poison : List Nat
  errs : FMap W64
  hits : Nat
  unc : Nat
  deriving DecidableEq, Repr

/-- The stores of a tile: pool with its frame tags, instruction store, control store and bindings, table memory. -/
structure Stores where
  pool : Store
  tags : FMap (BitVec 16)
  istore : Store
  cstore : Store
  binds : Regs
  tmem : Store
  deriving DecidableEq, Repr

-- Synchronisation objects (14, 15)

/-- A contribution held at the home of an ordered reduction window (R404). -/
structure Contrib where
  window : Nat
  panel : Nat
  sender : Nat
  seq : Nat
  addr : Nat
  data : List Byte
  aty : Nat
  deriving DecidableEq, Repr

/-- Semaphores, window counters and what changes them at the end of the cycle (R365 to R374, R381). -/
structure Sync where
  sems : FMap (BitVec 16)
  poison : List Nat
  sig : FMap Nat
  set : FMap (BitVec 16)
  ovf : Bool
  qnum : Nat
  wsent : Regs
  wrecv : Regs
  sentInc : FMap Nat
  recvInc : FMap Nat
  wpoison : List Nat
  rounds : FMap Nat
  contribs : List Contrib
  deriving DecidableEq, Repr

-- Engine queues (06)

/-- One queue entry with everything copied at push (R138, R110); ready: the cycle from which a loose stint keeps its next run waiting
no longer, once the run's semaphore condition holds (R143). -/
structure Entry where
  instr : Instr
  serial : BitVec 32
  start : Option Nat
  pushed : Nat
  rep : Nat
  step : Int
  j : Nat
  due : Nat
  ready : Option Nat
  ws : List W64
  its : List (List W64)
  x : W64
  y : W64
  deriving DecidableEq, Repr

/-- The run in progress of a queue's head: its start, and its completion cycle once known (R140). -/
structure Active where
  s : Nat
  fin : Option Nat
  deriving DecidableEq, Repr

/-- An engine queue (R138, R139): entries, oldest first; the serial of the next push; the run in progress. -/
structure Queue where
  entries : List Entry
  serial : BitVec 32
  act : Option Active
  deriving DecidableEq, Repr

-- The matrix engine (12)

/-- A scale loader in flight (R327): the walk's words, its base offset, columns in all and columns entered, and the column read on this
cycle. -/
structure Loader where
  serial : BitVec 32
  j : Nat
  s : Nat
  walk : List W64
  off : Int
  cols : Nat
  entered : Nat
  got : Option (List Byte)
  deriving DecidableEq, Repr

/-- A signal to make at a finish: semaphore, amount, and whether the release is made first (R288, R311, R358). -/
structure Signal where
  q : Nat
  n : Nat
  rel : Bool
  deriving DecidableEq, Repr

/-- A product from its start to the retirement of its last row (R316, R317). -/
structure Product where
  serial : BitVec 32
  j : Nat
  p : Nat
  s : Nat
  t : Nat
  fmt : W64
  aFrame : Nat
  bFrame : Nat
  ct : Nat
  colA : List (List Byte)
  colB : List (List Byte)
  arows : List (List Byte)
  brows : List (List Byte)
  crow : Option (List Byte)
  cflags : BitVec 7
  pops : List Nat
  sigs : List Signal
  dead : Bool
  deriving DecidableEq, Repr

/-- The run of a nest in progress (R310, R318): next product, products in all, and the cycle the next one is due. -/
structure Nest where
  p : Nat
  total : Nat
  due : Nat
  deriving DecidableEq, Repr

/-- An MZERO or MWB run in progress (R325, R326): for MWB the row read on the cycle before. -/
structure RowRun where
  serial : BitVec 32
  j : Nat
  s : Nat
  tile : Nat
  ws : List W64
  wb : Bool
  step : Int
  row : Option (List Byte)
  flags : BitVec 7
  sig : Option Signal
  dead : Bool
  deriving DecidableEq, Repr

/-- The matrix engine's own state. -/
structure Matrix where
  mn : Regs
  ft : Regs
  scaleA : List (List Byte)
  scaleB : List (List Byte)
  loadA : Option Loader
  loadB : Option Loader
  nest : Option Nest
  prods : List Product
  rows : List RowRun
  deriving DecidableEq, Repr

-- The vector engine (13)

/-- A write of the vector engine that has not landed (R337): bytes at virtual addresses in element order, the run they
belong to, and the run's signal where it is the last one. -/
structure VWrite where
  due : Nat
  serial : BitVec 32
  j : Nat
  items : List (Nat × List Byte)
  flags : BitVec 7
  sig : Option Signal
  deriving DecidableEq, Repr

/-- A chain run in progress (R358, R361): its start, the next group and when it reads, all groups, the window it read at its
start, the ring frames its A and B walks read, suspension, the cycle its HBM data arrives, and the frames whose tag is still to be
checked, each with the tag expected (R240, R359). -/
structure Chain where
  s : Nat
  group : Nat
  groups : Nat
  due : Nat
  win : Nat
  frameA : Option Nat
  frameB : Option Nat
  susp : Bool
  wait : Option Nat
  checks : List (Nat × Nat) := []
  deriving DecidableEq, Repr

/-- The vector engine's own state; rsr: vrctr as the cycle's start found it (R345); landed: a pending write landed on this cycle
(R337). -/
structure Vector where
  ch : Regs
  vwin : Nat
  pend : List VWrite
  chain : Option Chain
  vxst : W64
  rsr : W64
  landed : Bool
  deriving DecidableEq, Repr

-- The Drover engine (11)

/-- What a beat in flight carries (R284, R294): indices, elements on their way, or old values on their way back. -/
inductive BeatKind where
  | index | data | back
  deriving DecidableEq, Repr

/-- Elements of a run in flight: their numbers, when their bytes are read and written, and the bytes once read. -/
structure Beat where
  kind : BeatKind
  first : Nat
  count : Nat
  readAt : Nat
  writeAt : Nat
  read : Bool
  data : List (List Byte)
  deriving DecidableEq, Repr

/-- A refusal of element e on its way back to the issuing tile from another one (R298). -/
structure Refused where
  e : Nat
  due : Nat
  tile : Nat
  info : FaultInfo
  deriving DecidableEq, Repr

/-- A run that holds a transfer slot, or whose beats are still in flight after it gave the slot up (R284, R285, R298, R299):
its entry's copies, its beats in all and those issued, the next element of a beat cut by a suspension, its drawn latency,
indices read, the latest cycle any of its bytes is written, its finish once known, the first element discarded; ahead: beats written
before one of earlier elements (R290); asked: an answer with bytes is still to come. -/
structure DRun where
  serial : BitVec 32
  j : Nat
  slot : Option Nat
  instr : Instr
  ws : List W64
  its : List (List W64)
  step : Int
  s : Nat
  beta : Nat
  issued : Nat
  elem : Nat
  h : Nat
  idx : List Int
  beats : List Beat
  last : Nat
  fin : Option Nat
  stopAt : Option Nat
  refusals : List Refused
  susp : Bool
  side : Bool
  base : Option Nat
  checked : List Nat
  filled : FMap Nat
  route : W64
  seq : Nat
  sent : Bool
  asked : Bool
  ahead : List (Nat × Nat)
  again : Bool := false
  deriving DecidableEq, Repr

/-- A tile has refused an element of an entry: it discards every later one that reaches it (R298). -/
structure Shun where
  serial : BitVec 32
  j : Nat
  e : Nat
  tile : Nat
  deriving DecidableEq, Repr

/-- The Drover engine's own state with the iterator and ring records: the runs in flight in start order, a fence in
progress, elements refused at a tile, pushes in progress into this tile's rings, and what rings take at the end of the cycle:
pushes completed, each with its tag, and pops. -/
structure Drover where
  dd : Regs
  ti : Regs
  rg : Regs
  runs : List DRun
  fence : Bool
  shun : List Shun
  pushing : List Nat
  tails : List (Nat × Nat)
  heads : List Nat
  deriving DecidableEq, Repr

-- Observation (18) and translation (09)

/-- A trace record waiting in its source buffer or in the ring (R451). -/
structure TraceRec where
  kind : Nat
  time : W64
  src : Nat
  aux : Nat
  data : W64
  seq : Nat
  drop : Nat
  deriving DecidableEq, Repr

/-- Loss counters and trace source of a tile (R440, R451); seen: the class of a queue whose due head did not start on this cycle, and the
semaphore it waits for (R439). -/
structure Observe where
  seen : FMap (Nat × Option Nat)
  losssel : W64
  counters : Regs
  snaps : Regs
  seq : Nat
  buf : List TraceRec
  lost : Nat
  deriving DecidableEq, Repr

/-- The tile's TLB, most recent first, and the walks it waits for (R253, R254). -/
structure Tlb where
  pages : List Nat
  walks : List (Nat × Option Nat)
  deriving DecidableEq, Repr

/-- One tile of a paddock. mboxLatch: host mailbox writes that wait for a pause point, in ring order (R46); savedCtl: registers
that stand in the saved state as they were at the seal (R456); parked: bits of spmap that the drain at a pre-emption has set (R235). -/
structure Tile where
  core : Core
  ctl : Regs
  savedCtl : Regs
  parked : W64
  mbox : Regs
  mboxLatch : List (Nat × W64)
  mboxIn : List (Nat × W64)
  st : Stores
  sync : Sync
  mq : Queue
  vq : Queue
  dq : Queue
  mx : Matrix
  vec : Vector
  dr : Drover
  obs : Observe
  tlb : Tlb
  deriving DecidableEq, Repr

def Core.init : Core :=
  { regs := [], pend := [], late := [], landed := [], acc := [], pc := 0, halted := false, levels := [],
    xfer := none, shJump := false, hold := .none, waitFrom := none, aligning := false, ppt := none, entering := false,
    svc := false, priv := true, ppriv := false, tie := false, next := none, trapAfter := none, held := [], returned := false,
    waiting := [], frame := none, conds := [], pendAt := 0, faulted := false, lately := false, dead := false }

def Store.empty : Store := { bytes := [], poison := [], errs := [], hits := 0, unc := 0 }

def Stores.empty : Stores :=
  { pool := Store.empty, tags := [], istore := Store.empty, cstore := Store.empty, binds := [], tmem := Store.empty }

def Sync.init : Sync :=
  { sems := [], poison := [], sig := [], set := [], ovf := false, qnum := 0, wsent := [], wrecv := [],
    sentInc := [], recvInc := [], wpoison := [], rounds := [], contribs := [] }

def Queue.init : Queue := { entries := [], serial := 0, act := none }

def Matrix.init : Matrix :=
  { mn := [], ft := [], scaleA := [], scaleB := [], loadA := none, loadB := none, nest := none, prods := [],
    rows := [] }

def Vector.init : Vector := { ch := [], vwin := 0, pend := [], chain := none, vxst := 0, rsr := 0, landed := false }

def Drover.init : Drover := 
  { dd := [], ti := [], rg := [], runs := [], fence := false, shun := [], pushing := [], tails := [],
    heads := [] }

def Observe.init : Observe :=
  { seen := [], losssel := 0, counters := [], snaps := [], seq := 0, buf := [], lost := 0 }

/-- A tile at START before its image is loaded (R154). -/
def Tile.init : Tile :=
  { core := Core.init, ctl := [], savedCtl := [], parked := 0, mbox := [], mboxLatch := [], mboxIn := [], st := Stores.empty, sync := Sync.init,
    mq := Queue.init, vq := Queue.init, dq := Queue.init, mx := Matrix.init, vec := Vector.init, dr := Drover.init,
    obs := Observe.init, tlb := { pages := [], walks := [] } }

-- The paddock (02, 03, 04)

/-- Paddock states (R70). -/
inductive PState where
  | empty | loaded | running | preempted | halted | held | destroyed
  deriving DecidableEq, Repr

/-- A word in flight between tiles of a paddock (R188, R436): an STR word, or its SCOPE refusal on the way back. -/
structure NetWord where
  due : Nat
  sender : Nat
  target : Nat
  off : Nat
  data : W64
  refusal : Option W64
  lat : Nat
  deriving DecidableEq, Repr

/-- A fold (R375, R410): its members, FOLDLAT, phase, arrivals with their cycles, the cycle the advance is visible, poison,
the members that have written syncrst for it, and the cycle that reinitialises it. -/
structure Fold where
  members : List Nat
  lat : Nat
  phase : BitVec 32
  arrived : List (Nat × Nat)
  advance : Option Nat
  poison : Bool
  rewrote : List Nat
  resetAt : Option Nat
  deriving DecidableEq, Repr

/-- A seam of the image (R36): column or row, index, latency. -/
structure Seam where
  col : Bool
  index : Nat
  lat : Nat
  deriving DecidableEq, Repr

/-- A binding of an address range to a synchronisation object (R48): words 2 and 3 as the image holds them. -/
structure Binding where
  start : Nat
  len : Nat
  obj : W64
  addr : W64
  deriving DecidableEq, Repr

/-- What the image says of the paddock (02): geometry, partition, stint classes, seams, bindings. -/
structure Shape where
  w : Nat
  h : Nat
  world : Nat
  chan : Nat
  part : W64
  alignIv : Nat
  pauseMax : Nat
  nstint : Nat
  strict : List Bool
  seams : List Seam
  binds : List Binding
  deriving DecidableEq, Repr

/-- Why a paddock's clock is off (R89, R431, R434, R426, R442, R29, R465). -/
inductive Freeze where
  | align (dtick : Nat)
  | service
  | release (dtick : Nat)
  | stop
  | thermal
  | retire
  | fault
  deriving DecidableEq, Repr

/-- A request waiting for a pause point: relocate is the move of a tile that retires (R71, R434, R72, R458, R461, R465, R468). -/
inductive Req where
  | preempt | slice | seal | partition | relocate | move (target : W64) | stop | thermal | retire
  | release (addr : W64) (n : Nat) | accept (addr : W64) (n : Nat)
  | hostMap (addr host : W64) (n perm : Nat) | hostUnmap (addr : W64) (n : Nat)
  deriving DecidableEq, Repr

/-- A waiting request: the first cycle whose PPT carries it out, the command that asked for it, and the region cycle and WATCHDOG
reason of its deadline where it has one (R59, R71, R434). -/
structure Pending where
  req : Req
  due : Nat
  cmd : Option Command
  deadline : Option (Nat × Nat)
  deriving DecidableEq, Repr

/-- A fault recognised at a tile, waiting for the Shepherd's report (R427). -/
structure Report where
  cycle : Nat
  tile : Nat
  info : FaultInfo
  deriving DecidableEq, Repr

/-- An INPUT record armed for replay (R454). -/
structure Armed where
  time : Nat
  tile : Nat
  mbox : Nat
  value : W64
  seq : Nat
  deriving DecidableEq, Repr

/-- What the debug block keeps for one paddock; fireAt and fireBp: the stop cycle of a breakpoint that fired, and its number;
since holds the cycle each breakpoint became valid, firsts the cycle on which the first entry of its serial was pushed after it (R444,
R446, R453, R454). -/
structure Dbg where
  bps : Regs
  djob : W64
  state : Nat
  zlow : Nat
  bp : Nat
  incomp : Bool
  fireAt : Option Nat
  fireBp : Nat
  since : FMap Nat
  firsts : FMap Nat
  armed : List Armed
  deriving DecidableEq, Repr

/-- A HOST page: its entry (Table 9-6), and the host address it maps (R72). -/
structure HostPage where
  entry : W64
  base : Nat
  deriving DecidableEq, Repr

/-- One paddock. capture, capTick: dtick and region cycle of the last release, when phases were captured (R87); bases: what each of
its dies' dtick read then (R85); owed: tiles that a notification is owed to
(R433); sliced: pre-empted at the end of a slice, and resumed in a later window (R68); badSave: lines of the save image that fail
their check, by tile (R438); slips: cycles that a defective clock has moved a die's count since the last capture (R88); rises: cycles
that the last alignment froze each die (R90); ranAt: dtick of its last region cycle; waking: it is
released from a freeze, and its release wave is not over (R91). -/
structure Paddock where
  fn : Nat
  handle : Nat
  state : PState
  heldFrom : PState
  image : List Byte
  shape : Shape
  place : W64
  rtick : Nat
  alignCnt : Nat
  stint : Nat
  cls : Nat
  strict : Bool
  freeze : Option Freeze
  stopAt : Option Nat
  capture : Nat
  capTick : Nat
  bases : FMap Nat
  slips : FMap Int
  rises : FMap Nat
  ranAt : Nat
  waking : Bool
  tiles : FMap Tile
  net : List NetWord
  folds : FMap Fold
  hbm : Store
  pages : FMap W64
  hostPages : FMap HostPage
  chans : List (Option Nat)
  reclaims : FMap Nat
  moving : List Nat
  nextSwitch : Option Nat
  oldChans : List Nat
  moveCmd : Option Command
  owed : List Nat
  sliced : Bool
  badSave : List (Nat × Nat)
  pending : List Pending
  reports : List Report
  measStore : List Byte
  measTable : List Byte
  dbg : Dbg
  deriving DecidableEq, Repr

def Shape.init : Shape :=
  { w := 0, h := 0, world := 0, chan := 0, part := 0, alignIv := 0, pauseMax := 0, nstint := 0, strict := [],
    seams := [], binds := [] }

def Dbg.init : Dbg :=
  { bps := [], djob := 0, state := 0, zlow := 0, bp := 0, incomp := false, fireAt := none, fireBp := 0, since := [], firsts := [], armed := [] }

/-- A paddock in EMPTY (R70, R478). -/
def Paddock.init : Paddock :=
  { fn := 0, handle := 0, state := .empty, heldFrom := .empty, image := [], shape := Shape.init, place := 0, rtick := 0,
    alignCnt := 0, stint := 0, cls := 0, strict := true, freeze := none, stopAt := none, capture := 0, capTick := 0, bases := [], slips := [], rises := [], ranAt := 0, waking := false,
    tiles := [],
    net := [], folds := [], hbm := Store.empty, pages := [], hostPages := [], chans := [], reclaims := [], moving := [],
    nextSwitch := none, oldChans := [], moveCmd := none, owed := [], sliced := false, badSave := [], pending := [], reports := [],
    measStore := [], measTable := [], dbg := Dbg.init }

-- Windows between panels (15)

/-- The route of a window run (R401). -/
structure Route where
  panel : Nat
  kind : Nat
  hx : Nat
  hy : Nat
  peer : Nat
  deriving DecidableEq, Repr

/-- The sender of a window run: panel, paddock, tile, entry serial and run index; the element its message begins with, and whether the
run counts at the home when its last byte is applied (R288, R402). -/
structure Sender where
  panel : Nat
  pad : Nat
  tile : Nat
  serial : BitVec 32
  j : Nat
  elem : Nat
  counts : Bool
  deriving DecidableEq, Repr

/-- What a message of the fabric carries: bytes to put, contributions to add, ranges to get, or an answer: the bytes got,
or the element refused with its cause, or because the window is poisoned, with the old values of the elements before it. -/
inductive PodBody where
  | put (items : List (Nat × List Byte))
  | add (ty seq : Nat) (items : List (Nat × List Byte))
  | get (items : List (Nat × Nat))
  | amo (op ty : Nat) (items : List (Nat × List Byte))
  | ack (data : List (List Byte))
  | nack (elem : Nat) (cause : Cause) (data : List (List Byte))
  | poisoned (elem : Nat) (data : List (List Byte))
  | stop (tag : Nat)
  | go (tag : Nat)
  | stopped
  deriving DecidableEq, Repr

/-- A message of the Droveway fabric; a merged one answers every sender it came from (R403); back is how long its answer takes. -/
structure PodMsg where
  window : Nat
  route : Route
  senders : List Sender
  back : Nat
  body : PodBody
  deriving DecidableEq, Repr

-- Functions (03, 18)

/-- A session of a VF (R61 to R63, R66): key, expected and greatest accepted number, dtick of the last heartbeat. -/
structure Session where
  key : List Byte
  expected : Nat
  top : Nat
  heard : Nat
  deriving DecidableEq, Repr

/-- The debug block of a function (Table 18-6). -/
structure DebugBlock where
  dhandle : W64
  err : Nat
  ddump : W64
  dtile : W64
  tbase : W64
  tcfg : W64
  ttail : Nat
  thead : Nat
  tdrop : Nat
  rbase : W64
  rcnt : W64
  dpod : W64
  podstat : W64
  deriving DecidableEq, Repr

/-- A function: register block, ring state, entries held back, queue settings, budget, handles, session, world key and
debug block (R53 to R57, R61 to R68, R446, R478). -/
structure Func where
  cbase : W64
  kbase : W64
  rcfg : W64
  head : Nat
  tail : Nat
  ktail : Nat
  khead : Nat
  halt : Nat
  recheck : Bool
  authcnt : Nat
  replaycnt : Nat
  pendcnt : Nat
  held : List (List W64)
  blocked : List (List W64)
  undone : List (Nat × Command)
  level : Nat
  pinned : Bool
  mapped : Bool
  pendingMap : Bool
  budget : Nat
  nextBudget : Nat
  used : Nat
  debt : Nat
  ended : Bool
  lastHandle : Option Nat
  session : Option Session
  void : Bool
  hold : Option Nat
  worldKey : Option Nat
  dbg : DebugBlock
  deriving DecidableEq, Repr

def DebugBlock.init : DebugBlock :=
  { dhandle := 0, err := 0, ddump := 0, dtile := 0, tbase := 0, tcfg := 0, ttail := 0, thead := 0, tdrop := 0,
    rbase := 0, rcnt := 0, dpod := 0, podstat := 0 }

/-- A function at power-on (R54, R56, R67, R478). -/
def Func.init : Func :=
  { cbase := 0, kbase := 0, rcfg := 0, head := 0, tail := 0, ktail := 0, khead := 0, halt := 0, recheck := false,
    authcnt := 0, replaycnt := 0, pendcnt := 0, held := [], blocked := [], undone := [], level := 0, pinned := false, mapped := false,
    pendingMap := false, budget := 0, nextBudget := 0, used := 0, debt := 0, ended := false, lastHandle := none,
    session := none, void := false, hold := none, worldKey := none, dbg := DebugBlock.init }

-- The panel (01, 04, 19, 20)

/-- Error counts of a physical tile (Table 19-2), with the dtick of every corrected pool error of the last hour. -/
structure ErrCnt where
  unc : Nat
  corr : Nat
  stamps : List Nat
  deriving DecidableEq, Repr

/-- What the Shepherd knows of a die: last reported temperature, frozen for heat, stopped, failed (R29, R73, R471). -/
structure Die where
  temp : Int
  hot : Bool
  stopped : Bool
  failed : Bool
  deriving DecidableEq, Repr

/-- Stages of a retirement (R465). -/
inductive RStage where
  | queued | freezing | copying (done : Nat)
  deriving DecidableEq, Repr

/-- Which paddock and tile a tile-level step acts on. -/
structure Ctx where
  pad : Nat
  tile : Nat
  deriving DecidableEq, Repr

/-- A retirement, queued or in progress (R463, R465): die, row, exposed column, cause, its stage, and the tiles copied so far with the
dtick on which each copy ends. -/
structure Retire where
  die : Nat
  row : Nat
  col : Nat
  cause : Nat
  stage : RStage
  copied : List (Ctx × Nat)
  deriving DecidableEq, Repr

/-- A command whose action is done when its paddocks leave their release: opcode, command, paddocks and first result (R59). -/
structure Await where
  op : Nat
  cmd : Command
  pads : List Nat
  res : W64
  deriving DecidableEq, Repr

/-- The panel: what is neither one paddock's nor one function's. podStops: pod stops to report, tag and bellwether (R448); turns:
the ring served last on each level (R56); seamCnt, mdieErrs: errors counted against dies (R88, R256); dieTop: the greatest dtick a
paddock that gave its die up has read there (R85); slipped: cycles that defective clocks of the dies have slipped in all (R88); struck: bits inverted in the
pools of physical tiles that no paddock stands on (R475). -/
structure Panel where
  panelno : W64
  einjaddr : W64
  diePast : FMap Nat
  fnPast : FMap Nat
  dieLive : FMap Nat
  fnLive : FMap Nat
  pstat : Nat
  remap : FMap Nat
  dead : List Nat
  log : List (W64 × W64)
  power : Nat
  retire2 : W64
  shifted : Nat
  retires : List Retire
  awaits : List Await
  errs : FMap ErrCnt
  dies : FMap Die
  owners : FMap Nat
  fabric : List (Nat × PodMsg)
  outbox : List (Nat × Nat × PodMsg)
  windowAt : Nat
  turns : FMap Nat
  seamCnt : FMap Nat
  mdieErrs : FMap Nat
  dieTop : FMap Nat
  slipped : FMap Int
  struck : FMap (FMap W64)
  shep : Nat
  shepSeq : Nat
  shepBuf : List (Nat × TraceRec)
  shepLost : Nat
  podStops : List (Nat × Nat)
  deriving DecidableEq, Repr

/-- Spares that factory repair left unused (R17, R27): the rows it did not shift. -/
def factorySpares : Nat := ((List.range 1600).filter fun i => Config.factoryShift (i / 8) (i % 8) % 9 == 8).length

/-- The panel at its first power-on (R24, R94, R400, R464, R469). -/
def Panel.init : Panel :=
  { panelno := 0, einjaddr := 0, diePast := [], fnPast := [], dieLive := [], fnLive := [], pstat := 0, remap := [],
    dead := [], log := [], power := 1, retire2 := BitVec.ofNat 64 factorySpares, shifted := 0, retires := [], awaits := [], errs := [],
    dies := [], owners := [], fabric := [], outbox := [], windowAt := 0, turns := [], seamCnt := [], mdieErrs := [], dieTop := [], slipped := [],
    struck := [], shep := 105, shepSeq := 0,
    shepBuf := [], shepLost := 0, podStops := [] }

-- The state of the model

/-- Phases of a region cycle (log entry 1). -/
inductive Phase where
  | land | starts | writes | engines | reads | conds | finish | between | service | shepherd
  deriving DecidableEq, Repr

/-- Work still to do before the next dtick (log entry 1). -/
inductive Job where
  | run (c : Ctx) (i : Instr)
  | phase (pad : Nat) (p : Phase)
  | present (c : Ctx)
  deriving DecidableEq, Repr

/-- What the outside world can do: an input row, a host write to its own memory, a one-byte host write to a function's BAR2, a
message from another panel; and what storage may do: an HBM line with an error that its code corrects or not, inverted bits of a
word of a tile's store (R238: 0 pool, 1 instruction store, 2 control store, 3 table memory), a line of a save image that fails
its check (R438); or a clock defect: cycles that a die's clock slips (R88). -/
inductive Input where
  | row (c : Ctx) (i : Instr)
  | hostMem (fn addr : Nat) (data : List Byte)
  | hostByte (fn off : Nat) (b : Byte)
  | pod (m : PodMsg)
  | hbmError (pad line : Nat) (corrected : Bool)
  | upset (c : Ctx) (store word : Nat) (mask : W64)
  | saveError (pad tile line : Nat)
  | clockSlip (die : Nat) (cycles : Int)
  deriving DecidableEq, Repr

/-- The state of the machine: one panel, the host memory its functions see, and the model's own fields: agenda, inbox,
cur and free. -/
structure State where
  dtick : Nat
  pads : FMap Paddock
  fns : FMap Func
  panel : Panel
  host : Mem
  agenda : List Job
  inbox : List (Nat × Input)
  cur : Ctx
  free : Nat
  deriving DecidableEq, Repr

/-- Why the model stops with a fault: it never does. -/
inductive Fault where
  deriving DecidableEq, Repr

/-- Why the model gives no next state. -/
inductive Refusal where
  /-- Raised by an arm of exec whose instruction has no meaning yet. Safe: nothing can be proved of it. -/
  | notModelled (mnemonic : String)
  deriving DecidableEq, Repr

/-- The part right after power-on (R24). -/
def State.reset : State :=
  { dtick := 0, pads := [], fns := [], panel := Panel.init, host := [], agenda := [], inbox := [],
    cur := { pad := 0, tile := 0 }, free := 0 }

end Sys2Proof.Machine
end

