-- ==== Sys2Proof/Machine/Ops.lean ====
section
/-!
DEFINITION. Machine/Ops.lean: the named operations every meaning is written with: reading and writing registers,
pool words and their poison, semaphores; taking a trap and returning from one.
-/
namespace Sys2Proof.Machine

/-- An outcome that goes on. -/
abbrev Out := Host.Outcome State Fault Refusal

-- The current paddock and tile

def State.pad (s : State) : Paddock := FMap.getD s.pads s.cur.pad Paddock.init

def State.modPad (s : State) (f : Paddock → Paddock) : State :=
  { s with pads := FMap.put s.pads s.cur.pad (f s.pad) }

def State.tile (s : State) : Tile := FMap.getD s.pad.tiles s.cur.tile Tile.init

def State.setTile (s : State) (t : Tile) : State :=
  s.modPad fun p => { p with tiles := FMap.put p.tiles s.cur.tile t }

def State.modTile (s : State) (f : Tile → Tile) : State := s.setTile (f s.tile)

def State.modCore (s : State) (f : Core → Core) : State := s.modTile fun t => { t with core := f t.core }

def State.modSync (s : State) (f : Sync → Sync) : State := s.modTile fun t => { t with sync := f t.sync }

/-- The same machine with another tile of the paddock as current. -/
def State.at (s : State) (tile : Nat) : State := { s with cur := { s.cur with tile := tile } }

/-- Do something at another tile and come back. -/
def State.atTile (s : State) (tile : Nat) (f : State → State) : State := { f (s.at tile) with cur := s.cur }

-- General registers (R135)

/-- A general register as visible now; s0 reads zero. -/
def State.rd (s : State) (r : Reg) : W64 := if r = 0 then 0 else Regs.rd s.tile.core.regs r.toNat

/-- A write that lands after a latency, with flags that land beside it. A write of s0 without flags is no write. -/
def Core.later (c : Core) (d : Reg) (v : W64) (lat : Nat) (fl : BitVec 7) : Core :=
  if d = 0 ∧ fl = 0 then c else { c with pend := c.pend ++ [{ reg := d, val := v, left := lat, flags := fl }] }

def State.later (s : State) (d : Reg) (v : W64) (lat : Nat) : State := s.modCore fun c => c.later d v lat 0

def State.laterFl (s : State) (d : Reg) (v : W64) (lat : Nat) (fl : BitVec 7) : State :=
  s.modCore fun c => c.later d v lat fl

/-- A write of a control register, mailbox, store or engine record that takes effect on the next cycle (R199). -/
def State.lateW (s : State) (w : Late) : State := s.modCore fun c => { c with late := c.late ++ [(w, 1)] }

/-- A control register of plain storage. -/
def State.ctl (s : State) (k : Nat) : W64 := Regs.rd s.tile.ctl k

def Tile.setCtl (t : Tile) (k : Nat) (v : W64) : Tile := { t with ctl := FMap.put t.ctl k v }

def State.setCtl (s : State) (k : Nat) (v : W64) : State := s.modTile fun t => t.setCtl k v

-- Control register numbers of plain storage (Tables 6-6, 8-8, 9-8, 12-11, 13-10, 17-5)
def kTimer : Nat := 0x0C
def kTcmp : Nat := 0x0D
def kTvec : Nat := 0x10
def kTepc : Nat := 0x11
def kTinfo0 : Nat := 0x12
def kFpcsr : Nat := 0x18
def kSpmap : Nat := 0x1A
def kMstemp : Nat := 0x30
def kMsframe : Nat := 0x38
def kMsbstat : Nat := 0x39
def kPoolscope : Nat := 0x3C
def kMxdbg : Nat := 0x50
def kVrkey : Nat := 0x58
def kVrctr : Nat := 0x59
def kShlev : Nat := 0x68
def kShcnt : Nat := 0x6C
def kShtrip : Nat := 0x70
def kShxfer : Nat := 0x74
def kShxst : Nat := 0x75
def kShhold : Nat := 0x76
def kWdesc : Nat := 0x80
def kWmap : Nat := 0xC0

/-- Flags ORed into fpcsr (R174, R270). -/
def Tile.orFlags (t : Tile) (fl : BitVec 7) : Tile :=
  if fl = 0 then t else t.setCtl kFpcsr (Regs.rd t.ctl kFpcsr ||| fl.setWidth 64)

-- Mode and privilege

/-- The current stint is strict (pstat.MODE). -/
def State.strict (s : State) : Bool := s.pad.strict

/-- The tile runs in K (pstat.PRIV). -/
def State.inK (s : State) : Bool := s.tile.core.priv

/-- The bundle being issued is a delay bundle of a taken transfer (R146). -/
def State.inDelay (s : State) : Bool :=
  match s.tile.core.xfer with
  | some x => decide (0 < x.left)
  | none => false

/-- The bundle index of the program counter as a byte address (R98). -/
def bundleAddr (pc : W64) : W64 := 24 * pc

-- Stores with an error code and poison on every word (R238)

/-- Word w meets its error code: a single flipped bit is corrected and counted, more set the poison bit and count as an
uncorrectable error. -/
def Store.meet (st : Store) (w : Nat) : Store :=
  match FMap.get? st.errs w with
  | none => st
  | some m =>
    let n := popcount m.toNat 64
    if n = 0 then { st with errs := FMap.del st.errs w }
    else if n = 1 then { st with errs := FMap.del st.errs w, hits := st.hits + 1 }
    else { st with errs := FMap.del st.errs w, poison := nsAdd st.poison w, unc := st.unc + 1 }

/-- Meet the codes of n words from word w on. -/
def Store.meetAll (st : Store) (w : Nat) : Nat → Store
  | 0 => st
  | n + 1 => if st.errs.isEmpty then st else Store.meetAll (st.meet w) (w + 1) n

/-- The number of words that n bytes at a touch. -/
def wordsOf (a n : Nat) : Nat := if n = 0 then 0 else (a + n - 1) / 8 - a / 8 + 1

/-- The first poisoned word among those that n bytes at a touch. -/
def Store.poisoned (st : Store) (a n : Nat) : Option Nat :=
  st.poison.find? fun w => decide (a / 8 ≤ w ∧ w < a / 8 + wordsOf a n)

/-- Read n bytes: the store after its codes were met, and the bytes, or the byte address of the first poisoned word. -/
def Store.read (st : Store) (a n : Nat) : Store × Except Nat (List Byte) :=
  let st := st.meetAll (a / 8) (wordsOf a n)
  match st.poisoned a n with
  | some w => (st, .error (8 * w))
  | none => (st, .ok (Mem.read st.bytes a n))

/-- Write bytes that lie in one word: a full word clears poison; a partial write of a poisoned word is refused. -/
def Store.writeWord (st : Store) (a : Nat) (bs : List Byte) : Store × Option Nat :=
  if bs.length = 8 then
    ({ st with bytes := Mem.write st.bytes a bs, poison := nsDel st.poison (a / 8), errs := FMap.del st.errs (a / 8) },
      none)
  else
    let st := st.meet (a / 8)
    if st.poison.contains (a / 8) then (st, some (a / 8 * 8))
    else ({ st with bytes := Mem.write st.bytes a bs }, none)

/-- Write bytes word by word, in address order; answer the first word refused for poison. -/
def Store.writeN : Nat → Store → Nat → List Byte → Store × Option Nat
  | 0, st, _, _ => (st, none)
  | k + 1, st, a, bs =>
    if bs.isEmpty then (st, none)
    else
      let n := 8 - a % 8
      let (st, r) := st.writeWord a (bs.take n)
      let (st, r') := Store.writeN k st (a + n) (bs.drop n)
      (st, r.or r')

def Store.write (st : Store) (a : Nat) (bs : List Byte) : Store × Option Nat := Store.writeN (bs.length + 1) st a bs

/-- Write full words whatever the store held, as the loader and the tile's own frames do. -/
def Store.put (st : Store) (a : Nat) (bs : List Byte) : Store := (st.write a bs).1

/-- The word at a byte address, poison and codes aside (loader, save, measurement). -/
def Store.word (st : Store) (a : Nat) : W64 := Mem.rd64 st.bytes a

/-- Clear a store (R237). -/
def Store.clear (_ : Store) : Store := Store.empty

-- The pool (R233, R35)

/-- Areas of the pool. -/
inductive Area where
  | sp | acc | pen
  deriving DecidableEq, Repr

def poolSize : Nat := 0x200000

/-- Bytes of scratchpad: SP granules of 64 KiB (R35). -/
def Shape.spBytes (sh : Shape) : Nat := bits sh.part 21 16 * 65536

/-- Bytes of scratchpad and accumulator storage together. -/
def Shape.penBase (sh : Shape) : Nat := (bits sh.part 21 16 + bits sh.part 13 8) * 65536

/-- Accumulator tiles (R306). -/
def Shape.nt (sh : Shape) : Nat := Nat.min 64 (bits sh.part 13 8 * 65536 / 24576)

def Shape.area (sh : Shape) (off : Nat) : Area :=
  if off < sh.spBytes then .sp else if off < sh.penBase then .acc else .pen

/-- n bytes at a lie wholly in the scratchpad. -/
def Shape.inSp (sh : Shape) (a n : Nat) : Bool := decide (a + n ≤ sh.spBytes)

/-- n bytes at a lie wholly in scratchpad and accumulator storage. -/
def Shape.inWork (sh : Shape) (a n : Nat) : Bool := decide (a + n ≤ sh.penBase)

def Tile.modPool (t : Tile) (f : Store → Store) : Tile := { t with st := { t.st with pool := f t.st.pool } }

/-- Read pool bytes of the current tile. -/
def State.poolRead (s : State) (a n : Nat) : State × Except Nat (List Byte) :=
  let r := s.tile.st.pool.read a n
  (s.modTile fun t => t.modPool fun _ => r.1, r.2)

/-- A condition recognised at the current tile on this cycle (R424). -/
def State.cond (s : State) (f : FaultInfo) : State := s.modCore fun c => { c with conds := c.conds ++ [f] }

/-- The first byte among n from a that lies in an operand frame of a product while its rows are read (R321). -/
def Tile.guarded (t : Tile) (now a n : Nat) : Option Nat :=
  (t.mx.prods.filter fun p => decide (p.s ≤ now ∧ now ≤ p.s + 63)).findSome? fun p =>
    [p.aFrame, p.bFrame].findSome? fun f =>
      if 4096 * f < a + n ∧ a < 4096 * (f + 1) then some (Nat.max a (4096 * f)) else none

/-- SLABGUARD: a write into an operand frame of a running product raises BREAK (R321). -/
def State.slabGuard (s : State) (a n : Nat) : State :=
  if !bit (s.ctl kMxdbg) 0 then s
  else
    match s.tile.guarded s.pad.rtick a n with
    | none => s
    | some b =>
      s.cond { cause := .brk, eng := false, unit := .s, run := 0, t1 := 0, t2 := 0,
               t3 := fld (b / 4096) 0 ||| fld (b % 4096 / 64) 16 }

/-- Write pool bytes of the current tile; answer the first word refused for poison. A refused write lands nothing to guard (R238, R321). -/
def State.poolWrite (s : State) (a : Nat) (bs : List Byte) : State × Option Nat :=
  let r := s.tile.st.pool.write a bs
  let s := s.modTile fun t => t.modPool fun _ => r.1
  (if r.2.isNone then s.slabGuard a bs.length else s, r.2)

-- Semaphores (R368, R369)

/-- The value of a semaphore. -/
def Sync.sem (y : Sync) (q : Nat) : BitVec 16 := FMap.getD y.sems q 0

def Sync.isPoisoned (y : Sync) (q : Nat) : Bool := y.poison.contains q

/-- Take an amount (R369 item 1). -/
def Sync.take (y : Sync) (q n : Nat) : Sync :=
  if n = 0 then y else { y with sems := FMap.put y.sems q (y.sem q - BitVec.ofNat 16 n) }

/-- A signal to be added at the end of the cycle; discarded when the semaphore is poisoned (R374). -/
def Sync.signal (y : Sync) (q n : Nat) : Sync :=
  if n = 0 ∨ y.isPoisoned q then y else { y with sig := FMap.put y.sig q (FMap.getD y.sig q 0 + n) }

/-- The end of the cycle for one semaphore: saturating addition, OVF and QNUM (R368, R369). -/
def Sync.endSem (y : Sync) (q : Nat) : Sync :=
  let v := (FMap.getD y.set q (y.sem q)).toNat + FMap.getD y.sig q 0
  let y1 := { y with sems := FMap.put y.sems q (BitVec.ofNat 16 (Nat.min 65535 v)) }
  if 65535 < v then { y1 with ovf := true, qnum := if y.ovf then y.qnum else q } else y1

/-- The end of the cycle for every semaphore and window counter touched (R365, R381). -/
def Sync.endCycle (y : Sync) : Sync :=
  let y1 := (FMap.keys y.sig).foldl (fun y q => Sync.endSem y q) y
  let y2 := ((FMap.keys y.set).filter fun q => (FMap.get? y.sig q).isNone).foldl (fun y q => Sync.endSem y q) y1
  let bump := fun (r : Regs) (p : Nat × Nat) => FMap.put r p.1 (Regs.rd r p.1 + w64 p.2)
  { y2 with
    sig := [], set := [], wsent := y.sentInc.foldl bump y.wsent, wrecv := y.recvInc.foldl bump y.wrecv,
    sentInc := [], recvInc := [] }

-- Functions

def State.fn (s : State) (n : Nat) : Func := FMap.getD s.fns n Func.init

def State.setFn (s : State) (n : Nat) (f : Func) : State := { s with fns := FMap.put s.fns n f }

def State.modFn (s : State) (n : Nat) (f : Func → Func) : State := s.setFn n (f (s.fn n))

/-- The function holds an open session (R447). -/
def Func.inSession (f : Func) : Bool := f.session.isSome

-- Records (R449 to R451)

/-- TCFG.EN and a kind's bit are set, and the function holds no session. -/
def Func.traces (f : Func) (kindBit : Nat) : Bool := bit f.dbg.tcfg 63 && bit f.dbg.tcfg kindBit && !f.inSession

/-- The TCFG bit of a record kind (Tables 18-9, 18-11); STOP records need TCFG.EN alone. -/
def traceBit : Nat → Nat
  | 1 => 62 | 2 => 61 | 3 => 61 | 4 => 60 | 5 => 59 | 6 => 63 | 7 => 57 | _ => 58

/-- A record generated at the current tile: into its source buffer of 64, or dropped (R451, R453). -/
def State.traceTile (s : State) (kind aux time : Nat) (data : W64) : State :=
  let p := s.pad
  if !(s.fn p.fn).traces (traceBit kind) then s
  else
    let o := s.tile.obs
    if o.buf.length < 64 then
      let r : TraceRec :=
        { kind := kind, time := w64 time, src := s.cur.tile, aux := aux, data := data, seq := o.seq,
          drop := Nat.min 65535 o.lost }
      s.modTile fun t => { t with obs := { o with seq := o.seq + 1, buf := o.buf ++ [r], lost := 0 } }
    else
      let s := s.modTile fun t => { t with obs := { o with seq := o.seq + 1, lost := o.lost + 1 } }
      let s := s.modFn p.fn fun f => { f with dbg := { f.dbg with tdrop := f.dbg.tdrop + 1 } }
      if kind = 8 then s.modPad fun p => { p with dbg := { p.dbg with incomp := true } } else s

-- Traps (17)

/-- Code of a cause (Table 17-1). -/
def Cause.code : Cause → Nat
  | .illegalSyllable => 0x01 | .privilege => 0x02 | .timing => 0x04 | .seam => 0x05 | .seqTag => 0x06
  | .queueImbalance => 0x07 | .page => 0x08 | .scope => 0x09 | .protection => 0x0A | .dataPoison => 0x0B
  | .syncPoison => 0x0C | .misalign => 0x0D | .timer => 0x0F | .brk => 0x10 | .trap => 0x11 | .watchdog => 0x12
  | .preempt => 0x13 | .pauseptInvalid => 0x14 | .ring => 0x15

/-- Class of a cause (Table 17-1): true for paddock-wide. -/
def Cause.wide (strict : Bool) : Cause → Bool
  | .timing | .seam | .seqTag | .queueImbalance | .watchdog | .pauseptInvalid | .ring => true
  | .dataPoison => strict
  | .illegalSyllable | .privilege | .page | .scope | .protection | .syncPoison | .misalign | .timer | .brk | .trap
  | .preempt => false

/-- Slot numbers (Table 5-1). -/
def slotNo : Slot → Nat
  | .s => 0 | .m => 1 | .v => 2 | .d => 3

/-- A fault of the S slot, of decode or of the timer. -/
def sFault (c : Cause) (t3 : W64) : FaultInfo :=
  { cause := c, eng := false, unit := .s, run := 0, t1 := 0, t2 := 0, t3 := t3 }

/-- tinfo3 of a TIMING fault (R144). -/
def timingInfo (sub detail j cycle : Nat) : W64 :=
  BitVec.ofNat 64 (sub + detail % 256 * 2 ^ 8 + j % 65536 * 2 ^ 16 + cycle % 2 ^ 32 * 2 ^ 32)

/-- A TIMING fault raised at issue by a slot (Table 6-2). -/
def timingFault (sl : Slot) (sub detail cycle : Nat) : FaultInfo :=
  { cause := .timing, eng := false, unit := sl, run := 0, t1 := 0, t2 := 0, t3 := timingInfo sub detail 0 cycle }

/-- tinfo0 of a fault (Table 17-2). -/
def tinfo0 (f : FaultInfo) (svc padw : Bool) : W64 :=
  BitVec.ofNat 64 (f.cause.code + slotNo f.unit * 2 ^ 8 + f.eng.toNat * 2 ^ 10 + padw.toNat * 2 ^ 11 +
    svc.toNat * 2 ^ 12 + f.run % 256 * 2 ^ 16)

/-- Write the trap record (R419). -/
def Tile.record (t : Tile) (f : FaultInfo) (svc padw : Bool) (epc : W64) : Tile :=
  ((((t.setCtl kTinfo0 (tinfo0 f svc padw)).setCtl (kTinfo0 + 1) f.t1).setCtl (kTinfo0 + 2) f.t2).setCtl
    (kTinfo0 + 3) f.t3).setCtl kTepc epc

/-- No handler can take a tile-local trap here (R418). -/
def Tile.noHandler (t : Tile) : Bool :=
  let v := Regs.rd t.ctl kTvec
  !bit v 63 || decide (bits v 21 0 % 24 ≠ 0) || decide (131040 < bits v 21 0) || t.core.halted

/-- A loop level of the core, inactive when never used. -/
def Core.level (c : Core) (l : Nat) : Level :=
  FMap.getD c.levels l { active := false, first := 0, last := 0, cnt := 0, trip := 0 }

def Core.setLevel (c : Core) (l : Nat) (v : Level) : Core := { c with levels := FMap.put c.levels l v }

/-- shlevL from a live level (Table 17-6): START and END in the 13 bits it has (log entry 69). -/
def Level.shadow (v : Level) : W64 := fld v.active.toNat 63 ||| fld (v.last % 2 ^ 13) 16 ||| fld (v.first % 2 ^ 13) 0

/-- The hold's part of the shadow: remaining cycles, and the FBAR fields of shxst (Table 17-6). An FBAR whose advance was not
seen yet is held at least one cycle more (DEDUCED, log entry 44); one whose advance is visible is over (State.endedHold). -/
def Hold.shadow : Hold → W64 × W64
  | .none => (0, 0)
  | .idle n => (w64 n, 0)
  | .fbar n k tok => (w64 (Nat.max 1 n), fld 1 60 ||| fld (k % 4) 56 ||| tok.setWidth 64)
  | .uop _ => (0, 0)

/-- Copy loop levels, pending transfer and hold into the shadow, and clear the live ones (R421 item 3, R422); shJump keeps beside it
what kind of transfer is pending (R152, log entry 69). -/
def Tile.toShadow (t : Tile) : Tile :=
  let c := t.core
  let lev := fun (t : Tile) (l : Nat) =>
    ((t.setCtl (kShlev + l) (c.level l).shadow).setCtl (kShcnt + l) (c.level l).cnt).setCtl (kShtrip + l)
      (c.level l).trip
  let t := lev (lev (lev (lev t 0) 1) 2) 3
  let xv := match c.xfer with
    | some x => (x.target, fld 1 63 ||| fld (x.left % 4) 61)
    | none => (0, 0)
  let t := ((t.setCtl kShxfer xv.1).setCtl kShxst (xv.2 ||| c.hold.shadow.2)).setCtl kShhold c.hold.shadow.1
  let off := fun (c : Core) (l : Nat) => c.setLevel l { c.level l with active := false }
  let jump := match c.xfer with
    | some x => x.jump
    | none => false
  { t with core := { off (off (off (off c 0) 1) 2) 3 with xfer := none, hold := .none, shJump := jump } }

/-- msframe of a discarded run (Table 8-7). -/
def UopRun.frame (r : UopRun) : W64 :=
  fld 1 63 ||| fld (r.n % 64) 32 ||| fld (r.mc % 65536) 16 ||| fld ((bits r.entry 11 0 + r.pos) % 4096) 0

/-- The sequence frame of a discarded run whose temporaries have landed; a trap that came after it has cleared VALID (R225). -/
def Tile.writeFrame (t : Tile) (r : UopRun) : Tile :=
  let w := fun (i : Nat) => Regs.rd r.temps i
  let f := if r.committed then setBits r.frame 63 63 0 else r.frame
  let t := (List.range 8).foldl (fun t i => t.setCtl (kMstemp + i) (w i)) t
  let t := t.setCtl kMsframe f
  let words := (List.range 8).map w ++ [f, r.a, r.b, r.di, 0, 0, 0, 0]
  t.modPool fun p => p.put 0x1FFF80 (words.flatMap fun x => natLE 8 x.toNat)

/-- A temporary's access is still to come. -/
def Acc.isUld : Acc → Bool
  | .uld _ _ _ => true
  | _ => false

/-- The frame of a discarded run is recorded once every temporary write in flight has landed (R225). -/
def Tile.settleFrame (t : Tile) : Tile :=
  match t.core.frame with
  | some r =>
    if r.tpend.isEmpty && !(t.core.acc.any fun a => a.acc.isUld) then
      { t with core := { t.core with frame := none } }.writeFrame r
    else t
  | none => t

/-- A trap discards the run in progress, whose frame is then recorded; any other clears msframe.VALID (R225). -/
def Tile.seqFrame (t : Tile) : Tile :=
  match t.core.hold with
  | .uop r =>
    if r.committed then t.setCtl kMsframe (setBits (Regs.rd t.ctl kMsframe) 63 63 0)
    else Tile.settleFrame { t with core := { t.core with hold := .none, frame := some { r with hbmWait := none } } }
  | _ =>
    { t.setCtl kMsframe (setBits (Regs.rd t.ctl kMsframe) 63 63 0) with core := { t.core with
        frame := t.core.frame.map fun r => { r with committed := true } } }

/-- A freeze inside a hold discards a run that is not committed, with its frame: it starts again from micro-cycle 0 (R224, R225). -/
def Tile.freezeHold (t : Tile) : Tile :=
  match t.core.hold with
  | .uop r => if r.committed then t else t.seqFrame
  | _ => t

/-- Enter a tile-local trap in place of the bundle at the program counter, or after the bundle when the program
counter already names the next one (R420, R421). -/
def Tile.enterTrap (t : Tile) (f : FaultInfo) (epc : W64) : Tile :=
  let t := t.seqFrame
  let t := t.record f t.core.svc false epc
  let t := t.toShadow
  { t with core := { t.core with
      ppriv := t.core.priv, priv := true, waitFrom := none, aligning := false, entering := true, next := none,
      held := t.core.held ++ t.core.waiting, waiting := [], trapAfter := none
      pc := BitVec.ofNat 64 (bits (Regs.rd t.ctl kTvec) 21 0 / 24) } }

/-- TIME of a record of the current tile: the region cycle, or under service, where none passes, the pause point's (R450, log entry 69). -/
def State.recordTime (s : State) : Nat := if s.tile.core.svc then s.pad.rtick - 1 else s.pad.rtick

/-- The TRAP record of a trap taken or a paddock-wide fault (R450). -/
def State.trapRecord (s : State) : State :=
  s.traceTile 4 0 s.recordTime (fld (bits (s.ctl kTinfo0) 31 0) 0 ||| fld ((s.ctl kTepc).toNat / 24 % 2 ^ 13) 32)

/-- A paddock-wide fault at the current tile: its record is written, it issues nothing more, and the paddock freezes
within 64 cycles (R426). A run not yet committed is discarded (R224, R225), and msframe stays as it was where there is none (log entry 70).
The earliest freeze stands. -/
def State.paddockFault (s : State) (f : FaultInfo) (epc : W64) : State :=
  let s := s.modTile fun t =>
    let t := t.freezeHold.record f t.core.svc true epc
    { t with core := { t.core with faulted := true } }
  let s := s.trapRecord
  let stop := s.pad.rtick + Config.freezeDelay s.free % 65
  let s := s.modPad fun p =>
    { p with
      stopAt := some (match p.stopAt with
        | some n => Nat.min n stop
        | none => stop)
      reports := p.reports ++ [{ cycle := p.rtick, tile := s.cur.tile, info := f }] }
  { s with free := s.free + 1 }

/-- The advance past an FBAR's token is visible at tile i, slot k. -/
def Paddock.advanced (p : Paddock) (i k : Nat) (tok : BitVec 32) : Bool :=
  match (p.folds.filter fun e => e.2.members.contains i)[k]? with
  | some e => decide (1 ≤ (e.2.phase - tok).toInt)
  | none => true

/-- An FBAR hold is over on the cycle its bundle is due with the advance visible: none of it is left to save (R379, R422). -/
def State.endedHold (s : State) : State :=
  match s.tile.core.hold with
  | .fbar 0 k tok => if s.pad.advanced s.cur.tile k tok then s.modCore fun c => { c with hold := .none } else s
  | _ => s

/-- Take a fault at the current tile with tepc as given: by its class, or escalated where no handler can run
(R417, R418). -/
def State.takeFaultAt (s : State) (f : FaultInfo) (epc : W64) : State :=
  if f.cause.wide s.strict || s.tile.noHandler then s.endedHold.paddockFault f epc
  else (s.endedHold.modTile fun t => t.enterTrap f epc).trapRecord

/-- Take a fault in place of the bundle at the program counter (R420). -/
def State.takeFault (s : State) (f : FaultInfo) : State := s.takeFaultAt f (bundleAddr s.tile.core.pc)

/-- A level restored from the shadow (R425). -/
def Tile.unshadowLevel (t : Tile) (l : Nat) : Tile :=
  let v := Regs.rd t.ctl (kShlev + l)
  let lv : Level :=
    { active := bit v 63, first := bits v 12 0, last := bits v 28 16, cnt := Regs.rd t.ctl (kShcnt + l),
      trip := Regs.rd t.ctl (kShtrip + l) }
  { t with core := t.core.setLevel l lv }

/-- The hold an ERET restores (R425). -/
def Tile.shadowHold (t : Tile) : Hold :=
  let n := (Regs.rd t.ctl kShhold).toNat
  let x := Regs.rd t.ctl kShxst
  if n = 0 then .none
  else if bit x 60 then .fbar n (bits x 57 56) (x.setWidth 32) else .idle n

/-- Return from a trap: privilege, loop levels, pending transfer and hold from the shadow, and the next bundle from
tepc, or from shxfer when no delay bundle is left (R425). The bundle of the ERET itself is counted in left, as the bundle
of a BR is, since finishing it counts one down. -/
def Tile.leaveTrap (t : Tile) : Tile :=
  let t := (((t.unshadowLevel 0).unshadowLevel 1).unshadowLevel 2).unshadowLevel 3
  let x := Regs.rd t.ctl kShxst
  let target := Regs.rd t.ctl kShxfer
  let left := bits x 62 61
  let now := bit x 63 && left == 0
  let pc := if now then target else BitVec.ofNat 64 ((Regs.rd t.ctl kTepc).toNat / 24)
  { t with core := { t.core with
      priv := t.core.ppriv, hold := t.shadowHold, next := some pc
      xfer := if bit x 63 && left != 0 then some { target := target, left := left + 1, jump := t.core.shJump } else none } }

-- Issue (R115, R133)

/-- What the issue checks of a syllable say on a cycle. -/
inductive Verdict where
  | ok
  | stall
  | fault (f : FaultInfo)
  deriving DecidableEq, Repr

/-- A bundle that is not ready is presented again; a timed wait remembers its first presentation (R133, R373). -/
def State.stall (s : State) : State :=
  s.modCore fun c => { c with waitFrom := some (c.waitFrom.getD s.pad.rtick) }

/-- A syllable's meaning: its effect, or a stall, or the fault its checks find at issue. -/
def State.issue (s : State) (v : Verdict) (eff : State) : Out :=
  match v with
  | .ok => .next eff
  | .stall => .next s.stall
  | .fault f => .next (s.takeFault f)

/-- The first verdict that is not ok. -/
def Verdict.or (v w : Verdict) : Verdict :=
  match v with
  | .ok => w
  | _ => v

/-- A fault when a condition holds. -/
def failIf (b : Bool) (f : FaultInfo) : Verdict := if b then .fault f else .ok

end Sys2Proof.Machine
end

