-- ==== Sys2Proof/Machine/Geom.lean ====
section
/-!
DEFINITION. Machine/Geom.lean: abstract tiles of a paddock: coordinates, seams between tiles, seam blocks, latencies
of the network, the address map and the TLB (R134, R189, R245, R246, R251, R253, R254, R376).
-/
namespace Sys2Proof.Machine

def Shape.x (sh : Shape) (i : Nat) : Nat := i % sh.w
def Shape.y (sh : Shape) (i : Nat) : Nat := i / sh.w
def Shape.idx (sh : Shape) (x y : Nat) : Nat := y * sh.w + x

/-- Tiles of the paddock. -/
def Shape.tiles (sh : Shape) : Nat := sh.w * sh.h

/-- A seam lies between two positions of its axis (R189). -/
def Seam.between (m : Seam) (x0 y0 x1 y1 : Nat) : Bool :=
  if m.col then decide (Nat.min x0 x1 < m.index ∧ m.index ≤ Nat.max x0 x1)
  else decide (Nat.min y0 y1 < m.index ∧ m.index ≤ Nat.max y0 y1)

/-- The sum of LAT + 8 over the declared seams between two tiles (Table 6-1). -/
def Shape.seamCost (sh : Shape) (i j : Nat) : Nat :=
  (sh.seams.filter fun m => m.between (sh.x i) (sh.y i) (sh.x j) (sh.y j)).foldl (fun n m => n + m.lat + 8) 0

/-- Distance of two numbers. -/
def natDist (a b : Nat) : Nat := (a - b) + (b - a)

/-- Hops between two abstract tiles. -/
def Shape.hops (sh : Shape) (i j : Nat) : Nat := natDist (sh.x i) (sh.x j) + natDist (sh.y i) (sh.y j)

/-- Latency of STR between two tiles (Table 6-1). -/
def Shape.strLat (sh : Shape) (i j : Nat) : Nat := sh.hops i j + 2 + sh.seamCost i j

/-- Two tiles lie in one seam block (R251). -/
def Shape.sameBlock (sh : Shape) (i j : Nat) : Bool :=
  sh.seams.all fun m => !m.between (sh.x i) (sh.y i) (sh.x j) (sh.y j)

/-- The abstract tile at an offset from another, if it lies in the paddock (R83, R188, R246). -/
def Shape.offsetTile (sh : Shape) (i : Nat) (dx dy : Int) : Option Nat :=
  let x : Int := sh.x i + dx
  let y : Int := sh.y i + dy
  if 0 ≤ x ∧ x < sh.w ∧ 0 ≤ y ∧ y < sh.h then some (sh.idx x.toNat y.toNat) else none

/-- Scope of a pool granule of a tile (R249, R250): 0 TILE, 1 DIE, 2 PANEL; pen granules are TILE. -/
def Tile.granuleScope (t : Tile) (sh : Shape) (off : Nat) : Nat :=
  if sh.area off = .pen then 0
  else bits (Regs.rd t.ctl kPoolscope) (2 * (off / 65536) + 1) (2 * (off / 65536))

/-- A tile of index i may reach a granule of scope sc at the tile of index j (R251). -/
def Shape.reaches (sh : Shape) (sc i j : Nat) : Bool :=
  i == j || (sc == 1 && sh.sameBlock i j) || decide (2 ≤ sc)

/-- What a virtual address names (Table 9-5). -/
inductive Target where
  | own (off : Nat)
  | table (off : Nat)
  | caps (off : Nat)
  | tile (i off : Nat)
  | hbm (page off : Nat)
  | window (w page off : Nat)
  | host (page off : Nat)
  | bad
  deriving DecidableEq, Repr

/-- TILEPOOL addresses (R246): the offset fields, and the tile they name. -/
def Shape.tilePool (sh : Shape) (me a : Nat) : Target :=
  let dx : Int := (a / 2 ^ 21 % 256 : Nat) - 128
  let dy : Int := (a / 2 ^ 29 % 256 : Nat) - 128
  if a / 2 ^ 37 % 8 ≠ 0 then .bad
  else
    match sh.offsetTile me dx dy with
    | none => .bad
    | some j => if j = me then .own (a % 2 ^ 21) else .tile j (a % 2 ^ 21)

/-- The target of a virtual address of the tile of index me (R245). -/
def Shape.target (sh : Shape) (me a : Nat) : Target :=
  if a < 0x200000 then .own a
  else if 0x400000 ≤ a ∧ a < 0x404000 then .table (a - 0x400000)
  else if 0x010000000000 ≤ a ∧ a < 0x012000000000 then sh.tilePool me a
  else if 0x100000000000 ≤ a ∧ a < 0x200000000000 then .hbm ((a - 0x100000000000) / 2 ^ 21) (a % 2 ^ 21)
  else if 0x200000000000 ≤ a ∧ a < 0x240000000000 then
    .window ((a - 0x200000000000) / 2 ^ 36) (a % 2 ^ 36 / 2 ^ 21) (a % 2 ^ 21)
  else if 0x300000000000 ≤ a ∧ a < 0x400000000000 then .host ((a - 0x300000000000) / 2 ^ 21) (a % 2 ^ 21)
  else if 0x7F0000010000 ≤ a ∧ a < 0x7F0000011000 then .caps (a - 0x7F0000010000)
  else .bad

/-- The TILEPOOL address of a pool offset at an abstract displacement (R246). -/
def tilePoolAddr (dx dy : Int) (off : Nat) : Nat :=
  0x010000000000 + (dy + 128).toNat * 2 ^ 29 + (dx + 128).toNat * 2 ^ 21 + off

-- The TLB (R253, R254)

/-- The virtual page of a target that goes through the TLB. -/
def Target.page : Target → Option Nat
  | .hbm g _ => some (0x800000 + g)
  | .window w g _ => some (0x1000000 + w * 32768 + g)
  | .host g _ => some (0x1800000 + g)
  | _ => none

/-- Misses that pages met one after another find in a TLB that fills with each (R253). -/
def Tlb.misses (b : Tlb) (pages : List Nat) : Nat :=
  (pages.foldl (fun (x : List Nat × Nat) g =>
    if x.1.contains g then (g :: x.1.filter (· != g), x.2) else ((g :: x.1).take 64, x.2 + 1)) (b.pages, 0)).2

/-- Pages that the addresses of accesses go through in the TLB. -/
def Shape.pagesOf (sh : Shape) (me : Nat) (as : List (Nat × Nat)) : List Nat := as.filterMap fun x => (sh.target me x.1).page

/-- Bytes that accesses, given by address and size, move to or from each channel position (R247, R287). -/
def Shape.hbmLoad (sh : Shape) (me : Nat) (as : List (Nat × Nat)) : FMap Nat :=
  as.foldl (fun m x =>
    match sh.target me x.1 with
    | .hbm g _ => FMap.put m (g % sh.chan) (FMap.getD m (g % sh.chan) 0 + x.2)
    | _ => m) []

/-- The largest number of bytes moved on one channel: B_c. -/
def mostBytes (m : FMap Nat) : Nat := m.foldl (fun n x => Nat.max n x.2) 0

/-- A hit becomes the most recent entry; a miss waits for a walk, at most eight at a time. -/
def Tlb.use (b : Tlb) (page : Nat) : Tlb :=
  if b.pages.contains page then { b with pages := page :: b.pages.filter (· != page) }
  else if b.walks.length < 8 ∧ !(b.walks.any fun w => w.1 == page) then { b with walks := b.walks ++ [(page, none)] }
  else b

/-- An access of the current tile goes through its TLB. -/
def State.touch (s : State) (t : Target) : State :=
  match t.page with
  | some g => s.modTile fun t => { t with tlb := t.tlb.use g }
  | none => s

/-- The oldest waiting walk starts at dtick now, in a round of this parity, and completes at the end of the round. -/
def Tlb.startWalk (b : Tlb) (now parity : Nat) : Tlb :=
  let round := now / 24
  if now % 24 ≠ 0 ∨ round % 2 ≠ parity then b
  else
    match b.walks.findIdx? fun w => w.2.isNone with
    | some i => { b with walks := b.walks.zipIdx.map fun x => if x.2 = i then (x.1.1, some ((round + 1) * 24)) else x.1 }
    | none => b

/-- A walk of the TLB is over. -/
def Tlb.due (b : Tlb) (now : Nat) : Bool := b.walks.any fun w =>
  match w.2 with
  | some t => decide (t ≤ now)
  | none => false

/-- Walks that are over fill the TLB, which keeps the 64 entries used last. -/
def Tlb.fill (b : Tlb) (now : Nat) : Tlb :=
  let over' := fun (w : Nat × Option Nat) =>
    match w.2 with
    | some t => decide (t ≤ now)
    | none => false
  let got := (b.walks.filter over').map (·.1)
  { pages := (got.foldl (fun l g => g :: l.filter (· != g)) b.pages).take 64, walks := b.walks.filter fun w => !over' w }

end Sys2Proof.Machine
end

