-- ==== Sys2Proof/Machine/Caps.lean ====
section
/-!
DEFINITION. Machine/Caps.lean: the capability list (R24 to R27), records packed in ascending identifier.
-/
namespace Sys2Proof.Machine

/-- A capability record: identifier and parameter words (Table 1-4). -/
structure CapRec where
  id : Nat
  params : List W64
  deriving DecidableEq, Repr

/-- The records of a B0 part; word 2 of RETIRE varies between parts. -/
def capRecords (retire2 : W64) : List CapRec :=
  [{ id := 1, params := [1600000, 12800, 0x0B090A0A, 393216] },
   { id := 2, params := [4096, 64, 64] },
   { id := 3, params := [16384, 1024] },
   { id := 4, params := [48] },
   { id := 5, params := [64] },
   { id := 6, params := [32] },
   { id := 7, params := [193] },
   { id := 8, params := [1] },
   { id := 9, params := [18, 40] },
   { id := 10, params := [1, retire2, 3] }]

/-- A record's header word (Table 1-3), all records at version 1. -/
def CapRec.header (r : CapRec) (next : Nat) : W64 :=
  fld next 48 ||| fld (8 * (1 + r.params.length)) 32 ||| fld 1 16 ||| fld r.id 0

/-- Words of the list from a byte offset on; the last record's NEXT is 0. -/
def capChain : Nat → List CapRec → List W64
  | _, [] => []
  | off, r :: rs =>
    let next := off + 8 * (1 + r.params.length)
    r.header (if rs.isEmpty then 0 else next) :: r.params ++ capChain next rs

/-- The word at a byte offset of the list; zero beyond the records. -/
def capWord (retire2 : W64) (off : Nat) : W64 := (capChain 0 (capRecords retire2)).getD (off / 8) 0

/-- Control register caps (R26). -/
def capsReg (retire2 : W64) : W64 := (capRecords retire2).foldl (fun w r => w ||| fld 1 r.id) 1

end Sys2Proof.Machine
end

