-- ==== Sys2Proof/Machine/Flags.lean ====
section
/-!
DEFINITION. Machine/Flags.lean: the flags of fpcsr (R270) and every condition a compare can name (Table 7-4, R177).
-/
namespace Sys2Proof.Machine

-- Bits of fpcsr (R270)
def flNX : BitVec 7 := 0x01
def flUF : BitVec 7 := 0x02
def flOF : BitVec 7 := 0x04
def flDZ : BitVec 7 := 0x08
def flNV : BitVec 7 := 0x10
def flSAT : BitVec 7 := 0x20
def flIOV : BitVec 7 := 0x40

/-- A flag when a condition holds. -/
def flIf (b : Bool) (f : BitVec 7) : BitVec 7 := if b then f else 0

end Sys2Proof.Machine

namespace Sys2Proof
open Sys2Proof.Machine

/-- An integer condition between two patterns of one width (Table 7-4). -/
def IntCond.holds {w : Nat} (c : IntCond) (x y : BitVec w) : Bool :=
  match c with
  | .eq => x == y
  | .ne => x != y
  | .lt => x.slt y
  | .le => x.sle y
  | .ltn => x.ult y
  | .len => x.ule y

end Sys2Proof

namespace Sys2Proof.Machine

end Sys2Proof.Machine
end

