-- ==== Sys2Proof/Machine/Philox.lean ====
section
/-!
DEFINITION. Machine/Philox.lean: the counter-based generator Philox-4x32-10 (R10).
-/
namespace Sys2Proof.Machine

/-- The counter words of a round and the two key words. -/
structure PhiloxState where
  c0 : BitVec 32
  c1 : BitVec 32
  c2 : BitVec 32
  c3 : BitVec 32
  k0 : BitVec 32
  k1 : BitVec 32
  deriving DecidableEq, Repr

/-- One round; all four words on the right are those before the round. -/
def PhiloxState.round (s : PhiloxState) : PhiloxState :=
  let p := 0xD2511F53 * s.c0.toNat
  let q := 0xCD9E8D57 * s.c2.toNat
  let hi := fun (x : Nat) => BitVec.ofNat 32 (x / 2 ^ 32)
  let lo := fun (x : Nat) => BitVec.ofNat 32 x
  { s with c0 := hi q ^^^ s.c1 ^^^ s.k0, c1 := lo q, c2 := hi p ^^^ s.c3 ^^^ s.k1, c3 := lo p }

/-- The key of the next round. -/
def PhiloxState.bump (s : PhiloxState) : PhiloxState := { s with k0 := s.k0 + 0x9E3779B9, k1 := s.k1 + 0xBB67AE85 }

/-- n rounds, with the key advanced between rounds. -/
def PhiloxState.rounds (s : PhiloxState) : Nat → PhiloxState
  | 0 => s
  | 1 => s.round
  | n + 2 => PhiloxState.rounds s.round.bump (n + 1)

/-- 128 random bits for a key and a counter. -/
def philox (key : W64) (ctr : Nat) : Nat :=
  let w := fun (x k : Nat) => BitVec.ofNat 32 (x / 2 ^ (32 * k))
  let s : PhiloxState :=
    { c0 := w ctr 0, c1 := w ctr 1, c2 := w ctr 2, c3 := w ctr 3, k0 := w key.toNat 0, k1 := w key.toNat 1 }
  let r := s.rounds 10
  r.c0.toNat + r.c1.toNat * 2 ^ 32 + r.c2.toNat * 2 ^ 64 + r.c3.toNat * 2 ^ 96

end Sys2Proof.Machine
end

