-- ==== Sys2Proof/Machine/Num.lean ====
section
/-!
DEFINITION. Machine/Num.lean: the values of bit patterns (R8, R258 to R263), the one rounding (R9, R264 to R269) and
exact arithmetic between them (R174 to R183, R339 to R348).
-/
namespace Sys2Proof.Machine

/-- An exact value: a signed dyadic m times 2^e, an infinity, or a NaN with its payload bits taken from the top. -/
inductive Val where
  | fin (neg : Bool) (m : Nat) (e : Int)
  | inf (neg : Bool)
  | nan (neg sig : Bool) (pay width : Nat)
  deriving DecidableEq, Repr

/-- What a float format keeps at its top exponent (Table 10-2). -/
inductive Top where
  | ieee | e4m3 | plain
  deriving DecidableEq, Repr

/-- A number format: a float by exponent width, fraction width and bias; or an integer of a width, signed or not, with
a number of fraction bits (R258, R259). -/
inductive Fmt where
  | flt (e m bias : Nat) (top : Top)
  | int (w : Nat) (signed : Bool) (frac : Nat)
  deriving DecidableEq, Repr

namespace Fmt
def e4m3 : Fmt := .flt 4 3 7 .e4m3
def e5m2 : Fmt := .flt 5 2 15 .ieee
def e2m3 : Fmt := .flt 2 3 1 .plain
def e3m2 : Fmt := .flt 3 2 3 .plain
def e2m1 : Fmt := .flt 2 1 1 .plain
def bf16 : Fmt := .flt 8 7 127 .ieee
def f16 : Fmt := .flt 5 10 15 .ieee
def f32 : Fmt := .flt 8 23 127 .ieee
def f48 : Fmt := .flt 11 36 1023 .ieee
def f64 : Fmt := .flt 11 52 1023 .ieee
def sint (w : Nat) : Fmt := .int w true 0
def uint (w : Nat) : Fmt := .int w false 0

/-- Width in bits. -/
def width : Fmt → Nat
  | .flt e m _ _ => 1 + e + m
  | .int w _ _ => w

/-- The canonical quiet NaN (R174, R339). -/
def qnan : Fmt → Nat
  | .flt e m _ _ => (2 ^ e - 1) * 2 ^ m + 2 ^ (m - 1)
  | .int _ _ _ => 0

/-- An infinity pattern. -/
def infPat (neg : Bool) : Fmt → Nat
  | .flt e m _ _ => neg.toNat * 2 ^ (e + m) + (2 ^ e - 1) * 2 ^ m
  | .int _ _ _ => 0

/-- A zero pattern. -/
def zeroPat (neg : Bool) : Fmt → Nat
  | .flt e m _ _ => neg.toNat * 2 ^ (e + m)
  | .int _ _ _ => 0

/-- The largest finite magnitude pattern of a float format (Table 10-2). -/
def maxPat : Fmt → Nat
  | .flt e m _ .ieee => (2 ^ e - 1) * 2 ^ m - 1
  | .flt e m _ .e4m3 => 2 ^ (e + m) - 2
  | .flt e m _ .plain => 2 ^ (e + m) - 1
  | .int w true _ => 2 ^ (w - 1) - 1
  | .int w false _ => 2 ^ w - 1
end Fmt

end Sys2Proof.Machine

namespace Sys2Proof
open Sys2Proof.Machine

/-- Formats of the vector element types (R263). -/
def VTy.fmt : VTy → Fmt
  | .i8 => Fmt.sint 8 | .i16 => Fmt.sint 16 | .i32 => Fmt.sint 32 | .i48 => Fmt.sint 48
  | .f16 => Fmt.f16 | .bf16 => Fmt.bf16 | .f32 => Fmt.f32 | .f48 => Fmt.f48 | .f64 => Fmt.f64

/-- Formats of the scalar types (Table 7-1). -/
def ScalarTy.fmt : ScalarTy → Fmt
  | .i32 => Fmt.sint 32 | .f16 => Fmt.f16 | .bf16 => Fmt.bf16 | .f32 => Fmt.f32 | .f64 => Fmt.f64
  | .i64 => Fmt.sint 64 | .n32 => Fmt.uint 32 | .n64 => Fmt.uint 64

def FpTy.fmt : FpTy → Fmt
  | .f32 => Fmt.f32 | .f64 => Fmt.f64

end Sys2Proof

namespace Sys2Proof.Machine

/-- Matrix operand formats by code (Table 10-1). -/
def matFmt : Nat → Option Fmt
  | 1 => some (.int 8 true 6) | 2 => some (.int 6 true 4) | 3 => some (.int 4 true 2) | 4 => some (Fmt.sint 8)
  | 5 => some (Fmt.sint 4) | 6 => some Fmt.e4m3 | 7 => some Fmt.e5m2 | 8 => some Fmt.e2m3 | 9 => some Fmt.e3m2
  | 10 => some Fmt.e2m1 | 11 => some Fmt.bf16 | 12 => some Fmt.f16 | _ => none

/-- Widen a float pattern (R258, Table 10-2). -/
def widenFlt (e m bias : Nat) (top : Top) (c : Nat) : Val :=
  let s := c / 2 ^ (e + m) % 2 == 1
  let ex := c / 2 ^ m % 2 ^ e
  let fr := c % 2 ^ m
  let normal : Val := .fin s (2 ^ m + fr) ((ex : Int) - (bias : Int) - (m : Int))
  if ex = 0 then .fin s fr (1 - (bias : Int) - (m : Int))
  else if ex = 2 ^ e - 1 then
    match top with
    | .ieee =>
      if fr = 0 then .inf s
      else .nan s (fr / 2 ^ (m - 1) == 0) (fr % 2 ^ (m - 1)) (m - 1)
    | .e4m3 => if fr = 2 ^ m - 1 then .nan s false 0 0 else normal
    | .plain => normal
  else normal

/-- Widen (R8): the exact value of a pattern. -/
def widen (f : Fmt) (c : Nat) : Val :=
  match f with
  | .flt e m b t => widenFlt e m b t c
  | .int w sg fr =>
    let v : Int := if sg then sext w c else (c % 2 ^ w : Nat)
    .fin (decide (v < 0)) v.natAbs (-(fr : Int))

/-- A rounding mode, with the 16 random bits of RSR already drawn (R269). -/
inductive Rnd where
  | rne | rtz | rdn | rup | rsr (u : Nat)
  deriving DecidableEq, Repr

end Sys2Proof.Machine

namespace Sys2Proof
open Sys2Proof.Machine

def RMode.rnd : RMode → Rnd
  | .rne => .rne | .rtz => .rtz | .rdn => .rdn | .rup => .rup

end Sys2Proof

namespace Sys2Proof.Machine

/-- Rounding modes by code, 0 to 3. -/
def rndOf : Nat → Rnd
  | 1 => .rtz | 2 => .rdn | 3 => .rup | _ => .rne

/-- A random rounding drawn from the stream of a key and counter at a bit position (R269). -/
def rsrOf (key : W64) (ctr pos : Nat) : Rnd := .rsr (philox key ctr / 2 ^ pos % 65536)

/-- Whether a magnitude that lies r / d of the way to the next grid value moves up (R264, R269). -/
def roundsUp (neg : Bool) (q r d : Nat) : Rnd → Bool
  | .rne => decide (d < 2 * r) || (decide (2 * r = d) && q % 2 == 1)
  | .rtz => false
  | .rdn => neg && decide (r ≠ 0)
  | .rup => !neg && decide (r ≠ 0)
  | .rsr u => decide (r ≠ 0 ∧ u * d < r * 65536)

/-- m times 2^e in units of 2^q, rounded; and whether that was inexact. -/
def roundAt (neg : Bool) (m : Nat) (e q : Int) (md : Rnd) : Nat × Bool :=
  if q ≤ e then (m * 2 ^ (e - q).toNat, false)
  else
    let d := 2 ^ (q - e).toNat
    let n := m / d
    let r := m % d
    (if roundsUp neg n r d md then n + 1 else n, decide (r ≠ 0))

/-- A pattern and the flags its making sets. -/
structure FRes where
  pat : Nat
  fl : BitVec 7
  deriving DecidableEq, Repr

/-- Formats of 16 bits or fewer set SAT where R265 says so. -/
def satOf (f : Fmt) : BitVec 7 := flIf (decide (f.width ≤ 16)) flSAT

/-- The result for a finite magnitude beyond the largest (Table 10-4). -/
def overflowRes (f : Fmt) (neg : Bool) (md : Rnd) : FRes :=
  match f with
  | .flt e m _ .ieee =>
    let toInf := match md with
      | .rne => true
      | .rsr _ => true
      | .rtz => false
      | .rdn => neg
      | .rup => !neg
    { pat := if toInf then f.infPat neg else neg.toNat * 2 ^ (e + m) + f.maxPat, fl := flOF ||| flNX }
  | .flt e m _ _ => { pat := neg.toNat * 2 ^ (e + m) + f.maxPat, fl := flOF ||| flNX ||| flSAT }
  | .int w sg _ => { pat := if neg then (if sg then 2 ^ (w - 1) else 0) else f.maxPat, fl := flNV ||| satOf f }

/-- Round a finite value to a float format (R264). -/
def roundFlt (e m bias : Nat) (top : Top) (neg : Bool) (mag : Nat) (ex : Int) (md : Rnd) : FRes :=
  let f : Fmt := .flt e m bias top
  if mag = 0 then { pat := f.zeroPat neg, fl := 0 }
  else
    let lead : Int := (Nat.log2 mag : Int) + ex
    let q : Int := max lead (1 - (bias : Int)) - (m : Int)
    let r := roundAt neg mag ex q md
    let n := if r.1 = 2 ^ (m + 1) then 2 ^ m else r.1
    let q := if r.1 = 2 ^ (m + 1) then q + 1 else q
    let sgn := neg.toNat * 2 ^ (e + m)
    if n < 2 ^ m then { pat := sgn + n, fl := flIf r.2 (flUF ||| flNX) }
    else
      let body := (q + (m : Int) + (bias : Int)).toNat * 2 ^ m + (n - 2 ^ m)
      if f.maxPat < body then overflowRes f neg md else { pat := sgn + body, fl := flIf r.2 flNX }

/-- Round a finite value to an integer format and check its limits (R264, R265, R268). -/
def roundInt (w : Nat) (sg : Bool) (fr : Nat) (neg : Bool) (mag : Nat) (ex : Int) (md : Rnd) : FRes :=
  let r := roundAt neg mag ex (-(fr : Int)) md
  let v : Int := if neg then -(r.1 : Int) else r.1
  let lo : Int := if sg then -(2 ^ (w - 1) : Nat) else 0
  let hi : Int := if sg then (2 ^ (w - 1) : Nat) - 1 else (2 ^ w : Nat) - 1
  if v < lo ∨ hi < v then overflowRes (.int w sg fr) neg md
  else { pat := (v % (2 ^ w : Nat)).toNat, fl := flIf r.2 flNX }

/-- Round (R9): the pattern of a format for a value under a mode, with its flags. -/
def round (x : Val) (f : Fmt) (md : Rnd) : FRes :=
  match f, x with
  | .flt e m b t, .fin neg mag ex => roundFlt e m b t neg mag ex md
  | .flt _ _ _ .ieee, .inf neg => { pat := f.infPat neg, fl := 0 }
  | .flt e m _ _, .inf neg => { pat := neg.toNat * 2 ^ (e + m) + f.maxPat, fl := flSAT }
  | .flt e m _ .ieee, .nan neg sig pay w =>
    let p := if w ≤ m - 1 then pay * 2 ^ (m - 1 - w) else pay / 2 ^ (w - (m - 1))
    { pat := neg.toNat * 2 ^ (e + m) + f.qnan + p, fl := flIf sig flNV }
  | .flt e m _ .e4m3, .nan neg sig _ _ => { pat := neg.toNat * 2 ^ (e + m) + 2 ^ (e + m) - 1, fl := flIf sig flNV }
  | .flt _ _ _ .plain, .nan .. => { pat := 0, fl := flNV ||| flSAT }
  | .int w sg fr, .fin neg mag ex => roundInt w sg fr neg mag ex md
  | .int _ _ _, .inf neg => overflowRes f neg md
  | .int _ _ _, .nan .. => { pat := 0, fl := flNV ||| satOf f }

/-- A conversion: one rounding of the exact value (R9, R266). -/
def convert (src dst : Fmt) (c : Nat) (md : Rnd) : FRes := round (widen src c) dst md

-- Exact arithmetic

def Val.isNan : Val → Bool
  | .nan .. => true
  | _ => false

def Val.isSig : Val → Bool
  | .nan _ s _ _ => s
  | _ => false

def Val.neg' : Val → Bool
  | .fin n _ _ => n
  | .inf n => n
  | .nan n _ _ _ => n

/-- The value with its sign inverted. -/
def Val.negate : Val → Val
  | .fin n m e => .fin (!n) m e
  | .inf n => .inf (!n)
  | .nan n s p w => .nan (!n) s p w

/-- The value with its sign cleared. -/
def Val.abs' : Val → Val
  | .fin _ m e => .fin false m e
  | .inf _ => .inf false
  | .nan _ s p w => .nan false s p w

/-- A signed magnitude as an integer multiple of 2^q, for q at most its exponent. -/
def scaledTo (neg : Bool) (m : Nat) (e q : Int) : Int :=
  let n : Int := (m * 2 ^ (e - q).toNat : Nat)
  if neg then -n else n

/-- An exact sum or product, or the NaN of an invalid operation. -/
inductive Exact where
  | val (v : Val)
  | invalid
  deriving DecidableEq, Repr

/-- An exact product of two values that are no NaN; infinity times zero is invalid (R175). -/
def Val.mul (x y : Val) : Exact :=
  match x, y with
  | .fin a m e, .fin b n f => .val (.fin (a != b) (m * n) (e + f))
  | .inf a, .fin b n _ => if n = 0 then .invalid else .val (.inf (a != b))
  | .fin a m _, .inf b => if m = 0 then .invalid else .val (.inf (a != b))
  | .inf a, .inf b => .val (.inf (a != b))
  | _, _ => .invalid

/-- An exact sum of two values that are no NaN: zero sums take the sign R175 gives; infinities of opposite sign are
invalid. -/
def Val.add (x y : Val) (md : Rnd) : Exact :=
  match x, y with
  | .fin a m e, .fin b n f =>
    let q := min e f
    let v := scaledTo a m e q + scaledTo b n f q
    if v = 0 then
      .val (.fin (if a = b then a else decide (md = .rdn)) 0 q)
    else .val (.fin (decide (v < 0)) v.natAbs q)
  | .inf a, .inf b => if a = b then .val (.inf a) else .invalid
  | .inf a, .fin .. => .val (.inf a)
  | .fin .., .inf b => .val (.inf b)
  | _, _ => .invalid

/-- Round an exact result, or give the canonical NaN of an invalid operation (R174). -/
def Exact.round (x : Exact) (f : Fmt) (md : Rnd) : FRes :=
  match x with
  | .val v => Machine.round v f md
  | .invalid => { pat := f.qnan, fl := flNV }

/-- The result when an operand is a NaN (R174). -/
def nanRes (f : Fmt) (sig : Bool) : FRes := { pat := f.qnan, fl := flIf sig flNV }

/-- Float addition of two patterns of a format (R175). -/
def fAdd (f : Fmt) (md : Rnd) (a b : Nat) : FRes :=
  let x := widen f a; let y := widen f b
  if x.isNan || y.isNan then nanRes f (x.isSig || y.isSig) else (x.add y md).round f md

/-- Float subtraction (R175). -/
def fSub (f : Fmt) (md : Rnd) (a b : Nat) : FRes :=
  let x := widen f a; let y := widen f b
  if x.isNan || y.isNan then nanRes f (x.isSig || y.isSig) else (x.add y.negate md).round f md

/-- Float multiplication (R175). -/
def fMul (f : Fmt) (md : Rnd) (a b : Nat) : FRes :=
  let x := widen f a; let y := widen f b
  if x.isNan || y.isNan then nanRes f (x.isSig || y.isSig) else (x.mul y).round f md

/-- A fused multiply-add of exact values: an invalid product sets NV even beside a quiet NaN addend (R175). -/
def vFma (x y z : Val) (f : Fmt) (md : Rnd) : FRes :=
  if x.isNan || y.isNan then nanRes f (x.isSig || y.isSig || z.isSig)
  else
    match x.mul y with
    | .invalid => { pat := f.qnan, fl := flNV }
    | .val p => if z.isNan then nanRes f z.isSig else (p.add z md).round f md

/-- a times b plus d with one rounding (R175). -/
def fFma (f : Fmt) (md : Rnd) (a b d : Nat) : FRes := vFma (widen f a) (widen f b) (widen f d) f md

/-- An order key: less, equal or greater between values that are no NaN, zeros equal. -/
def Val.cmp (x y : Val) : Ordering :=
  match x, y with
  | .fin a m e, .fin b n f =>
    let q := min e f
    compare (scaledTo a m e q) (scaledTo b n f q)
  | .inf a, .inf b => if a = b then .eq else if a then .lt else .gt
  | .inf a, _ => if a then .lt else .gt
  | _, .inf b => if b then .gt else .lt
  | _, _ => .eq

/-- x lies below y, minus zero below plus zero (R176). -/
def Val.below (x y : Val) : Bool :=
  match x.cmp y with
  | .lt => true
  | .gt => false
  | .eq => x.neg' && !y.neg'

/-- FMIN and FMAX: an operand bit for bit (R176). -/
def fPick (f : Fmt) (wantMax : Bool) (a b : Nat) : FRes :=
  let x := widen f a; let y := widen f b
  let fl := flIf (x.isSig || y.isSig) flNV
  if x.isNan && y.isNan then { pat := f.qnan, fl := fl }
  else if x.isNan then { pat := b, fl := fl }
  else if y.isNan then { pat := a, fl := fl }
  else if wantMax then { pat := if x.below y then b else a, fl := fl }
  else { pat := if y.below x then b else a, fl := fl }

/-- A float condition and the flag its test sets (R177). -/
def fCond (f : Fmt) (c : FpCond) (a b : Nat) : Bool × BitVec 7 :=
  let x := widen f a; let y := widen f b
  let n := x.isNan || y.isNan
  let sg := x.isSig || y.isSig
  match c with
  | .eq => (!n && x.cmp y == .eq, flIf sg flNV)
  | .lt => (!n && x.cmp y == .lt, flIf n flNV)
  | .le => (!n && x.cmp y != .gt, flIf n flNV)
  | .un => (n, flIf sg flNV)

/-- The class of a pattern, 0 to 9 (R179). -/
def fClass (f : Fmt) (c : Nat) : Nat :=
  match f, widen f c with
  | _, .inf n => if n then 0 else 7
  | _, .nan _ s _ _ => if s then 8 else 9
  | .flt _ m _ _, .fin n mag _ =>
    if mag = 0 then (if n then 3 else 4)
    else if mag < 2 ^ m then (if n then 2 else 5)
    else if n then 1 else 6
  | .int .., .fin n _ _ => if n then 1 else 6

-- Reciprocals, roots, exponentials (R181 to R183, R347, R348)

/-- The largest y below 2^k whose test holds, for a test that holds on an initial segment. -/
def greatest (test : Nat → Bool) : Nat → Nat → Nat
  | 0, y => y
  | k + 1, y => if test (y + 2 ^ k) then greatest test k (y + 2 ^ k) else greatest test k y

/-- Exponent and top 23 fraction bits of a finite non-zero value (R181). -/
def normalise (m : Nat) (e : Int) : Int × Nat :=
  let l := Nat.log2 m
  let fr := m - 2 ^ l
  (e + l, if l ≤ 23 then fr * 2 ^ (23 - l) else fr / 2 ^ (l - 23))

/-- Pack (R181): (-1)^neg times (y / 2^16) times 2^k in a format, with its OF or UF. -/
def packApprox (f : Fmt) (neg : Bool) (k : Int) (y : Nat) : FRes :=
  match f with
  | .flt e m bias _ =>
    let ex : Int := if 2 ^ 15 ≤ y then k - 1 else k - 2
    let g := if 2 ^ 15 ≤ y then y % 2 ^ 15 * 2 ^ 8 else y % 2 ^ 14 * 2 ^ 9
    if (bias : Int) < ex then { pat := f.infPat neg, fl := flOF }
    else if ex < 1 - (bias : Int) then { pat := f.zeroPat neg, fl := flUF }
    else { pat := neg.toNat * 2 ^ (e + m) + (ex + bias).toNat * 2 ^ m + g * 2 ^ (m - 23), fl := 0 }
  | .int .. => { pat := 0, fl := 0 }

/-- FRCPA (R182). -/
def fRcpa (f : Fmt) (c : Nat) : FRes :=
  match widen f c with
  | .nan _ s _ _ => nanRes f s
  | .inf n => { pat := f.zeroPat n, fl := 0 }
  | .fin n m e =>
    if m = 0 then { pat := f.infPat n, fl := flDZ }
    else
      let ef := normalise m e
      let i := ef.2 / 2 ^ 15
      let y0 := 2 ^ 25 / (513 + 2 * i)
      let mm := 2 ^ 23 + ef.2
      let y1 := y0 * (2 ^ 40 - mm * y0) / 2 ^ 39
      packApprox f n (-ef.1) y1

/-- FRSQA (R183). -/
def fRsqa (f : Fmt) (c : Nat) : FRes :=
  match widen f c with
  | .nan _ s _ _ => nanRes f s
  | .inf n => if n then { pat := f.qnan, fl := flNV } else { pat := f.zeroPat false, fl := 0 }
  | .fin n m e =>
    if m = 0 then { pat := f.infPat n, fl := flDZ }
    else if n then { pat := f.qnan, fl := flNV }
    else
      let ef := normalise m e
      let p := (ef.1 % 2).toNat
      let mm := (2 ^ 23 + ef.2) * 2 ^ p
      let ex := ef.1 - p
      let j := ef.2 / 2 ^ 16
      let u := (257 + 2 * j) * (1 + p)
      let y0 := greatest (fun y => decide (y * y * u ≤ 2 ^ 40)) 21 0
      let y1 := y0 * (3 * 2 ^ 55 - mm * y0 * y0) / 2 ^ 56
      packApprox f false (-(ex / 2)) y1

/-- x to the power 2^k, by squaring. -/
def sqTimes (x : Nat) : Nat → Nat
  | 0 => x
  | k + 1 => sqTimes (x * x) k

/-- T[j], the integer nearest to 2^(16 + j/256) (R347). -/
def expTable (j : Nat) : Nat :=
  (greatest (fun y => decide (sqTimes y 8 ≤ 2 ^ (17 * 256 + j))) 19 0 + 1) / 2

/-- G[j], the integer nearest to 2^16 times log2 (1 + j/256) (R348). -/
def logTable (j : Nat) : Nat := (Nat.log2 (sqTimes (256 + j) 17) - 8 * 2 ^ 17 + 1) / 2

/-- VEXP2A of an f32 pattern (R347). -/
def fExp2a (c : Nat) : FRes :=
  match widen Fmt.f32 c with
  | .nan _ s _ _ => nanRes Fmt.f32 s
  | .inf n => if n then { pat := 0, fl := 0 } else { pat := Fmt.f32.infPat false, fl := flOF ||| flNX }
  | .fin neg m e =>
    let x : Val := .fin neg m e
    if x.cmp (.fin false 128 0) != .lt then { pat := Fmt.f32.infPat false, fl := flOF ||| flNX }
    else if x.cmp (.fin true 150 0) == .lt then { pat := 0, fl := flUF ||| flNX }
    else
      let q : Int := min e (-16)
      let v := scaledTo neg m e q
      let one : Int := (2 ^ (-q).toNat : Nat)
      let n := v / one
      let fr := (v % one).toNat
      let ff := fr / 2 ^ (-q - 16).toNat
      let j := ff / 256
      let k := ff % 256
      let y := expTable j + (expTable (j + 1) - expTable j) * k / 256
      let r := round (.fin false y (n - 16)) Fmt.f32 .rne
      { r with fl := r.fl &&& flUF }

/-- VLOG2A of an f32 pattern (R348). -/
def fLog2a (c : Nat) : FRes :=
  match widen Fmt.f32 c with
  | .nan _ s _ _ => nanRes Fmt.f32 s
  | .inf n => if n then { pat := Fmt.f32.qnan, fl := flNV } else { pat := Fmt.f32.infPat false, fl := 0 }
  | .fin neg m e =>
    if m = 0 then { pat := Fmt.f32.infPat true, fl := flDZ }
    else if neg then { pat := Fmt.f32.qnan, fl := flNV }
    else
      let ef := normalise m e
      let j := ef.2 / 2 ^ 15
      let k := ef.2 / 2 ^ 7 % 256
      let g := logTable j + (logTable (j + 1) - logTable j) * k / 256
      let v : Int := ef.1 * 2 ^ 16 + g
      { round (.fin (decide (v < 0)) v.natAbs (-16)) Fmt.f32 .rne with fl := 0 }

-- Matrix blocks (R273 to R276)

/-- The exact sum of signed terms as an integer multiple of 2^q. -/
def sumTerms (q : Int) : List (Bool × Nat × Int) → Int
  | [] => 0
  | (n, m, e) :: ts => scaledTo n m e q + sumTerms q ts

/-- The least exponent among terms, and one more bound. -/
def minExp (q : Int) : List (Bool × Nat × Int) → Int
  | [] => q
  | (_, _, e) :: ts => minExp (min q e) ts

/-- The finite products among exact ones. -/
def finTerms : List Exact → List (Bool × Nat × Int)
  | [] => []
  | .val (.fin n m e) :: ts => (n, m, e) :: finTerms ts
  | _ :: ts => finTerms ts

/-- The infinities' signs among exact products. -/
def infSigns : List Exact → List Bool
  | [] => []
  | .val (.inf n) :: ts => n :: infSigns ts
  | _ :: ts => infSigns ts

/-- One block's update of an acc.f48 element (R274, R275): pairs of operand values, the two scale codes, C. -/
def blockF48 (ps : List (Val × Val)) (ea eb : Nat) (c : Nat) (md : Rnd) : FRes :=
  let cv := widen Fmt.f48 c
  let scaleNan := ea == 255 || eb == 255
  let sigElem := (ea != 255 && ps.any (·.1.isSig)) || (eb != 255 && ps.any (·.2.isSig))
  let nanElem := ps.any fun p => p.1.isNan || p.2.isNan
  let prods := (ps.filter fun p => !p.1.isNan && !p.2.isNan).map fun p => p.1.mul p.2
  let prodsNv := if scaleNan then [] else prods
  let badProd := prodsNv.contains .invalid
  let infs := (if cv.isNan then [] else infSigns [.val cv]) ++ infSigns prodsNv
  let bothInf := infs.contains true && infs.contains false
  if scaleNan || nanElem || cv.isNan || badProd || bothInf then
    { pat := Fmt.f48.qnan, fl := flIf (sigElem || cv.isSig || badProd || bothInf) flNV }
  else if !infs.isEmpty then { pat := Fmt.f48.infPat (infs.contains true), fl := 0 }
  else
    let ex : Int := (ea : Int) - 127 + ((eb : Int) - 127)
    let terms := finTerms [.val cv] ++ (finTerms prods).map fun t => (t.1, t.2.1, t.2.2 + ex)
    let q := minExp 0 terms
    let v := sumTerms q terms
    if v = 0 then
      let allNeg := terms.all (·.1)
      let both := terms.any (·.1) && terms.any (!·.1)
      { pat := Fmt.f48.zeroPat (allNeg || (both && md == .rdn)), fl := 0 }
    else round (.fin (decide (v < 0)) v.natAbs q) Fmt.f48 md

/-- One block's update of an acc.i48 element (R276). -/
def blockI48 (ps : List (Int × Int)) (c : Nat) : FRes :=
  let v := sext 48 c + ps.foldl (fun s p => s + p.1 * p.2) 0
  { pat := (v % (2 ^ 48 : Nat)).toNat,
    fl := flIf (decide (v < -(2 ^ 47 : Nat) ∨ ((2 ^ 47 : Nat) : Int) ≤ v)) flIOV }

/-- Block quantisation to an MX format (R272): the scale code, and the codes of the elements with their flags. -/
def mxEmax : Nat → Int
  | 6 => 8 | 7 => 15 | 8 => 2 | 9 => 4 | 10 => 2 | _ => 0

def Val.lead : Val → Option Int
  | .fin _ m e => if m = 0 then none else some ((Nat.log2 m : Int) + e)
  | _ => none

def mxQuantise (fmt : Nat) (vs : List Val) (md : Rnd) : Nat × List FRes :=
  match matFmt fmt with
  | none => (0, [])
  | some f =>
    if vs.any fun v => v.isNan || v == .inf false || v == .inf true then (255, vs.map fun _ => { pat := 0, fl := 0 })
    else
      let leads := vs.filterMap Val.lead
      let ex : Int := match leads with
        | [] => 0
        | l :: ls => min 127 (max (-127) (ls.foldl max l - mxEmax fmt))
      let scaleDown := fun (v : Val) => match v with
        | .fin n m e => Val.fin n m (e - ex)
        | v => v
      ((ex + 127).toNat, vs.map fun v => round (scaleDown v) f md)

end Sys2Proof.Machine
end

