-- ==== Sys2Proof/Machine/Operands.lean ====
section
/-!
DEFINITION. Machine/Operands.lean: every operand form of the S slot: immediates, shift amounts, effective addresses,
transfer targets, semaphore amounts (R106, R164, R184, R191, R370).
-/
namespace Sys2Proof.Machine

/-- imm14 as a 64-bit pattern: always sign-extended (R106). -/
def imm14 (i : BitVec 14) : W64 := i.signExtend 64

/-- imm20 read as signed, for MOVI (R169). -/
def imm20s (i : BitVec 20) : W64 := i.signExtend 64

/-- off26 as a signed count of bundles (R106). -/
def off26 (o : BitVec 26) : W64 := o.signExtend 64

/-- The shift amount of a register shift (R164). -/
def shamt (x : W64) : Nat := x.toNat % 64

end Sys2Proof.Machine

namespace Sys2Proof
open Sys2Proof.Machine

/-- Bytes of an access width. -/
def Width.bytes : Width → Nat
  | .b1 => 1 | .b2 => 2 | .b4 => 4 | .b8 => 8

end Sys2Proof

namespace Sys2Proof.Machine

/-- The effective address of a MEM form with an access of w bytes (R184). -/
def effAddr (base : W64) (off : BitVec 14) (w : Nat) : W64 := base + imm14 off * BitVec.ofNat 64 w

/-- The amount of a semaphore instruction: (s[a] + n) mod 2^16 (R370). -/
def semAmount (x : W64) (n : BitVec 6) : Nat := (x.toNat + n.toNat) % 65536

/-- The link of a transfer issued at bundle i (R191). -/
def linkOf (pc : W64) : W64 := pc + 3

end Sys2Proof.Machine
end

