-- ==== Sys2Proof/Machine/Float.lean ====
section
/-!
DEFINITION. Machine/Float.lean: the scalar float instructions (R173 to R183): operands from the bits of Table 7-1, one
rounding, flags landing with the result.
-/
namespace Sys2Proof.Machine

/-- The bits of a register a scalar type reads (Table 7-1). -/
def scalarBits (f : Fmt) (x : W64) : Nat := x.toNat % 2 ^ f.width

/-- A result as written to a register (Table 7-1): i32 is sign-extended, every other type zero-extended. -/
def scalarResult (f : Fmt) (p : Nat) : W64 :=
  match f with
  | .int w true _ => w64i (sext w p)
  | _ => w64 p

/-- A float result with its flags, landing after a latency. -/
def State.laterF (s : State) (d : Reg) (f : Fmt) (r : FRes) (lat : Nat) : State :=
  s.laterFl d (scalarResult f r.pat) lat r.fl

/-- Latency of FFMA (Table 6-1). -/
def ffmaLat : FpTy → Nat
  | .f32 => 5 | .f64 => 6

def execFadd (t : FpTy) (md : RMode) (d a b : Reg) (s : State) : Out :=
  .next (s.laterF d t.fmt (fAdd t.fmt md.rnd (scalarBits t.fmt (s.rd a)) (scalarBits t.fmt (s.rd b))) 4)
def execFsub (t : FpTy) (md : RMode) (d a b : Reg) (s : State) : Out :=
  .next (s.laterF d t.fmt (fSub t.fmt md.rnd (scalarBits t.fmt (s.rd a)) (scalarBits t.fmt (s.rd b))) 4)
def execFmul (t : FpTy) (md : RMode) (d a b : Reg) (s : State) : Out :=
  .next (s.laterF d t.fmt (fMul t.fmt md.rnd (scalarBits t.fmt (s.rd a)) (scalarBits t.fmt (s.rd b))) 4)
def execFfma (t : FpTy) (md : RMode) (d a b : Reg) (s : State) : Out :=
  .next (s.laterF d t.fmt
    (fFma t.fmt md.rnd (scalarBits t.fmt (s.rd a)) (scalarBits t.fmt (s.rd b)) (scalarBits t.fmt (s.rd d))) (ffmaLat t))
def execFmin (t : FpTy) (d a b : Reg) (s : State) : Out :=
  .next (s.laterF d t.fmt (fPick t.fmt false (scalarBits t.fmt (s.rd a)) (scalarBits t.fmt (s.rd b))) 4)
def execFmax (t : FpTy) (d a b : Reg) (s : State) : Out :=
  .next (s.laterF d t.fmt (fPick t.fmt true (scalarBits t.fmt (s.rd a)) (scalarBits t.fmt (s.rd b))) 4)

/-- A float comparison (R177). -/
def execFcmp (c : FpCond) (t : FpTy) (d a b : Reg) (s : State) : Out :=
  let r := fCond t.fmt c (scalarBits t.fmt (s.rd a)) (scalarBits t.fmt (s.rd b))
  .next (s.laterFl d (boolW r.1) 2 r.2)

/-- A conversion between scalar types (R178). -/
def execFcvt (td ts : ScalarTy) (md : RMode) (d a : Reg) (s : State) : Out :=
  .next (s.laterF d td.fmt (convert ts.fmt td.fmt (scalarBits ts.fmt (s.rd a)) md.rnd) 4)

def execFrsqa (t : FpTy) (d a : Reg) (s : State) : Out :=
  .next (s.laterF d t.fmt (fRsqa t.fmt (scalarBits t.fmt (s.rd a))) 6)
def execFrcpa (t : FpTy) (d a : Reg) (s : State) : Out :=
  .next (s.laterF d t.fmt (fRcpa t.fmt (scalarBits t.fmt (s.rd a))) 6)

/-- A one-hot class mask (R179). -/
def execFclass (t : FpTy) (d a : Reg) (s : State) : Out :=
  .next (s.later d (fld 1 (fClass t.fmt (scalarBits t.fmt (s.rd a)))) 1)

end Sys2Proof.Machine

namespace Sys2Proof
open Sys2Proof.Machine

/-- The new sign of FSGN (R180). -/
def SgnOp.apply (op : SgnOp) (sa sb : Bool) : Bool :=
  match op with
  | .j => sb
  | .jn => !sb
  | .jx => sa != sb

end Sys2Proof

namespace Sys2Proof.Machine

/-- A pattern with its sign bit replaced (R180). -/
def signReplace (w : Nat) (x : Nat) (neg : Bool) : Nat := x % 2 ^ (w - 1) + neg.toNat * 2 ^ (w - 1)

def execFsgn (op : SgnOp) (t : FpTy) (d a b : Reg) (s : State) : Out :=
  let w := t.fmt.width
  let x := scalarBits t.fmt (s.rd a)
  let y := scalarBits t.fmt (s.rd b)
  .next (s.later d (w64 (signReplace w x (op.apply (x.testBit (w - 1)) (y.testBit (w - 1))))) 1)

end Sys2Proof.Machine
end

