-- ==== Sys2Proof/WellFormed.lean ====
section
/-!
DEFINITION. WellFormed.lean: which instructions and guards are legal as written: the limits of each entry that are
checked at decode (R105, R113 item 5) and that the types of Syntax.lean do not already say.
-/
namespace Sys2Proof

/-- Width of a vector element in bytes (Table 13-1). -/
def VTy.bytes : VTy → Nat
  | .i8 => 1 | .i16 => 2 | .f16 => 2 | .bf16 => 2 | .i32 => 4 | .f32 => 4 | .i48 => 6 | .f48 => 6 | .f64 => 8

/-- Lanes of a vector register (Table 13-1). -/
def VTy.lanes (t : VTy) : Nat := 384 / t.bytes

/-- The integer element types. -/
def VTy.isInt : VTy → Bool
  | .i8 | .i16 | .i32 | .i48 => true
  | .f16 | .bf16 | .f32 | .f48 | .f64 => false

/-- A control register number that KWR reaches through a row of its own (Tables 9-7, 15-3, 17-2, 18-2). -/
def kwrOwnRow (k : BitVec 8) : Bool :=
  k == 0x0C || k == 0x3C || k == 0x77 || k == 0x78 || k == 0x79 || 0x80 ≤ k.toNat

/-- A legal guard (R102): s0 is named only by the unguarded form. -/
def Guard.wf (g : Guard) : Bool := g.reg != 0 || (g.bit == 0 && !g.neg)

/-- fn[7:4] of the additive vector arithmetic: wrap or saturate for integers, a rounding mode for floats (R339). -/
def Vr.arithMd (o : Vr) : Bool := if o.ty.isInt then o.md.toNat ≤ 1 else o.md.toNat ≤ 3

/-- fn[7:4] of minima, maxima and sign operations: a two-way choice for integers, 0 for floats (Table 13-3). -/
def Vr.pickMd (o : Vr) : Bool := if o.ty.isInt then o.md.toNat ≤ 1 else o.md == 0

/-- Integer element types with shifts (Table 13-3). -/
def Vr.shiftOk (o : Vr) : Bool := o.ty.isInt && o.md == 0

/-- The matrix table family mn0 to mn3 (Table 12-9). -/
def En.mnOk (e : En) : Bool := e.idx.toNat < 4

/-- The Drover descriptor family dd0 to dd31 (R278). -/
def En.ddOk (e : En) : Bool := e.idx.toNat < 32

/-- A legal loop body length, 1 to 4,095 (R105). -/
def lenOk (len : BitVec 12) : Bool := len != 0

/-- The legality of VCVT (R345). -/
def vcvtOk (td ts : VTy) (md p : BitVec 3) : Bool :=
  td != ts && decide (p.toNat * Nat.min ts.lanes td.lanes < Nat.max ts.lanes td.lanes) &&
    decide (md.toNat ≤ 4) && (md != 4 || decide (td.bytes ≤ 2))

/-- Every limit checked at decode that depends on the instruction alone. Rows that are no syllable are well formed
when their arguments name something that exists. -/
def Instr.wf : Instr → Bool
  | .functionLevelReset n => decide (1 ≤ n ∧ n ≤ 192)
  | .notify fn _ => decide (fn ≤ 192)
  | .khead fn _ => decide (fn ≤ 192)
  | .rcfgWrite fn _ => decide (fn ≤ 192)
  | .hostRegisterWrite fn bar off _ => decide (fn ≤ 192 ∧ off % 8 = 0) && (bar != .bar2 || fn == 0)
  | .create c | .loadImage c | .start c | .mbwrite c | .preempt c | .resume c | .move c | .pageRelease c
  | .pageAccept c | .read c | .destroy c | .attest c | .sessionOpen c | .heartbeat c | .resync c | .setBudget c
  | .qconf c | .dieResume c | .hostMap c | .hostUnmap c => decide (c.fn ≤ 192)
  | .debugStop fn | .debugGo fn | .dump fn | .arm fn => decide (fn ≤ 192)
  | .tcfgWrite fn _ | .thead fn _ => decide (fn ≤ 192)
  | .heartbeatTimeout fn | .holdExpiry fn | .sliceEnd fn => decide (fn ≤ 192)
  | .temperatureReport x y _ => decide (x < 20 ∧ y < 20)
  | .dieFailure x y => decide (x < 20 ∧ y < 20 ∧ (x + y) % 2 = 0)
  | .syncObjectPoisoned (.sem n) => decide (n < 256)
  | .syncObjectPoisoned (.window w) => decide (w < 64)
  | .syncObjectPoisoned (.fold f) => decide (f < 256)
  | .bfx _ _ pos lenM1 | .bfxs _ _ pos lenM1 | .bfi _ _ pos lenM1 => decide (pos.toNat + lenM1.toNat + 1 ≤ 64)
  | .ldp d _ _ | .stp d _ _ => decide (d.toNat % 2 = 0)
  | .str _ _ dx dy => !(dx == 0 && dy == 0)
  | .spill d _ _ => d != 0
  | .fill d => d != 0
  | .fcvt td ts _ _ _ => td != ts && !(scalarInt td && scalarInt ts)
  | .loop _ len _ | .loopi _ len _ | .lbrk len _ => lenOk len
  | .mcfg r _ w => decide (r.toNat < 4 ∧ w.toNat < 24)
  | .vcfg r _ w => decide (r.toNat < 16 ∧ w.toNat < 16)
  | .dcfg r _ w => decide (r.toNat < 32 ∧ w.toNat < 8)
  | .tirw r _ w => decide (r.toNat < 32 ∧ w.toNat < 8)
  | .tirr _ r w => decide (r.toNat < 32 ∧ w.toNat < 8)
  | .fmtw r _ => decide (r.toNat < 16)
  | .ringw r _ w => decide (r.toNat < 8 ∧ w.toNat < 4)
  | .ringr _ r w => decide (r.toNat < 8 ∧ w.toNat < 4)
  | .kwr k _ => !kwrOwnRow k
  | .mgo e | .mma e | .mzero e | .mwb e => e.mnOk
  | .mpop e => decide (e.idx.toNat < 8) && e.step == 0
  | .mvwin e => e.rep == 0 && e.step == 0
  | .vadd o | .vsub o | .vmul o | .vfma o => o.arithMd
  | .vmin o | .vmax o => o.pickMd
  | .vabs o | .vneg o => o.pickMd && o.vb == 0
  | .vshl o | .vshr o | .vsar o => o.shiftOk
  | .vsel o => o.md == 0
  | .vcmp o => if o.ty.isInt then o.md.toNat ≤ 5 else o.md.toNat ≤ 3
  | .vcvt td ts md p _ _ => vcvtOk td ts md p
  | .vrsqa o | .vrcpa o => (o.ty == .f32 || o.ty == .f64) && o.md == 0 && o.vb == 0
  | .vtint o => (o.ty == .f16 || o.ty == .bf16 || o.ty == .f32) && decide (o.md.toNat ≤ 3)
  | .vredadd o => o.arithMd && o.vb == 0
  | .vredmax o => o.pickMd && o.vb == 0
  | .vperm o => o.md == 0
  | .vmovs ty _ _ vb hi => decide (vb.toNat + 64 * hi.toNat < ty.lanes)
  | .vchain e => decide (e.idx.toNat < 16)
  | .dcopy e | .dgather e | .dscatter e | .dfill e | .dput e | .dget e | .dputadd e | .damo e | .dtab e => e.ddOk
  | .dfence e => e.ddOk && e.rep == 0 && e.step == 0
  | _ => true
where
  /-- Integer types of FCVT (R178). -/
  scalarInt : ScalarTy → Bool
    | .i32 | .i64 | .n32 | .n64 => true
    | .f16 | .bf16 | .f32 | .f64 => false

/-- The slot whose map holds the instruction; none for rows that are no syllable, and for the two rows of syncrst,
which decode as KWR and take their row from the value written (R410). -/
def Instr.slot : Instr → Option Slot
  | .nop | .add .. | .addi .. | .sub .. | .mul .. | .mulh .. | .mulhn .. | .div .. | .divn .. | .rem .. | .remn ..
  | .and .. | .andi .. | .or .. | .ori .. | .xor .. | .xori .. | .andn .. | .shl .. | .shli .. | .shr .. | .shri ..
  | .sar .. | .sari .. | .rotl .. | .clz .. | .ctz .. | .popc .. | .min .. | .max .. | .minn .. | .maxn ..
  | .cmp .. | .cmpi .. | .sel .. | .movi .. | .orhi .. | .bfx .. | .bfxs .. | .bfi .. | .bset .. | .bclr ..
  | .lea .. | .fadd .. | .fsub .. | .fmul .. | .ffma .. | .fmin .. | .fmax .. | .fcmp .. | .fcvt .. | .frsqa ..
  | .frcpa .. | .fclass .. | .fsgn .. | .ld .. | .ldz .. | .st .. | .ldp .. | .stp .. | .str .. | .spill ..
  | .fill .. | .amo .. | .amocas .. | .famoadd .. | .br .. | .call .. | .ret .. | .jr .. | .loop .. | .loopi ..
  | .lbrk .. | .idle .. | .ppt .. | .align | .halt | .semsig .. | .semwt .. | .semtst .. | .semwtt .. | .semrd ..
  | .farv .. | .fwt .. | .fwtt .. | .fbar .. | .wacq .. | .wrd .. | .mcfg .. | .vcfg .. | .dcfg .. | .tirw ..
  | .tirr .. | .fmtw .. | .ringw .. | .ringr .. | .trap .. | .eret | .krd .. | .kwr .. | .mbrd .. | .mbwr ..
  | .msload .. | .msbind .. | .msrd .. | .caprd .. | .srng .. | .uopn ..
  | .kwrLosssel .. | .kwrLossval .. | .kwrTrcemit .. | .kwrWdesc .. | .kwrWmap .. | .kwrPoolscope .. | .kwrTimer .. =>
    some .s
  | .mnop | .mgo .. | .mma .. | .mzero .. | .mwb .. | .mscl .. | .mpop .. | .mvwin .. => some .m
  | .vnop | .vld .. | .vst .. | .vadd .. | .vsub .. | .vmul .. | .vfma .. | .vmin .. | .vmax .. | .vabs .. | .vneg ..
  | .vand .. | .vor .. | .vxor .. | .vshl .. | .vshr .. | .vsar .. | .vcvt .. | .vcmp .. | .vsel .. | .vrsqa ..
  | .vrcpa .. | .vexp2a .. | .vlog2a .. | .vtint .. | .vrng .. | .vredadd .. | .vredmax .. | .vbcast .. | .vperm ..
  | .vmovs .. | .vchain .. => some .v
  | .dnop | .dcopy .. | .dgather .. | .dscatter .. | .dfill .. | .dput .. | .dget .. | .dputadd .. | .damo ..
  | .dtab .. | .dfence .. => some .d
  | _ => none

/-- A syllable of slot sl that decodes without fault: a legal guard and a legal instruction of that slot. -/
def Syllable.wf (sl : Slot) (y : Syllable) : Bool := y.guard.wf && y.instr.wf && y.instr.slot == some sl

end Sys2Proof
end

