-- ==== Sys2Proof/Decode.lean ====
section
/-!
DEFINITION. Decode.lean: from bits to instructions and back (R99 to R106, R113, R116 to R122). Decoding is total and
rejects by name; the encoder stands after it, written from the same tables.
-/
namespace Sys2Proof

/-- Why a syllable is illegal as written (R113). -/
inductive DecodeErr where
  /-- Its opcode names a reserved cell (item 1). -/
  | reserved
  /-- Its guard is illegal under R102 (item 4). -/
  | guard
  /-- A field breaks R105 or a limit of its entry (item 5). -/
  | operand
  deriving DecidableEq, Repr

-- The fields of the operand formats (Table 5-3).

/-- Bits 25:20: destination, record number or descriptor index. -/
def opD (o : BitVec 26) : BitVec 6 := o.extractLsb' 20 6
/-- Bits 19:14: first source, or base. -/
def opA (o : BitVec 26) : BitVec 6 := o.extractLsb' 14 6
/-- Bits 13:8: second source. -/
def opB (o : BitVec 26) : BitVec 6 := o.extractLsb' 8 6
/-- Bits 7:0: the function field. -/
def opFn (o : BitVec 26) : BitVec 8 := o.extractLsb' 0 8
/-- Bits 13:0: imm14 of RI, off14 of MEM. -/
def opImm14 (o : BitVec 26) : BitVec 14 := o.extractLsb' 0 14
/-- Bits 19:0: imm20. -/
def opImm20 (o : BitVec 26) : BitVec 20 := o.extractLsb' 0 20
/-- Bits 19:8: body length of LP. -/
def opLen (o : BitVec 26) : BitVec 12 := o.extractLsb' 8 12
/-- The EN fields: index, rep, step, dly. -/
def opEn (o : BitVec 26) : En :=
  { idx := o.extractLsb' 20 6, rep := o.extractLsb' 12 8, step := o.extractLsb' 6 6, dly := o.extractLsb' 0 6 }

/-- Operands of format RRR. -/
def packR (d a b : BitVec 6) (fn : BitVec 8) : BitVec 26 := d ++ a ++ b ++ fn
/-- Operands of formats RI and MEM. -/
def packI (d a : BitVec 6) (imm : BitVec 14) : BitVec 26 := d ++ a ++ imm
/-- Operands of format I20. -/
def packL (d : BitVec 6) (imm : BitVec 20) : BitVec 26 := d ++ imm
/-- Operands of format LP. -/
def packLP (cnt : BitVec 6) (len : BitVec 12) (fn : BitVec 8) : BitVec 26 := cnt ++ len ++ fn
/-- Operands of format EN. -/
def packEn (e : En) : BitVec 26 := e.idx ++ e.rep ++ e.step ++ e.dly

-- Codes of the named sets, in both directions.

/-- Compare conditions (Table 7-4). -/
def IntCond.ofCode : Nat → Option IntCond
  | 0 => some .eq | 1 => some .ne | 2 => some .lt | 3 => some .le | 4 => some .ltn | 5 => some .len | _ => none
def IntCond.code : IntCond → Nat
  | .eq => 0 | .ne => 1 | .lt => 2 | .le => 3 | .ltn => 4 | .len => 5

/-- Float conditions (R177). -/
def FpCond.ofCode : Nat → Option FpCond
  | 0 => some .eq | 1 => some .lt | 2 => some .le | 3 => some .un | _ => none
def FpCond.code : FpCond → Nat
  | .eq => 0 | .lt => 1 | .le => 2 | .un => 3

/-- Scalar type codes (Table 7-1). -/
def ScalarTy.ofCode : Nat → Option ScalarTy
  | 2 => some .i32 | 4 => some .f16 | 5 => some .bf16 | 6 => some .f32 | 8 => some .f64 | 9 => some .i64
  | 10 => some .n32 | 11 => some .n64 | _ => none
def ScalarTy.code : ScalarTy → Nat
  | .i32 => 2 | .f16 => 4 | .bf16 => 5 | .f32 => 6 | .f64 => 8 | .i64 => 9 | .n32 => 10 | .n64 => 11

/-- Types of scalar float arithmetic (R173). -/
def FpTy.ofCode : Nat → Option FpTy
  | 6 => some .f32 | 8 => some .f64 | _ => none
def FpTy.code : FpTy → Nat
  | .f32 => 6 | .f64 => 8

/-- Rounding modes (R173). -/
def RMode.ofCode : Nat → Option RMode
  | 0 => some .rne | 1 => some .rtz | 2 => some .rdn | 3 => some .rup | _ => none
def RMode.code : RMode → Nat
  | .rne => 0 | .rtz => 1 | .rdn => 2 | .rup => 3

/-- Sign operations (R180). -/
def SgnOp.ofCode : Nat → Option SgnOp
  | 0 => some .j | 1 => some .jn | 2 => some .jx | _ => none
def SgnOp.code : SgnOp → Nat
  | .j => 0 | .jn => 1 | .jx => 2

/-- Atomic operations (Table 15-7). -/
def AmoOp.ofCode : Nat → Option AmoOp
  | 0 => some .add | 1 => some .min | 2 => some .max | 3 => some .and | 4 => some .or | 5 => some .xor
  | 6 => some .swp | _ => none
def AmoOp.code : AmoOp → Nat
  | .add => 0 | .min => 1 | .max => 2 | .and => 3 | .or => 4 | .xor => 5 | .swp => 6

/-- Atomic operand type, bit fn[3] (Table 15-7). -/
def AmoTy.ofBit (b : Bool) : AmoTy := if b then .i64 else .i32
def AmoTy.bit : AmoTy → Bool
  | .i32 => false | .i64 => true

/-- Ordering, fn[5:4] (R405). -/
def AmoOrd.ofCode (n : Nat) : AmoOrd := { acq := n % 2 == 1, rel := n / 2 % 2 == 1 }
def AmoOrd.code (o : AmoOrd) : Nat := o.acq.toNat + 2 * o.rel.toNat

/-- Vector element types (Table 5-9). -/
def VTy.ofCode : Nat → Option VTy
  | 0 => some .i8 | 1 => some .i16 | 2 => some .i32 | 3 => some .i48 | 4 => some .f16 | 5 => some .bf16
  | 6 => some .f32 | 7 => some .f48 | 8 => some .f64 | _ => none
def VTy.code : VTy → Nat
  | .i8 => 0 | .i16 => 1 | .i32 => 2 | .i48 => 3 | .f16 => 4 | .bf16 => 5 | .f32 => 6 | .f48 => 7 | .f64 => 8

/-- Access width of an LD, LDZ or ST cell, by its place in the row (Table 7-8). -/
def Width.ofCode : Nat → Width
  | 0 => .b1 | 1 => .b2 | 2 => .b4 | _ => .b8
def Width.code : Width → Nat
  | .b1 => 0 | .b2 => 1 | .b4 => 2 | .b8 => 3

/-- An instruction when its unused fields are as they must be (R105). -/
def onlyIf (c : Bool) (i : Instr) : Except DecodeErr Instr := if c then .ok i else .error .operand

/-- An instruction built from a named code, or an operand error where the code is not listed (R105). -/
def withCode {α : Type} (o : Option α) (f : α → Except DecodeErr Instr) : Except DecodeErr Instr :=
  match o with
  | some x => f x
  | none => .error .operand

/-- KWR by register number: the numbers with a row of their own, and the rest (Table 6-6). -/
def decodeKwr (k : BitVec 8) (a : Reg) : Instr :=
  if k == 0x0C then .kwrTimer a
  else if k == 0x3C then .kwrPoolscope a
  else if k == 0x77 then .kwrLosssel a
  else if k == 0x78 then .kwrLossval a
  else if k == 0x79 then .kwrTrcemit a
  else if 0xC0 ≤ k.toNat then .kwrWmap (k.extractLsb' 0 6) a
  else if 0x80 ≤ k.toNat then .kwrWdesc (k.extractLsb' 0 6) a
  else .kwr k a

/-- Slot S: integer, bit-field and float opcodes (rows 0x00_ to 0x04_ of Table 5-5). -/
def decodeAlu (op : Nat) (o : BitVec 26) : Except DecodeErr Instr :=
  let d := opD o; let a := opA o; let b := opB o; let fn := opFn o; let imm := opImm14 o
  let fl := BitVec.toNat (fn.extractLsb' 0 4); let fh := BitVec.toNat (fn.extractLsb' 4 4)
  let imm6 : BitVec 6 := o.extractLsb' 0 6; let imm6ok : Bool := o.extractLsb' 6 8 == 0
  match op with
  | 0x000 => onlyIf (o == 0) .nop
  | 0x001 => onlyIf (fn == 0) (.add d a b)
  | 0x002 => .ok (.addi d a imm)
  | 0x003 => onlyIf (fn == 0) (.sub d a b)
  | 0x004 => onlyIf (fn == 0) (.mul d a b)
  | 0x005 => onlyIf (fn == 0) (.mulh d a b)
  | 0x006 => onlyIf (fn == 0) (.mulhn d a b)
  | 0x007 => onlyIf (fn == 0) (.div d a b)
  | 0x008 => onlyIf (fn == 0) (.divn d a b)
  | 0x009 => onlyIf (fn == 0) (.rem d a b)
  | 0x00A => onlyIf (fn == 0) (.remn d a b)
  | 0x00B => onlyIf (fn == 0) (.and d a b)
  | 0x00C => .ok (.andi d a imm)
  | 0x00D => onlyIf (fn == 0) (.or d a b)
  | 0x00E => .ok (.ori d a imm)
  | 0x00F => onlyIf (fn == 0) (.xor d a b)
  | 0x010 => .ok (.xori d a imm)
  | 0x011 => onlyIf (fn == 0) (.andn d a b)
  | 0x012 => onlyIf (fn == 0) (.shl d a b)
  | 0x013 => onlyIf imm6ok (.shli d a imm6)
  | 0x014 => onlyIf (fn == 0) (.shr d a b)
  | 0x015 => onlyIf imm6ok (.shri d a imm6)
  | 0x016 => onlyIf (fn == 0) (.sar d a b)
  | 0x017 => onlyIf imm6ok (.sari d a imm6)
  | 0x018 => onlyIf (fn == 0) (.rotl d a b)
  | 0x019 => onlyIf (fn == 0 && b == 0) (.clz d a)
  | 0x01A => onlyIf (fn == 0 && b == 0) (.ctz d a)
  | 0x01B => onlyIf (fn == 0 && b == 0) (.popc d a)
  | 0x01C => onlyIf (fn == 0) (.min d a b)
  | 0x01D => onlyIf (fn == 0) (.max d a b)
  | 0x01E => onlyIf (fn == 0) (.minn d a b)
  | 0x01F => onlyIf (fn == 0) (.maxn d a b)
  | 0x020 => withCode (IntCond.ofCode fn.toNat) fun c => .ok (.cmp c d a b)
  | 0x021 => .ok (.cmpi .eq d a imm)
  | 0x022 => .ok (.cmpi .ne d a imm)
  | 0x023 => .ok (.cmpi .lt d a imm)
  | 0x024 => .ok (.cmpi .le d a imm)
  | 0x025 => .ok (.cmpi .ltn d a imm)
  | 0x026 => .ok (.cmpi .len d a imm)
  | 0x027 => onlyIf (fn.extractLsb' 6 2 == 0) (.sel d a b (fn.extractLsb' 0 6))
  | 0x028 => .ok (.movi d (opImm20 o))
  | 0x029 => onlyIf (o.extractLsb' 18 2 == 0) (.orhi d (o.extractLsb' 0 16) (o.extractLsb' 16 2))
  | 0x02A => onlyIf (fn.extractLsb' 6 2 == 0) (.bfx d a b (fn.extractLsb' 0 6))
  | 0x02B => onlyIf (fn.extractLsb' 6 2 == 0) (.bfxs d a b (fn.extractLsb' 0 6))
  | 0x02C => onlyIf (fn.extractLsb' 6 2 == 0) (.bfi d a b (fn.extractLsb' 0 6))
  | 0x02D => onlyIf imm6ok (.bset d a imm6)
  | 0x02E => onlyIf imm6ok (.bclr d a imm6)
  | 0x02F => onlyIf (fn.extractLsb' 3 5 == 0) (.lea d a b (fn.extractLsb' 0 3))
  | 0x040 => withCode (FpTy.ofCode fl) fun t => withCode (RMode.ofCode fh) fun md => .ok (.fadd t md d a b)
  | 0x041 => withCode (FpTy.ofCode fl) fun t => withCode (RMode.ofCode fh) fun md => .ok (.fsub t md d a b)
  | 0x042 => withCode (FpTy.ofCode fl) fun t => withCode (RMode.ofCode fh) fun md => .ok (.fmul t md d a b)
  | 0x043 => withCode (FpTy.ofCode fl) fun t => withCode (RMode.ofCode fh) fun md => .ok (.ffma t md d a b)
  | 0x044 => withCode (FpTy.ofCode fl) fun t => onlyIf (fh == 0) (.fmin t d a b)
  | 0x045 => withCode (FpTy.ofCode fl) fun t => onlyIf (fh == 0) (.fmax t d a b)
  | 0x046 => withCode (FpTy.ofCode fl) fun t => withCode (FpCond.ofCode fh) fun c => .ok (.fcmp c t d a b)
  | 0x047 => withCode (ScalarTy.ofCode fl) fun td => withCode (ScalarTy.ofCode b.toNat) fun ts =>
      withCode (RMode.ofCode fh) fun md => .ok (.fcvt td ts md d a)
  | 0x048 => withCode (FpTy.ofCode fl) fun t => onlyIf (fh == 0 && b == 0) (.frsqa t d a)
  | 0x049 => withCode (FpTy.ofCode fl) fun t => onlyIf (fh == 0 && b == 0) (.frcpa t d a)
  | 0x04A => withCode (FpTy.ofCode fl) fun t => onlyIf (fh == 0 && b == 0) (.fclass t d a)
  | 0x04B => withCode (FpTy.ofCode fl) fun t => withCode (SgnOp.ofCode fh) fun op => .ok (.fsgn op t d a b)
  | _ => .error .reserved

/-- Slot S: memory, transfers, synchronisation, configuration, system and UOPn (the other rows of Table 5-5). -/
def decodeSys (op : Nat) (o : BitVec 26) : Except DecodeErr Instr :=
  let d := opD o; let a := opA o; let b := opB o; let fn := opFn o; let imm := opImm14 o
  let lvl : BitVec 2 := o.extractLsb' 6 2; let flags : BitVec 6 := o.extractLsb' 0 6; let len := opLen o
  let ty := AmoTy.ofBit (fn.getLsbD 3); let ord := AmoOrd.ofCode (BitVec.toNat (fn.extractLsb' 4 2))
  let fhi : BitVec 2 := fn.extractLsb' 6 2; let n6 : BitVec 6 := b
  match op with
  | 0x060 => .ok (.ld .b1 d a imm)
  | 0x061 => .ok (.ld .b2 d a imm)
  | 0x062 => .ok (.ld .b4 d a imm)
  | 0x063 => .ok (.ld .b8 d a imm)
  | 0x064 => .ok (.ldz .b1 d a imm)
  | 0x065 => .ok (.ldz .b2 d a imm)
  | 0x066 => .ok (.ldz .b4 d a imm)
  | 0x067 => .ok (.ldz .b8 d a imm)
  | 0x068 => .ok (.st .b1 d a imm)
  | 0x069 => .ok (.st .b2 d a imm)
  | 0x06A => .ok (.st .b4 d a imm)
  | 0x06B => .ok (.st .b8 d a imm)
  | 0x06C => .ok (.ldp d a imm)
  | 0x06D => .ok (.stp d a imm)
  | 0x06E => onlyIf (fhi == 0) (.str d a b (fn.extractLsb' 0 6))
  | 0x06F => .ok (.spill d a imm)
  | 0x070 => onlyIf (a == 0 && imm == 0) (.fill d)
  | 0x071 => withCode (AmoOp.ofCode (BitVec.toNat (fn.extractLsb' 0 3))) fun op =>
      onlyIf (fhi == 0) (.amo op ty ord d a b)
  | 0x072 => onlyIf (fhi == 0 && fn.extractLsb' 0 3 == 0) (.amocas ty ord d a b)
  | 0x073 => withCode (FpTy.ofCode (BitVec.toNat (fn.extractLsb' 0 4))) fun t =>
      withCode (RMode.ofCode fhi.toNat) fun md => .ok (.famoadd t md ord d a b)
  | 0x080 => .ok (.br o)
  | 0x081 => .ok (.call o)
  | 0x082 => onlyIf (d == 0 && b == 0 && fn == 0) (.ret a)
  | 0x083 => onlyIf (b == 0 && fn == 0) (.jr d a)
  | 0x084 => onlyIf (flags == 0) (.loop d len lvl)
  | 0x085 => onlyIf (flags == 0) (.loopi d len lvl)
  | 0x086 => onlyIf (flags == 0 && d == 0) (.lbrk len lvl)
  | 0x087 => .ok (.idle d (opImm20 o))
  | 0x088 => onlyIf (d == 0 && o.extractLsb' 12 8 == 0) (.ppt (o.extractLsb' 0 12))
  | 0x089 => onlyIf (o == 0) .align
  | 0x08A => onlyIf (o == 0) .halt
  | 0x090 => onlyIf (d.toNat ≤ 1) (.semsig (d == 1) a n6 fn)
  | 0x091 => onlyIf (d == 0) (.semwt a n6 fn)
  | 0x092 => .ok (.semtst d a n6 fn)
  | 0x093 => .ok (.semwtt d a b fn)
  | 0x094 => onlyIf (a == 0 && b == 0) (.semrd d fn)
  | 0x095 => onlyIf (a == 0 && b == 0) (.farv d fn)
  | 0x096 => onlyIf (b == 0) (.fwt d a fn)
  | 0x097 => .ok (.fwtt d a b fn)
  | 0x098 => .ok (.fbar d a n6 fn)
  | 0x099 => onlyIf (d == 0 && o.extractLsb' 6 8 == 0) (.wacq a (o.extractLsb' 0 6))
  | 0x09A => onlyIf (a == 0 && o.extractLsb' 7 7 == 0) (.wrd (o.getLsbD 6) d (o.extractLsb' 0 6))
  | 0x0A0 => onlyIf (b == 0) (.mcfg d a fn)
  | 0x0A1 => onlyIf (b == 0) (.vcfg d a fn)
  | 0x0A2 => onlyIf (b == 0) (.dcfg d a fn)
  | 0x0A3 => onlyIf (b == 0) (.tirw d a fn)
  | 0x0A4 => onlyIf (b == 0) (.tirr d a fn)
  | 0x0A5 => onlyIf (b == 0 && fn == 0) (.fmtw d a)
  | 0x0A6 => onlyIf (b == 0) (.ringw d a fn)
  | 0x0A7 => onlyIf (b == 0) (.ringr d a fn)
  | 0x0B0 => onlyIf (d == 0) (.trap (opImm20 o))
  | 0x0B1 => onlyIf (o == 0) .eret
  | 0x0B2 => onlyIf (a == 0 && o.extractLsb' 8 6 == 0) (.krd d fn)
  | 0x0B3 => onlyIf (d == 0 && o.extractLsb' 8 6 == 0) (decodeKwr fn a)
  | 0x0B4 => onlyIf (a == 0 && o.extractLsb' 4 10 == 0) (.mbrd d (o.extractLsb' 0 4))
  | 0x0B5 => onlyIf (d == 0 && o.extractLsb' 4 10 == 0) (.mbwr (o.extractLsb' 0 4) a)
  | 0x0B6 => onlyIf (d == 0 && fn == 0) (.msload a b)
  | 0x0B7 => onlyIf (b == 0 && fn == 0) (.msbind d a)
  | 0x0B8 => onlyIf (b == 0 && fn.extractLsb' 1 7 == 0) (.msrd (fn.getLsbD 0) d a)
  | 0x0B9 => .ok (.caprd d a imm)
  | 0x0BA => .ok (.srng (fn.getLsbD 0) (fn.extractLsb' 1 7) d a b)
  | n => if 0x1C0 ≤ n then onlyIf (fn == 0) (.uopn (BitVec.ofNat 6 (n - 0x1C0)) d a b) else .error .reserved

/-- Slot S (Tables 5-5 and 5-6). -/
def decodeS (op : Nat) (o : BitVec 26) : Except DecodeErr Instr :=
  if op < 0x060 then decodeAlu op o else decodeSys op o

/-- Slot M (Table 5-7). -/
def decodeM (op : Nat) (o : BitVec 26) : Except DecodeErr Instr :=
  let e := opEn o
  match op with
  | 0 => onlyIf (o == 0) .mnop
  | 1 => .ok (.mgo e)
  | 2 => .ok (.mma e)
  | 3 => .ok (.mzero e)
  | 4 => .ok (.mwb e)
  | 5 => .ok (.mscl e)
  | 6 => .ok (.mpop e)
  | 7 => .ok (.mvwin e)
  | _ => .error .reserved

/-- A VR instruction with a type and a modifier (R120). -/
def decodeVr (o : BitVec 26) (f : Vr → Instr) : Except DecodeErr Instr :=
  withCode (VTy.ofCode (BitVec.toNat (o.extractLsb' 0 4))) fun ty =>
    .ok (f { vd := opD o, va := opA o, vb := opB o, ty := ty, md := o.extractLsb' 4 4 })

/-- Slot V (Table 5-8). -/
def decodeV (op : Nat) (o : BitVec 26) : Except DecodeErr Instr :=
  let d := opD o; let a := opA o; let b := opB o; let fn := opFn o
  let ty := VTy.ofCode (BitVec.toNat (fn.extractLsb' 0 4)); let md : BitVec 4 := fn.extractLsb' 4 4
  match op with
  | 0x00 => onlyIf (o == 0) .vnop
  | 0x01 => onlyIf (fn == 0) (.vld d a b)
  | 0x02 => onlyIf (fn == 0) (.vst d a b)
  | 0x03 => decodeVr o .vadd
  | 0x04 => decodeVr o .vsub
  | 0x05 => decodeVr o .vmul
  | 0x06 => decodeVr o .vfma
  | 0x07 => decodeVr o .vmin
  | 0x08 => decodeVr o .vmax
  | 0x09 => decodeVr o .vabs
  | 0x0A => decodeVr o .vneg
  | 0x0B => onlyIf (fn == 0) (.vand d a b)
  | 0x0C => onlyIf (fn == 0) (.vor d a b)
  | 0x0D => onlyIf (fn == 0) (.vxor d a b)
  | 0x0E => decodeVr o .vshl
  | 0x0F => decodeVr o .vshr
  | 0x10 => decodeVr o .vsar
  | 0x11 => withCode ty fun td => withCode (VTy.ofCode (BitVec.toNat (b.extractLsb' 0 4))) fun ts =>
      .ok (.vcvt td ts (fn.extractLsb' 4 3) (fn.extractLsb' 7 1 ++ b.extractLsb' 4 2) d a)
  | 0x12 => decodeVr o .vcmp
  | 0x13 => decodeVr o .vsel
  | 0x14 => decodeVr o .vrsqa
  | 0x15 => decodeVr o .vrcpa
  | 0x16 => onlyIf (fn == 6 && b == 0) (.vexp2a d a)
  | 0x17 => onlyIf (fn == 6 && b == 0) (.vlog2a d a)
  | 0x18 => decodeVr o .vtint
  | 0x19 => onlyIf (fn == 0) (.vrng d a b)
  | 0x1A => decodeVr o .vredadd
  | 0x1B => decodeVr o .vredmax
  | 0x1C => withCode ty fun t => onlyIf (md == 0 && b == 0) (.vbcast t d a)
  | 0x1D => decodeVr o .vperm
  | 0x1E => withCode ty fun t => .ok (.vmovs t d a b md)
  | 0x1F => .ok (.vchain (opEn o))
  | _ => .error .reserved

/-- Slot D (Table 5-10). -/
def decodeD (op : Nat) (o : BitVec 26) : Except DecodeErr Instr :=
  let e := opEn o
  match op with
  | 0x0 => onlyIf (o == 0) .dnop
  | 0x1 => .ok (.dcopy e)
  | 0x2 => .ok (.dgather e)
  | 0x3 => .ok (.dscatter e)
  | 0x4 => .ok (.dfill e)
  | 0x5 => .ok (.dput e)
  | 0x6 => .ok (.dget e)
  | 0x7 => .ok (.dputadd e)
  | 0x8 => .ok (.damo e)
  | 0x9 => .ok (.dtab e)
  | 0xA => .ok (.dfence e)
  | _ => .error .reserved

/-- The operation and operands of a syllable in a slot, limits not yet checked. -/
def decodeRaw (sl : Slot) (op : Nat) (o : BitVec 26) : Except DecodeErr Instr :=
  match sl with
  | .s => decodeS op o
  | .m => decodeM op o
  | .v => decodeV op o
  | .d => decodeD op o

/-- The guard field of a syllable (Table 5-2). -/
def guardOf (w : Syl) : Guard := { reg := w.extractLsb' 33 6, bit := w.extractLsb' 27 6, neg := w.getLsbD 26 }

/-- One syllable, with the checks of R113 that depend on its bits alone. The checks that depend on the context (a
bound entry for UOPn, a shadow for MWB) are made when the bundle issues. -/
def decodeSyllable (sl : Slot) (w : Syl) : Except DecodeErr Syllable :=
  match decodeRaw sl (BitVec.toNat (w.extractLsb' 39 9)) (w.extractLsb' 0 26) with
  | .error e => .error e
  | .ok i =>
    if !(guardOf w).wf then .error .guard
    else if !i.wf then .error .operand
    else .ok { guard := guardOf w, instr := i }

/-- The syllable word of a slot within a bundle (Table 5-1). -/
def bundleSyl (b : BundleBits) : Slot → Syl
  | .s => b.extractLsb' 0 48
  | .m => b.extractLsb' 48 48
  | .v => b.extractLsb' 96 48
  | .d => b.extractLsb' 144 48

/-- All four syllables in slot order; the first illegal one is the one reported (R113). -/
def decodeBundle (b : BundleBits) : Except (Slot × DecodeErr) Bundle :=
  match decodeSyllable .s (bundleSyl b .s) with
  | .error e => .error (.s, e)
  | .ok s =>
    match decodeSyllable .m (bundleSyl b .m) with
    | .error e => .error (.m, e)
    | .ok m =>
      match decodeSyllable .v (bundleSyl b .v) with
      | .error e => .error (.v, e)
      | .ok v =>
        match decodeSyllable .d (bundleSyl b .d) with
        | .error e => .error (.d, e)
        | .ok d => .ok { s := s, m := m, v := v, d := d }

/-- A no-operation of any slot (R112). -/
def Instr.isNop : Instr → Bool
  | .nop | .mnop | .vnop | .dnop => true
  | _ => false

/-- The instruction a bundle stands for: the first one in slot order that is no NOP, or NOP. -/
def Bundle.leading (b : Bundle) : Instr :=
  if !b.s.instr.isNop then b.s.instr
  else if !b.m.instr.isNop then b.m.instr
  else if !b.v.instr.isNop then b.v.instr
  else if !b.d.instr.isNop then b.d.instr
  else b.s.instr

/-- The instruction read from a table word: w holds a bundle's bits from its first byte on, absent bits zero. -/
def decodeTableWord (nbits w : Nat) : Option Instr :=
  match decodeBundle (BitVec.ofNat 192 (w % 2 ^ nbits)) with
  | .ok b => some b.leading
  | .error _ => none

-- Encoding.

/-- A KWR word (R202). -/
def packKwr (k : BitVec 8) (a : Reg) : BitVec 26 := packI 0 a (k.setWidth 14)

/-- A VR word with type and modifier (R120). -/
def packVr (o : Vr) : BitVec 26 := packR o.vd o.va o.vb (o.md ++ BitVec.ofNat 4 o.ty.code)

/-- fn of an atomic: mode or zero in 7:6, ordering in 5:4, type and operation below (Table 15-7). -/
def amoFn (hi : Nat) (o : AmoOrd) (low : BitVec 4) : BitVec 8 :=
  BitVec.ofNat 2 hi ++ BitVec.ofNat 2 o.code ++ low

/-- Two nibbles as an fn field. -/
def fn2 (hi lo : Nat) : BitVec 8 := BitVec.ofNat 4 hi ++ BitVec.ofNat 4 lo

/-- Opcode and operands of a syllable (Tables 5-5 to 5-10). Rows that are no syllable of their own get the NOP word. -/
def Instr.word : Instr → Nat × BitVec 26
  | .add d a b => (0x001, packR d a b 0)
  | .addi d a imm => (0x002, packI d a imm)
  | .sub d a b => (0x003, packR d a b 0)
  | .mul d a b => (0x004, packR d a b 0)
  | .mulh d a b => (0x005, packR d a b 0)
  | .mulhn d a b => (0x006, packR d a b 0)
  | .div d a b => (0x007, packR d a b 0)
  | .divn d a b => (0x008, packR d a b 0)
  | .rem d a b => (0x009, packR d a b 0)
  | .remn d a b => (0x00A, packR d a b 0)
  | .and d a b => (0x00B, packR d a b 0)
  | .andi d a imm => (0x00C, packI d a imm)
  | .or d a b => (0x00D, packR d a b 0)
  | .ori d a imm => (0x00E, packI d a imm)
  | .xor d a b => (0x00F, packR d a b 0)
  | .xori d a imm => (0x010, packI d a imm)
  | .andn d a b => (0x011, packR d a b 0)
  | .shl d a b => (0x012, packR d a b 0)
  | .shli d a n => (0x013, packI d a (n.setWidth 14))
  | .shr d a b => (0x014, packR d a b 0)
  | .shri d a n => (0x015, packI d a (n.setWidth 14))
  | .sar d a b => (0x016, packR d a b 0)
  | .sari d a n => (0x017, packI d a (n.setWidth 14))
  | .rotl d a b => (0x018, packR d a b 0)
  | .clz d a => (0x019, packR d a 0 0)
  | .ctz d a => (0x01A, packR d a 0 0)
  | .popc d a => (0x01B, packR d a 0 0)
  | .min d a b => (0x01C, packR d a b 0)
  | .max d a b => (0x01D, packR d a b 0)
  | .minn d a b => (0x01E, packR d a b 0)
  | .maxn d a b => (0x01F, packR d a b 0)
  | .cmp c d a b => (0x020, packR d a b (BitVec.ofNat 8 c.code))
  | .cmpi c d a imm => (0x021 + c.code, packI d a imm)
  | .sel d a b c => (0x027, packR d a b (c.setWidth 8))
  | .movi d imm => (0x028, packL d imm)
  | .orhi d imm h => (0x029, packL d ((0 : BitVec 2) ++ h ++ imm))
  | .bfx d a pos l => (0x02A, packR d a pos (l.setWidth 8))
  | .bfxs d a pos l => (0x02B, packR d a pos (l.setWidth 8))
  | .bfi d a pos l => (0x02C, packR d a pos (l.setWidth 8))
  | .bset d a n => (0x02D, packI d a (n.setWidth 14))
  | .bclr d a n => (0x02E, packI d a (n.setWidth 14))
  | .lea d a b sh => (0x02F, packR d a b (sh.setWidth 8))
  | .fadd t md d a b => (0x040, packR d a b (fn2 md.code t.code))
  | .fsub t md d a b => (0x041, packR d a b (fn2 md.code t.code))
  | .fmul t md d a b => (0x042, packR d a b (fn2 md.code t.code))
  | .ffma t md d a b => (0x043, packR d a b (fn2 md.code t.code))
  | .fmin t d a b => (0x044, packR d a b (fn2 0 t.code))
  | .fmax t d a b => (0x045, packR d a b (fn2 0 t.code))
  | .fcmp c t d a b => (0x046, packR d a b (fn2 c.code t.code))
  | .fcvt td ts md d a => (0x047, packR d a (BitVec.ofNat 6 ts.code) (fn2 md.code td.code))
  | .frsqa t d a => (0x048, packR d a 0 (fn2 0 t.code))
  | .frcpa t d a => (0x049, packR d a 0 (fn2 0 t.code))
  | .fclass t d a => (0x04A, packR d a 0 (fn2 0 t.code))
  | .fsgn op t d a b => (0x04B, packR d a b (fn2 op.code t.code))
  | .ld w d a off => (0x060 + w.code, packI d a off)
  | .ldz w d a off => (0x064 + w.code, packI d a off)
  | .st w d a off => (0x068 + w.code, packI d a off)
  | .ldp d a off => (0x06C, packI d a off)
  | .stp d a off => (0x06D, packI d a off)
  | .str d a dx dy => (0x06E, packR d a dx (dy.setWidth 8))
  | .spill d a off => (0x06F, packI d a off)
  | .fill d => (0x070, packI d 0 0)
  | .amo op t o d a b => (0x071, packR d a b (amoFn 0 o (BitVec.ofBool t.bit ++ BitVec.ofNat 3 op.code)))
  | .amocas t o d a b => (0x072, packR d a b (amoFn 0 o (BitVec.ofBool t.bit ++ (0 : BitVec 3))))
  | .famoadd t md o d a b => (0x073, packR d a b (amoFn md.code o (BitVec.ofNat 4 t.code)))
  | .br off => (0x080, off)
  | .call off => (0x081, off)
  | .ret a => (0x082, packR 0 a 0 0)
  | .jr d a => (0x083, packR d a 0 0)
  | .loop c len l => (0x084, packLP c len (l ++ (0 : BitVec 6)))
  | .loopi n len l => (0x085, packLP n len (l ++ (0 : BitVec 6)))
  | .lbrk len l => (0x086, packLP 0 len (l ++ (0 : BitVec 6)))
  | .idle d n => (0x087, packL d n)
  | .ppt n => (0x088, packL 0 (n.setWidth 20))
  | .align => (0x089, 0)
  | .halt => (0x08A, 0)
  | .semsig set a n q => (0x090, packR (BitVec.ofNat 6 set.toNat) a n q)
  | .semwt a n q => (0x091, packR 0 a n q)
  | .semtst d a n q => (0x092, packR d a n q)
  | .semwtt d a b q => (0x093, packR d a b q)
  | .semrd d q => (0x094, packR d 0 0 q)
  | .farv d f => (0x095, packR d 0 0 f)
  | .fwt d a f => (0x096, packR d a 0 f)
  | .fwtt d a b f => (0x097, packR d a b f)
  | .fbar d a n f => (0x098, packR d a n f)
  | .wacq a w => (0x099, packI 0 a (w.setWidth 14))
  | .wrd r d w => (0x09A, packI d 0 ((0 : BitVec 7) ++ BitVec.ofBool r ++ w))
  | .mcfg r a w => (0x0A0, packR r a 0 w)
  | .vcfg r a w => (0x0A1, packR r a 0 w)
  | .dcfg r a w => (0x0A2, packR r a 0 w)
  | .tirw r a w => (0x0A3, packR r a 0 w)
  | .tirr d r w => (0x0A4, packR d r 0 w)
  | .fmtw r a => (0x0A5, packR r a 0 0)
  | .ringw r a w => (0x0A6, packR r a 0 w)
  | .ringr d r w => (0x0A7, packR d r 0 w)
  | .trap n => (0x0B0, packL 0 n)
  | .eret => (0x0B1, 0)
  | .krd d k => (0x0B2, packR d 0 0 k)
  | .kwr k a => (0x0B3, packKwr k a)
  | .kwrTimer a => (0x0B3, packKwr 0x0C a)
  | .kwrPoolscope a => (0x0B3, packKwr 0x3C a)
  | .kwrLosssel a => (0x0B3, packKwr 0x77 a)
  | .kwrLossval a => (0x0B3, packKwr 0x78 a)
  | .kwrTrcemit a => (0x0B3, packKwr 0x79 a)
  | .kwrWdesc w a => (0x0B3, packKwr ((2 : BitVec 2) ++ w) a)
  | .kwrWmap w a => (0x0B3, packKwr ((3 : BitVec 2) ++ w) a)
  | .mbrd d n => (0x0B4, packI d 0 (n.setWidth 14))
  | .mbwr n a => (0x0B5, packI 0 a (n.setWidth 14))
  | .msload a b => (0x0B6, packR 0 a b 0)
  | .msbind n a => (0x0B7, packR n a 0 0)
  | .msrd e d a => (0x0B8, packR d a 0 ((0 : BitVec 7) ++ BitVec.ofBool e))
  | .caprd d a k => (0x0B9, packI d a k)
  | .srng hi sm d a b => (0x0BA, packR d a b (sm ++ BitVec.ofBool hi))
  | .uopn n d a b => (0x1C0 + n.toNat, packR d a b 0)
  | .mgo e => (1, packEn e)
  | .mma e => (2, packEn e)
  | .mzero e => (3, packEn e)
  | .mwb e => (4, packEn e)
  | .mscl e => (5, packEn e)
  | .mpop e => (6, packEn e)
  | .mvwin e => (7, packEn e)
  | .vld vd a k => (0x01, packR vd a k 0)
  | .vst vd a k => (0x02, packR vd a k 0)
  | .vadd o => (0x03, packVr o)
  | .vsub o => (0x04, packVr o)
  | .vmul o => (0x05, packVr o)
  | .vfma o => (0x06, packVr o)
  | .vmin o => (0x07, packVr o)
  | .vmax o => (0x08, packVr o)
  | .vabs o => (0x09, packVr o)
  | .vneg o => (0x0A, packVr o)
  | .vand d a b => (0x0B, packR d a b 0)
  | .vor d a b => (0x0C, packR d a b 0)
  | .vxor d a b => (0x0D, packR d a b 0)
  | .vshl o => (0x0E, packVr o)
  | .vshr o => (0x0F, packVr o)
  | .vsar o => (0x10, packVr o)
  | .vcvt td ts md p vd va =>
    (0x11, packR vd va (p.extractLsb' 0 2 ++ BitVec.ofNat 4 ts.code)
      (p.extractLsb' 2 1 ++ md ++ BitVec.ofNat 4 td.code))
  | .vcmp o => (0x12, packVr o)
  | .vsel o => (0x13, packVr o)
  | .vrsqa o => (0x14, packVr o)
  | .vrcpa o => (0x15, packVr o)
  | .vexp2a d a => (0x16, packR d a 0 6)
  | .vlog2a d a => (0x17, packR d a 0 6)
  | .vtint o => (0x18, packVr o)
  | .vrng d a b => (0x19, packR d a b 0)
  | .vredadd o => (0x1A, packVr o)
  | .vredmax o => (0x1B, packVr o)
  | .vbcast t d a => (0x1C, packR d a 0 (fn2 0 t.code))
  | .vperm o => (0x1D, packVr o)
  | .vmovs t d a b hi => (0x1E, packR d a b (hi ++ BitVec.ofNat 4 t.code))
  | .vchain e => (0x1F, packEn e)
  | .dcopy e => (0x1, packEn e)
  | .dgather e => (0x2, packEn e)
  | .dscatter e => (0x3, packEn e)
  | .dfill e => (0x4, packEn e)
  | .dput e => (0x5, packEn e)
  | .dget e => (0x6, packEn e)
  | .dputadd e => (0x7, packEn e)
  | .damo e => (0x8, packEn e)
  | .dtab e => (0x9, packEn e)
  | .dfence e => (0xA, packEn e)
  | _ => (0, 0)

/-- The 48 bits of a syllable (Table 5-2). -/
def encode (y : Syllable) : Syl :=
  BitVec.ofNat 9 y.instr.word.1 ++ y.guard.reg ++ y.guard.bit ++ BitVec.ofBool y.guard.neg ++ y.instr.word.2

/-- The 192 bits of a bundle (Table 5-1). -/
def encodeBundle (b : Bundle) : BundleBits := encode b.d ++ encode b.v ++ encode b.m ++ encode b.s

end Sys2Proof
end

