-- ==== Sys2Proof/Machine/Place.lean ====
section
/-!
DEFINITION. Machine/Place.lean: where a paddock stands: dies and lattices, the placement transform, the remap table, the
conditions on a placement, channels, and the routes of the alignment wave (R74 to R83, R89, R94, R464).
-/
namespace Sys2Proof.Machine

-- Dies (R14, R75, R94)

/-- The index of the die at a site among the dies of its kind: 10 y + x div 2 (R94). -/
def dieAt (x y : Nat) : Nat := 10 * y + x / 2

/-- Site of a C-die (R14). -/
def dieX (d : Nat) : Nat := 2 * (d % 10) + d / 10 % 2
def dieY (d : Nat) : Nat := d / 10

/-- The key under which the Shepherd keeps a site's die: C-dies 0 to 199, M-dies from 200 up. -/
def siteKey (x y : Nat) : Nat := if (x + y) % 2 = 0 then dieAt x y else 200 + dieAt x y

/-- C-die of a lattice tile (R75). -/
def latticeDie (l x y : Nat) : Nat := dieAt (2 * (x / 8) + l) (2 * (y / 8) + l)

/-- The M-dies that neighbour a C-die, as indices among M-dies (R14). -/
def dieNeighbours (d : Nat) : List Nat :=
  let x := dieX d
  let y := dieY d
  (if 0 < x then [dieAt (x - 1) y] else []) ++ (if x < 19 then [dieAt (x + 1) y] else []) ++
    (if 0 < y then [dieAt x (y - 1)] else []) ++ (if y < 19 then [dieAt x (y + 1)] else [])

-- Placement words (R76, R77)

def placePX (p : W64) : Nat := bits p 7 0
def placePY (p : W64) : Nat := bits p 15 8
def placeL (p : W64) : Nat := bits p 16 16
def placeRot (p : W64) : Nat := bits p 18 17
def placeMir (p : W64) : Bool := bit p 19

/-- Reserved fields are zero and VALID is set (R76). -/
def placeFormOk (p : W64) : Bool := bit p 63 && bits p 62 20 == 0

/-- Lattice coordinates of an abstract tile (Table 4-2). -/
def Shape.lattice (sh : Shape) (p : W64) (i : Nat) : Nat × Nat :=
  let x := if placeMir p then sh.w - 1 - sh.x i else sh.x i
  let y := sh.y i
  match placeRot p with
  | 0 => (placePX p + x, placePY p + y)
  | 1 => (placePX p + (sh.h - 1 - y), placePY p + x)
  | 2 => (placePX p + (sh.w - 1 - x), placePY p + (sh.h - 1 - y))
  | _ => (placePX p + y, placePY p + (sh.w - 1 - x))

/-- Footprint of a placement, X by Y (Table 4-2). -/
def Shape.footprint (sh : Shape) (p : W64) : Nat × Nat :=
  if placeRot p % 2 = 0 then (sh.w, sh.h) else (sh.h, sh.w)

/-- Tile indices of a paddock. -/
def Shape.all (sh : Shape) : List Nat := List.range sh.tiles

/-- The C-die an abstract tile stands on. -/
def Shape.die (sh : Shape) (p : W64) (i : Nat) : Nat :=
  let c := sh.lattice p i
  latticeDie (placeL p) c.1 c.2

/-- A site of an exposed tile as one number: die, row and exposed column (R75). -/
def Shape.site (sh : Shape) (p : W64) (i : Nat) : Nat :=
  let c := sh.lattice p i
  latticeDie (placeL p) c.1 c.2 * 64 + c.2 % 8 * 8 + c.1 % 8

/-- The dies of a placement, each once. -/
def Shape.dies (sh : Shape) (p : W64) : List Nat := sh.all.foldl (fun l i => nsAdd l (sh.die p i)) []

-- Seams (R81)

/-- Fused latency of the east (0) or north (1) seam of the die at a site, within the range of SEAM_TABLE; 21 and 23 for the two
seams whose latency R88 and R414 give. -/
def fusedLat (x y dir : Nat) : Nat :=
  if x = 4 ∧ y = 6 ∧ dir = 0 then 21
  else if x = 10 ∧ y = 8 ∧ dir = 1 then 23
  else 18 + Config.fused x y dir % 23

/-- Fused latency between two C-dies two sites apart on one axis; none when they are joined by no seam (R74). -/
def fusedBetween (d e : Nat) : Option Nat :=
  let x0 := Nat.min (dieX d) (dieX e)
  let y0 := Nat.min (dieY d) (dieY e)
  if dieY d = dieY e ∧ natDist (dieX d) (dieX e) = 2 then some (fusedLat x0 (dieY d) 0)
  else if dieX d = dieX e ∧ natDist (dieY d) (dieY e) = 2 then some (fusedLat (dieX d) y0 1)
  else none

/-- Cost of a walk of n die steps along x from site x0 on row y (R89). -/
def walkX (x0 y : Nat) : Nat → Nat
  | 0 => 0
  | n + 1 => fusedLat x0 y 0 + 4 + walkX (x0 + 2) y n

/-- Cost of a walk of n die steps along y from site y0 on column x (R89). -/
def walkY (x y0 : Nat) : Nat → Nat
  | 0 => 0
  | n + 1 => fusedLat x y0 1 + 4 + walkY x (y0 + 2) n

/-- Pace latency of die d from the pace die: along x, then along y (R89). -/
def paceLat (pace d : Nat) : Nat :=
  walkX (Nat.min (dieX pace) (dieX d)) (dieY pace) (natDist (dieX pace) (dieX d) / 2) +
    walkY (dieX d) (Nat.min (dieY pace) (dieY d)) (natDist (dieY pace) (dieY d) / 2)

/-- B_max of a placement (R89). -/
def Shape.bMax (sh : Shape) (p : W64) : Nat :=
  let pace := sh.die p 0
  (sh.dies p).foldl (fun n d => Nat.max n (paceLat pace d)) 0

-- Repair (R464)

/-- The remap byte of a row of a die: as retirements left it, else as the factory did. -/
def Panel.remapByte (q : Panel) (die row : Nat) : Nat :=
  FMap.getD q.remap (die * 8 + row) (Config.factoryShift die row % 9)

def Panel.shift (q : Panel) (die row : Nat) : Nat := q.remapByte die row % 16

/-- Physical column of an exposed column (R464). -/
def Panel.physCol (q : Panel) (die row e : Nat) : Nat := if e < q.shift die row then e else e + 1

/-- An exposed tile is available (Table 19-3): not the DEAD tile of its row, nor one that failed before it (R468). -/
def Panel.available (q : Panel) (die row e : Nat) : Bool :=
  !(decide (128 ≤ q.remapByte die row) && decide (q.remapByte die row / 16 % 8 = e)) &&
    !q.dead.contains (die * 64 + row * 8 + e)

/-- The physical tile under an exposed site. -/
def Panel.phys (q : Panel) (site : Nat) : Nat :=
  let die := site / 64
  let row := site / 8 % 8
  die * 72 + row * 9 + q.physCol die row (site % 8)

-- Availability (R80)

/-- A die as the Shepherd knows it: in service until it reports or fails. -/
def Panel.die (q : Panel) (k : Nat) : Die := FMap.getD q.dies k { temp := 0, hot := false, stopped := false, failed := false }

/-- A die is open to a function under the live tables, and under the staged ones too while a request is pending
(R94, R95), for MOVE as for START and RESUME (log entry 73). -/
def Panel.open (q : Panel) (die fn : Nat) : Bool :=
  FMap.getD q.dieLive die 0 == FMap.getD q.fnLive fn 0 &&
    (q.pstat != 1 || FMap.getD q.diePast die 0 == FMap.getD q.fnPast fn 0)

/-- A paddock stands on tiles: it is RUNNING (R70). -/
def Paddock.placed (p : Paddock) : Bool := p.state == .running

/-- Sites taken by paddocks other than the one of key k. -/
def State.taken (s : State) (k : Nat) : List Nat :=
  (s.pads.filter fun e => e.1 != k && e.2.placed).flatMap fun e => e.2.shape.all.map (e.2.shape.site e.2.place)

/-- A die is out of service (R29, R471). -/
def Die.out (d : Die) : Bool := d.stopped || d.failed

/-- The dies out of service, by the keys of their sites. -/
def Panel.outDies (q : Panel) : List Nat := (q.dies.filter fun e => e.2.out).map (·.1)

/-- A site may hold a tile of function fn: exposed and available, on a die in service and open to it. -/
def Panel.siteOk (q : Panel) (fn site : Nat) : Bool :=
  let die := site / 64
  q.available die (site / 8 % 8) (site % 8) && !(q.die die).out && q.open die fn

/-- Channels on the M-dies that neighbour a placement's dies, in ascending order; channel c of M-die m is 32 m + c. -/
def Shape.nearChannels (sh : Shape) (p : W64) (q : Panel) : List Nat :=
  let ms := (sh.dies p).foldl (fun l d => (dieNeighbours d).foldl nsAdd l) []
  (ms.filter fun m => !(q.die (200 + m)).out).flatMap fun m => (List.range 32).map fun c => 32 * m + c

/-- Channels of a placement by position: a channel the paddock holds near the placement is kept at its position, the
others are filled from unowned channels near it; none when there are not enough (R80 item 7). -/
def fillChannels : List (Option Nat) → List Nat → Option (List (Option Nat))
  | [], _ => some []
  | some c :: ps, free => (fillChannels ps free).map (some c :: ·)
  | none :: _, [] => none
  | none :: ps, f :: fs => (fillChannels ps fs).map (some f :: ·)

def State.channelsFor (s : State) (p : Paddock) (word : W64) : Option (List (Option Nat)) :=
  let near := p.shape.nearChannels word s.panel
  let own := if p.chans.isEmpty then List.replicate p.shape.chan none else p.chans
  let kept := own.map fun c => match c with
    | some c => if near.contains c then some c else none
    | none => none
  let free := near.filter fun c => (FMap.get? s.panel.owners c).isNone
  fillChannels kept free

/-- Two neighbouring abstract tiles: on one die, or across a declared seam of the same line whose LAT covers the fused
latency (R80 items 4 and 5). -/
def Shape.linkOk (sh : Shape) (p : W64) (i j : Nat) : Bool :=
  sh.die p i == sh.die p j ||
    (match fusedBetween (sh.die p i) (sh.die p j) with
     | some f => sh.seams.any fun m => m.between (sh.x i) (sh.y i) (sh.x j) (sh.y j) && decide (f ≤ m.lat)
     | none => false)

/-- A placement word is legal for the paddock of key k (R80). -/
def State.placeOk (s : State) (k : Nat) (p : Paddock) (word : W64) : Bool :=
  let sh := p.shape
  let fp := sh.footprint word
  placeFormOk word && decide (placePX word + fp.1 ≤ 80) && decide (placePY word + fp.2 ≤ 80) &&
    (let used := s.taken k
     sh.all.all fun i => s.panel.siteOk p.fn (sh.site word i) && !used.contains (sh.site word i)) &&
    (sh.all.all fun i =>
      (decide (sh.x i + 1 = sh.w) || sh.linkOk word i (i + 1)) &&
      (decide (sh.y i + 1 = sh.h) || sh.linkOk word i (i + sh.w))) &&
    (sh.alignIv != 0 || decide ((sh.dies word).length = 1)) &&
    (s.channelsFor p word).isSome

/-- Every placement word with no reserved field, by number. -/
def placeWordOf (n : Nat) : W64 :=
  fld 1 63 ||| BitVec.ofNat 64 (n / 6400 % 16 * 65536 + n / 80 % 80 * 256 + n % 80)

/-- The placement the Shepherd takes: any legal one (R82). What it picks is a free value; where that word is not legal, the
first legal one. -/
def State.choosePlace (s : State) (k : Nat) (p : Paddock) : Option W64 :=
  if 80 < Nat.max p.shape.w p.shape.h then none
  else
    let w := placeWordOf (Config.placement s.free % 102400)
    if s.placeOk k p w then some w
    else ((List.range 102400).find? fun n => s.placeOk k p (placeWordOf n)).map placeWordOf

-- Clocks of the dies (R18, R85, R86, R88)

/-- A rate, in 1/2^20 cycle for each 1,024 cycles, kept within 5 ppm (R18). -/
def within5ppm (r : Int) : Int := max (-5368) (min r 5368)

/-- Rate of a die over 1.6 GHz in piece k of 1,024 dticks, in 1/2^20 cycle a piece: its trim at boot and its wander (R18). -/
def dieRate (d k : Nat) : Int :=
  within5ppm (Config.trim (dieX d) (dieY d)) + within5ppm (Config.drift (dieX d) (dieY d) k)

/-- What a die gained in its first k pieces. -/
def dieGain (d : Nat) : Nat → Int
  | 0 => 0
  | k + 1 => dieGain d k + dieRate d k

/-- Lead of a die over 1.6 GHz after n dticks, in 1/2^20 cycle. -/
def dieWander (d n : Nat) : Int := dieGain d (n / 1024) + dieRate d (n / 1024) * (n % 1024 : Nat) / 1024

/-- Lead of a die over the Shepherd die after n dticks, in 1/256 cycle. -/
def dieLead (d n : Nat) : Int := (dieWander d n - dieWander 105 n) / 4096

/-- Cycles that a die's clock has made after n dticks: the one count of the die, with what a defective clock has slipped in all (R85,
R88). -/
def dieDtick (z : FMap Int) (d n : Nat) : Nat :=
  ((if d = 105 then (n : Int) else n + (dieWander d n - dieWander 105 n) / 2 ^ 20) + FMap.getD z d 0).toNat

-- dtick (R85)

/-- The die that holds abstract tile (0,0) and paces the paddock's region cycles (R89). -/
def Paddock.pace (p : Paddock) : Nat := p.shape.die p.place 0

/-- The paddock's clock-enable is on: it runs, nothing freezes it, and its last cycle is not past. -/
def Paddock.clockOn (p : Paddock) : Bool :=
  p.state == .running && p.freeze.isNone &&
    (match p.stopAt with
     | some n => decide (p.rtick ≤ n)
     | none => true)

/-- The count of a die on which it comes to the paddock's next region cycle: the clock-enable on, tick and dtick advance together
from the last release (R85). -/
def Paddock.ownDtick (p : Paddock) (z : FMap Int) (d now : Nat) : Nat :=
  match FMap.get? p.bases d with
  | some b => b + (p.rtick - p.capTick)
  | none => dieDtick z d now

/-- Cycles of a die's clock since the paddock's last region cycle ended. -/
def Paddock.since (p : Paddock) (z : FMap Int) (d now : Nat) : Nat := dieDtick z d now - dieDtick z d (p.ranAt + 1)

/-- What dtick reads on a die of the paddock: the die's count as the die comes to this region cycle, which for a paddock of one die
is the count now; while the clock-enable is off it rises with every cycle of the die's clock. Nothing reads below what a paddock has
read on the die before (R85, log entry 5). -/
def Paddock.dtickOn (p : Paddock) (q : Panel) (floor : FMap Nat) (d now : Nat) : Nat :=
  let z := q.slipped
  let own := p.ownDtick z d now
  if (FMap.get? p.bases d).isNone then Nat.max own (FMap.getD floor d 0)
  else if p.clockOn then own
  else
    match p.freeze with
    | some (.align _) => own + Nat.min (FMap.getD p.rises d 0) (p.since z d now)
    | _ => Nat.max own (dieDtick z d (p.ranAt + 1)) + p.since z d now

/-- The dtick of a die as the release of an alignment finds it (R85, R90). -/
def Paddock.alignedDtick (p : Paddock) (q : Panel) (d now : Nat) : Nat := p.ownDtick q.slipped d now + FMap.getD p.rises d 0

/-- Region cycles that the paddock runs on a dtick whose first one comes at a count of its pace die: one for each cycle of that die's
clock, which against the Shepherd die's may make none or two. -/
def Paddock.cyclesOn (p : Paddock) (q : Panel) (count now : Nat) : Nat :=
  if p.bases.isEmpty then 1 else Nat.min 2 (dieDtick q.slipped p.pace now + 1 - count)

/-- A release: the seams' phases and the dies' counts are captured, one die's value as given. -/
def Paddock.recapture (p : Paddock) (now : Nat) (value : Nat → Nat) : Paddock :=
  { p with capture := now, capTick := p.rtick, slips := [], bases := (p.shape.dies p.place).map fun d => (d, value d) }

end Sys2Proof.Machine
end

