-- ==== Sys2Proof/Machine/Scope.lean ====
section
/-!
DEFINITION. Machine/Scope.lean: synchronisation objects and their bindings: which words are KIND 4 words, and which tiles
may release or acquire an object (R48, R390, R395, R396, R409).
-/
namespace Sys2Proof.Machine

-- Fields of word 2 of a binding (R48)
def Binding.kind (b : Binding) : Nat := bits b.obj 7 0
def Binding.num (b : Binding) : Nat := bits b.obj 15 8
def Binding.x (b : Binding) : Nat := bits b.obj 23 16
def Binding.y (b : Binding) : Nat := bits b.obj 31 24

/-- A synchronisation object: a tile's semaphore, a fold, or a window at its home tile (R391). -/
inductive Obj where
  | sem (tile q : Nat) | fold (f home : Nat) | window (w home : Nat)
  deriving DecidableEq, Repr

/-- The tile that holds an object (R395). -/
def Obj.holder : Obj → Nat
  | .sem t _ => t
  | .fold _ h => h
  | .window _ h => h

/-- A binding names an object (R48). -/
def Binding.names (b : Binding) (sh : Shape) : Obj → Bool
  | .sem t q => b.kind == 1 && b.num == q && b.x == sh.x t && b.y == sh.y t
  | .fold f _ => b.kind == 2 && b.num == f
  | .window w _ => b.kind == 3 && b.num == w

/-- The object's first bound range in table order (R395). -/
def Shape.bindingOf (sh : Shape) (o : Obj) : Option Binding := sh.binds.find? fun b => b.names sh o

/-- The home of a fold: its member of lowest index (R376). -/
def Paddock.foldHome (p : Paddock) (f : Nat) : Nat :=
  match FMap.get? p.folds f with
  | some fo => fo.members.foldl Nat.min (fo.members.headD 0)
  | none => 0

/-- The folds a tile is a member of, in ascending identifier (R375). -/
def Paddock.slots (p : Paddock) (i : Nat) : List (Nat × Fold) := p.folds.filter fun e => e.2.members.contains i

/-- The member has arrived and the advance is not yet visible (R375). -/
def Fold.arr (f : Fold) (i : Nat) : Bool := (FMap.get? f.arrived i).isSome

/-- A tile may act on the page that holds an address of the map of a holder tile (R251, R395). -/
def Paddock.pageReach (p : Paddock) (holder addr me : Nat) : Bool :=
  match p.shape.target holder addr with
  | .own off => p.shape.reaches (Tile.granuleScope (FMap.getD p.tiles holder Tile.init) p.shape off) me holder
  | .tile j off => p.shape.reaches (Tile.granuleScope (FMap.getD p.tiles j Tile.init) p.shape off) me j
  | _ => true

/-- The first address of the range of an object that a tile may not release or acquire (R396); none where it may. -/
def Paddock.outOfScope (p : Paddock) (o : Obj) (me : Nat) : Option W64 :=
  match p.shape.bindingOf o with
  | none => none
  | some b => if p.pageReach o.holder b.start me then none else some (w64 b.start)

/-- The same for an object of the current paddock and the current tile. -/
def State.outOfScope (s : State) (o : Obj) : Option W64 := s.pad.outOfScope o s.cur.tile

/-- An issue check of SCOPE on a release or acquire. -/
def State.scopeCheck (s : State) (o : Obj) : Verdict :=
  match s.outOfScope o with
  | some a => .fault (sFault .scope a)
  | none => .ok

/-- The word and tile an address names, for a pool word. -/
def Shape.poolWord (sh : Shape) (me addr : Nat) : Option (Nat × Nat) :=
  match sh.target me addr with
  | .own off => some (me, off / 8)
  | .tile j off => some (j, off / 8)
  | _ => none

/-- The pool word at an address of a tile's map is the word of a KIND 4 binding, read in the same map (R48, R409). -/
def Shape.isSyncWord (sh : Shape) (me addr : Nat) : Bool :=
  match sh.poolWord me addr with
  | some w => sh.binds.any fun b => b.kind == 4 && sh.poolWord me b.addr.toNat == some w
  | none => false

/-- The cause of meeting a poisoned word at an address (R187, R408, R409). -/
def Shape.poisonCause (sh : Shape) (me addr : Nat) : Cause :=
  if sh.isSyncWord me addr then .syncPoison else .dataPoison

/-- The cause of a read by the current tile that met a poisoned word of its own pool, at this byte offset. -/
def State.poolCause (s : State) (off : Nat) : Cause := s.pad.shape.poisonCause s.cur.tile off

end Sys2Proof.Machine
end

