-- ==== Sys2Proof/Machine/Records.lean ====
section
/-!
DEFINITION. Machine/Records.lean: what software may write of each record and control register, and what a control register
reads: write masks from the field maps, the layouts computed from the live state (R6, R155 to R157, R198, R199, R226, R300,
R332, R364, R387, R411, R440, R462).
-/
namespace Sys2Proof.Machine

/-- The mask of bits hi down to lo. -/
def span (hi lo : Nat) : W64 := BitVec.ofNat 64 ((2 ^ (hi + 1 - lo) - 1) * 2 ^ lo)

def allBits : W64 := span 63 0

-- Writable bits of records (R6; Tables 9-3, 11-2, 11-3, 12-3, 12-4, 12-5, 13-5, 13-6, 13-7)

/-- Loop-nest table words. -/
def mnMask (w : Nat) : W64 :=
  match w with
  | 0 => span 63 63 ||| span 58 56 ||| span 50 47 ||| span 40 32 ||| span 15 0
  | 1 => span 63 63 ||| span 58 56 ||| span 50 47 ||| span 40 32 ||| span 15 0
  | 2 => span 26 16 ||| span 5 0
  | 3 => span 63 57 ||| span 43 32 ||| span 20 0
  | 4 => allBits
  | 5 => 0
  | n =>
    match (n - 6) % 3 with
    | 0 => span 63 48 ||| span 33 0
    | 1 => allBits
    | _ => span 7 0

/-- Chain descriptor words. -/
def chMask (w : Nat) : W64 :=
  match w with
  | 0 => span 60 52 ||| span 20 16 ||| span 12 8 ||| span 4 0
  | 1 => span 33 0
  | 14 => span 39 34 ||| span 7 4 ||| span 2 0
  | 15 => allBits
  | n => if n < 6 then allBits else span 29 10 ||| span 4 0

/-- Drover descriptor words. -/
def ddMask (w : Nat) : W64 :=
  match w with
  | 0 => span 63 32 ||| span 28 24 ||| span 20 16 ||| span 12 8 ||| span 4 0
  | 1 => span 41 0
  | 2 => span 39 0
  | 3 => allBits
  | _ => 0

/-- Tensor iterator words. -/
def tiMask (w : Nat) : W64 :=
  match w with
  | 0 => span 47 0
  | 5 => span 11 8 ||| span 1 0
  | 6 => span 11 8 ||| span 3 0
  | 7 => 0
  | _ => allBits

/-- Operand ring words; word 3 is read-only. -/
def rgMask (w : Nat) : W64 :=
  match w with
  | 0 => span 39 32 ||| span 20 12
  | 1 => allBits
  | 2 => span 15 0
  | _ => 0

def ftMask : W64 := span 11 0

/-- Writable bits of a control register of plain storage (Tables 6-6, 10-5, 12-8, 17-2, 17-3, 17-6, 17-8, 18-3). -/
def ctlMask (k : Nat) : W64 :=
  match k with
  | 0x0D => span 62 0
  | 0x10 => span 63 62 ||| span 21 0
  | 0x11 => allBits
  | 0x12 => span 23 16 ||| span 12 0
  | 0x13 => allBits
  | 0x14 => allBits
  | 0x15 => allBits
  | 0x18 => span 6 0
  | 0x50 => span 0 0
  | 0x58 => allBits
  | 0x59 => allBits
  | 0x74 => allBits
  | 0x75 => span 63 60 ||| span 57 56 ||| span 31 0
  | 0x76 => allBits
  | k =>
    if 0x68 ≤ k ∧ k ≤ 0x6B then span 63 63 ||| span 28 16 ||| span 12 0
    else if 0x6C ≤ k ∧ k ≤ 0x73 then allBits
    else 0

-- Reading (R155)

/-- Registers that KRD may not read in U. -/
def uHidden (k : Nat) : Bool :=
  k == 0x0C || k == 0x0D || decide (0x10 ≤ k ∧ k ≤ 0x15) || decide (0x30 ≤ k ∧ k ≤ 0x39) ||
    decide (0x40 ≤ k ∧ k ≤ 0x4F) || k == 0x58 || k == 0x66 || decide (0x68 ≤ k ∧ k ≤ 0x76) || k == 0x79

/-- Control register `tile` (Table 4-3). -/
def Shape.tileReg (sh : Shape) (place : W64) (i : Nat) : W64 :=
  fld sh.h 40 ||| fld sh.w 32 ||| fld (placeMir place).toNat 18 ||| fld (placeRot place) 16 ||| fld (sh.y i) 8 |||
    fld (sh.x i) 0

/-- Active loop levels. -/
def Core.depth (c : Core) : Nat := ([0, 1, 2, 3].filter fun l => (c.level l).active).length

/-- Control register `pstat` (Table 6-7). -/
def State.pstat (s : State) : W64 :=
  let c := s.tile.core
  fld s.pad.cls 32 ||| fld c.depth 8 ||| fld c.tie.toNat 4 ||| fld s.pad.strict.toNat 2 ||| fld c.ppriv.toNat 1 |||
    fld c.priv.toNat 0

/-- A queue as the current cycle's bundle finds it: without an entry it pushes itself (R7). -/
def Queue.before (q : Queue) (now : Nat) : Queue :=
  match q.entries.find? fun e => e.pushed == now with
  | some e => { q with entries := q.entries.filter fun e => e.pushed != now, serial := e.serial }
  | none => q

/-- A queue status register (Table 6-8); between two runs of the head entry HRUN is the run that started last (log entry 69). -/
def Queue.stat (q : Queue) : W64 :=
  match q.entries with
  | [] => fld q.serial.toNat 32
  | e :: _ =>
    fld e.serial.toNat 32 ||| fld ((match q.act with
      | some _ => e.j
      | none => if e.j = 0 then 0 else e.j - 1) % 256) 8 ||| fld q.entries.length 0

/-- Control register `semstat` (Table 14-4). -/
def Sync.stat (y : Sync) : W64 := fld y.ovf.toNat 63 ||| fld y.qnum 0

/-- Control register `foldmem` (Table 14-5). -/
def foldWord (i : Nat) : List (Nat × Fold) → Nat → W64
  | [], _ => 0
  | (f, o) :: rest, k =>
    fld (32768 + (o.arr i).toNat * 16384 + f) (16 * k) ||| foldWord i rest (k + 1)

/-- Control register `foldlatk` (R376). -/
def Paddock.foldLat (p : Paddock) (i k : Nat) : W64 :=
  match (p.slots i)[k]? with
  | some e => w64 (e.2.lat % 2 ^ 32)
  | none => 0

/-- Number of an opcode of the D slot (Table 11-1). -/
def dOpcode : Instr → Nat
  | .dcopy _ => 1 | .dgather _ => 2 | .dscatter _ => 3 | .dfill _ => 4 | .dput _ => 5 | .dget _ => 6
  | .dputadd _ => 7 | .damo _ => 8 | .dtab _ => 9 | .dfence _ => 10 | _ => 0

/-- A slot status word (Table 11-8). -/
def DRun.stat (r : DRun) (slot : Nat) : W64 :=
  fld 1 63 ||| fld r.susp.toNat 62 ||| fld (r.j % 256) 40 ||| fld r.side.toNat 39 ||| fld slot 36 |||
    fld (dOpcode r.instr) 32 ||| fld r.serial.toNat 0

/-- Registers dxstN and dxixN: live while the slot holds a run; the last run's words, BUSY and SUSP clear, after it. -/
def State.dxst (s : State) (slot : Nat) : W64 :=
  match s.tile.dr.runs.find? fun r => r.slot == some slot with
  | some r => r.stat slot
  | none => s.ctl (0x40 + slot)

def State.dxix (s : State) (slot : Nat) : W64 := s.ctl (0x48 + slot)

/-- Control register `mxstat` (Table 12-11). -/
def Matrix.stat (m : Matrix) : W64 :=
  fld m.loadB.isSome.toNat 17 ||| fld m.loadA.isSome.toNat 16 ||| fld m.scaleB.length 8 ||| fld m.scaleA.length 0

/-- A selected loss counter, or its snapshot (R440). -/
def lossAssigned (i : Nat) : Bool :=
  decide (i ≤ 4) || decide (8 ≤ i ∧ i ≤ 12) || decide (16 ≤ i ∧ i ≤ 20) || i == 24 || decide (256 ≤ i ∧ i ≤ 511)

def Observe.value (o : Observe) : W64 :=
  Regs.rd (if bit o.losssel 62 then o.snaps else o.counters) (bits o.losssel 8 0)

/-- DLAT of a region (R444). -/
def Shape.dlat (sh : Shape) : Nat :=
  (sh.w - 1) + (sh.h - 1) + 2 + sh.seams.foldl (fun n m => n + m.lat + 8) 0

/-- The exposed site of the current tile. -/
def State.site (s : State) : Nat := s.pad.shape.site s.pad.place s.cur.tile

/-- Counts of a physical tile. -/
def State.errCnt (s : State) (phys : Nat) : ErrCnt :=
  FMap.getD s.panel.errs phys { unc := 0, corr := 0, stamps := [] }

/-- dticks in an hour at the nominal clock (R463). -/
def hourTicks : Nat := 3600 * 1600000000

/-- Corrected pool errors of the last hour. -/
def ErrCnt.recent (e : ErrCnt) (now : Nat) : Nat := (e.stamps.filter fun t => decide (now < t + hourTicks)).length

/-- Control register `errcnt` (Table 19-2). -/
def State.errReg (s : State) : W64 :=
  let e := s.errCnt (s.panel.phys s.site)
  fld (Nat.min 65535 e.unc) 48 ||| fld (Nat.min 65535 e.corr) 32 ||| fld (Nat.min 255 (e.recent s.dtick)) 24

/-- What KRD of a register reads (Table 6-6 and the chapters that number registers). Registers that are not plain storage
are computed from the live state; a number nobody assigns reads zero. In a service at a pause point p tick reads p + 1, the cycle the
paddock goes on with (R12, log entry 69). -/
def State.krdValue (s : State) (k : Nat) : W64 :=
  let t := s.tile
  let p := s.pad
  match k with
  | 0x00 => capsReg s.panel.retire2
  | 0x01 => p.shape.tileReg p.place s.cur.tile
  | 0x02 => p.shape.part
  | 0x03 => w64 p.shape.world
  | 0x04 => s.pstat
  | 0x05 => w64 p.stint
  | 0x06 => s.panel.panelno
  | 0x08 => w64 p.rtick
  | 0x09 => w64 (p.dtickOn s.panel s.panel.dieTop (p.shape.die p.place s.cur.tile) s.dtick)
  | 0x19 => w64 t.vec.vwin
  | 0x28 => (t.mq.before p.rtick).stat
  | 0x29 => (t.vq.before p.rtick).stat
  | 0x2A => (t.dq.before p.rtick).stat
  | 0x51 => t.mx.stat
  | 0x5A => t.vec.vxst
  | 0x60 => t.sync.stat
  | 0x61 => foldWord s.cur.tile (p.slots s.cur.tile) 0
  | 0x66 => 0
  | 0x77 => t.obs.losssel &&& (span 62 62 ||| span 8 0)
  | 0x78 => t.obs.value
  | 0x79 => 0
  | 0x7A => w64 (p.shape.dlat % 2 ^ 32)
  | 0x7B => s.errReg
  | k =>
    if 0x20 ≤ k ∧ k ≤ 0x23 then (t.core.level (k - 0x20)).cnt
    else if 0x24 ≤ k ∧ k ≤ 0x27 then (t.core.level (k - 0x24)).trip
    else if 0x40 ≤ k ∧ k ≤ 0x47 then s.dxst (k - 0x40)
    else if 0x48 ≤ k ∧ k ≤ 0x4F then s.dxix (k - 0x48)
    else if 0x62 ≤ k ∧ k ≤ 0x65 then p.foldLat s.cur.tile (k - 0x62)
    else s.ctl k

end Sys2Proof.Machine
end

