-- ==== Sys2Proof/Machine/Trace.lean ====
section
/-!
DEFINITION. Machine/Trace.lean: trace records of the Shepherd; those of tiles stand in Machine/Ops.lean (R446 to R453).
-/
namespace Sys2Proof.Machine

/-- The Shepherd as a source (SRC 0xFFFF0000). -/
def shepSrc : Nat := 0xFFFF0000

/-- A record generated by the Shepherd for a function (R450, R451). -/
def State.traceShep (s : State) (fn kind : Nat) (data : W64) : State :=
  if !(s.fn fn).traces (traceBit kind) then s
  else
    let q := s.panel
    if q.shepBuf.length < 64 then
      let r : TraceRec :=
        { kind := kind, time := w64 s.dtick, src := shepSrc, aux := 0, data := data, seq := q.shepSeq,
          drop := Nat.min 65535 q.shepLost }
      { s with panel := { q with shepSeq := q.shepSeq + 1, shepBuf := q.shepBuf ++ [(fn, r)], shepLost := 0 } }
    else
      let s := { s with panel := { q with shepSeq := q.shepSeq + 1, shepLost := q.shepLost + 1 } }
      s.modFn fn fun f => { f with dbg := { f.dbg with tdrop := f.dbg.tdrop + 1 } }

end Sys2Proof.Machine
end

