-- ==== Sys2Proof/Machine/Control.lean ====
section
/-!
DEFINITION. Machine/Control.lean: transfers, hardware loops, holds, traps by instruction, and the next bundle in fetch
order (R146 to R153, R191 to R197, R200, R425).
-/
namespace Sys2Proof.Machine

/-- ILLEGAL_SYLLABLE raised at issue by a syllable (R114); the guard bits of tinfo3 are those of an unguarded word
here, and the bundle's issue puts the word itself. -/
def illegal (sl : Slot) (i : Instr) : FaultInfo :=
  { cause := .illegalSyllable, eng := false, unit := sl, run := 0, t1 := 0, t2 := 0,
    t3 := (encode { guard := Guard.none, instr := i }).setWidth 64 }

/-- Illegal in a delay bundle of a taken transfer (R147, R195). -/
def State.noDelay (s : State) (i : Instr) : Verdict := failIf s.inDelay (illegal .s i)

/-- Illegal under pause-point service (R432). -/
def State.noSvc (s : State) (sl : Slot) (i : Instr) : Verdict := failIf s.tile.core.svc (illegal sl i)

-- Transfers (R146, R191)

/-- Take a transfer: the bundle that takes it and two delay bundles go before the target. -/
def State.transfer (s : State) (target : W64) (jump : Bool) : State :=
  s.modCore fun c => { c with xfer := some { target := target, left := 3, jump := jump } }

def execBr (off : BitVec 26) (s : State) : Out :=
  s.issue (s.noDelay (.br off)) (s.transfer (s.tile.core.pc + off26 off) true)

def execCall (off : BitVec 26) (s : State) : Out :=
  let link := linkOf s.tile.core.pc
  let target := s.tile.core.pc + off26 off
  s.issue (s.noDelay (.call off))
    (((s.later 63 link 1).transfer target false).traceTile 2 0 s.recordTime (fld (bits link 12 0) 16 ||| fld (bits target 12 0) 0))

def execRet (a : Reg) (s : State) : Out :=
  s.issue (s.noDelay (.ret a)) ((s.transfer (s.rd a) false).traceTile 3 0 s.recordTime (fld (bits (s.rd a) 12 0) 0))

def execJr (d a : Reg) (s : State) : Out :=
  s.issue (s.noDelay (.jr d a)) ((s.later d (linkOf s.tile.core.pc) 1).transfer (s.rd a) true)

-- Loops (R148, R149, R192, R193)

def allLevels : List Nat := [0, 1, 2, 3]

/-- A LOOP of level l and body length len is illegal here (R149). -/
def State.loopBad (s : State) (l len : Nat) : Bool :=
  let c := s.tile.core
  allLevels.any fun k => (c.level k).active && (decide (l ≤ k) || decide ((c.level k).last < c.pc.toNat + len))

def State.loopCheck (s : State) (i : Instr) (l len : Nat) : Verdict :=
  (s.noDelay i).or (failIf (s.loopBad l len) (illegal .s i))

/-- The effect of LOOP and LOOPI with trip count n (R148). -/
def State.startLoop (s : State) (l len : Nat) (n : W64) : State :=
  s.modCore fun c =>
    if n = 0 then { c with next := some (c.pc + w64 (len + 1)) }
    else
      { c.setLevel l { active := true, first := c.pc.toNat + 1, last := c.pc.toNat + len, cnt := 0, trip := n } with
        next := some (c.pc + 1) }

def execLoop (cnt : Reg) (len : BitVec 12) (l : BitVec 2) (s : State) : Out :=
  s.issue (s.loopCheck (.loop cnt len l) l.toNat len.toNat) (s.startLoop l.toNat len.toNat (s.rd cnt))

def execLoopi (n : BitVec 6) (len : BitVec 12) (l : BitVec 2) (s : State) : Out :=
  s.issue (s.loopCheck (.loopi n len l) l.toNat len.toNat) (s.startLoop l.toNat len.toNat (n.setWidth 64))

/-- LBRK is illegal here (R193). -/
def State.lbrkBad (s : State) (l len : Nat) : Bool :=
  let c := s.tile.core
  let v := c.level l
  let i := c.pc.toNat
  !v.active || decide (i < v.first) || decide (v.last ≤ i) || decide (len ≠ v.last - i)

def State.lbrkCheck (s : State) (i : Instr) (l len : Nat) : Verdict :=
  (s.noDelay i).or (failIf (s.lbrkBad l len) (illegal .s i))

/-- Make levels l to 3 inactive; their counts stay (R193, R152). -/
def Core.dropLevels (c : Core) (l : Nat) : Core :=
  allLevels.foldl (fun c k => if l ≤ k then c.setLevel k { c.level k with active := false } else c) c

def execLbrk (len : BitVec 12) (l : BitVec 2) (s : State) : Out :=
  s.issue (s.lbrkCheck (.lbrk len l) l.toNat len.toNat)
    (s.modCore fun c => { c.dropLevels l.toNat with next := some (w64 ((c.level l.toNat).last + 1)) })

-- Holds, pause points, alignment, halting (R194 to R197, R384)

/-- The count of an IDLE (R194). -/
def State.idleCount (s : State) (d : Reg) (n : BitVec 20) : Nat := (s.rd d + n.setWidth 64).toNat

def execIdle (d : Reg) (n : BitVec 20) (s : State) : Out :=
  s.issue ((s.noSvc .s (.idle d n)).or (s.noDelay (.idle d n)))
    (s.modCore fun c => { c with hold := .idle (s.idleCount d n) })

def execPpt (n : BitVec 12) (s : State) : Out :=
  s.issue ((s.noSvc .s (.ppt n)).or (s.noDelay (.ppt n))) (s.modCore fun c => { c with ppt := some n.toNat })

/-- A loose ALIGN stalls until every tile that has not halted presents it, which the core's mark aligning says; a strict one
has been checked for departures before the bundles of its cycle issue (R384, R386). -/
def State.alignCheck (s : State) : Verdict :=
  ((s.noSvc .s .align).or (s.noDelay .align)).or (if s.strict || s.tile.core.aligning then .ok else .stall)

def execAlign (s : State) : Out := s.issue s.alignCheck (s.modCore fun c => { c with aligning := true })

def execHalt (s : State) : Out :=
  s.issue ((s.noSvc .s .halt).or (s.noDelay .halt)) (s.modCore fun c => { c with halted := true })

-- TRAP and ERET (R200, R425)

def execTrap (n : BitVec 20) (s : State) : Out :=
  .next (s.modCore fun c => { c with trapAfter := some (n.setWidth 64) })

/-- Issue checks of ERET (R425). -/
def State.eretCheck (s : State) : Verdict :=
  ((failIf (!s.inK) (sFault .privilege 0)).or (s.noDelay .eret)).or
    (failIf (decide ((s.ctl kTepc).toNat % 24 ≠ 0)) (sFault .misalign (s.ctl kTepc)))

/-- Runs suspended by a PAGE fault go on (R299, R361, R428). -/
def Tile.resumeRuns (t : Tile) : Tile :=
  { t with dr := { t.dr with runs := t.dr.runs.map fun r => if r.susp then { r with susp := false } else r },
           vec := { t.vec with chain := t.vec.chain.map fun c => { c with susp := false },
                               vxst := setBits t.vec.vxst 63 63 0 } }

/-- ERET: the return of the shadow; suspended runs go on; under service it also ends the tile's service (R432). -/
def execEret (s : State) : Out :=
  s.issue s.eretCheck (s.modTile fun t =>
    let t := t.leaveTrap.resumeRuns
    { t with core := { t.core with svc := false, returned := true } })

-- The next bundle in fetch order (R150, R151)

/-- A taken BR or JR leaves loops whose body does not hold its target (R152). -/
def Core.leaveLoops (c : Core) (target : W64) : Core :=
  let outside := fun (k : Nat) =>
    (c.level k).active && (decide (target.toNat < (c.level k).first) || decide ((c.level k).last < target.toNat))
  match allLevels.find? outside with
  | some l => c.dropLevels l
  | none => c

/-- The loop-end tests of the active levels that end on bundle i, from the innermost one outwards (R150): the core after them, and START
of the level that loops back. -/
def Core.endTests (c : Core) (i : Nat) : List Nat → Core × Option Nat
  | [] => (c, none)
  | l :: ls =>
    let v := c.level l
    if !v.active || v.last != i then Core.endTests c i ls
    else if v.cnt.toNat + 1 < v.trip.toNat then (c.setLevel l { v with cnt := v.cnt + 1 }, some v.first)
    else Core.endTests (c.setLevel l { v with active := false }) i ls

/-- The loop-end tests of a bundle: made when the innermost active level ends on it (R150). -/
def Core.loopEnds (c : Core) (i : Nat) (ls : List Nat) : Core × Option Nat :=
  match ls.find? fun l => (c.level l).active with
  | some l => if (c.level l).last = i then c.endTests i ls else (c, none)
  | none => (c, none)

/-- After the bundle at the program counter: the next bundle in fetch order (R151). -/
def Core.advance (c : Core) : Core :=
  let c1 := { c with next := none, waitFrom := none }
  match c.xfer with
  | some x =>
    if x.left = 1 then
      let c2 := { c1 with xfer := none, pc := x.target }
      if x.jump then c2.leaveLoops x.target else c2
    else
      let c2 := { c1 with xfer := some { x with left := x.left - 1 } }
      match c.next with
      | some n => { c2 with pc := n }
      | none =>
        let r := c2.loopEnds c.pc.toNat [3, 2, 1, 0]
        { r.1 with pc := (r.2.map w64).getD (c.pc + 1) }
  | none =>
    match c.next with
    | some n => { c1 with pc := n }
    | none =>
      let r := c1.loopEnds c.pc.toNat [3, 2, 1, 0]
      { r.1 with pc := (r.2.map w64).getD (c.pc + 1) }

/-- Finish a bundle: the next one in fetch order, and a TRAP taken after it (R200); a halted core stays at its HALT
(R442). -/
def State.finishBundle (s : State) : State :=
  let trap := s.tile.core.trapAfter
  let s := s.modCore fun c => if c.halted then { c with next := none, waitFrom := none } else { c.advance with trapAfter := none }
  match trap with
  | some n => s.takeFault (sFault .trap n)
  | none => s

end Sys2Proof.Machine
end

