-- ==== Sys2Proof/Machine/Queue.lean ====
section
/-!
DEFINITION. Machine/Queue.lean: the engine queues: pushing entries and the issue checks of a push (R107 to R111, R138 to
R144).
-/
namespace Sys2Proof.Machine

/-- The queue of an engine slot. -/
def Tile.queue (t : Tile) : Slot → Queue
  | .m => t.mq
  | .v => t.vq
  | .d => t.dq
  | .s => t.dq

def Tile.setQueue (t : Tile) (sl : Slot) (q : Queue) : Tile :=
  match sl with
  | .m => { t with mq := q }
  | .v => { t with vq := q }
  | .d => { t with dq := q }
  | .s => t

def State.modQueue (s : State) (sl : Slot) (f : Queue → Queue) : State :=
  s.modTile fun t => t.setQueue sl (f (t.queue sl))

/-- Issue checks of a push: no engine syllable under service (R432), QFULL (R141), then ANY (R108, log entry 75). -/
def State.pushCheck (s : State) (sl : Slot) (i : Instr) (dly : Nat) : Verdict :=
  let full := decide (16 ≤ (s.tile.queue sl).entries.length)
  if s.tile.core.svc then .fault (illegal sl i)
  else if full then (if s.strict then .fault (timingFault sl 0x01 0 s.pad.rtick) else .stall)
  else failIf (s.strict && decide (dly = 63)) (timingFault sl 0x02 0 s.pad.rtick)

/-- Push an entry: the serial, the start tick (none for ANY), and everything it copies (R107 to R110). -/
def Queue.push (q : Queue) (i : Instr) (now : Nat) (start : Option Nat) (rep : Nat) (step : Int) (ws : List W64)
    (its : List (List W64)) (x y : W64) : Queue :=
  { q with
    entries := q.entries ++ [{ instr := i, serial := q.serial, start := start, pushed := now, rep := rep, step := step,
                               j := 0, due := start.getD (now + 1), ready := none, ws := ws, its := its, x := x, y := y }],
    serial := q.serial + 1 }

/-- An EN syllable's push with what it copies. -/
def State.pushEn (s : State) (sl : Slot) (i : Instr) (e : En) (ws : List W64) (its : List (List W64)) : State :=
  s.modQueue sl fun q =>
    q.push i s.pad.rtick (if e.dly = 63 then none else some (s.pad.rtick + 1 + e.dly.toNat)) e.rep.toNat e.step.toInt ws its
      0 0

/-- A VR syllable's push with the registers it copies (R111). -/
def State.pushVr (s : State) (i : Instr) (x y : W64) : State :=
  s.modQueue .v fun q => q.push i s.pad.rtick (some (s.pad.rtick + 1)) 0 0 [] [] x y

/-- A TIMING fault of a run (R144): subcode, detail, and the entry it concerns. -/
def runTiming (sl : Slot) (e : Entry) (sub detail cycle : Nat) (status : W64) : FaultInfo :=
  { cause := .timing, eng := true, unit := sl, run := e.j, t1 := e.serial.setWidth 64, t2 := status,
    t3 := timingInfo sub detail e.j cycle }

/-- Any other fault of a run (Table 17-4). -/
def runFault (c : Cause) (sl : Slot) (serial : BitVec 32) (j : Nat) (status t3 : W64) : FaultInfo :=
  { cause := c, eng := true, unit := sl, run := j, t1 := serial.setWidth 64, t2 := status, t3 := t3 }

/-- The words of a record in order. -/
def Regs.words (m : Regs) (base n : Nat) : List W64 := (List.range n).map fun k => Regs.rd m (base + k)

/-- A run begins: its engine is busy until its completion cycle, once known (R140). -/
def Queue.begin (q : Queue) (s : Nat) (fin : Option Nat) : Queue := { q with act := some { s := s, fin := fin } }

/-- The head leaves the queue (R140, R374). -/
def Queue.drop (q : Queue) : Queue := { q with entries := q.entries.drop 1, act := none }

/-- The end of a cycle: a run that completes on it gives way to the next run of its entry, or the entry leaves (R109,
R140). -/
def Queue.complete (q : Queue) (now : Nat) : Queue :=
  match q.act, q.entries with
  | some a, e :: es =>
    match a.fin with
    | some f =>
      if f ≤ now then
        if e.j < e.rep then { q with entries := { e with j := e.j + 1, due := now + 1 } :: es, act := none }
        else { q with entries := es, act := none }
      else q
    | none => q
  | _, _ => q

/-- The entry serial a fault names, removed from its queue. -/
def Queue.remove (q : Queue) (serial : BitVec 32) : Queue :=
  match q.entries with
  | e :: _ =>
    if e.serial = serial then q.drop else { q with entries := q.entries.filter fun x => x.serial != serial }
  | [] => q

-- When a head may start (R142, R143, R145)

/-- What the operands of a start say. -/
inductive Operands where
  | ready
  | wait
  | fault (f : FaultInfo)
  deriving DecidableEq, Repr

/-- Operands of several sources: a wait before the faults, in order (R145). -/
def Operands.and (a b : Operands) : Operands :=
  match a, b with
  | .wait, _ => .wait
  | _, .wait => .wait
  | .ready, b => b
  | .fault f, _ => .fault f

/-- A semaphore wait of a start: semaphore, amount, whether it acquires. -/
structure Wait where
  q : Nat
  n : Nat
  acq : Bool
  deriving DecidableEq, Repr

/-- The waits that wait or acquire at all. -/
def Wait.names (w : Wait) : Bool := w.n != 0

/-- Take several waits one after another, each seeing the takes before it; or the first semaphore that is short (R311,
R369). -/
def Sync.takes (y : Sync) : List Wait → Except Nat Sync
  | [] => .ok y
  | w :: ws => if w.n ≤ (y.sem w.q).toNat then Sync.takes (y.take w.q w.n) ws else .error w.q

/-- What a start needs beyond the queue: a resource of the engine in use, its waits, its operands, and the checks made
after them. -/
structure Need where
  busy : Bool
  waits : List Wait
  ops : Operands
  checks : Option FaultInfo
  deriving DecidableEq, Repr

/-- What a start comes to on a cycle: nothing, a start, or a fault; short: its semaphores hold and an operand is still on its way. -/
inductive Start where
  | no
  | short
  | go
  | fault (f : FaultInfo)
  deriving DecidableEq, Repr

/-- The first poisoned semaphore a start waits for (R374). -/
def State.waitPoison (s : State) (ws : List Wait) : Option Nat :=
  (ws.find? fun w => w.names && s.tile.sync.isPoisoned w.q).map (·.q)

/-- The first acquire out of scope (R396), made whatever the amount (log entry 72). -/
def State.waitScope (s : State) (ws : List Wait) : Option W64 :=
  ws.findSome? fun w => if w.acq then s.outOfScope (.sem s.cur.tile w.q) else none

/-- Cycles, 0 to 64, a loose run may wait from this cycle on, where its semaphore condition comes to hold on it (R143). -/
def State.slack (s : State) (sl : Slot) (e : Entry) : Nat :=
  Config.looseSlack ((s.cur.pad * 65536 + s.cur.tile) * 4 + slotNo sl) (e.j * 2 ^ 32 + e.serial.toNat) s.pad.rtick % 65

/-- The cycle from which an entry waits no longer, once its waits hold; they may hold long before the entry can start (R143). -/
def State.readyAt (s : State) (sl : Slot) (e : Entry) (ws : List Wait) : Option Nat :=
  match s.tile.sync.takes ws with
  | .ok _ => some (e.ready.getD (s.pad.rtick + (if ws.any Wait.names then s.slack sl e else 0)))
  | .error _ => none

/-- The entries of a queue as the engine finds them on a loose cycle: the waits of each looked at. -/
def State.watch (s : State) (sl : Slot) (waits : Entry → List Wait) : State :=
  if s.strict then s
  else s.modQueue sl fun q => { q with entries := q.entries.map fun e => { e with ready := s.readyAt sl e (waits e) } }

/-- The start of a run that is due: BUSY, SYNC_POISON, FLAG, OPERAND and the other faults in the order of R145; a loose run
waits instead of TIMING. -/
def State.startWhenDue (s : State) (sl : Slot) (e : Entry) (status : W64) (n : Need) : Start :=
  let now := s.pad.rtick
  let late := fun (f : FaultInfo) => if s.strict then Start.fault f else Start.no
  if n.busy then late (runTiming sl e 0x04 0 now status)
  else
    match s.waitPoison n.waits with
    | some q => .fault { runFault .syncPoison sl e.serial e.j status (w64 q) with wq := true }
    | none =>
      match s.tile.sync.takes n.waits with
      | .error q => late (runTiming sl e 0x05 q now status)
      | .ok _ =>
        match n.ops with
        | .wait => if s.strict then .fault (runTiming sl e 0x06 0 now status) else .short
        | .fault f => .fault f
        | .ready =>
          match n.checks with
          | some f => .fault f
          | none =>
            match s.waitScope n.waits with
            | some a => .fault (runFault .scope sl e.serial e.j status a)
            | none =>
              if s.strict || decide (e.ready.getD now ≤ now) then .go else .no

/-- A run is due: on its cycle in a strict stint, from its cycle on in a loose one (R142, R143). -/
def State.isDue (s : State) (due : Nat) : Bool :=
  if s.strict then due == s.pad.rtick else decide (due ≤ s.pad.rtick)

/-- An entry behind the head whose start tick has come: TIMING (HEAD), strict only (R144). -/
def State.headLate (s : State) (sl : Slot) (status : Entry → W64) : Option FaultInfo :=
  if !s.strict then none
  else
    ((s.tile.queue sl).entries.drop 1).findSome? fun e =>
      if e.start = some s.pad.rtick then some (runTiming sl e 0x03 0 s.pad.rtick (status e)) else none

/-- The head of a queue when no run is in progress and its next run is due. -/
def State.dueHead (s : State) (sl : Slot) : Option Entry :=
  let q := s.tile.queue sl
  match q.entries, q.act with
  | e :: _, none => if s.isDue e.due then some e else none
  | _, _ => none

/-- The head waits for an operand alone: it starts with it (R314). -/
def Queue.short (q : Queue) (now : Nat) : Queue :=
  match q.entries with
  | e :: es => { q with entries := { e with ready := some now } :: es }
  | [] => q

/-- The head starts: the waits of its next run are looked at anew. -/
def Queue.taken (q : Queue) : Queue :=
  match q.entries with
  | e :: es => { q with entries := { e with ready := none } :: es }
  | [] => q

/-- Class of a head that does not start on its cycle: BUSY, or FLAG with the semaphore it waits for (Table 18-1, R440). -/
def State.waitClass (s : State) (n : Need) : Nat × Option Nat :=
  let named := n.waits.filter Wait.names
  if n.busy || n.ops == .wait || named.isEmpty then (4, none)
  else
    match s.tile.sync.takes n.waits with
    | .error q => (3, some q)
    | .ok _ => (3, named.head?.map (·.q))

/-- Note the class of a queue whose due head does not start, as its engine finds it. -/
def State.noteClass (s : State) (sl : Slot) (n : Need) : State :=
  s.modTile fun t => { t with obs := { t.obs with seen := FMap.put t.obs.seen (slotNo sl) (s.waitClass n) } }

/-- Make the takes of a start. -/
def State.takeWaits (s : State) (ws : List Wait) : State :=
  s.modSync fun y => match y.takes ws with
    | .ok z => z
    | .error _ => y

/-- The due head of an engine starts or not: go does what its start does; a fault ends the entry (R298, R331, R363, R374). -/
def State.startHead (s : State) (sl : Slot) (e : Entry) (status : W64) (n : Need) (go : State → State) : State :=
  match s.startWhenDue sl e status n with
  | .no => s.noteClass sl n
  | .short => (s.noteClass sl n).modQueue sl fun q => q.short s.pad.rtick
  | .fault f => ((if f.cause = .timing then s.noteClass sl n else s).modQueue sl Queue.drop).cond f
  | .go => (go (s.takeWaits n.waits)).modQueue sl Queue.taken

-- Signals (R288, R311, R358)

/-- A release that a run may not make (R396), whatever the amount (log entry 72). -/
def State.signalScope (s : State) (o : Obj) (g : Signal) : Option W64 := if g.rel then s.outOfScope o else none

/-- Release and signal a semaphore of a tile at the end of this cycle, or the address of the SCOPE fault of the release. -/
def State.trySignal (s : State) (tile : Nat) (g : Signal) : Except W64 State :=
  match s.signalScope (.sem tile g.q) g with
  | some a => .error a
  | none => .ok (s.atTile tile fun s => s.modSync fun y => y.signal g.q g.n)

/-- Release and signal a semaphore of a tile at the end of this cycle, or the SCOPE fault of the release. -/
def State.signalAt (s : State) (tile : Nat) (g : Signal) (fault : W64 → FaultInfo) : State :=
  match s.trySignal tile g with
  | .error a => s.cond (fault a)
  | .ok s => s

-- Operand rings (R241 to R244)

/-- An operand ring as its record holds it. -/
structure Ring where
  nslab : Nat
  base : Nat
  head : Nat
  tail : Nat
  ctag : Nat
  deriving DecidableEq, Repr

def Drover.ring (d : Drover) (k : Nat) : Ring :=
  let w := fun (i : Nat) => Regs.rd d.rg (4 * k + i)
  { nslab := bits (w 0) 39 32, base := bits (w 0) 20 12, head := bits (w 1) 63 32, tail := bits (w 1) 31 0,
    ctag := bits (w 2) 15 0 }

def Ring.occ (r : Ring) : Nat := (r.tail + 2 ^ 32 - r.head) % 2 ^ 32

/-- The ring has slots, all in the scratchpad (R244); an NSLAB above 128 counts as it stands (R241, log entry 76). -/
def Ring.valid (r : Ring) (sh : Shape) : Bool := r.nslab != 0 && decide ((r.base + r.nslab) * 4096 ≤ sh.spBytes)

/-- The frame of the slab at position i. -/
def Ring.frame (r : Ring) (i : Nat) : Nat := r.base + (r.head + i) % r.nslab

/-- tinfo3 of a RING fault (R244). -/
def ringInfo (k : Nat) (consumer : Bool) (occ cycle : Nat) : W64 :=
  BitVec.ofNat 64 (k + consumer.toNat * 2 ^ 8 + occ % 256 * 2 ^ 16 + cycle % 2 ^ 32 * 2 ^ 32)

/-- PUSH and RING of a Drover descriptor's word 1. -/
def pushRing (w1 : W64) : Option Nat := if bit w1 35 then some (bits w1 38 36) else none

/-- A push into ring k of the current tile is outstanding: in progress, or queued in this tile's own Drover queue (R243). -/
def State.pushPending (s : State) (k : Nat) : Bool :=
  let me := s.cur.tile
  let into := fun (ws : List W64) (its : List (List W64)) =>
    pushRing (ws.getD 1 0) == some k &&
      (match s.pad.shape.target me (bits ((its.getD 1 []).getD 0 0) 47 0) with
       | .own _ => true
       | _ => false)
  s.tile.dr.pushing.contains k || s.tile.dq.entries.any fun e => into e.ws e.its

/-- The slab at position i of a ring as an operand (R243). -/
def State.ringOperand (s : State) (sl : Slot) (e : Entry) (status : W64) (k i : Nat) : Operands :=
  let r := s.tile.dr.ring k
  let f := fun (_ : Unit) => runFault .ring sl e.serial e.j status (ringInfo k true r.occ s.pad.rtick)
  if !r.valid s.pad.shape then .fault (f ())
  else if i < r.occ then .ready
  else if s.pushPending k then .wait
  else .fault (f ())

/-- tinfo3 of a SEQ_TAG fault (R240). -/
def seqTagInfo (expected found frame : Nat) : W64 :=
  BitVec.ofNat 64 (expected % 65536 + found * 2 ^ 16 + frame % 512 * 2 ^ 32)

/-- The tag of a frame of the current tile. -/
def State.tagOf (s : State) (frame : Nat) : Nat := (FMap.getD s.tile.st.tags frame 0).toNat

/-- A frame's tag is not the one expected. -/
def State.tagWrong (s : State) (frame expected : Nat) : Bool := s.tagOf frame != expected % 65536

/-- A pop due at the end of this cycle (R243). -/
def State.popRing (s : State) (k : Nat) : State :=
  s.modTile fun t => { t with dr := { t.dr with heads := t.dr.heads ++ [k] } }

/-- The counts of rings at the end of a cycle: pushes completed, with their tags, and slabs popped (R242, R243). -/
def Drover.turnRings (d : Drover) : Drover :=
  let bump := fun (rg : Regs) (x : Nat × Nat) =>
    FMap.put (FMap.put rg (4 * x.1 + 1) (setBits (Regs.rd rg (4 * x.1 + 1)) 31 0 (bits (Regs.rd rg (4 * x.1 + 1)) 31 0 + 1)))
      (4 * x.1 + 3) (w64 x.2)
  let pop := fun (rg : Regs) (k : Nat) =>
    let h := setBits (Regs.rd rg (4 * k + 1)) 63 32 (bits (Regs.rd rg (4 * k + 1)) 63 32 + 1)
    FMap.put (FMap.put rg (4 * k + 1) h) (4 * k + 2) (w64 ((bits (Regs.rd rg (4 * k + 2)) 15 0 + 1) % 65536))
  { d with rg := d.heads.foldl pop (d.tails.foldl bump d.rg), pushing := d.tails.foldl (fun l x => nsDel l x.1) d.pushing,
           tails := [], heads := [] }

end Sys2Proof.Machine
end

