-- ==== Sys2Proof/Machine/Mem.lean ====
section
/-!
DEFINITION. Machine/Mem.lean: the scalar memory instructions and atomics (R184 to R190, R405 to R407): their checks at
issue, and what they do in their access cycle.
-/
namespace Sys2Proof.Machine

-- Reach (R185)

/-- A pool range the scalar instructions may touch: scratchpad and accumulators always, the pen in K. -/
def State.poolOk (s : State) (off n : Nat) : Bool :=
  decide (off + n ≤ poolSize) && (s.inK || s.pad.shape.inWork off n)

/-- A load of n bytes at ea is within reach (Table 7-9). -/
def State.loadOk (s : State) (ea n : Nat) : Bool :=
  match s.pad.shape.target s.cur.tile ea with
  | .own off => s.poolOk off n
  | .table _ => true
  | .caps _ => true
  | _ => false

/-- A store of n bytes at ea is within reach (Table 7-9). -/
def State.storeOk (s : State) (ea n : Nat) : Bool :=
  match s.pad.shape.target s.cur.tile ea with
  | .own off => s.poolOk off n
  | _ => false

/-- The pool offset an own-pool address names. -/
def State.ownOff (s : State) (ea : Nat) : Nat :=
  match s.pad.shape.target s.cur.tile ea with
  | .own off => off
  | _ => 0

/-- Issue checks of a scalar access: MISALIGN, then PROTECTION (R186). -/
def State.memCheck (_s : State) (ea : W64) (n : Nat) (ok : Bool) : Verdict :=
  (failIf (decide (ea.toNat % n ≠ 0)) (sFault .misalign ea)).or (failIf (!ok) (sFault .protection ea))

/-- Put a scalar access in flight; its access cycle is the next one (R137). -/
def State.access (s : State) (a : Acc) (ea : Nat) : State :=
  s.modCore fun c => { c with acc := c.acc ++ [{ acc := a, ea := ea, left := 1 }] }

-- Loads and stores (R184)

def State.ldCheck (s : State) (w : Width) (a : Reg) (off : BitVec 14) : Verdict :=
  let ea := effAddr (s.rd a) off w.bytes
  s.memCheck ea w.bytes (s.loadOk ea.toNat w.bytes)

def State.stCheck (s : State) (w : Width) (a : Reg) (off : BitVec 14) : Verdict :=
  let ea := effAddr (s.rd a) off w.bytes
  s.memCheck ea w.bytes (s.storeOk ea.toNat w.bytes)

def State.ldpCheck (s : State) (a : Reg) (off : BitVec 14) : Verdict :=
  let ea := effAddr (s.rd a) off 16
  s.memCheck ea 16 (s.loadOk ea.toNat 16)

def State.stpCheck (s : State) (a : Reg) (off : BitVec 14) : Verdict :=
  let ea := effAddr (s.rd a) off 16
  s.memCheck ea 16 (s.storeOk ea.toNat 16)

def execLd (w : Width) (d a : Reg) (off : BitVec 14) (s : State) : Out :=
  s.issue (s.ldCheck w a off) (s.access (.load w true d) (effAddr (s.rd a) off w.bytes).toNat)

def execLdz (w : Width) (d a : Reg) (off : BitVec 14) (s : State) : Out :=
  s.issue (s.ldCheck w a off) (s.access (.load w false d) (effAddr (s.rd a) off w.bytes).toNat)

def execSt (w : Width) (d a : Reg) (off : BitVec 14) (s : State) : Out :=
  s.issue (s.stCheck w a off)
    (s.access (.store (natLE w.bytes (s.rd d).toNat)) (effAddr (s.rd a) off w.bytes).toNat)

def execLdp (d a : Reg) (off : BitVec 14) (s : State) : Out :=
  s.issue (s.ldpCheck a off) (s.access (.loadPair d) (effAddr (s.rd a) off 16).toNat)

def execStp (d a : Reg) (off : BitVec 14) (s : State) : Out :=
  s.issue (s.stpCheck a off)
    (s.access (.store (natLE 8 (s.rd d).toNat ++ natLE 8 (s.rd (d + 1)).toNat)) (effAddr (s.rd a) off 16).toNat)

-- STR (R188)

/-- The target tile of an STR. -/
def State.strTarget (s : State) (dx dy : BitVec 6) : Option Nat :=
  s.pad.shape.offsetTile s.cur.tile dx.toInt dy.toInt

/-- Issue checks of STR (R188); under pause-point service it is illegal besides (R432). -/
def State.strCheck (s : State) (a : Reg) (dx dy : BitVec 6) : Verdict :=
  let off := s.rd a
  let bad := match s.strTarget dx dy with
    | none => true
    | some _ => decide (poolSize ≤ off.toNat) || s.pad.shape.area off.toNat == .pen
  (failIf (decide (off.toNat % 8 ≠ 0)) (sFault .misalign off)).or (failIf bad (sFault .protection off))

/-- The word an STR sends. -/
def State.strWord (s : State) (d a : Reg) (tgt : Nat) : NetWord :=
  let lat := s.pad.shape.strLat s.cur.tile tgt
  { due := s.pad.rtick + lat, sender := s.cur.tile, target := tgt, off := (s.rd a).toNat, data := s.rd d,
    refusal := none, lat := lat }

def execStr (d a : Reg) (dx dy : BitVec 6) (s : State) : Out :=
  s.issue ((s.noSvc .s (.str d a dx dy)).or (s.strCheck a dx dy))
    (match s.strTarget dx dy with
     | some tgt => s.modPad fun p => { p with net := p.net ++ [s.strWord d a tgt] }
     | none => s)

/-- Insert a word into arrivals in ascending sender. -/
def insertSender (w : NetWord) : List NetWord → List NetWord
  | [] => [w]
  | x :: xs => if w.sender < x.sender then w :: x :: xs else x :: insertSender w xs

/-- The words due at the current tile on this cycle, in ascending sender (R189). -/
def State.strDue (s : State) : List NetWord :=
  (s.pad.net.filter fun w => decide (w.due ≤ s.pad.rtick) && w.target == s.cur.tile).foldl
    (fun l w => insertSender w l) []

/-- Apply one word at the current tile: a refusal coming back, a word out of scope refused, or a word written (R188,
R251). -/
def State.strApply (s : State) (w : NetWord) : State :=
  match w.refusal with
  | some addr => s.modCore fun c => { c with conds := c.conds ++ [sFault .scope addr] }
  | none =>
    if s.pad.shape.reaches (s.tile.granuleScope s.pad.shape w.off) w.sender s.cur.tile then
      (s.poolWrite w.off (natLE 8 w.data.toNat)).1
    else
      let sh := s.pad.shape
      let dx : Int := (sh.x s.cur.tile : Int) - sh.x w.sender
      let dy : Int := (sh.y s.cur.tile : Int) - sh.y w.sender
      let back : NetWord :=
        { w with due := w.due + w.lat, sender := s.cur.tile, target := w.sender, refusal := some (w64 (tilePoolAddr dx dy w.off)) }
      s.modPad fun p => { p with net := p.net ++ [back] }

/-- STR_ARRIVAL: every word due at the current tile is applied and leaves the network. -/
def execStrArrival (s : State) : Out :=
  let due := s.strDue
  let s := s.modPad fun p => { p with net := p.net.filter fun w =>
    !(decide (w.due ≤ p.rtick) && w.target == s.cur.tile) }
  .next (due.foldl State.strApply s)

-- SPILL and FILL (R190, R235)

/-- The spill table word of a register. -/
def spillSlot (d : Reg) : Nat := 0x1FFD80 + 8 * d.toNat

/-- An offset lies in the pen. -/
def State.inPen (s : State) (ea : Nat) : Bool :=
  match s.pad.shape.target s.cur.tile ea with
  | .own off => decide (off + 8 ≤ poolSize) && s.pad.shape.area off == .pen
  | _ => false

def State.spillCheck (s : State) (a : Reg) (off : BitVec 14) : Verdict :=
  let ea := effAddr (s.rd a) off 8
  s.memCheck ea 8 (s.inPen ea.toNat)

def execSpill (d a : Reg) (off : BitVec 14) (s : State) : Out :=
  s.issue (s.spillCheck a off) (s.access (.spill d (s.rd d)) (effAddr (s.rd a) off 8).toNat)

def execFill (d : Reg) (s : State) : Out :=
  .next (if bit (s.ctl kSpmap) d.toNat then s.access (.fillTable d) (spillSlot d) else s)

-- Pool atomics (R405, R406)

/-- Issue checks of a pool atomic of n bytes (R406). -/
def State.amoCheck (s : State) (a : Reg) (n : Nat) : Verdict :=
  let ea := s.rd a
  s.memCheck ea n (s.storeOk ea.toNat n)

end Sys2Proof.Machine

namespace Sys2Proof
open Sys2Proof.Machine

def AmoTy.bytes : AmoTy → Nat
  | .i32 => 4 | .i64 => 8

/-- Bytes of a scalar float type. -/
def FpTy.bytes : FpTy → Nat
  | .f32 => 4 | .f64 => 8

/-- The new value of an atomic on n bytes (R406). -/
def AmoOp.apply (op : AmoOp) (n old x : Nat) : Nat :=
  let m := 2 ^ (8 * n)
  match op with
  | .add => (old + x) % m
  | .min => if sext (8 * n) x < sext (8 * n) old then x % m else old
  | .max => if sext (8 * n) old < sext (8 * n) x then x % m else old
  | .and => old &&& (x % m)
  | .or => old ||| (x % m)
  | .xor => old ^^^ (x % m)
  | .swp => x % m

end Sys2Proof

namespace Sys2Proof.Machine

def execAmo (op : AmoOp) (t : AmoTy) (o : AmoOrd) (d a b : Reg) (s : State) : Out :=
  s.issue ((s.noSvc .s (.amo op t o d a b)).or (s.amoCheck a t.bytes)) (s.access (.amo op t o d (s.rd b)) (s.rd a).toNat)

def execAmocas (t : AmoTy) (o : AmoOrd) (d a b : Reg) (s : State) : Out :=
  s.issue ((s.noSvc .s (.amocas t o d a b)).or (s.amoCheck a t.bytes)) (s.access (.amocas t o d (s.rd b) (s.rd d)) (s.rd a).toNat)

def execFamoadd (t : FpTy) (md : RMode) (o : AmoOrd) (d a b : Reg) (s : State) : Out :=
  s.issue ((s.noSvc .s (.famoadd t md o d a b)).or (s.amoCheck a t.bytes)) (s.access (.famoadd t md o d (s.rd b)) (s.rd a).toNat)

-- The access cycle (R137, R187, R190, R220, R406)

/-- The condition of an access at an address that met a poisoned word, given by the word's offset in its store: of a KIND 4 object
where that word is one (R187, R409). -/
def State.poisonFault (s : State) (ea word : Nat) : FaultInfo :=
  let c := match s.pad.shape.target s.cur.tile ea with
    | .own _ => s.pad.shape.poisonCause s.cur.tile word
    | _ => .dataPoison
  sFault c (w64 ea)

def State.poisonCond (s : State) (ea word : Nat) : State := s.cond (s.poisonFault ea word)

/-- n bytes at a pool offset of the current tile cover a poisoned word of a KIND 4 object. -/
def State.syncPoisoned (s : State) (st : Store) (off n : Nat) : Bool :=
  (List.range (wordsOf off n)).any fun i =>
    st.poison.contains (off / 8 + i) && s.pad.shape.isSyncWord s.cur.tile (8 * (off / 8 + i))

/-- Store bytes at an own-pool address; in U, a store that covers a poisoned KIND 4 word writes nothing (R238, R409). -/
def State.scalarStore (s : State) (ea : Nat) (data : List Byte) : State :=
  let off := s.ownOff ea
  let met := s.tile.st.pool.meetAll (off / 8) (wordsOf off data.length)
  if !s.inK && s.syncPoisoned met off data.length then
    (s.modTile fun t => t.modPool fun _ => met).cond (sFault .syncPoison (w64 ea))
  else
    match s.poolWrite off data with
    | (s, some _) => s.cond (sFault .dataPoison (w64 ea))
    | (s, none) => s

/-- Read n bytes at a scalar address: pool, table memory, capability list, or HBM for a ULD. -/
def State.scalarRead (s : State) (ea n : Nat) : State × Except Nat (List Byte) :=
  let s := s.touch (s.pad.shape.target s.cur.tile ea)
  match s.pad.shape.target s.cur.tile ea with
  | .own off => s.poolRead off n
  | .table off =>
    let r := s.tile.st.tmem.read off n
    (s.modTile fun t => { t with st := { t.st with tmem := r.1 } }, r.2)
  | .caps off => (s, .ok ((natLE 8 (capWord s.panel.retire2 off).toNat ++ natLE 8 (capWord s.panel.retire2 (off + 8)).toNat).drop
      (off % 8) |>.take n))
  | .hbm page off =>
    let r := s.pad.hbm.read (page * 2 ^ 21 + off) n
    (s.modPad fun p => { p with hbm := r.1 }, r.2)
  | _ => (s, .ok (List.replicate n 0))

/-- A loaded value as a register receives it. -/
def loadValue (sx : Bool) (bs : List Byte) : W64 :=
  if sx then w64i (sext (8 * bs.length) (leNat bs)) else w64 (leNat bs)

/-- A read-modify-write of n bytes at a pool offset: its new bytes and the value returned, from the old bytes. -/
def State.atomic (s : State) (ea n : Nat) (d : Reg) (f : Nat → Option Nat × W64 × BitVec 7) : State :=
  let off := s.ownOff ea
  match s.poolRead off n with
  | (s, .error w) => s.poisonCond ea w
  | (s, .ok bs) =>
    let r := f (leNat bs)
    let s := match r.1 with
      | some v => (s.poolWrite off (natLE n v)).1
      | none => s
    s.laterFl d r.2.1 5 r.2.2

/-- What an access does in its access cycle. -/
def State.perform (s : State) (x : Access) : State :=
  let ea := x.ea
  match x.acc with
  | .load w sx d =>
    match s.scalarRead ea w.bytes with
    | (s, .error x) => s.poisonCond ea x
    | (s, .ok bs) => s.later d (loadValue sx bs) 3
  | .loadPair d =>
    match s.scalarRead ea 16 with
    | (s, .error x) => s.poisonCond ea x
    | (s, .ok bs) => (s.later d (loadValue false (bs.take 8)) 3).later (d + 1) (loadValue false (bs.drop 8)) 3
  | .store data => s.scalarStore ea data
  | .spill d v =>
    let s := (s.poolWrite (s.ownOff ea) (natLE 8 v.toNat)).1
    let s := (s.poolWrite (spillSlot d) (natLE 8 ea)).1
    s.setCtl kSpmap (s.ctl kSpmap ||| fld 1 d.toNat)
  | .fillTable d =>
    match s.poolRead (spillSlot d) 8 with
    | (s, .error x) => s.poisonCond (spillSlot d) x
    | (s, .ok bs) =>
      let s := s.setCtl kSpmap (s.ctl kSpmap &&& ~~~(fld 1 d.toNat))
      let older := (s.tile.core.pend.filter fun w => decide (1 < w.left)).length
      s.modCore fun c => { c with acc := c.acc ++ [{ acc := .fillWord d older, ea := leNat bs, left := 1 }] }
  | .fillWord d older =>
    let park := fun (s : State) => s.setCtl kSpmap (s.ctl kSpmap ||| fld 1 d.toNat)
    if ea % 8 ≠ 0 then park (s.cond (sFault .misalign (w64 ea)))
    else if !s.inPen ea then park (s.cond (sFault .protection (w64 ea)))
    else
      match s.poolRead (s.ownOff ea) 8 with
      | (s, .error x) => park (s.poisonCond ea x)
      | (s, .ok bs) =>
        let w : RegWrite := { reg := d, val := loadValue false bs, left := 2, flags := 0 }
        s.modCore fun c => { c with pend := c.pend.take older ++ w :: c.pend.drop older }
  | .amo op t _ d x =>
    s.atomic ea t.bytes d fun old =>
      (some (op.apply t.bytes old x.toNat), loadValue true (natLE t.bytes old), 0)
  | .amocas t _ d x e =>
    s.atomic ea t.bytes d fun old =>
      (if old = e.toNat % 2 ^ (8 * t.bytes) then some (x.toNat % 2 ^ (8 * t.bytes)) else none,
        loadValue true (natLE t.bytes old), 0)
  | .famoadd t md _ d x =>
    s.atomic ea t.bytes d fun old =>
      let r := fAdd t.fmt md.rnd old (scalarBits t.fmt x)
      (some r.pat, w64 old, r.fl)
  | .ust data => (s.poolWrite (s.ownOff ea) data).1
  | .uld w sx t =>
    match s.scalarRead ea w.bytes with
    | (s, .error x) => s.cond { s.poisonFault ea x with uop := true }
    | (s, .ok bs) =>
      s.modCore fun c =>
        let add := fun (r : UopRun) =>
          { r with tpend := r.tpend ++ [{ reg := BitVec.ofNat 6 t, val := loadValue sx bs, left := 3, flags := 0 }] }
        match c.hold, c.frame with
        | .uop r, _ => { c with hold := .uop (add r) }
        | _, some r => { c with frame := some (add r) }
        | _, none => c

/-- The access writes a word of the pool. -/
def Acc.writes : Acc → Bool
  | .store _ | .spill _ _ | .amo _ _ _ _ _ | .amocas _ _ _ _ _ | .famoadd _ _ _ _ _ | .ust _ => true
  | .load _ _ _ | .loadPair _ | .fillTable _ | .fillWord _ _ | .uld _ _ _ => false

/-- The scalar accesses of this cycle at the current tile: step 4 of R236, then the reads, which see every write of the cycle (log entry
74). -/
def State.scalarAccesses (s : State) : State :=
  let due := s.tile.core.acc.filter fun a => decide (a.left ≤ 1)
  let s := s.modCore fun c =>
    { c with acc := (c.acc.filter fun a => decide (1 < a.left)).map fun a => { a with left := a.left - 1 } }
  ((due.filter (·.acc.writes)) ++ due.filter (!·.acc.writes)).foldl State.perform s

-- Landing (R135)

/-- General register writes that land now, the later-issued last. -/
def Core.landRegs (c : Core) : Core :=
  let p := c.pend.map fun w => { w with left := w.left - 1 }
  { c with regs := (p.filter fun w => w.left == 0).foldl
             (fun m w => if w.reg = 0 then m else FMap.put m w.reg.toNat w.val) c.regs,
           pend := p.filter fun w => w.left != 0 }

/-- Flags that land now. -/
def Core.landFlags (c : Core) : BitVec 7 :=
  (c.pend.filter fun w => decide (w.left ≤ 1)).foldl (fun f w => f ||| w.flags) 0

/-- Every write of a run's temporaries in flight comes one cycle nearer: those that land do, later-issued last (R215). -/
def UopRun.tick (r : UopRun) : UopRun :=
  let p := r.tpend.map fun w => { w with left := w.left - 1 }
  { r with temps := (p.filter fun w => w.left == 0).foldl (fun m w => FMap.put m w.reg.toNat w.val) r.temps,
           tpend := p.filter fun w => w.left != 0 }

/-- A cycle passes for a discarded run, whose frame is recorded once its temporaries have landed (R225). -/
def Tile.tickFrame (t : Tile) : Tile :=
  match t.core.frame with
  | some r => { t with core := { t.core with frame := some r.tick } }.settleFrame
  | none => t

/-- The writes of general registers, flags and a discarded run's temporaries that land at the start of a cycle at the current tile. -/
def State.landWrites (s : State) : State :=
  s.modTile fun t => { t.orFlags t.core.landFlags with core := t.core.landRegs }.tickFrame

/-- Every register write of the current tile already issued lands, cycle by cycle and so in landing order, each access still due in its
own cycle: a freeze waits for them (R135). -/
def State.flushFor (s : State) : Nat → State
  | 0 => s
  | n + 1 =>
    if s.tile.core.pend.isEmpty && s.tile.core.acc.isEmpty && s.tile.core.frame.isNone then s
    else State.flushFor s.landWrites.scalarAccesses n

/-- No latency reaches 64 cycles (Table 6-1), nor do two accesses and a latency together 128. -/
def State.flushWrites (s : State) : State := s.flushFor 128

end Sys2Proof.Machine
end

