-- ==== Sys2Proof/Machine/Pages.lean ====
section
/-!
DEFINITION. Machine/Pages.lean: page table entries: those of the pools, of HBM, of windows and of host memory, and what an entry
denies (R247 to R252, R72, R397).
-/
namespace Sys2Proof.Machine

/-- What an access wants to do. -/
structure Want where
  rd : Bool
  wr : Bool
  xl : Bool
  deriving DecidableEq, Repr

/-- TYPE, SCOPE, WORLD and the attributes RD, WR, XL, UA of an entry (Table 9-6). -/
def entryOf (ty scope world attrs : Nat) : W64 := fld ty 59 ||| fld scope 57 ||| fld world 49 ||| fld attrs 45

/-- P and FWD of an entry. -/
def pPresent : W64 := fld 1 63
def pForward : W64 := fld 1 62

/-- The entry of an HBM page as START and PAGE_ACCEPT make it (Table 9-7): present, PANEL, RD, WR, XL and UA. -/
def hbmDefault (world : Nat) : W64 := pPresent ||| entryOf 2 2 world 15

/-- The attributes of a HOST page that nothing maps: POD, UA, and no access refused for RD or WR (Table 9-7, log entry 66). -/
def hostDefault (world : Nat) : W64 := entryOf 4 3 world 13

/-- The entry of an HBM page of the paddock, its FRAME aside while it is not being moved (R247, R248): the pages it lists, the
default for its others, which are absent beyond CHAN times 625. -/
def Paddock.hbmEntry (p : Paddock) (page : Nat) : W64 :=
  if page < p.shape.chan * 625 then (FMap.get? p.pages page).getD (hbmDefault p.shape.world)
  else hbmDefault p.shape.world &&& ~~~pPresent

/-- FRAME of an HBM page: its channel, and its place among the 625 pages there (R247). -/
def Paddock.hbmFrame (p : Paddock) (page : Nat) : Nat :=
  match (p.chans[page % p.shape.chan]?).join with
  | some c => c * 625 + page / p.shape.chan
  | none => 0

/-- The channel that serves an HBM page: while it is FORWARD the one it is copied from (R93). -/
def Paddock.hbmServer (p : Paddock) (page : Nat) : Option Nat :=
  let e := p.hbmEntry page
  if e &&& pForward ≠ 0 then some (bits e 39 0 / 625) else (p.chans[page % p.shape.chan]?).join

/-- An HBM page is cut off: the M-die of the channel that serves it is among some dies (R29). -/
def Paddock.hbmCut (p : Paddock) (out : List Nat) (page : Nat) : Bool := (p.hbmServer page).any fun c => out.contains (200 + c / 32)

/-- A target is an HBM page that is cut off. -/
def Paddock.cutTarget (p : Paddock) (out : List Nat) : Target → Bool
  | .hbm page _ => p.hbmCut out page
  | _ => false

/-- The entry of a HOST page (R72). -/
def Paddock.hostEntry (p : Paddock) (page : Nat) : W64 :=
  match FMap.get? p.hostPages page with
  | some h => h.entry
  | none => hostDefault p.shape.world

/-- The entry of a pool page of tile i: fixed by the partition, with the granule's scope, and for FRAME the granule of its site
(R249, R250). -/
def Paddock.poolEntry (p : Paddock) (i off : Nat) (own : Bool) : W64 :=
  pPresent ||| entryOf (!own).toNat (Tile.granuleScope (FMap.getD p.tiles i Tile.init) p.shape off) p.shape.world
    (if p.shape.area off = .pen then 12 else 15) ||| fld (p.shape.site p.place i * 32 + off / 65536) 0

/-- The entry of a page of a window, from the tile's route register: present while VALID, with the route's panel and home for FRAME
(R397, Table 9-7). -/
def windowEntry (wd : W64) (world : Nat) : W64 :=
  (if bit wd 63 then pPresent else 0) ||| entryOf 3 3 world 13 ||| fld (bits wd 60 56 * 65536 + bits wd 31 16) 0

/-- The page table entry behind a target of the current tile (R248); the CTRL ranges have none. -/
def State.pageEntry (s : State) (t : Target) : W64 :=
  let p := s.pad
  match t with
  | .own off => p.poolEntry s.cur.tile off true
  | .tile j off => p.poolEntry j off false
  | .hbm page _ =>
    let e := p.hbmEntry page
    if bit e 62 then e else e ||| fld (p.hbmFrame page) 0
  | .window w _ _ => windowEntry (s.ctl (kWdesc + w)) p.shape.world
  | .host page _ => p.hostEntry page
  | .table _ => 0
  | .caps _ => 0
  | .bad => 0

/-- What an entry denies whether or not its page is present: the access, U, another world (Table 9-9, order 2). -/
def entryDenies (e : W64) (world : Nat) (k : Bool) (w : Want) : Bool :=
  (w.rd && !bit e 48) || (w.wr && !bit e 47) || (w.xl && !bit e 46) || (!k && !bit e 45) || bits e 56 49 != world

end Sys2Proof.Machine
end

