-- ==== Sys2Proof/Machine/Scalar.lean ====
section
/-!
DEFINITION. Machine/Scalar.lean: the integer and bit-field instructions of slot S (R164 to R172), with the latencies of
Table 6-1.
-/
namespace Sys2Proof.Machine

-- Results of the integer instructions (Tables 7-2, 7-3, 7-5)

/-- High half of the signed product. -/
def mulHigh (x y : W64) : W64 := w64i (x.toInt * y.toInt / 2 ^ 64)

/-- High half of the unsigned product. -/
def mulHighN (x y : W64) : W64 := w64 (x.toNat * y.toNat / 2 ^ 64)

/-- Signed quotient: all ones for a zero divisor, and the most negative number for its quotient by -1 (R165). -/
def divS (x y : W64) : W64 :=
  if y = 0 then -1
  else if x.toInt = -2 ^ 63 ∧ y.toInt = -1 then x
  else w64i (Int.tdiv x.toInt y.toInt)

/-- Signed remainder with the sign of the dividend; the dividend for a zero divisor (R165). -/
def remS (x y : W64) : W64 :=
  if y = 0 then x
  else if x.toInt = -2 ^ 63 ∧ y.toInt = -1 then 0
  else w64i (x.toInt - Int.tdiv x.toInt y.toInt * y.toInt)

/-- Unsigned quotient (R165). -/
def divU (x y : W64) : W64 := if y = 0 then -1 else w64 (x.toNat / y.toNat)

/-- Unsigned remainder (R165). -/
def remU (x y : W64) : W64 := if y = 0 then x else w64 (x.toNat % y.toNat)

/-- Leading zero bits among the low n bits. -/
def clzN (x : W64) : Nat → Nat
  | 0 => 0
  | n + 1 => if x.getLsbD n then 0 else clzN x n + 1

/-- Trailing zero bits from bit 64 - n on. -/
def ctzN (x : W64) : Nat → Nat
  | 0 => 0
  | n + 1 => if x.getLsbD (63 - n) then 0 else ctzN x n + 1

def minS (x y : W64) : W64 := if y.slt x then y else x
def maxS (x y : W64) : W64 := if x.slt y then y else x
def minU (x y : W64) : W64 := if y.ult x then y else x
def maxU (x y : W64) : W64 := if x.ult y then y else x

/-- A field of len bits at pos, as a number (R170). -/
def fieldOf (x : W64) (pos len : Nat) : Nat := x.toNat / 2 ^ pos % 2 ^ len

/-- A word with a field replaced (R170). -/
def insertField (x v : W64) (pos len : Nat) : W64 :=
  let m : W64 := BitVec.ofNat 64 ((2 ^ len - 1) * 2 ^ pos)
  (x &&& ~~~m) ||| ((v <<< pos) &&& m)

-- Register-to-register (R164)

def execNop (s : State) : Out := .next s
def execAdd (d a b : Reg) (s : State) : Out := .next (s.later d (s.rd a + s.rd b) 1)
def execSub (d a b : Reg) (s : State) : Out := .next (s.later d (s.rd a - s.rd b) 1)
def execMul (d a b : Reg) (s : State) : Out := .next (s.later d (s.rd a * s.rd b) 3)
def execMulh (d a b : Reg) (s : State) : Out := .next (s.later d (mulHigh (s.rd a) (s.rd b)) 3)
def execMulhn (d a b : Reg) (s : State) : Out := .next (s.later d (mulHighN (s.rd a) (s.rd b)) 3)
def execDiv (d a b : Reg) (s : State) : Out := .next (s.later d (divS (s.rd a) (s.rd b)) 18)
def execDivn (d a b : Reg) (s : State) : Out := .next (s.later d (divU (s.rd a) (s.rd b)) 18)
def execRem (d a b : Reg) (s : State) : Out := .next (s.later d (remS (s.rd a) (s.rd b)) 18)
def execRemn (d a b : Reg) (s : State) : Out := .next (s.later d (remU (s.rd a) (s.rd b)) 18)
def execAnd (d a b : Reg) (s : State) : Out := .next (s.later d (s.rd a &&& s.rd b) 1)
def execOr (d a b : Reg) (s : State) : Out := .next (s.later d (s.rd a ||| s.rd b) 1)
def execXor (d a b : Reg) (s : State) : Out := .next (s.later d (s.rd a ^^^ s.rd b) 1)
def execAndn (d a b : Reg) (s : State) : Out := .next (s.later d (s.rd a &&& ~~~s.rd b) 1)
def execShl (d a b : Reg) (s : State) : Out := .next (s.later d (s.rd a <<< shamt (s.rd b)) 1)
def execShr (d a b : Reg) (s : State) : Out := .next (s.later d (s.rd a >>> shamt (s.rd b)) 1)
def execSar (d a b : Reg) (s : State) : Out := .next (s.later d ((s.rd a).sshiftRight (shamt (s.rd b))) 1)
def execRotl (d a b : Reg) (s : State) : Out := .next (s.later d ((s.rd a).rotateLeft (shamt (s.rd b))) 1)
def execClz (d a : Reg) (s : State) : Out := .next (s.later d (w64 (clzN (s.rd a) 64)) 1)
def execCtz (d a : Reg) (s : State) : Out := .next (s.later d (w64 (ctzN (s.rd a) 64)) 1)
def execPopc (d a : Reg) (s : State) : Out := .next (s.later d (w64 (popcount (s.rd a).toNat 64)) 1)
def execMin (d a b : Reg) (s : State) : Out := .next (s.later d (minS (s.rd a) (s.rd b)) 1)
def execMax (d a b : Reg) (s : State) : Out := .next (s.later d (maxS (s.rd a) (s.rd b)) 1)
def execMinn (d a b : Reg) (s : State) : Out := .next (s.later d (minU (s.rd a) (s.rd b)) 1)
def execMaxn (d a b : Reg) (s : State) : Out := .next (s.later d (maxU (s.rd a) (s.rd b)) 1)

-- Immediates (R166)

def execAddi (d a : Reg) (i : BitVec 14) (s : State) : Out := .next (s.later d (s.rd a + imm14 i) 1)
def execAndi (d a : Reg) (i : BitVec 14) (s : State) : Out := .next (s.later d (s.rd a &&& imm14 i) 1)
def execOri (d a : Reg) (i : BitVec 14) (s : State) : Out := .next (s.later d (s.rd a ||| imm14 i) 1)
def execXori (d a : Reg) (i : BitVec 14) (s : State) : Out := .next (s.later d (s.rd a ^^^ imm14 i) 1)
def execShli (d a : Reg) (n : BitVec 6) (s : State) : Out := .next (s.later d (s.rd a <<< n.toNat) 1)
def execShri (d a : Reg) (n : BitVec 6) (s : State) : Out := .next (s.later d (s.rd a >>> n.toNat) 1)
def execSari (d a : Reg) (n : BitVec 6) (s : State) : Out := .next (s.later d ((s.rd a).sshiftRight n.toNat) 1)

-- Comparison and selection (R167, R168)

def execCmp (c : IntCond) (d a b : Reg) (s : State) : Out :=
  .next (s.later d (boolW (c.holds (s.rd a) (s.rd b))) 1)
def execCmpi (c : IntCond) (d a : Reg) (i : BitVec 14) (s : State) : Out :=
  .next (s.later d (boolW (c.holds (s.rd a) (imm14 i))) 1)
def execSel (d a b c : Reg) (s : State) : Out :=
  .next (s.later d (if s.rd c ≠ 0 then s.rd a else s.rd b) 1)

-- Constants (R169)

def execMovi (d : Reg) (i : BitVec 20) (s : State) : Out := .next (s.later d (imm20s i) 1)
def execOrhi (d : Reg) (i : BitVec 16) (h : BitVec 2) (s : State) : Out :=
  .next (s.later d (s.rd d ||| (i.setWidth 64 <<< (16 * h.toNat))) 1)

-- Bit fields and addresses (R170 to R172)

def execBfx (d a : Reg) (pos lenM1 : BitVec 6) (s : State) : Out :=
  .next (s.later d (w64 (fieldOf (s.rd a) pos.toNat (lenM1.toNat + 1))) 1)
def execBfxs (d a : Reg) (pos lenM1 : BitVec 6) (s : State) : Out :=
  .next (s.later d (w64i (sext (lenM1.toNat + 1) (fieldOf (s.rd a) pos.toNat (lenM1.toNat + 1)))) 1)
def execBfi (d a : Reg) (pos lenM1 : BitVec 6) (s : State) : Out :=
  .next (s.later d (insertField (s.rd d) (s.rd a) pos.toNat (lenM1.toNat + 1)) 1)
def execBset (d a : Reg) (n : BitVec 6) (s : State) : Out :=
  .next (s.later d (s.rd a ||| ((1 : W64) <<< n.toNat)) 1)
def execBclr (d a : Reg) (n : BitVec 6) (s : State) : Out :=
  .next (s.later d (s.rd a &&& ~~~((1 : W64) <<< n.toNat)) 1)
def execLea (d a b : Reg) (sh : BitVec 3) (s : State) : Out :=
  .next (s.later d (s.rd a + (s.rd b <<< sh.toNat)) 1)

end Sys2Proof.Machine
end

