-- ==== Sys2Proof/Machine/System.lean ====
section
/-!
DEFINITION. Machine/System.lean: configuration records, control registers, mailboxes, the capability list, random draws, and
what each late write does when it lands (R155 to R159, R198 to R205, R250, R399, R410, R440, R452).
-/
namespace Sys2Proof.Machine

-- Configuration (R198, R199)

def execMcfg (r a : BitVec 6) (w : BitVec 8) (s : State) : Out := .next (s.lateW (.mn r.toNat w.toNat (s.rd a)))
def execVcfg (r a : BitVec 6) (w : BitVec 8) (s : State) : Out := .next (s.lateW (.ch r.toNat w.toNat (s.rd a)))
def execDcfg (r a : BitVec 6) (w : BitVec 8) (s : State) : Out := .next (s.lateW (.dd r.toNat w.toNat (s.rd a)))
def execTirw (r a : BitVec 6) (w : BitVec 8) (s : State) : Out := .next (s.lateW (.ti r.toNat w.toNat (s.rd a)))
def execTirr (d r : BitVec 6) (w : BitVec 8) (s : State) : Out :=
  .next (s.later d (Regs.rd s.tile.dr.ti (8 * r.toNat + w.toNat)) 1)
def execFmtw (r a : BitVec 6) (s : State) : Out := .next (s.lateW (.ft r.toNat (s.rd a)))
def execRingw (r a : BitVec 6) (w : BitVec 8) (s : State) : Out := .next (s.lateW (.rg r.toNat w.toNat (s.rd a)))
def execRingr (d r : BitVec 6) (w : BitVec 8) (s : State) : Out :=
  .next (s.later d (Regs.rd s.tile.dr.rg (4 * r.toNat + w.toNat)) 1)

-- Control registers (R155, R202)

def State.krdCheck (s : State) (k : Nat) : Verdict := failIf (!s.inK && uHidden k) (sFault .privilege (w64 k))

/-- KWR in U is for fpcsr alone (R155). -/
def State.kwrCheck (s : State) (k : Nat) : Verdict := failIf (!s.inK && k != kFpcsr) (sFault .privilege (w64 k))

def execKrd (d : Reg) (k : BitVec 8) (s : State) : Out :=
  s.issue (s.krdCheck k.toNat) (s.later d (s.krdValue k.toNat) 1)

/-- A control register write, landing on the next cycle (R202). -/
def State.kwr (s : State) (k : Nat) (v : W64) : State := s.lateW (.ctl k v)

def execKwr (k : BitVec 8) (a : Reg) (s : State) : Out := s.issue (s.kwrCheck k.toNat) (s.kwr k.toNat (s.rd a))
def execKwrTimer (a : Reg) (s : State) : Out := s.issue (s.kwrCheck kTimer) (s.kwr kTimer (s.rd a))
def execKwrPoolscope (a : Reg) (s : State) : Out := s.issue (s.kwrCheck kPoolscope) (s.kwr kPoolscope (s.rd a))
def execKwrLosssel (a : Reg) (s : State) : Out := s.issue (s.kwrCheck 0x77) (s.kwr 0x77 (s.rd a))
def execKwrLossval (a : Reg) (s : State) : Out := s.issue (s.kwrCheck 0x78) (s.kwr 0x78 (s.rd a))
def execKwrTrcemit (a : Reg) (s : State) : Out := s.issue (s.kwrCheck 0x79) (s.kwr 0x79 (s.rd a))
def execKwrWdesc (w : BitVec 6) (a : Reg) (s : State) : Out :=
  s.issue (s.kwrCheck (kWdesc + w.toNat)) (s.kwr (kWdesc + w.toNat) (s.rd a))
def execKwrWmap (w : BitVec 6) (a : Reg) (s : State) : Out :=
  s.issue (s.kwrCheck (kWmap + w.toNat)) (s.kwr (kWmap + w.toNat) (s.rd a))

/-- syncrst of a fold: this member has written; the last write of all members fixes the cycle of the reset (R410). -/
def State.syncrstFold (s : State) (f : Nat) : State :=
  s.modPad fun p =>
    { p with folds := FMap.modify p.folds f fun o =>
        if o.members.contains s.cur.tile then
          let w := nsAdd o.rewrote s.cur.tile
          if o.members.all w.contains then { o with rewrote := [], resetAt := some (p.rtick + o.lat) }
          else { o with rewrote := w }
        else o }

def execKwrSyncrstFold (a : Reg) (s : State) : Out :=
  s.issue (s.kwrCheck 0x66) (s.syncrstFold (bits (s.rd a) 7 0))

def execKwrSyncrstWindow (a : Reg) (s : State) : Out := s.issue (s.kwrCheck 0x66) (s.kwr 0x66 (s.rd a))

-- Mailboxes (R158, R203)

def execMbrd (d : Reg) (n : BitVec 4) (s : State) : Out := .next (s.later d (Regs.rd s.tile.mbox n.toNat) 1)

def State.mbwrCheck (s : State) : Verdict := failIf (!s.inK) (sFault .privilege 0)

def execMbwr (n : BitVec 4) (a : Reg) (s : State) : Out := s.issue s.mbwrCheck (s.lateW (.mbox n.toNat (s.rd a)))

-- Capability list (R204)

/-- The list offset CAPRD reads. -/
def State.capOff (s : State) (a : Reg) (k : BitVec 14) : W64 := s.rd a + 8 * imm14 k

def State.capCheck (s : State) (a : Reg) (k : BitVec 14) : Verdict :=
  failIf (decide ((s.capOff a k).toNat % 8 ≠ 0)) (sFault .misalign (s.capOff a k))

def execCaprd (d a : Reg) (k : BitVec 14) (s : State) : Out :=
  s.issue (s.capCheck a k)
    (s.later d (if 4096 ≤ (s.capOff a k).toNat then 0 else capWord s.panel.retire2 (s.capOff a k).toNat) 1)

-- Random draws (R205)

/-- The Philox counter of SRNG. -/
def State.srngCtr (s : State) (stream : BitVec 7) (x : W64) : Nat :=
  stream.toNat * 2 ^ 96 + s.cur.tile * 2 ^ 64 + x.toNat

def execSrng (hi : Bool) (stream : BitVec 7) (d a b : Reg) (s : State) : Out :=
  let z := philox (s.rd a) (s.srngCtr stream (s.rd b))
  .next (s.later d (if hi then w64 (z / 2 ^ 64) else w64 z) 3)

-- Landing (R199)

/-- A field map of poolscope: a field of 3 keeps the old one, pen fields stay (R250). -/
def poolscopeWrite (sh : Shape) (old new : W64) : Nat → W64
  | 0 => old
  | g + 1 =>
    let w := poolscopeWrite sh old new g
    let v := bits new (2 * g + 1) (2 * g)
    if v = 3 ∨ sh.area (g * 65536) = .pen then w else setBits w (2 * g + 1) (2 * g) v

/-- A wdesc write that sets VALID stands only with a legal kind and a sender count for an ordered window (R399). -/
def wdescOk (v : W64) : Bool := !bit v 63 || (bits v 62 61 != 3 && (bits v 62 61 != 2 || bits v 47 32 != 0))

def wdescMask : W64 := span 63 56 ||| span 47 0
def wmapMask : W64 := span 63 61 ||| span 53 0

/-- Another tile of the panel is the home of window w for the same PEER (R399). -/
def State.homeTaken (s : State) (w : Nat) (peer : Nat) : Bool :=
  s.pads.any fun e =>
    (e.2.state == .running || e.2.state == .preempted || e.2.state == .halted) &&
      e.2.tiles.any fun t =>
        !(e.1 == s.cur.pad && t.1 == s.cur.tile) && bit (Regs.rd t.2.ctl (kWmap + w)) 63 &&
          bits (Regs.rd t.2.ctl (kWdesc + w)) 15 0 == peer

/-- A wmap write that sets VALID stands only with a legal size and base and no other home (R399). -/
def State.wmapOk (s : State) (w : Nat) (v : W64) : Bool :=
  !bit v 63 || (decide (6 ≤ bits v 53 48 ∧ bits v 53 48 ≤ 36 ∧ bits v 47 0 % 64 = 0) &&
    !s.homeTaken w (bits (s.ctl (kWdesc + w)) 15 0))

/-- A window of this tile starts afresh (R410). -/
def Sync.resetWindow (y : Sync) (w : Nat) : Sync :=
  { y with wsent := FMap.del y.wsent w, wrecv := FMap.del y.wrecv w, 
           rounds := FMap.del (FMap.del y.rounds w) (64 + w), contribs := y.contribs.filter fun c => c.window != w,
           wpoison := nsDel y.wpoison w }

/-- A control register write lands (R155, Table 6-6 and the chapters that number registers). -/
def State.landCtl (s : State) (k : Nat) (v : W64) : State :=
  if k = 0x04 then s.modCore fun c => { c with tie := bit v 4, ppriv := bit v 1 }
  else if k = kTimer then
    s.setCtl kTimer (if bit v 63 then v &&& span 62 0 else (v &&& span 62 0) ||| (s.ctl kTimer &&& span 63 63))
  else if k = kPoolscope then s.setCtl kPoolscope (poolscopeWrite s.pad.shape (s.ctl kPoolscope) v 32)
  else if k = 0x60 then s.modSync fun y => if bit v 63 then { y with ovf := false } else y
  else if k = 0x66 then
    if bits v 15 8 = 3 ∧ bits v 7 0 < 64 then s.modSync fun y => y.resetWindow (bits v 7 0) else s
  else if k = 0x77 then
    s.modTile fun t =>
      let o := { t.obs with losssel := v &&& (span 62 62 ||| span 8 0) }
      { t with obs := if bit v 63 then { o with snaps := o.counters } else o }
  else if k = 0x78 then
    s.modTile fun t =>
      let i := bits t.obs.losssel 8 0
      if lossAssigned i then { t with obs := { t.obs with counters := FMap.put t.obs.counters i v } } else t
  else if k = 0x79 then s.traceTile 7 0 s.recordTime v
  else if kWdesc ≤ k ∧ k < kWmap then
    if wdescOk v then s.setCtl k (v &&& wdescMask) else s
  else if kWmap ≤ k then
    if s.wmapOk (k - kWmap) v then s.setCtl k (v &&& wmapMask) else s
  else if ctlMask k = 0 then s
  else s.setCtl k (maskWrite (s.ctl k) v (ctlMask k))

/-- A write lands (R199, R202, R203, R228). -/
def State.land (s : State) (l : Late) : State :=
  match l with
  | .ctl k v => s.landCtl k v
  | .mn r w v => s.modTile fun t => { t with mx := { t.mx with mn := FMap.put t.mx.mn (24 * r + w) (v &&& mnMask w) } }
  | .ch r w v => s.modTile fun t => { t with vec := { t.vec with ch := FMap.put t.vec.ch (16 * r + w) (v &&& chMask w) } }
  | .dd r w v => s.modTile fun t => { t with dr := { t.dr with dd := FMap.put t.dr.dd (8 * r + w) (v &&& ddMask w) } }
  | .ti r w v => s.modTile fun t => { t with dr := { t.dr with ti := FMap.put t.dr.ti (8 * r + w) (v &&& tiMask w) } }
  | .ft r v => s.modTile fun t => { t with mx := { t.mx with ft := FMap.put t.mx.ft r (v &&& ftMask) } }
  | .rg r w v =>
    if w = 3 then s
    else s.modTile fun t => { t with dr := { t.dr with rg := FMap.put t.dr.rg (4 * r + w) (v &&& rgMask w) } }
  | .mbox n v => s.modTile fun t => { t with mbox := FMap.put t.mbox n v }
  | .cstore _ _ => s
  | .bind _ _ => s

/-- A write that stands against the engines' own update of its cycle (R199, R345, R440). -/
def Late.wins : Late → Bool
  | .ti _ _ _ => true
  | .rg _ _ _ => true
  | .ctl k _ => k == 0x59 || k == 0x78
  | _ => false

end Sys2Proof.Machine
end

