-- ==== Sys2Proof/Machine/Ustore.lean ====
section
/-!
DEFINITION. Machine/Ustore.lean: the writable control store: micro-operation words, what MSBIND checks, how a bound sequence
runs, MSLOAD, MSBIND, MSRD and UOPn (R207 to R230).
-/
namespace Sys2Proof.Machine

-- Words (R209, Table 8-2)

/-- A micro-operation as its fields. -/
structure Uop where
  code : Nat
  dst : Nat
  sa : Nat
  sb : Nat
  fn : Nat
  imm : Nat
  deriving DecidableEq, Repr

def uopOf (w : W64) : Uop :=
  { code := bits w 63 58, dst := bits w 57 54, sa := bits w 53 50, sb := bits w 49 46, fn := bits w 45 40,
    imm := bits w 31 0 }

-- Codes named by the checks (Table 8-4)
def uULD : Nat := 0x1D
def uUST : Nat := 0x1E
def uUBR : Nat := 0x1F
def uUREP : Nat := 0x20
def uUCMT : Nat := 0x21

def Uop.writes (u : Uop) : Bool := decide (1 ≤ u.code ∧ u.code ≤ 0x1D)

def Uop.usesA (u : Uop) : Bool :=
  decide (1 ≤ u.code ∧ u.code ≤ 0x1E) || (u.code == uUBR && u.fn != 0) || (u.code == uUCMT && u.fn == 1)

def Uop.usesB (u : Uop) : Bool :=
  decide (1 ≤ u.code ∧ u.code ≤ 0x10) || u.code == 0x16 || u.code == 0x17 || u.code == 0x19 || u.code == 0x1A ||
    u.code == 0x1B || u.code == uUST

/-- The position and length of a bit-field micro-operation (R210). -/
def Uop.pos (u : Uop) : Nat := u.imm % 64
def Uop.len (u : Uop) : Nat := u.imm / 256 % 64 + 1

def Uop.bitField (u : Uop) : Bool := decide (0x13 ≤ u.code ∧ u.code ≤ 0x15)

/-- IMM has a meaning of its own (R213). -/
def Uop.ownImm (u : Uop) : Bool := u.bitField || u.code == uULD || u.code == uUST || u.code == uUBR || u.code == uUREP

/-- FN obeys Table 8-4 and R211, R212. -/
def Uop.fnOk (u : Uop) : Bool :=
  if u.code = 0x16 then decide (u.fn ≤ 5)
  else if u.code = 0x17 then decide (u.fn ≤ 7)
  else if u.code = 0x18 then true
  else if u.code = 0x19 ∨ u.code = 0x1A ∨ u.code = 0x1B then decide (u.fn < 8)
  else if u.code = 0x1C then decide (u.fn % 8 ≤ 5 ∧ u.fn < 32)
  else if u.code = uULD then decide (u.fn ≤ 6)
  else if u.code = uUST then decide (u.fn ≤ 3)
  else if u.code = uUBR then decide (u.fn ≤ 2)
  else if u.code = uUCMT then decide (u.fn ≤ 1)
  else u.fn == 0

/-- IMM obeys R210, and is zero where nothing uses it (R213). -/
def Uop.immOk (u : Uop) : Bool :=
  if u.bitField then
    decide (u.imm = u.pos + 256 * (u.len - 1) ∧ u.pos + u.len ≤ 64)
  else if u.ownImm then true
  else if (u.usesA && u.sa == 11) || (u.usesB && u.sb == 11) then true
  else u.imm == 0

/-- A used selector names something; ULD and UST may not name IMM; an unused one is 0 (R209, R212). -/
def Uop.selOk (u : Uop) (uses : Bool) (sel : Nat) : Bool :=
  if uses then decide (sel ≤ 12) && !(sel == 11 && (u.code == uULD || u.code == uUST)) else sel == 0

/-- A well-formed micro-operation word (R213). -/
def uopWf (w : W64) : Bool :=
  let u := uopOf w
  decide (u.code ≤ 0x21) && bits w 39 32 == 0 && u.fnOk && u.immOk && u.selOk u.usesA u.sa && u.selOk u.usesB u.sb &&
    (if u.writes then decide (u.dst ≤ 7) else u.dst == 0)

-- The checks of MSBIND (R216 to R223)

/-- The first position of a list of micro-operations that a test picks, from position i on. -/
def firstAt (p : Nat → Uop → Bool) : List Uop → Nat → Option Nat
  | [], _ => none
  | u :: us, i => if p i u then some i else firstAt p us (i + 1)

/-- The n-th (from 0) position with a code. -/
def nthCode (code : Nat) : List Uop → Nat → Nat → Option Nat
  | [], _, _ => none
  | u :: us, i, n =>
    if u.code = code then (match n with
      | 0 => some i
      | m + 1 => nthCode code us (i + 1) m)
    else nthCode code us (i + 1) n

/-- The lowest position that breaks the commit group (R221, R223). -/
def commitBad (us : List Uop) : Option Nat :=
  match nthCode uUCMT us 0 0 with
  | none => some (us.length - 1)
  | some q => firstAt (fun i u => (decide (i < q) && u.code == uUST) || (decide (q < i) && u.code != uUST)) us 0

/-- Block of a UREP at position i: its first position and one past its last (R217). -/
def Uop.blockEnd (u : Uop) (i : Nat) : Nat := i + 1 + u.imm / 256 % 256

/-- A position lies in the block of some UREP. -/
def inBlock (us : List Uop) (t : Nat) : Bool :=
  (firstAt (fun i u => u.code == uUREP && decide (i < t ∧ t < u.blockEnd i)) us 0).isSome

/-- The first UBR that breaks R216; one that stands in the block of its target too (log entry 70). -/
def branchBad (us : List Uop) (q : Nat) : Option Nat :=
  firstAt (fun i u => u.code == uUBR && (u.imm == 0 || decide (q < i + u.imm) || inBlock us (i + u.imm))) us 0

/-- The lowest position that breaks R217. -/
def repeatBad (us : List Uop) (q : Nat) : Option Nat :=
  firstAt (fun i u =>
    (u.code == uUREP && (u.imm % 256 == 0 || u.imm / 256 % 256 == 0 || decide (16 < u.imm / 256 % 256) ||
      decide (65536 ≤ u.imm) || decide (q < u.blockEnd i))) ||
    (decide (0x1C < u.code) && inBlock us i)) us 0

/-- The fifth ULD or the third UST, whichever stands lower (R221, R223). -/
def accessBad (us : List Uop) : Option Nat :=
  match nthCode uULD us 0 4, nthCode uUST us 0 2 with
  | some a, some b => some (Nat.min a b)
  | a, b => a.or b

/-- Shortest and longest path lengths from each position on, the first position first (R218). -/
def pathTable : List Uop → List (Nat × Nat)
  | [] => [(0, 0)]
  | u :: us =>
    let t := pathTable us
    let nxt := fun (k : Nat) => t.getD (k - 1) (0, 0)
    let one := nxt 1
    let here : Nat × Nat :=
      if u.code = uUBR then
        let j := nxt u.imm
        if u.fn = 0 then (1 + j.1, 1 + j.2) else (1 + Nat.min one.1 j.1, 1 + Nat.max one.2 j.2)
      else if u.code = uUREP then
        let m := u.imm / 256 % 256
        let j := nxt (m + 1)
        (1 + u.imm % 256 * m + j.1, 1 + u.imm % 256 * m + j.2)
      else (1 + one.1, 1 + one.2)
    here :: t

/-- Status, index and cycle count of a binding (Table 8-5). -/
structure BindRes where
  status : Nat
  index : Nat
  cyc : Nat
  deriving DecidableEq, Repr

/-- The reserved bits of an entry (Table 8-1). -/
def entryReserved : W64 := span 60 48 ||| span 31 23 ||| span 15 12

/-- The words of a sequence in a store, codes met (R238). -/
def Store.sequence (st : Store) (start len : Nat) : List W64 := (List.range len).map fun i => st.word (8 * (start + i))

/-- The checks of R222 on a source word with VALID set. -/
def bindChecks (st : Store) (w : W64) : BindRes :=
  let bad := fun (status index : Nat) => ({ status := status, index := index, cyc := 0 } : BindRes)
  let len := bits w 22 16
  let start := bits w 11 0
  if w &&& entryReserved ≠ 0 then bad 1 0
  else if len = 0 ∨ 64 < len ∨ 4096 < start + len then bad 2 0
  else
    let ws := st.sequence start len
    let us := ws.map uopOf
    match ws.findIdx? fun x => !uopWf x with
    | some i => bad 3 i
    | none =>
      match commitBad us with
      | some i => bad 4 i
      | none =>
        let q := (nthCode uUCMT us 0 0).getD 0
        match branchBad us q with
        | some i => bad 5 i
        | none =>
          match repeatBad us q with
          | some i => bad 6 i
          | none =>
            match accessBad us with
            | some i => bad 7 i
            | none =>
              let p := (pathTable us).headD (0, 0)
              if p.1 ≠ p.2 ∧ !bit w 62 then bad 8 ((firstAt (fun _ u => u.code == uUBR && u.fn != 0) us 0).getD 0)
              else { status := 0, index := 0, cyc := p.2 }

/-- An entry after binding a source word, and msbstat (R229). -/
def bindEntry (st : Store) (old w : W64) : W64 × W64 :=
  if !bit w 63 then (0, 0)
  else
    let r := bindChecks st w
    if r.status = 0 then (setBits w 47 32 r.cyc, fld (r.cyc % 65536) 32)
    else (old, fld r.index 16 ||| fld r.status 0)

-- MSLOAD, MSBIND, MSRD (R228 to R230)

/-- A store offset lies in the sequence of a valid entry. -/
def Stores.bound (st : Stores) (off : Nat) : Bool :=
  st.binds.any fun e => bit e.2 63 && decide (bits e.2 11 0 ≤ off ∧ off < bits e.2 11 0 + bits e.2 22 16)

def State.msloadCheck (s : State) (x : W64) : Verdict :=
  (failIf (!s.inK) (sFault .privilege 0)).or
    (failIf (decide (4096 ≤ x.toNat) || s.tile.st.bound x.toNat) (sFault .protection x))

def execMsload (a b : Reg) (s : State) : Out :=
  s.issue (s.msloadCheck (s.rd a)) (s.lateW (.cstore (s.rd a).toNat (s.rd b)))

def execMsbind (n a : BitVec 6) (s : State) : Out :=
  s.issue (failIf (!s.inK) (sFault .privilege 0)) (s.lateW (.bind n.toNat (s.rd a)))

def State.msrdCheck (s : State) (entry : Bool) (x : W64) : Verdict :=
  (failIf (!s.inK) (sFault .privilege 0)).or
    (failIf (decide ((if entry then 64 else 4096) ≤ x.toNat)) (sFault .protection x))

/-- The current tile's control store. -/
def State.setCstore (s : State) (st : Store) : State := s.modTile fun t => { t with st := { t.st with cstore := st } }

/-- MSRD.STORE: the word; a poisoned one raises DATA_POISON with its store offset, as a scalar load's does, and writes nothing (R238). -/
def State.readCstore (s : State) (d : Reg) (x : Nat) : State :=
  let r := s.tile.st.cstore.read (8 * x) 8
  match r.2 with
  | .error _ => (s.setCstore r.1).cond (sFault .dataPoison (w64 x))
  | .ok bs => (s.setCstore r.1).later d (w64 (leNat bs)) 1

def execMsrd (entry : Bool) (d a : Reg) (s : State) : Out :=
  let x := (s.rd a).toNat
  s.issue (s.msrdCheck entry (s.rd a))
    (if entry then s.later d (Regs.rd s.tile.st.binds x) 1 else s.readCstore d x)

/-- A binding whose checks read the sequence: its words meet their codes; a poisoned one raises DATA_POISON with its store offset and binds
nothing (R229, R238). -/
def State.landBind (s : State) (n : Nat) (v : W64) : State :=
  let reads := bit v 63 && v &&& entryReserved == 0 && decide (bits v 22 16 ≤ 64 ∧ bits v 11 0 + bits v 22 16 ≤ 4096)
  let r := s.tile.st.cstore.read (8 * bits v 11 0) (if reads then 8 * bits v 22 16 else 0)
  match r.2 with
  | .error a => (s.setCstore r.1).cond (sFault .dataPoison (w64 (a / 8)))
  | .ok _ =>
    (s.setCstore r.1).modTile fun t =>
      let b := bindEntry t.st.cstore (Regs.rd t.st.binds n) v
      { t with st := { t.st with binds := FMap.put t.st.binds n b.1 } }.setCtl kMsbstat b.2

/-- A control store write or a binding lands (R228, R229). -/
def State.landStore (s : State) (l : Late) : State :=
  match l with
  | .cstore off v =>
    s.setCstore (s.tile.st.cstore.put (8 * off) (natLE 8 v.toNat))
  | .bind n v => s.landBind n v
  | l => s.land l

-- Running (R214 to R220)

/-- The value a selector reads. -/
def UopRun.sel (r : UopRun) (u : Uop) (k : Nat) : W64 :=
  if k < 8 then Regs.rd r.temps k
  else if k = 8 then r.a
  else if k = 9 then r.b
  else if k = 10 then r.di
  else if k = 11 then w64i (sext 32 u.imm)
  else 0

/-- A temporary written after a latency. -/
def UopRun.write (r : UopRun) (t : Nat) (v : W64) (lat : Nat) (fl : BitVec 7) : UopRun :=
  { r with tpend := r.tpend ++ [{ reg := BitVec.ofNat 6 t, val := v, left := lat, flags := fl }], flags := r.flags ||| fl }

/-- The conversions of UFCVT: source and target (R211). -/
def ufcvtPair : Nat → Fmt × Fmt
  | 0 => (Fmt.sint 64, Fmt.f32)
  | 1 => (Fmt.sint 64, Fmt.f64)
  | 2 => (Fmt.f32, Fmt.sint 64)
  | 3 => (Fmt.f64, Fmt.sint 64)
  | 4 => (Fmt.f64, Fmt.f32)
  | _ => (Fmt.f32, Fmt.f64)

def uMode : Nat → Rnd
  | 0 => .rne | 1 => .rtz | 2 => .rdn | _ => .rup

def uFmt (fn : Nat) : Fmt := if fn % 2 = 0 then Fmt.f32 else Fmt.f64

/-- USAT (Table 8-4). -/
def uSat (x : W64) (w : Nat) : W64 :=
  let hi : Int := 2 ^ (w - 1) - 1
  let lo : Int := -2 ^ (w - 1)
  w64i (max lo (min hi x.toInt))

/-- Result, flags and latency of a micro-operation that computes (codes 0x01 to 0x1C of Table 8-4), t the old value of its
destination and tk that of the temporary USEL tests. -/
def Uop.compute (u : Uop) (x y t tk : W64) : W64 × BitVec 7 × Nat :=
  let plain := fun (v : W64) (lat : Nat) => (v, (0 : BitVec 7), lat)
  let fp := fun (f : Fmt) (r : FRes) (lat : Nat) => (scalarResult f r.pat, r.fl, lat)
  let f := uFmt u.fn
  let md := uMode (u.fn / 2 % 4)
  match u.code with
  | 0x01 => plain (x + y) 1
  | 0x02 => plain (x - y) 1
  | 0x03 => plain (x * y) 3
  | 0x04 => plain (mulHigh x y) 3
  | 0x05 => plain (x &&& y) 1
  | 0x06 => plain (x ||| y) 1
  | 0x07 => plain (x ^^^ y) 1
  | 0x08 => plain (x &&& ~~~y) 1
  | 0x09 => plain (x <<< shamt y) 1
  | 0x0A => plain (x >>> shamt y) 1
  | 0x0B => plain (x.sshiftRight (shamt y)) 1
  | 0x0C => plain (x.rotateLeft (shamt y)) 1
  | 0x0D => plain (minS x y) 1
  | 0x0E => plain (maxS x y) 1
  | 0x0F => plain (minU x y) 1
  | 0x10 => plain (maxU x y) 1
  | 0x11 => plain (w64 (clzN x 64)) 1
  | 0x12 => plain (w64 (popcount x.toNat 64)) 1
  | 0x13 => plain (w64 (fieldOf x u.pos u.len)) 1
  | 0x14 => plain (w64i (sext u.len (fieldOf x u.pos u.len))) 1
  | 0x15 => plain (insertField t x u.pos u.len) 1
  | 0x16 => plain (boolW (((IntCond.ofCode u.fn).getD .eq).holds x y)) 1
  | 0x17 => plain (if tk ≠ 0 then x else y) 1
  | 0x18 => plain (uSat x (u.fn + 1)) 1
  | 0x19 => fp f (fAdd f md (scalarBits f x) (scalarBits f y)) 4
  | 0x1A => fp f (fMul f md (scalarBits f x) (scalarBits f y)) 4
  | 0x1B => fp f (fFma f md (scalarBits f x) (scalarBits f y) (scalarBits f t)) (if u.fn % 2 = 0 then 5 else 6)
  | _ =>
    let c := ufcvtPair (u.fn % 8)
    fp c.2 (convert c.1 c.2 (scalarBits c.1 x) (uMode (u.fn / 8 % 4))) 4

/-- Width and sign of a ULD (R212). -/
def uldWidth : Nat → Width × Bool
  | 0 => (.b1, true) | 1 => (.b2, true) | 2 => (.b4, true) | 3 => (.b8, true)
  | 4 => (.b1, false) | 5 => (.b2, false) | _ => (.b4, false)

/-- The fault a ULD meets at its micro-cycle, or whether it waits for HBM (R212, R214, R252). -/
def State.uldCheck (s : State) (ea : W64) (n : Nat) : Except FaultInfo Bool :=
  if ea.toNat % n ≠ 0 then .error (sFault .misalign ea)
  else if s.loadOk ea.toNat n then .ok false
  else
    match s.pad.shape.target s.cur.tile ea.toNat with
    | .hbm page _ =>
      let e := s.pad.hbmEntry page
      if s.strict || entryDenies e s.pad.shape.world s.inK { rd := true, wr := false, xl := false } then
        .error (sFault .protection ea)
      else if !bit e 63 then .error (sFault .page ea)
      else .ok true
    | _ => .error (sFault .protection ea)

/-- Cycles an HBM access takes: at least 120, within the band of Table 11-5 for the bytes it moves on one channel, and more cycles
where R287 adds them. -/
def hbmLat (draw bytes more : Nat) : Nat := 120 + Config.latency draw % (1081 + ceilDiv bytes 32 + more)

/-- A fault of a store of a commit group, as visible at the UCMT (R220). -/
def State.ustCheck (s : State) (ea : W64) (n : Nat) : Verdict :=
  let off := s.ownOff ea.toNat
  let sync := !s.inK && s.pad.shape.isSyncWord s.cur.tile ea.toNat
  (s.memCheck ea n (s.storeOk ea.toNat n)).or
    (failIf ((decide (n < 8) || sync) && (s.tile.st.pool.poisoned off n).isSome)
      (sFault (if sync then .syncPoison else .dataPoison) ea))

def UopRun.start (r : UopRun) : Nat := bits r.entry 11 0
def UopRun.seqLen (r : UopRun) : Nat := bits r.entry 22 16
def UopRun.cyc (r : UopRun) : Nat := bits r.entry 47 32

/-- The micro-operation at a position. -/
def State.uopAt (s : State) (r : UopRun) (pos : Nat) : Uop := uopOf (s.tile.st.cstore.word (8 * (r.start + pos)))

/-- Address and data of the stores that follow the UCMT at position q. -/
def State.commitStores (s : State) (r : UopRun) (q : Nat) : List (W64 × List Byte) :=
  (List.range (r.seqLen - (q + 1))).map fun i =>
    let u := s.uopAt r (q + 1 + i)
    (r.sel u u.sa + w64i (sext 32 u.imm), natLE (2 ^ u.fn) (r.sel u u.sb).toNat)

/-- Where the path goes after a position that is no branch (R217). -/
def UopRun.next (r : UopRun) (pos : Nat) : UopRun :=
  match r.rep with
  | some b =>
    if pos + 1 < b.first + b.len then { r with pos := pos + 1 }
    else if 1 < b.todo then { r with pos := b.first, rep := some { b with todo := b.todo - 1 } }
    else { r with pos := pos + 1, rep := none }
  | none => { r with pos := pos + 1 }

/-- What a micro-cycle does: go on with a run, or raise a fault. -/
inductive UStep where
  | go (s : State) (r : UopRun)
  | trap (f : FaultInfo)

/-- The address of a ULD of a run. -/
def UopRun.uldAddr (r : UopRun) (u : Uop) : W64 := r.sel u u.sa + w64i (sext 32 u.imm)

/-- One micro-operation of a run (R210 to R220). -/
def State.uop (s : State) (r : UopRun) (u : Uop) : UStep :=
  let x := r.sel u u.sa
  let y := r.sel u u.sb
  if u.code = 0 then .go s (r.next r.pos)
  else if u.code ≤ 0x1C then
    let v := u.compute x y (Regs.rd r.temps u.dst) (Regs.rd r.temps u.fn)
    .go s ((r.write u.dst v.1 v.2.2 v.2.1).next r.pos)
  else if u.code = uULD then
    let ea := r.uldAddr u
    let w := uldWidth u.fn
    match s.uldCheck ea w.1.bytes with
    | .error f => .trap f
    | .ok false => .go (s.access (.uld w.1 w.2 u.dst) ea.toNat) (r.next r.pos)
    | .ok true =>
      match r.hbmWait with
      | some _ => .go (s.access (.uld w.1 w.2 u.dst) ea.toNat) { r.next r.pos with hbmWait := none }
      | none => .go { s with free := s.free + 1 } { r with hbmWait := some (s.pad.rtick + hbmLat s.free w.1.bytes 0) }
  else if u.code = uUST then
    match r.stores with
    | (a, d) :: rest => .go (s.access (.ust d) a) { r.next r.pos with stores := rest }
    | [] => .go s (r.next r.pos)
  else if u.code = uUBR then
    let taken := u.fn == 0 || (u.fn == 1 && x != 0) || (u.fn == 2 && x == 0)
    .go s { r with pos := if taken then r.pos + u.imm else r.pos + 1 }
  else if u.code = uUREP then
    .go s { r with pos := r.pos + 1, rep := some { first := r.pos + 1, len := u.imm / 256 % 256, todo := u.imm % 256 } }
  else
    let sts := s.commitStores r r.pos
    match sts.foldl (fun (v : Verdict) st => v.or (s.ustCheck st.1 st.2.length)) .ok with
    | .fault f => .trap f
    | _ =>
      .go s { r.next r.pos with committed := true, stores := sts.map fun st => (st.1.toNat, st.2),
                                dval := if u.fn = 1 then some x else none }

/-- The end of a hold: D and the flags land with the next cycle, and the next bundle follows (R214, R220). -/
def State.uopEnd (s : State) (r : UopRun) : State :=
  let s := match r.dval with
    | some v => s.laterFl r.d v 1 r.flags
    | none => s.laterFl 0 0 1 r.flags
  (s.modCore fun c => { c with hold := .none }).finishBundle

/-- The run after a micro-cycle: its count advances, unless it waits for HBM, and the hold ends after the last one. -/
def State.uopAfter (s : State) (r : UopRun) : State :=
  match r.hbmWait with
  | some _ => s.modCore fun c => { c with hold := .uop r }
  | none =>
    if r.mc + 1 = r.cyc then s.uopEnd r
    else s.modCore fun c => { c with hold := .uop { r with mc := r.mc + 1 } }

/-- A micro-cycle of the current tile's run (R215, R219, R238): the micro-operation at its position, poison of its word
aside once committed, or idling under PAD. -/
def State.microCycle (s : State) (r : UopRun) : State :=
  if r.seqLen ≤ r.pos then s.uopAfter { r with pos := r.pos }
  else
    let rd := s.tile.st.cstore.read (8 * (r.start + r.pos)) 8
    let s := s.setCstore rd.1
    match rd.2 with
    | .error _ =>
      if r.committed then
        match s.uop r (s.uopAt r r.pos) with
        | .go s r => s.uopAfter r
        | .trap f => s.takeFault f
      else s.takeFault (sFault .dataPoison (w64 (r.start + r.pos)))
    | .ok _ =>
      match s.uop r (s.uopAt r r.pos) with
      | .go s r => s.uopAfter r
      | .trap f => s.takeFault f

/-- Issue checks of UOPn (R227, R432). -/
def State.uopnCheck (s : State) (n : BitVec 6) (d a b : Reg) : Verdict :=
  let e := Regs.rd s.tile.st.binds n.toNat
  ((s.noSvc .s (.uopn n d a b)).or (s.noDelay (.uopn n d a b))).or
    (failIf (bit e 61 && !s.inK) (sFault .privilege 0))

/-- A run at its micro-cycle 0. -/
def State.uopnRun (s : State) (n : BitVec 6) (d a b : Reg) : UopRun :=
  { n := n.toNat, entry := Regs.rd s.tile.st.binds n.toNat, d := d, a := s.rd a, b := s.rd b, di := s.rd d, mc := 0,
    pos := 0, rep := none, temps := [], tpend := [], flags := 0, committed := false, stores := [],
    dval := none, hbmWait := none }

/-- The hold begins; the bundle's last act is micro-cycle 0. -/
def execUopn (n : BitVec 6) (d a b : Reg) (s : State) : Out :=
  s.issue (s.uopnCheck n d a b) (s.modCore fun c => { c with hold := .uop (s.uopnRun n d a b) })

/-- HBM_DATA_ARRIVAL for a run that waits for it: the micro-operation issues on this cycle (R214). -/
def State.uopResume (s : State) : State :=
  match s.tile.core.hold with
  | .uop r =>
    match r.hbmWait with
    | some _ =>
      match s.uop r (s.uopAt r r.pos) with
      | .go s r => s.uopAfter r
      | .trap f => s.takeFault f
    | none => s
  | _ => s

end Sys2Proof.Machine
end

