-- ==== Sys2Proof/Machine/Access.lean ====
section
/-!
DEFINITION. Machine/Access.lean: what engine accesses share: tensor walks, the checks of a translated access, reading and
writing at a target, frames and their tags (R72, R239, R248, R252, R281, R282).
-/
namespace Sys2Proof.Machine

-- Tensor walks (R281, R282)

/-- A walk: base, then extent, stride and saved counter of each dimension from the innermost, and ESIZE. -/
structure Walk where
  base : Nat
  dims : List (Nat × Int × Nat)
  es : Nat
  deriving DecidableEq, Repr

/-- A walk from the eight words of a record; a broadcast dimension has stride 0. -/
def walkOf (ws : List W64) : Walk :=
  let w := fun (i : Nat) => ws.getD i 0
  let st := fun (k : Nat) =>
    if bit (w 5) (8 + k) then 0 else sext 32 (bits (w (2 + k / 2)) (32 * (k % 2) + 31) (32 * (k % 2)))
  { base := bits (w 0) 47 0, es := bits (w 5) 1 0,
    dims := (List.range 4).map fun k => (bits (w 1) (16 * k + 15) (16 * k), st k, bits (w 4) (16 * k + 15) (16 * k)) }

/-- The place of a walk's start in the full order of its indices. -/
def startOf : List (Nat × Int × Nat) → Nat
  | [] => 0
  | d :: ds => d.2.2 + d.1 * startOf ds

def Walk.total (k : Walk) : Nat := k.dims.foldl (fun n d => n * d.1) 1

/-- Elements of the walk. -/
def Walk.count (k : Walk) : Nat := k.total - startOf k.dims

/-- Extents are not 0 and saved counters lie below them. -/
def Walk.ok (k : Walk) : Bool := k.dims.all fun d => decide (d.2.2 < d.1)

/-- The index counters at a place of the order. -/
def digitsOf : List (Nat × Int × Nat) → Nat → List Nat
  | [], _ => []
  | d :: ds, l => l % d.1 :: digitsOf ds (l / d.1)

def Walk.index (k : Walk) (e : Nat) : List Nat := digitsOf k.dims (startOf k.dims + e)

/-- The counters of an element as word 4 holds them. -/
def Walk.counters (k : Walk) (e : Nat) : W64 := BitVec.ofNat 64 ((k.index e).foldr (fun i n => i % 65536 + 65536 * n) 0)

/-- Displacement of an element. -/
def dispOf : List (Nat × Int × Nat) → List Nat → Int
  | d :: ds, i :: is => d.2.1 * i + dispOf ds is
  | _, _ => 0

/-- The address of element e, moved by the step of its run (R282). -/
def Walk.addr (k : Walk) (e : Nat) (shift : Int) : Nat :=
  (((k.base : Int) + shift + dispOf k.dims (k.index e)) % (2 ^ 64 : Nat)).toNat

/-- Every element lies next to the one before along a row. -/
def Walk.dense (k : Walk) : Bool :=
  match k.dims with
  | d :: _ => d.2.1 == ((2 ^ k.es : Nat) : Int)
  | [] => false

/-- Elements of the first row, and of every later row. -/
def Walk.rowLens (k : Walk) : Nat × Nat :=
  match k.dims with
  | d :: _ => (d.1 - d.2.2, d.1)
  | [] => (1, 1)

/-- The walk covers 4,096 bytes from its base exactly once each (R289, R359). -/
def Walk.coversFrame (k : Walk) : Bool :=
  k.count * 2 ^ k.es == 4096 &&
    (let offs := (List.range k.count).map fun e => dispOf k.dims (k.index e)
     offs.all (fun o => decide (0 ≤ o ∧ o < 4096) && o.toNat % 2 ^ k.es == 0) &&
       (offs.foldl (fun m o => m ||| 2 ^ (o.toNat / 2 ^ k.es)) 0) == 2 ^ k.count - 1)

-- Target types (Table 9-5)

/-- Target types of the address map. -/
inductive AddrType where
  | own | tile | hbm | window | host | table | list | none
  deriving DecidableEq, Repr

/-- The target type of an address; a tile address of offset (0, 0) is of the own pool (R246). -/
def Shape.typeOf (sh : Shape) (me a : Nat) : AddrType :=
  match sh.target me a with
  | .own _ => .own
  | .table _ => .table
  | .caps _ => .list
  | .tile _ _ => .tile
  | .hbm _ _ => .hbm
  | .window _ _ _ => .window
  | .host _ _ => .host
  | .bad => if 0x010000000000 ≤ a ∧ a < 0x012000000000 then .tile else .none

-- Host memory behind HOST pages (R72)

/-- Key of a byte of the memory a function addresses. -/
def hostKey (fn addr : Nat) : Nat := fn * 2 ^ 64 + addr % 2 ^ 64

/-- The host address that an offset of a HOST page maps. -/
def Paddock.hostAddr (p : Paddock) (page off : Nat) : Nat :=
  match FMap.get? p.hostPages page with
  | some h => h.base + off
  | none => off

-- Checks of an access (R252)

/-- An absent page: PAGE in a loose stint, PROTECTION in a strict one. -/
def State.absent (s : State) : Cause := if s.strict then .protection else .page

/-- The host or its adapter refuses an access to a HOST page, by whole pages of 4 KiB (R72, log entry 3). -/
def State.hostDenies (s : State) : Target → Bool
  | .host page off => Config.hostRefuses s.pad.fn (s.pad.hostAddr page off / 4096 * 4096)
  | _ => false

/-- The checks of Table 9-9 at a target, for an access of the current tile with its privilege as given: the type and its entry's
attributes, then presence. -/
def State.targetCheck (s : State) (k : Bool) (t : Target) (w : Want) : Except Cause Target :=
  let sh := s.pad.shape
  match t with
  | .bad => .error .protection
  | .caps _ => .error .protection
  | .table _ => if w.rd then .error .protection else .ok t
  | _ =>
    let e := s.pageEntry t
    let pen := match t with
      | .tile _ off => sh.area off == .pen
      | _ => false
    if pen || entryDenies e sh.world k w then .error .protection
    else if !bit e 63 then .error s.absent
    else if s.hostDenies t then .error .protection
    else .ok t

/-- The checks of Table 9-9 for an engine access at an address of n bytes by the current tile: its alignment, then its target; SCOPE and
poison are met where the target is reached. -/
def State.pageCheck (s : State) (k : Bool) (a n : Nat) (w : Want) : Except Cause Target :=
  if a % n ≠ 0 then .error .misalign else s.targetCheck k (s.pad.shape.target s.cur.tile a) w

-- Reading and writing at a target

/-- Read n bytes at a target of the current tile; a poisoned word is an error. -/
def State.readAt (s : State) (t : Target) (n : Nat) : State × Option (List Byte) :=
  let opt := fun (r : State × Except Nat (List Byte)) => (r.1, r.2.toOption)
  let s := s.touch t
  match t with
  | .own off => opt (s.poolRead off n)
  | .tile j off =>
    let r := (s.at j).poolRead off n
    ({ r.1 with cur := s.cur }, r.2.toOption)
  | .table off =>
    let r := s.tile.st.tmem.read off n
    (s.modTile fun t => { t with st := { t.st with tmem := r.1 } }, r.2.toOption)
  | .hbm page off =>
    let r := s.pad.hbm.read (page * 2 ^ 21 + off) n
    (s.modPad fun p => { p with hbm := r.1 }, r.2.toOption)
  | .host page off =>
    (s, some (Mem.read s.host (hostKey s.pad.fn (s.pad.hostAddr page off)) n))
  | _ => (s, none)

/-- A store with bytes written; whether a word was refused for poison. -/
def Store.tryWrite (st : Store) (a : Nat) (bs : List Byte) : Store × Bool :=
  let r := st.write a bs
  (r.1, r.2.isNone)

/-- Write bytes that lie in one word at a target of the current tile; false when the word refused them (R238). -/
def State.writeAt (s : State) (t : Target) (bs : List Byte) : State × Bool :=
  let s := s.touch t
  match t with
  | .own off =>
    let r := s.poolWrite off bs
    (r.1, r.2.isNone)
  | .tile j off =>
    let r := (s.at j).poolWrite off bs
    ({ r.1 with cur := s.cur }, r.2.isNone)
  | .table off =>
    let r := s.tile.st.tmem.tryWrite off bs
    (s.modTile fun t => { t with st := { t.st with tmem := r.1 } }, r.2)
  | .hbm page off =>
    let r := s.pad.hbm.tryWrite (page * 2 ^ 21 + off) bs
    (s.modPad fun p => { p with hbm := r.1 }, r.2)
  | .host page off =>
    ({ s with host := Mem.write s.host (hostKey s.pad.fn (s.pad.hostAddr page off)) bs }, true)
  | _ => (s, true)

/-- An element write: its number, address and bytes. -/
structure ElemWrite where
  e : Nat
  addr : Nat
  bytes : List Byte
  deriving DecidableEq, Repr

/-- Join writes that follow one another inside one word, so that a packed beat writes whole words (R283). -/
def joinWords : List ElemWrite → List ElemWrite
  | [] => []
  | w :: ws =>
    match joinWords ws with
    | [] => [w]
    | v :: vs =>
      if v.addr = w.addr + w.bytes.length ∧ v.addr / 8 = w.addr / 8 then
        { w with bytes := w.bytes ++ v.bytes } :: vs
      else w :: v :: vs

-- Tags (R239)

/-- Mark the bytes of a frame as filled by a run. -/
def fillMask (off n : Nat) : Nat := (2 ^ n - 1) * 2 ^ (off % 4096)

/-- Every byte of a frame filled. -/
def fullMask : Nat := 2 ^ 4096 - 1

/-- Set the tag of a frame of a tile. -/
def State.setTag (s : State) (tile frame tag : Nat) : State :=
  s.atTile tile fun s => s.modTile fun t =>
    { t with st := { t.st with tags := FMap.put t.st.tags frame (BitVec.ofNat 16 tag) } }

end Sys2Proof.Machine
end

