-- ==== Sys2Proof/Machine/Drover.lean ====
section
/-!
DEFINITION. Machine/Drover.lean: the Drover engine: its commands, descriptor checks, runs in beats, element checks, tags and
ring pushes, refusals, finishes and deadlines (R278 to R301).
-/
namespace Sys2Proof.Machine

-- Descriptors (R279): the words an entry copied

def dWord (ws : List W64) (i : Nat) : W64 := ws.getD i 0
def dDeadline (ws : List W64) : Nat := bits (dWord ws 0) 63 32
def dUnit (ws : List W64) : Nat := bits (dWord ws 0) 28 24
def dRet (ws : List W64) : Bool := bit (dWord ws 1) 41
def dTagset (ws : List W64) : Bool := bit (dWord ws 1) 40
def dEchk (ws : List W64) : Bool := bit (dWord ws 1) 39
def dSigdst (ws : List W64) : Bool := bit (dWord ws 1) 34
def dSignal (ws : List W64) : Signal :=
  { q := bits (dWord ws 1) 23 16, n := bits (dWord ws 1) 31 24, rel := bit (dWord ws 1) 33 }
def dWait (ws : List W64) : Wait :=
  { q := bits (dWord ws 1) 7 0, n := bits (dWord ws 1) 15 8, acq := bit (dWord ws 1) 32 }
def dAtype (ws : List W64) : Nat := bits (dWord ws 2) 39 36
def dAop (ws : List W64) : Nat := bits (dWord ws 2) 35 32

/-- Push of a Drover command: descriptor and the three iterator records it names (R280). -/
def State.pushD (s : State) (i : Instr) (e : En) : Out :=
  let ws := Regs.words s.tile.dr.dd (8 * (e.idx.toNat % 32)) 8
  let w0 := dWord ws 0
  let it := fun (n : Nat) => Regs.words s.tile.dr.ti (8 * n) 8
  s.issue (s.pushCheck .d i e.dly.toNat)
    (s.pushEn .d i e ws [it (bits w0 4 0), it (bits w0 12 8), it (bits w0 20 16)])

def execDnop (s : State) : Out := .next s
def execDcopy (e : En) (s : State) : Out := s.pushD (.dcopy e) e
def execDgather (e : En) (s : State) : Out := s.pushD (.dgather e) e
def execDscatter (e : En) (s : State) : Out := s.pushD (.dscatter e) e
def execDfill (e : En) (s : State) : Out := s.pushD (.dfill e) e
def execDput (e : En) (s : State) : Out := s.pushD (.dput e) e
def execDget (e : En) (s : State) : Out := s.pushD (.dget e) e
def execDputadd (e : En) (s : State) : Out := s.pushD (.dputadd e) e
def execDamo (e : En) (s : State) : Out := s.pushD (.damo e) e
def execDtab (e : En) (s : State) : Out := s.pushD (.dtab e) e
def execDfence (e : En) (s : State) : Out := s.pushD (.dfence e) e

-- The walks of a command (Table 11-1, R290 to R295)

/-- The D-slot command of an entry. -/
inductive DCmd where
  | copy | gather | scatter | fill | put | get | putadd | amo | tab | fence
  deriving DecidableEq, Repr

def dCmd : Instr → DCmd
  | .dgather _ => .gather | .dscatter _ => .scatter | .dfill _ => .fill | .dput _ => .put | .dget _ => .get
  | .dputadd _ => .putadd | .damo _ => .amo | .dtab _ => .tab | .dfence _ => .fence | _ => .copy

def DCmd.usesSrc : DCmd → Bool
  | .fill => false | .fence => false | _ => true

def DCmd.indexed : DCmd → Bool
  | .gather => true | .scatter => true | _ => false

/-- Source types of a command. -/
def DCmd.srcOk (c : DCmd) (t : AddrType) : Bool :=
  match c with
  | .put => t == .own
  | .putadd => t == .own
  | .amo => t == .own
  | .get => t == .window
  | .tab => t == .own || t == .hbm
  | _ => t == .own || t == .tile || t == .hbm || t == .host

/-- Destination types of a command. -/
def DCmd.dstOk (c : DCmd) (t : AddrType) : Bool :=
  match c with
  | .put => t == .window
  | .putadd => t == .window
  | .get => t == .own
  | .amo => t == .own || t == .tile || t == .hbm || t == .window
  | .tab => t == .table
  | _ => t == .own || t == .tile || t == .hbm || t == .host

namespace DRun

def cmd (r : DRun) : DCmd := dCmd r.instr
def src (r : DRun) : Walk := walkOf (r.its.getD 0 [])
def dst (r : DRun) : Walk := walkOf (r.its.getD 1 [])
def aux (r : DRun) : Walk := walkOf (r.its.getD 2 [])

/-- How far the step moves every walk of the run (R282). -/
def shift (r : DRun) : Int := (r.j : Int) * r.step * (2 ^ dUnit r.ws : Nat)

/-- Elements of the row walk of a gather or scatter (R291). -/
def rowCount (r : DRun) : Nat := (if r.cmd = .scatter then r.dst else r.src).count

/-- Elements the run writes. -/
def elems (r : DRun) : Nat := if r.cmd = .scatter then r.src.count else r.dst.count

/-- The displacement the index of element e adds. -/
def displace (r : DRun) (e : Nat) : Int := (r.idx.getD (e / r.rowCount) 0) * (2 ^ dUnit r.ws : Nat)

/-- The ring a run pushes. -/
def ring (r : DRun) : Option Nat := pushRing (dWord r.ws 1)

/-- Address of the source of element e. -/
def srcAddr (r : DRun) (e : Nat) : Nat :=
  if r.cmd = .gather then r.src.addr (e % r.rowCount) (r.shift + r.displace e) else r.src.addr e r.shift

/-- Address of the destination of element e, before a push has chosen its slot (R289). -/
def dstAddr (r : DRun) (e : Nat) : Nat :=
  let sh := match r.ring with
    | some _ => 0
    | none => r.shift
  if r.cmd = .scatter then r.dst.addr (e % r.rowCount) (sh + r.displace e) else r.dst.addr e sh

/-- Bytes of an element. -/
def width (r : DRun) : Nat := 2 ^ r.dst.es

-- Beats (R283)

/-- Index beats before the data beats. -/
def indexBeats (r : DRun) : Nat := if r.cmd.indexed then ceilDiv (r.aux.count * 2 ^ r.aux.es) 64 else 0

/-- Elements of one beat of a row. -/
def perBeat (r : DRun) : Nat :=
  let packed := r.cmd != .amo && r.dst.dense && (!r.cmd.usesSrc || r.src.dense)
  if packed then 64 / r.width else 1

/-- Elements of the first row and of the later ones. -/
def rowLens (r : DRun) : Nat × Nat := if r.cmd.indexed then (r.rowCount, r.rowCount) else r.dst.rowLens

/-- Data beats of the run. -/
def dataBeats (r : DRun) : Nat :=
  let l := r.rowLens
  ceilDiv l.1 r.perBeat + (r.elems - l.1) / l.2 * ceilDiv l.2 r.perBeat

/-- First element and number of elements of data beat b. -/
def beatElems (r : DRun) (b : Nat) : Nat × Nat :=
  let l := r.rowLens
  let p := r.perBeat
  let k0 := ceilDiv l.1 p
  if b < k0 then (b * p, Nat.min p (l.1 - b * p))
  else
    let k := ceilDiv l.2 p
    let row := (b - k0) / k
    let o := (b - k0) % k * p
    (l.1 + row * l.2 + o, Nat.min p (l.2 - o))

/-- The tag the run gives, and the tag it expects (R289). -/
def tag (r : DRun) : Nat := (bits (dWord r.ws 2) 15 0 + r.j) % 65536
def etag (r : DRun) : Nat := (bits (dWord r.ws 2) 31 16 + r.j) % 65536

/-- The run is the one of a serial and index. -/
def is (r : DRun) (serial : BitVec 32) (j : Nat) : Bool := r.serial == serial && r.j == j

/-- Element e of the run is discarded (R298). -/
def drops (r : DRun) (e : Nat) : Bool :=
  match r.stopAt with
  | some n => decide (n ≤ e)
  | none => false

/-- The type of the first element of the source, and of the destination (R297). -/
def srcType (r : DRun) (sh : Shape) (me : Nat) : AddrType := sh.typeOf me (r.src.addr 0 r.shift)
def dstType (r : DRun) (sh : Shape) (me : Nat) : AddrType :=
  sh.typeOf me (match r.ring with
    | some _ => r.dst.base
    | none => r.dst.addr 0 r.shift)

/-- Types of the walks that the command uses. -/
def types (r : DRun) (sh : Shape) (me : Nat) : List AddrType :=
  (if r.cmd.usesSrc then [r.srcType sh me] else []) ++ [r.dstType sh me]

/-- The run puts to or gets from a window. -/
def windowed (r : DRun) (sh : Shape) (me : Nat) : Bool := (r.types sh me).contains .window

/-- The window of a windowed run (R401). -/
def window (r : DRun) : Nat :=
  let a := if r.cmd = .get then r.src.addr 0 r.shift else r.dst.addr 0 r.shift
  (a - 0x200000000000) / 2 ^ 36

/-- The tile that holds the destination of an address (R288, R289). -/
def homeOf (_ : DRun) (sh : Shape) (me a : Nat) : Nat :=
  match sh.target me a with
  | .tile j _ => j
  | _ => me

/-- The tile whose ring is pushed, or that a SIGDST signal goes to. -/
def dstTile (r : DRun) (sh : Shape) (me : Nat) : Nat :=
  r.homeOf sh me (match r.ring with
    | some _ => r.dst.base
    | none => r.dst.addr 0 r.shift)

/-- The target of element e, of which a push names only the tile (R289). -/
def dstTarget (r : DRun) (sh : Shape) (me e : Nat) : Target :=
  sh.target me (match r.ring with
    | some _ => r.dst.base
    | none => r.dstAddr e)

/-- What the elements of a run move, by address and size, in element order. -/
def moves (r : DRun) : List (Nat × Nat) :=
  (List.range r.elems).flatMap fun e =>
    (if r.cmd.usesSrc then [(r.srcAddr e, r.width)] else []) ++ (if r.ring.isSome then [] else [(r.dstAddr e, r.width)])

/-- The route a run copied names a window of the kind its command may use (R401). -/
def kindOk (r : DRun) : Bool :=
  !bit r.route 63 ||
    (match r.cmd with
     | .put => bits r.route 62 61 == 0
     | .putadd => bits r.route 62 61 != 0
     | _ => true)

end DRun

-- Descriptor checks (R297, Table 11-6)

/-- Element counts of paired walks are equal. -/
def DRun.countsOk (r : DRun) : Bool :=
  match r.cmd with
  | .fill => true
  | .gather => r.dst.count == r.aux.count * r.src.count
  | .scatter => r.src.count == r.aux.count * r.dst.count
  | .amo => r.src.count == r.dst.count && (!dRet r.ws || r.aux.count == r.dst.count)
  | _ => r.src.count == r.dst.count

/-- ESIZE of paired walks is equal. -/
def DRun.sizesOk (r : DRun) : Bool :=
  match r.cmd with
  | .fill => true
  | .amo => r.src.es == r.dst.es && (!dRet r.ws || r.aux.es == r.dst.es)
  | _ => r.src.es == r.dst.es

/-- Extents, counters and size (reason 0x03). -/
def DRun.extentsOk (r : DRun) : Bool :=
  r.dst.ok && (!r.cmd.usesSrc || r.src.ok) && (!(r.cmd.indexed || (r.cmd == .amo && dRet r.ws)) || r.aux.ok) &&
    decide (r.elems * r.width ≤ 2 ^ 24)

/-- Element types of DAMO and DPUTADD (reason 0x07). -/
def DRun.opsOk (r : DRun) : Bool :=
  match r.cmd with
  | .amo => decide (dAop r.ws ≤ 6) && (r.dst.es == 2 || r.dst.es == 3)
  | .putadd => (dAtype r.ws == 1 && r.dst.es == 2) || (dAtype r.ws == 2 && r.dst.es == 3) ||
      (dAtype r.ws == 3 && r.dst.es == 2) || (dAtype r.ws == 4 && r.dst.es == 3)
  | _ => true

/-- Target types of the walks (reason 0x05). -/
def State.droverTypes (s : State) (r : DRun) : Bool :=
  let sh := s.pad.shape
  let me := s.cur.tile
  let w := s.ctl (kWdesc + r.window)
  (!r.cmd.usesSrc || r.cmd.srcOk (r.srcType sh me)) && r.cmd.dstOk (r.dstType sh me) &&
    (!(r.cmd.indexed || (r.cmd == .amo && dRet r.ws)) || sh.typeOf me (r.aux.addr 0 r.shift) == .own) &&
    !(bit w 63 && ((r.cmd == .put && bits w 62 61 != 0) || (r.cmd == .putadd && bits w 62 61 == 0)))

/-- The least reason a descriptor is refused for; a fence has no walk. -/
def State.droverReason (s : State) (r : DRun) : Option Nat :=
  let sh := s.pad.shape
  let me := s.cur.tile
  if r.cmd == .fence then if 21 < dUnit r.ws then some 4 else none else
  let host := (r.cmd.usesSrc && r.srcType sh me == .host) || r.dstType sh me == .host
  if !r.countsOk then some 1
  else if !r.sizesOk then some 2
  else if !r.extentsOk then some 3
  else if 21 < dUnit r.ws then some 4
  else if !s.droverTypes r then some 5
  else if s.strict && host then some 6
  else if !r.opsOk then some 7
  else if dSigdst r.ws && r.dstType sh me != .tile then some 8
  else if r.ring.isSome &&
      !(r.dst.coversFrame && (r.dstType sh me == .own || r.dstType sh me == .tile)) then some 9
  else if r.cmd.indexed && !(r.aux.es == 2 || r.aux.es == 3) then some 10
  else none

-- Starts (R284, R285, R288, R296)

/-- Slots held. -/
def Drover.held (d : Drover) : List Nat := d.runs.filterMap (·.slot)

/-- The lowest free slot. -/
def Drover.freeSlot (d : Drover) : Option Nat := (List.range 8).find? fun n => !d.held.contains n

/-- A run as it starts. -/
def Entry.droverRun (e : Entry) (now : Nat) : DRun :=
  let r : DRun :=
    { serial := e.serial, j := e.j, slot := none, instr := e.instr, ws := e.ws, its := e.its, step := e.step, s := now,
      beta := 0, issued := 0, elem := 0, h := 0, idx := [], beats := [], last := now, fin := none, stopAt := none,
      refusals := [], susp := false, side := false, base := none, checked := [], filled := [], route := 0, seq := 0,
      sent := false, asked := false, ahead := [] }
  { r with beta := r.indexBeats + r.dataBeats }

/-- The least H of a window run (Table 11-5). -/
def windowLeast : Nat := 600

/-- Cycles of a window run from its end to its acknowledgement, within the band of Table 11-5, and more cycles where R287 adds them. -/
def windowLat (draw bytes more : Nat) : Nat := windowLeast + Config.latency draw % (15401 + ceilDiv bytes 256 + more)

/-- Runs of the paddock in a transfer slot that touch an HBM channel position (R287). -/
def Paddock.onChannel (p : Paddock) (c : Nat) : Nat :=
  p.tiles.foldl (fun n e => n + (e.2.dr.runs.filter fun r =>
    r.slot.isSome && (FMap.get? (p.shape.hbmLoad e.1 r.moves) c).isSome).length) 0

/-- What R287 adds to the bound of a run: 408 cycles for each TLB miss beyond one. -/
def State.walksMore (s : State) (r : DRun) : Nat :=
  408 * (s.tile.tlb.misses (s.pad.shape.pagesOf s.cur.tile r.moves) - 1)

/-- What R287 adds to the bound of an HBM run: its further misses, and 64 cycles for each run beyond 16 on its channel. -/
def State.slower (s : State) (r : DRun) : Nat :=
  let most := (FMap.keys (s.pad.shape.hbmLoad s.cur.tile r.moves)).foldl (fun n c => Nat.max n (s.pad.onChannel c)) 0
  s.walksMore r + 64 * (most - 16)

/-- H of a run, drawn when its indices are known: the bands of Table 11-5; no bound where it reaches host memory (Table 11-4). -/
def State.runLat (s : State) (r : DRun) : Nat :=
  let sh := s.pad.shape
  let types := r.types sh s.cur.tile
  if r.windowed sh s.cur.tile then windowLat s.free (r.elems * r.width) (s.walksMore r)
  else if types.contains .host then 1 + Config.hostLatency s.free
  else if types.contains .hbm then hbmLat s.free (mostBytes (sh.hbmLoad s.cur.tile r.moves)) (s.slower r)
  else 0

/-- What the start of a Drover entry needs (R142, R285, R297). -/
def State.droverNeed (s : State) (e : Entry) : Need :=
  { busy := dCmd e.instr != .fence && s.tile.dr.freeSlot.isNone, waits := [dWait e.ws], ops := .ready,
    checks := (s.droverReason (e.droverRun s.pad.rtick)).map fun n =>
      runFault .protection .d e.serial e.j 0 (fld 0xD0 56 ||| fld n 0) }

/-- A Drover run takes its slot and copies its window's route and sequence number; a fence begins. -/
def State.droverGo (s : State) (e : Entry) : State :=
  let now := s.pad.rtick
  let s := s.modQueue .d fun q => q.begin now none
  if dCmd e.instr = .fence then s.modTile fun t => { t with dr := { t.dr with fence := true } }
  else
    let r := e.droverRun now
    let w := r.window
    let isWin := r.windowed s.pad.shape s.cur.tile
    let add := r.cmd == .putadd
    let r := { r with
      slot := s.tile.dr.freeSlot,
      route := if isWin then s.ctl (kWdesc + w) else 0, seq := FMap.getD s.tile.sync.rounds (64 + w) 0 }
    let s := s.modTile fun t => { t with dr := { t.dr with runs := t.dr.runs ++ [r] } }
    if add then s.modSync fun y => { y with rounds := FMap.put y.rounds (64 + w) ((r.seq + 1) % 2 ^ 32) } else s

/-- The D engine's start on this cycle. -/
def State.droverStart (s : State) : State :=
  let s := s.watch .d fun e => [dWait e.ws]
  let s := match s.headLate .d (fun _ => 0) with
    | some f => s.cond f
    | none => s
  match s.dueHead .d with
  | some e => s.startHead .d e 0 (s.droverNeed e) fun s => s.droverGo e
  | none => s

-- Runs by name

def State.modDrover (s : State) (f : Drover → Drover) : State := s.modTile fun t => { t with dr := f t.dr }

def State.dRun (s : State) (serial : BitVec 32) (j : Nat) : Option DRun :=
  s.tile.dr.runs.find? fun r => r.is serial j

def State.modRun (s : State) (serial : BitVec 32) (j : Nat) (f : DRun → DRun) : State :=
  s.modDrover fun d => { d with runs := d.runs.map fun r => if r.is serial j then f r else r }

-- Failures (R298, R299)

/-- The slot gives up its run; its status words stay readable. -/
def State.freeSlotOf (s : State) (r : DRun) : State :=
  match r.slot with
  | some n =>
    let s := s.setCtl (0x40 + n) ({ r with susp := false }.stat n &&& ~~~(fld 1 63))
    s.modRun r.serial r.j fun r => { r with slot := none }
  | none => s

/-- A fault of an element with the run's status. -/
def DRun.fault (r : DRun) (c : Cause) (a : Nat) : FaultInfo :=
  runFault c .d r.serial r.j (r.stat (r.slot.getD 0)) (w64 a)

/-- The report of a failure at element e: the fault, the entry gone, its slot and those of its later runs freed; what is in flight
before the failing element goes on, an earlier element's refusal too (R298). Made at issue, it lets the next entry start on the same
cycle (log entry 71). -/
def State.droverReport (s : State) (serial : BitVec 32) (j e : Nat) (f : FaultInfo) : State :=
  let s := s.cond f
  let s := s.modQueue .d fun q => q.remove serial
  let s := (s.tile.dr.runs.filter fun r => r.serial == serial && decide (j ≤ r.j)).foldl (fun s r => s.freeSlotOf r) s
  s.modDrover fun d => { d with runs := d.runs.map fun r =>
    if r.serial == serial && decide (j ≤ r.j) then
      { r with beta := r.issued, fin := none, refusals := if r.j = j then r.refusals.filter fun x => decide (x.e < e) else r.refusals }
    else r }

/-- Element e of a run fails, and is reported at once (R298). -/
def State.droverFail (s : State) (r : DRun) (e : Nat) (side : Bool) (f : FaultInfo) : State :=
  if r.drops e then s
  else (s.modRun r.serial r.j fun r => { r with stopAt := some e, side := side }).droverReport r.serial r.j e f

/-- A PAGE fault in a loose stint suspends the run at the element (R299). -/
def State.droverSuspend (s : State) (r : DRun) (e : Nat) (side : Bool) (a : Nat) : State :=
  let n := r.slot.getD 0
  let ix := if r.cmd = .scatter then e % r.rowCount else e
  let r' := { r with susp := true, elem := e, side := side }
  let none' := s.pad.shape.typeOf s.cur.tile a == .window && !bit (s.ctl (kWdesc + r.window)) 63
  let s := s.modRun r.serial r.j fun q => { q with susp := true, elem := e, side := side, again := none' }
  (s.setCtl (0x48 + n) (r.dst.counters ix)).cond (r'.fault .page a)

-- Issue of beats (R284)

/-- What an element's checks say: its targets, or the walk, cause and address that failed. -/
inductive ElemCheck where
  | ok (src dst : Option Target)
  | bad (side : Bool) (c : Cause) (a : Nat)

/-- The element's target is of the type of the first one, and of a type its command permits (R297). -/
def State.sameType (s : State) (permits : AddrType → Bool) (first : AddrType) (window : Nat) (t : Target) (a : Nat) : Bool :=
  let ty := s.pad.shape.typeOf s.cur.tile a
  ty == first && permits ty &&
    (match t with
     | .window x _ _ => x == window
     | _ => true)

/-- One walk's element: its page, then its type. -/
def State.walkCheck (s : State) (permits : AddrType → Bool) (first : AddrType) (window a n : Nat) (w : Want) :
    Except Cause Target :=
  match s.pageCheck s.inK a n w with
  | .error c =>
    if c != .misalign && s.pad.shape.typeOf s.cur.tile a != first then .error .protection else .error c
  | .ok t => if s.sameType permits first window t a then .ok t else .error .protection

/-- A destination must stay in the pool of one tile under SIGDST and PUSH (R297). -/
def State.oneTile (s : State) (r : DRun) (t : Target) : Bool :=
  !(dSigdst r.ws || r.ring.isSome) ||
    (match t with
     | .tile j _ => j == r.dstTile s.pad.shape s.cur.tile
     | _ => r.dstTile s.pad.shape s.cur.tile == s.cur.tile)

/-- The destination of element e: of a push the tile alone, since its slot replaces the offset (R289); of a window run its kind too. -/
def State.dstCheck (s : State) (r : DRun) (e : Nat) : Except Cause Target :=
  let sh := s.pad.shape
  let me := s.cur.tile
  match r.ring with
  | some _ =>
    match r.dstTarget sh me e with
    | .own o => .ok (.own o)
    | .tile j o => .ok (.tile j o)
    | _ => .error .protection
  | none =>
    match s.walkCheck r.cmd.dstOk (r.dstType sh me) r.window (r.dstAddr e) r.width { rd := r.cmd == .amo, wr := true, xl := false } with
    | .error c => .error c
    | .ok t => if r.kindOk then .ok t else .error .protection

/-- The checks of element e: its source, its destination, and for DAMO the place of its old value (R298). -/
def State.elemCheck (s : State) (r : DRun) (e : Nat) : ElemCheck :=
  let sh := s.pad.shape
  let me := s.cur.tile
  let n := r.width
  let src : Except (Bool × Cause × Nat) (Option Target) :=
    if !r.cmd.usesSrc then .ok none
    else
      match s.walkCheck r.cmd.srcOk (r.srcType sh me) r.window (r.srcAddr e) n
          { rd := true, wr := false, xl := r.cmd == .tab } with
      | .error c => .error (false, c, r.srcAddr e)
      | .ok t => .ok (some t)
  match src with
  | .error x => .bad x.1 x.2.1 x.2.2
  | .ok st =>
    let a := r.dstAddr e
    match s.dstCheck r e with
    | .error c => .bad true c a
    | .ok t =>
      if !s.oneTile r t then .bad true .protection a
      else if r.cmd == .amo && dRet r.ws then
        let b := r.aux.addr e r.shift
        match s.walkCheck (· == .own) .own 0 b n { rd := false, wr := true, xl := false } with
        | .error c => .bad true c b
        | .ok _ => .ok st (some t)
      else .ok st (some t)

/-- Latency to the tile of a target, 0 for the own pool. -/
def State.latTo (s : State) (t : Option Target) : Nat :=
  match t with
  | some (.tile j _) => s.pad.shape.strLat s.cur.tile j
  | _ => 0

/-- The target lies outside the pools. -/
def farTarget : Option Target → Bool
  | some (.hbm _ _) => true
  | some (.host _ _) => true
  | _ => false

/-- When an element issued now is read, and when it is written (Table 11-4); old values of a DAMO come back later. Of an element in HBM or
host memory the band gives the write; nothing is written before it is read (R301, log entry 68). -/
def State.elemTimes (s : State) (r : DRun) (src dst : Option Target) : Nat × Nat :=
  let now := s.pad.rtick
  let ls := s.latTo src
  let ld := s.latTo dst
  let near := now + 2 * ls + (if ld = 0 then 1 else ld)
  (now + ls, if farTarget src || farTarget dst then now + Nat.max ls r.h else near)

/-- When the last sign of an element is back: its write, or a DAMO's answer. -/
def State.elemLast (s : State) (r : DRun) (src dst : Option Target) : Nat :=
  (s.elemTimes r src dst).2 + (if r.cmd == .amo then s.latTo dst else 0)

/-- Add an element to the beats of a run: with the one before it where both go the same way at the same time. -/
def addElem (bs : List Beat) (e rd wr : Nat) : List Beat :=
  match bs.getLast? with
  | some b =>
    if b.kind = .data ∧ b.readAt = rd ∧ b.writeAt = wr ∧ b.first + b.count = e ∧ !b.read then
      bs.dropLast ++ [{ b with count := b.count + 1 }]
    else bs ++ [{ kind := .data, first := e, count := 1, readAt := rd, writeAt := wr, read := false, data := [] }]
  | none => [{ kind := .data, first := e, count := 1, readAt := rd, writeAt := wr, read := false, data := [] }]

/-- Issue the elements of a data beat from e on, n of them; false when the run was suspended or failed. Elements discarded
after a refusal take their cycles all the same. -/
def State.issueElems (s : State) (r : DRun) (e : Nat) : Nat → State × Bool
  | 0 => (s, true)
  | n + 1 =>
    if r.drops e then
      let me := s.cur.tile
      let src := if r.cmd.usesSrc then some (s.pad.shape.target me (r.srcAddr e)) else none
      let last := s.elemLast r src (some (r.dstTarget s.pad.shape me e))
      State.issueElems (s.modRun r.serial r.j fun r => { r with last := Nat.max r.last last }) r (e + 1) n
    else
      match s.elemCheck r e with
      | .bad side c a =>
        if c = .page then (s.droverSuspend r e side a, false)
        else
          let f := ({ r with side := side }).fault c a
          (s.droverFail r e side f, false)
      | .ok src dst =>
        let t := s.elemTimes r src dst
        let s := s.modRun r.serial r.j fun r =>
          { r with beats := addElem r.beats e t.1 t.2, last := Nat.max r.last (s.elemLast r src dst) }
        State.issueElems s r (e + 1) n

/-- Issue an index beat: its indices are read this cycle (R283, R291). -/
def State.issueIndex (s : State) (r : DRun) : State × Bool :=
  let n := 2 ^ r.aux.es
  let p := 64 / n
  let first := r.issued * p
  let count := Nat.min p (r.aux.count - first)
  let bad := (List.range count).find? fun k =>
    match s.walkCheck (· == .own) .own 0 (r.aux.addr (first + k) r.shift) n { rd := true, wr := false, xl := false } with
    | .ok _ => false
    | .error _ => true
  match bad with
  | some k =>
    let a := r.aux.addr (first + k) r.shift
    let c := if a % n ≠ 0 then Cause.misalign else Cause.protection
    (s.droverFail r 0 false (r.fault c a), false)
  | none =>
    let now := s.pad.rtick
    let b : Beat := { kind := .index, first := first, count := count, readAt := now, writeAt := now, read := false, data := [] }
    (s.modRun r.serial r.j fun r => { r with beats := r.beats ++ [b] }, true)

/-- Issue the next beat of the run in progress, one a cycle from s + 1 on; the run completes with its last beat. -/
def State.droverIssue (s : State) : State :=
  let q := s.tile.dq
  match q.entries, q.act with
  | e :: _, some a =>
    match s.dRun e.serial e.j with
    | none => s
    | some r =>
      if r.susp || decide (s.pad.rtick ≤ a.s) || decide (r.beta ≤ r.issued) then s
      else
        let r := if r.again then { r with route := s.ctl (kWdesc + r.window) } else r
        let ib := r.indexBeats
        let draws := r.issued == ib && r.elem == 0
        let r := if draws then { r with h := s.runLat r } else r
        let s := s.modRun r.serial r.j fun q => { q with route := r.route, h := r.h, again := false }
        let s := if draws then { s with free := s.free + 1 } else s
        let x :=
          if r.issued < ib then s.issueIndex r
          else
            let b := r.beatElems (r.issued - ib)
            let from' := Nat.max b.1 r.elem
            s.issueElems r from' (b.1 + b.2 - from')
        if !x.2 then x.1
        else
          let s := x.1.modRun r.serial r.j fun r =>
            { r with issued := r.issued + 1, elem := 0,
                     fin := if r.issued + 1 = r.beta && !(r.windowed s.pad.shape s.cur.tile) then some r.last else none }
          if r.issued + 1 = r.beta then s.modQueue .d fun q => { q with act := some { a with fin := some s.pad.rtick } }
          else s
  | _, _ => s

-- Reads (R284, R240, R251)

/-- The tile has refused an earlier element of the entry, so that it discards this one. -/
def State.shunned (s : State) (r : DRun) (e tile : Nat) : Bool :=
  s.tile.dr.shun.any fun x =>
    x.serial == r.serial && x.tile == tile && (decide (x.j < r.j) || (x.j == r.j && decide (x.e ≤ e)))

/-- A tile refuses an element that reaches it: SCOPE, poison. From another tile the report is back after the latency, whatever another
tile refuses meanwhile (R251, R298). -/
def State.droverRefuse (s : State) (r : DRun) (e : Nat) (side : Bool) (c : Cause) (a tile : Nat) : State :=
  let s := s.modDrover fun d => { d with shun := d.shun ++ [{ serial := r.serial, j := r.j, e := e, tile := tile }] }
  let f := ({ r with side := side }).fault c a
  if tile = s.cur.tile then s.droverFail r e side f
  else if r.drops e then s
  else
    let x : Refused := { e := e, due := s.pad.rtick + s.pad.shape.strLat s.cur.tile tile, tile := tile, info := f }
    s.modRun r.serial r.j fun r => { r with stopAt := some e, side := side, refusals := r.refusals ++ [x] }

/-- The frame check of a source read, when the run expects tags: a wrong tag, or the frame noted as checked. -/
def State.echk (s : State) (r : DRun) (t : Target) : State × Option W64 :=
  match t with
  | .own off =>
    let fr := off / 4096
    if !dEchk r.ws || r.checked.contains fr then (s, none)
    else if s.tagWrong fr r.etag then (s, some (seqTagInfo r.etag (s.tagOf fr) fr))
    else (s.modRun r.serial r.j fun r => { r with checked := nsAdd r.checked fr }, none)
  | _ => (s, none)

/-- The tile that holds a target, when it is another one. -/
def Target.tileOr (me : Nat) : Target → Nat
  | .tile j _ => j
  | _ => me

/-- The issuing tile may reach a target under its scope as it stands (R251). -/
def State.inReach (s : State) (t : Target) : Bool :=
  match t with
  | .tile j off =>
    s.pad.shape.reaches ((FMap.getD s.pad.tiles j Tile.init).granuleScope s.pad.shape off) s.cur.tile j
  | _ => true

/-- Read n elements from element e on; the bytes of those that succeed, in order. -/
def State.readElems (s : State) (serial : BitVec 32) (j e : Nat) : Nat → State × List (List Byte)
  | 0 => (s, [])
  | n + 1 =>
    match s.dRun serial j with
    | none => (s, [])
    | some r =>
      let a := r.srcAddr e
      let t := s.pad.shape.target s.cur.tile a
      let tl := t.tileOr s.cur.tile
      if r.drops e || s.shunned r e tl then (s, [])
      else if !s.inReach t then (s.droverRefuse r e false .scope a tl, [])
      else
        match s.echk r t with
        | (s, some info) => (s.droverFail r e false (runFault .seqTag .d r.serial r.j (r.stat (r.slot.getD 0)) info), [])
        | (s, none) =>
          match s.readAt t r.width with
          | (s, none) => (s.droverRefuse r e false (s.pad.shape.poisonCause s.cur.tile a) a tl, [])
          | (s, some bs) =>
            let x := State.readElems s serial j (e + 1) n
            (x.1, bs :: x.2)

/-- Read n indices from index k on. -/
def State.readIndices (s : State) (serial : BitVec 32) (j k : Nat) : Nat → State × List Int
  | 0 => (s, [])
  | n + 1 =>
    match s.dRun serial j with
    | none => (s, [])
    | some r =>
      let a := r.aux.addr k r.shift
      let t := s.pad.shape.target s.cur.tile a
      match s.echk r t with
      | (s, some info) => (s.droverFail r 0 false (runFault .seqTag .d r.serial r.j (r.stat (r.slot.getD 0)) info), [])
      | (s, none) =>
        match s.readAt t (2 ^ r.aux.es) with
        | (s, none) => (s.droverRefuse r 0 false (s.pad.shape.poisonCause s.cur.tile a) a s.cur.tile, [])
        | (s, some bs) =>
          let x := State.readIndices s serial j (k + 1) n
          (x.1, sext (8 * bs.length) (leNat bs) :: x.2)

/-- Read one beat of a run. -/
def State.readBeat (s : State) (serial : BitVec 32) (j : Nat) (b : Beat) : State :=
  let put := fun (s : State) (data : List (List Byte)) =>
    s.modRun serial j fun r => { r with beats := r.beats.map fun c =>
      if c = b then { b with read := true, count := data.length, data := data } else c }
  match b.kind with
  | .index =>
    let x := s.readIndices serial j b.first b.count
    x.1.modRun serial j fun r => { r with idx := r.idx ++ x.2, beats := r.beats.filter (· != b) }
  | .back => s
  | .data =>
    match s.dRun serial j with
    | none => s
    | some r =>
      if r.cmd = .get then put s (List.replicate b.count [])
      else if r.cmd.usesSrc then
        let x := s.readElems serial j b.first b.count
        put x.1 x.2
      else put s (List.replicate b.count (natLE r.width (dWord r.ws 3).toNat))

/-- The beats of this tile's runs that are read on this cycle. -/
def State.droverReads (s : State) : State :=
  s.tile.dr.runs.foldl (fun s r =>
    (r.beats.filter fun b => !b.read && decide (b.readAt ≤ s.pad.rtick)).foldl
      (fun s b => s.readBeat r.serial r.j b) s) s

-- Writes (R236, R239, R242, R289, R294)

/-- The slot of a push is chosen on its first write; a full, busy or invalid ring is a RING fault (R242, R244). -/
def State.pushBase (s : State) (r : DRun) (k : Nat) : State × Option Nat :=
  match r.base with
  | some f => (s, some f)
  | none =>
    let home := r.dstTile s.pad.shape s.cur.tile
    let d := (FMap.getD s.pad.tiles home Tile.init).dr
    let g := d.ring k
    if !g.valid s.pad.shape || g.nslab == g.occ || d.pushing.contains k then
      let f := runFault .ring .d r.serial r.j (({ r with side := true }).stat (r.slot.getD 0))
        (ringInfo k false g.occ s.pad.rtick)
      (s.droverFail r 0 true f, none)
    else
      let fr := g.base + g.tail % g.nslab
      let s := s.modRun r.serial r.j fun r => { r with base := some fr }
      (s.atTile home fun s => s.modDrover fun d => { d with pushing := d.pushing ++ [k] }, some fr)

/-- Where element e is written: the target of its address, or its place from the slot of a push, which has to lie in that tile's pool
(R289). -/
def State.placeOf (s : State) (r : DRun) (e : Nat) (base : Option Nat) : Target :=
  let me := s.cur.tile
  match base with
  | none => s.pad.shape.target me (r.dstAddr e)
  | some fr =>
    let off : Int := fr * 4096 + sext 64 (r.dstAddr e + 2 ^ 64 - r.dst.base)
    let home := r.dstTile s.pad.shape me
    if off < 0 ∨ 0x200000 < off + r.width then .bad else if home = me then .own off.toNat else .tile home off.toNat

/-- The address that decides which elements share a word: of a push that of its place in the slot (R289). -/
def State.placeAddr (s : State) (r : DRun) (e : Nat) (base : Option Nat) : Nat :=
  match base, s.placeOf r e base with
  | some _, .own off => off
  | some _, .tile _ off => off
  | _, _ => r.dstAddr e

/-- What an element of a push fails in where its place from the slot is no place for it (R289, R298). -/
def State.pushBad (s : State) (r : DRun) (t : Target) : Option Cause :=
  if r.ring.isNone then none
  else
    let off := match t with
      | .own o => o
      | .tile _ o => o
      | _ => 0
    if off % r.width ≠ 0 then some .misalign
    else
      match s.targetCheck s.inK t { rd := false, wr := true, xl := false } with
      | .error c => some c
      | .ok _ => none

/-- Bytes a run wrote into a frame: a frame filled completely takes the run's tag; where it is the slot of a push, the push completes
(R239, R242). -/
def State.cover (s : State) (r : DRun) (t : Target) (n : Nat) : State :=
  let off := match t with
    | .own o => some o
    | .tile _ o => some o
    | _ => none
  match off with
  | none => s
  | some o =>
    let tl := t.tileOr s.cur.tile
    let slot := r.base == some (o / 4096) && tl == r.dstTile s.pad.shape s.cur.tile
    if !(dTagset r.ws || slot) then s
    else
      let key := tl * 512 + o / 4096
      let old := FMap.getD r.filled key 0
      let new := old ||| fillMask o n
      let s := s.modRun r.serial r.j fun r => { r with filled := FMap.put r.filled key new }
      if new != fullMask || old == fullMask then s
      else
        let s := s.setTag tl (o / 4096) r.tag
        match slot, r.ring with
        | true, some k => s.atTile tl fun s => s.modDrover fun d => { d with tails := d.tails ++ [(k, r.tag)] }
        | _, _ => s

/-- Write joined elements in order, stopping at the first that is discarded or refused. -/
def State.writeElems (s : State) (serial : BitVec 32) (j : Nat) (base : Option Nat) : List ElemWrite → State
  | [] => s
  | w :: ws =>
    match s.dRun serial j with
    | none => s
    | some r =>
      let t := s.placeOf r w.e base
      let tl := t.tileOr s.cur.tile
      let bad := s.pushBad r t
      if r.drops w.e || s.shunned r w.e tl then s
      else if bad.isSome then s.droverRefuse r w.e true (bad.getD .protection) (r.dstAddr w.e) tl
      else if !s.inReach t then s.droverRefuse r w.e true .scope (r.dstAddr w.e) tl
      else
        match s.writeAt t w.bytes with
        | (s, false) => s.droverRefuse r w.e true .dataPoison (r.dstAddr w.e) tl
        | (s, true) => State.writeElems (s.cover r t w.bytes.length) serial j base ws

/-- The operation of a DAMO by its code. -/
def amoOf : Nat → AmoOp
  | 0 => .add | 1 => .min | 2 => .max | 3 => .and | 4 => .or | 5 => .xor | _ => .swp

/-- Apply DAMO elements at their targets in order; the old values of those that succeed (R294, R408). -/
def State.amoElems (s : State) (serial : BitVec 32) (j e : Nat) (base : Option Nat) : List (List Byte) → State × List (List Byte)
  | [] => (s, [])
  | x :: xs =>
    match s.dRun serial j with
    | none => (s, [])
    | some r =>
      let a := r.dstAddr e
      let t := s.placeOf r e base
      let tl := t.tileOr s.cur.tile
      if r.drops e || s.shunned r e tl then (s, [])
      else if !s.inReach t then (s.droverRefuse r e true .scope a tl, [])
      else
        match s.readAt t r.width with
        | (s, none) => (s.droverRefuse r e true (s.pad.shape.poisonCause s.cur.tile a) a tl, [])
        | (s, some old) =>
          let new := (amoOf (dAop r.ws)).apply r.width (leNat old) (leNat x)
          let s := (s.writeAt t (natLE r.width new)).1.cover r t r.width
          let y := State.amoElems s serial j (e + 1) base xs
          (y.1, old :: y.2)

/-- Old values of a DAMO that are back are written along AUX (R294). -/
def State.writeBack (s : State) (r : DRun) (first : Nat) (data : List (List Byte)) : State :=
  if !dRet r.ws then s
  else
    (data.zipIdx).foldl (fun s x =>
      let a := r.aux.addr (first + x.2) r.shift
      let t := s.pad.shape.target s.cur.tile a
      match s.writeAt t x.1 with
      | (s, true) => s.cover ((s.dRun r.serial r.j).getD r) t x.1.length
      | (s, false) => s.droverFail r (first + x.2) true (({ r with side := true }).fault .dataPoison a)) s

/-- What of an element's write is left where beats of later elements have been written already: the later element keeps its bytes
(R290). -/
def DRun.yields (r : DRun) (w : ElemWrite) : List ElemWrite :=
  let later := fun (a : Nat) => r.ahead.any fun x => (List.range x.2).any fun k =>
    decide (w.e < x.1 + k ∧ r.dstAddr (x.1 + k) ≤ a ∧ a < r.dstAddr (x.1 + k) + r.width)
  if r.ahead.isEmpty then [w]
  else (w.bytes.zipIdx.filter fun b => !later (w.addr + b.2)).map fun b => { w with addr := w.addr + b.2, bytes := [b.1] }

/-- A run without a beat it has written: noted as ahead, as long as a beat of earlier elements is still to come. -/
def DRun.wrote (r : DRun) (b : Beat) : DRun :=
  let rest := r.beats.filter (· != b)
  { r with beats := rest,
           ahead := (r.ahead ++ [(b.first, b.count)]).filter fun x => rest.any fun c => c.kind == .data && decide (c.first < x.1) }

/-- Write one beat whose cycle it is, and forget it. -/
def State.writeBeat (s : State) (serial : BitVec 32) (j : Nat) (b : Beat) : State :=
  match s.dRun serial j with
  | none => s
  | some r =>
    let gone := fun (s : State) => s.modRun serial j fun r => r.wrote b
    let base := match r.ring with
      | none => (s, some none)
      | some k =>
        let x := s.pushBase r k
        (x.1, x.2.map some)
    match b.kind with
    | .index => s
    | .back => s.writeBack r b.first b.data |> gone
    | .data =>
      match base with
      | (s, none) => gone s
      | (s, some f) =>
        if r.cmd = .amo then
          let x := s.amoElems serial j b.first f b.data
          let lat := s.latTo (some (s.placeOf r b.first f))
          if lat = 0 then x.1.writeBack r b.first x.2 |> gone
          else
            let c : Beat := { b with kind := .back, writeAt := b.writeAt + lat, count := x.2.length, data := x.2 }
            x.1.modRun serial j fun r => { r with beats := r.beats.map fun d => if d = b then c else d }
        else
          let ws := b.data.zipIdx.flatMap fun x =>
            r.yields { e := b.first + x.2, addr := r.dstAddr (b.first + x.2), bytes := x.1 }
          let ws := ws.map fun w => { w with addr := s.placeAddr r w.e f + (w.addr - r.dstAddr w.e) }
          (s.writeElems serial j f (joinWords ws)) |> gone

/-- A beat whose write goes to another tile (step 1 of R236) rather than to this one (step 3). -/
def State.beatIsRemote (s : State) (r : DRun) (b : Beat) : Bool :=
  b.kind == .data &&
    (match r.ring with
     | some _ => r.dstTile s.pad.shape s.cur.tile != s.cur.tile
     | none =>
       match s.pad.shape.target s.cur.tile (r.dstAddr b.first) with
       | .tile _ _ => true
       | _ => false)

/-- The writes of one of this tile's runs on this cycle: those to other tiles, or its own. -/
def State.runWrites (s : State) (remote : Bool) (r : DRun) : State :=
  if r.windowed s.pad.shape s.cur.tile && !r.sent then s
  else
    (r.beats.filter fun b => b.read && decide (b.writeAt ≤ s.pad.rtick) && s.beatIsRemote r b == remote).foldl
      (fun s b => s.writeBeat r.serial r.j b) s

/-- The writes of this tile's runs on this cycle: those to other tiles, or its own, in ascending serial. -/
def State.droverWrites (s : State) (remote : Bool) : State := s.tile.dr.runs.foldl (fun s r => s.runWrites remote r) s

-- Finishes, reports, deadlines (R284 to R288, R296, R298)

/-- Refusals whose report is due. -/
def State.droverReports (s : State) : State :=
  s.tile.dr.runs.foldl (fun s r =>
    (r.refusals.filter fun f => decide (f.due ≤ s.pad.rtick)).foldl (fun s f =>
      let r := (s.dRun r.serial r.j).getD r
      if r.refusals.contains f then
        let s := s.modRun r.serial r.j fun r => { r with refusals := r.refusals.erase f }
        s.droverReport r.serial r.j f.e { f.info with t2 := (r.stat (bits f.info.t2 38 36)) &&& ~~~(fld (1 - r.slot.isSome.toNat) 63) }
      else s) s) s

/-- A DAMO that signals at its destination does so when its last byte is written there, before its answers are back (R288). -/
def DRun.signalsEarly (r : DRun) : Bool := r.cmd == .amo && dSigdst r.ws

/-- The release and signal of a run; a release out of scope ends the entry (R288, R396). -/
def State.droverSignal (s : State) (r : DRun) : State × Bool :=
  let tile := if dSigdst r.ws then r.dstTile s.pad.shape s.cur.tile else s.cur.tile
  match s.trySignal tile (dSignal r.ws) with
  | .ok s => (s, true)
  | .error a => (s.droverReport r.serial r.j 0 (runFault .scope .d r.serial r.j (r.stat (r.slot.getD 0)) a), false)

/-- DROVER_TRANSFER_FINISH: the run in a slot finishes on this cycle: release, signal, and a put's count, none of them where the release
is out of scope (R288, R396). -/
def State.droverFinish (s : State) (r : DRun) : State :=
  let x := if r.signalsEarly then (s, true) else s.droverSignal r
  if x.2 && (r.cmd == .put || r.cmd == .putadd) then
    x.1.modSync fun y => { y with sentInc := FMap.put y.sentInc r.window (FMap.getD y.sentInc r.window 0 + 1) }
  else x.1

/-- The run in a slot. -/
def State.slotRun (s : State) (slot : Nat) : Option DRun := s.tile.dr.runs.find? fun r => r.slot == some slot

def execDroverTransferFinish (slot : Nat) (s : State) : Out :=
  match s.slotRun slot with
  | some r => .next (s.droverFinish r)
  | none => .next s

/-- The last byte of a DAMO that signals at its destination is written there on this cycle. -/
def State.signalDue (s : State) (r : DRun) : Bool :=
  r.signalsEarly && r.stopAt.isNone &&
    r.fin == some (s.pad.rtick + s.pad.shape.strLat s.cur.tile (r.dstTile s.pad.shape s.cur.tile))

/-- The runs that finish on this cycle, and those that signal ahead of their finish. -/
def State.droverFinishes (s : State) : State :=
  s.tile.dr.runs.foldl (fun s r =>
    if (s.dRun r.serial r.j).all fun q => q.slot.isNone then s
    else if r.fin == some s.pad.rtick then s.droverFinish r
    else if s.signalDue r then (s.droverSignal r).1
    else s) s

/-- A fence completes on the first cycle at whose end no run started before it holds a slot; it signals its own tile, whatever its SIGDST
(R296, log entry 76). -/
def State.droverFence (s : State) : State :=
  let open' := s.tile.dr.runs.any fun r => r.slot.isSome &&
    (match r.fin with
     | some f => decide (s.pad.rtick < f)
     | none => true)
  match s.tile.dr.fence, s.tile.dq.entries, s.tile.dq.act with
  | true, e :: _, some a =>
    if open' then s
    else
      let s := s.signalAt s.cur.tile (dSignal e.ws) fun x => runFault .scope .d e.serial e.j 0 x
      let s := s.modDrover fun d => { d with fence := false }
      s.modQueue .d fun q => { q with act := some { a with fin := some s.pad.rtick } }
  | _, _, _ => s

/-- Deadlines missed by the start of a cycle: of runs, and of a fence (R286). -/
def State.droverDeadlines (s : State) : State :=
  if !s.strict then s
  else
    let now := s.pad.rtick
    let fault := fun (serial : BitVec 32) (j : Nat) (status : W64) =>
      ({ cause := .timing, eng := true, unit := .d, run := j, t1 := serial.setWidth 64, t2 := status,
         t3 := timingInfo 0x07 0 j now } : FaultInfo)
    let s := s.tile.dr.runs.foldl (fun s r =>
      match r.slot with
      | some n => if r.s + dDeadline r.ws < now then s.cond (fault r.serial r.j (r.stat n)) else s
      | none => s) s
    match s.tile.dr.fence, s.tile.dq.entries, s.tile.dq.act with
    | true, e :: _, some a => if a.s + dDeadline e.ws < now then s.cond (fault e.serial e.j 0) else s
    | _, _, _ => s

/-- The conditions of the D engine on this cycle, after its reads (R145). -/
def State.droverConds (s : State) : State := s.droverReports.droverFinishes.droverFence

/-- A run leaves nothing behind: no slot, no beat in flight, no report or answer to come. -/
def DRun.over' (r : DRun) : Bool := r.slot.isNone && r.refusals.isEmpty && r.beats.isEmpty && !r.asked

/-- The end of the cycle: slots of finished runs are free, pushes cut short are forgotten, rings count (R242, R285). -/
def State.droverEnd (s : State) : State :=
  let s := s.tile.dr.runs.foldl (fun s r =>
    if r.slot.isSome && r.fin == some s.pad.rtick then s.freeSlotOf r else s) s
  let s := s.tile.dr.runs.foldl (fun s r =>
    match r.over' && r.base.isSome, r.ring with
    | true, some k =>
      let home := r.dstTile s.pad.shape s.cur.tile
      if (FMap.getD r.filled (home * 512 + r.base.getD 0) 0) == fullMask then s
      else s.atTile home fun s => s.modDrover fun d => { d with pushing := nsDel d.pushing k }
    | _, _ => s) s
  s.modDrover fun d =>
    let runs := d.runs.filter fun r => !r.over'
    { d with runs := runs, shun := d.shun.filter fun x =>
        runs.any (·.serial == x.serial) || s.tile.dq.entries.any (·.serial == x.serial) }

end Sys2Proof.Machine
end

