-- ==== Sys2Proof/Machine/Lanes.lean ====
section
/-!
DEFINITION. Machine/Lanes.lean: what the vector engine computes on lanes: element-wise functions, reductions, permutation,
conversion, and table interpolation (R339 to R352).
-/
namespace Sys2Proof.Machine

-- Element-wise functions (Table 13-3, R341, R346 to R348)

/-- The functions of one lane. -/
inductive LaneFn where
  | add | sub | mul | fma | min | max | abs | neg | and | or | xor | shl | shr | sar | sel | cmp
  | rcp | rsq | exp | log
  deriving DecidableEq, Repr

/-- An integer result as a lane: wrapped, or clamped to the signed range. -/
def intLane (w : Nat) (sat : Bool) (v : Int) : FRes :=
  let lo : Int := -(2 ^ (w - 1) : Nat)
  let hi : Int := (2 ^ (w - 1) : Nat) - 1
  let x := if sat then max lo (min hi v) else v
  { pat := (x % (2 ^ w : Nat)).toNat, fl := 0 }

def lanePat (p : Nat) : FRes := { pat := p, fl := 0 }

/-- All ones of a width when a condition holds. -/
def laneMask (w : Nat) (b : Bool) : Nat := if b then 2 ^ w - 1 else 0

/-- An integer lane under a function; md as fn[7:4] of the instruction. -/
def LaneFn.int (f : LaneFn) (w md a b d : Nat) : FRes :=
  let x := sext w a
  let y := sext w b
  let sat := md == 1
  match f with
  | .add => intLane w sat (x + y)
  | .sub => intLane w sat (x - y)
  | .mul => intLane w sat (x * y)
  | .fma => intLane w sat (x * y + sext w d)
  | .min => lanePat (if md = 1 then Nat.min a b else if y < x then b else a)
  | .max => lanePat (if md = 1 then Nat.max a b else if x < y then b else a)
  | .abs => intLane w sat (x.natAbs : Int)
  | .neg => intLane w sat (-x)
  | .and => lanePat (a &&& b)
  | .or => lanePat (a ||| b)
  | .xor => lanePat (a ^^^ b)
  | .shl => lanePat (if w ≤ b then 0 else a * 2 ^ b % 2 ^ w)
  | .shr => lanePat (if w ≤ b then 0 else a / 2 ^ b)
  | .sar => intLane w false (x / (2 ^ (Nat.min b w) : Nat))
  | .sel => lanePat (if d ≠ 0 then a else b)
  | .cmp => lanePat (laneMask w (((IntCond.ofCode md).getD .eq).holds (BitVec.ofNat w a) (BitVec.ofNat w b)))
  | _ => lanePat 0

/-- A float lane under a function. -/
def LaneFn.flt (f : LaneFn) (t : Fmt) (md a b d : Nat) : FRes :=
  let w := t.width
  match f with
  | .add => fAdd t (rndOf md) a b
  | .sub => fSub t (rndOf md) a b
  | .mul => fMul t (rndOf md) a b
  | .fma => fFma t (rndOf md) a b d
  | .min => fPick t false a b
  | .max => fPick t true a b
  | .abs => lanePat (a % 2 ^ (w - 1))
  | .neg => lanePat (if a < 2 ^ (w - 1) then a + 2 ^ (w - 1) else a - 2 ^ (w - 1))
  | .and => lanePat (a &&& b)
  | .or => lanePat (a ||| b)
  | .xor => lanePat (a ^^^ b)
  | .sel => lanePat (if d ≠ 0 then a else b)
  | .cmp =>
    let r := fCond t ((FpCond.ofCode md).getD .eq) a b
    { pat := laneMask w r.1, fl := r.2 }
  | .rcp => fRcpa t a
  | .rsq => fRsqa t a
  | .exp => fExp2a a
  | .log => fLog2a a
  | _ => lanePat 0

/-- One lane of a type. -/
def LaneFn.apply (f : LaneFn) (t : VTy) (md a b d : Nat) : FRes :=
  if t.isInt then f.int t.fmt.width md a b d else f.flt t.fmt md a b d

-- Rows as lanes

/-- The lanes of a row, little-endian (R333). -/
def lanesOf (n : Nat) (bs : List Byte) : List Nat :=
  (List.range (bs.length / n)).map fun i => leNat ((bs.drop (n * i)).take n)

/-- Lanes as a row, and the flags they set. -/
def rowOf (n : Nat) (rs : List FRes) : List Byte × BitVec 7 :=
  (rs.flatMap fun r => natLE n r.pat, rs.foldl (fun f r => f ||| r.fl) 0)

/-- A function applied lane by lane. -/
def mapLanes (f : LaneFn) (t : VTy) (md : Nat) (a b d : List Byte) : List Byte × BitVec 7 :=
  let n := t.bytes
  let xs := lanesOf n a
  let ys := lanesOf n b
  let ds := lanesOf n d
  rowOf n ((List.range t.lanes).map fun i => f.apply t md (xs.getD i 0) (ys.getD i 0) (ds.getD i 0))

-- Reductions (R350)

/-- One level of the tree: neighbours combined, an odd last one kept. -/
def redLevel (op : Nat → Nat → FRes) : List Nat → List FRes
  | x :: y :: zs => op x y :: redLevel op zs
  | [x] => [lanePat x]
  | [] => []

/-- The tree, n levels of it, with every flag set on the way. -/
def redTree (op : Nat → Nat → FRes) : Nat → List Nat → BitVec 7 → Nat × BitVec 7
  | 0, l, fl => (l.headD 0, fl)
  | n + 1, l, fl =>
    let r := redLevel op l
    redTree op n (r.map (·.pat)) (r.foldl (fun f x => f ||| x.fl) fl)

/-- VREDADD and VREDMAX of a row: the sum or maximum in lane 0, the rest zero. -/
def reduceRow (f : LaneFn) (t : VTy) (md : Nat) (a : List Byte) : List Byte × BitVec 7 :=
  let r := redTree (fun x y => f.apply t md x y 0) 9 (lanesOf t.bytes a) 0
  (natLE t.bytes r.1 ++ List.replicate (384 - t.bytes) 0, r.2)

-- Permutation, broadcast, conversion (R343 to R345)

def permRow (t : VTy) (a b : List Byte) : List Byte :=
  let xs := lanesOf t.bytes a
  (lanesOf t.bytes b).flatMap fun j => natLE t.bytes (xs.getD (j % t.lanes) 0)

def bcastRow (t : VTy) (x : W64) : List Byte := (List.range t.lanes).flatMap fun _ => natLE t.bytes x.toNat

/-- Lane `lane` of a row replaced. -/
def movsRow (t : VTy) (x : W64) (lane : Nat) (d : List Byte) : List Byte :=
  d.take (t.bytes * lane) ++ natLE t.bytes x.toNat ++ d.drop (t.bytes * (lane + 1))

/-- The rounding of destination lane i: RSR draws by lane (R345). -/
def cvtMode (md : Nat) (key : W64) (ctr i : Nat) : Rnd :=
  if md = 4 then rsrOf key (ctr + i / 8) (16 * (i % 8)) else rndOf md

/-- VCVT of part p between types of any lane counts (R345). -/
def cvtRow (td ts : VTy) (md p : Nat) (key : W64) (ctr : Nat) (a d : List Byte) : List Byte × BitVec 7 :=
  let xs := lanesOf ts.bytes a
  let ds := lanesOf td.bytes d
  let n := Nat.min ts.lanes td.lanes
  let cvt := fun (i x : Nat) => convert ts.fmt td.fmt x (cvtMode md key ctr i)
  if td.lanes ≤ ts.lanes then
    rowOf td.bytes ((List.range n).map fun i =>
      if p * n + i < ts.lanes then cvt i (xs.getD (p * n + i) 0) else lanePat 0)
  else
    rowOf td.bytes ((List.range td.lanes).map fun l =>
      if p * n ≤ l ∧ l < p * n + n then cvt l (xs.getD (l - p * n) 0) else lanePat (ds.getD l 0))

/-- 24 Philox blocks (R349). -/
def rngRow (key : W64) (ctr : Nat) : List Byte := (List.range 24).flatMap fun g => natLE 16 (philox key (ctr + g))

-- Table interpolation (R351, R352)

/-- The header of an interpolation table (Table 13-4). -/
structure TabHead where
  hin : Nat
  hip : Nat
  lo : Nat
  sign : Nat
  mb : Nat
  nexp : Nat
  emin : Int
  deriving DecidableEq, Repr

def tabHead (h : W64) : TabHead :=
  { hin := bits h 43 42, hip := bits h 41 40, lo := bits h 39 38, sign := bits h 37 36, mb := bits h 35 32,
    nexp := bits h 23 16, emin := sext 8 (bits h 7 0) }

/-- Pairs in a half of the table. -/
def TabHead.half (h : TabHead) : Nat := h.nexp * 2 ^ h.mb

/-- Pairs of the table. -/
def TabHead.pairs (h : TabHead) : Nat := if h.sign = 2 then 2 * h.half else h.half

/-- A valid header at a table offset (R351). -/
def tabValid (w : W64) (toff : Nat) : Bool :=
  let h := tabHead w
  bits w 63 44 == 0 && bits w 31 24 == 0 && bits w 15 8 == 0 &&
    decide (h.hin ≤ 2 ∧ h.hip ≤ 2 ∧ h.lo ≤ 2 ∧ h.sign ≤ 2 ∧ h.mb ≤ 10 ∧ -126 ≤ h.emin ∧ 1 ≤ h.nexp ∧
      h.emin + h.nexp ≤ 128 ∧ h.pairs ≤ 1024 ∧ toff + 8 + 8 * h.pairs ≤ 16384)

/-- What a lookup comes to before any pair is read: a result, or a pair with the fraction num / 2^den. -/
inductive TabPick where
  | done (r : FRes)
  | pair (i num den : Nat) (flip : Bool)
  deriving DecidableEq, Repr

/-- The clamp, zero or identity of an out-of-range lookup. -/
def tabEdge (how x i num : Nat) (flip : Bool) : TabPick :=
  match how with
  | 0 => .pair i num 0 flip
  | 1 => .done (lanePat 0)
  | _ => .done (lanePat x)

/-- Which pair a lane value looks up (R352). -/
def TabHead.pick (h : TabHead) (t : Fmt) (x : Nat) : TabPick :=
  match widen t x with
  | .nan _ s _ _ => .done (nanRes t s)
  | .inf n =>
    let base := if h.sign = 2 ∧ n then h.half else 0
    tabEdge (if n then h.hin else h.hip) x (base + h.half - 1) 1 (h.sign == 1 && n)
  | .fin n m e =>
    let base := if h.sign = 2 ∧ n then h.half else 0
    let flip := h.sign == 1 && n
    if m = 0 then tabEdge h.lo x base 0 flip
    else
      let ef := normalise m e
      if ef.1 < h.emin then tabEdge h.lo x base 0 flip
      else if h.emin + h.nexp ≤ ef.1 then tabEdge (if n then h.hin else h.hip) x (base + h.half - 1) 1 flip
      else
        let den := 23 - h.mb
        .pair (base + (ef.1 - h.emin).toNat * 2 ^ h.mb + ef.2 / 2 ^ den) (ef.2 % 2 ^ den) den flip

/-- The result from a pair (R352). -/
def tabResult (t : Fmt) (md : Nat) (pair : W64) (num den : Nat) (flip : Bool) : FRes :=
  let v := widen Fmt.f32 (bits pair 31 0)
  let sl := widen Fmt.f32 (bits pair 63 32)
  let r := vFma sl (.fin false num (-(den : Int))) v t (rndOf md)
  if flip && !(widen t r.pat).isNan then
    { r with pat := if r.pat < 2 ^ (t.width - 1) then r.pat + 2 ^ (t.width - 1) else r.pat - 2 ^ (t.width - 1) }
  else r

end Sys2Proof.Machine
end

