-- ==== Sys2Proof/Machine/Matrix.lean ====
section
/-!
DEFINITION. Machine/Matrix.lean: the matrix engine: its commands, loop nests, products from start to retirement, scale
queues, clearing and writing back accumulator tiles, and its faults (R302 to R332).
-/
namespace Sys2Proof.Machine

-- Loop-nest tables (Tables 12-4, 12-5): the words an entry copied; word 24 is the format entry

def mWord (ws : List W64) (i : Nat) : W64 := ws.getD i 0

/-- Fields of an operand word. -/
def opRing (w : W64) : Option Nat := if bit w 63 then some (bits w 58 56) else none
def opPoplev (w : W64) : Nat := bits w 50 48
def opEchk (w : W64) : Bool := bit w 47
def opFrame (w : W64) : Nat := bits w 40 32
def opEtag (w : W64) : Nat := bits w 15 0

def mNlev (ws : List W64) : Nat := bits (mWord ws 2) 26 24
def mCtile (ws : List W64) : Nat := bits (mWord ws 2) 5 0
def mAcct (ws : List W64) : Bool := bit (mWord ws 2) 16
def mWbtype (ws : List W64) : Nat := bits (mWord ws 3) 63 60
def mWbmode (ws : List W64) : Nat := bits (mWord ws 3) 59 57
def mWbstride (ws : List W64) : Nat := bits (mWord ws 3) 43 32
def mWbaddr (ws : List W64) : Nat := bits (mWord ws 3) 20 0

-- Fields of level l
def lTrip (ws : List W64) (l : Nat) : Nat := bits (mWord ws (6 + 3 * l)) 63 48
def lSignal (ws : List W64) (l : Nat) : Signal :=
  let w := mWord ws (6 + 3 * l)
  { q := bits w 23 16, n := bits w 31 24, rel := bit w 33 }
def lWait (ws : List W64) (l : Nat) : Wait :=
  let w := mWord ws (6 + 3 * l)
  { q := bits w 7 0, n := bits w 15 8, acq := bit w 32 }
def lAstr (ws : List W64) (l : Nat) : Int := sext 32 (bits (mWord ws (7 + 3 * l)) 63 32)
def lBstr (ws : List W64) (l : Nat) : Int := sext 32 (bits (mWord ws (7 + 3 * l)) 31 0)
def lCstr (ws : List W64) (l : Nat) : Int := sext 8 (bits (mWord ws (8 + 3 * l)) 7 0)

-- Pushes (R308, R309, R322)

/-- The format entry a product command selects (R308). -/
def State.formatOf (s : State) (w2 : W64) : W64 :=
  let k := if bit w2 17 then ((s.tile.core.level (bits w2 19 18)).cnt.toNat + bits w2 23 20) % 16 else bits w2 23 20
  Regs.rd s.tile.mx.ft k

/-- Push of a command that names a table. -/
def State.pushTable (s : State) (i : Instr) (e : En) : Out :=
  let ws := Regs.words s.tile.mx.mn (24 * (e.idx.toNat % 4)) 24
  s.issue (s.pushCheck .m i e.dly.toNat) (s.pushEn .m i e (ws ++ [s.formatOf (mWord ws 2)]) [])

def execMnop (s : State) : Out := .next s
def execMgo (e : En) (s : State) : Out := s.pushTable (.mgo e) e
def execMma (e : En) (s : State) : Out := s.pushTable (.mma e) e
def execMzero (e : En) (s : State) : Out := s.pushTable (.mzero e) e

/-- A write-back with random rounding needs a target of 16 bits or fewer: a decode check against the named shadow (R326). A reserved WBTYPE,
which has no width, does not pass it (R113, log entry 76). -/
def State.mwbIllegal (s : State) (e : En) : Bool :=
  let w3 := Regs.rd s.tile.mx.mn (24 * (e.idx.toNat % 4) + 3)
  bits w3 59 57 == 4 && !(bits w3 63 60 == 0 || bits w3 63 60 == 1 || bits w3 63 60 == 4 || bits w3 63 60 == 5)

def execMwb (e : En) (s : State) : Out :=
  if s.mwbIllegal e then .next (s.takeFault (illegal .m (.mwb e))) else s.pushTable (.mwb e) e

/-- MSCL copies the iterator record of its index (R327). -/
def execMscl (e : En) (s : State) : Out :=
  s.issue (s.pushCheck .m (.mscl e) e.dly.toNat)
    (s.pushEn .m (.mscl e) e [] [Regs.words s.tile.dr.ti (8 * (e.idx.toNat % 32)) 8])

def execMpop (e : En) (s : State) : Out :=
  s.issue (s.pushCheck .m (.mpop e) e.dly.toNat) (s.pushEn .m (.mpop e) e [] [])

def execMvwin (e : En) (s : State) : Out :=
  s.issue (s.pushCheck .m (.mvwin e) e.dly.toNat) (s.pushEn .m (.mvwin e) e [] [])

-- Formats (R302 to R305, R307, R315)

/-- Slices of a format along its side of the array. -/
def fmtSlices : Fmt → Nat
  | .int w _ _ => ceilDiv w 2
  | .flt _ m _ _ => Nat.max 2 (ceilDiv (m + 1) 2)

/-- Elements of a slab row. -/
def fmtK (f : Fmt) : Nat := if f.width = 16 then 32 else if f.width = 4 then 128 else 64

/-- The MX flag a format code allows (R307). -/
def mxFlagOk (code : Nat) (flag : Bool) : Bool :=
  if code ≤ 3 then flag else if 6 ≤ code ∧ code ≤ 10 then true else !flag

/-- A format accumulates into acc.i48 (Table 10-1). -/
def toI48 (code : Nat) : Bool := code == 4 || code == 5

/-- What a product's format entry comes to: formats, scaling of each side, rounding, K, block size, cycles. -/
structure ProdFmt where
  fa : Fmt
  fb : Fmt
  ints : Bool
  amx : Bool
  bmx : Bool
  mode : Rnd
  k : Nat
  blk : Nat
  t : Nat
  deriving DecidableEq, Repr

/-- A legal pair, or the reason it is refused (R304, R330). -/
def prodFmt (w : W64) : Except Nat ProdFmt :=
  let ca := bits w 3 0
  let cb := bits w 7 4
  let amx := bit w 8
  let bmx := bit w 9
  match matFmt ca, matFmt cb with
  | some fa, some fb =>
    if !(mxFlagOk ca amx && mxFlagOk cb bmx) then .error 1
    else if toI48 ca != toI48 cb then .error 2
    else if fmtK fa ≠ fmtK fb then .error 3
    else
      let c := 128 / Nat.max (fmtSlices fa) (fmtSlices fb)
      .ok { fa := fa, fb := fb, ints := toI48 ca, amx := amx, bmx := bmx, mode := rndOf (bits w 11 10), k := fmtK fa,
            blk := if amx || bmx then 32 else 16, t := ceilDiv (4096 * fmtK fa) (c * c) }
  | _, _ => .error 1

def ProdFmt.nb (f : ProdFmt) : Nat := f.k / f.blk

-- Nests (R310, R311)

/-- Levels an entry uses: those of a nest, level 0 alone for the other commands. -/
def nestLevels (e : Entry) : List Nat :=
  match e.instr with
  | .mgo _ => List.range (Nat.min 6 (mNlev e.ws))
  | _ => [0]

/-- Iterations of a level. -/
def nestTrip (e : Entry) (l : Nat) : Nat :=
  match e.instr with
  | .mgo _ => lTrip e.ws l
  | _ => 1

/-- Products of one run. -/
def nestTotal (e : Entry) : Nat := (nestLevels e).foldl (fun n l => n * nestTrip e l) 1

/-- The iteration vector of product p: level and index, innermost first. -/
def nestIndex (e : Entry) : List Nat → Nat → List (Nat × Nat)
  | [], _ => []
  | l :: ls, p => (l, p % nestTrip e l) :: nestIndex e ls (p / nestTrip e l)

/-- Levels whose iteration begins at product p, outermost first (R311). -/
def levelsBegin (e : Entry) (p : Nat) : List Nat :=
  let v := nestIndex e (nestLevels e) p
  ((v.filter fun x => v.all fun y => decide (x.1 ≤ y.1) || y.2 == 0).map (·.1)).reverse

/-- Levels whose iteration ends at product p. -/
def levelsEnd (e : Entry) (p : Nat) : List Nat :=
  let v := nestIndex e (nestLevels e) p
  (v.filter fun x => v.all fun y => decide (x.1 ≤ y.1) || y.2 + 1 == nestTrip e y.1).map (·.1)

/-- Waits of product p (R311). -/
def prodWaits (e : Entry) (p : Nat) : List Wait := (levelsBegin e p).map (lWait e.ws)

/-- Signals of product p. -/
def prodSignals (e : Entry) (p : Nat) : List Signal := (levelsEnd e p).map (lSignal e.ws)

/-- A sum over the used levels of index times stride. -/
def nestSum (e : Entry) (p : Nat) (stride : Nat → Int) : Int :=
  match e.instr with
  | .mgo _ => (nestIndex e (nestLevels e) p).foldl (fun n x => n + (x.2 : Int) * stride x.1) 0
  | _ => 0

/-- Frame numbers of a frame operand (R310). -/
def frameA (e : Entry) (p : Nat) : Int := (opFrame (mWord e.ws 0) : Int) + (e.j : Int) * e.step + nestSum e p (lAstr e.ws)
def frameB (e : Entry) (p : Nat) : Int := (opFrame (mWord e.ws 1) : Int) + (e.j : Int) * e.step + nestSum e p (lBstr e.ws)

/-- Accumulator tile of product p. -/
def prodTile (e : Entry) (p : Nat) : Int := (mCtile e.ws : Int) + nestSum e p (lCstr e.ws)

/-- Whether product p pops a ring operand (R312). -/
def popsRing (e : Entry) (p : Nat) (w : W64) : Bool :=
  match e.instr with
  | .mgo _ =>
    if (nestLevels e).contains (opPoplev w) then (levelsEnd e p).contains (opPoplev w) else p + 1 == nestTotal e
  | _ => true

/-- Rings product p pops, each once. -/
def prodPops (e : Entry) (p : Nat) : List Nat :=
  [0, 1].foldl (fun l i =>
    match opRing (mWord e.ws i) with
    | some k => if popsRing e p (mWord e.ws i) then nsAdd l k else l
    | none => l) []

-- Start checks (R330)

/-- tinfo2 of a matrix fault (R331). -/
def mStatus (j p row : Nat) : W64 := fld (p % 2 ^ 32) 0 ||| fld (j % 256) 32 ||| fld (row % 256) 40

def mProtect (serial : BitVec 32) (j p reason : Nat) : FaultInfo :=
  runFault .protection .m serial j (mStatus j p 0) (fld 0xA0 56 ||| fld reason 0)

/-- A frame lies in the scratchpad. -/
def Shape.frameOk (sh : Shape) (f : Int) : Bool := decide (0 ≤ f) && decide ((f.toNat + 1) * 4096 ≤ sh.spBytes)

/-- An accumulator tile exists. -/
def Shape.tileOk (sh : Shape) (t : Int) : Bool := decide (0 ≤ t) && decide (t.toNat < sh.nt)

/-- The reason product p is refused for. -/
def State.prodReason (s : State) (e : Entry) (p : Nat) : Option Nat :=
  let sh := s.pad.shape
  match prodFmt (mWord e.ws 24) with
  | .error n => some n
  | .ok _ =>
    if ((opRing (mWord e.ws 0)).isNone && !sh.frameOk (frameA e p)) ||
        ((opRing (mWord e.ws 1)).isNone && !sh.frameOk (frameB e p)) then some 4
    else if !sh.tileOk (prodTile e p) then some 5
    else none

/-- The reasons of a nest as a whole, judged at its run's start. -/
def nestReason (e : Entry) : Option Nat :=
  match e.instr with
  | .mgo _ =>
    if 2 ^ 32 < nestTotal e then some 8
    else if 6 < mNlev e.ws ∨ 5 < opPoplev (mWord e.ws 0) ∨ 5 < opPoplev (mWord e.ws 1) then some 10
    else none
  | _ => none

/-- QUEUE_IMBALANCE (R314). -/
def imbalance (serial : BitVec 32) (j : Nat) (status : W64) (b overflow : Bool) (count : Nat) : FaultInfo :=
  runFault .queueImbalance .m serial j status (fld b.toNat 0 ||| fld overflow.toNat 8 ||| fld count 16)

/-- A scale queue as an operand of a product (R314). -/
def State.scaleOperand (s : State) (e : Entry) (p : Nat) (b : Bool) (nb : Nat) : Operands :=
  let q := if b then s.tile.mx.scaleB else s.tile.mx.scaleA
  let l := if b then s.tile.mx.loadB else s.tile.mx.loadA
  if nb ≤ q.length then .ready
  else if l.isSome then .wait
  else .fault (imbalance e.serial e.j (mStatus e.j p 0) b false q.length)

/-- Ring operands of a product (R243, R312). -/
def State.prodRings (s : State) (e : Entry) (p : Nat) : Operands :=
  let one := fun (i : Nat) =>
    match opRing (mWord e.ws i) with
    | some k => s.ringOperand .m e (mStatus e.j p 0) k 0
    | none => Operands.ready
  (one 0).and (one 1)

/-- Every operand of product p; of a pair that no product takes, the rings alone (R145, R330). -/
def State.prodOperands (s : State) (e : Entry) (p : Nat) : Operands :=
  match prodFmt (mWord e.ws 24) with
  | .error _ => s.prodRings e p
  | .ok f =>
    let a := if f.amx then s.scaleOperand e p false f.nb else .ready
    let b := if f.bmx then s.scaleOperand e p true f.nb else .ready
    (a.and b).and (s.prodRings e p)

/-- What the start of product p needs: its waits; its operands; its checks, with the nest's own on its first product. -/
def State.prodNeed (s : State) (e : Entry) (p : Nat) : Need :=
  let prot := match s.prodReason e p, (if p = 0 then nestReason e else none) with
    | some n, _ => some (mProtect e.serial e.j p n)
    | none, some n => some (mProtect e.serial e.j p n)
    | none, none => none
  match s.prodOperands e p with
  | .wait => { busy := false, waits := prodWaits e p, ops := .wait, checks := none }
  | .ready => { busy := false, waits := prodWaits e p, ops := .ready, checks := prot }
  | .fault f => { busy := false, waits := prodWaits e p, ops := .ready, checks := some (prot.getD f) }

-- Starts

/-- The frame an operand is read from. -/
def State.operandFrame (s : State) (e : Entry) (p i : Nat) : Nat :=
  match opRing (mWord e.ws i) with
  | some k => (s.tile.dr.ring k).frame 0
  | none => (if i = 0 then frameA e p else frameB e p).toNat

def State.modMatrix (s : State) (f : Matrix → Matrix) : State := s.modTile fun t => { t with mx := f t.mx }

/-- Product p starts (R316, R318); the run completes with the last cycle of its last product. -/
def State.prodGo (s : State) (e : Entry) (p : Nat) : State :=
  let now := s.pad.rtick
  let total := nestTotal e
  match prodFmt (mWord e.ws 24) with
  | .error _ => s
  | .ok f =>
    let pr : Product :=
      { serial := e.serial, j := e.j, p := p, s := now, t := f.t, fmt := mWord e.ws 24, aFrame := s.operandFrame e p 0,
        bFrame := s.operandFrame e p 1, ct := (prodTile e p).toNat, colA := [], colB := [], arows := [], brows := [],
        crow := none, cflags := 0, pops := prodPops e p, sigs := prodSignals e p, dead := false }
    let s := s.modMatrix fun m =>
      { m with prods := m.prods ++ [pr], nest := some { p := p + 1, total := total, due := now + f.t } }
    s.modQueue .m fun q =>
      { q with act := some { s := (q.act.map (·.s)).getD now, fin := if p + 1 = total then some (now + f.t - 1) else none } }

/-- Tile of a run of MZERO or MWB. -/
def rowTile (e : Entry) : Int := (mCtile e.ws : Int) + (e.j : Int) * e.step

/-- Destination of row i of a run of MWB (R326). -/
def wbRow (ws : List W64) (j : Nat) (step : Int) (i : Nat) : Int :=
  (mWbaddr ws : Int) + (64 * (j : Int) * step + i) * 64 * mWbstride ws

/-- The reason a run of MZERO or MWB is refused for. -/
def State.rowReason (s : State) (e : Entry) (wb : Bool) : Option Nat :=
  let sh := s.pad.shape
  let width := 64 * ((VTy.ofCode (mWbtype e.ws)).map VTy.bytes).getD 0
  if !sh.tileOk (rowTile e) then some 5
  else if wb && (mWbaddr e.ws % 64 != 0 || !((List.range 64).all fun i =>
      let a := wbRow e.ws e.j e.step i
      decide (0 ≤ a) && sh.inSp a.toNat width)) then some 6
  else if wb && ((VTy.ofCode (mWbtype e.ws)).isNone || decide (4 < mWbmode e.ws)) then some 10
  else none

/-- A run of MZERO or MWB begins. -/
def State.rowGo (s : State) (e : Entry) (wb : Bool) : State :=
  let now := s.pad.rtick
  let r : RowRun :=
    { serial := e.serial, j := e.j, s := now, tile := (rowTile e).toNat, ws := e.ws, wb := wb, step := e.step, row := none,
      flags := 0, sig := some (lSignal e.ws 0), dead := false }
  (s.modMatrix fun m => { m with rows := m.rows ++ [r] }).modQueue .m fun q => q.begin now (some (now + 63))

/-- The walk of a run of MSCL, with its step (R327). -/
def msclWalk (e : Entry) : Walk :=
  let w := walkOf (e.its.getD 0 [])
  { w with base := w.base }

def msclOff (e : Entry) : Int := 64 * (e.j : Int) * e.step

/-- The form of R327: in the scratchpad, single bytes, 64 to 4,096 of them, a multiple of 64. -/
def State.msclOk (s : State) (e : Entry) : Bool :=
  let w := msclWalk e
  let sh := s.pad.shape
  w.ok && w.es == 0 && decide (64 ≤ w.count ∧ w.count ≤ 4096) && w.count % 64 == 0 &&
    (List.range w.count).all fun i =>
      match sh.target s.cur.tile (w.addr i (msclOff e)) with
      | .own o => sh.inSp o 1
      | _ => false

/-- A scale loader begins (R327). -/
def State.msclGo (s : State) (e : Entry) (b : Bool) : State :=
  let now := s.pad.rtick
  let l : Loader :=
    { serial := e.serial, j := e.j, s := now, walk := e.its.getD 0 [], off := msclOff e, cols := (msclWalk e).count / 64,
      entered := 0, got := none }
  (s.modMatrix fun m => if b then { m with loadB := some l } else { m with loadA := some l }).modQueue .m fun q =>
    q.begin now (some now)

/-- A need without operands. -/
def plainNeed (waits : List Wait) (chk : Option FaultInfo) : Need := { busy := false, waits := waits, ops := .ready, checks := chk }

/-- What the start of the head's next run needs (R318, R325 to R329). -/
def State.matrixNeed (s : State) (e : Entry) : Need :=
  let prot := fun (r : Option Nat) => r.map (mProtect e.serial e.j 0)
  match e.instr with
  | .mgo _ => if nestTotal e = 0 then plainNeed [] (prot (nestReason e)) else s.prodNeed e 0
  | .mma _ => s.prodNeed e 0
  | .mzero _ => plainNeed [lWait e.ws 0] (prot (s.rowReason e false))
  | .mwb _ => plainNeed [lWait e.ws 0] (prot (s.rowReason e true))
  | .mscl x =>
    { busy := if 32 ≤ x.idx.toNat then s.tile.mx.loadB.isSome else s.tile.mx.loadA.isSome, waits := [], ops := .ready,
      checks := if s.msclOk e then none else prot (some 7) }
  | .mpop x =>
    let k := x.idx.toNat % 8
    let r := s.tile.dr.ring k
    plainNeed [] (if !r.valid s.pad.shape || r.occ == 0 then
      some (runFault .ring .m e.serial e.j (mStatus e.j 0 0) (ringInfo k true r.occ s.pad.rtick)) else none)
  | .mvwin x => plainNeed [] (if x.idx.toNat < s.pad.shape.nt then none else prot (some 9))
  | _ => plainNeed [] none

/-- What the start does. -/
def State.matrixGo (s : State) (e : Entry) : State :=
  let atOnce := fun (s : State) => s.modQueue .m fun q => q.begin s.pad.rtick (some s.pad.rtick)
  match e.instr with
  | .mgo _ => if nestTotal e = 0 then atOnce s else s.prodGo e 0
  | .mma _ => s.prodGo e 0
  | .mzero _ => s.rowGo e false
  | .mwb _ => s.rowGo e true
  | .mscl x => s.msclGo e (decide (32 ≤ x.idx.toNat))
  | .mpop x => (atOnce s).popRing (x.idx.toNat % 8)
  | _ => atOnce s

/-- The waits of an entry's next run. -/
def matrixWaits (e : Entry) : List Wait :=
  match e.instr with
  | .mgo _ => if nestTotal e = 0 then [] else prodWaits e 0
  | .mma _ | .mzero _ | .mwb _ => [lWait e.ws 0]
  | _ => []

/-- The start of the head's next run. -/
def State.matrixHead (s : State) (e : Entry) : State :=
  s.startHead .m e (mStatus e.j 0 0) (s.matrixNeed e) fun s => s.matrixGo e

/-- The M engine's start on this cycle: the next product of the nest in progress, on the first cycle that meets its conditions (R318), or
the head's next run. -/
def State.matrixStart (s : State) : State :=
  let s := s.watch .m matrixWaits
  let s := match s.headLate .m (fun e => mStatus e.j 0 0) with
    | some f => s.cond f
    | none => s
  match s.tile.mq.entries, s.tile.mq.act, s.tile.mx.nest with
  | e :: _, some _, some n =>
    if n.p < n.total && s.isDue n.due then
      s.startHead .m { e with ready := none } (mStatus e.j n.p 0) (s.prodNeed e n.p) fun s => s.prodGo e n.p
    else s
  | e :: _, none, _ => if s.isDue e.due then s.matrixHead e else s
  | _, _, _ => s

def execMatrixProductStart (s : State) : Out := .next s.matrixStart

-- Faults of a product (R331)

/-- A product fails: it and every later one of its entry end, and the entry leaves the queue. -/
def State.prodFail (s : State) (p : Product) (f : FaultInfo) : State :=
  let s := (s.cond f).modQueue .m fun q => q.remove p.serial
  s.modMatrix fun m => { m with prods := m.prods.map fun x =>
    if x.serial == p.serial && (decide (p.j < x.j) || (x.j == p.j && decide (p.p ≤ x.p))) then { x with dead := true } else x }

def State.modProd (s : State) (p : Product) (f : Product → Product) : State :=
  s.modMatrix fun m => { m with prods := m.prods.map fun x =>
    if x.serial == p.serial && x.j == p.j && x.p == p.p then f x else x }

/-- A fault of a product with a row. -/
def Product.fault (p : Product) (c : Cause) (row : Nat) (t3 : W64) : FaultInfo :=
  runFault c .m p.serial p.j (mStatus p.j p.p row) t3

-- Reads (R312, R313, R316)

/-- The entry of a product while it is in the queue. -/
def State.prodEntry (s : State) (p : Product) : Option Entry := s.tile.mq.entries.find? fun e => e.serial == p.serial

/-- The tag operand i of a product expects, where it expects one: a ring's, or ETAG + p + j P of a checked frame. -/
def State.prodTag (s : State) (p : Product) (i : Nat) : Option Nat :=
  match s.prodEntry p with
  | none => none
  | some e =>
    let w := mWord e.ws i
    match opRing w with
    | some k => some (s.tile.dr.ring k).ctag
    | none => if opEchk w then some ((opEtag w + p.p + p.j * nestTotal e) % 65536) else none

/-- The first wrong tag of a product's operands. -/
def State.prodTagFault (s : State) (p : Product) : Option FaultInfo :=
  [(0, p.aFrame), (1, p.bFrame)].findSome? fun x =>
    match s.prodTag p x.1 with
    | some t => if s.tagWrong x.2 t then some (p.fault .seqTag 0 (seqTagInfo t (s.tagOf x.2) x.2)) else none
    | none => none

/-- A product of the current tile has failed. -/
def State.prodDead (s : State) (p : Product) : Bool :=
  s.tile.mx.prods.any fun x => x.serial == p.serial && x.j == p.j && x.p == p.p && x.dead

/-- Take the scale columns of a product from the queues, unless it has failed (R313, R331). -/
def State.takeScales (s : State) (p : Product) : State :=
  match s.prodDead p, prodFmt p.fmt with
  | true, _ | _, .error _ => s
  | false, .ok f =>
    let a := if f.amx then f.nb else 0
    let b := if f.bmx then f.nb else 0
    let m := s.tile.mx
    let s := s.modProd p fun x => { x with colA := m.scaleA.take a, colB := m.scaleB.take b }
    s.modMatrix fun m => { m with scaleA := m.scaleA.drop a, scaleB := m.scaleB.drop b }

/-- Read row r of both operands; the fault of a poisoned word names its pool byte offset, the first one of the row (log entry 76). -/
def State.readSlabRow (s : State) (p : Product) (r : Nat) : State :=
  match s.poolRead (4096 * p.aFrame + 64 * r) 64 with
  | (s, .error a) => s.prodFail p (p.fault (s.poolCause a) r (w64 a))
  | (s, .ok ra) =>
    match s.poolRead (4096 * p.bFrame + 64 * r) 64 with
    | (s, .error a) => s.prodFail p (p.fault (s.poolCause a) r (w64 a))
    | (s, .ok rb) => s.modProd p fun x => { x with arows := x.arows ++ [ra], brows := x.brows ++ [rb] }

/-- Pool offset of row i of an accumulator tile (R306). -/
def Shape.accRow (sh : Shape) (t i : Nat) : Nat := sh.spBytes + 24576 * t + 384 * i

/-- Read accumulator row i at retirement. -/
def State.readAccRow (s : State) (p : Product) (i : Nat) : State :=
  match s.poolRead (s.pad.shape.accRow p.ct i) 384 with
  | (s, .error a) => s.prodFail p (p.fault (s.poolCause a) i (w64 a))
  | (s, .ok bs) => s.modProd p fun x => { x with crow := some bs }

/-- What a product reads on this cycle (Table 12-7). -/
def State.prodReads (s : State) (p : Product) : State :=
  let now := s.pad.rtick
  let r := now - p.s
  if s.prodDead p then s
  else
    match (if r = 0 then s.prodTagFault p else none) with
    | some f => s.prodFail p f
    | none =>
      let s := if r < 64 then s.readSlabRow p r else s
      let s := if r = 0 then s.takeScales p else s
      if p.t ≤ r + 1 ∧ r + 1 < p.t + 64 then s.readAccRow p (r + 1 - p.t) else s

/-- A run of MZERO or MWB fails: it and every later one of its entry end, and the entry leaves the queue. -/
def State.rowFail (s : State) (r : RowRun) (f : FaultInfo) : State :=
  let s := (s.cond f).modQueue .m fun q => q.remove r.serial
  s.modMatrix fun m => { m with rows := m.rows.map fun x =>
    if x.serial == r.serial && decide (r.j ≤ x.j) then { x with dead := true } else x }

/-- A row of MWB is read one cycle before it is written (R326). -/
def State.rowReads (s : State) (r : RowRun) : State :=
  let i := s.pad.rtick - r.s
  if !r.wb || r.dead || decide (63 < i) then s
  else
    match s.poolRead (s.pad.shape.accRow r.tile i) 384 with
    | (s, .error a) => s.rowFail r (runFault (s.poolCause a) .m r.serial r.j (mStatus r.j 0 i) (w64 a))
    | (s, .ok bs) => s.modMatrix fun m =>
        { m with rows := m.rows.map fun x => if x.serial == r.serial && x.j == r.j then { x with row := some bs } else x }

/-- The column a loader reads on this cycle: its bytes, or the address of a poisoned one. -/
def State.readColumn (s : State) (l : Loader) (e : Nat) : State × Except Nat (List Byte) :=
  (List.range 64).foldl (fun x i =>
    match x.2 with
    | .error a => (x.1, .error a)
    | .ok bs =>
      let o := x.1.ownOff ((walkOf l.walk).addr (64 * e + i) l.off)
      match x.1.poolRead o 1 with
      | (s, .error _) => (s, .error o)
      | (s, .ok b) => (s, .ok (bs ++ b))) (s, .ok [])

/-- A loader's cycle: a column read, an overflow, or poison, which ends its entry (R327, R331). -/
def State.loaderCycle (s : State) (b : Bool) : State :=
  let set := fun (s : State) (l : Option Loader) =>
    s.modMatrix fun m => if b then { m with loadB := l } else { m with loadA := l }
  match (if b then s.tile.mx.loadB else s.tile.mx.loadA) with
  | none => s
  | some l =>
    if s.pad.rtick ≤ l.s then s
    else
      match s.readColumn l l.entered with
      | (s, .error a) =>
        set ((s.cond (runFault (s.poolCause a) .m l.serial l.j (mStatus l.j 0 0) (w64 a))).modQueue .m fun q =>
          q.remove l.serial) none
      | (s, .ok col) =>
        let q := if b then s.tile.mx.scaleB else s.tile.mx.scaleA
        if 64 ≤ q.length then set (s.cond (imbalance l.serial l.j (mStatus l.j 0 0) b true q.length)) none
        else set s (some { l with got := some col })

/-- A loader after the column read on this cycle has entered its queue. -/
def Loader.after (l : Loader) : Option Loader :=
  if l.entered + 1 < l.cols then some { l with entered := l.entered + 1, got := none } else none

/-- A column enters queue A at the end of the cycle that read it. -/
def Matrix.enterA (m : Matrix) : Matrix :=
  match m.loadA with
  | some l =>
    match l.got with
    | some col => { m with scaleA := m.scaleA ++ [col], loadA := l.after }
    | none => m
  | none => m

/-- A column enters queue B. -/
def Matrix.enterB (m : Matrix) : Matrix :=
  match m.loadB with
  | some l =>
    match l.got with
    | some col => { m with scaleB := m.scaleB ++ [col], loadB := l.after }
    | none => m
  | none => m

/-- Every read of the matrix engine on this cycle. -/
def State.matrixReads (s : State) : State :=
  let s := s.tile.mx.prods.foldl State.prodReads s
  let s := s.tile.mx.rows.foldl State.rowReads s
  (s.loaderCycle false).loaderCycle true

-- Retirement (R316, R317)

/-- The elements of a slab row, w bits each (R261). -/
def unpackRow (w k : Nat) (bs : List Byte) : List Nat :=
  let x := leNat bs
  (List.range k).map fun i => x / 2 ^ (w * i) % 2 ^ w

/-- The scale code of row r in column k of a product's columns. -/
def scaleCode (cols : List (List Byte)) (on : Bool) (k r : Nat) : Nat :=
  if on then ((cols.getD k []).getD r 0).toNat else 127

/-- One accumulator element after the blocks of a product, in ascending K, with its flags. -/
def ProdFmt.cell (f : ProdFmt) (colA colB : List (List Byte)) (a b : List Nat) (i n c : Nat) : FRes :=
  (List.range f.nb).foldl (fun r k =>
    let xs := (a.drop (k * f.blk)).take f.blk
    let ys := (b.drop (k * f.blk)).take f.blk
    let u :=
      if f.ints then
        blockI48 ((xs.zip ys).map fun p => (sext f.fa.width p.1, sext f.fb.width p.2)) r.pat
      else
        blockF48 ((xs.zip ys).map fun p => (widen f.fa p.1, widen f.fb p.2)) (scaleCode colA f.amx k i)
          (scaleCode colB f.bmx k n) r.pat f.mode
    { pat := u.pat, fl := r.fl ||| u.fl }) { pat := c, fl := 0 }

/-- Row i of the accumulator tile after a product: its bytes and flags. -/
def Product.newRow (p : Product) (f : ProdFmt) (i : Nat) (crow : List Byte) : List Byte × BitVec 7 :=
  let a := unpackRow f.fa.width f.k (p.arows.getD i [])
  let cs := unpackRow 48 64 crow
  (p.brows.zip cs).zipIdx.foldl (fun x e =>
    let r := f.cell p.colA p.colB a (unpackRow f.fb.width f.k e.1.1) i e.2 e.1.2
    (x.1 ++ natLE 6 r.pat, x.2 ||| r.fl)) ([], 0)

/-- Flags of an engine's write, on its cycle (R270). -/
def State.orFlags (s : State) (fl : BitVec 7) : State := s.modTile fun t => t.orFlags fl

/-- The row a product retires on this cycle. -/
def State.prodWrites (s : State) (p : Product) : State :=
  let r := s.pad.rtick - p.s
  match p.crow, prodFmt p.fmt with
  | some bs, .ok f =>
    if p.dead || decide (r < p.t) || decide (p.t + 63 < r) then s
    else
      let x := p.newRow f (r - p.t) bs
      ((s.poolWrite (s.pad.shape.accRow p.ct (r - p.t)) x.1).1.orFlags x.2).modProd p fun y => { y with crow := none }
  | _, _ => s

/-- Element e of row i of a write-back (R326). -/
def State.wbElem (s : State) (r : RowRun) (i e c : Nat) : FRes :=
  let acc := mAcct r.ws
  match VTy.ofCode (mWbtype r.ws) with
  | none => { pat := 0, fl := 0 }
  | some t =>
    if (t = .f48 ∧ acc) ∨ (t = .i48 ∧ !acc) then { pat := c, fl := 0 }
    else
      let ctr := s.cur.tile * 2 ^ 96 + r.tile * 2 ^ 64 + 8 * i + e / 8
      let md := if mWbmode r.ws = 4 then rsrOf (mWord r.ws 4) ctr (16 * (e % 8)) else rndOf (mWbmode r.ws)
      convert (if acc then Fmt.f48 else Fmt.sint 48) t.fmt c md

/-- The row a run of MZERO or MWB writes on this cycle (R325, R326). -/
def State.rowWrites (s : State) (r : RowRun) : State :=
  let i := s.pad.rtick - r.s
  if r.dead then s
  else if !r.wb then
    if i ≤ 63 then (s.poolWrite (s.pad.shape.accRow r.tile i) (List.replicate 384 0)).1 else s
  else
    match r.row with
    | none => s
    | some bs =>
      let n := ((VTy.ofCode (mWbtype r.ws)).map VTy.bytes).getD 0
      let es := (unpackRow 48 64 bs).zipIdx.map fun x => s.wbElem r (i - 1) x.2 x.1
      let s := (s.poolWrite (wbRow r.ws r.j r.step (i - 1)).toNat (es.flatMap fun x => natLE n x.pat)).1
      (s.orFlags (es.foldl (fun f x => f ||| x.fl) 0)).modMatrix fun m =>
        { m with rows := m.rows.map fun x => if x.serial == r.serial && x.j == r.j then { x with row := none } else x }

/-- The place of an entry among those pushed before serial next, older ones first, over the wrap of the 32-bit serial (R138). -/
def serialPlace (next serial : BitVec 32) : Nat := 2 ^ 32 - (next - serial).toNat

/-- Places of what the engine still works on, ascending. -/
def Matrix.places (m : Matrix) (next : BitVec 32) : List Nat :=
  (m.rows.map fun r => serialPlace next r.serial).foldl nsAdd ((m.prods.map fun p => serialPlace next p.serial).foldl nsAdd [])

/-- Every write of the matrix engine on this cycle, in ascending entry serial (R319). -/
def State.matrixWrites (s : State) : State :=
  let m := s.tile.mx
  let next := s.tile.mq.serial
  (m.places next).foldl (fun s n =>
    let s := (m.prods.filter fun p => serialPlace next p.serial == n).foldl State.prodWrites s
    (m.rows.filter fun r => serialPlace next r.serial == n).foldl State.rowWrites s) s

def execMatrixRowRetire (s : State) : Out := .next s.matrixWrites

-- The end of a cycle (R311, R312, R329)

/-- Last write cycle of a row run. -/
def RowRun.last (r : RowRun) : Nat := r.s + (if r.wb then 64 else 63)

/-- Several signals of one run, or the address of the first release among them that is out of scope: then none is made (R331, R396). -/
def State.signalAll (s : State) (gs : List Signal) : Except W64 State :=
  match gs.findSome? fun g => s.signalScope (.sem s.cur.tile g.q) g with
  | some a => .error a
  | none => .ok (gs.foldl (fun s g => s.modSync fun y => y.signal g.q g.n) s)

/-- The signals due on this cycle, with their releases; a release out of scope is SCOPE and ends the entry (R331, R396). -/
def State.matrixConds (s : State) : State :=
  let now := s.pad.rtick
  let s := s.tile.mx.prods.foldl (fun s p =>
    if p.dead || now != p.s + p.t + 63 then s
    else
      match s.signalAll p.sigs with
      | .error a => s.prodFail p (p.fault .scope 0 a)
      | .ok s => s) s
  s.tile.mx.rows.foldl (fun s r =>
    match r.sig with
    | some g =>
      if r.dead || now != r.last then s
      else
        match s.signalAll [g] with
        | .error a => s.rowFail r (runFault .scope .m r.serial r.j (mStatus r.j 0 0) a)
        | .ok s => s
    | none => s) s

/-- Pops of operands retired on this cycle, the window set by MVWIN, scale columns entering, and what is over is forgotten. -/
def State.matrixEnd (s : State) : State :=
  let now := s.pad.rtick
  let s := s.tile.mx.prods.foldl (fun s p =>
    if p.dead || now != p.s + p.t - 1 then s else p.pops.foldl State.popRing s) s
  let s := match s.tile.mq.entries, s.tile.mq.act with
    | e :: _, some _ =>
      match e.instr with
      | .mvwin x => s.modTile fun t => { t with vec := { t.vec with vwin := x.idx.toNat } }
      | _ => s
    | _, _ => s
  s.modMatrix fun m =>
    let m := m.enterA.enterB
    { m with prods := m.prods.filter fun p => decide (now < p.s + p.t + 63) && !p.dead,
             rows := m.rows.filter fun r => decide (now < r.last) && !r.dead,
             nest := if s.tile.mq.act.isNone then none else m.nest }

end Sys2Proof.Machine
end

