-- ==== Sys2Proof/Machine/Vector.lean ====
section
/-!
DEFINITION. Machine/Vector.lean: the vector instructions: pushes, reads and results on the start cycle, writes that land
later, table reads (R333 to R353, R363, R364).
-/
namespace Sys2Proof.Machine

-- Pushes (R111, R335)

/-- Push a VR syllable with the registers it copies. -/
def State.pushV (s : State) (i : Instr) (x y : W64) : Out := s.issue (s.pushCheck .v i 0) (s.pushVr i x y)

def execVnop (s : State) : Out := .next s
def execVld (vd : BitVec 6) (a : Reg) (k : BitVec 6) (s : State) : Out := s.pushV (.vld vd a k) (s.rd a) 0
def execVst (vd : BitVec 6) (a : Reg) (k : BitVec 6) (s : State) : Out := s.pushV (.vst vd a k) (s.rd a) 0
def execVadd (o : Vr) (s : State) : Out := s.pushV (.vadd o) 0 0
def execVsub (o : Vr) (s : State) : Out := s.pushV (.vsub o) 0 0
def execVmul (o : Vr) (s : State) : Out := s.pushV (.vmul o) 0 0
def execVfma (o : Vr) (s : State) : Out := s.pushV (.vfma o) 0 0
def execVmin (o : Vr) (s : State) : Out := s.pushV (.vmin o) 0 0
def execVmax (o : Vr) (s : State) : Out := s.pushV (.vmax o) 0 0
def execVabs (o : Vr) (s : State) : Out := s.pushV (.vabs o) 0 0
def execVneg (o : Vr) (s : State) : Out := s.pushV (.vneg o) 0 0
def execVand (vd va vb : BitVec 6) (s : State) : Out := s.pushV (.vand vd va vb) 0 0
def execVor (vd va vb : BitVec 6) (s : State) : Out := s.pushV (.vor vd va vb) 0 0
def execVxor (vd va vb : BitVec 6) (s : State) : Out := s.pushV (.vxor vd va vb) 0 0
def execVshl (o : Vr) (s : State) : Out := s.pushV (.vshl o) 0 0
def execVshr (o : Vr) (s : State) : Out := s.pushV (.vshr o) 0 0
def execVsar (o : Vr) (s : State) : Out := s.pushV (.vsar o) 0 0
def execVcvt (td ts : VTy) (md p : BitVec 3) (vd va : BitVec 6) (s : State) : Out :=
  s.pushV (.vcvt td ts md p vd va) 0 0
def execVcmp (o : Vr) (s : State) : Out := s.pushV (.vcmp o) 0 0
def execVsel (o : Vr) (s : State) : Out := s.pushV (.vsel o) 0 0
def execVrsqa (o : Vr) (s : State) : Out := s.pushV (.vrsqa o) 0 0
def execVrcpa (o : Vr) (s : State) : Out := s.pushV (.vrcpa o) 0 0
def execVexp2a (vd va : BitVec 6) (s : State) : Out := s.pushV (.vexp2a vd va) 0 0
def execVlog2a (vd va : BitVec 6) (s : State) : Out := s.pushV (.vlog2a vd va) 0 0
def execVtint (o : Vr) (s : State) : Out := s.pushV (.vtint o) 0 0
def execVrng (vd : BitVec 6) (a b : Reg) (s : State) : Out := s.pushV (.vrng vd a b) (s.rd a) (s.rd b)
def execVredadd (o : Vr) (s : State) : Out := s.pushV (.vredadd o) 0 0
def execVredmax (o : Vr) (s : State) : Out := s.pushV (.vredmax o) 0 0
def execVbcast (ty : VTy) (vd : BitVec 6) (a : Reg) (s : State) : Out := s.pushV (.vbcast ty vd a) (s.rd a) 0
def execVperm (o : Vr) (s : State) : Out := s.pushV (.vperm o) 0 0
def execVmovs (ty : VTy) (vd : BitVec 6) (a : Reg) (vb : BitVec 6) (hi : BitVec 4) (s : State) : Out :=
  s.pushV (.vmovs ty vd a vb hi) (s.rd a) 0

/-- VCHAIN copies its descriptor and the iterator records it names (R355). -/
def execVchain (e : En) (s : State) : Out :=
  let ws := Regs.words s.tile.vec.ch (16 * (e.idx.toNat % 16)) 16
  let w0 := ws.getD 0 0
  let it := fun (n : Nat) => Regs.words s.tile.dr.ti (8 * n) 8
  s.issue (s.pushCheck .v (.vchain e) e.dly.toNat)
    (s.pushEn .v (.vchain e) e ws [it (bits w0 4 0), it (bits w0 12 8), it (bits w0 20 16)])

-- Timing (Table 13-3, R341 to R353)

/-- Cycles from a run's start to its write, and cycles the engine is busy. -/
structure VTime where
  d : Nat
  b : Nat
  deriving DecidableEq, Repr

def vTime (d : Nat) (b : Nat) : VTime := { d := d, b := b }

/-- Integer and float depth. -/
def byKind (t : VTy) (i f : Nat) : VTime := vTime (if t.isInt then i else f) 1

/-- Multiplies of f48 take two cycles. -/
def mulTime (t : VTy) (i f : Nat) : VTime := vTime (if t.isInt then i else f) (if t = .f48 then 2 else 1)

/-- D and B of a VR instruction. -/
def vTimeOf : Instr → VTime
  | .vadd o => byKind o.ty 1 3
  | .vsub o => byKind o.ty 1 3
  | .vmul o => mulTime o.ty 2 3
  | .vfma o => mulTime o.ty 2 4
  | .vmin o => byKind o.ty 1 3
  | .vmax o => byKind o.ty 1 3
  | .vcmp o => byKind o.ty 1 3
  | .vcvt .. => vTime 3 1
  | .vrcpa _ => vTime 5 1
  | .vrsqa _ => vTime 5 1
  | .vexp2a .. => vTime 5 1
  | .vlog2a .. => vTime 5 1
  | .vrng .. => vTime 5 1
  | .vtint _ => vTime 5 1
  | .vredadd _ => vTime 8 1
  | .vredmax _ => vTime 8 1
  | .vperm _ => vTime 2 1
  | _ => vTime 1 1

-- Faults

/-- A fault of a VR run (Table 17-4, R363). -/
def vFault (e : Entry) (c : Cause) (t3 : W64) : FaultInfo := runFault c .v e.serial e.j 0 t3

/-- A vector run faults: it writes nothing and its entry leaves the queue. -/
def State.vecFail (s : State) (f : FaultInfo) : State := (s.modQueue .v Queue.drop).cond f

def State.modVec (s : State) (f : Vector → Vector) : State := s.modTile fun t => { t with vec := f t.vec }

-- Reading rows and tables

/-- A row of the window (R333). -/
def State.vRow (s : State) (win : Nat) (n : BitVec 6) : Nat := s.pad.shape.accRow win n.toNat

/-- Read several rows, the first poisoned word ending it. -/
def State.readRows (s : State) (win : Nat) : List (BitVec 6) → State × Except Nat (List (List Byte))
  | [] => (s, .ok [])
  | v :: vs =>
    match s.poolRead (s.vRow win v) 384 with
    | (s, .error a) => (s, .error a)
    | (s, .ok bs) =>
      match State.readRows s win vs with
      | (s, .error a) => (s, .error a)
      | (s, .ok r) => (s, .ok (bs :: r))

/-- A word of the table memory. -/
def State.tableWord (s : State) (off : Nat) : State × Except Nat W64 :=
  let r := s.tile.st.tmem.read off 8
  let s := s.modTile fun t => { t with st := { t.st with tmem := r.1 } }
  match r.2 with
  | .error a => (s, .error a)
  | .ok bs => (s, .ok (w64 (leNat bs)))

/-- One lookup in the table at an offset whose header is valid. -/
def State.lookup (s : State) (toff : Nat) (h : TabHead) (t : Fmt) (md x : Nat) : State × Except Nat FRes :=
  match h.pick t x with
  | .done r => (s, .ok r)
  | .pair i num den flip =>
    match s.tableWord (toff + 8 + 8 * i) with
    | (s, .error a) => (s, .error a)
    | (s, .ok w) => (s, .ok (tabResult t md w num den flip))

/-- Lookups of every lane. -/
def State.lookups (s : State) (toff : Nat) (h : TabHead) (t : Fmt) (md : Nat) : List Nat → State × Except Nat (List FRes)
  | [] => (s, .ok [])
  | x :: xs =>
    match s.lookup toff h t md x with
    | (s, .error a) => (s, .error a)
    | (s, .ok r) =>
      match State.lookups s toff h t md xs with
      | (s, .error a) => (s, .error a)
      | (s, .ok rs) => (s, .ok (r :: rs))

/-- tinfo3 of a refused check of the vector engine (R362). -/
def vReason (n : Nat) : W64 := fld 0xC0 56 ||| fld n 0

-- Results on the start cycle (R335)

/-- What a run yields: bytes and flags for its destination. -/
abbrev VOut := List Byte × BitVec 7

/-- Put a run's result in flight: to a row, or to the pool for VST. -/
def State.vWrite (s : State) (e : Entry) (addr : Nat) (r : VOut) : State :=
  let t := vTimeOf e.instr
  let w : VWrite :=
    { due := s.pad.rtick + t.d + (t.b - 1), serial := e.serial, j := e.j, items := [(addr, r.1)], flags := r.2, sig := none }
  s.modVec fun v => { v with pend := v.pend ++ [w] }

/-- A run that reads rows and writes one: the rows, and what becomes of them. -/
def State.vRows (s : State) (e : Entry) (vd : BitVec 6) (srcs : List (BitVec 6)) (f : List (List Byte) → VOut) : State :=
  let win := s.tile.vec.vwin
  match s.readRows win srcs with
  | (s, .error a) => s.vecFail (vFault e (s.poolCause a) (w64 a))
  | (s, .ok rows) => s.vWrite e (s.vRow win vd) (f rows)

/-- An element-wise instruction of two operands, reading its destination row too where its effect names it. -/
def State.vLanes (s : State) (e : Entry) (o : Vr) (f : LaneFn) (readsD : Bool) : State :=
  s.vRows e o.vd (if readsD then [o.va, o.vb, o.vd] else [o.va, o.vb]) fun r =>
    mapLanes f o.ty o.md.toNat (r.getD 0 []) (r.getD 1 []) (r.getD 2 [])

/-- An element-wise instruction of one operand. -/
def State.vLane1 (s : State) (e : Entry) (vd va : BitVec 6) (ty : VTy) (md : Nat) (f : LaneFn) : State :=
  s.vRows e vd [va] fun r => mapLanes f ty md (r.getD 0 []) [] []

/-- A bitwise instruction on whole rows. -/
def State.vBits (s : State) (e : Entry) (vd va vb : BitVec 6) (f : Byte → Byte → Byte) : State :=
  s.vRows e vd [va, vb] fun r => (List.zipWith f (r.getD 0 []) (r.getD 1 []), 0)

/-- The effective address of VLD and VST (R342). -/
def vAddr (x : W64) (k : BitVec 6) : W64 := x + w64i (384 * k.toInt)

/-- The checks of VLD and VST before poison (R342). -/
def State.vAddrFault (s : State) (e : Entry) (ea : W64) : Option FaultInfo :=
  if ea.toNat % 64 ≠ 0 then some (vFault e .misalign ea)
  else
    match s.pad.shape.target s.cur.tile ea.toNat with
    | .own off => if s.pad.shape.inWork off 384 then none else some (vFault e .protection ea)
    | _ => some (vFault e .protection ea)

def State.runVld (s : State) (e : Entry) (vd : BitVec 6) (k : BitVec 6) : State :=
  let ea := vAddr e.x k
  match s.vAddrFault e ea with
  | some f => s.vecFail f
  | none =>
    match s.poolRead (s.ownOff ea.toNat) 384 with
    | (s, .error a) => s.vecFail (vFault e (s.poolCause a) (w64 a))
    | (s, .ok bs) => s.vWrite e (s.vRow s.tile.vec.vwin vd) (bs, 0)

def State.runVst (s : State) (e : Entry) (vs : BitVec 6) (k : BitVec 6) : State :=
  let ea := vAddr e.x k
  match s.vAddrFault e ea with
  | some f => s.vecFail f
  | none =>
    match s.poolRead (s.vRow s.tile.vec.vwin vs) 384 with
    | (s, .error a) => s.vecFail (vFault e (s.poolCause a) (w64 a))
    | (s, .ok bs) => s.vWrite e ea.toNat (bs, 0)

/-- VTINT (R353). -/
def State.runVtint (s : State) (e : Entry) (o : Vr) : State :=
  let toff := 256 * o.vb.toNat
  let win := s.tile.vec.vwin
  match s.tableWord toff with
  | (s, .error a) => s.vecFail (vFault e .dataPoison (w64 a))
  | (s, .ok hw) =>
    if !tabValid hw toff then s.vecFail (vFault e .protection (vReason 8))
    else
      match s.readRows win [o.va] with
      | (s, .error a) => s.vecFail (vFault e (s.poolCause a) (w64 a))
      | (s, .ok rows) =>
        match s.lookups toff (tabHead hw) o.ty.fmt o.md.toNat (lanesOf o.ty.bytes (rows.getD 0 [])) with
        | (s, .error a) => s.vecFail (vFault e .dataPoison (w64 a))
        | (s, .ok rs) => s.vWrite e (s.vRow win o.vd) (rowOf o.ty.bytes rs)

/-- The Philox counter of an RSR conversion: vrctr as it stood at the start of the cycle (R345). -/
def State.vcvtCtr (s : State) : Nat := (0x40000000 + s.cur.tile) * 2 ^ 96 + s.tile.vec.rsr.toNat * 2 ^ 32

/-- The Philox counter of VRNG (R349). -/
def State.vrngCtr (s : State) (x : W64) : Nat := (0x80000000 + s.cur.tile) * 2 ^ 96 + 32 * x.toNat

/-- What a VR run does on its start cycle. -/
def State.vrRun (s : State) (e : Entry) : State :=
  match e.instr with
  | .vld vd _ k => s.runVld e vd k
  | .vst vs _ k => s.runVst e vs k
  | .vadd o => s.vLanes e o .add false
  | .vsub o => s.vLanes e o .sub false
  | .vmul o => s.vLanes e o .mul false
  | .vfma o => s.vLanes e o .fma true
  | .vmin o => s.vLanes e o .min false
  | .vmax o => s.vLanes e o .max false
  | .vabs o => s.vLane1 e o.vd o.va o.ty o.md.toNat .abs
  | .vneg o => s.vLane1 e o.vd o.va o.ty o.md.toNat .neg
  | .vand vd va vb => s.vBits e vd va vb (· &&& ·)
  | .vor vd va vb => s.vBits e vd va vb (· ||| ·)
  | .vxor vd va vb => s.vBits e vd va vb (· ^^^ ·)
  | .vshl o => s.vLanes e o .shl false
  | .vshr o => s.vLanes e o .shr false
  | .vsar o => s.vLanes e o .sar false
  | .vsel o => s.vLanes e o .sel true
  | .vcmp o => s.vLanes e o .cmp false
  | .vrcpa o => s.vLane1 e o.vd o.va o.ty 0 .rcp
  | .vrsqa o => s.vLane1 e o.vd o.va o.ty 0 .rsq
  | .vexp2a vd va => s.vLane1 e vd va .f32 0 .exp
  | .vlog2a vd va => s.vLane1 e vd va .f32 0 .log
  | .vtint o => s.runVtint e o
  | .vcvt td ts md p vd va =>
    s.vRows e vd (if td.lanes ≤ ts.lanes then [va] else [va, vd]) fun r =>
      cvtRow td ts md.toNat p.toNat (s.ctl kVrkey) s.vcvtCtr (r.getD 0 []) (r.getD 1 [])
  | .vrng vd _ _ => s.vRows e vd [] fun _ => (rngRow e.x (s.vrngCtr e.y), 0)
  | .vredadd o => s.vRows e o.vd [o.va] fun r => reduceRow .add o.ty o.md.toNat (r.getD 0 [])
  | .vredmax o => s.vRows e o.vd [o.va] fun r => reduceRow .max o.ty o.md.toNat (r.getD 0 [])
  | .vbcast ty vd _ => s.vRows e vd [] fun _ => (bcastRow ty e.x, 0)
  | .vperm o => s.vRows e o.vd [o.va, o.vb] fun r => (permRow o.ty (r.getD 0 []) (r.getD 1 []), 0)
  | .vmovs ty vd _ vb hi => s.vRows e vd [vd] fun r => (movsRow ty e.x (vb.toNat + 64 * hi.toNat) (r.getD 0 []), 0)
  | _ => s

-- Landing (R236, R336 to R338)

/-- The chain in progress is of an entry. -/
def Tile.chainOf (t : Tile) (serial : BitVec 32) : Bool :=
  match t.vq.entries, t.vq.act with
  | e :: _, some _ => e.serial == serial
  | _, _ => false

/-- A chain fails at one of its writes, or at its release: what follows of its run and the later runs of its entry have no effect, and
the entry leaves the queue (R238, R362, R396). -/
def State.vLandFail (s : State) (w : VWrite) (c : Cause) (a : W64) : State :=
  let f := runFault c .v w.serial w.j s.tile.vec.vxst a
  let s := s.modVec fun v =>
    { v with chain := if s.tile.chainOf w.serial then none else v.chain,
             pend := v.pend.filter fun x => x.serial != w.serial || decide (x.j < w.j) }
  (s.cond f).modQueue .v fun q => q.remove w.serial

/-- Write the joined items of a landing write in order; the address whose word refused one. -/
def State.landItems (s : State) : List ElemWrite → State × Option Nat
  | [] => (s, none)
  | x :: xs =>
    match s.writeAt (s.pad.shape.target s.cur.tile x.addr) x.bytes with
    | (s, false) => (s, some x.addr)
    | (s, true) => State.landItems s xs

/-- Items that write a part of a word meet its error code (R238). -/
def State.meetItems (s : State) (xs : List ElemWrite) : State :=
  (xs.filter fun x => decide (x.bytes.length < 8)).foldl (fun s x =>
    (s.readAt (s.pad.shape.target s.cur.tile x.addr) x.bytes.length).1) s

/-- VECTOR_WRITE_LAND for one write: bytes, flags, and the run's release and signal where it was the last. A write of which a word is
refused writes nothing (R362). -/
def State.vLand (s : State) (w : VWrite) : State :=
  let items := joinWords (w.items.map fun i => { e := 0, addr := i.1, bytes := i.2 })
  match s.landItems items with
  | (_, some a) => (s.meetItems items).vLandFail w .dataPoison (w64 a)
  | (s, none) =>
    let s := s.orFlags w.flags
    match w.sig with
    | some g =>
      match s.trySignal s.cur.tile g with
      | .error a => s.vLandFail w .scope a
      | .ok s => s
    | none => s

/-- A pending write lands, unless the failure of one before it has taken it back. -/
def State.vLandNext (s : State) (w : VWrite) : State :=
  if s.tile.vec.pend.contains w then (s.modVec fun v => { v with pend := v.pend.erase w }).vLand w else s

/-- Every write of the vector engine that lands on this cycle, in the order their runs started, which is that of their serials. -/
def State.vectorWrites (s : State) : State :=
  let due := s.tile.vec.pend.filter fun w => decide (w.due ≤ s.pad.rtick)
  due.foldl State.vLandNext (s.modVec fun v => { v with landed := v.landed || !due.isEmpty })

/-- The write belongs to the run in progress, so that it is not pending (R337). -/
def Tile.vRunning (t : Tile) (w : VWrite) : Bool :=
  match t.vq.entries, t.vq.act with
  | e :: _, some _ => e.serial == w.serial && e.j == w.j
  | _, _ => false

/-- Insertion by the cycle a write lands, after those of the same cycle. -/
def insertDue (w : VWrite) : List VWrite → List VWrite
  | [] => [w]
  | x :: xs => if w.due < x.due then w :: x :: xs else x :: insertDue w xs

/-- Every pending write lands, the clock of its cycle or not (R337); a frozen tile signals nothing (R426). -/
def State.vectorFlush (s : State) : State :=
  let due := (s.tile.vec.pend.filter fun w => !s.tile.vRunning w).foldl (fun l w => insertDue { w with sig := none } l) []
  due.foldl State.vLandNext (s.modVec fun v => { v with pend := due })

def execVectorWriteLand (s : State) : Out := .next s.vectorWrites

end Sys2Proof.Machine
end

