-- ==== Sys2Proof/Machine/Chain.lean ====
section
/-!
DEFINITION. Machine/Chain.lean: chains: their descriptors and checks, groups, results, rings, HBM waits and suspensions,
and the start of every vector run (R354 to R362).
-/
namespace Sys2Proof.Machine

-- Descriptors (Tables 13-5 to 13-7)

def cWord (ws : List W64) (i : Nat) : W64 := ws.getD i 0
def cNops (ws : List W64) : Nat := bits (cWord ws 0) 60 58
def cUnit (ws : List W64) : Nat := bits (cWord ws 0) 57 53
def cBen (ws : List W64) : Bool := bit (cWord ws 0) 52
def cSignal (ws : List W64) : Signal :=
  { q := bits (cWord ws 1) 23 16, n := bits (cWord ws 1) 31 24, rel := bit (cWord ws 1) 33 }
def cWait (ws : List W64) : Wait :=
  { q := bits (cWord ws 1) 7 0, n := bits (cWord ws 1) 15 8, acq := bit (cWord ws 1) 32 }
def cConst (ws : List W64) (k : Nat) : W64 := cWord ws (2 + k)
def cAccrow (ws : List W64) : Nat := bits (cWord ws 14) 39 34
def cCtype (ws : List W64) : Nat := bits (cWord ws 14) 7 4
def cDmode (ws : List W64) : Nat := bits (cWord ws 14) 2 0

/-- An operation word as its fields. -/
structure COp where
  opc : Nat
  x : Nat
  y : Nat
  z : Nat
  mode : Nat
  cond : Nat
  tsel : Nat
  deriving DecidableEq, Repr

def cOp (w : W64) : COp :=
  { opc := bits w 4 0, x := bits w 12 10, y := bits w 15 13, z := bits w 18 16, mode := bits w 20 19,
    cond := bits w 23 21, tsel := bits w 29 24 }

/-- The operations of a chain, in order. -/
def cOps (ws : List W64) : List COp := (List.range (cNops ws + 1)).map fun k => cOp (cWord ws (6 + k))

/-- The compute type; an illegal code counts as i8 and is refused, with reason 0x01 where an operation does not allow every type, else
with reason 0x07 (log entry 74). -/
def cType (ws : List W64) : VTy := (VTy.ofCode (cCtype ws)).getD .i8

/-- Fields of word 6 of a record. -/
def itRing (it : List W64) : Option Nat := if bit (it.getD 6 0) 8 then some (bits (it.getD 6 0) 11 9) else none
def itType (it : List W64) : Nat := bits (it.getD 6 0) 3 0

-- Operations (Table 13-8)

/-- The lane function of a code. -/
def COp.fn (o : COp) : LaneFn :=
  match o.opc with
  | 0x01 => .add | 0x02 => .sub | 0x03 => .mul | 0x04 => .fma | 0x05 => .min | 0x06 => .max | 0x07 => .abs
  | 0x08 => .neg | 0x09 => .and | 0x0A => .or | 0x0B => .xor | 0x0C => .shl | 0x0D => .shr | 0x0E => .sar
  | 0x10 => .cmp | 0x11 => .rcp | 0x12 => .rsq | 0x13 => .exp | _ => .log

/-- The operation uses selector Y, and Z. -/
def COp.usesY (o : COp) : Bool := decide ((1 ≤ o.opc ∧ o.opc ≤ 6) ∨ (9 ≤ o.opc ∧ o.opc ≤ 0x10))
def COp.usesZ (o : COp) : Bool := o.opc == 4 || o.opc == 0x0F

/-- The code allows every compute type. -/
def COp.anyType (o : COp) : Bool := decide (o.opc ≤ 8 ∨ o.opc = 0x0F ∨ o.opc = 0x10)

/-- The compute types a code allows. -/
def COp.typeOk (o : COp) (t : VTy) : Bool :=
  if o.anyType then true
  else if o.opc ≤ 0x0B then t.isInt
  else if o.opc ≤ 0x0E then t.isInt && t != .i48
  else if o.opc = 0x11 ∨ o.opc = 0x12 then t == .f32 || t == .f64
  else if o.opc = 0x13 ∨ o.opc = 0x14 then t == .f32
  else t == .f16 || t == .bf16 || t == .f32

/-- MODE as fn[7:4] of the VR instruction of the same effect. -/
def COp.modeOk (o : COp) (t : VTy) : Bool :=
  if 1 ≤ o.opc ∧ o.opc ≤ 4 then (if t.isInt then decide (o.mode ≤ 1) else true)
  else if 5 ≤ o.opc ∧ o.opc ≤ 8 then (if t.isInt then decide (o.mode ≤ 1) else o.mode == 0)
  else if o.opc = 0x15 then true
  else o.mode == 0

/-- COND of CCMP names a condition of the type; it is 0 elsewhere. -/
def COp.condOk (o : COp) (t : VTy) : Bool :=
  if o.opc = 0x10 then (if t.isInt then decide (o.cond ≤ 5) else decide (o.cond ≤ 3)) else o.cond == 0

/-- A legal operation word (reason 0x01). -/
def COp.ok (o : COp) (t : VTy) : Bool :=
  decide (o.opc ≤ 0x15) && o.typeOk t && o.modeOk t && o.condOk t && (o.usesY || o.y == 0) && (o.usesZ || o.z == 0) &&
    (o.opc == 0x15 || o.tsel == 0)

/-- Depth of an operation. -/
def COp.depth (o : COp) (t : VTy) : Nat :=
  let k := fun (i f : Nat) => if t.isInt then i else f
  if o.opc = 1 ∨ o.opc = 2 ∨ o.opc = 5 ∨ o.opc = 6 ∨ o.opc = 0x10 then k 1 3
  else if o.opc = 3 then k 2 3
  else if o.opc = 4 then k 2 4
  else if 0x11 ≤ o.opc then 5
  else 1

/-- A zero of either sign. -/
def isZeroLane (t : VTy) (x : Nat) : Bool :=
  match widen t.fmt x with
  | .fin _ m _ => m == 0
  | _ => false

/-- The pattern of one in a type. -/
def oneLane (t : VTy) : Nat := (round (.fin false 1 0) t.fmt .rne).pat

/-- An operation that reads no table, on lanes x, y and z (R356). -/
def COp.apply (o : COp) (t : VTy) (x y z : Nat) : FRes :=
  if o.opc = 0 then lanePat x
  else if o.opc = 0x0F then lanePat (if isZeroLane t x then z else y)
  else if o.opc = 0x10 then
    let r := LaneFn.cmp.apply t o.cond x y 0
    { pat := if r.pat = 0 then 0 else oneLane t, fl := r.fl }
  else o.fn.apply t o.mode x y z

-- Walks of a run (R357, R359)

/-- A walk as a run takes it: its record, or the frame of its ring. -/
def chainWalk (it : List W64) (frame : Option Nat) : Walk :=
  match frame with
  | some f => { walkOf it with base := f * 4096 }
  | none => walkOf it

/-- How far the step moves a walk. -/
def chainShift (e : Entry) (it : List W64) : Int :=
  if (itRing it).isSome then 0 else (e.j : Int) * e.step * (2 ^ cUnit e.ws : Nat)

/-- Records of A, B and D. -/
def chA (e : Entry) : List W64 := e.its.getD 0 []
def chB (e : Entry) : List W64 := e.its.getD 1 []
def chD (e : Entry) : List W64 := e.its.getD 2 []

/-- Records of the walks a chain uses. -/
def chainIts (e : Entry) : List (List W64) := if cBen e.ws then [chA e, chB e, chD e] else [chA e, chD e]

/-- Elements of a run. -/
def chainCount (e : Entry) : Nat := (walkOf (chD e)).count

/-- Elements of a group (R358). -/
def chainGroup (e : Entry) : Nat := 384 / 2 ^ ((chainIts e).foldl (fun n it => Nat.max n (walkOf it).es) 0)

/-- Cycles of a group, and depth. -/
def chainCycles (e : Entry) : Nat :=
  if cType e.ws = .f48 && (cOps e.ws).any fun o => o.opc == 3 || o.opc == 4 then 2 else 1
def chainDepth (e : Entry) : Nat := 2 + (cOps e.ws).foldl (fun n o => n + o.depth (cType e.ws)) 0

-- Checks (Table 13-9)

/-- ETYPE is assigned, not 48-bit, and of the element's width. -/
def etypeOk (it : List W64) : Bool :=
  match VTy.ofCode (itType it) with
  | some t => t != .i48 && t != .f48 && t.bytes == 2 ^ (walkOf it).es
  | none => false

/-- An address R360 permits. -/
def State.chainReach (s : State) (a n : Nat) : Bool :=
  match s.pad.shape.target s.cur.tile a with
  | .own off => s.pad.shape.inWork off n
  | .hbm _ _ => !s.strict
  | _ => false

/-- Every element of a walk lies where R360 permits. -/
def State.walkReach (s : State) (e : Entry) (it : List W64) : Bool :=
  let w := walkOf it
  (itRing it).isSome || (List.range w.count).all fun i => s.chainReach (w.addr i (chainShift e it)) (2 ^ w.es)

/-- The headers of the tables of a chain's CTINT operations, in order: whether all are valid (reason 0x08), or the offset of a poisoned one
(R238). -/
def State.tableHeads (s : State) : List COp → State × Except Nat Bool
  | [] => (s, .ok true)
  | o :: os =>
    if o.opc != 0x15 then State.tableHeads s os
    else
      match s.tableWord (256 * o.tsel) with
      | (s, .error a) => (s, .error a)
      | (s, .ok w) => if tabValid w (256 * o.tsel) then State.tableHeads s os else (s, .ok false)

/-- The least reason a chain is refused for before its tables are read. -/
def State.chainReason (s : State) (e : Entry) : Option Nat :=
  let its := chainIts e
  let t := cType e.ws
  let dty := (VTy.ofCode (itType (chD e))).getD .i8
  if !(cOps e.ws).all (fun o => o.ok t && (o.anyType || (VTy.ofCode (cCtype e.ws)).isSome)) then some 1
  else if !its.all (fun it => (walkOf it).count == chainCount e) then some 2
  else if !its.all etypeOk then some 3
  else if !its.all (fun it => (walkOf it).ok && decide ((walkOf it).count * 2 ^ (walkOf it).es ≤ 2 ^ 24)) then some 4
  else if (itRing (chD e)).isSome || !its.all (fun it => s.walkReach e it) then some 5
  else if !its.all (fun it => (itRing it).isNone || (walkOf it).coversFrame) then some 6
  else if 21 < cUnit e.ws || (VTy.ofCode (cCtype e.ws)).isNone || decide (4 < cDmode e.ws) ||
      (cDmode e.ws == 4 && decide (2 < dty.bytes)) then some 7
  else none

/-- The checks of a chain's start in order, its tables last. -/
def State.chainChecks (s : State) (e : Entry) : Option FaultInfo :=
  let fault := fun (c : Cause) (t3 : W64) => some (runFault c .v e.serial e.j s.tile.vec.vxst t3)
  match s.chainReason e, (s.tableHeads (cOps e.ws)).2 with
  | some n, _ => fault .protection (vReason n)
  | none, .error a => fault .dataPoison (w64 a)
  | none, .ok false => fault .protection (vReason 8)
  | none, .ok true => none

-- Starts (R358, R359)

/-- The rings a chain reads: operand A, operand B. -/
def chainRings (e : Entry) : List Nat :=
  ((if cBen e.ws then [chA e, chB e] else [chA e]).filterMap itRing).foldl nsAdd []

/-- What the start of a chain needs. -/
def State.chainNeed (s : State) (e : Entry) : Need :=
  let ops := (chainRings e).foldl (fun o k => o.and (s.ringOperand .v e s.tile.vec.vxst k 0)) Operands.ready
  let prot := s.chainChecks e
  match ops with
  | .wait => { busy := false, waits := [cWait e.ws], ops := .wait, checks := none }
  | .ready => { busy := false, waits := [cWait e.ws], ops := .ready, checks := prot }
  | .fault f => { busy := false, waits := [cWait e.ws], ops := .ready, checks := some (prot.getD f) }

/-- A chain begins. -/
def State.chainGo (s : State) (e : Entry) : State :=
  let now := s.pad.rtick
  let frame := fun (it : List W64) => (itRing it).map fun k => (s.tile.dr.ring k).frame 0
  let expect := fun (k : Nat) => ((s.tile.dr.ring k).frame 0, (s.tile.dr.ring k).ctag)
  let c : Chain :=
    { s := now, group := 0, groups := ceilDiv (chainCount e) (chainGroup e), due := now + 1, win := s.tile.vec.vwin,
      frameA := frame (chA e), frameB := if cBen e.ws then frame (chB e) else none, susp := false, wait := none,
      checks := (chainRings e).map expect }
  (s.modVec fun v => { v with chain := some c }).modQueue .v fun q => q.begin now none

/-- What the start of the head's next run needs. -/
def State.vectorNeed (s : State) (e : Entry) : Need :=
  match e.instr with
  | .vchain _ => s.chainNeed e
  | _ => plainNeed [] none

/-- The waits of an entry's next run. -/
def vectorWaits (e : Entry) : List Wait :=
  match e.instr with
  | .vchain _ => [cWait e.ws]
  | _ => []

/-- The engine's status word of an entry's runs: vxst for a chain, 0 for a VR run (Table 17-4). -/
def State.vStatus (s : State) (e : Entry) : W64 :=
  match e.instr with
  | .vchain _ => s.tile.vec.vxst
  | _ => 0

/-- The tables that the checks of a chain's start read meet their codes. -/
def State.meetTables (s : State) (e : Entry) : State :=
  match e.instr, s.startWhenDue .v e (s.vStatus e) (s.vectorNeed e) with
  | .vchain _, .go | .vchain _, .fault _ => if (s.chainReason e).isNone then (s.tableHeads (cOps e.ws)).1 else s
  | _, _ => s

/-- The V engine's start on this cycle. -/
def State.vectorStart (s : State) : State :=
  let s := s.watch .v vectorWaits
  let s := match s.headLate .v s.vStatus with
    | some f => s.cond f
    | none => s
  match s.dueHead .v with
  | none => s
  | some e =>
    let s := s.meetTables e
    s.startHead .v e (s.vStatus e) (s.vectorNeed e) fun s =>
      match e.instr with
      | .vchain _ => s.chainGo e
      | i => s.modQueue .v fun q => q.begin s.pad.rtick (some (s.pad.rtick + (vTimeOf i).b - 1))

-- Groups (R357, R358, R360)

/-- How an element access of a chain fails. -/
inductive ChainStop where
  | page (a : Nat)
  | fault (c : Cause) (t3 : W64)

/-- Check an element's address (R252, R360). -/
def State.chainCheck (s : State) (a n : Nat) (wr : Bool) : Except ChainStop Target :=
  match s.pageCheck s.inK a n { rd := !wr, wr := wr, xl := false } with
  | .error .page => .error (.page a)
  | .error c => .error (.fault c (w64 a))
  | .ok t => if s.chainReach a n then .ok t else .error (.fault .protection (w64 a))

/-- Read a stream element and convert it to the compute type. -/
def State.streamElem (s : State) (e : Entry) (it : List W64) (frame : Option Nat) (i : Nat) :
    State × Except ChainStop FRes :=
  let w := chainWalk it frame
  let a := w.addr i (chainShift e it)
  match s.chainCheck a (2 ^ w.es) false with
  | .error x => (s, .error x)
  | .ok t =>
    match s.readAt t (2 ^ w.es) with
    | (s, none) => (s, .error (.fault (s.pad.shape.poisonCause s.cur.tile a) (w64 a)))
    | (s, some bs) =>
      let ty := (VTy.ofCode (itType it)).getD .i8
      (s, .ok (convert ty.fmt (cType e.ws).fmt (leNat bs) .rne))

/-- The lane of row ACCROW that selector 7 reads, when some operation selects it. -/
def State.accLane (s : State) (e : Entry) (c : Chain) (i : Nat) : State × Except ChainStop Nat :=
  if !(cOps e.ws).any (fun o => o.x == 7 || (o.usesY && o.y == 7) || (o.usesZ && o.z == 7)) then (s, .ok 0)
  else
    let t := cType e.ws
    let a := s.pad.shape.accRow c.win (cAccrow e.ws) + t.bytes * (i % t.lanes)
    match s.poolRead a t.bytes with
    | (s, .error _) => (s, .error (.fault (s.poolCause a) (w64 a)))
    | (s, .ok bs) => (s, .ok (leNat bs))

/-- The value of a selector (R355). -/
def selValue (e : Entry) (xa xb prev xr k : Nat) : Nat :=
  let con := fun (n : Nat) => (cConst e.ws n).toNat % 2 ^ (cType e.ws).fmt.width
  match k with
  | 0 => xa
  | 1 => xb
  | 2 => prev
  | 7 => xr
  | k => con (k - 3)

/-- Run the operations of a chain on one element. -/
def State.chainOps (s : State) (e : Entry) (xa xb xr : Nat) :
    List COp → Nat → BitVec 7 → State × Except ChainStop FRes
  | [], prev, fl => (s, .ok { pat := prev, fl := fl })
  | o :: os, prev, fl =>
    let t := cType e.ws
    let v := selValue e xa xb prev xr
    if o.opc = 0x15 then
      let toff := 256 * o.tsel
      match s.tableWord toff with
      | (s, .error a) => (s, .error (.fault .dataPoison (w64 a)))
      | (s, .ok hw) =>
        match s.lookup toff (tabHead hw) t.fmt o.mode (v o.x) with
        | (s, .error a) => (s, .error (.fault .dataPoison (w64 a)))
        | (s, .ok r) => State.chainOps s e xa xb xr os r.pat (fl ||| r.fl)
    else
      let r := o.apply t (v o.x) (v o.y) (v o.z)
      State.chainOps s e xa xb xr os r.pat (fl ||| r.fl)

/-- Element i of a run: its destination address, bytes and flags (R357). -/
def State.chainElem (s : State) (e : Entry) (c : Chain) (i : Nat) : State × Except ChainStop (Nat × List Byte × BitVec 7) :=
  match s.streamElem e (chA e) c.frameA i with
  | (s, .error x) => (s, .error x)
  | (s, .ok xa) =>
    match (if cBen e.ws then s.streamElem e (chB e) c.frameB i else (s, .ok { pat := 0, fl := 0 })) with
    | (s, .error x) => (s, .error x)
    | (s, .ok xb) =>
      match s.accLane e c i with
      | (s, .error x) => (s, .error x)
      | (s, .ok xr) =>
        match s.chainOps e xa.pat xb.pat xr (cOps e.ws) 0 0 with
        | (s, .error x) => (s, .error x)
        | (s, .ok r) =>
          let w := walkOf (chD e)
          let a := w.addr i (chainShift e (chD e))
          match s.chainCheck a (2 ^ w.es) true with
          | .error x => (s, .error x)
          | .ok _ =>
            let dty := (VTy.ofCode (itType (chD e))).getD .i8
            let ctr := (0x20000000 + s.cur.tile) * 2 ^ 96 + e.serial.toNat * 2 ^ 64 + e.j * 2 ^ 32 + i / 8
            let md := if cDmode e.ws = 4 then rsrOf (cWord e.ws 15) ctr (16 * (i % 8)) else rndOf (cDmode e.ws)
            let d := convert (cType e.ws).fmt dty.fmt r.pat md
            (s, .ok (a, natLE (2 ^ w.es) d.pat, xa.fl ||| xb.fl ||| r.fl ||| d.fl))

/-- The elements of a group from i on, n of them. -/
def State.chainElems (s : State) (e : Entry) (c : Chain) (i : Nat) :
    Nat → State × Except ChainStop (List (Nat × List Byte) × BitVec 7)
  | 0 => (s, .ok ([], 0))
  | n + 1 =>
    match s.chainElem e c i with
    | (s, .error x) => (s, .error x)
    | (s, .ok r) =>
      match State.chainElems s e c (i + 1) n with
      | (s, .error x) => (s, .error x)
      | (s, .ok rs) => (s, .ok ((r.1, r.2.1) :: rs.1, r.2.2 ||| rs.2))

/-- Addresses of a group that lie in HBM and are read, checked for their pages; a group that reads HBM waits for its data. -/
def State.groupHbm (s : State) (e : Entry) (c : Chain) (i n : Nat) : Except ChainStop Bool :=
  let its := if cBen e.ws then [(chA e, c.frameA), (chB e, c.frameB)] else [(chA e, c.frameA)]
  (List.range n).foldl (fun r k =>
    its.foldl (fun r x =>
      match r with
      | .error y => .error y
      | .ok b =>
        let w := chainWalk x.1 x.2
        let a := w.addr (i + k) (chainShift e x.1)
        match s.pad.shape.target s.cur.tile a with
        | .hbm _ _ =>
          match s.chainCheck a (2 ^ w.es) false with
          | .error y => .error y
          | .ok _ => .ok true
        | _ => .ok b) r) (.ok false)

def State.modChain (s : State) (f : Chain → Chain) : State := s.modVec fun v => { v with chain := v.chain.map f }

/-- The accesses of a group's reads, by address and size. -/
def chainReads (e : Entry) (c : Chain) (i n : Nat) : List (Nat × Nat) :=
  let one := fun (it : List W64) (f : Option Nat) (k : Nat) =>
    ((chainWalk it f).addr (i + k) (chainShift e it), 2 ^ (walkOf it).es)
  (List.range n).flatMap fun k => one (chA e) c.frameA k :: (if cBen e.ws then [one (chB e) c.frameB k] else [])

/-- Cycles until the data of a group is there: in the band of HBM, with 408 more for each miss beyond one (R287, R360). -/
def State.groupLat (s : State) (e : Entry) (c : Chain) (i n : Nat) : Nat :=
  let sh := s.pad.shape
  let as := chainReads e c i n
  hbmLat s.free (mostBytes (sh.hbmLoad s.cur.tile as)) (408 * (s.tile.tlb.misses (sh.pagesOf s.cur.tile as) - 1))

/-- The group's counters go to word 4 of every record the run walks (R361). -/
def State.saveCounters (s : State) (e : Entry) (i : Nat) : State :=
  let w0 := cWord e.ws 0
  let its := [(bits w0 4 0, chA e), (bits w0 20 16, chD e)] ++ (if cBen e.ws then [(bits w0 12 8, chB e)] else [])
  its.foldl (fun s x =>
    s.modTile fun t => { t with dr := { t.dr with ti := FMap.put t.dr.ti (8 * x.1 + 4) ((walkOf x.2).counters i) } }) s

/-- A group that cannot go on: suspended, or ended by a fault (R361, R362). -/
def State.chainStop (s : State) (e : Entry) (c : Chain) (i : Nat) (x : ChainStop) : State :=
  match x with
  | .fault cause t3 =>
    let s := s.vecFail (runFault cause .v e.serial e.j s.tile.vec.vxst t3)
    s.modVec fun v => { v with chain := none }
  | .page a =>
    let st := fld 1 63 ||| fld (e.j % 256) 54 ||| fld (c.group % 2 ^ 22) 32 ||| e.serial.setWidth 64
    let s := s.saveCounters e i
    let s := (s.modChain fun c => { c with susp := true, wait := none }).modVec fun v => { v with vxst := st }
    s.cond (runFault .page .v e.serial e.j st (w64 a))

/-- The first wrong tag of the frames that a run's ring walks read, checked on the cycle of their first read alone (R240, R359). -/
def State.chainTags (s : State) (e : Entry) (c : Chain) : Option FaultInfo :=
  (c.checks.find? fun x => s.tagWrong x.1 x.2).map fun x =>
    runFault .seqTag .v e.serial e.j s.tile.vec.vxst (seqTagInfo x.2 (s.tagOf x.1) x.1)

/-- A group computed on this cycle: its writes in flight, and the next group or the run's completion. -/
def State.chainGroupDone (s : State) (e : Entry) (c : Chain) (r : List (Nat × List Byte) × BitVec 7) : State :=
  let now := s.pad.rtick
  let cyc := chainCycles e
  let last := decide (c.groups ≤ c.group + 1)
  let w : VWrite :=
    { due := now + chainDepth e, serial := e.serial, j := e.j, items := r.1, flags := r.2,
      sig := if last then some (cSignal e.ws) else none }
  let s := s.modVec fun v => { v with pend := v.pend ++ [w] }
  if last then
    (s.modVec fun v => { v with chain := none }).modQueue .v fun q =>
      { q with act := q.act.map fun a => { a with fin := some (now + cyc - 1) } }
  else s.modChain fun c => { c with group := c.group + 1, due := now + cyc, wait := none }

/-- The group due on this cycle (R358). -/
def State.chainCycle (s : State) (e : Entry) (c : Chain) : State :=
  let now := s.pad.rtick
  if c.susp || decide (now < c.due) then s
  else
    let g := chainGroup e
    let i := c.group * g
    let n := Nat.min g (chainCount e - i)
    match s.chainTags e c with
    | some f => (s.vecFail f).modVec fun v => { v with chain := none }
    | none =>
      let s := s.modChain fun c => { c with checks := [] }
      match c.wait with
      | some t =>
        if now < t then s
        else
          match s.chainElems e c i n with
          | (s, .error x) => s.chainStop e c i x
          | (s, .ok r) => s.chainGroupDone e c r
      | none =>
        match s.groupHbm e c i n with
        | .error x => s.chainStop e c i x
        | .ok true =>
          let h := s.groupLat e c i n
          { s.modChain (fun c => { c with wait := some (now + h) }) with free := s.free + 1 }
        | .ok false =>
          match s.chainElems e c i n with
          | (s, .error x) => s.chainStop e c i x
          | (s, .ok r) => s.chainGroupDone e c r

/-- Every read of the vector engine on this cycle: a VR run that starts on it, or a chain's group. -/
def State.vectorReads (s : State) : State :=
  match s.tile.vq.entries, s.tile.vq.act with
  | e :: _, some a =>
    match e.instr with
    | .vchain _ =>
      match s.tile.vec.chain with
      | some c => if a.s < s.pad.rtick then s.chainCycle e c else s
      | none => s
    | _ => if a.s = s.pad.rtick then s.vrRun e else s
  | _, _ => s

/-- The end of a cycle: pops of a chain that completes on it, and the counter of an RSR conversion that started on it (R345,
R359). -/
def State.vectorEnd (s : State) : State :=
  match s.tile.vq.entries, s.tile.vq.act with
  | e :: _, some a =>
    match e.instr with
    | .vchain _ => if a.fin = some s.pad.rtick then (chainRings e).foldl State.popRing s else s
    | .vcvt _ _ md _ _ _ =>
      if md = 4 ∧ a.s = s.pad.rtick then s.setCtl kVrctr (s.ctl kVrctr + 1) else s
    | _ => s
  | _, _ => s

-- Starts of every engine

/-- ENGINE_RUN_START: the start an engine makes on this cycle, if any; the S slot has no engine. -/
def execEngineRunStart (u : Slot) (s : State) : Out :=
  match u with
  | .s => .next s
  | .m => .next s.matrixStart
  | .v => .next s.vectorStart
  | .d => .next s.droverStart

end Sys2Proof.Machine
end

