-- ==== Sys2Proof/Machine/Image.lean ====
section
/-!
DEFINITION. Machine/Image.lean: the timetable image: its structure, the checks of a load in their order, and the tiles,
folds and HBM bytes it describes (R30 to R52, R154, R376).
-/
namespace Sys2Proof.Machine

-- Reading a file

/-- n bytes of a file as a little-endian number (R3). -/
def imgNat (f : List Byte) (off n : Nat) : Nat := leNat ((f.drop off).take n)

/-- The 64-bit word at an offset of a file. -/
def imgWord (f : List Byte) (off : Nat) : W64 := BitVec.ofNat 64 (imgNat f off 8)

/-- A directory entry (Table 2-2). -/
structure Sect where
  ty : Nat
  aux : Nat
  off : Nat
  len : Nat
  clean : Bool
  deriving DecidableEq, Repr

/-- A file with its directory. -/
structure Image where
  file : List Byte
  sects : List Sect
  deriving DecidableEq, Repr

/-- The directory entry at an offset; clean when its reserved fields are zero. -/
def sectAt (f : List Byte) (off : Nat) : Sect :=
  let w := imgWord f off
  { ty := bits w 15 0, aux := bits w 63 32, off := imgNat f (off + 8) 8, len := imgNat f (off + 16) 8,
    clean := bits w 31 16 == 0 && imgNat f (off + 24) 8 == 0 }

def nsectOf (f : List Byte) : Nat := imgNat f 8 4
def dirOf (f : List Byte) : Nat := imgNat f 16 8

/-- A file read as an image. -/
def imageOf (f : List Byte) : Image :=
  { file := f, sects := (List.range (nsectOf f)).map fun k => sectAt f (dirOf f + 32 * k) }

namespace Image

def ofTy (m : Image) (ty : Nat) : List Sect := m.sects.filter (·.ty == ty)

/-- The first section of a type; an empty one where there is none. -/
def sect (m : Image) (ty : Nat) : Sect := (m.ofTy ty).headD { ty := ty, aux := 0, off := 0, len := 0, clean := true }

/-- Word k of a section. -/
def word (m : Image) (s : Sect) (k : Nat) : W64 := imgWord m.file (s.off + 8 * k)

/-- n words of a section from word k on. -/
def words (m : Image) (s : Sect) (k n : Nat) : List W64 := (List.range n).map fun i => m.word s (k + i)

/-- The bytes of a section from an offset within it on. -/
def bytes (m : Image) (s : Sect) (o n : Nat) : List Byte := (m.file.drop (s.off + o)).take n

-- The region descriptor (Table 2-4)
def region (m : Image) (k : Nat) : W64 := m.word (m.sect 1) k
def nseam (m : Image) : Nat := bits (m.region 0) 47 40
def world (m : Image) : Nat := bits (m.region 0) 39 32
def h (m : Image) : Nat := bits (m.region 0) 15 8
def w (m : Image) : Nat := bits (m.region 0) 7 0
def chan (m : Image) : Nat := bits (m.region 1) 44 32
def part (m : Image) : W64 := fld (bits (m.region 1) 31 0) 0
def alignIv (m : Image) : Nat := bits (m.region 2) 63 32
def pauseMax (m : Image) : Nat := bits (m.region 2) 31 0
def nbind (m : Image) : Nat := bits (m.region 3) 40 32
def nfold (m : Image) : Nat := bits (m.region 3) 24 16
def nstint (m : Image) : Nat := bits (m.region 3) 11 0 

/-- Tiles of the region. -/
def tiles (m : Image) : Nat := m.w * m.h

-- Seams, stints, folds, bindings

def seamWord (m : Image) (k : Nat) : W64 := fld (imgNat m.file ((m.sect 2).off + 4 * k) 4) 0

/-- A seam entry (R36). -/
def seam (m : Image) (k : Nat) : Seam :=
  let x := m.seamWord k
  { col := !bit x 31, index := bits x 7 0, lat := bits x 23 16 }

def seams (m : Image) : List Seam := (List.range m.nseam).map m.seam

/-- Stint classes: true for strict (R43). DESIGN CHOICE (log entry 60): padding, and bits at NSTINT and above, are not looked at. -/
def strict (m : Image) : List Bool := (List.range m.nstint).map fun i => bit (m.word (m.sect 3) (i / 64)) (i % 64)

/-- Words of a membership bitmap. -/
def foldWords (m : Image) : Nat := ceilDiv m.tiles 64

def foldHeader (m : Image) (k : Nat) : W64 := m.word (m.sect 6) (k * (1 + m.foldWords))

def foldBit (m : Image) (k i : Nat) : Bool := bit (m.word (m.sect 6) (k * (1 + m.foldWords) + 1 + i / 64)) (i % 64)

/-- Fold k: its identifier and members (R47). -/
def fold (m : Image) (k : Nat) : Nat × List Nat :=
  (bits (m.foldHeader k) 7 0, (List.range m.tiles).filter (m.foldBit k))

def folds (m : Image) : List (Nat × List Nat) := (List.range m.nfold).map m.fold

/-- Binding k (R48). -/
def binding (m : Image) (k : Nat) : Binding :=
  let w := fun (i : Nat) => m.word (m.sect 8) (4 * k + i)
  { start := (w 0).toNat, len := (w 1).toNat, obj := w 2, addr := w 3 }

def binds (m : Image) : List Binding := (List.range m.nbind).map m.binding

/-- What the image says of its paddock. -/
def shape (m : Image) : Shape :=
  { w := m.w, h := m.h, world := m.world, chan := m.chan, part := m.part, alignIv := m.alignIv, pauseMax := m.pauseMax,
    nstint := m.nstint, strict := m.strict, seams := m.seams, binds := m.binds }

-- Programs and data

/-- The program number of a tile; 0xFFFF for none (R40). -/
def program (m : Image) (i : Nat) : Nat := imgNat m.file ((m.sect 4).off + 2 * i) 2

def programSect (m : Image) (n : Nat) : Option Sect := (m.ofTy 5).find? (·.aux == n)

/-- Header fields of a program (R41). -/
def nbundle (m : Image) (s : Sect) : Nat := bits (m.word s 0) 15 0
def entry (m : Image) (s : Sect) : Nat := bits (m.word s 0) 31 16

/-- Fields of a data segment (R51): target, zero bytes that follow, destination, and length in all. -/
def dataTarget (m : Image) (s : Sect) : Nat := bits (m.word s 0) 2 0
def dataZeros (m : Image) (s : Sect) : Nat := bits (m.word s 0) 63 32
def dataDest (m : Image) (s : Sect) : Nat := (m.word s 1).toNat
def dataLen (m : Image) (s : Sect) : Nat := s.len - 16 + m.dataZeros s

/-- Bytes of paddock HBM space (R247). -/
def hbmBytes (m : Image) : Nat := m.chan * 625 * 2097152

-- Checks: IMG_FORMAT (R30, R31, R40, R43, R51)

/-- The header (Table 2-1). -/
def headerOk (f : List Byte) : Bool :=
  decide (64 ≤ f.length) && imgNat f 0 4 == 0x4954544F && imgNat f 4 2 == 1 && imgNat f 6 2 == 0 &&
    imgNat f 12 4 == 0 && decide (1 ≤ nsectOf f ∧ nsectOf f ≤ 4096) && decide (dirOf f % 8 = 0) &&
    imgNat f 24 8 == f.length && bit (imgWord f 32) 0 && imgNat f 40 24 == 0 &&
    decide (64 ≤ dirOf f ∧ dirOf f + 32 * nsectOf f ≤ f.length)

/-- Two ranges, each of an offset and a length, do not overlap. -/
def apart (a b : Nat × Nat) : Bool := decide (a.1 + a.2 ≤ b.1 ∨ b.1 + b.2 ≤ a.1 ∨ a.2 = 0 ∨ b.2 = 0)

def allApart : List (Nat × Nat) → Bool
  | [] => true
  | a :: rest => rest.all (apart a) && allApart rest

/-- Sections lie in the file at multiples of 8, apart from one another, the directory and the header. -/
def layoutOk (m : Image) : Bool :=
  m.sects.all (fun s => s.clean && decide (s.off % 8 = 0) && decide (s.off + s.len ≤ m.file.length)) &&
    allApart ((0, 64) :: (dirOf m.file, 32 * m.sects.length) :: m.sects.map fun s => (s.off, s.len))

/-- No number stands twice in a list. -/
def distinct : List Nat → Bool
  | [] => true
  | x :: xs => !xs.contains x && distinct xs

/-- Types and multiplicities (Table 2-3). -/
def countsOk (m : Image) : Bool :=
  let n := fun (ty : Nat) => (m.ofTy ty).length
  let oneIf := fun (ty k : Nat) => n ty == (if k = 0 then 0 else 1)
  m.sects.all (fun s => decide (1 ≤ s.ty ∧ s.ty ≤ 13)) && n 1 == 1 && oneIf 2 m.nseam && n 3 == 1 && n 4 == 1 &&
    oneIf 6 m.nfold && oneIf 8 m.nbind && decide (n 9 ≤ 1) && decide (n 10 ≤ 1) &&
    [5, 7, 12, 13].all (fun ty => distinct ((m.ofTy ty).map (·.aux))) &&
    [1, 2, 3, 4, 6, 8, 9, 10].all (fun ty => (m.ofTy ty).all (·.aux == 0))

/-- Lengths of sections of fixed size (DEDUCED, log entry 11). -/
def lengthsOk (m : Image) : Bool :=
  let len := fun (ty n : Nat) => (m.ofTy ty).all (·.len == n)
  len 1 32 && len 2 (4 * m.nseam) && len 3 (8 * ceilDiv (ceilDiv m.nstint 8) 8) && len 4 (2 * m.tiles) &&
    len 6 (8 * m.nfold * (1 + m.foldWords)) && len 7 128 && len 8 (32 * m.nbind) && len 12 256 && len 13 2048 &&
    (m.ofTy 9).all (fun s => decide (512 ≤ s.len ∧ s.len ≤ 33280 ∧ s.len % 8 = 0)) &&
    (m.ofTy 10).all (fun s => decide (s.len ≤ 16384)) &&
    (m.ofTy 11).all (fun s => decide (16 ≤ s.len))

/-- Word 3 of a ring record also holds LTAG, which only RINGW cannot write (Table 9-3). -/
def ringMask (k : Nat) : W64 := if k % 4 = 3 then span 15 0 else rgMask (k % 4)

/-- Writable bits of word k of the records of a section type: FORMATS, RINGS, ITERS (Tables 9-3, 11-3, 12-3). -/
def recMask (ty k : Nat) : W64 := if ty = 7 then ftMask else if ty = 12 then ringMask k else tiMask (k % 8)

/-- A section of records holds zero in every reserved field (R30, R32). -/
def recordsOk (m : Image) (ty : Nat) : Bool :=
  (m.ofTy ty).all fun s => (m.words s 0 (s.len / 8)).zipIdx.all fun p => p.1 &&& ~~~(recMask ty p.2) == 0

/-- Reserved fields of the image's structures are zero (R30). -/
def reservedOk (m : Image) : Bool :=
  let z := fun (w : W64) (mask : W64) => w &&& mask == 0
  z (m.region 0) (span 63 48 ||| span 31 16) && z (m.region 1) (span 63 45 ||| span 31 22 ||| span 15 14 ||| span 7 6) &&
    z (m.region 3) (span 63 41 ||| span 31 25 ||| span 15 12) &&
    (List.range m.nseam).all (fun k => z (m.seamWord k) (span 30 24 ||| span 15 8)) &&
    (List.range m.nfold).all (fun k => z (m.foldHeader k) (span 63 8)) &&
    m.binds.all (fun b => z b.obj (span 63 32) && (b.kind == 4 || b.addr == 0)) &&
    (m.ofTy 5).all (fun s => decide (s.len < 8) || z (m.word s 0) (span 63 32)) && m.recordsOk 7 && m.recordsOk 12 &&
    m.recordsOk 13 && (m.ofTy 11).all (fun s => z (m.word s 0) (span 31 3))

/-- Programs are named, and named programs are there (R40); data targets and their AUX (R51). -/
def namesOk (m : Image) : Bool :=
  let used := (List.range m.tiles).map m.program
  used.all (fun n => n == 0xFFFF || (m.programSect n).isSome) &&
    (m.ofTy 5).all (fun s => s.aux != 0xFFFF && used.contains s.aux) &&
    (m.ofTy 11).all (fun s => decide (m.dataTarget s ≤ 2) && (m.dataTarget s == 0 || s.aux == 0))

def formatOk (m : Image) : Bool :=
  headerOk m.file && m.layoutOk && m.countsOk && m.lengthsOk && m.reservedOk && m.namesOk

-- IMG_CAPS (R52)

def capsOk (m : Image) (caps : W64) : Bool :=
  imgWord m.file 32 &&& ~~~caps == 0 && ((m.ofTy 9).isEmpty || bit caps 2) && ((m.ofTy 10).isEmpty || bit caps 3)

-- IMG_LIMIT (R32, R33, R35, R36, R41, R51)

/-- ALIGN_MAX (Table 1-4). -/
def alignMax : Nat := 393216

def regionOk (m : Image) : Bool :=
  decide (m.nseam ≤ 32) && decide (m.world ≤ 192) && decide (1 ≤ m.h) && decide (1 ≤ m.w) && decide (m.tiles ≤ 12800) &&
    decide (m.chan ≤ 6400) && decide (m.alignIv ≤ alignMax) && decide (1 ≤ m.pauseMax) && decide (m.nbind ≤ 256) &&
    decide (m.nfold ≤ 256) && decide (1 ≤ m.nstint ∧ m.nstint ≤ 4096)

def partOk (p : W64) : Bool :=
  let sp := bits p 21 16
  let acc := bits p 13 8
  let pen := bits p 5 0
  decide (sp + acc + pen = 32 ∧ 1 ≤ sp ∧ 1 ≤ acc ∧ 1 ≤ pen)

/-- A seam's place in the order of R36. -/
def seamKey (s : Seam) : Nat := (if s.col then 0 else 256) + s.index

def rising : List Nat → Bool
  | [] => true
  | [_] => true
  | x :: y :: rest => decide (x < y) && rising (y :: rest)

def seamsOk (m : Image) : Bool :=
  m.seams.all (fun s => decide (18 ≤ s.lat) && decide (1 ≤ s.index ∧ s.index < (if s.col then m.w else m.h))) &&
    rising (m.seams.map seamKey)

def programsOk (m : Image) : Bool :=
  (m.ofTy 5).all fun s =>
    decide (1 ≤ m.nbundle s ∧ m.nbundle s ≤ 5461 ∧ m.entry s < m.nbundle s ∧ s.len = 8 + 24 * m.nbundle s)

/-- Tile indices in AUX, and where data segments lie. -/
def segmentsOk (m : Image) : Bool :=
  [7, 12, 13].all (fun ty => (m.ofTy ty).all fun s => s.aux == 0xFFFFFFFF || decide (s.aux < m.tiles)) &&
    (m.ofTy 11).all (fun s =>
      let last := m.dataDest s + m.dataLen s
      (m.dataTarget s != 0 || decide (s.aux < m.tiles)) &&
        (if m.dataTarget s = 2 then decide (last ≤ m.hbmBytes) else decide (last ≤ m.shape.spBytes)))

def limitOk (m : Image) : Bool := m.regionOk && partOk m.part && m.seamsOk && m.programsOk && m.segmentsOk

-- IMG_FOLD (R47)

def foldsOk (m : Image) : Bool :=
  rising (m.folds.map (·.1)) && m.folds.all (fun f => !f.2.isEmpty) &&
    (List.range m.tiles).all (fun i => decide ((m.folds.filter fun f => f.2.contains i).length ≤ 4)) &&
    (List.range m.nfold).all (fun k => (List.range (64 * m.foldWords)).all fun i => decide (i < m.tiles) || !m.foldBit k i)

-- IMG_BIND (R48)

/-- Word 3 of a KIND 4 binding is an aligned scratchpad word, own or by a TILEPOOL address. -/
def syncWordOk (m : Image) (a : Nat) : Bool :=
  decide (a % 8 = 0) &&
    (decide (a < m.shape.spBytes) ||
      (decide (0x010000000000 ≤ a ∧ a < 0x012000000000) && decide (a % 2097152 < m.shape.spBytes)))

/-- The object a binding names exists. DESIGN CHOICE (log entry 60): bits of word 2 that its KIND does not use are not looked
at. -/
def objectOk (m : Image) (b : Binding) : Bool :=
  match b.kind with
  | 1 => decide (b.x < m.w) && decide (b.y < m.h)
  | 2 => m.folds.any (·.1 == b.num)
  | 3 => decide (b.num < 64)
  | 4 => m.syncWordOk b.addr.toNat
  | _ => false

def bindsOk (m : Image) : Bool :=
  m.binds.all (fun b => decide (b.start % 64 = 0 ∧ b.len % 64 = 0 ∧ 64 ≤ b.len) && m.objectOk b) &&
    allApart (m.binds.map fun b => (b.start, b.len))

-- IMG_USTORE (R49)

/-- The control store an image loads. -/
def ustore (m : Image) : Store :=
  { Store.empty with bytes := Mem.write [] 0 (m.bytes (m.sect 9) 512 ((m.sect 9).len - 512)) }

/-- Source word of binding entry n. -/
def bindWord (m : Image) (n : Nat) : W64 := if (m.ofTy 9).isEmpty then 0 else m.word (m.sect 9) n

def ustoreOk (m : Image) : Bool :=
  (List.range 64).all fun n => !bit (m.bindWord n) 63 || (bindChecks m.ustore (m.bindWord n)).status == 0

/-- The status of loading an image for a function (R52, Table 2-7). -/
def status (m : Image) (fn : Nat) (caps : W64) : Nat :=
  if !m.formatOk then 0x21
  else if !m.capsOk caps then 0x26
  else if !m.limitOk then 0x22
  else if m.world ≠ fn then 0x27
  else if !m.foldsOk then 0x23
  else if !m.bindsOk then 0x24
  else if !m.ustoreOk then 0x25
  else 0

-- Loading (R32, R40 to R43, R47, R49 to R51, R154)

/-- The section of a type for a tile: its own, else the default (R32). -/
def perTile (m : Image) (ty i : Nat) : Option Sect :=
  ((m.ofTy ty).find? (·.aux == i)).or ((m.ofTy ty).find? (·.aux == 0xFFFFFFFF))

/-- Words of a section as a register file. -/
def regsOf (m : Image) (s : Option Sect) (n : Nat) : Regs :=
  match s with
  | none => []
  | some s => (m.words s 0 n).zipIdx.filterMap fun p => if p.1 = 0 then none else some (p.2, p.1)

/-- The bytes of a data segment, zeros included. -/
def dataBytes (m : Image) (s : Sect) : List Byte := m.bytes s 16 (s.len - 16) ++ List.replicate (m.dataZeros s) 0

/-- Pool contents of a tile: segments in directory order (R51). -/
def poolOf (m : Image) (i : Nat) : Mem :=
  (m.ofTy 11).foldl (fun p s =>
    if m.dataTarget s = 1 ∨ (m.dataTarget s = 0 ∧ s.aux = i) then Mem.write p (m.dataDest s) (m.dataBytes s) else p) []

/-- HBM contents at START. -/
def hbmOf (m : Image) : Mem :=
  (m.ofTy 11).foldl (fun p s => if m.dataTarget s = 2 then Mem.write p (m.dataDest s) (m.dataBytes s) else p) []

/-- The binding table as loaded (R49). -/
def bindsOf (m : Image) : Regs :=
  (List.range 64).filterMap fun n =>
    let e := (bindEntry m.ustore 0 (m.bindWord n)).1
    if e = 0 then none else some (n, e)

def storeOf (bytes : List Byte) : Store := { Store.empty with bytes := Mem.write [] 0 bytes }

/-- Reset value of poolscope: PANEL, and TILE for pen granules (Table 9-8). -/
def scopeReset (sh : Shape) : W64 :=
  (List.range 32).foldl (fun w g => if sh.area (g * 65536) = .pen then w else setBits w (2 * g + 1) (2 * g) 2) 0

/-- A tile as START finds it. -/
def tileOf (m : Image) (i : Nat) : Tile :=
  let prog := m.programSect (m.program i)
  let code := match prog with
    | some s => m.bytes s 8 (24 * m.nbundle s)
    | none => []
  let start := match prog with
    | some s => m.entry s
    | none => 0
  let t := Tile.init
  { t with
    core := { t.core with pc := w64 start, halted := prog.isNone }
    ctl := [(0x0A, 0x8000800080008000), (kPoolscope, scopeReset m.shape)]
    st := { t.st with
      pool := { Store.empty with bytes := m.poolOf i }, istore := storeOf code, cstore := m.ustore, binds := m.bindsOf,
      tmem := storeOf (m.bytes (m.sect 10) 0 (m.sect 10).len) }
    mx := { t.mx with ft := m.regsOf (m.perTile 7 i) 16 }
    dr := { t.dr with rg := m.regsOf (m.perTile 12 i) 32, ti := m.regsOf (m.perTile 13 i) 256 } }

/-- The tiles of the paddock. -/
def tilesOf (m : Image) : FMap Tile := (List.range m.tiles).map fun i => (i, m.tileOf i)

end Image

/-- The distance of a member from the home of a fold (R376). -/
def Shape.foldDist (sh : Shape) (home i : Nat) : Nat := if i = home then 0 else sh.hops home i + 2 + sh.seamCost home i

/-- FOLDLAT of a fold (R376). -/
def Shape.foldLatency (sh : Shape) (members : List Nat) : Nat :=
  let home := members.foldl Nat.min (members.headD 0)
  2 * members.foldl (fun n i => Nat.max n (sh.foldDist home i)) 0 + 1

/-- The folds of the image, before any phase (R375). -/
def Image.foldsOf (m : Image) : FMap Fold :=
  m.folds.map fun f =>
    (f.1, { members := f.2, lat := m.shape.foldLatency f.2, phase := 0, arrived := [], advance := none, poison := false,
            rewrote := [], resetAt := none })

-- Measurements (R65)

/-- The bytes of a store, n of them. -/
def Store.dump (st : Store) (n : Nat) : List Byte := Mem.read st.bytes 0 n

/-- Binding table and control store of a tile, as measured. -/
def Tile.microBytes (t : Tile) : List Byte :=
  ((List.range 64).flatMap fun n => natLE 8 (Regs.rd t.st.binds n).toNat) ++ t.st.cstore.dump 32768

/-- A paddock with its measurements taken anew: at load and at each pause point (R65, R231). -/
def Paddock.measure (p : Paddock) : Paddock :=
  { p with measStore := Config.sha384 (p.tiles.flatMap fun e => e.2.microBytes),
           measTable := Config.sha384 (p.tiles.flatMap fun e => e.2.st.tmem.dump 16384) }

end Sys2Proof.Machine
end

