-- ==== Sys2Proof/Machine/Rings.lean ====
section
/-!
DEFINITION. Machine/Rings.lean: host memory as a function addresses it, completion and event entries, the writes of NOTIFY,
KHEAD and RCFG, and queue slots (R53 to R60).
-/
namespace Sys2Proof.Machine

-- Host memory (R59)

def State.hostRead (s : State) (fn a n : Nat) : List Byte := Mem.read s.host (hostKey fn a) n

def State.hostWrite (s : State) (fn a : Nat) (bs : List Byte) : State := { s with host := Mem.write s.host (hostKey fn a) bs }

/-- Bytes of a buffer the adapter reaches before a refusal: the host refuses whole pages of 4 KiB (log entry 3). -/
def hostReach (fn a n : Nat) : Nat :=
  match (List.range (wordsOf (a % 4096) n / 512 + 2)).find? fun k =>
      Config.hostRefuses fn ((a / 4096 + k) * 4096) && decide ((a / 4096 + k) * 4096 < a + n) with
  | some k => (a / 4096 + k) * 4096 - a
  | none => n

/-- The adapter can use all n bytes of a buffer. -/
def hostOk (fn a n : Nat) : Bool := hostReach fn a n == n

-- The two rings of a function (R54, R55)

def Func.enabled (f : Func) : Bool := bit f.rcfg 31
def Func.ringSize (f : Func) : Nat := 2 ^ (bits f.rcfg 3 0 + 6)
def Func.compSize (f : Func) : Nat := 2 ^ (bits f.rcfg 7 4 + 6)

/-- A difference of two 32-bit counters. -/
def diff32 (a b : Nat) : Nat := (a + 2 ^ 32 - b % 2 ^ 32) % 2 ^ 32

/-- The next completion entry waits for KHEAD (R55). -/
def Func.full (f : Func) : Bool := diff32 f.ktail f.khead == f.compSize

/-- Write one entry at the completion tail with the lap's phase. -/
def State.putEntry (s : State) (fn : Nat) (ws : List W64) : State :=
  let f := s.fn fn
  let phase := if f.ktail / f.compSize % 2 = 0 then fld 1 16 else 0
  let ws := match ws with
    | w :: rest => (w ||| phase) :: rest
    | [] => []
  (s.hostWrite fn (f.kbase.toNat + 32 * (f.ktail % f.compSize)) (ws.flatMap fun w => natLE 8 w.toNat)).modFn fn fun f =>
    { f with ktail := (f.ktail + 1) % 2 ^ 32 }

/-- An entry falls due: written, behind those that wait for KHEAD, or held while the ring is off, 256 at most. -/
def State.post (s : State) (fn : Nat) (ws : List W64) : State :=
  let f := s.fn fn
  if !f.enabled then (if f.held.length < 256 then s.setFn fn { f with held := f.held ++ [ws] } else s)
  else if f.full || !f.blocked.isEmpty then s.setFn fn { f with blocked := f.blocked ++ [ws] }
  else s.putEntry fn ws

/-- Entries that wait are written as KHEAD allows. -/
def State.flush (s : State) (fn : Nat) : Nat → State
  | 0 => s
  | n + 1 =>
    let f := s.fn fn
    match f.blocked with
    | [] => s
    | ws :: rest =>
      if f.full || !f.enabled then s
      else State.flush ((s.setFn fn { f with blocked := rest }).putEntry fn ws) fn n

-- Entries (R58, R60)

/-- A handle for entries that name no paddock. -/
def noHandle : Nat := 0xFFFF

/-- The completion entry of a command (Table 3-5). -/
def completionWords (op : Nat) (c : Command) (handle status : Nat) (r0 r1 : W64) : List W64 :=
  [fld c.cookie.toNat 32 ||| fld status 8 ||| fld op 0, fld handle 32 ||| fld c.index.toNat 0, r0, r1]

/-- A command's completion entry waits: it is not written yet (R20, R54, R55). -/
def Func.owes (f : Func) (x : Nat × Command) : Bool :=
  (f.held ++ f.blocked).any fun ws =>
    match ws with
    | a :: b :: _ => bits a 7 0 == x.1 && bits a 63 32 == x.2.cookie.toNat && bits b 31 0 == x.2.index.toNat
    | _ => false

/-- An EVENT entry. -/
def State.event (s : State) (fn code handle : Nat) (r0 r1 : W64) : State :=
  s.post fn [fld code 8 ||| fld 0xF0 0, fld handle 32, r0, r1]

-- Status codes (Table 3-7)
def stOk : Nat := 0x00
def stBadOpcode : Nat := 0x01
def stBadHandle : Nat := 0x02
def stBadState : Nat := 0x03
def stDenied : Nat := 0x04
def stNoPlace : Nat := 0x05
def stBusy : Nat := 0x06
def stAuth : Nat := 0x07
def stNoBudget : Nat := 0x08
def stExpired : Nat := 0x09
def stBadArg : Nat := 0x0A
def stImgFormat : Nat := 0x21

-- Event codes (Table 3-7)
def evJobEnd : Nat := 0x01
def evFault : Nat := 0x02
def evAllPinned : Nat := 0x03
def evThermal : Nat := 0x04
def evReclaim : Nat := 0x05
def evHbTimeout : Nat := 0x06
def evRingOvf : Nat := 0x07
def evSeqGap : Nat := 0x08
def evVoid : Nat := 0x09
def evDestroyed : Nat := 0x0A
def evRetired : Nat := 0x0B

-- Queue slots (R56, R57)

/-- Functions that hold a slot. -/
def State.mappedFns (s : State) : List Nat := (s.fns.filter (·.2.mapped)).map (·.1)

/-- Every one of the 64 slots holds a pinned ring. -/
def State.allPinned (s : State) : Bool := decide (64 ≤ s.mappedFns.length) && s.mappedFns.all fun n => (s.fn n).pinned

/-- A notify held while every slot is pinned counts; the first one is reported to the PF (R57). -/
def State.countNotify (s : State) (fn : Nat) : State :=
  let f := s.fn fn
  let s := s.setFn fn { f with pendcnt := f.pendcnt + 1 }
  if f.pendcnt = 0 then s.event 0 evAllPinned noHandle (w64 fn) 0 else s

/-- A notify of a ring without a slot is latched. -/
def State.latchNotify (s : State) (fn : Nat) : State :=
  let f := s.fn fn
  if f.mapped then s
  else
    let s := s.setFn fn { f with pendingMap := true }
    if s.allPinned then s.countNotify fn else s

/-- A latched ring that comes to wait because every slot has been pinned since counts its notify then (R57). -/
def State.countPinned (s : State) : State :=
  if s.allPinned then
    (s.fns.filter fun e => e.2.pendingMap && e.2.pendcnt == 0).foldl (fun s e => s.countNotify e.1) s
  else s

/-- NOTIFY (R55, R63): a new tail; nothing when it equals HEAD; RING_OVF beyond the ring's size. -/
def execNotify (fn : Nat) (v : W64) (s : State) : Out :=
  let f := s.fn fn
  let tail := bits v 31 0
  let d := diff32 tail f.head
  if !f.enabled ∨ f.halt = 2 ∨ d = 0 then .next s
  else if f.ringSize < d then .next ((s.setFn fn { f with halt := 2 }).event fn evRingOvf noHandle 0 0)
  else .next ((s.setFn fn { f with tail := tail, recheck := f.halt == 1 }).latchNotify fn)

/-- KHEAD (R55). -/
def execKhead (fn : Nat) (v : W64) (s : State) : Out :=
  let s := s.modFn fn fun f => { f with khead := bits v 31 0 }
  .next (s.flush fn (s.fn fn).blocked.length)

def rcfgMask : W64 := span 31 31 ||| span 7 0

/-- RCFG (R54): sizes only while EN is 0, and none above 10; enabling resets the ring and writes what was held. A write that clears EN
leaves the sizes alone, and so clears EN whatever sizes it holds (log entry 61). -/
def State.writeRcfg (s : State) (fn : Nat) (v : W64) : State :=
  let f := s.fn fn
  if f.enabled then
    if bit v 31 then s
    else s.setFn fn { f with rcfg := f.rcfg &&& span 7 0, held := f.blocked ++ f.held, blocked := [] }
  else if 10 < bits v 3 0 ∨ 10 < bits v 7 4 then s
  else if !bit v 31 then s.setFn fn { f with rcfg := v &&& rcfgMask }
  else
    let g := { f with rcfg := v &&& rcfgMask, head := 0, tail := 0, ktail := 0, khead := 0, held := [], blocked := [],
                      halt := if f.halt = 2 then 0 else f.halt, recheck := false }
    f.held.foldl (fun s ws => s.post fn ws) (s.setFn fn g)

def execRcfgWrite (fn : Nat) (v : W64) (s : State) : Out := .next (s.writeRcfg fn v)

/-- Insertion by falling level, then rising function number (R57). -/
def insertLevel (s : State) (n : Nat) : List Nat → List Nat
  | [] => [n]
  | x :: xs => if (s.fn x).level < (s.fn n).level then n :: x :: xs else x :: insertLevel s n xs

/-- Rings that wait are mapped as slots are free. -/
def State.mapRings (s : State) : State :=
  let waiting := ((s.fns.filter (·.2.pendingMap)).map (·.1)).foldl (fun l n => insertLevel s n l) []
  (waiting.take (64 - s.mappedFns.length)).foldl
    (fun s n => s.modFn n fun f => { f with mapped := true, pendingMap := false, pendcnt := 0 }) s

/-- An unpinned ring with no command left gives up its slot (R56). -/
def State.unmapRings (s : State) : State :=
  (s.mappedFns.filter fun n => !(s.fn n).pinned && (s.fn n).head == (s.fn n).tail).foldl
    (fun s n => s.modFn n fun f => { f with mapped := false }) s

end Sys2Proof.Machine
end

