-- ==== Sys2Proof/Machine/Life.lean ====
section
/-!
DEFINITION. Machine/Life.lean: the life of a paddock: pending requests and their ends, destruction, draining, sealing,
placing and moving, the release wave, and notifications (R59, R69 to R71, R80, R91, R92, R433 to R438, R457).
-/
namespace Sys2Proof.Machine

/-- The key of a paddock: its function and handle. -/
def padKey (fn handle : Nat) : Nat := fn * 65536 + handle

def State.padAt (s : State) (k : Nat) : Paddock := FMap.getD s.pads k Paddock.init

def State.modPadAt (s : State) (k : Nat) (f : Paddock → Paddock) : State := { s with pads := FMap.modify s.pads k f }

/-- Do something with a paddock's first tile as current, and come back. -/
def State.onPad (s : State) (k : Nat) (f : State → State) : State :=
  { f { s with cur := { pad := k, tile := 0 } } with cur := s.cur }

/-- Do something at every tile of the current paddock, in tile index order. -/
def State.everyTile (s : State) (f : State → State) : State := (FMap.keys s.pad.tiles).foldl (fun s i => s.atTile i f) s

/-- The same; tiles of a die that has stopped do nothing (R29). -/
def State.eachTile (s : State) (f : State → State) : State := s.everyTile fun s => if s.tile.core.dead then s else f s

/-- Change every tile of a paddock. -/
def Paddock.mapTiles (p : Paddock) (f : Nat → Tile → Tile) : Paddock :=
  { p with tiles := p.tiles.map fun e => (e.1, f e.1 e.2) }

-- Completions (R58, R59)

/-- The completion entry of a command, written now; a command whose entry has to wait is kept beside it (R20). -/
def State.done (s : State) (op : Nat) (c : Command) (status : Nat) (r0 r1 : W64) : State :=
  (s.post c.fn (completionWords op c c.handle.toNat status r0 r1)).modFn c.fn fun f =>
    { f with undone := (f.undone ++ [(op, c)]).filter f.owes }

/-- Opcode of the command a request comes from (Table 3-6). -/
def Req.op : Req → Nat
  | .preempt => 0x05
  | .move _ => 0x07
  | .release _ _ => 0x08
  | .accept _ _ => 0x09
  | .hostMap _ _ _ _ => 0x13
  | .hostUnmap _ _ => 0x14
  | .slice | .seal | .partition | .relocate | .stop | .thermal | .retire => 0

/-- A request ends with a status: its command's completion, if it came from one. -/
def State.endReq (s : State) (q : Pending) (status : Nat) (r0 : W64) : State :=
  match q.cmd with
  | some c => s.done q.req.op c status r0 0
  | none => s

/-- A stop that was only requested is withdrawn (R71). -/
def Paddock.dropStop (p : Paddock) : Paddock :=
  if p.dbg.state = 1 then { p with dbg := { p.dbg with state := 0 } } else p

/-- Every waiting request of a paddock ends with BAD_STATE (R71), a MOVE whose pages are still being copied too, and
commands that wait for its release. -/
def State.failPending (s : State) (k : Nat) : State :=
  let p := s.padAt k
  let s := p.pending.foldl (fun s q => s.endReq q stBadState 0) s
  let s := match p.moveCmd with
    | some c => s.done 0x07 c stBadState 0 0
    | none => s
  let mine := s.panel.awaits.filter fun a => a.pads.contains k && a.op != 0x12
  let s := mine.foldl (fun s a => s.done a.op a.cmd stBadState 0 0) s
  let rest := s.panel.awaits.filter fun (a : Await) => !(a.pads.contains k && a.op != 0x12)
  let s := { s with panel := { s.panel with awaits := rest.map fun (a : Await) =>
    { a with pads := a.pads.filter (· != k) } } }
  s.modPadAt k fun p => { p.dropStop with pending := [], moveCmd := none }

/-- Commands whose paddocks have all left their release complete (R59, R73, R92). -/
def State.endAwaits (s : State) : State :=
  let waits := fun (k : Nat) => (s.padAt k).waking
  let ended := s.panel.awaits.filter fun (a : Await) => !a.pads.any waits
  if ended.isEmpty then s
  else
    let s := { s with panel := { s.panel with awaits := s.panel.awaits.filter fun (a : Await) => a.pads.any waits } }
    ended.foldl (fun s a => s.done a.op a.cmd stOk a.res 0) s

-- Channels (R80, R92, R247)

def ownAll (o : FMap Nat) (chs : List (Option Nat)) (k : Nat) : FMap Nat :=
  chs.foldl (fun o c => match c with
    | some c => FMap.put o c k
    | none => o) o

/-- The channels of a paddock are freed. -/
def Panel.disown (q : Panel) (k : Nat) : Panel := { q with owners := q.owners.filter (·.2 != k) }

-- Destruction (R457)

/-- A handle of the function in a state other than DESTROYED. -/
def State.liveHandles (s : State) (fn : Nat) : List Nat :=
  (s.pads.filter fun e => e.2.fn == fn && e.2.state != .destroyed).map (·.1)

/-- The dies that the paddock of key k gives up keep the dtick it has read there (R85). -/
def State.leaveDies (s : State) (k : Nat) : State :=
  let p := s.padAt k
  let top := p.bases.foldl (fun m e => FMap.put m e.1 (Nat.max (FMap.getD m e.1 0) (p.dtickOn s.panel m e.1 s.dtick))) s.panel.dieTop
  { s with panel := { s.panel with dieTop := top } }.modPadAt k fun p => { p with bases := [], rises := [] }

/-- Frees tiles, pages, channels and handle; the world key goes with the last handle (R64, R457). -/
def State.destroyPad (s : State) (k : Nat) : State :=
  let s := (s.failPending k).leaveDies k
  let s := { s with panel := s.panel.disown k }
  let s := s.modPadAt k fun p => { Paddock.init with fn := p.fn, handle := p.handle, state := .destroyed }
  let fn := (s.padAt k).fn
  if (s.liveHandles fn).isEmpty then s.modFn fn fun f => { f with worldKey := none } else s

/-- Destruction that no command asked for: a DESTROYED event with its reason (R69). -/
def State.destroyFor (s : State) (k reason : Nat) : State :=
  let p := s.padAt k
  (s.destroyPad k).event p.fn evDestroyed p.handle (w64 reason) 0

-- Draining (R436, Table 17-9)

/-- A drain entry, with the cycle it is due after p and its sender. -/
structure DrainEntry where
  due : Nat
  sender : Nat
  kind : Nat
  word : Nat
  data : W64
  deriving DecidableEq, Repr

def DrainEntry.words (e : DrainEntry) : List W64 :=
  [e.data, fld 1 63 ||| fld e.kind 60 ||| fld (e.sender % 2 ^ 14) 46 ||| fld (e.word % 2 ^ 18) 24 ||| fld (e.due % 65536) 0]

def insertDrain (e : DrainEntry) : List DrainEntry → List DrainEntry
  | [] => [e]
  | x :: xs => if e.due < x.due ∨ (e.due = x.due ∧ e.sender < x.sender) then e :: x :: xs else x :: insertDrain e xs

/-- Messages of a fold in flight towards tile i after cycle c: arrivals towards the home, and the advance (R375, R380). -/
def Fold.inFlight (o : Fold) (sh : Shape) (f i c : Nat) : List DrainEntry :=
  let home := o.members.foldl Nat.min (o.members.headD 0)
  let reach := fun (a : Nat × Nat) => a.2 + sh.foldDist home a.1
  let arrivals := if i = home then o.arrived.filterMap fun a =>
      if a.1 ≠ home ∧ c < reach a then
        some { due := reach a - c, sender := a.1, kind := 1, word := 0, data := fld o.phase.toNat 32 ||| fld f 0 }
      else none
    else []
  let advance := match o.advance with
    | some v =>
      let sent := o.arrived.foldl (fun n a => Nat.max n (reach a)) 0
      if i ≠ home ∧ o.members.contains i ∧ sent ≤ c ∧ c < v then
        [{ due := v - c, sender := home, kind := 2, word := 0, data := fld (o.phase + 1).toNat 32 ||| fld f 0 }]
      else []
    | none => []
  arrivals ++ advance

/-- What is in flight towards tile i after cycle c, in the order of the drain area. -/
def Paddock.inFlight (p : Paddock) (i c : Nat) : List DrainEntry :=
  let strs := (p.net.filter fun w => w.target == i && w.refusal.isNone && decide (c < w.due)).map fun w =>
    ({ due := w.due - c, sender := w.sender, kind := 0, word := w.off / 8, data := w.data } : DrainEntry)
  let msgs := p.folds.flatMap fun e => e.2.inFlight p.shape e.1 i c
  (strs ++ msgs).foldl (fun l e => insertDrain e l) []

def drainBase : Nat := 0x1FC000
def drainMax : Nat := 984

/-- The words in flight fit the drain areas (R436). -/
def Paddock.drainFits (p : Paddock) (c : Nat) : Bool :=
  p.tiles.all fun e => decide ((p.inFlight e.1 c).length ≤ drainMax)

/-- Write the drain area of a tile; entries after the last are zero. -/
def Tile.drain (t : Tile) (es : List DrainEntry) : Tile :=
  let bs := es.flatMap fun e => e.words.flatMap fun w => natLE 8 w.toNat
  let bs := (bs ++ List.replicate (16 * drainMax - bs.length) 0).take (16 * drainMax)
  let lo := drainBase / 8
  let hi := lo + 2 * drainMax
  t.modPool fun st =>
    { st with bytes := Mem.write st.bytes drainBase bs, poison := st.poison.filter fun w => decide (w < lo ∨ hi ≤ w),
              errs := st.errs.filter fun e => decide (e.1 < lo ∨ hi ≤ e.1) }

/-- Drain a paddock after cycle c. The words stay in the network state, due on the same region cycles (R438). -/
def Paddock.drain (p : Paddock) (c : Nat) : Paddock := p.mapTiles fun i t => t.drain (p.inFlight i c)

-- Counting errors (R238, R462, R463)

/-- Stores of a tile. -/
def Stores.hits (s : Stores) : Nat := s.pool.hits + s.istore.hits + s.cstore.hits + s.tmem.hits

/-- Uncorrectable errors found and not yet counted. -/
def Stores.uncs (s : Stores) : Nat := s.pool.unc + s.istore.unc + s.cstore.unc + s.tmem.unc

def Store.counted (st : Store) : Store := { st with hits := 0, unc := 0 }

def Stores.counted (s : Stores) : Stores :=
  { s with pool := s.pool.counted, istore := s.istore.counted, cstore := s.cstore.counted, tmem := s.tmem.counted }

/-- Physical tile under a tile of a paddock. -/
def State.physOf (s : State) (p : Paddock) (i : Nat) : Nat := s.panel.phys (p.shape.site p.place i)

/-- The errors the current tile's stores found go to its physical tile, each corrected pool error stamped. -/
def State.countErrors (s : State) : State :=
  let st := s.tile.st
  if st.hits = 0 ∧ st.uncs = 0 then s
  else
    let ph := s.physOf s.pad s.cur.tile
    let e := s.errCnt ph
    let e' : ErrCnt := { unc := e.unc + st.uncs, corr := e.corr + st.hits,
                         stamps := e.stamps ++ List.replicate st.pool.hits s.dtick }
    let s := s.modTile fun t => { t with st := t.st.counted }
    { s with panel := { s.panel with errs := FMap.put s.panel.errs ph e' } }

/-- Every word of a store is read. -/
def Store.readAll (st : Store) : Store := st.errs.foldl (fun st e => st.meet e.1) st

def Stores.readAll (s : Stores) : Stores :=
  { s with pool := s.pool.readAll, istore := s.istore.readAll, cstore := s.cstore.readAll, tmem := s.tmem.readAll }

/-- The current tile's state is copied, by a seal, a move or a row shift: every word of its stores meets its code, and what is found
counts at the physical tile it stands on now (R238, R456, R462). -/
def State.readTile (s : State) : State := (s.modTile fun t => { t with st := t.st.readAll }).countErrors

-- Sealing (R435, R455)

/-- A freeze of the paddock of key k waits for the register writes of its tiles (R135). -/
def State.settleWrites (s : State) (k : Nat) : State := s.onPad k fun s => s.eachTile State.flushWrites

/-- dtick and errcnt of the current tile stand in its saved state as they are now (R456). -/
def State.saveCtl (s : State) : State :=
  let v := s.krdValue
  s.modTile fun t => { t with savedCtl := [(0x09, v 0x09), (0x7B, v 0x7B)] }

/-- Save and seal the paddock of key k after cycle c: register writes landed, drained, every word read, TLBs invalidated. The
tiles' contents are the save image, a stopped die's too (R29, R456). -/
def State.sealPad (s : State) (k c : Nat) : State :=
  let s := s.settleWrites k
  let s := s.modPadAt k fun p =>
    { (p.drain c).mapTiles (fun _ t => { t with tlb := { pages := [], walks := [] } }) with owed := [] }
  let s := (s.onPad k fun s => s.everyTile fun s => s.readTile.saveCtl).leaveDies k
  s.modPadAt k fun p => { p with freeze := none, stopAt := none, waking := false }

-- The release wave (R91)

/-- The freeze of a release wave that begins now. -/
def State.wave (s : State) (p : Paddock) : Freeze := .release (s.dtick + 1 + p.shape.bMax p.place)

/-- A paddock leaves its freeze by a release wave; what else is due at its pause point may freeze it before the wave is over. -/
def Paddock.wake (p : Paddock) (f : Freeze) : Paddock := { p with freeze := some f, waking := true }

/-- The paddock of key k leaves its freeze by the release wave, on its next region cycle. -/
def State.release (s : State) (k : Nat) : State := s.modPadAt k fun p => p.wake (s.wave p)

-- Notifications (R433)

/-- A tile takes a PREEMPT notification. -/
def Tile.wantsNotice (t : Tile) : Bool := bit (Regs.rd t.ctl kTvec) 62 && !t.core.halted

/-- Enter service at the current tile with a cause. -/
def State.serve (s : State) (c : Cause) (t3 : W64) : State :=
  (s.modCore fun k => { k with svc := true }).takeFault (sFault c t3)

/-- What a paddock about to be released does first: the notifications it owes are taken under service (R431, R433). -/
def State.settle (s : State) (k : Nat) : State :=
  let p := s.padAt k
  match p.freeze with
  | some (.release _) =>
    let who := p.tiles.filter fun e => p.owed.contains e.1 && e.2.wantsNotice
    let s := s.modPadAt k fun p => { p with owed := [] }
    if who.isEmpty then s.release k
    else
      let s := (s.settleWrites k).modPadAt k fun p => { p with freeze := some .service }
      s.onPad k fun s => who.foldl (fun s e => s.atTile e.1 fun s => s.serve .preempt p.place) s
  | _ => s

-- Placing (R76 to R82, R92, R438)

/-- Pages of a channel position that are present. -/
def Paddock.pagesAt (p : Paddock) (pos : Nat) : List Nat :=
  ((List.range 625).map fun i => i * p.shape.chan + pos).filter fun g => bit (p.hbmEntry g) 63

/-- Positions whose channel changes. -/
def changedPos (old new : List (Option Nat)) : List Nat :=
  ((old.zip new).zipIdx.filter fun x => x.1.1.isSome && x.1.1 != x.1.2).map (·.2)

/-- The channels given up. -/
def givenUp (old new : List (Option Nat)) : List Nat := (old.filter fun c => !new.contains c).filterMap id

/-- Mark a page FORWARD, with the frame it is copied from (R93). -/
def Paddock.forward (p : Paddock) (g : Nat) : Paddock :=
  { p with pages := FMap.put p.pages g (p.hbmEntry g ||| pForward ||| fld (p.hbmFrame g) 0) }

/-- The page's entry names its new channel (R92 step 5). -/
def Paddock.switchPage (p : Paddock) (g : Nat) : Paddock :=
  let e := p.hbmEntry g &&& ~~~(pForward ||| span 39 0)
  { p with pages := if e = hbmDefault p.shape.world then FMap.del p.pages g else FMap.put p.pages g e,
           moving := p.moving.filter (· != g) }

/-- When the next page's copy is done. -/
def State.copyDue (s : State) : Nat := s.dtick + 1 + Config.copyDelay s.free

/-- Lead that die a has gained over die b since the paddock's last capture, in 1/256 cycle: drift within 20 ppm, and what a defective
clock has slipped (R87, R88). -/
def Paddock.seamLead (p : Paddock) (now a b : Nat) : Int :=
  let raw := (dieLead a now - dieLead a p.capture) - (dieLead b now - dieLead b p.capture)
  let lim : Int := (256 * 20 * (now - p.capture) / 1000000 : Nat)
  max (-lim) (min raw lim) + 256 * (FMap.getD p.slips a 0 - FMap.getD p.slips b 0)

/-- The skew estimate of tile i's side towards (dx, dy): 0x8000 where it faces no other die; in a freeze both counts stand still, and
the dies' region counts are equal (R86). -/
def Paddock.skewSide (p : Paddock) (now i : Nat) (dx dy : Int) : Nat :=
  match p.shape.offsetTile i dx dy with
  | none => 0x8000
  | some j =>
    let a := p.shape.die p.place i
    let b := p.shape.die p.place j
    if a = b then 0x8000 else if p.freeze.isSome then 0 else ((p.seamLead now b a) % 65536).toNat

/-- The skew register of tile i (Table 4-5). -/
def Paddock.skewWord (p : Paddock) (now i : Nat) : W64 :=
  fld (p.skewSide now i 0 (-1)) 48 ||| fld (p.skewSide now i (-1) 0) 32 ||| fld (p.skewSide now i 0 1) 16 |||
    fld (p.skewSide now i 1 0) 0

/-- Every tile of a paddock takes its skew estimates. -/
def Paddock.beat (p : Paddock) (now : Nat) : Paddock := p.mapTiles fun i t => t.setCtl 0x0A (p.skewWord now i)

/-- Errors injected into free tiles go where a paddock comes to stand: its pools are cleared or restored whole (R237, R475). -/
def Panel.unstrike (q : Panel) (sh : Shape) (word : W64) : Panel :=
  { q with struck := q.struck.filter fun e => !(sh.all.any fun i => q.phys (sh.site word i) == e.1) }

/-- A row shift's copies of the paddock of key k stand for it no more: it comes anew to the tiles it holds (R465). -/
def Panel.uncopy (q : Panel) (k : Nat) : Panel :=
  { q with retires := q.retires.map fun r => { r with copied := r.copied.filter fun e => e.1.pad != k } }

/-- Stand the paddock of key k at a placement with its channels: pages of positions that change channel are marked and
copied in the background. -/
def State.standAt (s : State) (k : Nat) (word : W64) (chans : List (Option Nat)) : State :=
  let p := s.padAt k
  let pages := (changedPos p.chans chans).flatMap p.pagesAt
  let old := givenUp p.chans chans
  let s := { s with panel := { ((s.panel.unstrike p.shape word).uncopy k) with owners := ownAll s.panel.owners chans k } }
  let s := s.modPadAt k fun p =>
    { pages.foldl Paddock.forward p with place := word, chans := chans, moving := pages,
                                         oldChans := if pages.isEmpty then [] else old }
  if pages.isEmpty then
    { s with panel := { s.panel with owners := s.panel.owners.filter fun o => !old.contains o.1 } }
  else { s.modPadAt k fun p => { p with nextSwitch := some s.copyDue } with free := s.free + 1 }

/-- Save space for the tiles of every started paddock, this one's included, on channels that no paddock owns: it is kept until DESTROY, in
HELD too (R437). -/
def State.saveSpaceOk (s : State) (p : Paddock) (chans : Nat) : Bool :=
  let started := s.pads.filter fun e =>
    e.2.state == .running || e.2.state == .preempted || e.2.state == .halted ||
      (e.2.state == .held && [PState.preempted, .halted].contains e.2.heldFrom)
  let tiles := started.foldl (fun n e => n + e.2.shape.tiles) p.shape.tiles
  decide (tiles * 2359296 ≤ (6400 - s.panel.owners.length - chans) * 1312500000)

-- Requests (R71, R434)

/-- The paddock stands stopped at a pause point, where a request taken now is carried out (R443). -/
def Paddock.atPause (p : Paddock) : Bool := p.freeze == some .stop && p.dbg.state == 2

/-- Requests that the pace die has to spread to every die (R434); a page command is taken by the Shepherd, and a hot die freezes a
paddock at its next pause point (R29, R72, R458). -/
def Req.spreads : Req → Bool
  | .release _ _ | .accept _ _ | .hostMap _ _ _ _ | .hostUnmap _ _ | .thermal => false
  | .preempt | .slice | .seal | .partition | .relocate | .move _ | .stop | .retire => true

/-- The first cycle whose PPT carries a request out: the pause point that the paddock is stopped at; the first one after the request
is taken, within 1,024 region cycles and not before one that came earlier (R59); or the next one. -/
def State.dueFrom (s : State) (p : Paddock) (r : Req) : Nat :=
  if p.atPause then p.rtick - 1
  else if r.spreads then
    (p.pending.filter (·.req.spreads)).foldl (fun n q => Nat.max n q.due) (p.rtick + 1 + Config.requestDelay s.free % 1025)
  else p.rtick

/-- A request to the paddock of key k. Where a WATCHDOG reason is given its deadline is PAUSEMAX + 65,536 region cycles on, frozen
cycles apart (log entry 63): of a slice, a partition change and a seal from now on, of a retirement from its taking. -/
def State.request (s : State) (k : Nat) (r : Req) (cmd : Option Command) (watch : Option Nat) : State :=
  let p := s.padAt k
  let due := s.dueFrom p r
  let dead := watch.map fun reason => ((if reason ≤ 3 then p.rtick else due - 1) + p.shape.pauseMax + 65536, reason)
  let q : Pending := { req := r, due := due, cmd := cmd, deadline := dead }
  { s.modPadAt k fun p => { p with pending := p.pending ++ [q] } with free := s.free + 1 }

/-- A pause point of cycle c has been reached: no deadline runs on that counts to the first one (R38, R68, R96, R467). -/
def Pending.reached (q : Pending) (c : Nat) : Pending :=
  match q.deadline with
  | some (_, reason) => if reason ≤ 3 ∨ q.due ≤ c then { q with deadline := none } else q
  | none => q

/-- A request of this kind already waits. -/
def Paddock.asked (p : Paddock) (r : Req) : Bool := p.pending.any (·.req == r)

end Sys2Proof.Machine
end

