-- ==== Sys2Proof/Machine/Pause.lean ====
section
/-!
DEFINITION. Machine/Pause.lean: a valid pause point: mailboxes, the stint, page commands, service, and the requests carried
out there (R43 to R46, R71, R72, R92, R430 to R436, R443, R458 to R461, R465, R468).
-/
namespace Sys2Proof.Machine

-- Step 1: mailboxes (R46, R159, R453, R454)

/-- A host mailbox write takes effect at the current tile, with its INPUT record. -/
def State.mailIn (s : State) (n : Nat) (v : W64) (time : Nat) : State :=
  (s.modTile fun t => { t with mbox := FMap.put t.mbox n v }).traceTile 8 n time v

/-- Insertion by sequence number. -/
def insertSeq (a : Armed) : List Armed → List Armed
  | [] => [a]
  | x :: xs => if a.seq < x.seq then a :: x :: xs else x :: insertSeq a xs

/-- The armed records of a cycle are applied in order and used up (R454). -/
def State.applyArmed (s : State) (c : Nat) : State :=
  let d := s.pad.dbg.armed
  let now := (d.filter fun a => a.time == c).foldl (fun l a => insertSeq a l) []
  let s := s.modPad fun p => { p with dbg := { p.dbg with armed := p.dbg.armed.filter fun a => a.time != c } }
  now.foldl (fun s a => if (FMap.get? s.pad.tiles a.tile).isSome then s.atTile a.tile fun s => s.mailIn a.mbox a.value c else s) s

/-- The writes that mailboxes' latches hold, in the order of their ring entries: a later one has replaced those before it (R159). -/
def latched : List (Nat × W64) → List (Nat × W64)
  | [] => []
  | e :: es => if es.any (·.1 == e.1) then latched es else e :: latched es

/-- Latched writes of every tile take effect, in the order of their ring entries. -/
def State.latchMail (s : State) (c : Nat) : State :=
  let s := s.eachTile fun s =>
    let l := latched s.tile.mboxLatch
    let s := s.modTile fun t => { t with mboxLatch := [] }
    l.foldl (fun s e => s.mailIn e.1 e.2 c) s
  s.applyArmed c

-- Page commands (R72, R458 to R461)

/-- HBM page number of an address. -/
def hbmPage (a : W64) : Nat := (a.toNat - 0x100000000000) / 2097152

/-- Clear the storage of a page (R237). -/
def Store.clearPage (st : Store) (g : Nat) : Store :=
  let lo := g * 2097152
  let out := fun (w : Nat) => decide (8 * w < lo) || decide (lo + 2097152 ≤ 8 * w)
  { st with bytes := Mem.clear st.bytes lo 2097152, poison := st.poison.filter out, errs := st.errs.filter fun e => out e.1 }

/-- A page becomes absent; its attributes stay. -/
def Paddock.dropPage (p : Paddock) (g : Nat) : Paddock :=
  { p with pages := FMap.put p.pages g (p.hbmEntry g &&& ~~~(pPresent ||| pForward ||| span 39 0)), hbm := p.hbm.clearPage g
           moving := p.moving.filter (· != g) }

/-- A page becomes present, reading zero. -/
def Paddock.addPage (p : Paddock) (g : Nat) : Paddock := { p with pages := FMap.del p.pages g, hbm := p.hbm.clearPage g }

/-- A position asked back whose last page is gone is vacant, and its channel free (R459). -/
def State.vacate (s : State) (k : Nat) : State :=
  let p := s.padAt k
  let gone := (FMap.keys p.reclaims).filter fun i => (p.pagesAt i).isEmpty
  let chans := gone.filterMap fun i => (p.chans[i]?).join
  let s := s.modPadAt k fun p =>
    { p with chans := gone.foldl (fun l i => setNth l i none) p.chans,
             reclaims := p.reclaims.filter fun e => !gone.contains e.1 }
  { s with panel := { s.panel with owners := s.panel.owners.filter fun o => !chans.contains o.1 } }

/-- TLBs forget every page at a page change (R253). -/
def Paddock.dropTlbs (p : Paddock) : Paddock := p.mapTiles fun _ t => { t with tlb := { pages := [], walks := [] } }

/-- Channels for the vacant positions among some pages; none when they cannot be had (R461). -/
def State.refill (s : State) (p : Paddock) (gs : List Nat) : Option (List (Option Nat)) :=
  let vacant := (gs.foldl (fun l g => nsAdd l (g % p.shape.chan)) []).filter fun i => (p.chans[i]?).join.isNone
  let free := (p.shape.nearChannels p.place s.panel).filter fun c => (FMap.get? s.panel.owners c).isNone
  if free.length < vacant.length then none
  else some ((vacant.zip free).foldl (fun l x => setNth l x.1 (some x.2)) p.chans)

/-- HBM pages and HOST pages that a page command names. -/
def hbmPages (a : W64) (n : Nat) : List Nat := (List.range n).map fun i => hbmPage a + i
def hostPagesAt (a : W64) (n : Nat) : List Nat := (List.range n).map fun i => (a.toNat - 0x300000000000) / 2097152 + i

/-- A HOST page as HOST_MAP makes it (R72): its frame is the low 40 bits of the host's page number. -/
def hostPageOf (world base perm : Nat) : HostPage :=
  { entry := pPresent ||| entryOf 4 3 world (8 * (perm % 2) + 4 * (perm / 2 % 2) + 1) ||| fld (base / 2097152 % 2 ^ 40) 0, base := base }

/-- A HOST page becomes absent; its attributes stay. -/
def HostPage.drop (h : HostPage) : HostPage := { h with entry := h.entry &&& ~~~pPresent }

/-- What a page command makes of the paddock's page tables. -/
def Req.onPages (r : Req) (p : Paddock) : Paddock :=
  match r with
  | .release a n => ((hbmPages a n).foldl Paddock.dropPage p).dropTlbs
  | .accept a n => ((hbmPages a n).foldl Paddock.addPage p).dropTlbs
  | .hostMap a host n perm =>
    { p.dropTlbs with hostPages := (hostPagesAt a n).zipIdx.foldl (fun m x =>
        FMap.put m x.1 (hostPageOf p.shape.world (host.toNat + x.2 * 2097152) perm)) p.hostPages }
  | .hostUnmap a n =>
    { p.dropTlbs with hostPages := (hostPagesAt a n).foldl (fun m g => FMap.modify m g HostPage.drop) p.hostPages }
  | .preempt | .slice | .seal | .partition | .relocate | .move _ | .stop | .thermal | .retire => p

/-- Channels given up by a move are free again. -/
def State.freeOld (s : State) (k : Nat) : State :=
  let old := (s.padAt k).oldChans
  let s := { s with panel := { s.panel with owners := s.panel.owners.filter fun o => !(old.contains o.1 && o.2 == k) } }
  s.modPadAt k fun p => { p with oldChans := [], moveCmd := none, nextSwitch := none }

/-- The last page of a move has switched: the old channels are freed, and a MOVE completes (R92 step 6). -/
def State.endMove (s : State) (k : Nat) : State :=
  let p := s.padAt k
  let s := s.freeOld k
  match p.moveCmd with
  | some c => s.done 0x07 c stOk p.place 0
  | none => s

/-- A move whose last pages were released is over. -/
def State.checkMove (s : State) (k : Nat) : State :=
  if (s.padAt k).moving.isEmpty && (s.padAt k).nextSwitch.isSome then s.endMove k else s

/-- A page command takes effect now at the paddock of key k, and completes. -/
def State.pageReq (s : State) (k : Nat) (q : Pending) : State :=
  let eff := fun (s : State) => s.modPadAt k q.req.onPages
  match q.req with
  | .release _ _ => (((eff s).vacate k).endReq q stOk 0).checkMove k
  | .accept a n =>
    match s.refill (s.padAt k) (hbmPages a n) with
    | none => s.endReq q stBusy 0
    | some chans =>
      let s := { s with panel := { s.panel with owners := ownAll s.panel.owners chans k } }
      (eff (s.modPadAt k fun p => { p with chans := chans })).endReq q stOk 0
  | .hostMap _ _ _ _ => (eff s).endReq q stOk 0
  | .hostUnmap _ _ => (eff s).endReq q stOk 0
  | _ => s

/-- The paddock as its waiting page commands will leave it: what a further page command is checked against. -/
def Paddock.preview (p : Paddock) : Paddock := p.pending.foldl (fun p q => q.req.onPages p) p

def Req.isPage : Req → Bool
  | .release _ _ => true
  | .accept _ _ => true
  | .hostMap _ _ _ _ => true
  | .hostUnmap _ _ => true
  | _ => false

/-- Requests taken by cycle c, each beside the cycle of its taking: its own, or for one of the picked kind that of a later such one, since
those are taken in order (R59, R434). -/
def takenBy (pick : Req → Bool) (c : Nat) : List Pending → List (Nat × Pending)
  | [] => []
  | q :: qs =>
    let n := if pick q.req then (qs.filter fun r => pick r.req).foldl (fun n r => Nat.min n r.due) q.due else q.due
    if n ≤ c then (n, q) :: takenBy pick c qs else takenBy pick c qs

/-- The page commands due at the pause point of cycle c take effect in ring order. -/
def State.pageReqs (s : State) (k c : Nat) : State :=
  let due := (takenBy Req.isPage c ((s.padAt k).pending.filter (·.req.isPage))).map (·.2)
  let s := s.modPadAt k fun p => { p with pending := p.pending.filter fun q => !due.contains q }
  due.foldl (fun s q => s.pageReq k q) s

-- Step 3: requests (R46, R71, R92, R434, R435, R443, R465)

/-- The drain parks the registers that the program has not: their words of the spill table name where they went, and their bits of spmap
are set (R235). -/
def Tile.park (t : Tile) (draw : Nat) : Tile :=
  let map := Regs.rd t.ctl kSpmap
  let ds := (List.range 64).filter fun d => d != 0 && !bit map d
  let t := ds.foldl (fun (t : Tile) d => t.modPool fun p =>
    p.put (spillSlot (BitVec.ofNat 6 d)) (natLE 8 (Config.parkAddress draw d).toNat)) t
  { t.setCtl kSpmap (map ||| span 63 1) with parked := span 63 1 &&& ~~~map }

/-- A restored tile has the registers back that the drain had parked; what the program had parked stays so (R235, R438). -/
def Tile.unpark (t : Tile) : Tile :=
  { t.setCtl kSpmap (Regs.rd t.ctl kSpmap &&& ~~~t.parked) with parked := 0 }

/-- Every tile of the paddock of key k parks its registers. -/
def State.parkPad (s : State) (k : Nat) : State :=
  s.onPad k fun s => s.eachTile fun s => { s.modTile fun t => t.park s.free with free := s.free + 1 }

/-- The paddock is pre-empted or sealed after cycle c: every waiting request ends. -/
def State.preemptPad (s : State) (k c : Nat) : State :=
  let p := s.padAt k
  let has := fun (r : Req) => p.pending.any (·.req == r)
  let s := (s.sealPad k c).parkPad k
  let s := s.modPadAt k fun p =>
    { p.dropStop with
      state := if has .seal then .held else .preempted, heldFrom := .preempted,
      sliced := has .slice && !has .preempt && !has .partition && !has .relocate, pending := [] }
  p.pending.foldl (fun s q =>
    match q.req with
    | .preempt => s.endReq q stOk 0
    | .move _ => s.endReq q stBadState 0
    | _ => s.pageReq k q) s

/-- The paddock moves after cycle c to a placement word, or by the Shepherd's choice where VALID is clear, whatever other bits are set
(R80, R92, log entry 61); its skew estimates are formed at once (log entry 77). -/
def State.movePad (s : State) (k c : Nat) (q : Pending) (target : W64) : State :=
  let p := s.padAt k
  let word := if bit target 63 then (if s.placeOk k p target then some target else none) else s.choosePlace k p
  let s := { s with free := s.free + 1 }
  match word with
  | none => s.endReq q stNoPlace 0
  | some word =>
    if word = p.place then s.endReq q stOk word
    else
      let s := (s.settleWrites k).modPadAt k fun p => (p.drain c).dropTlbs
      let s := (s.onPad k fun s => s.everyTile State.readTile).leaveDies k
      let s := s.standAt k word ((s.channelsFor p word).getD p.chans)
      let s := s.modPadAt k fun p => { p.wake (s.wave p) with owed := p.shape.all }.beat s.dtick
      match q.cmd with
      | none => s
      | some cmd =>
        if (s.padAt k).moving.isEmpty then
          { s with panel := { s.panel with awaits := s.panel.awaits ++ [{ op := 0x07, cmd := cmd, pads := [k], res := word }] } }
        else s.modPadAt k fun p => { p with moveCmd := some cmd }

/-- A request that takes the paddock off its tiles. -/
def State.preempts (s : State) (k : Nat) (r : Req) : Bool :=
  match r with
  | .preempt => true
  | .slice => true
  | .seal => true
  | .partition => (s.choosePlace k (s.padAt k)).isNone
  | .relocate => (s.choosePlace k (s.padAt k)).isNone
  | _ => false

/-- The paddock is frozen where further requests must wait. -/
def Paddock.parked (p : Paddock) : Bool :=
  match p.freeze with
  | some .stop => true
  | some .thermal => true
  | some .retire => true
  | _ => false

/-- Remove a request. -/
def Paddock.without (p : Paddock) (q : Pending) : Paddock := { p with pending := p.pending.erase q }

/-- The retirement in progress affects the paddock of key k: it holds an exposed column from the failed one on of the row (R465). -/
def State.holders (s : State) (die row lo hi : Nat) : List Nat :=
  (s.pads.filter fun e => e.2.placed && e.2.shape.all.any fun i =>
    let x := e.2.shape.site e.2.place i
    x / 64 == die && x / 8 % 8 == row && decide (lo ≤ x % 8 ∧ x % 8 ≤ hi)).map (·.1)

/-- Paddocks that the first retirement of the queue affects. -/
def State.shifting (s : State) : List Nat :=
  match s.panel.retires with
  | r :: _ => if r.stage = .queued then [] else s.holders r.die r.row r.col 7
  | [] => []

/-- One request other than a pre-emption, carried out after cycle c. -/
def State.carryOne (s : State) (k c : Nat) (q : Pending) : State :=
  let p := s.padAt k
  let off := s.modPadAt k fun p => p.without q
  let ready := p.moving.isEmpty && p.drainFits c
  let relocate := if s.placeOk k p p.place then off else if ready then off.movePad k c q 0 else s
  if p.parked then s
  else
    match q.req with
    | .move t => if ready then off.movePad k c q t else s
    | .partition => relocate
    | .relocate => relocate
    | .stop =>
      let s := off.modPadAt k fun p =>
        { p with freeze := some .stop, dbg := { p.dbg with state := 2, zlow := c % 2 ^ 32, bp := 0 } }
      s.onPad k fun s => s.traceTile 6 0 c (fld 2 8)
    | .thermal => (off.settleWrites k).modPadAt k fun p => { p with freeze := some .thermal }
    | .retire =>
      if !s.shifting.contains k then off
      else if p.drainFits c then (off.settleWrites k).modPadAt k fun p => { p.drain c with freeze := some .retire }
      else s
    | _ => s

/-- Insertion in the order requests were taken, each beside the cycle of its taking. -/
def insertTaken (q : Nat × Pending) : List (Nat × Pending) → List (Nat × Pending)
  | [] => [q]
  | x :: xs => if q.1 < x.1 then q :: x :: xs else x :: insertTaken q xs

/-- Requests due at the pause point of cycle c are carried out after it: a pre-emption first, else all in the order taken. -/
def State.carryOut (s : State) (k c : Nat) : State :=
  let p := s.padAt k
  let due := ((takenBy Req.spreads c p.pending).foldl (fun l q => insertTaken q l) []).map (·.2)
  if p.state ≠ .running then s
  else if due.any (fun q => s.preempts k q.req) && p.moving.isEmpty && p.drainFits c then s.preemptPad k c
  else due.foldl (fun s q => s.carryOne k c q) s

/-- The paddock of key k goes on from a freeze at its pause point: what is due there, then the release (R443). -/
def State.goOn (s : State) (k : Nat) : State :=
  let s := s.modPadAt k fun p => p.wake (s.wave p)
  let c := (s.padAt k).rtick - 1
  ((s.pageReqs k c).carryOut k c).settle k

-- The pause point (R44 to R46, R430, R431)

/-- A deferred TIMER of a strict stint is due at the pause point of cycle c (R430); at a tile that has halted it is raised as a
paddock-wide fault (R418). -/
def Core.timerDue (k : Core) (ctl : Regs) (c : Nat) : Bool :=
  bit (Regs.rd ctl kTimer) 63 && k.tie && !k.priv && decide (k.pendAt + 1024 ≤ c)

/-- PPT: the end of cycle c was a valid pause point naming class cls, at the paddock of key k. -/
def State.pausePoint (s : State) (k c cls : Nat) : State :=
  let wasStrict := (s.padAt k).strict
  let s := s.onPad k fun s => s.latchMail c
  let s := s.modPadAt k fun p =>
    { p with stint := (p.stint + 1) % 2 ^ 64, cls := cls, strict := p.shape.strict.getD cls true,
             pending := p.pending.map fun (q : Pending) => q.reached c }.measure
  let s := s.onPad k fun s => s.eachTile fun s =>
    s.traceTile 5 0 c (fld (s.pad.stint % 2 ^ 48) 0 ||| fld cls 48)
  let s := s.pageReqs k c
  let p := s.padAt k
  let served := p.tiles.filter fun e => wasStrict && e.2.core.timerDue e.2.ctl c
  if served.isEmpty then (s.carryOut k c).settle k
  else
    let s := (s.settleWrites k).modPadAt k fun p => { p with freeze := some .service }
    s.onPad k fun s => served.foldl (fun s e => s.atTile e.1 fun s => s.serve .timer (w64 e.2.core.pendAt)) s

/-- Service ends when no tile of the paddock is in service any more (R431). -/
def Paddock.served (p : Paddock) : Bool := p.freeze == some .service && !p.tiles.any fun e => e.2.core.svc

end Sys2Proof.Machine
end

