-- ==== Sys2Proof/Machine/Commands.lean ====
section
/-!
DEFINITION. Machine/Commands.lean: the commands of the Shepherd, each with its checks in the order of R477 and its effect
(R52, R59, R61 to R63, R65 to R67, R71 to R73, R456 to R461, R477, R478).
-/
namespace Sys2Proof.Machine

-- Checks and their order (R66, R477)

/-- The first failed check of a list gives the status. -/
def firstFail : List (Bool × Nat) → Option Nat
  | [] => none
  | (bad, st) :: rest => if bad then some st else firstFail rest

end Sys2Proof.Machine

namespace Sys2Proof
open Sys2Proof.Machine

def Command.key (c : Command) : Nat := padKey c.fn c.handle.toNat

end Sys2Proof

namespace Sys2Proof.Machine

/-- 10 s and 30 s in dticks of the Shepherd die at the nominal clock. -/
def secs (n : Nat) : Nat := n * 1600000000

/-- A paddock of a world whose heartbeat timed out or whose session is void (R66): sealed at its next pause point, or at
once where it does not run. -/
def State.sealWorld (s : State) (fn : Nat) : State :=
  (s.liveHandles fn).foldl (fun s k =>
    match (s.padAt k).state with
    | .running => s.request k .seal none (some 3)
    | .empty => s.modPadAt k fun p => { p with state := .held, heldFrom := .empty }
    | .loaded => s.modPadAt k fun p => { p with state := .held, heldFrom := .loaded }
    | .preempted => s.modPadAt k fun p => { p with state := .held, heldFrom := .preempted }
    | _ => s) (s.modFn fn fun f => { f with hold := some (s.dtick + secs 30) })

/-- The session of a function is void (R62). -/
def State.voidSession (s : State) (fn : Nat) : State :=
  ((s.modFn fn fun f => { f with void := true, halt := 3 }).event fn evVoid noHandle 0 0).sealWorld fn

/-- A command is carried out: EXPIRED during a hold that does not accept it, the first failed check, or its effect; after
the last sequence number the session is void, be it one that the command has just renewed (log entry 62). -/
def State.carry (s : State) (op : Nat) (c : Command) (inHold : Bool) (checks : List (Bool × Nat)) (eff : State → State) :
    State :=
  let f := s.fn c.fn
  let s := if f.hold.isSome && !inHold then s.done op c stExpired 0 0
    else
      match firstFail checks with
      | some st => s.done op c st 0 0
      | none => eff s
  if f.session.isSome && !f.void && c.seq.toNat + 1 == 2 ^ 64 then s.voidSession c.fn else s

def State.command (s : State) (op : Nat) (c : Command) (inHold : Bool) (checks : List (Bool × Nat)) (eff : State → State) :
    Out := .next (s.carry op c inHold checks eff)

/-- Checks 1 to 3 of most rows: no flags, and operands that the row does not define are zero. -/
def plain (c : Command) (extra : List W64) : List (Bool × Nat) :=
  [(c.flags != 0, stBadOpcode), (extra.any (· != 0), stBadArg)]

/-- Checks 4 and 5: the handle, and the paddock's legal states. -/
def State.named (s : State) (k : Nat) (legal : List PState) : List (Bool × Nat) :=
  [((FMap.get? s.pads k).isNone, stBadHandle), (!legal.contains (s.padAt k).state, stBadState)]

-- CREATE (R478)

/-- The next handle of a function: ascending after the last one given, numbers in use skipped. -/
def State.nextHandle (s : State) (fn : Nat) : Nat :=
  let start := match (s.fn fn).lastHandle with
    | some h => h + 1
    | none => 0
  let live := s.liveHandles fn
  (((List.range 257).map fun i => (start + i) % 65535).find? fun h => !live.contains (padKey fn h)).getD 0

def execCreate (c : Command) (s : State) : Out :=
  s.command 0x01 c false
    (plain c [c.arg0, c.arg1, c.arg2, c.arg3] ++ [(decide (256 ≤ (s.liveHandles c.fn).length), stBusy)]) fun s =>
      let h := s.nextHandle c.fn
      let s := { s with pads := FMap.put s.pads (padKey c.fn h) { Paddock.init with fn := c.fn, handle := h } }
      let s := s.modFn c.fn fun f => { f with lastHandle := some h, worldKey := some (f.worldKey.getD s.free) }
      { s with free := s.free + 1 }.done 0x01 { c with handle := BitVec.ofNat 16 h } stOk (w64 h) 0

-- LOAD_IMAGE (R52)

/-- The image is checked and stored; a rejected one changes nothing. -/
def State.loadImage (s : State) (c : Command) : State :=
  let a := c.arg0.toNat
  let n := c.arg1.toNat
  if n < 64 then s.done 0x02 c stImgFormat 0 0
  else if !hostOk c.fn a n then s.done 0x02 c stBadArg 0 0
  else
    let m := imageOf (s.hostRead c.fn a n)
    let st := m.status c.fn (capsReg s.panel.retire2)
    if st ≠ 0 then s.done 0x02 c st 0 0
    else
      (s.modPadAt c.key fun p =>
        { p with state := .loaded, image := m.file, shape := m.shape, tiles := m.tilesOf, folds := m.foldsOf,
                 cls := 0, strict := m.strict.getD 0 true }.measure).done 0x02 c stOk 0 0

def execLoadImage (c : Command) (s : State) : Out :=
  s.command 0x02 c false (plain c [c.arg2, c.arg3] ++ s.named c.key [.empty]) fun s => s.loadImage c

-- START and RESUME (R42, R80, R91, R437, R438)

/-- START: placed, its channels owned, its HBM pages present, and on its way to rtick 0. -/
def State.startPad (s : State) (c : Command) : State :=
  let k := c.key
  let p := s.padAt k
  match s.choosePlace k p with
  | none => s.done 0x03 c stNoPlace 0 0
  | some word =>
    match s.channelsFor p word with
    | none => s.done 0x03 c stNoPlace 0 0
    | some chans =>
      if !s.saveSpaceOk p chans.length then s.done 0x03 c stNoPlace 0 0
      else
        let s := { s with free := s.free + 1 }.standAt k word chans
        let s := s.modPadAt k fun p =>
          { p with state := .running, hbm := { Store.empty with bytes := (imageOf p.image).hbmOf } }
        let s := s.release k
        { s with panel := { s.panel with awaits := s.panel.awaits ++ [{ op := 0x03, cmd := c, pads := [k], res := word }] } }

def execStart (c : Command) (s : State) : Out :=
  s.command 0x03 c false
    (plain c [c.arg0, c.arg1, c.arg2, c.arg3] ++ s.named c.key [.loaded] ++
      [((s.fn c.fn).nextBudget == 0, stNoBudget)]) fun s => s.startPad c

/-- How a resumption ends: no placement, a save line that fails its check, or the paddock on tiles again. -/
inductive Resumed where
  | noPlace | badLine
  | ok (s : State) (word : W64)

/-- The paddock of key k stands on tiles again and goes on after its pause point (R438); its skew estimates are formed at once (log entry
77). -/
def State.resumePad (s : State) (k : Nat) : Resumed :=
  let p := s.padAt k
  match s.choosePlace k p with
  | none => .noPlace
  | some word =>
    if !p.badSave.isEmpty then .badLine else
    let s := { s with free := s.free + 1 }.standAt k word ((s.channelsFor p word).getD p.chans)
    let s := s.modPadAt k fun p =>
      { (p.mapTiles fun _ => Tile.unpark).wake (s.wave p) with state := .running, sliced := false, owed := p.shape.all }.beat s.dtick
    .ok (s.settle k) word

/-- The paddock of key k is destroyed for a save line that failed its check (R69, R438). -/
def State.failRestore (s : State) (k : Nat) : State := s.destroyFor k (Cause.code .dataPoison)

def execResume (c : Command) (s : State) : Out :=
  s.command 0x06 c false (plain c [c.arg0, c.arg1, c.arg2, c.arg3] ++ s.named c.key [.preempted]) fun s =>
    match s.resumePad c.key with
    | .noPlace => s.done 0x06 c stNoPlace 0 0
    | .badLine => (s.done 0x06 c stAuth 0 0).failRestore c.key
    | .ok s word => s.done 0x06 c stOk word 0

-- MBWRITE (R158, R159)

/-- A host write reaches a tile's mailbox: latched in a strict stint, on its way in a loose one, else into the saved copy. -/
def Paddock.mailTo (p : Paddock) (n : Nat) (v : W64) (t : Tile) : Tile :=
  if p.state ≠ .running then { t with mbox := FMap.put t.mbox n v }
  else if p.strict then { t with mboxLatch := t.mboxLatch ++ [(n, v)] }
  else { t with mboxIn := t.mboxIn ++ [(n, v)] }

def execMbwrite (c : Command) (s : State) : Out :=
  let i := c.arg0.toNat
  let n := bits c.arg1 3 0
  s.command 0x04 c false
    ([(c.flags != 0, stBadOpcode), (c.arg3 != 0 || bits c.arg1 63 4 != 0 || decide (2 ^ 32 ≤ i), stBadArg)] ++
      s.named c.key [.loaded, .running, .preempted] ++
      [(i != 0xFFFFFFFF && decide ((s.padAt c.key).shape.tiles ≤ i), stBadArg)]) fun s =>
    (s.modPadAt c.key fun p =>
      p.mapTiles fun j t => if i = 0xFFFFFFFF ∨ i = j then p.mailTo n c.arg2 t else t).done 0x04 c stOk 0 0

-- PREEMPT and MOVE (R71, R434)

def execPreempt (c : Command) (s : State) : Out :=
  s.command 0x05 c false (plain c [c.arg0, c.arg1, c.arg2, c.arg3] ++ s.named c.key [.running]) fun s =>
    s.request c.key .preempt (some c) none

def execMove (c : Command) (s : State) : Out :=
  s.command 0x07 c false (plain c [c.arg1, c.arg2, c.arg3] ++ s.named c.key [.running]) fun s =>
    s.request c.key (.move c.arg0) (some c) none

-- Page commands (R72, R458, R461)

/-- A page command of RUNNING waits for a pause point; else it takes effect at once. -/
def State.pageCommand (s : State) (c : Command) (r : Req) : State :=
  if (s.padAt c.key).state = .running then s.request c.key r (some c) none
  else s.pageReq c.key { req := r, due := 0, cmd := some c, deadline := none }

/-- The HBM range of PAGE_RELEASE and PAGE_ACCEPT is legal, and its pages all stand as wanted. -/
def Paddock.hbmRangeBad (p : Paddock) (a n : W64) (present : Bool) : Bool :=
  decide (a.toNat % 2097152 ≠ 0 ∨ a.toNat < 0x100000000000 ∨ 0x200000000000 ≤ a.toNat ∨ n = 0) ||
    decide (p.shape.chan * 625 < hbmPage a + n.toNat) ||
    (hbmPages a n.toNat).any fun g => bit (p.preview.hbmEntry g) 63 != present

def execPageRelease (c : Command) (s : State) : Out :=
  s.command 0x08 c false
    (plain c [c.arg2, c.arg3] ++ s.named c.key [.running, .preempted] ++
      [((s.padAt c.key).hbmRangeBad c.arg0 c.arg1 true, stDenied)]) fun s =>
    s.pageCommand c (.release c.arg0 c.arg1.toNat)

def execPageAccept (c : Command) (s : State) : Out :=
  s.command 0x09 c false
    (plain c [c.arg2, c.arg3] ++ s.named c.key [.running, .preempted] ++
      [((s.padAt c.key).hbmRangeBad c.arg0 c.arg1 false, stDenied)]) fun s =>
    s.pageCommand c (.accept c.arg0 c.arg1.toNat)

/-- A range of HOST addresses is legal (R72). -/
def hostRangeBad (a n : W64) : Bool :=
  decide (a.toNat % 2097152 ≠ 0 ∨ a.toNat < 0x300000000000 ∨ n = 0 ∨ 0x400000000000 < a.toNat + n.toNat * 2097152)

def Paddock.hostStands (p : Paddock) (a n : W64) (present : Bool) : Bool :=
  (hostPagesAt a n.toNat).all fun g => bit (p.preview.hostEntry g) 63 == present

def execHostMap (c : Command) (s : State) : Out :=
  s.command 0x13 c false
    ([(c.flags != 0, stBadOpcode),
      (hostRangeBad c.arg0 c.arg2 || decide (c.arg1.toNat % 2097152 ≠ 0) || c.arg3 == 0 || bits c.arg3 63 2 != 0, stBadArg)] ++
      s.named c.key [.loaded, .running, .preempted] ++
      [(!(s.padAt c.key).hostStands c.arg0 c.arg2 false, stDenied)]) fun s =>
    s.pageCommand c (.hostMap c.arg0 c.arg1 c.arg2.toNat (bits c.arg3 1 0))

def execHostUnmap (c : Command) (s : State) : Out :=
  s.command 0x14 c false
    ([(c.flags != 0, stBadOpcode), (hostRangeBad c.arg0 c.arg2 || c.arg1 != 0 || c.arg3 != 0, stBadArg)] ++
      s.named c.key [.loaded, .running, .preempted] ++
      [(!(s.padAt c.key).hostStands c.arg0 c.arg2 true, stDenied)]) fun s =>
    s.pageCommand c (.hostUnmap c.arg0 c.arg2.toNat)

-- READ (R456, Table 19-1)

/-- A word of a store as READ copies it: none when poisoned. -/
def Store.saved (st : Store) (a : Nat) : Option W64 := if (st.poisoned a 8).isSome then none else some (st.word a)

/-- A word of the state window of the current tile. -/
def State.windowWord (s : State) (o : Nat) : Option W64 :=
  let t := s.tile
  if o < 0x800 then some ((FMap.get? t.savedCtl (o / 8)).getD (s.krdValue (o / 8)))
  else if o < 0xA00 then some (Regs.rd t.core.regs ((o - 0x800) / 8))
  else if o < 0x1200 then some ((t.sync.sem ((o - 0xA00) / 8)).setWidth 64)
  else if o < 0x1280 then some (Regs.rd t.mbox ((o - 0x1200) / 8))
  else if 0x2000 ≤ o ∧ o < 0x2200 then some (Regs.rd t.st.binds ((o - 0x2000) / 8))
  else if 0x8000 ≤ o then t.st.cstore.saved (o - 0x8000)
  else some 0

/-- The word READ finds at an address of the map of tile (0,0): none outside its reach, some none for a poisoned word or one in a
save line that fails its check: a tile's lines are its pool's, its window's and its table memory's, one after another (log entry 38). -/
def State.savedWord (s : State) (k a : Nat) : Option (Option W64) :=
  let p := s.padAt k
  let held := fun (i line : Nat) (w : Option W64) => if p.badSave.contains (i, line) then none else w
  let pool := fun (i off : Nat) => held i (off / 64) ((FMap.getD p.tiles i Tile.init).st.pool.saved off)
  if 0x7F1000000000 ≤ a ∧ a < 0x7F1000000000 + p.shape.tiles * 65536 then
    let o := a - 0x7F1000000000
    some (held (o / 65536) (32768 + o % 65536 / 64) ({ s with cur := { pad := k, tile := o / 65536 } }.windowWord (o % 65536)))
  else
    match p.shape.target 0 a with
    | .own off => some (pool 0 off)
    | .tile i off => some (pool i off)
    | .table off => some (held 0 (33792 + off / 64) ((FMap.getD p.tiles 0 Tile.init).st.tmem.saved off))
    | .hbm g off => if bit (p.hbmEntry g) 63 && bit (p.hbmEntry g) 48 then some (p.hbm.saved (g * 2097152 + off)) else none
    | _ => none

/-- READ: the words of a range go to the host as far as the adapter reaches; poisoned ones as zero, counted. -/
def State.readOut (s : State) (c : Command) : State :=
  let a := c.arg0.toNat
  let n := c.arg2.toNat
  let ws := (List.range (n / 8)).map fun i => s.savedWord c.key (a + 8 * i)
  if a % 8 ≠ 0 ∨ n % 8 ≠ 0 ∨ ws.any (·.isNone) then s.done 0x0A c stDenied 0 0
  else
    let vs := ws.map fun w => w.join
    let reach := hostReach c.fn c.arg1.toNat n
    let s := s.hostWrite c.fn c.arg1.toNat ((vs.flatMap fun v => natLE 8 (v.getD 0).toNat).take reach)
    if reach < n then s.done 0x0A c stBadArg 0 0
    else
      let first := match vs.findIdx? (·.isNone) with
        | some i => w64 (8 * i)
        | none => allBits
      s.done 0x0A c stOk (w64 (vs.filter (·.isNone)).length) first

def execRead (c : Command) (s : State) : Out :=
  s.command 0x0A c false (plain c [c.arg3] ++ s.named c.key [.halted, .preempted]) fun s => s.readOut c

-- DESTROY (R457)

end Sys2Proof.Machine

namespace Sys2Proof
open Sys2Proof.Machine

/-- The paddock a DESTROY names: the PF may name one of another function. -/
def Command.victim (c : Command) : Nat := if c.fn = 0 then padKey (bits c.arg0 7 0) c.handle.toNat else c.key

end Sys2Proof

namespace Sys2Proof.Machine

def execDestroy (c : Command) (s : State) : Out :=
  s.command 0x0B c false
    ([(c.flags != 0, stBadOpcode),
      (c.arg1 != 0 || c.arg2 != 0 || c.arg3 != 0 || decide ((if c.fn = 0 then 192 else 0) < c.arg0.toNat), stBadArg)] ++
      s.named c.victim [.empty, .loaded, .running, .preempted, .halted, .held]) fun s =>
    (s.destroyPad c.victim).done 0x0B c stOk 0 0

-- ATTEST (R65, Table 3-8)

/-- Code of a paddock state (Table 3-10). -/
def PState.code : PState → Nat
  | .empty => 1 | .loaded => 2 | .running => 3 | .preempted => 4 | .halted => 5 | .held => 6 | .destroyed => 7

/-- Bytes 0 to 239 of a report. -/
def State.report (s : State) (c : Command) (nonce : List Byte) : List Byte :=
  let device := c.handle.toNat == noHandle
  let p := s.padAt c.key
  let state := if device then 0 else p.state.code
  let head := natLE 8 (0x52545441 + 2 ^ 32) ++ natLE 8 (c.fn + c.fn * 2 ^ 16 + c.handle.toNat * 2 ^ 24 + state * 2 ^ 40)
  let fit := fun (n : Nat) (l : List Byte) => (l ++ List.replicate n 0).take n
  head ++ nonce ++ (List.range 48).map Config.identityByte ++
    (if device then List.replicate 144 0
     else fit 48 (Config.sha384 p.image) ++ fit 48 p.measStore ++ fit 48 p.measTable)

def State.attest (s : State) (c : Command) : State :=
  let a := c.arg0.toNat
  if !hostOk c.fn a 336 then s.done 0x0C c stBadArg 0 0
  else
    let r := s.report c (s.hostRead c.fn a 32)
    let sig := (Config.sign (Config.sha384 r) ++ List.replicate 96 0).take 96
    (s.hostWrite c.fn a (r ++ sig)).done 0x0C c stOk 0 0

def execAttest (c : Command) (s : State) : Out :=
  s.command 0x0C c true
    (plain c [c.arg1, c.arg2, c.arg3] ++
      [(c.handle.toNat != noHandle && (FMap.get? s.pads c.key).isNone, stBadHandle)]) fun s => s.attest c

-- Sessions (R61 to R63, R66)

/-- The prime and the constant of P-384. -/
def p384 : Nat := 2 ^ 384 - 2 ^ 128 - 2 ^ 96 + 2 ^ 32 - 1
def b384 : Nat := 0xb3312fa7e23ee7e4988e056be3f82d19181d9c6efe8141120314088f5013875ac656398d8a2ed19d2a85c8edd3ec2aef

/-- A big-endian run of bytes as a number. -/
def beNat (bs : List Byte) : Nat := leNat bs.reverse

/-- An uncompressed point: its mark, coordinates below the prime, on the curve (R61). -/
def pointOk (bs : List Byte) : Bool :=
  let x := beNat ((bs.drop 1).take 48)
  let y := beNat ((bs.drop 49).take 48)
  bs.head? == some 0x04 && decide (x < p384 ∧ y < p384) && y * y % p384 == (x * x * x + 3 * (p384 - x) + b384) % p384

/-- The info string of a session key: OVP-SESSION and the function number, in four bytes, the lowest first (R61, log entry 62). -/
def sessionInfo (fn : Nat) : List Byte :=
  [0x4F, 0x56, 0x50, 0x2D, 0x53, 0x45, 0x53, 0x53, 0x49, 0x4F, 0x4E] ++ natLE 4 fn

/-- A renewed session gives held paddocks back; one that still runs to its seal goes on (R66, log entry 62). -/
def State.unhold (s : State) (fn : Nat) : State :=
  (s.liveHandles fn).foldl (fun s k =>
    s.modPadAt k fun p => if p.state = .held then { p with state := p.heldFrom } else
      { p with pending := p.pending.filter (·.req != .seal) }) s

/-- A session is opened or renewed. -/
def State.openSession (s : State) (c : Command) : State :=
  let a := c.arg0.toNat
  let renew := c.flags.getLsbD 0
  let point := s.hostRead c.fn a 97
  if !hostOk c.fn a 97 || !hostOk c.fn (a + 128) 193 || !pointOk point then s.done 0x0D c stBadArg 0 0
  else
    let n := s.free
    let fit := fun (n : Nat) (l : List Byte) => (l ++ List.replicate n 0).take n
    let mine := fit 97 (Config.ecdhPublic n)
    let key := fit 32 (Config.hkdf (Config.ecdhSecret n point) (sessionInfo c.fn))
    let s := { s with free := n + 1 }.hostWrite c.fn (a + 128) (mine ++ fit 96 (Config.sign mine))
    let s := s.modFn c.fn fun f =>
      { f with session := some { key := key, expected := 1, top := 0, heard := s.dtick }, void := false, hold := none,
               halt := if f.halt = 3 then 0 else f.halt }
    (if renew then s.unhold c.fn else s).done 0x0D c stOk 0 0

def execSessionOpen (c : Command) (s : State) : Out :=
  let renew := c.flags.getLsbD 0
  s.command 0x0D c renew
    [(bits (c.flags.setWidth 64) 7 1 != 0, stBadOpcode), (c.fn == 0, stDenied),
     (c.arg1 != 0 || c.arg2 != 0 || c.arg3 != 0, stBadArg),
     (renew && (s.fn c.fn).session.isNone, stAuth), (!renew && !(s.liveHandles c.fn).isEmpty, stBadState)] fun s =>
    s.openSession c

/-- The heartbeat of a session is 10 s old. -/
def Session.late (x : Session) (now : Nat) : Bool := decide (x.heard + secs 10 ≤ now)

def execHeartbeat (c : Command) (s : State) : Out :=
  s.command 0x0E c false
    (plain c [c.arg0, c.arg1, c.arg2, c.arg3] ++
      [((match (s.fn c.fn).session with
         | some x => x.late s.dtick
         | none => false), stExpired)]) fun s =>
    (s.modFn c.fn fun f => { f with session := f.session.map fun x => { x with heard := s.dtick } }).done 0x0E c stOk 0 0

def execResync (c : Command) (s : State) : Out :=
  s.command 0x0F c false
    (plain c [c.arg1, c.arg2, c.arg3] ++ [((s.fn c.fn).halt != 1 || (s.fn c.fn).session.isNone, stBadState)]) fun s =>
    match (s.fn c.fn).session with
    | none => s
    | some x =>
      if c.arg0.toNat ≤ x.top then s
      else
        (s.modFn c.fn fun f =>
          { f with session := some { x with expected := c.arg0.toNat + 1 }, halt := 0, recheck := false }).done 0x0F c stOk 0 0

-- The PF's commands (R56, R67, R73)

def execSetBudget (c : Command) (s : State) : Out :=
  let n := c.arg0.toNat
  let others := (s.fns.filter (·.1 != n)).foldl (fun t e => t + e.2.nextBudget) 0
  s.command 0x10 c false
    [(c.flags != 0, stBadOpcode), (c.fn != 0, stDenied), (c.arg2 != 0 || c.arg3 != 0 || decide (192 < n), stBadArg),
     (decide (2048000000000 < others + c.arg1.toNat), stDenied)] fun s =>
    (s.modFn n fun f => { f with nextBudget := c.arg1.toNat }).done 0x10 c stOk 0 0

def execQconf (c : Command) (s : State) : Out :=
  let n := c.arg0.toNat
  s.command 0x11 c false
    [(c.flags != 0, stBadOpcode), (c.fn != 0, stDenied),
     (c.arg2 != 0 || c.arg3 != 0 || decide (192 < n) || bits c.arg1 63 3 != 0, stBadArg)] fun s =>
    (s.modFn n fun f => { f with level := bits c.arg1 1 0, pinned := bit c.arg1 2 }).done 0x11 c stOk 0 0

/-- A die that one of the paddock's tiles stands on is frozen for heat. -/
def State.overHot (s : State) (p : Paddock) : Bool := (p.shape.dies p.place).any fun d => (s.panel.die d).hot

/-- The channels of an M-die are cleared (R73, R237). -/
def State.clearMdie (s : State) (m : Nat) : State :=
  { s with pads := s.pads.map fun e =>
      let gone := (e.2.chans.zipIdx.filter fun x =>
        match x.1 with
        | some c => c / 32 == m
        | none => false).map (·.2)
      (e.1, { e.2 with hbm := (gone.flatMap e.2.pagesAt).foldl Store.clearPage e.2.hbm }) }

/-- A die returns to service, and paddocks frozen for its heat alone go on. -/
def State.resumeDie (s : State) (c : Command) (key : Nat) : State :=
  let d := s.panel.die key
  let d' : Die := { d with hot := false, stopped := false }
  let s := { s with panel := { s.panel with dies := FMap.put s.panel.dies key d' } }
  let s := if d.stopped && decide (200 ≤ key) then s.clearMdie (key - 200) else s
  let free := s.pads.filter fun e => e.2.placed && !s.overHot e.2
  let s := free.foldl (fun s e => s.modPadAt e.1 fun p => { p with pending := p.pending.filter (·.req != .thermal) }) s
  let ks := (free.filter fun e => e.2.freeze == some .thermal).map (·.1)
  let s := ks.foldl State.goOn s
  let a : Await := { op := 0x12, cmd := c, pads := ks, res := 0 }
  let s := { s with panel := { s.panel with awaits := s.panel.awaits ++ [a] } }
  s.endAwaits

def execDieResume (c : Command) (s : State) : Out :=
  let x := bits c.arg0 7 0
  let y := bits c.arg0 15 8
  let d := s.panel.die (siteKey x y)
  s.command 0x12 c false
    [(c.flags != 0, stBadOpcode), (c.fn != 0, stDenied),
     (c.arg1 != 0 || c.arg2 != 0 || c.arg3 != 0 || bits c.arg0 63 16 != 0 || decide (20 ≤ x ∨ 20 ≤ y) ||
        c.handle.toNat != noHandle, stBadArg),
     (!(d.hot || d.stopped) || decide (95 ≤ d.temp), stBadState)] fun s =>
    s.resumeDie c (siteKey x y)

end Sys2Proof.Machine
end

