-- ==== Sys2Proof/Machine/Shepherd.lean ====
section
/-!
DEFINITION. Machine/Shepherd.lean: the Shepherd's own turns: taking commands, heartbeats and holds, budgets and slices,
watchdogs, reclaims, and the takeover by the standby (R20, R55, R56, R59, R62, R63, R66 to R69, R427, R459, R460, R471).
-/
namespace Sys2Proof.Machine

-- Taking a command (R55, R58, R62, R63, R450)

/-- The eight words of the entry at HEAD. -/
def State.headEntry (s : State) (fn : Nat) : List W64 :=
  let f := s.fn fn
  let bs := s.hostRead fn (f.cbase.toNat + 64 * (f.head % f.ringSize)) 64
  (List.range 8).map fun i => w64 (leNat ((bs.drop (8 * i)).take 8))

/-- A command from its entry (Table 3-4). -/
def commandOf (fn index : Nat) (ws : List W64) : Command :=
  let w := fun (i : Nat) => ws.getD i 0
  { fn := fn, index := BitVec.ofNat 32 index, cookie := BitVec.ofNat 32 (bits (w 0) 63 32),
    handle := BitVec.ofNat 16 (bits (w 0) 31 16), flags := BitVec.ofNat 8 (bits (w 0) 15 8), arg0 := w 1, arg1 := w 2,
    arg2 := w 3, arg3 := w 4, seq := w 5, atag := BitVec.ofNat 128 ((w 6).toNat + (w 7).toNat * 2 ^ 64) }

/-- The command of an opcode (Table 3-6). -/
def commandInstr (op : Nat) (c : Command) : Option Instr :=
  match op with
  | 0x01 => some (.create c) | 0x02 => some (.loadImage c) | 0x03 => some (.start c) | 0x04 => some (.mbwrite c)
  | 0x05 => some (.preempt c) | 0x06 => some (.resume c) | 0x07 => some (.move c) | 0x08 => some (.pageRelease c)
  | 0x09 => some (.pageAccept c) | 0x0A => some (.read c) | 0x0B => some (.destroy c) | 0x0C => some (.attest c)
  | 0x0D => some (.sessionOpen c) | 0x0E => some (.heartbeat c) | 0x0F => some (.resync c) | 0x10 => some (.setBudget c)
  | 0x11 => some (.qconf c) | 0x12 => some (.dieResume c) | 0x13 => some (.hostMap c) | 0x14 => some (.hostUnmap c)
  | _ => none

/-- The tag of an entry under a session's key (R62). -/
def tagOk (x : Session) (c : Command) (ws : List W64) : Bool :=
  Config.gcmTag x.key (c.fn * 2 ^ 64 + c.seq.toNat) ((ws.take 6).flatMap fun w => natLE 8 w.toNat) == c.atag

def State.pastHead (s : State) (fn : Nat) : State := s.modFn fn fun f => { f with head := (f.head + 1) % 2 ^ 32 }

/-- A command is taken: HEAD moves on, its CMD record is written, and it comes next; an unlisted opcode completes. -/
def State.take (s : State) (op : Nat) (c : Command) : State :=
  let s := (s.pastHead c.fn).traceShep c.fn 9 (fld c.handle.toNat 40 ||| fld op 32 ||| fld c.index.toNat 0)
  match commandInstr op c with
  | some i => { s with agenda := .run s.cur i :: s.agenda }
  | none => s.carry op c false [(true, stBadOpcode)] id

/-- A sequence number is accepted: the number expected moves on before the command runs, whatever it ends with (R61, R62, log entry
62). -/
def State.accept (s : State) (fn : Nat) (x : Session) (n : Nat) : State :=
  s.modFn fn fun f => { f with session := some { x with expected := n + 1, top := Nat.max x.top n } }

/-- The Shepherd looks at the entry at HEAD of a function's ring. A RESYNC with a good ARG0 is taken from a halted ring, and one that a
later check refuses leaves the ring halted with the next entry to be looked at (R63, log entry 62). -/
def State.takeCommand (s : State) (fn : Nat) : State :=
  let f := s.fn fn
  let ws := s.headEntry fn
  let op := bits (ws.getD 0 0) 7 0
  let c := commandOf fn f.head ws
  match f.session with
  | none => s.take op c
  | some x =>
    if f.halt = 1 then
      if tagOk x c ws && op == 0x0F && decide (x.top < c.arg0.toNat) then s.take op c
      else s.modFn fn fun f => { f with recheck := false }
    else if !tagOk x c ws then (s.modFn fn fun f => { f with authcnt := f.authcnt + 1 }).pastHead fn
    else if f.void then s.take op c
    else if c.seq.toNat < x.expected then (s.modFn fn fun f => { f with replaycnt := f.replaycnt + 1 }).pastHead fn
    else if x.expected < c.seq.toNat then
      (s.modFn fn fun f => { f with halt := 1, recheck := false }).event fn evSeqGap noHandle (w64 x.expected) 0
    else (s.accept fn x c.seq.toNat).take op c

/-- A mapped ring has a command the Shepherd may take. -/
def Func.ready (f : Func) : Bool :=
  f.mapped && f.enabled && f.head != f.tail && f.blocked.isEmpty && (f.halt == 0 || f.halt == 3 || (f.halt == 1 && f.recheck))

/-- The ring whose turn it is: the highest level, and round robin within it (R56). -/
def State.nextRing (s : State) : Option Nat :=
  let ready := (s.fns.filter (·.2.ready)).map (·.1)
  let top := ready.foldl (fun m n => Nat.max m (s.fn n).level) 0
  let mine := ready.filter fun n => (s.fn n).level == top
  let after := match FMap.get? s.panel.turns top with
    | some k => mine.find? fun n => decide (k < n)
    | none => none
  after.or mine.head?

/-- One turn of the Shepherd: rings are mapped, one command is taken, empty rings give up their slots. -/
def State.shepherdTurn (s : State) : State :=
  let s := s.mapRings.countPinned
  match s.nextRing with
  | some n => ({ s with panel := { s.panel with turns := FMap.put s.panel.turns (s.fn n).level n } }.takeCommand n).unmapRings
  | none => s.unmapRings

-- Heartbeats and holds (R66)

/-- The heartbeat of a function's session is late, and no hold runs yet. -/
def Func.hbLate (f : Func) (now : Nat) : Bool :=
  f.hold.isNone && !f.void &&
    (match f.session with
     | some x => x.late now
     | none => false)

def execHeartbeatTimeout (fn : Nat) (s : State) : Out :=
  .next (if (s.fn fn).hbLate s.dtick then (s.event fn evHbTimeout noHandle 0 0).sealWorld fn else s)

def Func.holdOver (f : Func) (now : Nat) : Bool :=
  match f.hold with
  | some t => decide (t ≤ now)
  | none => false

/-- HOLD_EXPIRY: every handle of the world is destroyed, and its key erased; the session ends, and RSTAT.HALT stays as it is (R66, log
entry 62). -/
def execHoldExpiry (fn : Nat) (s : State) : Out :=
  .next (if (s.fn fn).holdOver s.dtick then
    ((s.liveHandles fn).foldl (fun s k => s.destroyFor k 0x21) s).modFn fn fun f =>
      { f with hold := none, session := none, void := false, worldKey := none }
  else s)

-- Budgets (R67, R68)

/-- Dticks of a budget window. -/
def windowLen : Nat := 160000000

/-- What a function may use in this window. -/
def Func.avail (f : Func) : Nat := f.budget - f.debt

/-- The next window of one function: its debt, and the budget set since. -/
def Func.window (f : Func) : Func :=
  { f with debt := (f.debt - f.budget) + (f.used - f.avail), budget := f.nextBudget, used := 0, ended := false }

/-- Paddocks pre-empted at a slice end go on in a window that leaves their function something to use, one that was held meanwhile and
given back by a renewed session among them (R66, R68, log entry 77). -/
def State.resumeSliced (s : State) : State :=
  let ks := (s.pads.filter fun e => e.2.state == .preempted && e.2.sliced && decide (0 < (s.fn e.2.fn).avail)).map (·.1)
  ks.foldl (fun s k =>
    match s.resumePad k with
    | .ok s _ => s
    | .badLine => s.failRestore k
    | .noPlace => s) s

/-- BUDGET_WINDOW: the windows of all functions change. -/
def execBudgetWindow (s : State) : Out :=
  let fns := s.fns.map fun (e : Nat × Func) => (e.1, e.2.window)
  .next { s with fns := fns, panel := { s.panel with windowAt := s.dtick } }.resumeSliced

/-- Cycles that the paddock's pace die makes on a dtick (R67, R85). -/
def Paddock.paceTicks (p : Paddock) (q : Panel) (now : Nat) : Nat :=
  dieDtick q.slipped p.pace now - dieDtick q.slipped p.pace (now - 1)

/-- Tile-cycles a function uses on one dtick, counted by the pace die of each of its paddocks (R67). -/
def State.usage (s : State) (fn : Nat) : Nat :=
  (s.pads.filter fun e => e.2.fn == fn && e.2.state == .running).foldl
    (fun n e => n + e.2.shape.tiles * e.2.paceTicks s.panel s.dtick) 0

/-- Every function's use of one dtick. -/
def State.countUse (s : State) : State :=
  { s with fns := s.fns.map fun (e : Nat × Func) => (e.1, { e.2 with used := e.2.used + s.usage e.1 }) }

/-- RUNNING paddocks of a function that are not asked for their slice's end yet. -/
def State.unsliced (s : State) (fn : Nat) : List Nat :=
  (s.pads.filter fun e => e.2.fn == fn && e.2.state == .running && !e.2.asked .slice).map (·.1)

/-- The slice of a function is over. -/
def State.sliceOver (s : State) (fn : Nat) : Bool := decide ((s.fn fn).avail ≤ (s.fn fn).used) && !(s.unsliced fn).isEmpty

def execSliceEnd (fn : Nat) (s : State) : Out :=
  .next ((s.unsliced fn).foldl (fun s k => s.request k .slice none (some 1)) (s.modFn fn fun f => { f with ended := true }))

-- Watchdogs (R68, R69, R427, R467, R471)

/-- A seam of the placement runs through the router of M-die m: two of its dies face each other across it (R15). -/
def Paddock.seamThrough (p : Paddock) (m : Nat) : Bool :=
  let ds := (p.shape.dies p.place).filter fun d => (dieNeighbours d).contains m
  ds.any fun d => ds.any fun e => (fusedBetween d e).isSome

/-- A paddock touches a die: one of its tiles stands on it; one of its channels lies on it, those among them that a move still copies
from (R92); or words of a seam of it cross the die. -/
def Paddock.touches (p : Paddock) (key : Nat) : Bool :=
  if key < 200 then (p.shape.dies p.place).contains key
  else (p.chans.any fun c => match c with
    | some c => c / 32 == key - 200
    | none => false) ||
    (p.placed && ((p.oldChans.any fun c => c / 32 == key - 200) || p.seamThrough (key - 200)))

/-- The tile that records the WATCHDOG fault of a stopped die: the lowest one on a die out of service, else tile 0. -/
def State.lostTile (s : State) (p : Paddock) : Nat :=
  (p.shape.all.find? fun i => (s.panel.die (p.shape.die p.place i)).out).getD 0

/-- Tiles of a paddock on dies out of service stop at once (R29, R471). -/
def Paddock.stopTiles (p : Paddock) (q : Panel) : Paddock :=
  p.mapTiles fun i t =>
    if p.placed && (q.die (p.shape.die p.place i)).out then { t with core := { t.core with dead := true } } else t

/-- The WATCHDOG fault of reason 4 at the paddock of key k, whose tiles on the lost die stop at once. -/
def State.dieFault (s : State) (k : Nat) : State :=
  let t := s.lostTile (s.padAt k)
  let s := s.modPadAt k fun p => p.stopTiles s.panel
  s.onPad k fun s => s.atTile t fun s => s.takeFault (sFault .watchdog 4)

/-- The same at a paddock whose state is saved: recorded at tile 0, and the paddock is HALTED with a FAULT event, or will be when its
hold ends (R29, R427). -/
def State.savedFault (s : State) (k : Nat) : State :=
  let f := sFault .watchdog 4
  let s := s.modPadAt k fun p =>
    { p with state := if p.state = .held then .held else .halted, heldFrom := if p.state = .held then .halted else p.heldFrom,
             tiles := FMap.modify p.tiles 0 fun t => t.record f false true (bundleAddr t.core.pc) }
  let p := s.padAt k
  s.event p.fn evFault p.handle (fld f.cause.code 0) 0

/-- WATCHDOG: reason 4 faults the paddock, any other destroys it. -/
def execWatchdog (pad reason : Nat) (s : State) : Out :=
  .next (if (s.padAt pad).state ≠ .running then s
    else if reason = 4 then s.dieFault pad
    else s.destroyFor pad (0x12 + reason * 256))

/-- The deadline of a request that has passed without a pause point. -/
def Paddock.overdue (p : Paddock) : Option Nat :=
  if p.state ≠ .running then none
  else p.pending.findSome? fun q =>
    match q.deadline with
    | some (c, reason) => if c ≤ p.rtick then some reason else none
    | none => none

-- Reclaims (R459, R460)

/-- RECLAIM_REQ: a channel position of a paddock is asked back, within 10 s. -/
def execReclaimReq (pad pos : Nat) (s : State) : Out :=
  let p := s.padAt pad
  if (p.chans[pos]?).join.isNone || (FMap.get? p.reclaims pos).isSome then .next s
  else
    let s := s.modPadAt pad fun p => { p with reclaims := FMap.put p.reclaims pos (s.dtick + secs 10) }
    .next ((s.event p.fn evReclaim p.handle (w64 (p.pagesAt pos).length) (w64 pos)).vacate pad)

/-- Positions asked back whose 10 s are over and that still hold a present page. -/
def Paddock.unreclaimed (p : Paddock) (now : Nat) : List Nat :=
  (p.reclaims.filter fun e => decide (e.2 ≤ now) && !(p.pagesAt e.1).isEmpty).map (·.1)

/-- A waiting release, without a deadline yet, of pages of a position asked back whose 10 s are over: what a reclaim is complied with. -/
def Paddock.unlimited (p : Paddock) (now : Nat) (q : Pending) : Bool :=
  match q.req with
  | .release a n => q.deadline.isNone && (p.unreclaimed now).any fun pos => (p.pagesAt pos).any fun g => (hbmPages a n).contains g
  | _ => false

/-- A paddock whose overdue positions its waiting releases will free. -/
def Paddock.complies (p : Paddock) (now : Nat) : Bool :=
  p.state == .running && (p.unreclaimed now).all fun pos => (p.preview.pagesAt pos).isEmpty

/-- A forced reclaim is due: pages are left, and no releases that have their last cycle already cover them. -/
def Paddock.forced (p : Paddock) (now : Nat) : Bool :=
  !(p.unreclaimed now).isEmpty && (!p.complies now || p.pending.any (p.unlimited now))

/-- FORCED_RECLAIM: releases taken in time are given their last cycle; without them the paddock is destroyed. -/
def execForcedReclaim (pad : Nat) (s : State) : Out :=
  let p := s.padAt pad
  if (p.unreclaimed s.dtick).isEmpty then .next s
  else if p.complies s.dtick then
    .next (s.modPadAt pad fun p =>
      { p with pending := p.pending.map fun q =>
          if p.unlimited s.dtick q then { q with deadline := some (q.due + p.shape.pauseMax + 65536, 6) } else q })
  else .next (s.destroyFor pad 0x20)

-- The takeover (R20, R471)

/-- Dies fail: their tiles are lost to placement, and paddocks that touch them take WATCHDOG. -/
def State.loseDie (s : State) (key : Nat) (d : Die) : State :=
  let s := { s with panel := { s.panel with dies := FMap.put s.panel.dies key d } }
  let ks := (s.pads.filter fun e => e.2.placed && e.2.touches key).map (·.1)
  let saved := (s.pads.filter fun e => decide (200 ≤ key) && e.2.touches key &&
    (e.2.state == .preempted || (e.2.state == .held && e.2.heldFrom == .preempted))).map (·.1)
  saved.foldl State.savedFault (ks.foldl State.dieFault s)

/-- Commands taken whose completion entry is not written, each with its opcode. -/
def State.outstanding (s : State) : List (Nat × Command) :=
  (s.fns.flatMap fun e => e.2.undone.filter e.2.owes) ++ (s.pads.flatMap fun e =>
      (e.2.pending.filterMap fun q => q.cmd.map fun c => (q.req.op, c)) ++
        (match e.2.moveCmd with
         | some c => [(0x07, c)]
         | none => [])) ++
    s.panel.awaits.map fun a => (a.op, a.cmd)

/-- Insertion by function, and in one ring by the order of its entries before HEAD. -/
def State.insertOutstanding (s : State) (x : Nat × Command) : List (Nat × Command) → List (Nat × Command)
  | [] => [x]
  | y :: ys =>
    let age := fun (c : Command) => diff32 (s.fn c.fn).head c.index.toNat
    if x.2.fn < y.2.fn ∨ (x.2.fn = y.2.fn ∧ age y.2 < age x.2) then x :: y :: ys else y :: State.insertOutstanding s x ys

/-- The entries that wait for commands to be executed again are dropped; events stay. -/
def Func.dropOwed (f : Func) : Func :=
  let keep := fun (ws : List W64) =>
    match ws with
    | a :: _ => bits a 7 0 == 0xF0
    | [] => true
  { f with held := f.held.filter keep, blocked := f.blocked.filter keep, undone := [] }

/-- What an outstanding command has begun is taken back: a START's placement; a DIE_RESUME, whose paddocks are frozen again where
their release wave is not over. -/
def State.takeBack (s : State) (a : Await) : State :=
  if a.op = 0x03 then
    a.pads.foldl (fun s k =>
      { s with panel := s.panel.disown k }.modPadAt k fun p =>
        { p with state := .loaded, freeze := none, place := 0, chans := [], moving := [], nextSwitch := none, oldChans := [] }) s
  else if a.op = 0x12 then
    let key := siteKey (bits a.cmd.arg0 7 0) (bits a.cmd.arg0 15 8)
    let s := { s with panel := { s.panel with dies := FMap.put s.panel.dies key { s.panel.die key with hot := true } } }
    a.pads.foldl (fun s k => s.modPadAt k fun p =>
      match p.freeze with
      | some (.release _) => { p with freeze := some .thermal }
      | _ => p) s
  else s

/-- Every command taken whose completion entry is not written is executed again from its start, in ring order; what one that has
not completed had begun is taken back first (R20, log entry 40). -/
def State.rerun (s : State) : State :=
  let jobs := (s.outstanding.foldl (fun l x => s.insertOutstanding x l) []).filterMap fun x =>
    (commandInstr x.1 x.2).map fun i => Job.run s.cur i
  let s := s.panel.awaits.foldl State.takeBack s
  { s with panel := { s.panel with awaits := [] }, agenda := jobs ++ s.agenda
           fns := s.fns.map fun e => (e.1, e.2.dropOwed)
           pads := s.pads.map fun e =>
             (e.1, { e.2 with pending := e.2.pending.filter (·.cmd.isNone), moveCmd := none }) }

/-- The standby takes the role over: it acts from its mirror, in which latched notifies and counts stand (R20). It keeps the role whatever
becomes of its own die (log entry 77). -/
def State.takeRole (s : State) : State := { s with panel := { s.panel with shep := 114 } }.rerun

/-- SHEPHERD_TAKEOVER: the Shepherd die has failed, and the standby acts. -/
def execShepherdTakeover (s : State) : Out :=
  if s.panel.shep = 105 then .next (s.takeRole.loseDie 105 { s.panel.die 105 with failed := true })
  else .next s

end Sys2Proof.Machine
end

