-- ==== Sys2Proof/Machine/Partition.lean ====
section
/-!
DEFINITION. Machine/Partition.lean: pastures and their changes, the panel's number, and error injection: what host writes to
the PF's BAR2 do (R94 to R96, R400, R475).
-/
namespace Sys2Proof.Machine

-- Changing the pastures (R94 to R96)

/-- A paddock stands on a die that the staged layout closes to its function. -/
def State.affected (s : State) (p : Paddock) : Bool :=
  p.placed && (p.shape.dies p.place).any fun d =>
    FMap.getD s.panel.diePast d 0 != FMap.getD s.panel.fnPast p.fn 0

/-- Keys of the affected paddocks; PSTAT.WAIT counts them while a request is pending. -/
def State.affectedPads (s : State) : List Nat := (s.pads.filter fun e => s.affected e.2).map (·.1)

/-- The requests of a partition change are withdrawn. -/
def State.dropPartition (s : State) : State :=
  { s with pads := s.pads.map fun (e : Nat × Paddock) =>
      (e.1, { e.2 with pending := e.2.pending.filter fun q => q.req != .partition }) }

/-- The staged layout is applied when no paddock keeps it waiting; requests still waiting then are withdrawn. -/
def State.applyPastures (s : State) : State :=
  if s.panel.pstat = 1 ∧ s.affectedPads.isEmpty then
    { s with panel := { s.panel with pstat := 0, dieLive := s.panel.diePast, fnLive := s.panel.fnPast } }.dropPartition
  else s

/-- PCOMMIT: a request to every affected paddock. -/
def execPcommit (v : W64) (s : State) : Out :=
  if !bit v 0 ∨ s.panel.pstat = 1 then .next s
  else
    let s := { s with panel := { s.panel with pstat := 1 } }
    .next (s.affectedPads.foldl (fun s k => s.request k .partition none (some 2)) s).applyPastures

/-- PARTITION_REQUEST_TIMEOUT: the paddock that reached no pause point is destroyed, and the request fails, for another that is overdue
on the same dtick too (R96, log entry 73). -/
def execPartitionRequestTimeout (pad : Nat) (s : State) : Out :=
  if s.panel.pstat ≠ 1 then .next s
  else
    .next ({ s with panel := { s.panel with pstat := 2 } }.dropPartition.destroyFor pad (0x12 + 2 * 256))

/-- A staged byte: a pasture number, written only while no request is pending; a value above 63 is kept modulo 64 (log entry 61). -/
def State.stage (s : State) (fn : Bool) (i v : Nat) : State :=
  if s.panel.pstat = 1 then s
  else if fn then { s with panel := { s.panel with fnPast := FMap.put s.panel.fnPast i (v % 64) } }
  else { s with panel := { s.panel with diePast := FMap.put s.panel.diePast i (v % 64) } }

-- PANELNO (R400)

/-- A paddock of the panel holds a placement or a saved state. -/
def State.anyStarted (s : State) : Bool :=
  s.pads.any fun e => e.2.state == .running || e.2.state == .preempted || e.2.state == .halted

def execPanelnoWrite (v : W64) (s : State) : Out :=
  .next (if s.anyStarted then s else { s with panel := { s.panel with panelno := v &&& span 4 0 } })

-- Error injection (R475)

/-- Physical tile of EINJADDR on its die; none where the site is not a C-die, or PCOL is above 8. -/
def einjTile (a : W64) : Option (Nat × Nat × Nat) :=
  let x := bits a 7 0
  let y := bits a 15 8
  if 20 ≤ x ∨ 20 ≤ y ∨ (x + y) % 2 ≠ 0 ∨ 8 < bits a 23 20 then none
  else some (dieAt x y, bits a 18 16, bits a 23 20)

/-- The tile of a paddock that stands on a physical tile. -/
def State.onPhys (s : State) (ph : Nat) : Option (Nat × Nat) :=
  s.pads.findSome? fun e =>
    if e.2.placed then (e.2.shape.all.find? fun i => s.physOf e.2 i == ph).map fun i => (e.1, i) else none

/-- A physical tile is fenced, or its exposed tile unavailable, be it because its die is out of service (R471). -/
def Panel.closed (q : Panel) (die row pcol : Nat) : Bool :=
  (q.die die).out || (decide (q.shift die row < 8) && q.shift die row == pcol) ||
    (List.range 8).any fun e => q.physCol die row e == pcol && !q.available die row e

/-- The bits an EINJCTL write inverts. -/
def einjMask (v : W64) : W64 :=
  let b := bits v 5 0
  fld 1 b ||| (if bit v 8 then fld 1 ((b + 1) % 64) else 0)

/-- Invert bits of a word that its error code has not met yet. -/
def Store.strike (st : Store) (w : Nat) (m : W64) : Store :=
  let e := FMap.getD st.errs w 0 ^^^ m
  { st with errs := if e = 0 then FMap.del st.errs w else FMap.put st.errs w e }

/-- Invert bits of a word of a physical tile that no paddock stands on. -/
def Panel.strikeFree (q : Panel) (ph w : Nat) (m : W64) : Panel :=
  let t := FMap.getD q.struck ph []
  { q with struck := FMap.put q.struck ph (FMap.put t w (FMap.getD t w 0 ^^^ m)) }

/-- The dtick on which a row shift's copy of the current tile ends, where one has begun (R465). -/
def State.copyEnd (s : State) : Option Nat := s.panel.retires.findSome? fun r => (r.copied.find? fun e => e.1 == s.cur).map (·.2)

/-- A word of a piece of the pool that a row shift copies: a non-zero word, a non-zero tag or a poison bit stands in it (R465). -/
def Stores.livePiece (st : Stores) (w : Nat) : Bool :=
  FMap.getD st.tags (w / 512) 0 != 0 || st.pool.bytes.any (fun c => c.1 / 4096 == w / 512) ||
    st.pool.poison.any fun x => x / 512 == w / 512

/-- The tile that a row shift has copied to a physical tile already, from the physical column before it (R465). -/
def State.incoming (s : State) (ph : Nat) : Option Ctx :=
  (s.panel.retires.findSome? fun r => r.copied.find? fun e =>
    ph % 9 != 0 && (s.padAt e.1.pad).placed && s.physOf (s.padAt e.1.pad) e.1.tile + 1 == ph && decide (e.2 ≤ s.dtick)).map (·.1)

/-- A word of the current tile's pool is struck. -/
def State.strikePool (s : State) (w : Nat) (m : W64) : State := s.modTile fun t => t.modPool fun st => st.strike w m

/-- A word of the physical tile that the current tile stands on is struck. While a row shift copies the tile the copy still meets the
error where it brings the word along; what its copy has left behind keeps it as a word of no tile, until the tile copied there next
writes the word (R465, R475, log entry 35). -/
def State.strikeTile (s : State) (w : Nat) (m : W64) : State :=
  match s.copyEnd with
  | none => s.strikePool w m
  | some d =>
    if s.dtick < d ∧ s.tile.st.livePiece w then (s.strikePool w m).readTile
    else { s with panel := s.panel.strikeFree (s.physOf s.pad s.cur.tile) w m }

/-- A word of a physical tile's pool is struck: that of the tile copied to it already, else of the tile that stands on it, else a free
one (R465, R475). -/
def State.strikePhys (s : State) (ph w : Nat) (m : W64) : State :=
  match s.incoming ph, s.onPhys ph with
  | some c, _ => s.onPad c.pad fun s => s.atTile c.tile fun s => s.strikePool w m
  | none, some (k, i) => s.onPad k fun s => s.atTile i fun s => s.strikeTile w m
  | none, none => { s with panel := s.panel.strikeFree ph w m }

/-- A session protects a physical tile: its function holds the paddock that stands on it, or whose tile has been copied there (R475). -/
def State.shielded (s : State) (ph : Nat) : Bool :=
  ((s.onPhys ph).any fun x => (s.fn (s.padAt x.1).fn).inSession) ||
    (s.incoming ph).any fun c => (s.fn (s.padAt c.pad).fn).inSession

/-- EINJCTL with GO: the word EINJADDR names is struck, unless the tile is of a paddock that a session protects. -/
def execEinjctlGo (v : W64) (s : State) : Out :=
  let a := s.panel.einjaddr
  match einjTile a with
  | none => .next s
  | some (die, row, pcol) =>
    let ph := die * 72 + row * 9 + pcol
    .next (if !bit v 63 || s.panel.closed die row pcol || s.shielded ph then s
      else s.strikePhys ph (bits a 41 24) (einjMask v))

end Sys2Proof.Machine
end

