-- ==== Sys2Proof/Machine/Windows.lean ====
section
/-!
DEFINITION. Machine/Windows.lean: window runs in the fabric: sending, the checks and effects at the home, merging, ordered
rounds, and the answers (R301, R397, R401 to R404, R409).
-/
namespace Sys2Proof.Machine

-- Sending (R401)

/-- The route a run copied. -/
def routeOf (w : W64) : Route :=
  { panel := bits w 60 56, kind := bits w 62 61, hx := bits w 23 16, hy := bits w 31 24, peer := bits w 15 0 }

/-- A message goes to a panel: into this panel's fabric, due after a while, or out of the panel with the panel it
goes to and the dtick it is due. -/
def State.toPanel (s : State) (panel after : Nat) (m : PodMsg) : State :=
  { s with panel :=
      if panel = s.panel.panelno.toNat % 32 then { s.panel with fabric := s.panel.fabric ++ [(s.dtick + after, m)] }
      else { s.panel with outbox := s.panel.outbox ++ [(panel, s.dtick + after, m)] } }

/-- The elements of n bytes that a word's bytes from an address on hold, at most eight. -/
def unjoin (n a : Nat) (bs : List Byte) : List (Nat × List Byte) :=
  (List.range (bs.length / n)).map fun k => (a + n * k, (bs.drop (n * k)).take n)

/-- What a window run carries, once all its beats are read. -/
def DRun.body (r : DRun) : PodBody :=
  let off := fun (a : Nat) => a % 2 ^ 36
  let items := r.beats.flatMap fun b => b.data.zipIdx.map fun x => (off (r.dstAddr (b.first + x.2)), x.1)
  match r.cmd with
  | .get => .get (r.beats.flatMap fun b => (List.range b.count).map fun k => (off (r.srcAddr (b.first + k)), r.width))
  | .putadd => .add (dAtype r.ws) r.seq items
  | .amo => .amo (dAop r.ws) r.width items
  | _ => .put items

/-- A message comes apart in the fabric of its home's panel: a put into its words, which arrive in no fixed order (R402), the contributions
of an unordered reduction into their elements, each of which may merge by itself (R403). -/
def PodMsg.parts (m : PodMsg) : List PodMsg :=
  let part := fun (e : Nat) (b : PodBody) =>
    { m with senders := m.senders.map fun x => { x with elem := x.elem + e }, body := b }
  match m.body with
  | .put items =>
    let n := ((items.map (·.2.length)).head?).getD 1
    (joinWords (items.zipIdx.map fun x => { e := x.2, addr := x.1.1, bytes := x.1.2 })).map fun w =>
      part w.e (.put (unjoin n w.addr w.bytes))
  | .add ty q items =>
    if m.route.kind = 2 then [m] else items.zipIdx.map fun x => part x.2 (.add ty q [x.1])
  | _ => [m]

/-- The word of a window that a put writes. -/
def PodBody.word : PodBody → Option Nat
  | .put (x :: _) => some (x.1 / 8)
  | _ => none

/-- A message enters this panel's fabric whole: each part is due by its draw, 0 but for words of a put; those of one word are due together,
so that of two elements on one byte the later wins (R290). -/
def State.enter (s : State) (m : PodMsg) (due : Nat → Nat) : State :=
  let draw := fun (b : PodBody) => match b.word with
    | some w => Config.putLead s.free w
    | none => 0
  { s with panel := { s.panel with fabric := s.panel.fabric ++ m.parts.map fun x => (due (draw x.body), x) }, free := s.free + 1 }

/-- A window run whose beats have all issued and been read is sent; one cut short by a failure sends what came before it,
and counts for nothing; of an ordered reduction, whose contributions are whole, it sends nothing (R298, R402, R404). -/
def State.windowSend (s : State) (r : DRun) : State :=
  let ready := r.windowed s.pad.shape s.cur.tile && !r.sent && !r.susp && r.issued == r.beta && r.beats.all (·.read) &&
    !r.beats.isEmpty
  if !ready then s
  else
    let whole := r.slot.isSome
    let here := s.panel.panelno.toNat % 32
    let m : PodMsg :=
      { window := r.window, route := routeOf r.route, back := r.h - r.h / 2, body := r.body
        senders := [{ panel := here, pad := s.cur.pad, tile := s.cur.tile, serial := r.serial, j := r.j, elem := 0, counts := whole }] }
    let a := if r.cmd == .get then r.srcAddr 0 else r.dstAddr 0
    let asks := r.cmd == .get || r.cmd == .amo
    let s := (s.touch (s.pad.shape.target s.cur.tile a)).modRun r.serial r.j fun r =>
      { r with sent := true, asked := asks, beats := [] }
    if !whole && r.cmd == .putadd && m.route.kind == 2 then s
    else if m.route.panel = here then s.enter m fun d => s.dtick + (r.h / 2 - d % (r.h / 2 + 1))
    else s.toPanel m.route.panel (r.h / 2) m

/-- Every window run of the current tile that is ready. -/
def State.windowSends (s : State) : State := s.tile.dr.runs.foldl State.windowSend s

-- The home (R401)

/-- The request kinds a home answers. -/
def PodBody.isRequest : PodBody → Bool
  | .put _ => true
  | .add _ _ _ => true
  | .get _ => true
  | .amo _ _ _ => true
  | _ => false

/-- A tile of a paddock is the home a message names, KIND apart. -/
def Paddock.homeTile (p : Paddock) (m : PodMsg) : Option Nat :=
  if m.route.hx < p.shape.w ∧ m.route.hy < p.shape.h then
    let i := p.shape.idx m.route.hx m.route.hy
    let t := FMap.getD p.tiles i Tile.init
    if bit (Regs.rd t.ctl (kWmap + m.window)) 63 && bits (Regs.rd t.ctl (kWdesc + m.window)) 15 0 == m.route.peer then some i
    else none
  else none

/-- The home of a message on this panel: a tile of a paddock that runs, is frozen or is PREEMPTED. -/
def State.homeFor (s : State) (m : PodMsg) : Option Ctx :=
  s.pads.findSome? fun e =>
    if e.2.state == .running || e.2.state == .preempted then
      (e.2.homeTile m).map fun i => { pad := e.1, tile := i }
    else none

/-- An answer as one sender numbers its elements. -/
def PodBody.seenBy (x : Sender) : PodBody → PodBody
  | .nack e c d => .nack (x.elem + e) c d
  | .poisoned e d => .poisoned (x.elem + e) d
  | b => b

/-- Answer every sender of a message. -/
def State.answer (s : State) (m : PodMsg) (b : PodBody) : State :=
  m.senders.foldl (fun s x => s.toPanel x.panel m.back { m with senders := [x], body := b.seenBy x }) s

/-- Two senders name the same run. -/
def Sender.sameRun (x y : Sender) : Bool :=
  x.panel == y.panel && x.pad == y.pad && x.tile == y.tile && x.serial == y.serial && x.j == y.j

/-- A run of which an element has been refused: its later elements in the fabric are discarded and the others count for nothing; a
contribution that has merged is in its message for good (R298). -/
def Panel.dropLater (q : Panel) (x : Sender) : Panel :=
  let keep := fun (y : Sender) => !(y.sameRun x) || decide (y.elem < x.elem)
  let fabric := q.fabric.filterMap fun e =>
    if !e.2.body.isRequest || !e.2.senders.any (·.sameRun x) then some e
    else
      let ss := (e.2.senders.filter keep).map fun y => if y.sameRun x then { y with counts := false } else y
      if ss.isEmpty then none else some (e.1, { e.2 with senders := ss })
  { q with fabric := fabric }

/-- Refuse a message: every sender hears of it, and nothing later of their runs is applied. -/
def State.refuse (s : State) (m : PodMsg) (b : PodBody) : State :=
  (m.senders.foldl (fun s x => { s with panel := s.panel.dropLater x }) s).answer m b

/-- A message has been applied whole: each sender no other element of whose run is in the fabric counts, and hears of it (R402, R403);
one that counts for nothing is only answered where it asked for bytes. -/
def State.applied (s : State) (m : PodMsg) (data : List (List Byte)) : State :=
  m.senders.foldl (fun s x =>
    let more := s.panel.fabric.any fun e => e.2.body.isRequest && e.2.senders.any (·.sameRun x)
    if more then s
    else
      let s := if x.counts && (match m.body with
          | .put _ => true
          | .add _ _ _ => true
          | _ => false)
        then s.modSync fun y => { y with recvInc := FMap.put y.recvInc m.window (FMap.getD y.recvInc m.window 0 + 1) } else s
      s.toPanel x.panel m.back { m with senders := [x], body := .ack data }) s

/-- Where an element lies at its home: the cause it is refused with, or its target (R401); an atomic reads its page too (Table 9-9). -/
def State.homePlace (s : State) (w o n : Nat) (rd wr : Bool) (amo : Bool := false) : Except Cause Target :=
  let wm := s.ctl (kWmap + w)
  if (rd && !bit wm 62) || (wr && !bit wm 61) then .error .protection
  else if 2 ^ bits wm 53 48 < o + n then .error .protection
  else
    match s.pageCheck true (bits wm 47 0 + o) n { rd := rd || amo, wr := wr, xl := false } with
    | .error _ => .error .protection
    | .ok (.own off) => if s.pad.shape.area off == .pen then .error .protection else .ok (.own off)
    | .ok (.hbm p off) => .ok (.hbm p off)
    | .ok _ => .error .protection

/-- What a home checks of one element of an arrival: the window's kind, its poison, the element's place (R401, R409). -/
def State.homeCheck (s : State) (w kind o n : Nat) (rd wr : Bool) (amo : Bool := false) : Except Cause Target :=
  if bits (s.ctl (kWdesc + w)) 62 61 != kind then .error .protection
  else if s.tile.sync.wpoison.contains w then .error .syncPoison
  else s.homePlace w o n rd wr amo

/-- The refusal of an element, with the bytes of those before it: a poisoned window is named as such (R409). -/
def State.refusal (s : State) (w e : Nat) (c : Cause) (d : List (List Byte)) : PodBody :=
  if c = .syncPoison ∧ s.tile.sync.wpoison.contains w then .poisoned e d else .nack e c d

/-- The cause of meeting a poisoned word of a window at its home. -/
def State.homePoison (s : State) (w o : Nat) : Cause :=
  s.pad.shape.poisonCause s.cur.tile (bits (s.ctl (kWmap + w)) 47 0 + o)

/-- The first of the elements from e on that the home's checks refuse. -/
def State.itemsBad (s : State) (w kind e : Nat) (rd wr : Bool) : List (Nat × Nat) → Option (Nat × Cause)
  | [] => none
  | x :: xs =>
    match s.homeCheck w kind x.1 x.2 rd wr with
    | .error c => some (e, c)
    | .ok _ => State.itemsBad s w kind (e + 1) rd wr xs

/-- Write words of a put, in order, until one is refused: its element and cause. -/
def State.putWords (s : State) (w : Nat) : List ElemWrite → State × Option (Nat × Cause)
  | [] => (s, none)
  | x :: xs =>
    match s.homePlace w x.addr 1 false true with
    | .error c => (s, some (x.e, c))
    | .ok t =>
      match s.writeAt t x.bytes with
      | (s, false) => (s, some (x.e, .dataPoison))
      | (s, true) => State.putWords s w xs

/-- Elements of a put, one word at a time, until one is refused (R402). -/
def State.putItems (s : State) (w kind : Nat) (items : List (Nat × List Byte)) : State × Option (Nat × Cause) :=
  let bad := s.itemsBad w kind 0 false true (items.map fun x => (x.1, x.2.length))
  let fit := match bad with
    | some (e, _) => items.take e
    | none => items
  match s.putWords w (joinWords (fit.zipIdx.map fun x => { e := x.2, addr := x.1.1, bytes := x.1.2 })) with
  | (s, some y) => (s, some y)
  | (s, none) => (s, bad)

/-- Ranges of a get, in order: the bytes of those before the first that is refused. -/
def State.getItems (s : State) (w kind e : Nat) : List (Nat × Nat) → State × List (List Byte) × Option (Nat × Cause)
  | [] => (s, [], none)
  | x :: xs =>
    match s.homeCheck w kind x.1 x.2 true false with
    | .error c => (s, [], some (e, c))
    | .ok t =>
      match s.readAt t x.2 with
      | (s, none) => (s, [], some (e, s.homePoison w x.1))
      | (s, some bs) =>
        let r := State.getItems s w kind (e + 1) xs
        (r.1, bs :: r.2.1, r.2.2)

/-- A sum of two contributions of an element type (R293): integers wrap, floats round once under RNE. -/
def addElems (ty : Nat) (a b : List Byte) : List Byte :=
  let n := a.length
  let x := leNat a
  let y := leNat b
  match ty with
  | 3 => natLE n (fAdd Fmt.f32 .rne x y).pat
  | 4 => natLE n (fAdd Fmt.f64 .rne x y).pat
  | _ => natLE n ((x + y) % 2 ^ (8 * n))

/-- Add one element at its home. -/
def State.addItem (s : State) (ty : Nat) (t : Target) (x : List Byte) : State × Bool :=
  match s.readAt t x.length with
  | (s, none) => (s, false)
  | (s, some old) => ((s.writeAt t (addElems ty old x)).1, true)

/-- Elements of an unordered contribution, each added atomically. -/
def State.addItems (s : State) (w kind ty e : Nat) : List (Nat × List Byte) → State × Option (Nat × Cause)
  | [] => (s, none)
  | x :: xs =>
    match s.homeCheck w kind x.1 x.2.length false true with
    | .error c => (s, some (e, c))
    | .ok t =>
      match s.addItem ty t x.2 with
      | (s, false) => (s, some (e, s.homePoison w x.1))
      | (s, true) => State.addItems s w kind ty (e + 1) xs

/-- Elements of a DAMO: the old values of those before the first that is refused. -/
def State.amoItems (s : State) (w kind op e : Nat) : List (Nat × List Byte) → State × List (List Byte) × Option (Nat × Cause)
  | [] => (s, [], none)
  | x :: xs =>
    match s.homeCheck w kind x.1 x.2.length false true true with
    | .error c => (s, [], some (e, c))
    | .ok t =>
      match s.readAt t x.2.length with
      | (s, none) => (s, [], some (e, s.homePoison w x.1))
      | (s, some old) =>
        let s := (s.writeAt t (natLE x.2.length ((amoOf op).apply x.2.length (leNat old) (leNat x.2)))).1
        let r := State.amoItems s w kind op (e + 1) xs
        (r.1, old :: r.2.1, r.2.2)

/-- The count of a window at its home rises at the end of the cycle (R404). -/
def State.countRecv (s : State) (w n : Nat) : State :=
  s.modSync fun y => { y with recvInc := FMap.put y.recvInc w (FMap.getD y.recvInc w 0 + n) }

-- Ordered rounds (R404)

/-- Senders held for a round. -/
def Sync.roundKeys (y : Sync) (w seq : Nat) : List (Nat × Nat) :=
  (y.contribs.filter fun c => c.window == w && c.seq == seq).foldl
    (fun l c => if l.contains (c.panel, c.sender) then l else l ++ [(c.panel, c.sender)]) []

/-- Rounds between the one being collected and a contribution's, on 32-bit numbers. -/
def roundGap (cur seq : Nat) : Nat := (seq + 2 ^ 32 - cur % 2 ^ 32) % 2 ^ 32

/-- A contribution arrives: held and acknowledged, refused, or left in the fabric (false) when too far ahead. -/
def State.holdContrib (s : State) (m : PodMsg) (x : Sender) (ty seq : Nat) (items : List (Nat × List Byte)) : State × Bool :=
  let w := m.window
  let cur := FMap.getD s.tile.sync.rounds w 0
  match s.itemsBad w 2 0 false true (items.map fun i => (i.1, i.2.length)) with
  | some (e, c) => (s.refuse m (s.refusal w e c []), true)
  | none =>
    if 1 < roundGap cur seq ∧ roundGap cur seq < 2 ^ 31 then (s, false)
    else if 2 ^ 31 ≤ roundGap cur seq ∨ (s.tile.sync.roundKeys w seq).contains (x.panel, x.tile) then
      (s.refuse m (.nack 0 .protection []), true)
    else
      let cs := items.map fun i =>
        ({ window := w, panel := x.panel, sender := x.tile, seq := seq, addr := i.1, data := i.2, aty := ty } : Contrib)
      ((s.modSync fun y => { y with contribs := y.contribs ++ cs }).answer m (.ack []), true)

/-- Insertion by panel, then tile. -/
def insertKey (k : Nat × Nat) : List (Nat × Nat) → List (Nat × Nat)
  | [] => [k]
  | x :: xs => if k.1 < x.1 ∨ (k.1 = x.1 ∧ k.2 < x.2) then k :: x :: xs else x :: insertKey k xs

/-- Apply one held element; poison makes the window poisoned and writes nothing. -/
def State.applyContrib (s : State) (c : Contrib) : State :=
  let poison := fun (s : State) => s.modSync fun y => { y with wpoison := nsAdd y.wpoison c.window }
  match s.homePlace c.window c.addr c.data.length false true with
  | .error _ => s
  | .ok t =>
    match s.addItem c.aty t c.data with
    | (s, true) => s
    | (s, false) => poison s

/-- ORDERED_ROUND_APPLY: the next round of window w at the current tile is applied when all its contributions are held. -/
def State.applyRound (s : State) (w : Nat) : State :=
  let y := s.tile.sync
  let r := FMap.getD y.rounds w 0
  let keys := y.roundKeys w r
  let nsend := bits (s.ctl (kWdesc + w)) 47 32
  if nsend = 0 ∨ keys.length ≠ nsend then s
  else
    let s := (keys.foldl (fun l k => insertKey k l) []).foldl (fun s k =>
      (y.contribs.filter fun c => c.window == w && c.seq == r && c.panel == k.1 && c.sender == k.2).foldl
        State.applyContrib s) s
    let s := s.modSync fun y =>
      { y with contribs := y.contribs.filter fun c => !(c.window == w && c.seq == r),
               rounds := FMap.put y.rounds w ((r + 1) % 2 ^ 32) }
    s.countRecv w nsend

def execOrderedRoundApply (w : Nat) (s : State) : Out := .next (s.applyRound w)

/-- A place that the current tile's home check has found lies in an HBM page that is cut off (R29). -/
def State.placeCut (s : State) : Except Cause Target → Bool
  | .ok t => s.pad.cutTarget s.panel.outDies t
  | .error _ => false

/-- A held contribution goes to memory that is cut off. -/
def State.contribCut (s : State) (c : Contrib) : Bool := s.placeCut (s.homePlace c.window c.addr c.data.length false true)

/-- Every window of the current tile that holds contributions, but for one whose memory is cut off (R29). -/
def State.applyRounds (s : State) : State :=
  (((s.tile.sync.contribs.filter fun c => s.panel.outDies.isEmpty || !s.contribCut c).map (·.window)).foldl nsAdd []).foldl State.applyRound s

-- Arrivals (R401, R402)

/-- A message takes effect at the current tile, its home; false when it stays in the fabric. -/
def State.homeApply (s : State) (m : PodMsg) : State × Bool :=
  let w := m.window
  let k := m.route.kind
  match m.body with
  | .put items =>
    match s.putItems w k items with
    | (s, some (e, c)) => (s.refuse m (s.refusal w e c []), true)
    | (s, none) => (s.applied m [], true)
  | .get items =>
    match s.getItems w k 0 items with
    | (s, d, some (e, c)) => (s.refuse m (s.refusal w e c d), true)
    | (s, d, none) => (s.applied m d, true)
  | .amo op _ items =>
    match s.amoItems w k op 0 items with
    | (s, d, some (e, c)) => (s.refuse m (s.refusal w e c d), true)
    | (s, d, none) => (s.applied m d, true)
  | .add ty seq items =>
    if k = 2 then
      match m.senders with
      | x :: _ => s.holdContrib m x ty seq items
      | [] => (s, true)
    else
      match s.addItems w k ty 0 items with
      | (s, some (e, c)) => (s.refuse m (s.refusal w e c []), true)
      | (s, none) => (s.applied m [], true)
  | _ => (s, true)

/-- Take one message out of the fabric. -/
def Panel.dropMsg (q : Panel) (x : Nat × PodMsg) : Panel := { q with fabric := q.fabric.erase x }

/-- What a sender has sent takes effect before what another has, on one cycle: by tile index, then for one tile by serial (R236, R401); of
two tiles of one index by panel and paddock (log entry 74). -/
def Sender.before (x y : Sender) : Bool :=
  if x.tile ≠ y.tile then decide (x.tile < y.tile)
  else if x.panel ≠ y.panel then decide (x.panel < y.panel)
  else if x.pad ≠ y.pad then decide (x.pad < y.pad)
  else if x.serial ≠ y.serial then decide ((x.serial - y.serial).toInt < 0)
  else if x.j ≠ y.j then decide (x.j < y.j)
  else decide (x.elem < y.elem)

/-- The first sender of a message has some property. -/
def PodMsg.sentBy (m : PodMsg) (f : Sender → Bool) : Bool := m.senders.head?.any f

/-- Insertion in the order of R236. -/
def insertArrival (x : Nat × PodMsg) : List (Nat × PodMsg) → List (Nat × PodMsg)
  | [] => [x]
  | y :: ys => if x.2.sentBy fun a => y.2.sentBy fun b => a.before b then x :: y :: ys else y :: insertArrival x ys

/-- A get only reads. -/
def PodBody.reads : PodBody → Bool
  | .get _ => true
  | _ => false

/-- A request that the current tile, its home, takes is for memory that is cut off; what an ordered reduction brings is only held. -/
def State.requestCut (s : State) (m : PodMsg) : Bool :=
  let at_ := fun (o n : Nat) (rd amo : Bool) => s.placeCut (s.homeCheck m.window m.route.kind o n rd (!rd) amo)
  match m.body with
  | .put items => items.any fun x => at_ x.1 x.2.length false false
  | .add _ _ items => m.route.kind != 2 && items.any fun x => at_ x.1 x.2.length false false
  | .get items => items.any fun x => at_ x.1 x.2 true false
  | .amo _ _ items => items.any fun x => at_ x.1 x.2.length false true
  | _ => false

/-- The requests due at the current tile as their home, in the order in which they take effect; one for HBM that is cut off stays in the
fabric (R29). -/
def State.homeDue (s : State) : List (Nat × PodMsg) :=
  (s.panel.fabric.filter fun x => decide (x.1 ≤ s.dtick) && x.2.body.isRequest && s.homeFor x.2 == some s.cur &&
    (s.panel.outDies.isEmpty || !s.requestCut x.2)).foldl
    (fun l x => insertArrival x l) []

/-- One request arrives; one that a refusal has just changed in the fabric does so a dtick later. -/
def State.arriveOne (s : State) (x : Nat × PodMsg) : State :=
  if !s.panel.fabric.contains x then s
  else
    match { s with panel := s.panel.dropMsg x }.homeApply x.2 with
    | (s, true) => s
    | (_, false) => s

/-- The requests of some senders that write arrive at the current tile. -/
def State.takeRequests (s : State) (f : Sender → Bool) : State :=
  (s.homeDue.filter fun x => !x.2.body.reads && x.2.sentBy f).foldl State.arriveOne s

/-- The gets due at the current tile: they read after the writes of the cycle (R236). -/
def State.windowGets (s : State) : State := (s.homeDue.filter fun x => x.2.body.reads).foldl State.arriveOne s

/-- WINDOW_PUT_APPLY: every request due at the current tile, in ascending tile index of its sender (R236, R401), the gets last. -/
def execWindowPutApply (s : State) : Out := .next (s.takeRequests fun _ => true).windowGets

/-- Requests due for which this panel has no home are refused (R401). -/
def State.refuseHomeless (s : State) : State :=
  (s.panel.fabric.filter fun x => decide (x.1 ≤ s.dtick) && x.2.body.isRequest && (s.homeFor x.2).isNone).foldl
    (fun s x => if s.panel.fabric.contains x then { s with panel := s.panel.dropMsg x }.refuse x.2 (.nack 0 .protection []) else s) s

-- Merging (R403)

/-- Two contributions that may merge in a switch: same unordered window and route, same type, same elements, of runs of which each counts
by itself. -/
def PodMsg.mergeable (a b : PodMsg) : Bool :=
  a.window == b.window && a.route == b.route && a.route.kind == 1 && !(a.senders.any fun x => b.senders.any (·.sameRun x)) &&
    (match a.body, b.body with
     | .add ta _ xs, .add tb _ ys => ta == tb && xs.map (·.1) == ys.map (·.1) && xs.map (·.2.length) == ys.map (·.2.length)
     | _, _ => false)

/-- The merged contribution. -/
def PodMsg.merge (a b : PodMsg) : PodMsg :=
  match a.body, b.body with
  | .add t q xs, .add _ _ ys =>
    { a with senders := a.senders ++ b.senders, back := Nat.max a.back b.back,
             body := .add t q ((xs.zip ys).map fun p => (p.1.1, addElems t p.1.2 p.2.2)) }
  | _, _ => a

/-- Every pair of the fabric that may merge. -/
def mergePairs : List (Nat × PodMsg) → List ((Nat × PodMsg) × (Nat × PodMsg))
  | [] => []
  | x :: xs => ((xs.filter fun y => x.2.mergeable y.2).map fun y => (x, y)) ++ mergePairs xs

/-- REDUCTION_MERGE: two contributions in the fabric become one; which pair is a free value. -/
def State.mergeOne (s : State) : State :=
  let pick := match mergePairs s.panel.fabric with
    | [p] => some p
    | ps => ps[Config.mergePick s.dtick s.panel.fabric.length % ps.length]?
  match pick with
  | some (x, y) =>
    { s with panel := { s.panel with
        fabric := ((s.panel.fabric.erase x).erase y) ++ [(Nat.max x.1 y.1, x.2.merge y.2)] } }
  | none => s

def execReductionMerge (s : State) : Out := .next s.mergeOne

-- Answers (R288, R298, R402)

/-- The cycle on which an answer takes effect: now, or when the run's least latency has passed in region cycles (R385). -/
def DRun.answerAt (r : DRun) (now : Nat) : Nat := Nat.max now (r.s + r.beta + windowLeast)

/-- The bytes an answer brings, as a beat of its run: those of a get, or old values. -/
def DRun.answerBeats (r : DRun) (now : Nat) (d : List (List Byte)) : List Beat :=
  let beat := fun (k : BeatKind) =>
    ({ kind := k, first := 0, count := d.length, readAt := now, writeAt := r.answerAt now, read := true, data := d } : Beat)
  if d.isEmpty then []
  else match r.cmd with
    | .get => [beat .data]
    | .amo => [beat .back]
    | _ => []

/-- An answer reaches its run: acknowledged, with the bytes of a get or old values, or refused at an element, those before it kept
(R298). A run that holds its slot finishes then, not sooner than its least latency (R385); of one stopped before only the bytes come. -/
def State.takeAnswer (s : State) (x : Sender) (b : PodBody) : State :=
  let now := s.pad.rtick
  let answered := fun (d : List (List Byte)) (fin : Option Nat) =>
    s.modRun x.serial x.j fun r => { r with beats := r.answerBeats now d, asked := false, fin := fin }
  match s.dRun x.serial x.j with
  | none => s
  | some r =>
    let fail := fun (e : Nat) (d : List (List Byte)) (c : Cause) (a : Nat) =>
      let side := r.cmd != .get
      if r.slot.isNone then answered d none
      else (answered d none).droverFail r e side (({ r with side := side }).fault c a)
    match b with
    | .ack d => answered d (if r.slot.isSome then some (r.answerAt now) else none)
    | .nack e c d => fail e d c (if r.cmd = .get then r.srcAddr e else r.dstAddr e)
    | .poisoned e d => fail e d .syncPoison r.window
    | _ => s

/-- Answers due for the current tile. -/
def State.answersDue (s : State) : List (Nat × PodMsg) :=
  s.panel.fabric.filter fun x =>
    decide (x.1 ≤ s.dtick) && !x.2.body.isRequest &&
      (match x.2.senders with
       | y :: _ => y.pad == s.cur.pad && y.tile == s.cur.tile
       | [] => false)

/-- WINDOW_ACK: every answer due for the current tile. -/
def State.windowAcks (s : State) : State :=
  s.answersDue.foldl (fun s x =>
    let s := { s with panel := s.panel.dropMsg x }
    match x.2.senders with
    | y :: _ => s.takeAnswer y x.2.body
    | [] => s) s

def execWindowAck (s : State) : Out := .next s.windowAcks

end Sys2Proof.Machine
end

