-- ==== Sys2Proof/Machine/Debug.lean ====
section
/-!
DEFINITION. Machine/Debug.lean: the debug block: stops, breakpoints, dumps, replay, pod stops, and the trace ring (R442 to
R454).
-/
namespace Sys2Proof.Machine

-- The paddock the block names (R446, R447)

/-- The paddock of DHANDLE. -/
def State.debugPad (s : State) (fn : Nat) : Nat := padKey fn (bits (s.fn fn).dbg.dhandle 15 0)

def State.setErr (s : State) (fn n : Nat) : State := s.modFn fn fun f => { f with dbg := { f.dbg with err := n } }

/-- A DCMD: refused during a session, without a handle, or in the wrong state; else carried out. -/
def State.dcmd (s : State) (fn : Nat) (legal : Paddock → Bool) (eff : Nat → State → State) : State :=
  let k := s.debugPad fn
  if (s.fn fn).inSession then s
  else if (FMap.get? s.pads k).isNone || (s.padAt k).state == .destroyed then s.setErr fn 1
  else if !legal (s.padAt k) then s.setErr fn 2
  else eff k (s.setErr fn 0)

/-- A paddock that stands stopped. -/
def Paddock.isStopped (p : Paddock) : Bool := p.state == .running && decide (2 ≤ p.dbg.state) && p.freeze == some .stop

-- STOP and GO (R443)

/-- A stop is requested at the paddock of key k, unless one already waits; DSTAT goes on showing the stop it stands in. -/
def State.stopPad (s : State) (k : Nat) : State :=
  if (s.padAt k).asked .stop then s
  else
    let s := s.modPadAt k fun p =>
      if p.dbg.state = 0 then { p with dbg := { p.dbg with state := 1, zlow := 0, bp := 0 } } else p
    s.request k .stop none none

/-- The stopped paddock of key k goes on: requests taken at its pause point first; after a breakpoint stop they wait. -/
def State.goPad (s : State) (k : Nat) : State :=
  let p := s.padAt k
  if !p.isStopped then s
  else
    let s := s.modPadAt k fun p =>
      { p with dbg := { p.dbg with state := if p.asked .stop then 1 else 0, zlow := 0, bp := 0 } }
    if p.dbg.state = 2 then s.goOn k else s.release k

def execDebugStop (fn : Nat) (s : State) : Out :=
  .next (s.dcmd fn (fun p => p.state == .running) fun k s => s.stopPad k)

def execDebugGo (fn : Nat) (s : State) : Out := .next (s.dcmd fn Paddock.isStopped fun k s => s.goPad k)

-- DUMP (R442, Table 18-5)

/-- The core is stalled (R133). -/
def Core.isStalled (c : Core) : Bool := c.waitFrom.isSome && !c.halted

/-- The tile counts as halted (R161, R337). -/
def Tile.isDown (t : Tile) : Bool :=
  t.core.halted && t.mq.entries.isEmpty && t.vq.entries.isEmpty && t.dq.entries.isEmpty && t.dr.held.isEmpty &&
    t.vec.pend.isEmpty && !t.vec.landed

/-- The tile counted as halted on the last cycle: nothing was in use on it that its end only freed (R140, R161). -/
def Tile.wasDown (t : Tile) : Bool := t.isDown && !t.core.lately

/-- A queue or a transfer slot of the tile is in use, or a write of it has landed on this very cycle. -/
def Tile.inUse (t : Tile) : Bool :=
  !(t.mq.entries.isEmpty && t.vq.entries.isEmpty && t.dq.entries.isEmpty && t.dr.held.isEmpty && !t.vec.landed)

/-- The stop record of a tile. -/
def Paddock.stopRecord (p : Paddock) (t : Tile) : List W64 :=
  [bundleAddr t.core.pc, w64 p.stint, w64 (p.rtick - 1), t.mq.stat, t.vq.stat, t.dq.stat,
   fld t.core.isStalled.toNat 11 ||| fld t.wasDown.toNat 10 ||| fld (!t.mx.prods.isEmpty).toNat 9 |||
     fld (!t.vec.pend.isEmpty).toNat 8 ||| fld t.dr.held.length 0, 0]

/-- Write records one after another to the dump buffer, as far as the adapter reaches. -/
def State.dumpTo (s : State) (fn : Nat) (ts : List Tile) (p : Paddock) : State :=
  let a := bits (s.fn fn).dbg.ddump 63 6 * 64
  let bs := ts.flatMap fun t => (p.stopRecord t).flatMap fun w => natLE 8 w.toNat
  s.hostWrite fn a (bs.take (hostReach fn a bs.length))

def execDump (fn : Nat) (s : State) : Out :=
  .next (s.dcmd fn Paddock.isStopped fun k s =>
    let p := s.padAt k
    let n := bits (s.fn fn).dbg.dtile 31 0
    if n = 0xFFFFFFFF then s.dumpTo fn (p.tiles.map (·.2)) p
    else
      match FMap.get? p.tiles n with
      | some t => s.dumpTo fn [t] p
      | none => s)

-- ARM (R454)

/-- An INPUT record of a log, from its four words. -/
def armedOf (w : Nat → W64) : Option Armed :=
  if bits (w 0) 63 56 ≠ 8 then none
  else some { time := (w 2).toNat, tile := bits (w 0) 31 0, mbox := bits (w 0) 51 48, value := w 3, seq := (w 1).toNat }

def execArm (fn : Nat) (s : State) : Out :=
  .next (s.dcmd fn (fun p => p.state == .loaded) fun k s =>
    let f := s.fn fn
    let n := bits f.dbg.rcnt 31 0
    let a := bits f.dbg.rbase 63 5 * 32
    let word := fun (i j : Nat) => w64 (leNat (s.hostRead fn (a + 32 * i + 8 * j) 8))
    let log := (List.range n).filterMap fun i => armedOf (word i)
    s.modPadAt k fun p => { p with dbg := { p.dbg with armed := log } })

-- Breakpoints (R444)

/-- Breakpoint k of a paddock is set; it matches entries pushed from now on. -/
def Dbg.setBreak (d : Dbg) (k : Nat) (v : W64) (now : Nat) : Dbg :=
  { d with bps := FMap.put d.bps k (v &&& (span 63 60 ||| span 55 0)), since := FMap.put d.since k now, firsts := FMap.del d.firsts k }

/-- Breakpoint k names entries of a unit's queue of a tile. -/
def Dbg.names (d : Dbg) (k tile : Nat) (u : Slot) : Bool :=
  let v := Regs.rd d.bps k
  bit v 63 && !bit v 62 && bits v 61 60 == slotNo u && bits v 55 40 == tile

/-- Each entry breakpoint notes the first entry of its serial that has been pushed since it became valid. -/
def Dbg.note (d : Dbg) (tile : Nat) (u : Slot) (q : Queue) : Dbg :=
  (List.range 8).foldl (fun d k =>
    let first := q.entries.find? fun e =>
      bits (Regs.rd d.bps k) 31 0 == e.serial.toNat && decide (FMap.getD d.since k 0 ≤ e.pushed)
    match first with
    | some e => if d.names k tile u && (FMap.get? d.firsts k).isNone then { d with firsts := FMap.put d.firsts k e.pushed } else d
    | none => d) d

/-- Breakpoint k names the run of this unit's queue that starts on this cycle, of the first entry of its serial. -/
def Dbg.hitsRun (d : Dbg) (k tile now : Nat) (u : Slot) (q : Queue) : Bool :=
  let v := Regs.rd d.bps k
  match q.entries, q.act with
  | e :: _, some a =>
    d.names k tile u && bits v 39 32 == e.j % 256 && bits v 31 0 == e.serial.toNat && a.s == now &&
      FMap.get? d.firsts k == some e.pushed
  | _, _ => false

/-- Breakpoint k names the bundle that issues. -/
def Dbg.hitsBundle (d : Dbg) (k tile : Nat) (pc : W64) : Bool :=
  let v := Regs.rd d.bps k
  bit v 63 && bit v 62 && bits v 55 40 == tile && bits v 12 0 == pc.toNat

/-- Breakpoint k fires on cycle now: the stop comes DLAT later, unless one already comes. -/
def Paddock.fire (p : Paddock) (now k : Nat) : Paddock :=
  let d := { p.dbg with bps := FMap.put p.dbg.bps k (setBits (Regs.rd p.dbg.bps k) 63 63 0) }
  { p with dbg := if d.fireAt.isSome then d else { d with fireAt := some (now + p.shape.dlat), fireBp := k } }

/-- The breakpoints that a test picks fire at the current tile. -/
def State.fireBreaks (s : State) (hit : Dbg → Nat → Bool) : State :=
  if s.pad.dbg.bps.isEmpty || (s.fn s.pad.fn).inSession then s
  else ((List.range 8).filter fun k => hit s.pad.dbg k).foldl (fun s k => s.modPad fun p => p.fire p.rtick k) s

/-- Entry breakpoints note the entries of the current tile's queues, before any start of the cycle can end one (R444). -/
def State.breakNotes (s : State) : State :=
  let t := s.tile
  let i := s.cur.tile
  if s.pad.dbg.bps.isEmpty then s
  else s.modPad fun p => { p with dbg := ((p.dbg.note i .m t.mq).note i .v t.vq).note i .d t.dq }

/-- Entry breakpoints whose run starts on this cycle at the current tile. -/
def State.breakRuns (s : State) : State :=
  let t := s.tile
  s.fireBreaks fun d k =>
    d.hitsRun k s.cur.tile s.pad.rtick .m t.mq || d.hitsRun k s.cur.tile s.pad.rtick .v t.vq ||
      d.hitsRun k s.cur.tile s.pad.rtick .d t.dq

/-- Bundle breakpoints of the bundle that issues at the current tile. -/
def State.breakBundle (s : State) : State :=
  let pc := s.tile.core.pc
  s.fireBreaks fun d k => d.hitsBundle k s.cur.tile pc

/-- The paddock has run its stop cycle Z. -/
def Paddock.breakDue (p : Paddock) : Bool :=
  match p.dbg.fireAt with
  | some z => decide (z < p.rtick)
  | none => false

/-- BREAKPOINT_STOP: the current paddock stands after cycle Z, with its STOP record at tile (0,0); a fault at or before Z, or
the end of the job, comes instead. In a loose stint the freeze discards runs that are not committed (R224); in a strict one a stop
changes no result, and they go on (R445). -/
def execBreakpointStop (s : State) : Out :=
  match s.pad.dbg.fireAt with
  | none => .next s
  | some z =>
    let s := s.modPad fun p => { p with dbg := { p.dbg with fireAt := none } }
    if !s.pad.reports.isEmpty || s.pad.state != .running then .next s
    else
      let s := s.modPad fun p => { p with freeze := some .stop, dbg := { p.dbg with state := 3, zlow := z % 2 ^ 32, bp := p.dbg.fireBp } }
      let s := if s.pad.strict then s
        else s.modPad fun p => p.mapTiles fun _ => Tile.freezeHold
      .next (s.atTile 0 fun s => s.traceTile 6 0 z (fld 3 8 ||| fld s.pad.dbg.bp 0))

-- Pod stops (R448)

/-- A debug message to a panel. -/
def State.sendPod (s : State) (panel : Nat) (b : PodBody) : State :=
  s.toPanel panel 1
    { window := 0, route := { panel := panel, kind := 0, hx := 0, hy := 0, peer := s.panel.panelno.toNat % 32 }, senders := [],
      back := 0, body := b }

/-- A DPODCMD at the bellwether goes to every panel it serves. -/
def State.podCommand (s : State) (b : PodBody) : State :=
  let d := (s.fn 0).dbg.dpod
  if !bit d 63 ∨ (s.fn 0).inSession then s
  else ((List.range 32).filter fun n => bit d n).foldl (fun s n => s.sendPod n b) s

def execDpodcmdStop (v : W64) (s : State) : Out := .next (s.podCommand (.stop (bits v 31 16)))

/-- GO also clears every bit of DPODSTAT. -/
def execDpodcmdGo (v : W64) (s : State) : Out :=
  .next ((if bit (s.fn 0).dbg.dpod 63 then s.modFn 0 fun f => { f with dbg := { f.dbg with podstat := 0 } } else s).podCommand
    (.go (bits v 31 16)))

/-- The paddocks of a pod tag that run on this panel. -/
def State.tagged (s : State) (tag : Nat) : List Nat :=
  (s.pads.filter fun e =>
    e.2.state == .running && tag != 0 && bits e.2.dbg.djob 15 0 == tag && !(s.fn e.2.fn).inSession).map (·.1)

/-- What a debug message does on this panel. -/
def State.podApply (s : State) (m : PodMsg) : State :=
  match m.body with
  | .stop tag =>
    let s := (s.tagged tag).foldl State.stopPad s
    { s with panel := { s.panel with podStops := s.panel.podStops ++ [(tag, m.route.peer)] } }
  | .go tag =>
    let s := (s.tagged tag).foldl State.goPad s
    { s with panel := { s.panel with podStops := s.panel.podStops.filter (·.1 != tag) } }
  | .stopped =>
    s.modFn 0 fun f => { f with dbg := { f.dbg with podstat := f.dbg.podstat ||| fld 1 m.route.peer } }
  | _ => s

def PodBody.isDebug : PodBody → Bool
  | .stop _ => true
  | .go _ => true
  | .stopped => true
  | _ => false

/-- Debug messages that are due, and answers to pod stops whose paddocks all stand. -/
def State.podTurn (s : State) : State :=
  let due := s.panel.fabric.filter fun x => decide (x.1 ≤ s.dtick) && x.2.body.isDebug
  let s := due.foldl (fun s x => ({ s with panel := s.panel.dropMsg x }).podApply x.2) s
  let ready := fun (s : State) (x : Nat × Nat) => (s.tagged x.1).all fun k => (s.padAt k).isStopped
  let ends := s.panel.podStops.filter (ready s)
  let s := { s with panel := { s.panel with podStops := s.panel.podStops.filter fun x => !ready s x } }
  ends.foldl (fun s x => s.sendPod x.2 .stopped) s

-- The trace ring (R449 to R451)

def tcfgMask : W64 := span 63 57 ||| span 51 48 ||| span 39 32

/-- TCFG: while EN is 1 only a write that clears it; setting it starts TDROP afresh. -/
def execTcfgWrite (fn : Nat) (v : W64) (s : State) : Out :=
  let f := s.fn fn
  let on := bit f.dbg.tcfg 63
  if f.inSession || (on && bit v 63) then .next s
  else
    .next (s.setFn fn { f with dbg := { f.dbg with tcfg := v &&& tcfgMask, tdrop := if bit v 63 then 0 else f.dbg.tdrop } })

def execThead (fn : Nat) (v : W64) (s : State) : Out :=
  .next (s.modFn fn fun f => { f with dbg := { f.dbg with thead := bits v 31 0 } })

/-- Records of the trace ring. -/
def DebugBlock.ringSize (d : DebugBlock) : Nat := 2 ^ (Nat.min 12 (bits d.tcfg 51 48) + 8)

/-- The function's ring takes a record. -/
def Func.ringTakes (f : Func) : Bool :=
  bit f.dbg.tcfg 63 && !f.inSession && diff32 f.dbg.ttail f.dbg.thead != f.dbg.ringSize

/-- The words of a record (Table 18-10). -/
def TraceRec.words (r : TraceRec) : List W64 :=
  [fld r.kind 56 ||| fld (r.aux % 256) 48 ||| fld r.drop 32 ||| fld (r.src % 2 ^ 32) 0, w64 r.seq, r.time, r.data]

/-- A record enters a function's ring. -/
def State.putTrace (s : State) (fn : Nat) (r : TraceRec) : State :=
  let d := (s.fn fn).dbg
  let s := s.hostWrite fn (d.tbase.toNat + 32 * (d.ttail % d.ringSize)) (r.words.flatMap fun w => natLE 8 w.toNat)
  s.modFn fn fun f => { f with dbg := { f.dbg with ttail := (f.dbg.ttail + 1) % 2 ^ 32 } }

/-- Sources with a record that its ring takes: tiles, and the Shepherd (none). -/
def State.traceSources (s : State) : List (Option Ctx) :=
  let shep := match s.panel.shepBuf with
    | (fn, _) :: _ => if (s.fn fn).ringTakes then [none] else []
    | [] => []
  shep ++ s.pads.flatMap fun e =>
    if (s.fn e.2.fn).ringTakes then
      (e.2.tiles.filter fun t => !t.2.obs.buf.isEmpty).map fun t => some { pad := e.1, tile := t.1 }
    else []

/-- TRACE_RECORD_WRITE: the next record of one source enters its function's ring; which source is a free value. -/
def execTraceRecordWrite (s : State) : Out :=
  let src := s.traceSources
  let n := Config.traceSource s.free % src.length
  let s' := { s with free := s.free + 1 }
  match src[n]? with
  | none => .next s
  | some none =>
    match s.panel.shepBuf with
    | (fn, r) :: rest => .next ({ s' with panel := { s.panel with shepBuf := rest } }.putTrace fn r)
    | [] => .next s
  | some (some c) =>
    let at' := { s' with cur := c }
    match at'.tile.obs.buf with
    | r :: rest =>
      let s' := at'.modTile fun t => { t with obs := { t.obs with buf := rest } }
      .next { s'.putTrace s'.pad.fn r with cur := s.cur }
    | [] => .next s

/-- TRACE_SAMPLE: the current tile's record on a region cycle that SPER divides. -/
def State.sample (s : State) : State :=
  let per := bits (s.fn s.pad.fn).dbg.tcfg 39 32
  if 10 ≤ per ∧ per ≤ 40 ∧ s.pad.rtick % 2 ^ per = 0 then
    let t := s.tile
    let head := fun (q : Queue) => bits q.stat 47 32
    s.traceTile 1 0 s.pad.rtick
      (fld (head t.dq) 48 ||| fld (head t.vq) 32 ||| fld (head t.mq) 16 ||| fld (bits t.core.pc 12 0) 0)
  else s

def execTraceSample (s : State) : Out := .next s.sample

end Sys2Proof.Machine
end

