-- ==== Sys2Proof/Machine/Sync.lean ====
section
/-!
DEFINITION. Machine/Sync.lean: semaphores, folds and window counters as the S slot uses them, the advance and the poison of
folds (R365 to R383, R396, R409, R410).
-/
namespace Sys2Proof.Machine

/-- Semaphore q of the current tile as an object. -/
def State.semObj (s : State) (q : Nat) : Obj := .sem s.cur.tile q

/-- A wait that is false at issue: TIMING (WAIT) in a strict stint, a stall in a loose one (Table 14-2). -/
def State.waitFalse (s : State) (detail : Nat) : Verdict :=
  if s.strict then .fault (timingFault .s 0x08 detail s.pad.rtick) else .stall

/-- The last cycle of a timed wait: its first presentation and the limit (R373). -/
def State.timedOut (s : State) (limit : W64) : Bool :=
  decide (s.tile.core.waitFrom.getD s.pad.rtick + limit.toNat ≤ s.pad.rtick)

/-- The verdict of a timed wait: a limit above 0 is TIMING (WAIT) in a strict stint; otherwise it issues when its condition
holds or its limit has run out (R373, R378). -/
def State.timedCheck (s : State) (detail : Nat) (limit : W64) (cond : Bool) (acq : Verdict) : Verdict :=
  if s.strict && limit != 0 then .fault (timingFault .s 0x08 detail s.pad.rtick)
  else if cond then acq
  else if s.timedOut limit then .ok
  else .stall

-- Semaphores (R368 to R374)

/-- SYNC_POISON of a semaphore (R374). -/
def State.semPoison (s : State) (q : Nat) : Verdict :=
  failIf (s.tile.sync.isPoisoned q) (sFault .syncPoison (w64 q))

/-- The condition of a wait. -/
def State.semHas (s : State) (q amount : Nat) : Bool := decide (amount ≤ (s.tile.sync.sem q).toNat)

def State.semsigCheck (s : State) (set : Bool) (i : Instr) (q : Nat) : Verdict :=
  (s.noSvc .s i).or
    ((if set then failIf (!s.inK) (sFault .privilege 0) else s.semPoison q).or (s.scopeCheck (s.semObj q)))

def State.semsig (s : State) (set : Bool) (q amount : Nat) : State :=
  s.modSync fun y =>
    if set then { y with set := FMap.put y.set q (BitVec.ofNat 16 amount), poison := nsDel y.poison q }
    else y.signal q amount

def execSemsig (set : Bool) (a : Reg) (n : BitVec 6) (q : BitVec 8) (s : State) : Out :=
  s.issue (s.semsigCheck set (.semsig set a n q) q.toNat) (s.semsig set q.toNat (semAmount (s.rd a) n))

def State.semwtCheck (s : State) (i : Instr) (q amount : Nat) : Verdict :=
  (s.noSvc .s i).or ((s.semPoison q).or
    (if s.semHas q amount then s.scopeCheck (s.semObj q) else s.waitFalse q))

def execSemwt (a : Reg) (n : BitVec 6) (q : BitVec 8) (s : State) : Out :=
  s.issue (s.semwtCheck (.semwt a n q) q.toNat (semAmount (s.rd a) n))
    (s.modSync fun y => y.take q.toNat (semAmount (s.rd a) n))

def State.semtstCheck (s : State) (i : Instr) (q : Nat) : Verdict := (s.noSvc .s i).or (s.semPoison q)

def execSemtst (d a : Reg) (n : BitVec 6) (q : BitVec 8) (s : State) : Out :=
  s.issue (s.semtstCheck (.semtst d a n q) q.toNat)
    (s.later d (boolW (s.semHas q.toNat (semAmount (s.rd a) n))) 1)

def execSemrd (d : Reg) (q : BitVec 8) (s : State) : Out :=
  s.issue (s.semtstCheck (.semrd d q) q.toNat) (s.later d ((s.tile.sync.sem q.toNat).setWidth 64) 1)

def State.semwttCheck (s : State) (i : Instr) (q amount : Nat) (limit : W64) : Verdict :=
  (s.noSvc .s i).or ((s.semPoison q).or
    (s.timedCheck q limit (s.semHas q amount) (s.scopeCheck (s.semObj q))))

def execSemwtt (d a b : Reg) (q : BitVec 8) (s : State) : Out :=
  let amount := semAmount (s.rd a) 0
  s.issue (s.semwttCheck (.semwtt d a b q) q.toNat amount (s.rd b))
    (if s.semHas q.toNat amount then (s.modSync fun y => y.take q.toNat amount).later d 1 1 else s.later d 0 1)

-- Folds (R375 to R380)

/-- The fold f when the current tile is a member (R377). -/
def State.foldOf (s : State) (f : Nat) : Option Fold :=
  match FMap.get? s.pad.folds f with
  | some o => if o.members.contains s.cur.tile then some o else none
  | none => none

def State.foldObj (s : State) (f : Nat) : Obj := .fold f (s.pad.foldHome f)

/-- PROTECTION of a fold instruction, with its reason (R377). -/
def foldProtect (f reason : Nat) : FaultInfo := sFault .protection (fld 0xF0 56 ||| fld f 8 ||| fld reason 0)

/-- Membership and poison (R377, R409). -/
def State.foldCheck (s : State) (f : Nat) : Verdict :=
  match s.foldOf f with
  | none => .fault (foldProtect f 1)
  | some o => failIf o.poison (sFault .syncPoison (w64 f))

/-- Checks of an arrival (R377). -/
def State.arriveCheck (s : State) (f : Nat) : Verdict :=
  (s.foldCheck f).or
    ((match s.foldOf f with
      | some o => failIf (o.arr s.cur.tile) (foldProtect f 2)
      | none => .ok).or (s.scopeCheck (s.foldObj f)))

/-- An arrival; the last one fixes the cycle on which the advance is visible (R375). -/
def Fold.arrive (o : Fold) (me now : Nat) : Fold :=
  let a := FMap.put o.arrived me now
  { o with arrived := a,
           advance := if o.members.all fun m => (FMap.get? a m).isSome then some (now + o.lat) else o.advance }

def State.arrive (s : State) (f : Nat) : State :=
  s.modPad fun p => { p with folds := FMap.modify p.folds f fun o => o.arrive s.cur.tile p.rtick }

/-- The phase of a fold. -/
def State.foldPhase (s : State) (f : Nat) : BitVec 32 :=
  match FMap.get? s.pad.folds f with
  | some o => o.phase
  | none => 0

def execFarv (d : Reg) (f : BitVec 8) (s : State) : Out :=
  s.issue ((s.noSvc .s (.farv d f)).or (s.arriveCheck f.toNat))
    ((s.arrive f.toNat).later d ((s.foldPhase f.toNat).setWidth 64) 1)

/-- Phases past a token, signed (R378). -/
def State.foldDiff (s : State) (f : Nat) (token : W64) : Int := (s.foldPhase f - token.setWidth 32).toInt

/-- The status a satisfied wait returns: DONE, and STALE when a further phase has passed (R378). -/
def foldStatus (diff : Int) : W64 := if 2 ≤ diff then 3 else 1

def State.fwtCheck (s : State) (i : Instr) (f : Nat) (token : W64) : Verdict :=
  (s.noSvc .s i).or ((s.foldCheck f).or
    (if 1 ≤ s.foldDiff f token then s.scopeCheck (s.foldObj f) else s.waitFalse f))

def execFwt (d a : Reg) (f : BitVec 8) (s : State) : Out :=
  s.issue (s.fwtCheck (.fwt d a f) f.toNat (s.rd a)) (s.later d (foldStatus (s.foldDiff f.toNat (s.rd a))) 1)

def State.fwttCheck (s : State) (i : Instr) (f : Nat) (token limit : W64) : Verdict :=
  (s.noSvc .s i).or ((s.foldCheck f).or
    (s.timedCheck f limit (decide (1 ≤ s.foldDiff f token)) (s.scopeCheck (s.foldObj f))))

def execFwtt (d a b : Reg) (f : BitVec 8) (s : State) : Out :=
  let diff := s.foldDiff f.toNat (s.rd a)
  s.issue (s.fwttCheck (.fwtt d a b f) f.toNat (s.rd a) (s.rd b))
    (s.later d (if 1 ≤ diff then foldStatus diff else 0) 1)

/-- The slot of a fold in foldmem (R375). -/
def State.foldSlot (s : State) (f : Nat) : Nat := (s.pad.slots s.cur.tile).findIdx fun e => e.1 == f

/-- The hold of an FBAR (R379). -/
def State.fbarHold (s : State) (a : Reg) (n : BitVec 6) : Nat := (s.rd a + n.setWidth 64).toNat

def execFbar (d a : Reg) (n : BitVec 6) (f : BitVec 8) (s : State) : Out :=
  s.issue (((s.noSvc .s (.fbar d a n f)).or (s.noDelay (.fbar d a n f))).or (s.arriveCheck f.toNat))
    (((s.arrive f.toNat).later d ((s.foldPhase f.toNat).setWidth 64) 1).modCore fun c =>
      { c with hold := .fbar (s.fbarHold a n) (s.foldSlot f.toNat) (s.foldPhase f.toNat) })

/-- The poison of the fold in a slot, that a holding waiter meets (R409). -/
def State.foldPoison (s : State) (slot : Nat) : Verdict :=
  match (s.pad.slots s.cur.tile)[slot]? with
  | none => .ok
  | some e => failIf e.2.poison (sFault .syncPoison (w64 e.1))

/-- The end of an FBAR hold: the acquire and the next bundle, TIMING (WAIT), SYNC_POISON, or a longer hold (R379, R409). -/
def State.fbarEnd (s : State) (slot : Nat) (tok : BitVec 32) : Verdict :=
  match (s.pad.slots s.cur.tile)[slot]? with
  | none => .ok
  | some e =>
    (s.foldPoison slot).or
      (if 1 ≤ (e.2.phase - tok).toInt then s.scopeCheck (s.foldObj e.1) else s.waitFalse e.1)

/-- What becomes visible of a fold on the next cycle: a reset by syncrst, or the advance (R375, R410). -/
def Fold.turn (o : Fold) (now : Nat) : Fold :=
  if o.resetAt == some (now + 1) then
    { o with phase := 0, arrived := [], advance := none, poison := false, resetAt := none }
  else if o.advance == some (now + 1) then { o with phase := o.phase + 1, arrived := [], advance := none }
  else o

/-- FOLD_ADVANCE: the advance of fold f becomes visible at every member on one cycle. -/
def execFoldAdvance (f : Nat) (s : State) : Out :=
  .next (s.modPad fun p => { p with folds := FMap.modify p.folds f fun o => o.turn p.rtick })

-- Window counters (R381 to R383)

def State.winPoison (s : State) (w : Nat) : Verdict :=
  failIf (s.tile.sync.wpoison.contains w) (sFault .syncPoison (w64 w))

def State.wacqCheck (s : State) (i : Instr) (w : Nat) (n : W64) : Verdict :=
  (s.noSvc .s i).or ((s.winPoison w).or
    (if n.toNat ≤ (Regs.rd s.tile.sync.wrecv w).toNat then s.scopeCheck (.window w s.cur.tile) else s.waitFalse w))

def execWacq (a : Reg) (w : BitVec 6) (s : State) : Out :=
  s.issue (s.wacqCheck (.wacq a w) w.toNat (s.rd a)) s

def execWrd (recv : Bool) (d : Reg) (w : BitVec 6) (s : State) : Out :=
  s.issue ((s.noSvc .s (.wrd recv d w)).or (s.winPoison w.toNat))
    (s.later d (Regs.rd (if recv then s.tile.sync.wrecv else s.tile.sync.wsent) w.toNat) 1)

-- Poison (R368, R409)

/-- SYNC_OBJECT_POISONED: an uncorrectable error in the storage of a semaphore or window of the current tile, or of a fold
of its paddock. -/
def execSyncObjectPoisoned (o : SyncObj) (s : State) : Out :=
  match o with
  | .sem q => .next (s.modSync fun y => { y with poison := nsAdd y.poison q })
  | .window w => .next (s.modSync fun y => { y with wpoison := nsAdd y.wpoison w })
  | .fold f => .next (s.modPad fun p => { p with folds := FMap.modify p.folds f fun o => { o with poison := true } })

end Sys2Proof.Machine
end

