-- ==== Sys2Proof/Machine/Issue.lean ====
section
/-!
DEFINITION. Machine/Issue.lean: how a tile presents a bundle: fetch, decode in slot order, guards, issue checks, the
conditions of a cycle, holds, and what its tiles present together (R44, R97, R98, R113 to R115, R133, R145, R384, R386,
R420, R424).
-/
namespace Sys2Proof.Machine

-- Fetch and decode (R97, R98, R113, R114)

/-- The bundle at the program counter of the current tile: the state after its words met their codes, and its bits, or the
store offset of a poisoned word. -/
def State.fetch (s : State) : State × Except Nat BundleBits :=
  let r := s.tile.st.istore.read (24 * s.tile.core.pc.toNat) 24
  (s.modTile fun t => { t with st := { t.st with istore := r.1 } }, r.2.map fun bs => BitVec.ofNat 192 (leNat bs))

/-- The checks of decode that depend on the tile: the entry and the companions of a UOPn, the table of an MWB (R113 item 3,
R227, R326). -/
def State.ctxOk (s : State) (bs : BundleBits) : Instr → Bool
  | .uopn n _ _ _ => bit (Regs.rd s.tile.st.binds n.toNat) 63 && bs.extractLsb' 48 144 == 0
  | .mwb e => !s.mwbIllegal e
  | _ => true

/-- The syllable of a slot, when it is legal here. -/
def State.syllable (s : State) (bs : BundleBits) (sl : Slot) : Option Syllable :=
  match decodeSyllable sl (bundleSyl bs sl) with
  | .ok y => if s.ctxOk bs y.instr then some y else none
  | .error _ => none

def slotOrder : List Slot := [.s, .m, .v, .d]

/-- The first illegal syllable in slot order. -/
def State.illegalSlot (s : State) (bs : BundleBits) : Option Slot :=
  slotOrder.find? fun sl => (s.syllable bs sl).isNone

/-- ILLEGAL_SYLLABLE of a slot with its word (R114). -/
def illegalWord (bs : BundleBits) (sl : Slot) : FaultInfo :=
  { illegal sl .nop with t3 := (bundleSyl bs sl).setWidth 64 }

-- Guards (R102)

/-- The guard lets its syllable execute. -/
def State.guardHolds (s : State) (g : Guard) : Bool := g.reg == 0 || bit (s.rd g.reg) g.bit.toNat != g.neg

/-- KWR of syncrst is told apart by the kind it writes (R410). -/
def State.resolve (s : State) : Instr → Instr
  | .kwr k a =>
    if k = 0x66 then
      (if bits (s.rd a) 15 8 = 2 then .kwrSyncrstFold a
       else if bits (s.rd a) 15 8 = 3 then .kwrSyncrstWindow a else .kwr k a)
    else .kwr k a
  | i => i

/-- The instruction of a slot that executes: its guard holds and it is no NOP. -/
def State.executing (s : State) (bs : BundleBits) (sl : Slot) : Option Instr :=
  match s.syllable bs sl with
  | some y => if s.guardHolds y.guard && !y.instr.isNop then some (s.resolve y.instr) else none
  | none => none

-- Issue checks (R115)

/-- dly of an EN syllable. -/
def instrDelay : Instr → Nat
  | .mgo e | .mma e | .mzero e | .mwb e | .mscl e | .mpop e | .mvwin e | .vchain e | .dcopy e | .dgather e | .dscatter e
  | .dfill e | .dput e | .dget e | .dputadd e | .damo e | .dtab e | .dfence e => e.dly.toNat
  | _ => 0

/-- What the issue checks of an S syllable say (each instruction's own, R115). -/
def State.scalarVerdict (s : State) (i : Instr) : Verdict :=
  match i with
  | .br _ | .call _ | .ret _ | .jr _ _ => s.noDelay i
  | .loop _ len l => s.loopCheck i l.toNat len.toNat
  | .loopi _ len l => s.loopCheck i l.toNat len.toNat
  | .lbrk len l => s.lbrkCheck i l.toNat len.toNat
  | .idle _ _ | .ppt _ | .halt => (s.noSvc .s i).or (s.noDelay i)
  | .align => s.alignCheck
  | .eret => s.eretCheck
  | .ld w _ a off | .ldz w _ a off => s.ldCheck w a off
  | .st w _ a off => s.stCheck w a off
  | .ldp _ a off => s.ldpCheck a off
  | .stp _ a off => s.stpCheck a off
  | .str _ a dx dy => (s.noSvc .s i).or (s.strCheck a dx dy)
  | .spill _ a off => s.spillCheck a off
  | .amo _ t _ _ a _ => (s.noSvc .s i).or (s.amoCheck a t.bytes)
  | .amocas t _ _ a _ => (s.noSvc .s i).or (s.amoCheck a t.bytes)
  | .famoadd t _ _ _ a _ => (s.noSvc .s i).or (s.amoCheck a t.bytes)
  | .semsig set _ _ q => s.semsigCheck set i q.toNat
  | .semwt a n q => s.semwtCheck i q.toNat (semAmount (s.rd a) n)
  | .semtst _ _ _ q => s.semtstCheck i q.toNat
  | .semrd _ q => s.semtstCheck i q.toNat
  | .semwtt _ a b q => s.semwttCheck i q.toNat (semAmount (s.rd a) 0) (s.rd b)
  | .farv _ f => (s.noSvc .s i).or (s.arriveCheck f.toNat)
  | .fwt _ a f => s.fwtCheck i f.toNat (s.rd a)
  | .fwtt _ a b f => s.fwttCheck i f.toNat (s.rd a) (s.rd b)
  | .fbar _ _ _ f => ((s.noSvc .s i).or (s.noDelay i)).or (s.arriveCheck f.toNat)
  | .wacq a w => s.wacqCheck i w.toNat (s.rd a)
  | .wrd _ _ w => (s.noSvc .s i).or (s.winPoison w.toNat)
  | .krd _ k => s.krdCheck k.toNat
  | .kwr k _ => s.kwrCheck k.toNat
  | .kwrTimer _ => s.kwrCheck kTimer
  | .kwrPoolscope _ => s.kwrCheck kPoolscope
  | .kwrLosssel _ => s.kwrCheck 0x77
  | .kwrLossval _ => s.kwrCheck 0x78
  | .kwrTrcemit _ => s.kwrCheck 0x79
  | .kwrSyncrstFold _ | .kwrSyncrstWindow _ => s.kwrCheck 0x66
  | .kwrWdesc w _ => s.kwrCheck (kWdesc + w.toNat)
  | .kwrWmap w _ => s.kwrCheck (kWmap + w.toNat)
  | .mbwr _ _ => s.mbwrCheck
  | .caprd _ a k => s.capCheck a k
  | .msload a _ => s.msloadCheck (s.rd a)
  | .msbind _ _ => failIf (!s.inK) (sFault .privilege 0)
  | .msrd e _ a => s.msrdCheck e (s.rd a)
  | .uopn n d a b => s.uopnCheck n d a b
  | _ => .ok

/-- The issue checks of the syllable executing in a slot; an illegal one is reported with its own word. -/
def State.slotVerdict (s : State) (bs : BundleBits) (sl : Slot) : Verdict :=
  match s.executing bs sl with
  | none => .ok
  | some i =>
    match (match sl with
      | .s => s.scalarVerdict i
      | _ => s.pushCheck sl i (instrDelay i)) with
    | .fault f => .fault (if f.cause = .illegalSyllable then illegalWord bs sl else f)
    | v => v

/-- Verdicts of a bundle: the first fault in slot order, else a stall (R115, R141). -/
def Verdict.all (vs : List Verdict) : Verdict :=
  match vs.find? (fun v => v != .ok && v != .stall) with
  | some v => v
  | none => if vs.contains .stall then .stall else .ok

/-- What the bundle at the program counter comes to on this cycle. -/
inductive Plan where
  | fault (f : FaultInfo)
  | stall
  | go (bs : BundleBits)
  deriving DecidableEq, Repr

/-- The bundle whose bits were read: decode, then the issue checks. -/
def State.planBits (s : State) (bs : BundleBits) : Plan :=
  match s.illegalSlot bs with
  | some sl => .fault (illegalWord bs sl)
  | none =>
    match Verdict.all (slotOrder.map (s.slotVerdict bs)) with
    | .fault f => .fault f
    | .stall => .stall
    | .ok => .go bs

/-- The bundle at the program counter: MISALIGN beyond the store, poison of its words, decode and issue checks. -/
def State.plan (s : State) : Plan :=
  if 5460 < s.tile.core.pc.toNat then .fault (sFault .misalign (bundleAddr s.tile.core.pc))
  else
    match s.fetch.2 with
    | .error a => .fault (sFault .dataPoison (w64 a))
    | .ok bs => s.planBits bs

-- Issue (R100, R133, R214)

/-- Go on from an outcome. -/
def Out.bind (o : Out) (f : State → Out) : Out :=
  match o with
  | .next s => f s
  | .fault r => .fault r
  | .refused r => .refused r

/-- The syllables that execute, engine slots first: what each copies is what stands at issue. -/
def State.runList (s : State) (bs : BundleBits) : List Instr :=
  [Slot.m, .v, .d, .s].filterMap (s.executing bs)

/-- After the syllables of a bundle: micro-cycle 0 of a run it began, else the next bundle in fetch order (R151, R214). -/
def State.afterIssue (s : State) : State :=
  match s.tile.core.hold with
  | .uop r => s.microCycle r
  | _ => s.finishBundle

/-- The conditions that the bundle at the program counter meets on this cycle, in slot order; one that does not decode meets no issue
check (R113, R115, R145). -/
def State.bundleFaults (s : State) : List FaultInfo :=
  if 5460 < s.tile.core.pc.toNat then [sFault .misalign (bundleAddr s.tile.core.pc)]
  else
    match s.fetch.2 with
    | .error a => [sFault .dataPoison (w64 a)]
    | .ok bs =>
      match s.illegalSlot bs with
      | some sl => [illegalWord bs sl]
      | none => (slotOrder.map (s.slotVerdict bs)).filterMap fun v =>
          match v with
          | .fault f => some f
          | _ => none

/-- Issue the executing syllables of a bundle, with the meaning of each as given. -/
def State.issueBundle (ex : Instr → State → Out) (s : State) (bs : BundleBits) : Out :=
  Out.bind ((s.runList bs).foldl (fun o i => Out.bind o (ex i)) (.next s.breakBundle)) fun s => .next s.afterIssue

-- The conditions of a cycle (R145, R420, R424)

/-- Rank of a condition among those of its engine (R145): HEAD, BUSY, the poison of a semaphore, FLAG, OPERAND, DEADLINE, the others. -/
def FaultInfo.place (f : FaultInfo) : Nat :=
  match f.cause with
  | .timing =>
    match bits f.t3 7 0 with
    | 0x03 => 0
    | 0x04 => 1
    | 0x05 => 3
    | 0x06 => 4
    | 0x07 => 5
    | _ => 6
  | .syncPoison => if f.wq then 2 else 6
  | _ => 6

/-- Rank of a condition recognised on a cycle: engines in order, the ALIGNIV count and what a whole paddock meets, accesses
and BREAK, the timer. -/
def FaultInfo.rank (f : FaultInfo) : Nat :=
  if f.eng then 8 * slotNo f.unit + f.place
  else match f.cause with
    | .timing => 32
    | .pauseptInvalid => 34
    | .timer => 35
    | _ => 33

/-- Insertion by rank, after those of the same rank. -/
def insertRank (f : FaultInfo) : List FaultInfo → List FaultInfo
  | [] => [f]
  | g :: gs => if f.rank < g.rank then f :: g :: gs else g :: insertRank f gs

def sortRank (fs : List FaultInfo) : List FaultInfo := fs.foldl (fun l f => insertRank f l) []

/-- A run is at or past its UCMT, so that whatever is raised from without waits until the hold ends (R224). -/
def State.protects (s : State) : Bool :=
  match s.tile.core.hold with
  | .uop r =>
    r.committed ||
      (r.hbmWait.isNone && decide (r.pos < r.seqLen) && (s.uopAt r r.pos).code == uUCMT &&
        !s.tile.core.conds.any (·.uop))
  | _ => false

/-- The conditions of a cycle: those raised now, in order; those held, tile-local ones until an ERET has issued; and those that wait
for the end of a committed run (R224, R424). -/
structure Raised where
  now : List FaultInfo
  held : List FaultInfo
  waiting : List FaultInfo
  deriving DecidableEq, Repr

def State.raised (s : State) : Raised :=
  let c := s.tile.core
  let goes := fun (f : FaultInfo) => f.cause.wide s.strict || c.returned
  let new := sortRank c.conds
  if s.protects then { now := [], held := c.held, waiting := c.waiting ++ new }
  else { now := c.waiting ++ c.held.filter goes ++ new, held := c.held.filter fun f => !goes f, waiting := [] }

/-- The conditions of a cycle are dealt with: none is new any more, and these stay. -/
def State.settled (s : State) (held waiting : List FaultInfo) : State :=
  s.modCore fun c => { c with conds := [], returned := false, held := held, waiting := waiting }

/-- A loose TIMER is due here (R430). -/
def State.timerDue (s : State) : Bool :=
  let c := s.tile.core
  bit (s.ctl kTimer) 63 && c.tie && !c.priv && !s.strict && !c.halted && !c.svc

def State.timerFault (s : State) : FaultInfo := sFault .timer (w64 s.tile.core.pendAt)

-- Holds

/-- Where the tile stands before it presents a bundle. -/
inductive Ready where
  | wait (s : State)
  | bundle (s : State)

/-- A cycle of a hold passes, or the hold is over and the bundle at the program counter is due (R194, R214, R379). -/
def State.passHold (s : State) : Ready :=
  let c := s.tile.core
  let set := fun (h : Hold) => s.modCore fun c => { c with hold := h }
  if c.halted then .wait s
  else if c.entering && !(c.pend.isEmpty && c.acc.isEmpty) then .wait s
  else
    let s := if c.entering then s.modCore fun c => { c with entering := false } else s
    match c.hold with
    | .none => .bundle s
    | .idle 0 => .bundle (set .none)
    | .idle (n + 1) => .wait (set (.idle n))
    | .fbar (n + 1) k tok =>
      match s.foldPoison k with
      | .fault f => .wait (s.takeFault f)
      | _ => .wait (set (.fbar n k tok))
    | .fbar 0 k tok =>
      match s.fbarEnd k tok with
      | .ok => .bundle (set .none)
      | .stall => .wait s
      | .fault f => .wait (s.takeFault f)
    | .uop r =>
      match r.hbmWait with
      | some t => .wait (if t ≤ s.pad.rtick then s.uopResume else s)
      | none => .wait (s.microCycle r)

/-- TRAP_ENTRY: the first condition to raise at the current tile is taken in place of its bundle; the others stay held (R420,
R421, R424). -/
def execTrapEntry (s : State) : Out :=
  let r := s.raised
  match r.now with
  | f :: fs => .next ((s.settled (fs ++ r.held) r.waiting).takeFault f)
  | [] => .next s

/-- The tile has taken a trap or a fault on this cycle. -/
def Core.trapped (c : Core) : Bool := c.entering || c.faulted

/-- Conditions of this cycle that are not the one reported stay held (R424). -/
def State.holdMore (s : State) (fs : List FaultInfo) : State := s.modCore fun c => { c with held := c.held ++ fs }

/-- What an FBAR's hold meets on this cycle: poison of its fold, and at its end what R379 raises there. -/
def State.barFault (s : State) : Option FaultInfo :=
  let found := fun (v : Verdict) => match v with
    | .fault f => some f
    | _ => none
  match s.tile.core.hold with
  | .fbar 0 k tok => found (s.fbarEnd k tok)
  | .fbar (_ + 1) k _ => found (s.foldPoison k)
  | _ => none

/-- The conditions of the bundle that is due on this cycle, or of the FBAR that holds it, where another condition is taken in its place
(R145, R379, R424). -/
def State.displaced (s : State) : List FaultInfo :=
  match (s.settled [] []).passHold with
  | .wait _ => s.barFault.toList
  | .bundle t => t.bundleFaults

/-- A tile presents its bundle, or takes what its cycle recognised instead (R115, R420, R424). -/
def State.present (ex : Instr → State → Out) (s : State) : Out :=
  let r := s.raised
  if s.tile.core.faulted then .next (s.settled [] [])
  else
    match r.now with
    | _ :: _ => Out.bind (execTrapEntry s) fun t => .next (t.holdMore s.displaced)
    | [] =>
      let timer := s.timerDue && !s.protects
      let s := s.settled r.held r.waiting
      match s.passHold with
      | .wait t => .next (if timer && !t.tile.core.trapped then s.takeFault s.timerFault else t)
      | .bundle s =>
        match s.plan with
        | .fault f =>
          let t := if 5460 < s.tile.core.pc.toNat then s else s.fetch.1
          .next ((t.takeFault f).holdMore (s.bundleFaults.drop 1))
        | .stall => .next (if timer then s.takeFault s.timerFault else s.fetch.1.stall)
        | .go bs => if timer then .next (s.takeFault s.timerFault) else s.fetch.1.issueBundle ex bs

-- What the tiles of a paddock present together (R44, R384, R386)

/-- The S syllable a tile would issue on this cycle, and whether an engine syllable executes beside it; nothing when the tile
will issue nothing. -/
def State.offer (s : State) : Option (Option Instr × Bool) :=
  if s.tile.core.faulted || !s.raised.now.isEmpty || s.timerDue then none
  else
    match s.passHold with
    | .wait _ => none
    | .bundle s =>
      match s.plan with
      | .go bs => some (s.executing bs .s, [Slot.m, .v, .d].any fun sl => (s.executing bs sl).isSome)
      | .fault _ => none
      | .stall =>
        match s.fetch.2 with
        | .ok bs =>
          let engines := [Slot.m, .v, .d].map (s.slotVerdict bs)
          if s.executing bs .s = some .align && !engines.contains .stall then some (some .align, engines.any (· != .ok)) else none
        | .error _ => none

/-- The queues of a tile are empty, no matrix reduction holds accumulators, and no transfer, write or loader is outstanding
(R44, R332, R337). -/
def Tile.quiet (t : Tile) : Bool :=
  t.mq.entries.isEmpty && t.vq.entries.isEmpty && t.dq.entries.isEmpty && t.dr.held.isEmpty && t.mx.prods.isEmpty &&
    t.mx.rows.isEmpty && t.mx.loadA.isNone && t.mx.loadB.isNone && t.vec.pend.isEmpty &&
    !t.vec.landed

/-- What each tile that has not halted offers; a tile that issues HALT on this cycle with nothing left counts as halted. -/
def State.offers (s : State) : List (Nat × Option (Option Instr × Bool)) :=
  (s.pad.tiles.filter fun e => !e.2.isDown).filterMap fun e =>
    let o := (s.at e.1).offer
    if o = some (some .halt, false) ∧ { e.2 with core := { e.2.core with halted := true } }.isDown then none
    else some (e.1, o)

def offersAlign (x : Nat × Option (Option Instr × Bool)) : Bool :=
  match x.2 with
  | some (some .align, _) => true
  | _ => false

/-- The class of a PPT that a tile offers. -/
def offersPpt (x : Nat × Option (Option Instr × Bool)) : Option Nat :=
  match x.2 with
  | some (some (.ppt n), _) => some n.toNat
  | _ => none

/-- A tile departs from a pause point: it offers no PPT of the class all offer, or is not quiet (R43, R44). -/
def State.departs (s : State) (os : List (Nat × Option (Option Instr × Bool))) (x : Nat × Option (Option Instr × Bool)) :
    Bool :=
  match offersPpt x with
  | none => true
  | some n =>
    decide (s.pad.shape.nstint ≤ n) || os.any (fun y => match offersPpt y with
      | some m => m != n
      | none => false) || x.2.any (·.2) ||
      !(FMap.getD s.pad.tiles x.1 Tile.init).quiet

/-- A condition at several tiles. -/
def State.condAll (s : State) (ts : List Nat) (f : FaultInfo) : State := ts.foldl (fun s i => s.atTile i fun s => s.cond f) s

/-- The count of R37 has reached ALIGNIV + 1. -/
def Paddock.alignOver (p : Paddock) : Bool := p.shape.alignIv != 0 && p.alignCnt == p.shape.alignIv + 1

/-- ALIGNIV_EXPIRY: TIMING (ALIGNIV) at every tile of the current paddock, halted or not (R37). -/
def execAlignivExpiry (s : State) : Out :=
  .next (if s.pad.alignOver then s.condAll (FMap.keys s.pad.tiles) (timingFault .s 0x0A 0 s.pad.rtick) else s)

/-- The meeting of the tiles before any bundle of a cycle issues: ALIGN by all of them; in a strict stint the departures from
one, which goes before a missed pause point (log entry 75); a pause point and its departures. Answers whether every tile offers
ALIGN. -/
def State.meet (s : State) : State × Bool :=
  let os := s.offers
  let ids := os.map (·.1)
  let aligns := (os.filter offersAlign).length
  if !os.isEmpty ∧ aligns = os.length then
    (ids.foldl (fun s i => s.atTile i fun s => s.modCore fun c => { c with aligning := true }) s, true)
  else if 0 < aligns ∧ s.strict then
    (s.condAll ids (timingFault .s 0x09 (Nat.min 255 (os.length - aligns)) s.pad.rtick), false)
  else if os.any fun x => (offersPpt x).isSome then
    match os.find? (s.departs os) with
    | some x => (s.condAll ids (sFault .pauseptInvalid (w64 x.1)), false)
    | none => (s, false)
  else (s, false)

end Sys2Proof.Machine
end

