-- ==== Sys2Proof/Machine/Repair.lean ====
section
/-!
DEFINITION. Machine/Repair.lean: how a paddock's run ends for good, and how the panel deals with hot, stopped, failed and worn
parts of itself (R29, R161, R426, R427, R455, R462 to R471).
-/
namespace Sys2Proof.Machine

-- The end of a job, and paddock-wide faults (R427, R455)

/-- Every tile of a RUNNING paddock counted as halted on the last cycle, and no fault waits to be reported. -/
def Paddock.jobDone (p : Paddock) : Bool :=
  p.state == .running && p.reports.isEmpty && p.freeze.isNone && decide (0 < p.rtick) && p.tiles.all fun t => t.2.wasDown

/-- A paddock is sealed after cycle c and HALTED, with pending writes landed; its channels stay its own. -/
def State.haltPad (s : State) (k c : Nat) : State :=
  (((s.onPad k fun s => s.eachTile State.vectorFlush).sealPad k c).modPadAt k fun p => { p with state := .halted }).failPending k

/-- JOB_END: the last cycle c_h was the one just ended. -/
def execJobEnd (pad : Nat) (s : State) : Out :=
  let p := s.padAt pad
  .next (if p.jobDone then (s.haltPad pad (p.rtick - 1)).event p.fn evJobEnd p.handle 0 (w64 (p.rtick - 1)) else s)

/-- The report of a fault: the earliest cycle, then the lowest tile. -/
def firstReport : List Report → Option Report
  | [] => none
  | r :: rs =>
    match firstReport rs with
    | none => some r
    | some q => if q.cycle < r.cycle ∨ (q.cycle = r.cycle ∧ q.tile < r.tile) then some q else some r

/-- A paddock with a fault has frozen: it stood still already, or its last cycle has passed. -/
def Paddock.faultDue (p : Paddock) : Bool :=
  p.state == .running && !p.reports.isEmpty &&
    (p.freeze.isSome ||
      (match p.stopAt with
       | some n => decide (n < p.rtick)
       | none => true))

/-- PADDOCK_WIDE_FAULT: the current paddock is HALTED with a FAULT event that names the first report. -/
def execPaddockWideFault (s : State) : Out :=
  let p := s.pad
  match firstReport p.reports with
  | none => .next s
  | some r =>
    if !p.faultDue then .next s
    else
      .next ((s.haltPad s.cur.pad (p.rtick - 1)).event p.fn evFault p.handle
        (fld r.tile 16 ||| fld r.info.cause.code 0) 0)

-- Heat and failure (R29, R471)

/-- RUNNING paddocks that hold a tile of a C-die. -/
def State.padsOn (s : State) (key : Nat) : List Nat :=
  (s.pads.filter fun e => e.2.placed && decide (key < 200) && (e.2.shape.dies e.2.place).contains key).map (·.1)

/-- Each paddock of a hot die is asked to freeze at its next pause point. -/
def State.cool (s : State) (key : Nat) : State :=
  (s.padsOn key).foldl (fun s k =>
    if (s.padAt k).asked .thermal || (s.padAt k).freeze == some .thermal then s else s.request k .thermal none none) s

/-- TEMPERATURE_REPORT of the die at a site, in degrees. The Shepherd's own die keeps its role though it stop above 115 °C (log entry
77). -/
def execTemperatureReport (x y : Nat) (t : Int) (s : State) : Out :=
  let key := siteKey x y
  let d := s.panel.die key
  let d' : Die := { d with temp := t, hot := d.hot || decide (105 < t), stopped := d.stopped || decide (115 < t) }
  let s := { s with panel := { s.panel with dies := FMap.put s.panel.dies key d' } }
  if d.failed ∨ t ≤ 105 then .next s
  else
    let s := if d.hot then s else s.event 0 evThermal noHandle (fld y 8 ||| fld x 0) 0
    .next (if 115 < t ∧ !d.stopped then s.loseDie key d' else if 115 < t then s else s.cool key)

/-- DIE_FAILURE of a C-die; with the Shepherd die goes its role. -/
def execDieFailure (x y : Nat) (s : State) : Out :=
  if (x + y) % 2 ≠ 0 then .next s
  else
    let key := dieAt x y
    let s := if key = s.panel.shep then s.takeRole else s
    .next (s.loseDie key { s.panel.die key with failed := true })

-- Retiring tiles (R463 to R469)

/-- The Shepherd must retire a physical tile (R463). -/
def State.worn (s : State) (ph : Nat) : Bool :=
  let e := s.errCnt ph
  decide (0 < e.unc) || decide (3 ≤ e.recent s.dtick)

/-- A physical tile of a die: row and column. -/
def physDie (ph : Nat) : Nat := ph / 72
def physRow (ph : Nat) : Nat := ph / 9 % 8
def physColumn (ph : Nat) : Nat := ph % 9

/-- The exposed column that stands on a physical column; none where it is fenced. -/
def Panel.exposed (q : Panel) (die row pcol : Nat) : Option Nat := (List.range 8).find? fun e => q.physCol die row e == pcol

/-- A retirement of this physical tile waits or runs. While it waits its column is the physical one. -/
def Panel.retiring (q : Panel) (ph : Nat) : Bool :=
  q.retires.any fun r => r.die == physDie ph && r.row == physRow ph &&
    (match r.stage with
     | .queued => r.col == physColumn ph
     | _ => q.physCol r.die r.row r.col == physColumn ph)

/-- Word 0 of a log entry (R469). -/
def logWord (r : Retire) (kind : Nat) : W64 :=
  fld (dieX r.die) 0 ||| fld (dieY r.die) 8 ||| fld r.row 16 ||| fld r.col 20 ||| fld kind 24 ||| fld r.cause 25

/-- The record of a retirement: its log entry while fewer than 127 stand there, and its event. -/
def State.logRetire (s : State) (r : Retire) (kind : Nat) : State :=
  let w := logWord r kind
  let when := fld (s.panel.power % 2 ^ 32) 32 ||| fld (s.dtick / secs 1 % 2 ^ 32) 0
  let s := if s.panel.log.length < 127 then { s with panel := { s.panel with log := s.panel.log ++ [(w, when)] } } else s
  s.event 0 evRetired noHandle w 0

/-- A tile in a row that cannot shift becomes unavailable, and its paddock is to move (R468). -/
def State.markDead (s : State) (r : Retire) : State :=
  let key := r.die * 8 + r.row
  let q := s.panel
  let b := q.remapByte r.die r.row
  let dead := if 128 ≤ b then nsAdd q.dead (r.die * 64 + r.row * 8 + b / 16 % 8) else q.dead
  let s := { s with panel := { q with dead := dead, remap := FMap.put q.remap key (128 + r.col * 16 + b % 16) } }
  let s := s.logRetire r 1
  (s.holders r.die r.row r.col r.col).foldl (fun s k => s.request k .relocate none (some 5)) s

/-- Every affected paddock that is not asked yet and does not stand frozen for the retirement is asked to freeze: those it begins with,
and one that comes to stand on the row meanwhile (R465). -/
def State.askFreeze (s : State) : State :=
  (s.shifting.filter fun k => !(s.padAt k).asked .retire && (s.padAt k).freeze != some .retire).foldl
    (fun s k => s.request k .retire none (some 5)) s

/-- The first retirement of the queue begins: a row shift asks every affected paddock to freeze. -/
def State.nextRetire (s : State) : Nat → State
  | 0 => s
  | n + 1 =>
    match s.panel.retires with
    | [] => s
    | r :: rest =>
      if r.stage ≠ .queued then s
      else
        match s.panel.exposed r.die r.row r.col with
        | none => State.nextRetire { s with panel := { s.panel with retires := rest } } n
        | some e =>
          let r := { r with col := e }
          if s.panel.shift r.die r.row ≠ 8 then
            State.nextRetire ({ s with panel := { s.panel with retires := rest } }.markDead r) n
          else
            { s with panel := { s.panel with retires := { r with stage := .freezing } :: rest } }.askFreeze

/-- A physical tile that is worn is retired, once: its retirement joins the queue (R463). -/
def State.retireTile (s : State) (ph : Nat) : State :=
  if !s.worn ph || s.panel.retiring ph || s.panel.closed (physDie ph) (physRow ph) (physColumn ph) then s
  else
    let r : Retire := { die := physDie ph, row := physRow ph, col := physColumn ph,
                        cause := (decide (0 < (s.errCnt ph).unc)).toNat, stage := .queued, copied := [] }
    let s := { s with panel := { s.panel with retires := s.panel.retires ++ [r] } }
    s.nextRetire s.panel.retires.length

/-- TILE_RETIREMENT: the tile under the current one is worn, and its retirement joins the queue. -/
def execTileRetirement (s : State) : Out := .next (s.retireTile (s.physOf s.pad s.cur.tile))

/-- Worn tiles that no paddock stands on any more, as its errors showed when it left, are retired too (R462, R463). -/
def State.retireLeft (s : State) : State :=
  (((FMap.keys s.panel.errs).filter fun ph => s.worn ph && (s.onPhys ph).isNone).foldl State.retireTile s)

/-- 4 KiB pieces of a store that hold something. -/
def Store.pieces (st : Store) (tags : List Nat) : Nat :=
  let at4 := fun (l : List Nat) (a : Nat) => nsAdd l (a / 4096)
  let l := st.bytes.foldl (fun l c => if l.getLast? = some (c.1 / 4096) then l else l ++ [c.1 / 4096]) []
  (tags.foldl nsAdd ((st.poison.map (8 * ·)).foldl at4 l)).length

/-- Bytes of a tile's live state (R465). -/
def Tile.liveBytes (t : Tile) : Nat :=
  let tags := (t.st.tags.filter fun e => e.2 != 0).map (·.1)
  4096 * (t.st.pool.pieces tags + t.st.istore.pieces [] + t.st.cstore.pieces [] + t.st.tmem.pieces [] + 1)

/-- Tiles of the affected paddocks that still stand on the row from the failed column on. -/
def State.migrants (s : State) (r : Retire) : List Ctx :=
  (s.holders r.die r.row r.col 7).flatMap fun k =>
    let p := s.padAt k
    (p.shape.all.filter fun i =>
      let x := p.shape.site p.place i
      x / 64 == r.die && x / 8 % 8 == r.row && decide (r.col ≤ x % 8)).map fun i => { pad := k, tile := i }

/-- Every paddock on the affected tiles stands frozen; one that has left them is waited for no more. -/
def State.allFrozen (s : State) (r : Retire) : Bool :=
  (s.holders r.die r.row r.col 7).all fun k => (s.padAt k).freeze == some .retire

/-- The exposed column a tile stands on. -/
def State.columnOf (s : State) (c : Ctx) : Nat := (s.padAt c.pad).shape.site (s.padAt c.pad).place c.tile % 8

/-- Those that have no copy yet, from column 7 down: all of them at first, later the tiles of a paddock that has joined meanwhile. -/
def State.uncopied (s : State) (r : Retire) : List Ctx :=
  (List.range 8).reverse.flatMap fun e =>
    (s.migrants r).filter fun c => s.columnOf c == e && !r.copied.any fun x => x.1 == c

/-- Copies of tiles one after another from dtick t on, at 64 bytes a dtick: each tile with the dtick on which its copy ends. -/
def State.copyRuns (s : State) (t : Nat) : List Ctx → List (Ctx × Nat)
  | [] => []
  | c :: cs =>
    let d := t + (FMap.getD (s.padAt c.pad).tiles c.tile Tile.init).liveBytes / 64
    (c, d) :: s.copyRuns d cs

/-- The dtick on which the last of some copies ends, for copies that begin at t. -/
def lastRun (t : Nat) (l : List (Ctx × Nat)) : Nat := (l.getLast?.map (·.2)).getD t

/-- Copies of a retirement are to begin: every affected paddock stands frozen, and the copies made before are over. -/
def State.copyNow (s : State) (r : Retire) : Bool :=
  s.allFrozen r &&
    (match r.stage with
     | .queued => false
     | .freezing => true
     | .copying t => decide (t ≤ s.dtick) && !(s.uncopied r).isEmpty)

/-- Replace the retirement in progress. -/
def Panel.setRetire (q : Panel) (r : Retire) : Panel := { q with retires := r :: q.retires.drop 1 }

/-- ROW_SHIFT_MIGRATION: the copies run one after another at 64 bytes a dtick; every word copied meets its code. -/
def execRowShiftMigration (s : State) : Out :=
  match s.panel.retires with
  | [] => .next s
  | r :: _ =>
    if !s.copyNow r then .next s
    else
      let cs := s.uncopied r
      let s := cs.foldl (fun s c => s.onPad c.pad fun s => s.atTile c.tile State.readTile) s
      let l := s.copyRuns s.dtick cs
      let d := lastRun s.dtick l
      .next { s with panel := s.panel.setRetire { r with stage := .copying d, copied := r.copied ++ l } }

/-- Errors injected into the physical tile that the current tile comes to stand on: the pieces copied overwrite them, the others hold them
(R465, R475). -/
def State.meetStruck (s : State) : State :=
  let ph := s.physOf s.pad s.cur.tile
  let st := s.tile.st
  let m := (FMap.getD s.panel.struck ph []).filter fun e => !st.livePiece e.1
  let s := s.modTile fun t => t.modPool fun st => m.foldl (fun st e => st.strike e.1 e.2) st
  { s with panel := { s.panel with struck := FMap.del s.panel.struck ph } }

/-- ROW_SHIFT_REMAP: the row shifts on one dtick, the paddocks go on, and the retirement is recorded. -/
def execRowShiftRemap (s : State) : Out :=
  match s.panel.retires with
  | [] => .next s
  | r :: rest =>
    match r.stage with
    | .copying t =>
      if s.dtick < t ∨ !s.allFrozen r ∨ !(s.uncopied r).isEmpty then .next s
      else
        let key := r.die * 8 + r.row
        let ms := s.migrants r
        let ks := s.holders r.die r.row r.col 7
        let q := s.panel
        let s := { s with panel := { q with
          retires := rest, shifted := q.shifted + 1, struck := FMap.del q.struck (r.die * 72 + r.row * 9 + r.col),
          remap := FMap.put q.remap key (q.remapByte r.die r.row / 16 * 16 + r.col) } }
        let s := ms.foldl (fun s c => (s.modPadAt c.pad fun p => { p with owed := nsAdd p.owed c.tile }).onPad c.pad fun s =>
          s.atTile c.tile State.meetStruck) s
        let s := ks.foldl State.goOn s
        let s := s.logRetire r 0
        .next (s.nextRetire s.panel.retires.length)
    | _ => .next s

end Sys2Proof.Machine
end

