-- ==== Sys2Proof/Machine/Cycle.lean ====
section
/-!
DEFINITION. Machine/Cycle.lean: the parts of a region cycle and what its end does, the alignment and the clocks of the dies,
pages in the background, data that arrives late (R37, R82, R85 to R93, R135, R214, R236, R254, R385, R429, R439, R440,
R454).
-/
namespace Sys2Proof.Machine

-- The start of a cycle: what lands (R135, R199, R215)

/-- Temporaries of a run that land now, unless it waits for HBM. -/
def Hold.tick : Hold → Hold
  | .uop r =>
    match r.hbmWait with
    | some _ => .uop r
    | Option.none => .uop r.tick
  | h => h

/-- What lands at the current tile at the start of a cycle: late writes first, flags after a write of fpcsr (R202); a rounding run of the
vector engine keeps the counter it found (R345). -/
def State.landAll (s : State) : State :=
  let due := (s.tile.core.late.filter fun l => decide (l.2 ≤ 1)).map (·.1)
  let s := s.modTile fun t => { t with vec := { t.vec with rsr := Regs.rd t.ctl kVrctr } }
  let s := s.modCore fun c =>
    { c with late := (c.late.filter fun l => decide (1 < l.2)).map fun (l : Late × Nat) => (l.1, l.2 - 1), landed := due }
  (due.foldl State.landStore s).landWrites.modCore fun c => { c with hold := c.hold.tick }

-- Drift and seams (R85 to R88)

/-- δ of a seam from the sender's die to the receiver's (R87). -/
def Paddock.delta (p : Paddock) (now snd rcv : Nat) : Int := (p.seamLead now rcv snd).tdiv 256

/-- The legal window of δ (R87). -/
def deltaOk (d : Int) : Bool := decide (-7 ≤ d ∧ d ≤ 8)

/-- Tiles on the way of a word, along x and then along y: each with the abstract side it is entered by. -/
def Shape.way (sh : Shape) (i j : Nat) : List (Nat × Nat) :=
  let x0 := sh.x i
  let y0 := sh.y i
  let x1 := sh.x j
  let y1 := sh.y j
  let xs := (List.range (natDist x0 x1)).map fun n =>
    if x0 < x1 then (sh.idx (x0 + n + 1) y0, 2) else (sh.idx (x0 - n - 1) y0, 0)
  let ys := (List.range (natDist y0 y1)).map fun n =>
    if y0 < y1 then (sh.idx x1 (y0 + n + 1), 3) else (sh.idx x1 (y0 - n - 1), 1)
  xs ++ ys

/-- tinfo3 of a SEAM fault (R87). -/
def seamInfo (d : Int) (side sent : Nat) : W64 :=
  fld ((d % 256).toNat) 0 ||| fld side 8 ||| fld (sent % 2 ^ 32) 32

/-- A word under way between two tiles of a paddock since a cycle (R87). -/
structure Journey where
  src : Nat
  dst : Nat
  sent : Nat
  deriving DecidableEq, Repr

/-- A word crosses a die boundary: the tiles on its two sides, the abstract side it is entered by, the cycle it is sent across, and the
cycles until its delivery there. -/
structure Crossing where
  out : Nat
  into : Nat
  side : Nat
  sent : Nat
  cost : Nat
  deriving DecidableEq, Repr

/-- The die boundaries on the way of a word that leaves tile i on a cycle: one cycle a hop, and LAT + 8 at a seam (log entry 57). -/
def Paddock.crossings (p : Paddock) : Nat → Nat → List (Nat × Nat) → List Crossing
  | _, _, [] => []
  | i, t, (j, side) :: rest =>
    let cost := p.shape.seamCost i j
    (if p.shape.die p.place i = p.shape.die p.place j then [] else [{ out := i, into := j, side := side, sent := t, cost := cost }]) ++
      Paddock.crossings p j (t + 1 + cost) rest

/-- What a fold has under way: arrivals towards its home, and the advance from there (R375). -/
def Fold.journeys (o : Fold) (sh : Shape) : List Journey :=
  let home := o.members.foldl Nat.min (o.members.headD 0)
  let far := o.members.foldl (fun n i => Nat.max n (sh.foldDist home i)) 0
  (o.arrived.filter (·.1 != home)).map (fun a => { src := a.1, dst := home, sent := a.2 }) ++
    (match o.advance with
     | some v => (o.members.filter (· != home)).map fun i => { src := home, dst := i, sent := v - 1 - far }
     | none => [])

/-- What a beat of a Drover run of tile me has under way between tiles: a read request and its bytes, a write, an answer. -/
def DRun.beatJourneys (r : DRun) (sh : Shape) (me : Nat) (b : Beat) : List Journey :=
  let other := fun (t : Target) => match t with
    | .tile j _ => if j = me then none else some j
    | _ => none
  let src := if r.cmd.usesSrc then other (sh.target me (r.srcAddr b.first)) else none
  let dst := other (r.dstTarget sh me b.first)
  match b.kind with
  | .index => []
  | .back => (dst.map fun k => ({ src := k, dst := me, sent := b.writeAt - sh.strLat me k } : Journey)).toList
  | .data =>
    (match src with
     | some j => [{ src := me, dst := j, sent := b.readAt - sh.strLat me j }, { src := j, dst := me, sent := b.readAt }]
     | none => []) ++
      (dst.map fun k => ({ src := me, dst := k, sent := b.writeAt - sh.strLat me k } : Journey)).toList

/-- A refusal on its way back to tile me. -/
def Refused.journey (f : Refused) (sh : Shape) (me : Nat) : Journey := { src := f.tile, dst := me, sent := f.due - sh.strLat me f.tile }

/-- What a Drover run of tile me has under way between tiles. -/
def DRun.journeys (r : DRun) (sh : Shape) (me : Nat) : List Journey :=
  r.beats.flatMap (r.beatJourneys sh me) ++ r.refusals.map fun f => f.journey sh me

/-- An STR word's way, or that of its refusal. -/
def NetWord.journey (w : NetWord) : Journey := { src := w.sender, dst := w.target, sent := w.due - w.lat }

/-- Everything under way between tiles of the paddock. -/
def Paddock.journeys (p : Paddock) : List Journey :=
  p.net.map NetWord.journey ++
    p.folds.flatMap (fun e => e.2.journeys p.shape) ++
    p.tiles.flatMap fun e => e.2.dr.runs.flatMap fun r => r.journeys p.shape e.1

/-- A word reaches the receiver's buffer on cycle now outside the window: too early, or not there on its delivery cycle (R87). -/
def Crossing.bad (x : Crossing) (now : Nat) (d : Int) : Bool :=
  !deltaOk d && decide ((x.sent : Int) + x.cost - 8 + min d 8 = now)

/-- A SEAM fault at the tile that a word enters, counted against the dies on both sides (R87, R88). -/
def State.seamFault (s : State) (x : Crossing) (d : Int) : State :=
  let up := fun (c : FMap Nat) (i : Nat) =>
    let d := s.pad.shape.die s.pad.place i
    FMap.put c d (FMap.getD c d 0 + 1)
  let s := { s with panel := { s.panel with seamCnt := up (up s.panel.seamCnt x.out) x.into } }
  s.atTile x.into fun s => s.cond (sFault .seam (seamInfo d x.side x.sent))

/-- SEAM faults of the current paddock's cycle. Within 400,000 dticks of a capture no drift reaches the window's edge, so that only a
defective clock can cause one (R88). -/
def State.seamTurn (s : State) : State :=
  let p := s.pad
  if (p.shape.dies p.place).length ≤ 1 || (p.slips.isEmpty && decide (s.dtick - p.capture < 400000)) then s
  else
    (p.journeys.flatMap fun j => p.crossings j.src (j.sent + 1) (p.shape.way j.src j.dst)).foldl (fun s x =>
      let d := p.delta s.dtick (p.shape.die p.place x.out) (p.shape.die p.place x.into)
      if x.bad p.rtick d then s.seamFault x d else s) s

/-- TICK_BEAT: the skew estimates of every tile of the current paddock, by abstract side (R86). -/
def execTickBeat (s : State) : Out := .next (s.modPad fun p => p.beat s.dtick)

-- Dies out of service (R29)

/-- A word does not pass from one tile to the next: a die of theirs, or the M-die between the two, is among some dies (R15). -/
def Paddock.hopCut (p : Paddock) (out : List Nat) (i j : Nat) : Bool :=
  let d := p.shape.die p.place i
  let e := p.shape.die p.place j
  out.contains d || out.contains e ||
    (d != e && (dieNeighbours d).any fun m => (dieNeighbours e).contains m && out.contains (200 + m))

/-- A word that leaves tile i on a cycle is now on a hop that is cut, or at the end of its way on a die that is. -/
def Paddock.lostOn (p : Paddock) (out : List Nat) (now : Nat) : Nat → Nat → List (Nat × Nat) → Bool
  | i, t, [] => decide (t ≤ now ∧ now ≤ t + 1) && out.contains (p.shape.die p.place i)
  | i, t, (j, _) :: rest =>
    let cost := p.shape.seamCost i j
    (decide (t ≤ now ∧ now ≤ t + cost) && p.hopCut out i j) || Paddock.lostOn p out now j (t + 1 + cost) rest

/-- A word under way is lost. -/
def Paddock.lost (p : Paddock) (out : List Nat) (x : Journey) : Bool :=
  p.lostOn out p.rtick x.src (x.sent + 1) (p.shape.way x.src x.dst)

/-- A beat of a run of tile me is lost: its source, while it is unread, or its destination lies in HBM that is cut off, or a word of it is
lost. -/
def Paddock.beatLost (p : Paddock) (out : List Nat) (me : Nat) (r : DRun) (b : Beat) : Bool :=
  let sh := p.shape
  (b.kind == .data && ((r.cmd.usesSrc && !b.read && p.cutTarget out (sh.target me (r.srcAddr b.first))) ||
      p.cutTarget out (r.dstTarget sh me b.first))) ||
    (r.beatJourneys sh me b).any (p.lost out)

/-- Longer than any freeze takes: what waits so long does not come. -/
def never : Nat := 2 ^ 32

/-- A run after its beats that are lost: it does not finish. -/
def Paddock.severRun (p : Paddock) (out : List Nat) (me : Nat) (r : DRun) : DRun :=
  let beats := r.beats.filter fun b => !p.beatLost out me r b
  let r := { r with refusals := r.refusals.filter fun f => !p.lost out (f.journey p.shape me) }
  if beats.length = r.beats.length then r
  else { r with beats := beats, last := r.last + never, fin := r.fin.map (· + never) }

/-- A vector write without its bytes for HBM that is cut off; it then signals nothing. -/
def Paddock.severWrite (p : Paddock) (out : List Nat) (me : Nat) (w : VWrite) : VWrite :=
  let items := w.items.filter fun x => !p.cutTarget out (p.shape.target me x.1)
  if items.length = w.items.length then w else { w with items := items, sig := none }

/-- The current tile's waits for HBM that is cut off go on. -/
def State.severWaits (s : State) (out : List Nat) : State :=
  let cut := fun (a : Nat) => s.pad.cutTarget out (s.pad.shape.target s.cur.tile a)
  let later := fun (t : Nat) => Nat.max t (s.pad.rtick + 1)
  let s := match s.tile.core.hold with
    | .uop r => if cut (r.uldAddr (s.uopAt r r.pos)).toNat then
        s.modCore fun c => { c with hold := .uop { r with hbmWait := r.hbmWait.map later } } else s
    | _ => s
  match s.tile.vq.entries, s.tile.vec.chain with
  | e :: _, some c =>
    let i := c.group * chainGroup e
    if c.wait.isSome && (chainReads e c i (Nat.min (chainGroup e) (chainCount e - i))).any fun x => cut x.1 then
      s.modChain fun c => { c with wait := c.wait.map later }
    else s
  | _, _ => s

/-- What of a fold's words is lost neither arrives nor advances it. -/
def Paddock.severFold (p : Paddock) (out : List Nat) (o : Fold) : Fold :=
  if !(o.journeys p.shape).any (p.lost out) then o
  else
    let home := o.members.foldl Nat.min (o.members.headD 0)
    { o with advance := none,
             arrived := o.arrived.filter fun a => a.1 == home || !p.lost out { src := a.1, dst := home, sent := a.2 } }

/-- The current paddock without what dies out of service no longer carry and hold: they stop at once, the paddock only later (R29,
R426). -/
def State.sever (s : State) : State :=
  let out := s.panel.outDies
  let p := s.pad
  if !(out.any p.touches) then s
  else
    let s := s.modPad fun p =>
      { p.mapTiles (fun i t =>
          { t with dr := { t.dr with runs := t.dr.runs.map (p.severRun out i) },
                   vec := { t.vec with pend := t.vec.pend.map (p.severWrite out i) } }) with
        net := p.net.filter fun w => !p.lost out w.journey,
        folds := p.folds.map fun e => (e.1, p.severFold out e.2) }
    s.eachTile fun s => s.severWaits out

-- The alignment (R37, R89, R90)

/-- n / 256, rounded up. -/
def ceil256 (n : Int) : Nat := ((n + 255) / 256).toNat

/-- Lead that a die's clock holds over the pace die's as the paddock ends a region cycle, in 1/256 cycle: how much earlier the die
comes to its end, from where both clocks stand, a defective one with what it has slipped, and the counts on which they come to it
(R88, R90). -/
def Paddock.alignLead (p : Paddock) (z : FMap Int) (now d : Nat) : Int :=
  let at_ := fun (e : Nat) => dieLead e now + 256 * ((now : Int) + FMap.getD z e 0 - p.ownDtick z e now)
  at_ d - at_ p.pace

/-- Cycles of the pace die from the end of cycle T to its T + 1: the last arrival, rounded up, and B_max (R89, R90). -/
def Paddock.alignWait (p : Paddock) (z : FMap Int) (now : Nat) : Nat :=
  let last := (p.shape.dies p.place).foldl (fun (m : Int) e => max m (256 * (paceLat p.pace e : Int) - p.alignLead z now e)) 0
  ceil256 last + p.shape.bMax p.place

/-- Cycles of a die from the end of cycle T to the clock edge on which it begins T + 1, in an alignment of the paddock that begins
now, as alignloss counts them (R90, log entry 5). -/
def Paddock.alignRise (p : Paddock) (z : FMap Int) (now d : Nat) : Nat :=
  if (p.shape.dies p.place).length ≤ 1 then 2
  else Nat.min (2 * p.shape.bMax p.place + 10) (ceil256 (256 * (p.alignWait z now : Int) + p.alignLead z now d))

/-- The end of cycle T of an ALIGN: every die freezes, and alignloss counts its frozen cycles. -/
def State.alignFreeze (s : State) : State :=
  let p := s.pad
  let rise := p.alignRise s.panel.slipped s.dtick
  let s := s.eachTile fun s => s.setCtl 0x0B (s.ctl 0x0B + w64 (rise (p.shape.die p.place s.cur.tile)))
  s.modPad fun p =>
    { p with freeze := some (.align (s.dtick + 1 + rise p.pace)), rises := (p.shape.dies p.place).map fun d => (d, rise d) }

/-- The freeze of an alignment is over. -/
def Paddock.alignDue (p : Paddock) (now : Nat) : Bool :=
  match p.freeze with
  | some (.align t) => decide (t ≤ now)
  | _ => false

/-- The freeze of a release wave is over. -/
def Paddock.releaseDue (p : Paddock) (now : Nat) : Bool :=
  match p.freeze with
  | some (.release t) => decide (t ≤ now)
  | _ => false

/-- ALIGN_RELEASE: the current paddock goes on with cycle T + 1; the seams recapture their phase, and the count of R37
restarts. -/
def execAlignRelease (s : State) : Out :=
  .next (if s.pad.alignDue s.dtick then
    s.modPad fun p => { p.recapture s.dtick (fun d => p.alignedDtick s.panel d s.dtick) with freeze := none, alignCnt := 0 } else s)

/-- The end of a release wave: each die's count stands where it has come to (R85, R91). -/
def Paddock.resumeClock (p : Paddock) (q : Panel) (now : Nat) : Paddock :=
  if p.releaseDue now then { p.recapture now (fun d => p.dtickOn q q.dieTop d now) with freeze := none, waking := false } else p

-- The background copy of a move (R92, R93)

/-- The copy of a page has a channel out of service at its one end or the other (R29). -/
def State.copyCut (s : State) (g : Nat) : Bool :=
  let out := s.panel.outDies
  s.pad.hbmCut out g || (s.pad.chans[g % s.pad.shape.chan]?).join.any fun c => out.contains (200 + c / 32)

/-- MOVE_PAGE_SWITCH: a page of the current paddock now stands on its new channel, if it could be copied; the last one ends the move. -/
def execMovePageSwitch (s : State) : Out :=
  match s.pad.moving with
  | [] => .next (s.checkMove s.cur.pad)
  | g :: _ =>
    if s.copyCut g then .next s else
    let s := s.modPad fun p => p.switchPage g
    if !s.pad.moving.isEmpty then
      .next { s.modPad (fun p => { p with nextSwitch := some s.copyDue }) with free := s.free + 1 }
    else .next (s.endMove s.cur.pad)

/-- PAGE_WALK_COMPLETE at the current tile. -/
def execPageWalkComplete (s : State) : Out := .next (s.modTile fun t => { t with tlb := t.tlb.fill s.dtick })

/-- HBM_DATA_ARRIVAL at the current tile: a run or a chain group that waits for HBM goes on (R214, R361). -/
def execHbmDataArrival (s : State) : Out :=
  match s.tile.core.hold with
  | .uop r =>
    match r.hbmWait with
    | some t => .next (if t ≤ s.pad.rtick then s.uopResume else s)
    | none => .next s.vectorReads
  | _ => .next s.vectorReads

/-- REPLAY_INPUT_APPLY: armed records of this cycle in a loose stint (R454). -/
def execReplayInputApply (s : State) : Out := .next (if s.strict then s else s.applyArmed s.pad.rtick)

-- The loss account (R439, R440)

/-- The run of a queue's head that is in progress is suspended by PAGE. -/
def Tile.headSuspended (t : Tile) (sl : Slot) (e : Entry) : Bool :=
  match sl with
  | .v => t.vec.chain.any (·.susp)
  | .d => t.dr.runs.any fun r => r.is e.serial e.j && r.susp
  | _ => false

/-- What a head that has not started, or a product of its nest that waits, still needs. -/
def State.headNeed (s : State) (sl : Slot) (e : Entry) : Need :=
  match sl, s.tile.mx.nest, s.tile.mq.act with
  | .m, some n, some _ => s.prodNeed e n.p
  | .m, _, _ => s.matrixNeed e
  | .v, _, _ => s.vectorNeed e
  | .d, _, _ => s.droverNeed e
  | .s, _, _ => plainNeed [] none

/-- A product of the nest in progress waits to start. -/
def Tile.nestWaits (t : Tile) (now : Nat) : Bool :=
  match t.mx.nest with
  | some n => decide (n.p < n.total ∧ n.due ≤ now)
  | none => false

/-- Queue-head class of a cycle, and the semaphore of a FLAG (Table 18-1): of a due head that did not start, what its engine found on
its turn, though TIMING have ended the entry since. -/
def State.queueClass (s : State) (sl : Slot) : Nat × Option Nat :=
  let now := s.pad.rtick
  let q := s.tile.queue sl
  match FMap.get? s.tile.obs.seen (slotNo sl), q.entries, q.act with
  | some c, _, _ => c
  | none, [], _ => (5, none)
  | none, e :: _, some _ =>
    if s.tile.headSuspended sl e then (4, none)
    else if sl = .m && s.tile.nestWaits now then s.waitClass (s.headNeed sl e)
    else (1, none)
  | none, e :: _, none =>
    match e.start with
    | some t => if now < t then (2, none) else s.waitClass (s.headNeed sl e)
    | none => if e.pushed = now then (2, none) else s.waitClass (s.headNeed sl e)

/-- A counter goes up by one. -/
def Observe.count (o : Observe) (i : Nat) : Observe := { o with counters := FMap.put o.counters i (Regs.rd o.counters i + 1) }

/-- The semaphore a stalled SEMWT or SEMWTT waits for. -/
def State.stalledOn (s : State) : Option Nat :=
  match s.fetch.2 with
  | .ok bs =>
    match s.executing bs .s with
    | some (.semwt _ _ q) => some q.toNat
    | some (.semwtt _ _ _ q) => some q.toNat
    | _ => none
  | .error _ => none

/-- The loss account of the current tile for one cycle. -/
def State.lossTurn (s : State) : State :=
  let add := fun (o : Observe) (base : Nat) (c : Nat × Option Nat) =>
    let o := o.count (base + c.1 - 1)
    match c.2 with
    | some q => o.count (256 + q)
    | none => o
  let m := s.queueClass .m
  let v := s.queueClass .v
  let d := s.queueClass .d
  let stalled := s.tile.core.isStalled
  let on := if stalled then s.stalledOn else none
  s.modTile fun t =>
    let o := add (add (add { t.obs with seen := [] } 0 m) 8 v) 16 d
    let o := if stalled then o.count 24 else o
    { t with obs := match on with
      | some q => o.count (256 + q)
      | none => o }

-- The timer (R429)

/-- TIMER_PEND: PEND of the current tile is set when COUNT equals CMP. -/
def execTimerPend (s : State) : Out :=
  let v := s.ctl kTimer
  .next (if bits v 62 0 = bits (s.ctl kTcmp) 62 0 ∧ !bit v 63 then
    (s.setCtl kTimer (v ||| fld 1 63)).modCore fun c => { c with pendAt := s.pad.rtick }
  else s)

/-- COUNT goes up by one at the end of a region cycle; where it then equals CMP, PEND is set. -/
def State.timerTurn (s : State) : State :=
  let v := s.ctl kTimer
  let s := s.setCtl kTimer ((v &&& fld 1 63) ||| w64 ((bits v 62 0 + 1) % 2 ^ 63))
  match execTimerPend s with
  | .next t => t
  | _ => s

-- The parts of a region cycle

/-- Entries are noted for the breakpoints; then the starts of the M engines, and the beats the Drovers issue; what dies out of service cut
off ends there (R29). -/
def State.startsTurn (s : State) : State :=
  (s.eachTile fun s => s.breakNotes.matrixStart.droverDeadlines.droverIssue).sever

/-- STR arrivals at the current tile. -/
def State.strTurn (s : State) : State :=
  match execStrArrival s with
  | .next t => t
  | _ => s

/-- Requests of some senders arrive at their homes in the current paddock. -/
def State.arrivals (s : State) (f : Sender → Bool) : State := if s.panel.fabric.isEmpty then s else s.eachTile fun s => s.takeRequests f

/-- Drover writes of the tiles of one index from the network: of this paddock's tile its writes to other tiles and what it sent to a
window here, in ascending serial (R236). -/
def State.senderTurn (s : State) (i : Nat) : State :=
  let here := s.panel.panelno.toNat % 32
  let upTo := fun (r : DRun) (x : Sender) =>
    x.panel == here && x.pad == s.cur.pad && x.tile == i &&
      (decide ((x.serial - r.serial).toInt < 0) || (x.serial == r.serial && decide (x.j ≤ r.j)))
  let s := (FMap.getD s.pad.tiles i Tile.init).dr.runs.foldl (fun s r =>
    (s.arrivals (upTo r)).atTile i fun s => s.runWrites true r) s
  s.arrivals fun x => x.tile == i

/-- Every write of a cycle, in the order of R236. -/
def State.writesTurn (s : State) : State :=
  let s := s.eachTile State.windowAcks
  let s := ((FMap.keys s.pad.tiles).foldl State.senderTurn s).arrivals fun _ => true
  let s := s.eachTile State.applyRounds
  let s := s.seamTurn.eachTile State.strTurn
  s.eachTile fun s => ((s.matrixWrites.vectorWrites).droverWrites false).scalarAccesses

/-- The starts of the V and D engines, and the breakpoints of runs. -/
def State.enginesTurn (s : State) : State := s.eachTile fun s => s.vectorStart.droverStart.breakRuns

/-- Every engine read of a cycle, and those of windows. -/
def State.readsTurn (s : State) : State :=
  let s := s.eachTile fun s => s.matrixReads.vectorReads.droverReads
  if s.panel.fabric.isEmpty then s else s.eachTile State.windowGets

/-- Finishes and faults of engines, the ALIGNIV count, and what the tiles present together; an ALIGN of all wins over
ALIGNIV (R37). -/
def State.condsTurn (s : State) : State :=
  let s := s.eachTile fun s => s.matrixConds.droverConds
  let m := s.meet
  if s.pad.alignOver && !m.2 then
    (match execAlignivExpiry s with
     | .next t => t
     | _ => s)
  else m.1

/-- The end of a cycle at the current tile. -/
def State.tileEnd (s : State) : State :=
  let now := s.pad.rtick
  let s := (s.modCore fun c => { c with lately := s.tile.inUse }).modVec fun v => { v with landed := false }
  let s := s.lossTurn.matrixEnd.vectorEnd
  let s := s.windowSends
  let s := s.modTile fun t => { t with mq := t.mq.complete now, vq := t.vq.complete now, dq := t.dq.complete now }
  let s := s.droverEnd
  let s := s.modTile fun t => { t with sync := t.sync.endCycle, dr := t.dr.turnRings }
  let s := (s.tile.core.landed.filter Late.wins).foldl State.land s
  let mail := s.tile.mboxIn
  let s := s.modTile fun t => { t with mboxIn := [] }
  let s := mail.foldl (fun s x => s.mailIn x.1 x.2 now) s
  (s.timerTurn.sample).countErrors

/-- REGION_CYCLE: the end of a region cycle of the current paddock: its queues are classed, what the cycle did becomes visible,
the counts go up, and a pause point or an alignment that its tiles executed takes place (R44, R89, R439). -/
def execRegionCycle (s : State) : Out :=
  let k := s.cur.pad
  let s := s.eachTile State.tileEnd
  let s := s.modPad fun p =>
    { p with folds := p.folds.map fun (e : Nat × Fold) => (e.1, e.2.turn p.rtick) }
  let s := match execReplayInputApply s with
    | .next t => t
    | _ => s
  let c := s.pad.rtick
  let cls := (s.pad.tiles.filterMap fun (e : Nat × Tile) => e.2.core.ppt).head?
  let aligned := s.pad.tiles.any fun e => e.2.core.aligning
  let s := s.modPad fun p =>
    { p with rtick := p.rtick + 1, alignCnt := p.alignCnt + 1, ranAt := s.dtick,
             tiles := p.tiles.map fun (e : Nat × Tile) => (e.1, { e.2 with core := { e.2.core with ppt := none, aligning := false } }) }
  if !s.pad.reports.isEmpty then .next s
  else
    match cls with
    | some n => .next (s.pausePoint k c n)
    | none => .next (if aligned then s.alignFreeze else s)

end Sys2Proof.Machine
end

