-- ==== Sys2Proof/Machine/HostRegs.lean ====
section
/-!
DEFINITION. Machine/HostRegs.lean: the registers the host reads and writes, function-level resets, and power (R24, R53 to R57,
R94, R400, R446, R464, R469, R475, R478).
-/
namespace Sys2Proof.Machine

-- Writes (Tables 3-1, 4-7, 18-6, 20-9)

/-- The base addresses of the rings, while the ring is off. -/
def Func.setBase (f : Func) (comp : Bool) (v : W64) : Func :=
  if f.enabled then f
  else if comp then { f with kbase := v &&& span 63 12 }
  else { f with cbase := v &&& span 63 12 }

/-- A write of one word of the staged pastures: a byte for each die or function from offset off on. -/
def State.stageWord (s : State) (fn : Bool) (first last : Nat) (v : W64) : State :=
  (List.range 8).foldl (fun s i => if first + i ≤ last then s.stage fn (first + i) (bits v (8 * i + 7) (8 * i)) else s) s

def State.modDbg (s : State) (fn : Nat) (f : DebugBlock → DebugBlock) : State := s.modFn fn fun x => { x with dbg := f x.dbg }

/-- Something about the paddock that DHANDLE names. -/
def State.modDebugged (s : State) (fn : Nat) (f : Paddock → Paddock) : State := s.modPadAt (s.debugPad fn) f

/-- A write to the debug block at an offset without a behaviour of its own (Table 18-6). -/
def State.writeBar4 (s : State) (fn off : Nat) (v : W64) : State :=
  match off with
  | 0x00 => s.modDbg fn fun d => { d with dhandle := v &&& span 15 0 }
  | 0x18 => s.modDbg fn fun d => { d with ddump := v &&& span 63 6 }
  | 0x20 => s.modDbg fn fun d => { d with dtile := v &&& span 31 0 }
  | 0x28 => s.modDebugged fn fun p => { p with dbg := { p.dbg with djob := v &&& span 15 0 } }
  | 0x30 => s.modDbg fn fun d => { d with tbase := v &&& span 63 12 }
  | 0x58 => s.modDbg fn fun d => { d with rbase := v &&& span 63 5 }
  | 0x60 => s.modDbg fn fun d => { d with rcnt := v &&& span 31 0 }
  | 0x100 => if fn = 0 then s.modDbg 0 fun d => { d with dpod := v &&& (span 63 63 ||| span 31 0) } else s
  | off =>
    if 0x80 ≤ off ∧ off < 0xC0 ∧ off % 8 = 0 ∧ !(s.fn fn).inSession then
      s.modDebugged fn fun p => { p with dbg := p.dbg.setBreak ((off - 0x80) / 8) v p.rtick }
    else s

/-- A write of one byte to BAR2: the pasture tables hold a register at every offset of their ranges (Table 4-7). -/
def State.writeByte2 (s : State) (off : Nat) (b : Byte) : State :=
  if off ≤ 0xC7 then s.stage false off b.toNat
  else if 0x100 ≤ off ∧ off ≤ 0x1C0 then s.stage true (off - 0x100) b.toNat
  else s

/-- A write to BAR2 at an offset without a behaviour of its own; only the PF has one. -/
def State.writeBar2 (s : State) (off : Nat) (v : W64) : State :=
  if off ≤ 0xC7 then s.stageWord false off 199 v
  else if 0x100 ≤ off ∧ off ≤ 0x1C0 then s.stageWord true (off - 0x100) 192 v
  else if off = 0x1800 then { s with panel := { s.panel with einjaddr := v &&& (span 41 20 ||| span 18 0) } }
  else s

/-- DCMD (Table 18-6). -/
def dcmdWrite (fn : Nat) (v : W64) (s : State) : Out :=
  match bits v 7 0 with
  | 1 => execDebugStop fn s
  | 2 => execDebugGo fn s
  | 3 => execDump fn s
  | 4 => execArm fn s
  | _ => .next s

/-- HOST_REGISTER_WRITE: a 64-bit write of the host at an offset of a function's BAR. -/
def execHostRegisterWrite (fn : Nat) (bar : Bar) (off : Nat) (v : W64) (s : State) : Out :=
  match bar with
  | .bar0 =>
    if off = 0x00 then execNotify fn v s
    else if off = 0x08 then .next (s.modFn fn fun f => f.setBase false v)
    else if off = 0x10 then .next (s.modFn fn fun f => f.setBase true v)
    else if off = 0x18 then execRcfgWrite fn v s
    else if off = 0x28 then execKhead fn v s
    else .next s
  | .bar2 =>
    if fn ≠ 0 then .next s
    else if off = 0x400 then execPcommit v s
    else if off = 0x1808 then execEinjctlGo v s
    else if off = 0x1900 then execPanelnoWrite v s
    else .next (s.writeBar2 off v)
  | .bar4 =>
    if off = 0x08 then dcmdWrite fn v s
    else if off = 0x38 then execTcfgWrite fn v s
    else if off = 0x48 then execThead fn v s
    else if off = 0x108 then
      (if fn ≠ 0 then .next s
       else if bits v 7 0 = 1 then execDpodcmdStop v s
       else if bits v 7 0 = 2 then execDpodcmdGo v s
       else .next s)
    else .next (s.writeBar4 fn off v)

-- Reads (Tables 3-1, 3-3, 4-7, 4-8, 18-6, 18-7)

/-- RSTAT. -/
def Func.rstat (f : Func) : W64 := fld f.head 32 ||| fld f.halt 0

/-- HBAGE: milliseconds since the last accepted HEARTBEAT. -/
def Func.hbAge (f : Func) (now : Nat) : W64 :=
  match f.session with
  | some x => w64 ((now - x.heard) / 1600000)
  | none => 0

/-- A word of the retirement log (R469). -/
def Panel.logRead (q : Panel) (o : Nat) : W64 :=
  if o = 0 then w64 q.log.length
  else if o < 16 then 0
  else
    match q.log[(o - 16) / 16]? with
    | some e => if o % 16 = 0 then e.1 else e.2
    | none => 0

/-- PSTAT. -/
def State.pstatReg (s : State) : W64 :=
  (if s.panel.pstat = 1 then fld s.affectedPads.length 32 else 0) ||| fld s.panel.pstat 0

/-- Eight bytes of a table of bytes. -/
def byteWord (f : Nat → Nat) (first last : Nat) : W64 :=
  (List.range 8).foldl (fun w i => if first + i ≤ last then w ||| fld (f (first + i) % 256) (8 * i) else w) 0

/-- DSTAT. -/
def State.dstat (s : State) (fn : Nat) : W64 :=
  let f := s.fn fn
  let d := (s.padAt (s.debugPad fn)).dbg
  fld d.zlow 32 ||| fld d.incomp.toNat 19 ||| fld (if 2 ≤ d.state then d.bp else 0) 16 |||
    fld (if f.inSession then 3 else f.dbg.err) 8 ||| fld d.state 0

def State.readBar0 (s : State) (fn off : Nat) : W64 :=
  let f := s.fn fn
  match off with
  | 0x08 => f.cbase
  | 0x10 => f.kbase
  | 0x18 => f.rcfg
  | 0x20 => f.rstat
  | 0x30 => w64 f.authcnt
  | 0x38 => w64 f.replaycnt
  | 0x40 => w64 f.pendcnt
  | 0x48 => f.hbAge s.dtick
  | off =>
    if fn ≠ 0 then 0
    else if 0x1000 ≤ off ∧ off < 0x2000 then capWord s.panel.retire2 (off - 0x1000)
    else if 0x2000 ≤ off ∧ off < 0x2800 then s.panel.logRead (off - 0x2000)
    else if off = 0x4000 then w64 ((Config.certWord 0).toNat % 16377)
    else if 0x4000 < off ∧ off < 0x8000 then Config.certWord ((off - 0x4000) / 8)
    else 0

def State.readBar2 (s : State) (off : Nat) : W64 :=
  let q := s.panel
  let byte := fun (m : FMap Nat) (i : Nat) => FMap.getD m i 0
  if off ≤ 0xC7 then byteWord (byte q.diePast) off 199
  else if 0x100 ≤ off ∧ off ≤ 0x1C0 then byteWord (byte q.fnPast) (off - 0x100) 192
  else if off = 0x408 then s.pstatReg
  else if 0x800 ≤ off ∧ off ≤ 0x8C7 then byteWord (byte q.dieLive) (off - 0x800) 199
  else if 0x900 ≤ off ∧ off ≤ 0x9C0 then byteWord (byte q.fnLive) (off - 0x900) 192
  else if 0x1000 ≤ off ∧ off < 0x1640 then byteWord (fun i => q.remapByte (i / 8) (i % 8)) (off - 0x1000) 1599
  else if off = 0x1800 then q.einjaddr
  else if off = 0x1900 then q.panelno
  else 0

def State.readBar4 (s : State) (fn off : Nat) : W64 :=
  let d := (s.fn fn).dbg
  let p := (s.padAt (s.debugPad fn)).dbg
  match off with
  | 0x00 => d.dhandle
  | 0x10 => s.dstat fn
  | 0x18 => d.ddump
  | 0x20 => d.dtile
  | 0x28 => p.djob
  | 0x30 => d.tbase
  | 0x38 => d.tcfg
  | 0x40 => w64 d.ttail
  | 0x50 => w64 d.tdrop
  | 0x58 => d.rbase
  | 0x60 => d.rcnt
  | 0x100 => if fn = 0 then d.dpod else 0
  | 0x110 => if fn = 0 then d.podstat else 0
  | off => if 0x80 ≤ off ∧ off < 0xC0 ∧ off % 8 = 0 then Regs.rd p.bps ((off - 0x80) / 8) else 0

/-- What a 64-bit read of the host returns; unlisted offsets read zero (R53). A register of one byte stands at every offset of a table
of bytes, and a read there returns eight of them, that one lowest (log entry 29). -/
def State.hostReg (s : State) (fn : Nat) (bar : Bar) (off : Nat) : W64 :=
  match bar with
  | .bar0 => if off % 8 ≠ 0 then 0 else s.readBar0 fn off
  | .bar2 => if fn = 0 then s.readBar2 off else 0
  | .bar4 => if off % 8 ≠ 0 then 0 else s.readBar4 fn off

-- Resets (R53, R464, R478)

/-- A function after its reset: its queue settings, budget and debug block stay, and what it used beyond its budget is no debt. -/
def Func.flr (f : Func) : Func :=
  { Func.init with level := f.level, pinned := f.pinned, mapped := f.mapped && f.pinned, budget := f.budget,
                   nextBudget := f.nextBudget, used := Nat.min f.used f.budget, dbg := f.dbg }

/-- FUNCTION_LEVEL_RESET of VF n: its paddocks are destroyed without events, its key erased, its register block cleared. -/
def execFunctionLevelReset (n : Nat) (s : State) : Out :=
  .next (((s.liveHandles n).foldl State.destroyPad s).modFn n Func.flr)

/-- What a reset leaves of the panel: the fuses' remap table and log, and the count of unused spares fixed anew. -/
def Panel.afterReset (q : Panel) : Panel :=
  { Panel.init with remap := q.remap, dead := q.dead, log := q.log, power := q.power, outbox := q.outbox,
                    retire2 := q.retire2 - w64 q.shifted }

/-- RESET: everything but the fuses and the counts that stand until power-off takes its reset value. -/
def execReset (s : State) : Out :=
  .next { State.reset with
    dtick := s.dtick, host := s.host, inbox := s.inbox, free := s.free,
    panel := { s.panel.afterReset with errs := s.panel.errs } }

/-- POWER_ON: as a reset, with the dies' counts at zero and one more power-on; what is still to come is counted from here. -/
def execPowerOn (s : State) : Out :=
  .next { State.reset with
    host := s.host, inbox := s.inbox.map fun x => (x.1 - s.dtick, x.2), free := s.free,
    panel := { s.panel.afterReset with power := s.panel.power + 1 } }

end Sys2Proof.Machine
end

