-- ==== Sys2Proof/Machine/Dispatch.lean ====
section
/-!
DEFINITION. Machine/Dispatch.lean: the one place where an instruction meets its meaning.
-/
namespace Sys2Proof.Machine

/-- The meaning of one instruction. -/
def exec (i : Instr) (s : State) : Host.Outcome State Fault Refusal :=
  match i with
  | .powerOn => Sys2Proof.Machine.execPowerOn s
  | .functionLevelReset n => Sys2Proof.Machine.execFunctionLevelReset n s
  | .notify fn v => Sys2Proof.Machine.execNotify fn v s
  | .khead fn v => Sys2Proof.Machine.execKhead fn v s
  | .rcfgWrite fn v => Sys2Proof.Machine.execRcfgWrite fn v s
  | .hostRegisterWrite fn bar off v => Sys2Proof.Machine.execHostRegisterWrite fn bar off v s
  | .create c => Sys2Proof.Machine.execCreate c s
  | .loadImage c => Sys2Proof.Machine.execLoadImage c s
  | .start c => Sys2Proof.Machine.execStart c s
  | .mbwrite c => Sys2Proof.Machine.execMbwrite c s
  | .preempt c => Sys2Proof.Machine.execPreempt c s
  | .resume c => Sys2Proof.Machine.execResume c s
  | .move c => Sys2Proof.Machine.execMove c s
  | .pageRelease c => Sys2Proof.Machine.execPageRelease c s
  | .pageAccept c => Sys2Proof.Machine.execPageAccept c s
  | .read c => Sys2Proof.Machine.execRead c s
  | .destroy c => Sys2Proof.Machine.execDestroy c s
  | .attest c => Sys2Proof.Machine.execAttest c s
  | .sessionOpen c => Sys2Proof.Machine.execSessionOpen c s
  | .heartbeat c => Sys2Proof.Machine.execHeartbeat c s
  | .resync c => Sys2Proof.Machine.execResync c s
  | .setBudget c => Sys2Proof.Machine.execSetBudget c s
  | .qconf c => Sys2Proof.Machine.execQconf c s
  | .dieResume c => Sys2Proof.Machine.execDieResume c s
  | .hostMap c => Sys2Proof.Machine.execHostMap c s
  | .hostUnmap c => Sys2Proof.Machine.execHostUnmap c s
  | .pcommit v => Sys2Proof.Machine.execPcommit v s
  | .partitionRequestTimeout pad => Sys2Proof.Machine.execPartitionRequestTimeout pad s
  | .panelnoWrite v => Sys2Proof.Machine.execPanelnoWrite v s
  | .einjctlGo v => Sys2Proof.Machine.execEinjctlGo v s
  | .debugStop fn => Sys2Proof.Machine.execDebugStop fn s
  | .debugGo fn => Sys2Proof.Machine.execDebugGo fn s
  | .dump fn => Sys2Proof.Machine.execDump fn s
  | .arm fn => Sys2Proof.Machine.execArm fn s
  | .dpodcmdStop v => Sys2Proof.Machine.execDpodcmdStop v s
  | .dpodcmdGo v => Sys2Proof.Machine.execDpodcmdGo v s
  | .tcfgWrite fn v => Sys2Proof.Machine.execTcfgWrite fn v s
  | .thead fn v => Sys2Proof.Machine.execThead fn v s
  | .traceRecordWrite => Sys2Proof.Machine.execTraceRecordWrite s
  | .traceSample => Sys2Proof.Machine.execTraceSample s
  | .temperatureReport x y t => Sys2Proof.Machine.execTemperatureReport x y t s
  | .shepherdTakeover => Sys2Proof.Machine.execShepherdTakeover s
  | .heartbeatTimeout fn => Sys2Proof.Machine.execHeartbeatTimeout fn s
  | .holdExpiry fn => Sys2Proof.Machine.execHoldExpiry fn s
  | .budgetWindow => Sys2Proof.Machine.execBudgetWindow s
  | .sliceEnd fn => Sys2Proof.Machine.execSliceEnd fn s
  | .watchdog pad reason => Sys2Proof.Machine.execWatchdog pad reason s
  | .reclaimReq pad pos => Sys2Proof.Machine.execReclaimReq pad pos s
  | .forcedReclaim pad => Sys2Proof.Machine.execForcedReclaim pad s
  | .jobEnd pad => Sys2Proof.Machine.execJobEnd pad s
  | .alignivExpiry => Sys2Proof.Machine.execAlignivExpiry s
  | .tickBeat => Sys2Proof.Machine.execTickBeat s
  | .alignRelease => Sys2Proof.Machine.execAlignRelease s
  | .movePageSwitch => Sys2Proof.Machine.execMovePageSwitch s
  | .timerPend => Sys2Proof.Machine.execTimerPend s
  | .trapEntry => Sys2Proof.Machine.execTrapEntry s
  | .paddockWideFault => Sys2Proof.Machine.execPaddockWideFault s
  | .engineRunStart u => Sys2Proof.Machine.execEngineRunStart u s
  | .breakpointStop => Sys2Proof.Machine.execBreakpointStop s
  | .matrixProductStart => Sys2Proof.Machine.execMatrixProductStart s
  | .matrixRowRetire => Sys2Proof.Machine.execMatrixRowRetire s
  | .vectorWriteLand => Sys2Proof.Machine.execVectorWriteLand s
  | .droverTransferFinish slot => Sys2Proof.Machine.execDroverTransferFinish slot s
  | .pageWalkComplete => Sys2Proof.Machine.execPageWalkComplete s
  | .strArrival => Sys2Proof.Machine.execStrArrival s
  | .foldAdvance f => Sys2Proof.Machine.execFoldAdvance f s
  | .windowPutApply => Sys2Proof.Machine.execWindowPutApply s
  | .windowAck => Sys2Proof.Machine.execWindowAck s
  | .reductionMerge => Sys2Proof.Machine.execReductionMerge s
  | .orderedRoundApply w => Sys2Proof.Machine.execOrderedRoundApply w s
  | .tileRetirement => Sys2Proof.Machine.execTileRetirement s
  | .rowShiftMigration => Sys2Proof.Machine.execRowShiftMigration s
  | .rowShiftRemap => Sys2Proof.Machine.execRowShiftRemap s
  | .kwrSyncrstFold a => Sys2Proof.Machine.execKwrSyncrstFold a s
  | .kwrSyncrstWindow a => Sys2Proof.Machine.execKwrSyncrstWindow a s
  | .kwrLosssel a => Sys2Proof.Machine.execKwrLosssel a s
  | .kwrLossval a => Sys2Proof.Machine.execKwrLossval a s
  | .kwrTrcemit a => Sys2Proof.Machine.execKwrTrcemit a s
  | .kwrWdesc w a => Sys2Proof.Machine.execKwrWdesc w a s
  | .kwrWmap w a => Sys2Proof.Machine.execKwrWmap w a s
  | .kwrPoolscope a => Sys2Proof.Machine.execKwrPoolscope a s
  | .kwrTimer a => Sys2Proof.Machine.execKwrTimer a s
  | .nop => Sys2Proof.Machine.execNop s
  | .add d a b => Sys2Proof.Machine.execAdd d a b s
  | .addi d a imm => Sys2Proof.Machine.execAddi d a imm s
  | .sub d a b => Sys2Proof.Machine.execSub d a b s
  | .mul d a b => Sys2Proof.Machine.execMul d a b s
  | .mulh d a b => Sys2Proof.Machine.execMulh d a b s
  | .mulhn d a b => Sys2Proof.Machine.execMulhn d a b s
  | .div d a b => Sys2Proof.Machine.execDiv d a b s
  | .divn d a b => Sys2Proof.Machine.execDivn d a b s
  | .rem d a b => Sys2Proof.Machine.execRem d a b s
  | .remn d a b => Sys2Proof.Machine.execRemn d a b s
  | .and d a b => Sys2Proof.Machine.execAnd d a b s
  | .andi d a imm => Sys2Proof.Machine.execAndi d a imm s
  | .or d a b => Sys2Proof.Machine.execOr d a b s
  | .ori d a imm => Sys2Proof.Machine.execOri d a imm s
  | .xor d a b => Sys2Proof.Machine.execXor d a b s
  | .xori d a imm => Sys2Proof.Machine.execXori d a imm s
  | .andn d a b => Sys2Proof.Machine.execAndn d a b s
  | .shl d a b => Sys2Proof.Machine.execShl d a b s
  | .shli d a n => Sys2Proof.Machine.execShli d a n s
  | .shr d a b => Sys2Proof.Machine.execShr d a b s
  | .shri d a n => Sys2Proof.Machine.execShri d a n s
  | .sar d a b => Sys2Proof.Machine.execSar d a b s
  | .sari d a n => Sys2Proof.Machine.execSari d a n s
  | .rotl d a b => Sys2Proof.Machine.execRotl d a b s
  | .clz d a => Sys2Proof.Machine.execClz d a s
  | .ctz d a => Sys2Proof.Machine.execCtz d a s
  | .popc d a => Sys2Proof.Machine.execPopc d a s
  | .min d a b => Sys2Proof.Machine.execMin d a b s
  | .max d a b => Sys2Proof.Machine.execMax d a b s
  | .minn d a b => Sys2Proof.Machine.execMinn d a b s
  | .maxn d a b => Sys2Proof.Machine.execMaxn d a b s
  | .cmp c d a b => Sys2Proof.Machine.execCmp c d a b s
  | .cmpi c d a imm => Sys2Proof.Machine.execCmpi c d a imm s
  | .sel d a b c => Sys2Proof.Machine.execSel d a b c s
  | .movi d imm => Sys2Proof.Machine.execMovi d imm s
  | .orhi d imm h => Sys2Proof.Machine.execOrhi d imm h s
  | .bfx d a pos lenM1 => Sys2Proof.Machine.execBfx d a pos lenM1 s
  | .bfxs d a pos lenM1 => Sys2Proof.Machine.execBfxs d a pos lenM1 s
  | .bfi d a pos lenM1 => Sys2Proof.Machine.execBfi d a pos lenM1 s
  | .bset d a n => Sys2Proof.Machine.execBset d a n s
  | .bclr d a n => Sys2Proof.Machine.execBclr d a n s
  | .lea d a b sh => Sys2Proof.Machine.execLea d a b sh s
  | .fadd t md d a b => Sys2Proof.Machine.execFadd t md d a b s
  | .fsub t md d a b => Sys2Proof.Machine.execFsub t md d a b s
  | .fmul t md d a b => Sys2Proof.Machine.execFmul t md d a b s
  | .ffma t md d a b => Sys2Proof.Machine.execFfma t md d a b s
  | .fmin t d a b => Sys2Proof.Machine.execFmin t d a b s
  | .fmax t d a b => Sys2Proof.Machine.execFmax t d a b s
  | .fcmp c t d a b => Sys2Proof.Machine.execFcmp c t d a b s
  | .fcvt td ts md d a => Sys2Proof.Machine.execFcvt td ts md d a s
  | .frsqa t d a => Sys2Proof.Machine.execFrsqa t d a s
  | .frcpa t d a => Sys2Proof.Machine.execFrcpa t d a s
  | .fclass t d a => Sys2Proof.Machine.execFclass t d a s
  | .fsgn op t d a b => Sys2Proof.Machine.execFsgn op t d a b s
  | .ld w d a off => Sys2Proof.Machine.execLd w d a off s
  | .ldz w d a off => Sys2Proof.Machine.execLdz w d a off s
  | .st w d a off => Sys2Proof.Machine.execSt w d a off s
  | .ldp d a off => Sys2Proof.Machine.execLdp d a off s
  | .stp d a off => Sys2Proof.Machine.execStp d a off s
  | .str d a dx dy => Sys2Proof.Machine.execStr d a dx dy s
  | .spill d a off => Sys2Proof.Machine.execSpill d a off s
  | .fill d => Sys2Proof.Machine.execFill d s
  | .amo op t o d a b => Sys2Proof.Machine.execAmo op t o d a b s
  | .amocas t o d a b => Sys2Proof.Machine.execAmocas t o d a b s
  | .famoadd t md o d a b => Sys2Proof.Machine.execFamoadd t md o d a b s
  | .br off => Sys2Proof.Machine.execBr off s
  | .call off => Sys2Proof.Machine.execCall off s
  | .ret a => Sys2Proof.Machine.execRet a s
  | .jr d a => Sys2Proof.Machine.execJr d a s
  | .loop cnt len lvl => Sys2Proof.Machine.execLoop cnt len lvl s
  | .loopi n len lvl => Sys2Proof.Machine.execLoopi n len lvl s
  | .lbrk len lvl => Sys2Proof.Machine.execLbrk len lvl s
  | .idle d n => Sys2Proof.Machine.execIdle d n s
  | .ppt n => Sys2Proof.Machine.execPpt n s
  | .align => Sys2Proof.Machine.execAlign s
  | .halt => Sys2Proof.Machine.execHalt s
  | .semsig set a n q => Sys2Proof.Machine.execSemsig set a n q s
  | .semwt a n q => Sys2Proof.Machine.execSemwt a n q s
  | .semtst d a n q => Sys2Proof.Machine.execSemtst d a n q s
  | .semwtt d a b q => Sys2Proof.Machine.execSemwtt d a b q s
  | .semrd d q => Sys2Proof.Machine.execSemrd d q s
  | .farv d f => Sys2Proof.Machine.execFarv d f s
  | .fwt d a f => Sys2Proof.Machine.execFwt d a f s
  | .fwtt d a b f => Sys2Proof.Machine.execFwtt d a b f s
  | .fbar d a n f => Sys2Proof.Machine.execFbar d a n f s
  | .wacq a w => Sys2Proof.Machine.execWacq a w s
  | .wrd recv d w => Sys2Proof.Machine.execWrd recv d w s
  | .mcfg r a w => Sys2Proof.Machine.execMcfg r a w s
  | .vcfg r a w => Sys2Proof.Machine.execVcfg r a w s
  | .dcfg r a w => Sys2Proof.Machine.execDcfg r a w s
  | .tirw r a w => Sys2Proof.Machine.execTirw r a w s
  | .tirr d r w => Sys2Proof.Machine.execTirr d r w s
  | .fmtw r a => Sys2Proof.Machine.execFmtw r a s
  | .ringw r a w => Sys2Proof.Machine.execRingw r a w s
  | .ringr d r w => Sys2Proof.Machine.execRingr d r w s
  | .trap n => Sys2Proof.Machine.execTrap n s
  | .eret => Sys2Proof.Machine.execEret s
  | .krd d k => Sys2Proof.Machine.execKrd d k s
  | .kwr k a => Sys2Proof.Machine.execKwr k a s
  | .mbrd d n => Sys2Proof.Machine.execMbrd d n s
  | .mbwr n a => Sys2Proof.Machine.execMbwr n a s
  | .msload a b => Sys2Proof.Machine.execMsload a b s
  | .msbind n a => Sys2Proof.Machine.execMsbind n a s
  | .msrd entry d a => Sys2Proof.Machine.execMsrd entry d a s
  | .caprd d a k => Sys2Proof.Machine.execCaprd d a k s
  | .srng hi stream d a b => Sys2Proof.Machine.execSrng hi stream d a b s
  | .uopn n d a b => Sys2Proof.Machine.execUopn n d a b s
  | .mnop => Sys2Proof.Machine.execMnop s
  | .mgo e => Sys2Proof.Machine.execMgo e s
  | .mma e => Sys2Proof.Machine.execMma e s
  | .mzero e => Sys2Proof.Machine.execMzero e s
  | .mwb e => Sys2Proof.Machine.execMwb e s
  | .mscl e => Sys2Proof.Machine.execMscl e s
  | .mpop e => Sys2Proof.Machine.execMpop e s
  | .mvwin e => Sys2Proof.Machine.execMvwin e s
  | .vnop => Sys2Proof.Machine.execVnop s
  | .vld vd a k => Sys2Proof.Machine.execVld vd a k s
  | .vst vd a k => Sys2Proof.Machine.execVst vd a k s
  | .vadd o => Sys2Proof.Machine.execVadd o s
  | .vsub o => Sys2Proof.Machine.execVsub o s
  | .vmul o => Sys2Proof.Machine.execVmul o s
  | .vfma o => Sys2Proof.Machine.execVfma o s
  | .vmin o => Sys2Proof.Machine.execVmin o s
  | .vmax o => Sys2Proof.Machine.execVmax o s
  | .vabs o => Sys2Proof.Machine.execVabs o s
  | .vneg o => Sys2Proof.Machine.execVneg o s
  | .vand vd va vb => Sys2Proof.Machine.execVand vd va vb s
  | .vor vd va vb => Sys2Proof.Machine.execVor vd va vb s
  | .vxor vd va vb => Sys2Proof.Machine.execVxor vd va vb s
  | .vshl o => Sys2Proof.Machine.execVshl o s
  | .vshr o => Sys2Proof.Machine.execVshr o s
  | .vsar o => Sys2Proof.Machine.execVsar o s
  | .vcvt td ts md p vd va => Sys2Proof.Machine.execVcvt td ts md p vd va s
  | .vcmp o => Sys2Proof.Machine.execVcmp o s
  | .vsel o => Sys2Proof.Machine.execVsel o s
  | .vrsqa o => Sys2Proof.Machine.execVrsqa o s
  | .vrcpa o => Sys2Proof.Machine.execVrcpa o s
  | .vexp2a vd va => Sys2Proof.Machine.execVexp2a vd va s
  | .vlog2a vd va => Sys2Proof.Machine.execVlog2a vd va s
  | .vtint o => Sys2Proof.Machine.execVtint o s
  | .vrng vd a b => Sys2Proof.Machine.execVrng vd a b s
  | .vredadd o => Sys2Proof.Machine.execVredadd o s
  | .vredmax o => Sys2Proof.Machine.execVredmax o s
  | .vbcast ty vd a => Sys2Proof.Machine.execVbcast ty vd a s
  | .vperm o => Sys2Proof.Machine.execVperm o s
  | .vmovs ty vd a vb hi => Sys2Proof.Machine.execVmovs ty vd a vb hi s
  | .vchain e => Sys2Proof.Machine.execVchain e s
  | .dnop => Sys2Proof.Machine.execDnop s
  | .dcopy e => Sys2Proof.Machine.execDcopy e s
  | .dgather e => Sys2Proof.Machine.execDgather e s
  | .dscatter e => Sys2Proof.Machine.execDscatter e s
  | .dfill e => Sys2Proof.Machine.execDfill e s
  | .dput e => Sys2Proof.Machine.execDput e s
  | .dget e => Sys2Proof.Machine.execDget e s
  | .dputadd e => Sys2Proof.Machine.execDputadd e s
  | .damo e => Sys2Proof.Machine.execDamo e s
  | .dtab e => Sys2Proof.Machine.execDtab e s
  | .dfence e => Sys2Proof.Machine.execDfence e s
  | .dieFailure x y => Sys2Proof.Machine.execDieFailure x y s
  | .regionCycle => Sys2Proof.Machine.execRegionCycle s
  | .hbmDataArrival => Sys2Proof.Machine.execHbmDataArrival s
  | .replayInputApply => Sys2Proof.Machine.execReplayInputApply s
  | .syncObjectPoisoned o => Sys2Proof.Machine.execSyncObjectPoisoned o s
  | .reset => Sys2Proof.Machine.execReset s

end Sys2Proof.Machine
end

