-- ==== Sys2Proof/Machine/Sched.lean ====
section
/-!
DEFINITION. Machine/Sched.lean: which work a step does next: the parts of a dtick, the bundles that tiles present, the
Shepherd's turn, and inputs from outside (log entry 1).
-/
namespace Sys2Proof.Machine

-- The Shepherd's turn

/-- What is due at one tile: its retirement, its page walks. -/
def State.tileJobs (s : State) (k : Nat) (p : Paddock) (e : Nat × Tile) : List Job :=
  let c : Ctx := { pad := k, tile := e.1 }
  (if !s.panel.errs.isEmpty && s.worn (s.physOf p e.1) then [.run c .tileRetirement] else []) ++
    (if e.2.tlb.due s.dtick then [.run c .pageWalkComplete] else [])

/-- What a region cycle may leave to be done at once: the freeze after a fault, the end of the job. -/
def Paddock.cycleEnds (p : Paddock) (k : Nat) : List Job :=
  let one := fun (b : Bool) (i : Instr) => if b then [Job.run { pad := k, tile := 0 } i] else []
  one p.faultDue .paddockWideFault ++ one p.jobDone (.jobEnd k)

/-- What is due at one paddock; its pages switch once it has resumed (R92). -/
def State.padJobs (s : State) (k : Nat) (p : Paddock) : List Job :=
  let c : Ctx := { pad := k, tile := 0 }
  let one := fun (b : Bool) (i : Instr) => if b then [Job.run c i] else []
  p.cycleEnds k ++
    (match p.overdue with
     | some r => one true (if r = 2 ∧ s.panel.pstat = 1 then .partitionRequestTimeout k else .watchdog k r)
     | none => []) ++
    one (p.forced s.dtick) (.forcedReclaim k) ++
    one (match p.nextSwitch with
      | some t => decide (t ≤ s.dtick) && !p.waking
      | none => false) .movePageSwitch ++
    one (p.state == .running && s.dtick % 1024 == 0) .tickBeat ++ p.tiles.flatMap (s.tileJobs k p)

/-- What is due at one function. -/
def State.fnJobs (s : State) (n : Nat) (f : Func) : List Job :=
  let one := fun (b : Bool) (i : Instr) => if b then [Job.run s.cur i] else []
  one (f.hbLate s.dtick) (.heartbeatTimeout n) ++ one (f.holdOver s.dtick) (.holdExpiry n) ++
    one (s.sliceOver n) (.sliceEnd n)

/-- The retirement in progress goes on. -/
def State.shiftJobs (s : State) : List Job :=
  match s.panel.retires with
  | r :: _ =>
    if s.copyNow r then [.run s.cur .rowShiftMigration]
    else
      match r.stage with
      | .copying t => if t ≤ s.dtick ∧ s.allFrozen r then [.run s.cur .rowShiftRemap] else []
      | _ => []
  | [] => []

/-- What is due at the panel. -/
def State.panelJobs (s : State) : List Job :=
  let one := fun (b : Bool) (i : Instr) => if b then [Job.run s.cur i] else []
  one (decide (s.panel.windowAt + windowLen ≤ s.dtick)) .budgetWindow ++ s.shiftJobs ++
    (if s.panel.fabric.isEmpty then []
     else List.replicate (Config.merges s.dtick % ((mergePairs s.panel.fabric).length + 1)) (.run s.cur .reductionMerge)) ++
    one (!s.traceSources.isEmpty) .traceRecordWrite

/-- The handlers of a paddock's service have all returned: their register writes land, and the paddock goes on (R135,
R431). -/
def State.endService (s : State) (k : Nat) : State :=
  if (s.padAt k).served then
    (s.onPad k fun s => s.eachTile fun s => if s.tile.core.returned then s.flushWrites else s).goOn k
  else s

/-- Walks start at every tile of a paddock (R254). -/
def State.startWalks (s : State) (k : Nat) : State :=
  let row := fun (p : Paddock) (i : Nat) => p.shape.site p.place i % 2
  s.modPadAt k fun p => p.mapTiles fun i t =>
    if t.tlb.walks.isEmpty then t else { t with tlb := t.tlb.startWalk s.dtick (row p i) }

/-- The Shepherd's turn on a dtick: services that ended, the fabric, what completes, what is due, and one command. -/
def State.shepherd (s : State) : State :=
  let ks := FMap.keys s.pads
  let s := ks.foldl State.endService s
  let s := ks.foldl State.startWalks s
  let s := (s.refuseHomeless.podTurn).applyPastures.endAwaits.askFreeze.retireLeft
  let due := s.pads.flatMap (fun (e : Nat × Paddock) => s.padJobs e.1 e.2) ++
    s.fns.flatMap (fun (e : Nat × Func) => s.fnJobs e.1 e.2) ++ s.panelJobs
  let s := s.shepherdTurn
  { s with agenda := due ++ s.agenda }

-- A dtick

/-- A region cycle's parts, in order. -/
def cycleJobs (k : Nat) (p : Paddock) : List Job :=
  [.phase k .land, .phase k .starts, .phase k .writes, .phase k .engines, .phase k .reads, .phase k .conds] ++
    (p.tiles.map fun (e : Nat × Tile) => Job.present { pad := k, tile := e.1 }) ++ [.phase k .finish]

/-- The region cycles of a dtick: as many as the pace die's clock makes. -/
def cyclesJobs (k : Nat) (p : Paddock) : Nat → List Job
  | 0 => []
  | 1 => cycleJobs k p
  | _ => cycleJobs k p ++ .phase k .between :: cycleJobs k p

/-- The work of a paddock on a dtick. -/
def State.dtickJobs (s : State) (k : Nat) (p : Paddock) : List Job :=
  if p.state ≠ .running then []
  else if p.alignDue s.dtick then
    .run { pad := k, tile := 0 } .alignRelease ::
      (if p.breakDue then [.run { pad := k, tile := 0 } .breakpointStop]
       else cyclesJobs k p (p.cyclesOn s.panel (p.alignedDtick s.panel p.pace s.dtick) s.dtick))
  else if p.freeze == some .service then
    .phase k .service :: ((p.tiles.filter fun (e : Nat × Tile) => e.2.core.svc).map fun (e : Nat × Tile) =>
      Job.present { pad := k, tile := e.1 })
  else if !p.clockOn then []
  else if p.breakDue then [.run { pad := k, tile := 0 } .breakpointStop]
  else cyclesJobs k p (p.cyclesOn s.panel (p.ownDtick s.panel.slipped p.pace s.dtick) s.dtick)

/-- The next dtick begins: what every paddock does on it, then the Shepherd's turn. -/
def State.beginDtick (s : State) : State :=
  let s := { s with dtick := s.dtick + 1 }.countUse
  let s := { s with pads := s.pads.map fun (e : Nat × Paddock) => (e.1, e.2.resumeClock s.panel s.dtick) }
  { s with agenda := s.pads.flatMap (fun (e : Nat × Paddock) => s.dtickJobs e.1 e.2) ++ [.phase 0 .shepherd] }

/-- One part of a dtick at the current paddock; the parts of a region cycle pass only while its clock is on, and a paddock that an
alignment or a pause point has frozen stops at a breakpoint only when it has been released (R445). -/
def State.phase (s : State) (p : Phase) : State :=
  match p with
  | .shepherd => s.shepherd
  | .service => s.eachTile fun s => if s.tile.core.svc then s.landAll.scalarAccesses else s
  | .land => if s.pad.clockOn then s.eachTile State.landAll else s
  | .starts => if s.pad.clockOn then s.startsTurn else s
  | .writes => if s.pad.clockOn then s.writesTurn else s
  | .engines => if s.pad.clockOn then s.enginesTurn else s
  | .reads => if s.pad.clockOn then s.readsTurn else s
  | .conds => if s.pad.clockOn then s.condsTurn else s
  | .finish => s
  | .between =>
    { s with agenda := s.pad.cycleEnds s.cur.pad ++
        (if s.pad.clockOn && s.pad.breakDue then [Job.run s.cur .breakpointStop] else []) ++ s.agenda }

/-- One job of the agenda. -/
def runJob (j : Job) (s : State) : Out :=
  match j with
  | .run c i => exec i { s with cur := c }
  | .phase k .finish =>
    let s := { s with cur := { pad := k, tile := 0 } }
    if s.pad.clockOn then exec .regionCycle s else .next s
  | .phase k p => .next ({ s with cur := { pad := k, tile := 0 } }.phase p)
  | .present c =>
    let s := { s with cur := c }
    if !s.tile.core.dead && (s.pad.clockOn || (s.pad.freeze == some .service && s.tile.core.svc)) then s.present exec else .next s

-- Inputs

/-- Rows that the outside world causes: host writes, resets, reports of the hardware, errors of storage. -/
def Instr.isInput : Instr → Bool
  | .powerOn | .reset | .functionLevelReset _ | .notify _ _ | .khead _ _ | .rcfgWrite _ _ | .hostRegisterWrite _ _ _ _
  | .pcommit _ | .panelnoWrite _ | .einjctlGo _ | .debugStop _ | .debugGo _ | .dump _ | .arm _ | .dpodcmdStop _
  | .dpodcmdGo _ | .tcfgWrite _ _ | .thead _ _ | .temperatureReport _ _ _ | .shepherdTakeover | .reclaimReq _ _
  | .dieFailure _ _ | .syncObjectPoisoned _ => true
  | _ => false

/-- Words of the stores of a tile, by number. -/
def storeWords : Nat → Nat
  | 0 => 262144 | 1 => 16384 | 2 => 4096 | 3 => 2048 | _ => 0

/-- Strike a word of a store of a tile. -/
def Stores.strike (st : Stores) (n w : Nat) (m : W64) : Stores :=
  match n with
  | 0 => { st with pool := st.pool.strike w m }
  | 1 => { st with istore := st.istore.strike w m }
  | 2 => { st with cstore := st.cstore.strike w m }
  | _ => { st with tmem := st.tmem.strike w m }

/-- A line of a paddock's HBM has an error: one that its code corrects is counted against the M-die of the page's channel, any other
poisons the line's words (R256). -/
def State.hbmError (s : State) (k line : Nat) (corrected : Bool) : State :=
  let p := s.padAt k
  if corrected then
    match (p.chans[line / 32768 % p.shape.chan]?).join with
    | some c =>
      let m := s.panel.mdieErrs
      { s with panel := { s.panel with mdieErrs := FMap.put m (c / 32) (FMap.getD m (c / 32) 0 + 1) } }
    | none => s
  else
    s.modPadAt k fun p => { p with hbm := { p.hbm with poison := (List.range 8).foldl (fun l i => nsAdd l (8 * line + i)) p.hbm.poison } }

/-- A die's clock slips by cycles against the others: its count moves, and every paddock that stands there and elsewhere drifts (R85,
R88). -/
def State.clockSlip (s : State) (die : Nat) (n : Int) : State :=
  let slip := fun (m : FMap Int) => FMap.put m die (FMap.getD m die 0 + n)
  { s with panel := { s.panel with slipped := slip s.panel.slipped }
           pads := s.pads.map fun (e : Nat × Paddock) =>
             (e.1, if e.2.placed && (e.2.shape.dies e.2.place).contains die then { e.2 with slips := slip e.2.slips } else e.2) }

/-- The input names something that exists. -/
def State.inputOk (s : State) : Input → Bool
  | .row c i =>
    i.wf && Instr.isInput i &&
      (match i with
       | .syncObjectPoisoned _ => (FMap.get? (FMap.getD s.pads c.pad Paddock.init).tiles c.tile).isSome
       | .reclaimReq k _ => (FMap.get? s.pads k).isSome
       | _ => true)
  | .hostMem fn a bs => decide (fn ≤ 192 ∧ a + bs.length ≤ 2 ^ 64)
  | .hostByte fn _ _ => decide (fn ≤ 192)
  | .pod _ => true
  | .hbmError k line _ => decide (line < (s.padAt k).shape.chan * 625 * 32768)
  | .upset c st w _ => (FMap.get? (s.padAt c.pad).tiles c.tile).isSome && decide (w < storeWords st)
  | .clockSlip _ _ => true
  | .saveError k i line =>
    ((s.padAt k).state == .preempted || (s.padAt k).state == .halted || (s.padAt k).state == .held) &&
      (FMap.get? (s.padAt k).tiles i).isSome && decide (line < 34048)

/-- An input takes place. The part has no input that names nothing it holds: such a one has no effect. -/
def State.input (s : State) : Input → Out
  | .row c i => exec i { s with cur := c }
  | .hostMem fn a bs => .next (s.hostWrite fn a bs)
  | .hostByte fn off b => .next (if fn = 0 then s.writeByte2 off b else s)
  | .hbmError k line corrected => .next (s.hbmError k line corrected)
  | .upset c n w m => .next (s.onPad c.pad fun s => s.atTile c.tile fun s => s.modTile fun t => { t with st := t.st.strike n w m })
  | .saveError k i line => .next (s.modPadAt k fun p => { p with badSave := p.badSave ++ [(i, line)] })
  | .clockSlip d n => .next (s.clockSlip d n)
  | .pod m => .next (s.enter m fun d => s.dtick + 2 + d % 257)

end Sys2Proof.Machine
end

