-- ==== Sys2Proof/Machine/Step.lean ====
section
/-!
DEFINITION. Machine/Step.lean: one step of the machine, and the state in which a given instruction comes next.
-/
namespace Sys2Proof.Machine

/-- One step: the next job of the agenda; else the first input that is due; else the next dtick begins (log entry 1). -/
def step (s : State) : Host.Outcome State Fault Refusal :=
  match s.agenda with
  | j :: rest => runJob j { s with agenda := rest }
  | [] =>
    match s.inbox with
    | [] => .next s.beginDtick
    | (t, i) :: rest =>
      if s.dtick < t then .next s.beginDtick
      else
        let s := { s with inbox := rest }
        if s.inputOk i then s.input i else .next s

/-- The state with the bundle w at bundle 0 of a running tile that presents it on the next step (log entry 2). -/
def State.withFetchWord (s : State) (nbits w : Nat) : State :=
  let bits := BitVec.ofNat 192 (w % 2 ^ nbits)
  let t := { Tile.init with st := { Stores.empty with
    istore := { Store.empty with bytes := Mem.write [] 0 (natLE 24 bits.toNat) } } }
  let p := { Paddock.init with
    state := .running, shape := { Shape.init with w := 1, h := 1, part := 0x1E0101 }, tiles := [(0, t)] }
  { s with pads := FMap.put s.pads 0 p, cur := { pad := 0, tile := 0 }, agenda := [.present { pad := 0, tile := 0 }] }

end Sys2Proof.Machine
end

