-- ==== Sys2Proof/Safety.lean ====
section
/-!
DEFINITION. Safety.lean: what counts as a safe run, and the words the statements use: the bytes of every memory, what a change
of the state leaves alone, what an instruction gives a register, and the states a statement starts from.
-/
namespace Sys2Proof

/-- A run of k steps that stops at no fault and no refusal. -/
def runsClean (k : Nat) (s : Machine.State) : Prop := ∃ t, Sys2Proof.core.run k s = .next t

end Sys2Proof

namespace Sys2Proof.Machine

-- Memory, byte by byte

/-- Where a byte of memory stands: a store of a tile of a paddock, a paddock's HBM, or the memory of the host. -/
inductive MemSite where
  | pool (pad tile : Nat) | istore (pad tile : Nat) | cstore (pad tile : Nat) | table (pad tile : Nat) | hbm (pad : Nat) | host
  deriving DecidableEq, Repr

def State.padOf (s : State) (k : Nat) : Paddock := FMap.getD s.pads k Paddock.init

def State.tileOf (s : State) (k j : Nat) : Tile := FMap.getD (s.padOf k).tiles j Tile.init

/-- One byte of memory as the machine reads it. -/
def State.byteAt (s : State) (m : MemSite) (a : Nat) : Byte :=
  match m with
  | .pool k j => Mem.rd (s.tileOf k j).st.pool.bytes a
  | .istore k j => Mem.rd (s.tileOf k j).st.istore.bytes a
  | .cstore k j => Mem.rd (s.tileOf k j).st.cstore.bytes a
  | .table k j => Mem.rd (s.tileOf k j).st.tmem.bytes a
  | .hbm k => Mem.rd (s.padOf k).hbm.bytes a
  | .host => Mem.rd s.host a

/-- Every byte of memory reads as before. -/
def SameMemory (s t : State) : Prop := ∀ m a, t.byteAt m a = s.byteAt m a

/-- Every byte of memory reads as before but the n bytes from off of the current tile's pool. -/
def SameMemoryBut (s t : State) (off n : Nat) : Prop :=
  ∀ m a, m ≠ .pool s.cur.pad s.cur.tile ∨ a < off ∨ off + n ≤ a → t.byteAt m a = s.byteAt m a

/-- Every memory of the machine is in canonical form. -/
def Tile.memOk (t : Tile) : Prop :=
  Mem.wf t.st.pool.bytes = true ∧ Mem.wf t.st.istore.bytes = true ∧ Mem.wf t.st.cstore.bytes = true ∧
    Mem.wf t.st.tmem.bytes = true

def Paddock.memOk (p : Paddock) : Prop := Mem.wf p.hbm.bytes = true ∧ ∀ e ∈ p.tiles, e.2.memOk

def State.memOk (s : State) : Prop := Mem.wf s.host = true ∧ ∀ e ∈ s.pads, e.2.memOk

-- What a change leaves alone

/-- Nothing of the machine changed but the control core of the current tile. -/
def OnlyCore (s t : State) : Prop := ∃ c : Core, t = s.modCore fun _ => c

/-- The registers of a core after n cycles of landing alone (R135). -/
def Core.landed' (c : Core) : Nat → Core
  | 0 => c
  | n + 1 => Core.landed' c.landRegs n

/-- A general register of the current tile as it reads n cycles on, when nothing else is issued. -/
def State.rdAfter (s : State) (n : Nat) (r : Reg) : W64 := if r = 0 then 0 else Regs.rd (s.tile.core.landed' n).regs r.toNat

-- What an instruction gives a register

/-- The instruction goes on to the state in which d receives, after a latency, a value of the given property, and nothing else
has changed. -/
def Gives (i : Instr) (s : State) (d : Reg) (lat : Nat) (p : W64 → Prop) : Prop :=
  ∃ v, exec i s = .next (s.later d v lat) ∧ p v

/-- The same for an instruction that may set flags, which land with the result. -/
def GivesFl (i : Instr) (s : State) (d : Reg) (lat : Nat) (p : W64 → BitVec 7 → Prop) : Prop :=
  ∃ v fl, exec i s = .next (s.laterFl d v lat fl) ∧ p v fl

-- Words of the encoding (Tables 5-2, 5-3), written from the places of the fields

/-- A syllable word from its opcode, guard and operand field. -/
def sylWord (op : BitVec 9) (g : Guard) (o : BitVec 26) : Syl := op ++ g.reg ++ g.bit ++ BitVec.ofBool g.neg ++ o

/-- Operands of format RRR. -/
def rrr (d a b : BitVec 6) (fn : BitVec 8) : BitVec 26 := d ++ a ++ b ++ fn

/-- Operands of format RI. -/
def ri (d a : BitVec 6) (imm : BitVec 14) : BitVec 26 := d ++ a ++ imm

/-- A slot reads a word as an instruction, whatever legal guard the word holds. -/
def Reads (sl : Slot) (op : BitVec 9) (o : BitVec 26) (i : Instr) : Prop :=
  ∀ g : Guard, g.wf = true → decodeSyllable sl (sylWord op g o) = .ok { guard := g, instr := i }

/-- A slot reads no word with this opcode and these operands. -/
def ReadsNot (sl : Slot) (op : BitVec 9) (o : BitVec 26) : Prop :=
  ∀ (g : Guard) (y : Syllable), decodeSyllable sl (sylWord op g o) ≠ .ok y

end Sys2Proof.Machine
end

