-- ==== Sys2Proof/Certificates/Slice0/Obligations.lean ====
section
/-!
DEFINITION. Certificates/Slice0/Obligations.lean: the statements for the provers, each with the rules of the spec it
formalises.
-/
section
open Sys2Proof Sys2Proof.Machine

-- Encoding (05)

/-- R99 to R106, R113, R116 to R121: decoding and encoding invert each other. Every legal syllable of a slot, with every operand at
every value its entry admits and under every legal guard, is read back whole from its own word; and a word that a slot reads as a
syllable is that syllable's own word, so no two words are read as one syllable and no bit of a legal word is ignored, and what is
read is legal. -/
def Obligations.DecodeAndEncodeAgree : Prop :=
  (∀ (sl : Slot) (y : Syllable), y.wf sl = true → decodeSyllable sl (encode y) = .ok y) ∧
  ∀ (sl : Slot) (w : Syl) (y : Syllable), decodeSyllable sl w = .ok y → encode y = w ∧ y.wf sl = true

/-- Words that the spec itself writes out, with the syllables it says they stand for (the listings of 05, 07, 08, 11 to 17, 20): a
sanity statement. The cells of the opcode maps of the M and D slots, and every cell of the V slot's, are those the spec names, with the
operands each accepts; every other cell is reserved (R118 to R121, R338 to R356). -/
def Obligations.SpecWordsDecode : Prop :=
  (decodeSyllable .s 0x010A1870BFFD = .ok { guard := { reg := 5, bit := 3, neg := false }, instr := .addi 7 2 0x3FFD } ∧
    decodeSyllable .s 0x14800011DEF0 = .ok { guard := Guard.none, instr := .orhi 1 0xDEF0 1 } ∧
    decodeSyllable .s 0x040000304000 = .ok { guard := Guard.none, instr := .divn 3 1 0 } ∧
    decodeSyllable .s 0x358000400001 = .ok { guard := Guard.none, instr := .st .b8 4 0 1 } ∧
    decodeSyllable .s 0x318200401000 = .ok { guard := { reg := 1, bit := 0, neg := false }, instr := .ld .b8 4 0 0x1000 } ∧
    decodeSyllable .s 0x370204308100 = .ok { guard := { reg := 1, bit := 0, neg := true }, instr := .str 3 2 1 0 } ∧
    decodeSyllable .s 0x388000310538 = .ok { guard := Guard.none, instr := .amo .add .i64 { acq := true, rel := true } 3 4 5 } ∧
    decodeSyllable .s 0x400A07FFFFFE = .ok { guard := { reg := 5, bit := 0, neg := true }, instr := .br 0x3FFFFFE } ∧
    decodeSyllable .s 0x428000300200 = .ok { guard := Guard.none, instr := .loopi 3 2 0 } ∧
    decodeSyllable .s 0x498000310507 = .ok { guard := Guard.none, instr := .semwtt 3 4 5 7 } ∧
    decodeSyllable .s 0x4A8000200009 = .ok { guard := Guard.none, instr := .farv 2 9 } ∧
    decodeSyllable .s 0x598000004010 = .ok { guard := Guard.none, instr := .kwr 0x10 1 } ∧
    decodeSyllable .s 0x588000000000 = .ok { guard := Guard.none, instr := .eret } ∧
    decodeSyllable .s 0xE28000A2CC00 = .ok { guard := Guard.none, instr := .uopn 5 10 11 12 } ∧
    decodeSyllable .m 0x028002300000 = .ok { guard := Guard.none, instr := .mscl { idx := 35, rep := 0, step := 0, dly := 0 } } ∧
    decodeSyllable .m 0x020000000000 = .ok { guard := Guard.none, instr := .mwb { idx := 0, rep := 0, step := 0, dly := 0 } } ∧
    decodeSyllable .v 0x0C0000100006 =
      .ok { guard := Guard.none, instr := .vtint { vd := 1, va := 0, vb := 0, ty := .f32, md := 0 } } ∧
    decodeSyllable .v 0x0F8000000000 = .ok { guard := Guard.none, instr := .vchain { idx := 0, rep := 0, step := 0, dly := 0 } } ∧
    decodeSyllable .d 0x008000601049 = .ok { guard := Guard.none, instr := .dcopy { idx := 6, rep := 1, step := 1, dly := 9 } } ∧
    (decodeSyllable .d 0x008002800000).toOption = none ∧ (decodeSyllable .m 0x040000000000).toOption = none) ∧
  ((∀ (op : BitVec 9) (o : BitVec 26), 8 ≤ op.toNat → ReadsNot .m op o) ∧
    (∀ (op : BitVec 9) (o : BitVec 26), 0x20 ≤ op.toNat → ReadsNot .v op o) ∧
    (∀ (op : BitVec 9) (o : BitVec 26), 0x0B ≤ op.toNat → ReadsNot .d op o) ∧
    (∀ (r : BitVec 8) (st : BitVec 6) (dl : BitVec 6) (idx : BitVec 6),
      let e : En := { idx := idx, rep := r, step := st, dly := dl }
      let o : BitVec 26 := idx ++ r ++ st ++ dl
      (idx.toNat < 4 → Reads .m 1 o (.mgo e) ∧ Reads .m 2 o (.mma e) ∧ Reads .m 3 o (.mzero e) ∧ Reads .m 4 o (.mwb e)) ∧
      Reads .m 5 o (.mscl e) ∧ (idx.toNat < 8 → st = 0 → Reads .m 6 o (.mpop e)) ∧
      (r = 0 → st = 0 → Reads .m 7 o (.mvwin e)) ∧ (idx.toNat < 16 → Reads .v 0x1F o (.vchain e)) ∧
      (idx.toNat < 32 → Reads .d 1 o (.dcopy e) ∧ Reads .d 2 o (.dgather e) ∧ Reads .d 3 o (.dscatter e) ∧
        Reads .d 4 o (.dfill e) ∧ Reads .d 5 o (.dput e) ∧ Reads .d 6 o (.dget e) ∧ Reads .d 7 o (.dputadd e) ∧
        Reads .d 8 o (.damo e) ∧ Reads .d 9 o (.dtab e)) ∧
      (idx.toNat < 32 → r = 0 → st = 0 → Reads .d 10 o (.dfence e)) ∧
      (32 ≤ idx.toNat → ∀ op : BitVec 9, 1 ≤ op.toNat → op.toNat ≤ 10 → ReadsNot .d op o) ∧
      (4 ≤ idx.toNat → ReadsNot .m 1 o ∧ ReadsNot .m 2 o ∧ ReadsNot .m 3 o ∧ ReadsNot .m 4 o))) ∧
  ∀ (d a b : BitVec 6) (ty : VTy) (c md : BitVec 4), c.toNat = ty.code →
    let o : Vr := { vd := d, va := a, vb := b, ty := ty, md := md }
    let w := fun (b : BitVec 6) => rrr d a b (md ++ c)
    let plain := fun (op : BitVec 9) (b : BitVec 6) (i : Instr) =>
      Reads .v op (rrr d a b 0) i ∧ ∀ fn : BitVec 8, fn ≠ 0 → ReadsNot .v op (rrr d a b fn)
    let typed := fun (op : BitVec 9) (b : BitVec 6) (i : Instr) (ok : Bool) =>
      (ok = true → Reads .v op (w b) i) ∧ (ok = false → ReadsNot .v op (w b))
    let arith := if ty.isInt then decide (md.toNat ≤ 1) else decide (md.toNat ≤ 3)
    let pick := if ty.isInt then decide (md.toNat ≤ 1) else md == 0
    let cmp := if ty.isInt then decide (md.toNat ≤ 5) else decide (md.toNat ≤ 3)
    (plain 0x01 b (.vld d a b) ∧ plain 0x02 b (.vst d a b) ∧ plain 0x0B b (.vand d a b) ∧ plain 0x0C b (.vor d a b) ∧
      plain 0x0D b (.vxor d a b) ∧ plain 0x19 b (.vrng d a b)) ∧
    (typed 0x03 b (.vadd o) arith ∧ typed 0x04 b (.vsub o) arith ∧ typed 0x05 b (.vmul o) arith ∧ typed 0x06 b (.vfma o) arith ∧
      typed 0x07 b (.vmin o) pick ∧ typed 0x08 b (.vmax o) pick ∧ typed 0x09 b (.vabs o) (pick && b == 0) ∧
      typed 0x0A b (.vneg o) (pick && b == 0) ∧ typed 0x0E b (.vshl o) (ty.isInt && md == 0) ∧
      typed 0x0F b (.vshr o) (ty.isInt && md == 0) ∧ typed 0x10 b (.vsar o) (ty.isInt && md == 0) ∧ typed 0x12 b (.vcmp o) cmp ∧
      typed 0x13 b (.vsel o) (md == 0) ∧ typed 0x14 b (.vrsqa o) (decide (ty = .f32 ∨ ty = .f64) && md == 0 && b == 0) ∧
      typed 0x15 b (.vrcpa o) (decide (ty = .f32 ∨ ty = .f64) && md == 0 && b == 0) ∧
      typed 0x16 b (.vexp2a d a) (decide (ty = .f32) && md == 0 && b == 0) ∧
      typed 0x17 b (.vlog2a d a) (decide (ty = .f32) && md == 0 && b == 0) ∧
      typed 0x18 b (.vtint o) (decide (ty = .f16 ∨ ty = .bf16 ∨ ty = .f32) && decide (md.toNat ≤ 3)) ∧
      typed 0x1A b (.vredadd o) (arith && b == 0) ∧ typed 0x1B b (.vredmax o) (pick && b == 0) ∧
      typed 0x1C b (.vbcast ty d a) (md == 0 && b == 0) ∧ typed 0x1D b (.vperm o) (md == 0) ∧
      typed 0x1E b (.vmovs ty d a b md) (decide (b.toNat + 64 * md.toNat < 384 / ty.bytes))) ∧
    (∀ (ts : VTy) (cs : BitVec 4) (m p : BitVec 3), cs.toNat = ts.code →
      let w := rrr d a (BitVec.extractLsb' 0 2 p ++ cs) (BitVec.extractLsb' 2 1 p ++ m ++ c)
      let lanes := fun (t : VTy) => 384 / t.bytes
      let ok := ty ≠ ts ∧ p.toNat * min (lanes ts) (lanes ty) < max (lanes ts) (lanes ty) ∧ m.toNat ≤ 4 ∧ (m.toNat = 4 → ty.bytes ≤ 2)
      (ok → Reads .v 0x11 w (.vcvt ty ts m p d a)) ∧ (¬ ok → ReadsNot .v 0x11 w)) ∧
    (∀ (k : BitVec 4) (p : BitVec 2) (fn : BitVec 8), 9 ≤ k.toNat → ReadsNot .v 0x11 (rrr d a (p ++ k) fn)) ∧
    ∀ op : BitVec 9, op ∈ ([0x03, 0x04, 0x05, 0x06, 0x07, 0x08, 0x09, 0x0A, 0x0E, 0x0F, 0x10, 0x11, 0x12, 0x13, 0x14, 0x15, 0x18,
        0x1A, 0x1B, 0x1C, 0x1D, 0x1E] : List (BitVec 9)) →
      ∀ k : BitVec 4, 9 ≤ k.toNat → ReadsNot .v op (rrr d a b (md ++ k))

/-- R116, R117 with the entries of R173 to R205 and R227: the cells 0x040 to 0x0BA of the S slot's opcode map and the custom range, each
with the operands its entry accepts; every reserved cell reads nothing. (The cells 0x001 to 0x02F are said beside their results.) -/
def Obligations.ScalarOpcodeMap : Prop :=
  (∀ (op : BitVec 9) (o : BitVec 26),
    (0x30 ≤ op.toNat ∧ op.toNat < 0x40) ∨ (0x4C ≤ op.toNat ∧ op.toNat < 0x60) ∨ (0x74 ≤ op.toNat ∧ op.toNat < 0x80) ∨
      (0x8B ≤ op.toNat ∧ op.toNat < 0x90) ∨ (0x9B ≤ op.toNat ∧ op.toNat < 0xA0) ∨ (0xA8 ≤ op.toNat ∧ op.toNat < 0xB0) ∨
      (0xBB ≤ op.toNat ∧ op.toNat < 0x1C0) → ReadsNot .s op o) ∧
  (∀ (d a b : Reg) (c md : BitVec 4) (t : FpTy),
    let w := fun (b : BitVec 6) (hi lo : BitVec 4) => rrr d a b (hi ++ lo)
    let code := fun (k : BitVec 4) (t : FpTy) => k.toNat = (match t with | .f32 => 6 | .f64 => 8)
    let mode := fun (k : BitVec 4) (m : RMode) => k.toNat = (match m with | .rne => 0 | .rtz => 1 | .rdn => 2 | .rup => 3)
    (code c t → ∀ m, mode md m → Reads .s 0x040 (w b md c) (.fadd t m d a b) ∧ Reads .s 0x041 (w b md c) (.fsub t m d a b) ∧
      Reads .s 0x042 (w b md c) (.fmul t m d a b) ∧ Reads .s 0x043 (w b md c) (.ffma t m d a b)) ∧
    (code c t → Reads .s 0x044 (w b 0 c) (.fmin t d a b) ∧ Reads .s 0x045 (w b 0 c) (.fmax t d a b) ∧
      Reads .s 0x046 (w b 0 c) (.fcmp .eq t d a b) ∧ Reads .s 0x046 (w b 1 c) (.fcmp .lt t d a b) ∧
      Reads .s 0x046 (w b 2 c) (.fcmp .le t d a b) ∧ Reads .s 0x046 (w b 3 c) (.fcmp .un t d a b) ∧
      Reads .s 0x048 (w 0 0 c) (.frsqa t d a) ∧ Reads .s 0x049 (w 0 0 c) (.frcpa t d a) ∧ Reads .s 0x04A (w 0 0 c) (.fclass t d a) ∧
      Reads .s 0x04B (w b 0 c) (.fsgn .j t d a b) ∧ Reads .s 0x04B (w b 1 c) (.fsgn .jn t d a b) ∧
      Reads .s 0x04B (w b 2 c) (.fsgn .jx t d a b)) ∧
    (c ≠ 6 → c ≠ 8 → ∀ op ∈ ([0x040, 0x041, 0x042, 0x043, 0x044, 0x045, 0x046, 0x048, 0x049, 0x04A, 0x04B] : List (BitVec 9)),
      ReadsNot .s op (w b md c)) ∧
    (4 ≤ md.toNat → ∀ op ∈ ([0x040, 0x041, 0x042, 0x043, 0x046] : List (BitVec 9)), ReadsNot .s op (w b md c)) ∧
    (md ≠ 0 → ∀ op ∈ ([0x044, 0x045, 0x048, 0x049, 0x04A] : List (BitVec 9)), ReadsNot .s op (w b md c)) ∧
    (b ≠ 0 → ∀ op ∈ ([0x048, 0x049, 0x04A] : List (BitVec 9)), ReadsNot .s op (w b md c)) ∧
    (3 ≤ md.toNat → ReadsNot .s 0x04B (w b md c)) ∧
    (∀ (td ts : ScalarTy) (m : RMode), mode md m →
      let num := fun (t : ScalarTy) => (match t with
        | .i32 => 2 | .f16 => 4 | .bf16 => 5 | .f32 => 6 | .f64 => 8 | .i64 => 9 | .n32 => 10 | .n64 => 11)
      let float := fun (t : ScalarTy) => t = .f16 ∨ t = .bf16 ∨ t = .f32 ∨ t = .f64
      c.toNat = num td → b.toNat = num ts →
        (td ≠ ts ∧ (float td ∨ float ts) → Reads .s 0x047 (w b md c) (.fcvt td ts m d a)) ∧
        (¬ (td ≠ ts ∧ (float td ∨ float ts)) → ReadsNot .s 0x047 (w b md c))) ∧
    (c.toNat ∉ [2, 4, 5, 6, 8, 9, 10, 11] ∨ b.toNat ∉ [2, 4, 5, 6, 8, 9, 10, 11] ∨ 4 ≤ md.toNat → ReadsNot .s 0x047 (w b md c))) ∧
  (∀ (d a b : Reg) (i : BitVec 14) (i20 : BitVec 20) (fn : BitVec 8) (o : BitVec 26) (len : BitVec 12) (lv : BitVec 2),
    let mem := ri d a i
    let lp := fun (d fl : BitVec 6) => d ++ len ++ lv ++ fl
    (Reads .s 0x060 mem (.ld .b1 d a i) ∧ Reads .s 0x061 mem (.ld .b2 d a i) ∧ Reads .s 0x062 mem (.ld .b4 d a i) ∧
      Reads .s 0x063 mem (.ld .b8 d a i) ∧ Reads .s 0x064 mem (.ldz .b1 d a i) ∧ Reads .s 0x065 mem (.ldz .b2 d a i) ∧
      Reads .s 0x066 mem (.ldz .b4 d a i) ∧ Reads .s 0x067 mem (.ldz .b8 d a i) ∧ Reads .s 0x068 mem (.st .b1 d a i) ∧
      Reads .s 0x069 mem (.st .b2 d a i) ∧ Reads .s 0x06A mem (.st .b4 d a i) ∧ Reads .s 0x06B mem (.st .b8 d a i)) ∧
    (d.toNat % 2 = 0 → Reads .s 0x06C mem (.ldp d a i) ∧ Reads .s 0x06D mem (.stp d a i)) ∧
    (d.toNat % 2 = 1 → ReadsNot .s 0x06C mem ∧ ReadsNot .s 0x06D mem) ∧
    (∀ dy : BitVec 6, (b ≠ 0 ∨ dy ≠ 0) → Reads .s 0x06E (rrr d a b (dy.setWidth 8)) (.str d a b dy)) ∧
    (64 ≤ fn.toNat ∨ (b = 0 ∧ fn = 0) → ReadsNot .s 0x06E (rrr d a b fn)) ∧
    (d ≠ 0 → Reads .s 0x06F mem (.spill d a i) ∧ Reads .s 0x070 (ri d 0 0) (.fill d)) ∧
    (d = 0 → ReadsNot .s 0x06F mem) ∧ (d = 0 ∨ a ≠ 0 ∨ i ≠ 0 → ReadsNot .s 0x070 mem) ∧
    (∀ (ty : AmoTy) (ac rl : Bool) (op : AmoOp) (k : BitVec 3),
      let ord : AmoOrd := { acq := ac, rel := rl }
      let f := fun (k : BitVec 3) => (0 : BitVec 2) ++ BitVec.ofBool rl ++ BitVec.ofBool ac ++ BitVec.ofBool (ty == .i64) ++ k
      (k.toNat = (match op with | .add => 0 | .min => 1 | .max => 2 | .and => 3 | .or => 4 | .xor => 5 | .swp => 6) →
        Reads .s 0x071 (rrr d a b (f k)) (.amo op ty ord d a b)) ∧
      ReadsNot .s 0x071 (rrr d a b (f 7)) ∧ Reads .s 0x072 (rrr d a b (f 0)) (.amocas ty ord d a b) ∧
      (k ≠ 0 → ReadsNot .s 0x072 (rrr d a b (f k))) ∧
      ∀ (t : FpTy) (m : RMode) (hi : BitVec 2), hi.toNat = (match m with | .rne => 0 | .rtz => 1 | .rdn => 2 | .rup => 3) →
        Reads .s 0x073 (rrr d a b (hi ++ BitVec.ofBool rl ++ BitVec.ofBool ac ++ (match t with | .f32 => (6 : BitVec 4) | .f64 => 8)))
          (.famoadd t m ord d a b)) ∧
    (64 ≤ fn.toNat → ReadsNot .s 0x071 (rrr d a b fn) ∧ ReadsNot .s 0x072 (rrr d a b fn)) ∧
    (fn.toNat % 16 ≠ 6 → fn.toNat % 16 ≠ 8 → ReadsNot .s 0x073 (rrr d a b fn)) ∧
    (Reads .s 0x080 o (.br o) ∧ Reads .s 0x081 o (.call o) ∧ Reads .s 0x082 (rrr 0 a 0 0) (.ret a) ∧
      Reads .s 0x083 (rrr d a 0 0) (.jr d a)) ∧
    (d ≠ 0 ∨ b ≠ 0 ∨ fn ≠ 0 → ReadsNot .s 0x082 (rrr d a b fn)) ∧ (b ≠ 0 ∨ fn ≠ 0 → ReadsNot .s 0x083 (rrr d a b fn)) ∧
    (len ≠ 0 → Reads .s 0x084 (lp d 0) (.loop d len lv) ∧ Reads .s 0x085 (lp d 0) (.loopi d len lv) ∧
      Reads .s 0x086 (lp 0 0) (.lbrk len lv)) ∧
    (len = 0 ∨ b ≠ 0 → ReadsNot .s 0x084 (lp d b) ∧ ReadsNot .s 0x085 (lp d b)) ∧
    (len = 0 ∨ b ≠ 0 ∨ d ≠ 0 → ReadsNot .s 0x086 (lp d b)) ∧
    (Reads .s 0x087 (d ++ i20) (.idle d i20) ∧ Reads .s 0x088 ((0 : BitVec 14) ++ len) (.ppt len) ∧
      Reads .s 0x089 0 .align ∧ Reads .s 0x08A 0 .halt) ∧
    (4096 ≤ o.toNat → ReadsNot .s 0x088 o) ∧ (o ≠ 0 → ReadsNot .s 0x089 o ∧ ReadsNot .s 0x08A o)) ∧
  (∀ (d a b : Reg) (fn : BitVec 8) (i : BitVec 14) (i20 : BitVec 20) (o : BitVec 26) (n : BitVec 4) (st : BitVec 7),
    let w := rrr d a b fn
    let zero := fun (op : BitVec 9) (ok : Prop) (i : Instr) => (ok → Reads .s op w i) ∧ (¬ ok → ReadsNot .s op w)
    (zero 0x090 (d.toNat ≤ 1) (.semsig (d == 1) a b fn) ∧ zero 0x091 (d = 0) (.semwt a b fn) ∧
      Reads .s 0x092 w (.semtst d a b fn) ∧ Reads .s 0x093 w (.semwtt d a b fn) ∧ zero 0x094 (a = 0 ∧ b = 0) (.semrd d fn) ∧
      zero 0x095 (a = 0 ∧ b = 0) (.farv d fn) ∧ zero 0x096 (b = 0) (.fwt d a fn) ∧ Reads .s 0x097 w (.fwtt d a b fn) ∧
      Reads .s 0x098 w (.fbar d a b fn)) ∧
    (Reads .s 0x099 (rrr 0 a 0 (b.setWidth 8)) (.wacq a b) ∧ Reads .s 0x09A (rrr d 0 0 (b.setWidth 8)) (.wrd false d b) ∧
      Reads .s 0x09A (rrr d 0 0 (b.setWidth 8 ||| 64)) (.wrd true d b)) ∧
    (d ≠ 0 ∨ b ≠ 0 ∨ 64 ≤ fn.toNat → ReadsNot .s 0x099 w) ∧ (a ≠ 0 ∨ b ≠ 0 ∨ 128 ≤ fn.toNat → ReadsNot .s 0x09A w) ∧
    (zero 0x0A0 (b = 0 ∧ d.toNat < 4 ∧ fn.toNat < 24) (.mcfg d a fn) ∧ zero 0x0A1 (b = 0 ∧ d.toNat < 16 ∧ fn.toNat < 16) (.vcfg d a fn) ∧
      zero 0x0A2 (b = 0 ∧ d.toNat < 32 ∧ fn.toNat < 8) (.dcfg d a fn) ∧ zero 0x0A3 (b = 0 ∧ d.toNat < 32 ∧ fn.toNat < 8) (.tirw d a fn) ∧
      zero 0x0A4 (b = 0 ∧ a.toNat < 32 ∧ fn.toNat < 8) (.tirr d a fn) ∧ zero 0x0A5 (b = 0 ∧ fn = 0 ∧ d.toNat < 16) (.fmtw d a) ∧
      zero 0x0A6 (b = 0 ∧ d.toNat < 8 ∧ fn.toNat < 4) (.ringw d a fn) ∧ zero 0x0A7 (b = 0 ∧ a.toNat < 8 ∧ fn.toNat < 4) (.ringr d a fn)) ∧
    (Reads .s 0x0B0 ((0 : BitVec 6) ++ i20) (.trap i20) ∧ (d ≠ 0 → ReadsNot .s 0x0B0 (d ++ i20)) ∧ Reads .s 0x0B1 0 .eret ∧
      (o ≠ 0 → ReadsNot .s 0x0B1 o) ∧ zero 0x0B2 (a = 0 ∧ b = 0) (.krd d fn)) ∧
    (d = 0 → b = 0 →
      (fn ∉ ([0x0C, 0x3C, 0x77, 0x78, 0x79] : List (BitVec 8)) → fn.toNat < 0x80 → Reads .s 0x0B3 w (.kwr fn a)) ∧
      (fn = 0x0C → Reads .s 0x0B3 w (.kwrTimer a)) ∧ (fn = 0x3C → Reads .s 0x0B3 w (.kwrPoolscope a)) ∧
      (fn = 0x77 → Reads .s 0x0B3 w (.kwrLosssel a)) ∧ (fn = 0x78 → Reads .s 0x0B3 w (.kwrLossval a)) ∧
      (fn = 0x79 → Reads .s 0x0B3 w (.kwrTrcemit a)) ∧
      (0x80 ≤ fn.toNat → fn.toNat < 0xC0 → Reads .s 0x0B3 w (.kwrWdesc (BitVec.ofNat 6 (fn.toNat - 0x80)) a)) ∧
      (0xC0 ≤ fn.toNat → Reads .s 0x0B3 w (.kwrWmap (BitVec.ofNat 6 (fn.toNat - 0xC0)) a))) ∧
    (d ≠ 0 ∨ b ≠ 0 → ReadsNot .s 0x0B3 w) ∧
    (Reads .s 0x0B4 (ri d 0 (n.setWidth 14)) (.mbrd d n) ∧ Reads .s 0x0B5 (ri 0 a (n.setWidth 14)) (.mbwr n a) ∧
      (a ≠ 0 ∨ 16 ≤ i.toNat → ReadsNot .s 0x0B4 (ri d a i)) ∧ (d ≠ 0 ∨ 16 ≤ i.toNat → ReadsNot .s 0x0B5 (ri d a i))) ∧
    (zero 0x0B6 (d = 0 ∧ fn = 0) (.msload a b) ∧ zero 0x0B7 (b = 0 ∧ fn = 0) (.msbind d a) ∧
      zero 0x0B8 (b = 0 ∧ fn.toNat ≤ 1) (.msrd (fn == 1) d a) ∧ Reads .s 0x0B9 (ri d a i) (.caprd d a i) ∧
      Reads .s 0x0BA (rrr d a b (st ++ (0 : BitVec 1))) (.srng false st d a b) ∧
      Reads .s 0x0BA (rrr d a b (st ++ (1 : BitVec 1))) (.srng true st d a b)) ∧
    ∀ (k : BitVec 6) (op : BitVec 9), op.toNat = 0x1C0 + k.toNat → zero op (fn = 0) (.uopn k d a b))

/-- R112 whole: opcode 0 of every slot is its NOP, whatever legal guard it has; with a non-zero operand field it is illegal; the
all-zero word is the NOP of every slot; and a NOP changes nothing. R102 whole: which guards are legal, and when a guard lets its
syllable execute: bit GBIT of the guard register as visible at issue, XOR GNEG. -/
def Obligations.NopsAndGuards : Prop :=
  (Reads .s 0 0 .nop ∧ Reads .m 0 0 .mnop ∧ Reads .v 0 0 .vnop ∧ Reads .d 0 0 .dnop ∧
    (∀ sl o, o ≠ 0 → ReadsNot sl 0 o) ∧
    (∀ sl o (g : Guard), g.wf = false → (decodeSyllable sl (sylWord 0 g o)).toOption = none) ∧
    (∀ sl, (decodeSyllable sl 0).toOption.map (fun y => y.instr.isNop) = some true) ∧
    ∀ s : State, exec .nop s = .next s ∧ exec .mnop s = .next s ∧ exec .vnop s = .next s ∧ exec .dnop s = .next s) ∧
  (∀ g : Guard, g.wf = true ↔ g.reg ≠ 0 ∨ (g.bit = 0 ∧ g.neg = false)) ∧
    (∀ (sl : Slot) (op : BitVec 9) (o : BitVec 26) (g : Guard), g.wf = false →
      (decodeSyllable sl (sylWord op g o)).toOption = none) ∧
    ∀ (s : State) (g : Guard), g.wf = true →
      (s.guardHolds g = true ↔ g.reg = 0 ∨ ((s.rd g.reg).toNat.testBit g.bit.toNat ^^ g.neg) = true)

-- One step (05, 06)

/-- A tile that presents its bundle, with nothing that keeps it from issuing (R115, R133): its clock is on, its die works, no
condition is to be raised, no hold is in progress; p is the state in which the bundle is read. When the four syllables read there
are legal and every executing one passes its issue checks, the step runs the meanings of the executing syllables, engine slots
first, and then goes to the next bundle in fetch order. Where the only syllable that executes is the S one, the step is exec of
that very instruction, followed by the move to the next bundle. -/
def Obligations.StepRunsDecodedBundle : Prop :=
  ∀ (s : State) (c : Ctx) (rest : List Job), s.agenda = .present c :: rest →
    let s1 : State := { s with agenda := rest, cur := c }
    s1.pad.clockOn = true → s1.tile.core.dead = false → s1.tile.core.faulted = false → s1.raised.now = [] → s1.timerDue = false →
    s1.tile.core.hold = .none → s1.tile.core.halted = false → s1.tile.core.entering = false →
    let p := s1.settled s1.raised.held s1.raised.waiting
    (∀ bs, p.plan = .go bs →
      step s = Out.bind ((p.fetch.1.runList bs).foldl (fun o i => Out.bind o (exec i)) (.next p.fetch.1.breakBundle))
        fun t => .next t.afterIssue) ∧
    (∀ (bs : BundleBits) (y : Syllable), p.tile.core.pc.toNat ≤ 5460 → p.fetch.2 = .ok bs →
      decodeSyllable .s (bundleSyl bs .s) = .ok y → bundleSyl bs .m = 0 → bundleSyl bs .v = 0 → bundleSyl bs .d = 0 →
      p.ctxOk bs y.instr = true → p.guardHolds y.guard = true → y.instr.isNop = false →
      p.scalarVerdict (p.resolve y.instr) = .ok →
      step s = Out.bind (exec (p.resolve y.instr) p.fetch.1.breakBundle) fun t => .next t.afterIssue)

/-- Every step keeps every memory of the machine in its canonical form: pools, instruction and control stores, table memories,
the HBM of every paddock and the memory of the host. -/
def Obligations.StepKeepsCanonicalMemory : Prop :=
  ∀ s t : State, s.memOk → step s = .next t → t.memOk

/-- R24, R54, R94, R400, R464, R469: what the machine is at its first power-on: no paddock, no session, no pending partition,
no row remapped since the factory, an empty repair log, panel number 0, the first power state (the count of R469), all memories empty
and canonical. The model's own choices among these, which no rule gives: the ring bases read 0 (assumption log 7), and a byte of the
host's memory that nothing has written reads 0 (log 3). -/
def Obligations.PowerOnState : Prop :=
  State.reset.memOk ∧ State.reset.pads = [] ∧ State.reset.fns = [] ∧ State.reset.dtick = 0 ∧
    (∀ n, (State.reset.fn n).session = none ∧ (State.reset.fn n).cbase = 0 ∧ (State.reset.fn n).kbase = 0 ∧
      (State.reset.fn n).rcfg = 0 ∧ (State.reset.fn n).head = 0 ∧ (State.reset.fn n).tail = 0) ∧
    State.reset.panel.panelno = 0 ∧ State.reset.panel.log = [] ∧ State.reset.panel.remap = [] ∧
    State.reset.panel.power = 1 ∧ State.reset.panel.pstat = 0 ∧ ∀ m a, State.reset.byteAt m a = 0

-- Integer instructions (07)

/-- R164 whole, with Table 7-2 and the latencies of Table 6-1: every register-to-register integer instruction is read from its
opcode in format RRR with fn 0 (and b 0 for the single-operand ones, other words being illegal, as any of a division's cells is whose fn
is not 0), goes on in every state, and gives s[d] the value of the table. -/
def Obligations.IntegerResults : Prop :=
  (∀ (s : State) (d a b : Reg),
    let x := s.rd a
    let y := s.rd b
    let n := y.toNat % 64
    Gives (.add d a b) s d 1 (fun v => v.toNat = (x.toNat + y.toNat) % 2 ^ 64) ∧
    Gives (.sub d a b) s d 1 (fun v => (v.toNat + y.toNat) % 2 ^ 64 = x.toNat) ∧
    Gives (.mul d a b) s d 3 (fun v => v.toNat = x.toNat * y.toNat % 2 ^ 64) ∧
    Gives (.mulh d a b) s d 3 (fun v => v.toInt = x.toInt * y.toInt / 2 ^ 64) ∧
    Gives (.mulhn d a b) s d 3 (fun v => v.toNat = x.toNat * y.toNat / 2 ^ 64) ∧
    Gives (.and d a b) s d 1 (fun v => ∀ i, i < 64 → v.getLsbD i = (x.getLsbD i && y.getLsbD i)) ∧
    Gives (.or d a b) s d 1 (fun v => ∀ i, i < 64 → v.getLsbD i = (x.getLsbD i || y.getLsbD i)) ∧
    Gives (.xor d a b) s d 1 (fun v => ∀ i, i < 64 → v.getLsbD i = (x.getLsbD i ^^ y.getLsbD i)) ∧
    Gives (.andn d a b) s d 1 (fun v => ∀ i, i < 64 → v.getLsbD i = (x.getLsbD i && !y.getLsbD i)) ∧
    Gives (.shl d a b) s d 1 (fun v => v.toNat = x.toNat * 2 ^ n % 2 ^ 64) ∧
    Gives (.shr d a b) s d 1 (fun v => v.toNat = x.toNat / 2 ^ n) ∧
    Gives (.sar d a b) s d 1 (fun v => v.toInt = x.toInt / 2 ^ n) ∧
    Gives (.rotl d a b) s d 1 (fun v => ∀ i, i < 64 → v.getLsbD ((i + n) % 64) = x.getLsbD i) ∧
    Gives (.clz d a) s d 1 (fun v => v.toNat ≤ 64 ∧ (∀ i, 64 - v.toNat ≤ i → x.getLsbD i = false) ∧
      (v.toNat < 64 → x.getLsbD (63 - v.toNat) = true)) ∧
    Gives (.ctz d a) s d 1 (fun v => v.toNat ≤ 64 ∧ (∀ i, i < v.toNat → x.getLsbD i = false) ∧
      (v.toNat < 64 → x.getLsbD v.toNat = true)) ∧
    Gives (.popc d a) s d 1 (fun v => v.toNat = ((List.range 64).filter fun i => x.getLsbD i).length) ∧
    Gives (.min d a b) s d 1 (fun v => v.toInt = min x.toInt y.toInt) ∧
    Gives (.max d a b) s d 1 (fun v => v.toInt = max x.toInt y.toInt) ∧
    Gives (.minn d a b) s d 1 (fun v => v.toNat = min x.toNat y.toNat) ∧
    Gives (.maxn d a b) s d 1 (fun v => v.toNat = max x.toNat y.toNat)) ∧
  ∀ d a b : Reg,
    Reads .s 0x001 (rrr d a b 0) (.add d a b) ∧ Reads .s 0x003 (rrr d a b 0) (.sub d a b) ∧
    Reads .s 0x004 (rrr d a b 0) (.mul d a b) ∧ Reads .s 0x005 (rrr d a b 0) (.mulh d a b) ∧
    Reads .s 0x006 (rrr d a b 0) (.mulhn d a b) ∧ Reads .s 0x00B (rrr d a b 0) (.and d a b) ∧
    Reads .s 0x00D (rrr d a b 0) (.or d a b) ∧ Reads .s 0x00F (rrr d a b 0) (.xor d a b) ∧
    Reads .s 0x011 (rrr d a b 0) (.andn d a b) ∧ Reads .s 0x012 (rrr d a b 0) (.shl d a b) ∧
    Reads .s 0x014 (rrr d a b 0) (.shr d a b) ∧ Reads .s 0x016 (rrr d a b 0) (.sar d a b) ∧
    Reads .s 0x018 (rrr d a b 0) (.rotl d a b) ∧ Reads .s 0x019 (rrr d a 0 0) (.clz d a) ∧
    Reads .s 0x01A (rrr d a 0 0) (.ctz d a) ∧ Reads .s 0x01B (rrr d a 0 0) (.popc d a) ∧
    Reads .s 0x01C (rrr d a b 0) (.min d a b) ∧ Reads .s 0x01D (rrr d a b 0) (.max d a b) ∧
    Reads .s 0x01E (rrr d a b 0) (.minn d a b) ∧ Reads .s 0x01F (rrr d a b 0) (.maxn d a b) ∧
    (b ≠ 0 → ∀ fn, ReadsNot .s 0x019 (rrr d a b fn) ∧ ReadsNot .s 0x01A (rrr d a b fn) ∧ ReadsNot .s 0x01B (rrr d a b fn)) ∧
    ∀ op ∈ ([0x01, 0x03, 0x04, 0x05, 0x06, 0x07, 0x08, 0x09, 0x0A, 0x0B, 0x0D, 0x0F, 0x11, 0x12, 0x14, 0x16, 0x18, 0x19, 0x1A, 0x1B, 0x1C,
      0x1D, 0x1E, 0x1F] : List (BitVec 9)), ∀ fn : BitVec 8, fn ≠ 0 → ReadsNot .s op (rrr d a b fn)

/-- R165 whole: quotients truncate toward zero, remainders take the sign of the dividend, a zero divisor gives all ones and the
dividend without a trap, and the one overflowing quotient is −2⁶³ with remainder 0; 18 cycles each (Table 6-1). R166 whole: the
immediate integer instructions; the immediate of all but the shifts is sign-extended, that of a shift is 0 to 63 and any other
makes the word illegal. -/
def Obligations.DivisionAndImmediates : Prop :=
  (((∀ (s : State) (d a b : Reg),
    let x := s.rd a
    let y := s.rd b
    (y = 0 →
      Gives (.div d a b) s d 18 (fun v => v.toNat = 2 ^ 64 - 1) ∧ Gives (.divn d a b) s d 18 (fun v => v.toNat = 2 ^ 64 - 1) ∧
      Gives (.rem d a b) s d 18 (fun v => v = x) ∧ Gives (.remn d a b) s d 18 (fun v => v = x)) ∧
    (x.toInt = -2 ^ 63 → y.toInt = -1 →
      Gives (.div d a b) s d 18 (fun v => v.toInt = -2 ^ 63) ∧ Gives (.rem d a b) s d 18 (fun v => v = 0)) ∧
    (y ≠ 0 → ¬ (x.toInt = -2 ^ 63 ∧ y.toInt = -1) →
      ∃ q r : Int, x.toInt = q * y.toInt + r ∧ |r| < |y.toInt| ∧ (0 < r → 0 < x.toInt) ∧ (r < 0 → x.toInt < 0) ∧
        Gives (.div d a b) s d 18 (fun v => v.toInt = q) ∧ Gives (.rem d a b) s d 18 (fun v => v.toInt = r)) ∧
    (y ≠ 0 →
      ∃ q r : Nat, x.toNat = q * y.toNat + r ∧ r < y.toNat ∧
        Gives (.divn d a b) s d 18 (fun v => v.toNat = q) ∧ Gives (.remn d a b) s d 18 (fun v => v.toNat = r))) ∧
  ∀ d a b : Reg,
    Reads .s 0x007 (rrr d a b 0) (.div d a b) ∧ Reads .s 0x008 (rrr d a b 0) (.divn d a b) ∧
    Reads .s 0x009 (rrr d a b 0) (.rem d a b) ∧ Reads .s 0x00A (rrr d a b 0) (.remn d a b)) ∧
  ((∀ (s : State) (d a : Reg) (i : BitVec 14) (n : BitVec 6),
    let x := s.rd a
    let j := i.signExtend 64
    Gives (.addi d a i) s d 1 (fun v => v.toNat = ((x.toNat + i.toInt) % 2 ^ 64).toNat) ∧
    Gives (.andi d a i) s d 1 (fun v => ∀ k, k < 64 → v.getLsbD k = (x.getLsbD k && j.getLsbD k)) ∧
    Gives (.ori d a i) s d 1 (fun v => ∀ k, k < 64 → v.getLsbD k = (x.getLsbD k || j.getLsbD k)) ∧
    Gives (.xori d a i) s d 1 (fun v => ∀ k, k < 64 → v.getLsbD k = (x.getLsbD k ^^ j.getLsbD k)) ∧
    Gives (.shli d a n) s d 1 (fun v => v.toNat = x.toNat * 2 ^ n.toNat % 2 ^ 64) ∧
    Gives (.shri d a n) s d 1 (fun v => v.toNat = x.toNat / 2 ^ n.toNat) ∧
    Gives (.sari d a n) s d 1 (fun v => v.toInt = x.toInt / 2 ^ n.toNat)) ∧
  ∀ (d a : Reg) (i : BitVec 14) (n : BitVec 6),
    Reads .s 0x002 (ri d a i) (.addi d a i) ∧ Reads .s 0x00C (ri d a i) (.andi d a i) ∧
    Reads .s 0x00E (ri d a i) (.ori d a i) ∧ Reads .s 0x010 (ri d a i) (.xori d a i) ∧
    Reads .s 0x013 (ri d a (n.setWidth 14)) (.shli d a n) ∧ Reads .s 0x015 (ri d a (n.setWidth 14)) (.shri d a n) ∧
    Reads .s 0x017 (ri d a (n.setWidth 14)) (.sari d a n) ∧
    (64 ≤ i.toNat → ReadsNot .s 0x013 (ri d a i) ∧ ReadsNot .s 0x015 (ri d a i) ∧ ReadsNot .s 0x017 (ri d a i))))

/-- R167 and R168 whole: a comparison writes 1 when its condition holds and 0 when it does not, for each condition of Table 7-4
between two registers and between a register and a sign-extended immediate taken as a pattern; SEL takes its first source when the
third register is not zero. R169 to R172 whole: constants, bit fields, single bits and scaled addresses, with what their operands
may be. -/
def Obligations.CompareSelectConstants : Prop :=
  (((∀ (s : State) (d a b c : Reg) (i : BitVec 14),
    let x := s.rd a
    let truth := fun (y : W64) (k : IntCond) => (match k with
      | .eq => decide (x.toNat = y.toNat) | .ne => decide (x.toNat ≠ y.toNat)
      | .lt => decide (x.toInt < y.toInt) | .le => decide (x.toInt ≤ y.toInt)
      | .ltn => decide (x.toNat < y.toNat) | .len => decide (x.toNat ≤ y.toNat))
    (∀ k, Gives (.cmp k d a b) s d 1 (fun v => v.toNat = (truth (s.rd b) k).toNat)) ∧
    (∀ k, Gives (.cmpi k d a i) s d 1 (fun v => v.toNat = (truth (i.signExtend 64) k).toNat)) ∧
    Gives (.sel d a b c) s d 1 (fun v => (s.rd c ≠ 0 → v = s.rd a) ∧ (s.rd c = 0 → v = s.rd b))) ∧
  ∀ (d a b c : Reg) (i : BitVec 14),
    Reads .s 0x020 (rrr d a b 0) (.cmp .eq d a b) ∧ Reads .s 0x020 (rrr d a b 1) (.cmp .ne d a b) ∧
    Reads .s 0x020 (rrr d a b 2) (.cmp .lt d a b) ∧ Reads .s 0x020 (rrr d a b 3) (.cmp .le d a b) ∧
    Reads .s 0x020 (rrr d a b 4) (.cmp .ltn d a b) ∧ Reads .s 0x020 (rrr d a b 5) (.cmp .len d a b) ∧
    (∀ fn : BitVec 8, 6 ≤ fn.toNat → ReadsNot .s 0x020 (rrr d a b fn)) ∧
    Reads .s 0x021 (ri d a i) (.cmpi .eq d a i) ∧ Reads .s 0x022 (ri d a i) (.cmpi .ne d a i) ∧
    Reads .s 0x023 (ri d a i) (.cmpi .lt d a i) ∧ Reads .s 0x024 (ri d a i) (.cmpi .le d a i) ∧
    Reads .s 0x025 (ri d a i) (.cmpi .ltn d a i) ∧ Reads .s 0x026 (ri d a i) (.cmpi .len d a i) ∧
    Reads .s 0x027 (rrr d a b (c.setWidth 8)) (.sel d a b c) ∧
    ∀ fn : BitVec 8, 64 ≤ fn.toNat → ReadsNot .s 0x027 (rrr d a b fn)) ∧
  ((∀ (s : State) (d a b : Reg) (i20 : BitVec 20) (i16 : BitVec 16) (h : BitVec 2) (pos l n : BitVec 6) (sh : BitVec 3),
    let x := s.rd a
    let len := l.toNat + 1
    Gives (.movi d i20) s d 1 (fun v => v.toInt = i20.toInt) ∧
    Gives (.orhi d i16 h) s d 1 (fun v => ∀ k, k < 64 → v.getLsbD k =
      ((s.rd d).getLsbD k || (decide (16 * h.toNat ≤ k ∧ k < 16 * h.toNat + 16) && i16.getLsbD (k - 16 * h.toNat)))) ∧
    (pos.toNat + len ≤ 64 →
      Gives (.bfx d a pos l) s d 1 (fun v => ∀ k, k < 64 → v.getLsbD k = (decide (k < len) && x.getLsbD (pos.toNat + k))) ∧
      Gives (.bfxs d a pos l) s d 1 (fun v => ∀ k, k < 64 → v.getLsbD k = x.getLsbD (pos.toNat + min k l.toNat)) ∧
      Gives (.bfi d a pos l) s d 1 (fun v => ∀ k, k < 64 → v.getLsbD k =
        if pos.toNat ≤ k ∧ k < pos.toNat + len then x.getLsbD (k - pos.toNat) else (s.rd d).getLsbD k)) ∧
    Gives (.bset d a n) s d 1 (fun v => ∀ k, k < 64 → v.getLsbD k = (x.getLsbD k || decide (k = n.toNat))) ∧
    Gives (.bclr d a n) s d 1 (fun v => ∀ k, k < 64 → v.getLsbD k = (x.getLsbD k && !decide (k = n.toNat))) ∧
    Gives (.lea d a b sh) s d 1 (fun v => v.toNat = (x.toNat + (s.rd b).toNat * 2 ^ sh.toNat) % 2 ^ 64)) ∧
  ∀ (d a b : Reg) (i20 : BitVec 20) (i16 : BitVec 16) (h : BitVec 2) (pos l n : BitVec 6) (sh : BitVec 3) (i : BitVec 14),
    Reads .s 0x028 (d ++ i20) (.movi d i20) ∧ Reads .s 0x029 (d ++ (0 : BitVec 2) ++ h ++ i16) (.orhi d i16 h) ∧
    (∀ t : BitVec 2, t ≠ 0 → ReadsNot .s 0x029 (d ++ t ++ h ++ i16)) ∧
    (pos.toNat + l.toNat + 1 ≤ 64 → Reads .s 0x02A (rrr d a pos (l.setWidth 8)) (.bfx d a pos l) ∧
      Reads .s 0x02B (rrr d a pos (l.setWidth 8)) (.bfxs d a pos l) ∧
      Reads .s 0x02C (rrr d a pos (l.setWidth 8)) (.bfi d a pos l)) ∧
    (∀ fn : BitVec 8, 64 ≤ fn.toNat ∨ 64 ≤ pos.toNat + fn.toNat → ReadsNot .s 0x02A (rrr d a pos fn) ∧
      ReadsNot .s 0x02B (rrr d a pos fn) ∧ ReadsNot .s 0x02C (rrr d a pos fn)) ∧
    Reads .s 0x02D (ri d a (n.setWidth 14)) (.bset d a n) ∧ Reads .s 0x02E (ri d a (n.setWidth 14)) (.bclr d a n) ∧
    (64 ≤ i.toNat → ReadsNot .s 0x02D (ri d a i) ∧ ReadsNot .s 0x02E (ri d a i)) ∧
    Reads .s 0x02F (rrr d a b (sh.setWidth 8)) (.lea d a b sh) ∧
    ∀ fn : BitVec 8, 8 ≤ fn.toNat → ReadsNot .s 0x02F (rrr d a b fn)))

-- Scalar floating point (07)

/-- The float instructions go on in every state and give s[d], after the latency of Table 6-1, the one rounding of the exact result
of the operands' bits with its flags (R173 to R175, R178), FCVT in the bits of its type with zeros above, or the sign of an i32; FFMA one
rounding of the exact product and sum, NV where the product is of infinity and zero, and else a NaN where an operand is one; FRCPA and
FRSQA what their steps make of sign, exponent and fraction (R181 to R183). R176 and R177 are said by cases of their own. R9, R264: what
each rounding mode makes of a magnitude m · 2^e on the grid of the multiples of 2^q: the nearest one with ties to even, the nearest not
larger in magnitude, not above, not below; inexact exactly when the grid does not hold the value. -/
def Obligations.FloatResults : Prop :=
  (∀ (s : State) (t : FpTy) (md : RMode) (d a b : Reg),
    let w := t.bytes * 8
    let x := widen t.fmt ((s.rd a).toNat % 2 ^ w)
    let y := widen t.fmt ((s.rd b).toNat % 2 ^ w)
    let res := fun (r : FRes) (v : W64) (fl : BitVec 7) => v = BitVec.ofNat 64 r.pat ∧ fl = r.fl
    let sig := x.isSig || y.isSig
    (x.isNan = false → y.isNan = false →
      GivesFl (.fadd t md d a b) s d 4 (res ((x.add y md.rnd).round t.fmt md.rnd)) ∧
      GivesFl (.fsub t md d a b) s d 4 (res ((x.add y.negate md.rnd).round t.fmt md.rnd)) ∧
      GivesFl (.fmul t md d a b) s d 4 (res ((x.mul y).round t.fmt md.rnd))) ∧
    (x.isNan = true ∨ y.isNan = true →
      GivesFl (.fadd t md d a b) s d 4 (res { pat := t.fmt.qnan, fl := if sig then flNV else 0 }) ∧
      GivesFl (.fsub t md d a b) s d 4 (res { pat := t.fmt.qnan, fl := if sig then flNV else 0 }) ∧
      GivesFl (.fmul t md d a b) s d 4 (res { pat := t.fmt.qnan, fl := if sig then flNV else 0 })) ∧
    (let z := widen t.fmt ((s.rd d).toNat % 2 ^ w)
      let gives := GivesFl (.ffma t md d a b) s d (match t with | .f32 => 5 | .f64 => 6)
      let lost := fun (inv : Bool) => res { pat := t.fmt.qnan, fl := if inv then flNV else 0 }
      (x.isNan = true ∨ y.isNan = true → gives (lost (sig || z.isSig))) ∧
      (∀ (u v : Bool) (e : Int), (x = .inf u ∧ y = .fin v 0 e) ∨ (x = .fin v 0 e ∧ y = .inf u) → gives (lost true)) ∧
      (∀ p, x.mul y = .val p → (z.isNan = true → gives (lost z.isSig)) ∧
        (z.isNan = false → gives (res ((p.add z md.rnd).round t.fmt md.rnd))))) ∧
    (let m := match t with | .f32 => 23 | .f64 => 52
      let top := match t with | .f32 => 255 | .f64 => 2047
      let bias : Int := match t with | .f32 => 127 | .f64 => 1023
      let u := (s.rd a).toNat % 2 ^ w
      let neg := u / 2 ^ (w - 1)
      let ex := u / 2 ^ m % (top + 1)
      let fr := u % 2 ^ m
      let inf := fun (sg : Nat) => BitVec.ofNat 64 (sg * 2 ^ (w - 1) + top * 2 ^ m)
      let zero := fun (sg : Nat) => BitVec.ofNat 64 (sg * 2 ^ (w - 1))
      let nan := fun (v : W64) (fl : BitVec 7) (nv : Bool) => v = BitVec.ofNat 64 t.fmt.qnan ∧ fl = if nv then flNV else 0
      let up := m - Nat.log2 fr
      let e : Int := if ex = 0 then 1 - bias - up else ex - bias
      let f := (if ex = 0 then fr * 2 ^ up % 2 ^ m else fr) / 2 ^ (m - 23)
      let pack := fun (sg : Nat) (k : Int) (y : Nat) (v : W64) (fl : BitVec 7) =>
        let k' := if 2 ^ 15 ≤ y then k - 1 else k - 2
        let g := if 2 ^ 15 ≤ y then y % 2 ^ 15 * 2 ^ 8 else y % 2 ^ 14 * 2 ^ 9
        (bias < k' → v = inf sg ∧ fl = flOF) ∧ (k' < 1 - bias → v = zero sg ∧ fl = flUF) ∧
        (k' ≤ bias → 1 - bias ≤ k' →
          v = BitVec.ofNat 64 (sg * 2 ^ (w - 1) + (k' + bias).toNat * 2 ^ m + g * 2 ^ (m - 23)) ∧ fl = 0)
      GivesFl (.frcpa t d a) s d 6 (fun v fl =>
        (ex = top → fr ≠ 0 → nan v fl (decide (fr < 2 ^ (m - 1)))) ∧ (ex = 0 → fr = 0 → v = inf neg ∧ fl = flDZ) ∧
        (ex = top → fr = 0 → v = zero neg ∧ fl = 0) ∧
        (ex ≠ top → ex ≠ 0 ∨ fr ≠ 0 →
          let y := 2 ^ 25 / (513 + 2 * (f / 2 ^ 15))
          pack neg (-e) (y * (2 ^ 40 - (2 ^ 23 + f) * y) / 2 ^ 39) v fl)) ∧
      GivesFl (.frsqa t d a) s d 6 (fun v fl =>
        (ex = top → fr ≠ 0 → nan v fl (decide (fr < 2 ^ (m - 1)))) ∧ (ex = 0 → fr = 0 → v = inf neg ∧ fl = flDZ) ∧
        (ex = top → fr = 0 → neg = 0 → v = 0 ∧ fl = 0) ∧
        (neg = 1 → (ex = top ∧ fr = 0) ∨ (ex ≠ top ∧ (ex ≠ 0 ∨ fr ≠ 0)) → nan v fl true) ∧
        (neg = 0 → ex ≠ top → ex ≠ 0 ∨ fr ≠ 0 →
          let p := (e % 2).toNat
          let n := (257 + 2 * (f / 2 ^ 16)) * (1 + p)
          ∃ y, y * y * n ≤ 2 ^ 40 ∧ 2 ^ 40 < (y + 1) * (y + 1) * n ∧
            pack 0 (-((e - p) / 2)) (y * (3 * 2 ^ 55 - (2 ^ 23 + f) * 2 ^ p * y * y) / 2 ^ 56) v fl))) ∧
    ∀ td ts : ScalarTy, td ≠ ts →
      GivesFl (.fcvt td ts md d a) s d 4 (fun v fl =>
        let r := round (widen ts.fmt ((s.rd a).toNat % 2 ^ ts.fmt.width)) td.fmt md.rnd
        v = (if td = .i32 then (BitVec.ofNat 32 r.pat).signExtend 64 else BitVec.ofNat 64 (r.pat % 2 ^ td.fmt.width)) ∧ fl = r.fl)) ∧
  (∀ (neg : Bool) (m : Nat) (e q : Int) (md : Rnd), (∀ u, md ≠ .rsr u) →
    let r := roundAt neg m e q md
    (q ≤ e → r = (m * 2 ^ (e - q).toNat, false)) ∧
    (e < q →
      let d := 2 ^ (q - e).toNat
      (r.2 = true ↔ m % d ≠ 0) ∧ (r.2 = false → r.1 * d = m) ∧ r.1 * d < m + d ∧ m < r.1 * d + d ∧
      (md = .rtz → r.1 * d ≤ m) ∧ (md = .rdn → if neg then m ≤ r.1 * d else r.1 * d ≤ m) ∧
      (md = .rup → if neg then r.1 * d ≤ m else m ≤ r.1 * d) ∧
      (md = .rne → 2 * (r.1 * d) ≤ 2 * m + d ∧ 2 * m ≤ 2 * (r.1 * d) + d ∧
        (2 * (r.1 * d) = 2 * m + d ∨ 2 * m = 2 * (r.1 * d) + d → r.1 % 2 = 0))))

/-- R176, R177, R179 and R180: minima and maxima return an operand bit for bit, the other operand when one is a NaN, and the
canonical quiet NaN when both are; comparisons are false on a NaN but for .UN; FCLASS gives the bit of the number's class among
ten; FSGN replaces the sign bit alone. NV is set exactly as the rules say, and the last two set no flag. -/
def Obligations.FloatSelections : Prop :=
  ∀ (s : State) (t : FpTy) (d a b : Reg),
    let w := t.bytes * 8
    let p := (s.rd a).toNat % 2 ^ w
    let q := (s.rd b).toNat % 2 ^ w
    let x := widen t.fmt p
    let y := widen t.fmt q
    let nv := fun (c : Bool) => if c then flNV else 0
    let sig := x.isSig || y.isSig
    let nan := x.isNan || y.isNan
    (∀ big : Bool, GivesFl (if big then .fmax t d a b else .fmin t d a b) s d 4 (fun v fl => fl = nv sig ∧
      (x.isNan = true → y.isNan = true → v.toNat = t.fmt.qnan) ∧ (x.isNan = true → y.isNan = false → v.toNat = q) ∧
      (x.isNan = false → y.isNan = true → v.toNat = p) ∧
      (nan = false → (v.toNat = p ∨ v.toNat = q) ∧
        (v.toNat ≠ p → (if big then Val.below x y else Val.below y x) = true)))) ∧
    (∀ c : FpCond, GivesFl (.fcmp c t d a b) s d 2 (fun v fl =>
      (v = 1 ∨ v = 0) ∧ (nan = true → (v = 1 ↔ c = .un)) ∧
      (nan = false → (v = 1 ↔ (match c with
        | .eq => x.cmp y = .eq | .lt => x.cmp y = .lt | .le => x.cmp y ≠ .gt | .un => False))) ∧
      fl = nv (match c with | .eq => sig | .un => sig | .lt => nan | .le => nan))) ∧
    (let m := (match t with | .f32 => 23 | .f64 => 52)
     let neg := p.testBit (w - 1)
     let ex := p / 2 ^ m % 2 ^ (w - 1 - m)
     let fr := p % 2 ^ m
     GivesFl (.fclass t d a) s d 1 (fun v fl => fl = 0 ∧ v.toNat = 2 ^ (
       if ex = 2 ^ (w - 1 - m) - 1 then
         (if fr = 0 then (if neg then 0 else 7) else if fr < 2 ^ (m - 1) then 8 else 9)
       else if ex = 0 then
         (if fr = 0 then (if neg then 3 else 4) else if neg then 2 else 5)
       else if neg then 1 else 6))) ∧
    ∀ op : SgnOp, GivesFl (.fsgn op t d a b) s d 1 (fun v fl => fl = 0 ∧ v.toNat % 2 ^ (w - 1) = p % 2 ^ (w - 1) ∧
      v.toNat < 2 ^ w ∧ (v.getLsbD (w - 1) = match op with
        | .j => q.testBit (w - 1) | .jn => !q.testBit (w - 1) | .jx => (p.testBit (w - 1) ^^ q.testBit (w - 1))))

-- Registers (06)

/-- R135: a register write reads as the old value until its landing cycle and as the written one from it on, unless another write
lands later; of writes landing together the one issued last wins; an older write of longer latency overwrites; s0 always reads
zero and a write of it changes no register. Said of one core on which writes wait (c), with nothing else issued. -/
def Obligations.WritesLandAtTheirLatency : Prop :=
  ∀ (s : State) (d : Reg) (v : W64) (lat : Nat) (fl : BitVec 7), 1 ≤ lat → (∀ w ∈ s.tile.core.pend, 1 ≤ w.left) →
    let t := s.laterFl d v lat fl
    (∀ n r, n < lat → t.rdAfter n r = s.rdAfter n r) ∧ (∀ n r, r ≠ d → t.rdAfter n r = s.rdAfter n r) ∧
    (d ≠ 0 → t.rdAfter lat d = v) ∧
    (∀ n, d ≠ 0 → lat ≤ n → (∀ w ∈ s.tile.core.pend, w.reg = d → w.left ≤ lat ∨ n < w.left) → t.rdAfter n d = v) ∧
    (∀ n, (∃ w ∈ s.tile.core.pend, w.reg = d ∧ lat < w.left ∧ w.left ≤ n) → t.rdAfter n d = s.rdAfter n d) ∧
    ∀ n, t.rdAfter n 0 = 0

/-- R134, R135: the frame of every instruction of slot S that only gives a register a value. When it goes on, nothing has changed but
what waits to land in the core of the current tile: one write, of its destination alone, with a latency of one cycle or more and with
flags only where the instruction is a float one; none where the destination is s0 and no flag is set. Every register, flag, control
register, queue, engine, synchronisation object and byte of memory reads as before, the program counter included. -/
def Obligations.RegisterResultFrame : Prop :=
  ∀ (s t : State) (i : Instr),
    let whole : Option Reg := match i with
      | .add d _ _ | .sub d _ _ | .mul d _ _ | .mulh d _ _ | .mulhn d _ _ | .div d _ _ | .divn d _ _ | .rem d _ _ | .remn d _ _
      | .and d _ _ | .or d _ _ | .xor d _ _ | .andn d _ _ | .shl d _ _ | .shr d _ _ | .sar d _ _ | .rotl d _ _ | .min d _ _
      | .max d _ _ | .minn d _ _ | .maxn d _ _ | .clz d _ | .ctz d _ | .popc d _ | .addi d _ _ | .andi d _ _ | .ori d _ _
      | .xori d _ _ | .shli d _ _ | .shri d _ _ | .sari d _ _ | .bset d _ _ | .bclr d _ _ | .movi d _ | .cmp _ d _ _
      | .cmpi _ d _ _ | .sel d _ _ _ | .orhi d _ _ | .bfx d _ _ _ | .bfxs d _ _ _ | .bfi d _ _ _ | .lea d _ _ _ | .tirr d _ _
      | .ringr d _ _ | .mbrd d _ | .srng _ _ d _ _ => some d
      | _ => none
    let float : Option Reg := match i with
      | .fadd _ _ d _ _ | .fsub _ _ d _ _ | .fmul _ _ d _ _ | .ffma _ _ d _ _ | .fmin _ d _ _ | .fmax _ d _ _ | .fcmp _ _ d _ _
      | .fcvt _ _ _ d _ | .frsqa _ d _ | .frcpa _ d _ | .fclass _ d _ | .fsgn _ _ d _ _ => some d
      | _ => none
    ∀ d : Reg, whole = some d ∨ float = some d → exec i s = .next t →
      OnlyCore s t ∧ SameMemory s t ∧ (∀ r, t.rd r = s.rd r) ∧ t.tile.ctl = s.tile.ctl ∧ t.tile.sync = s.tile.sync ∧
      t.tile.mq = s.tile.mq ∧ t.tile.vq = s.tile.vq ∧ t.tile.dq = s.tile.dq ∧ t.tile.mx = s.tile.mx ∧ t.tile.vec = s.tile.vec ∧
      t.tile.dr = s.tile.dr ∧ { t.tile.core with pend := [] } = { s.tile.core with pend := [] } ∧
      ∃ ws, t.tile.core.pend = s.tile.core.pend ++ ws ∧ ws.length ≤ 1 ∧ (d ≠ 0 → ws.length = 1) ∧
        ∀ w ∈ ws, w.reg = d ∧ 1 ≤ w.left ∧ (whole = some d → w.flags = 0) ∧ (d = 0 → w.flags ≠ 0)

-- Control transfers, loops, holds (06, 07)

/-- R147, R191: outside the delay bundles of a taken transfer, BR, CALL, RET and JR go on: the transfer is pending with its target,
after the bundle that takes it and two delay bundles, and CALL and JR write the link i + 3 with latency 1 (none in s0); in a
delay bundle each raises ILLEGAL_SYLLABLE at issue. Memory and the registers as visible now stay as they are. -/
def Obligations.TransfersTaken : Prop :=
  ∀ (s : State) (d a : Reg) (off : BitVec 26),
    let pc := s.tile.core.pc
    let goes := fun (t : State) (target link : W64) (r : Reg) (j : Bool) =>
      t.tile.core = { s.tile.core.later r link 1 0 with xfer := some { target := target, left := 3, jump := j } } ∧
        SameMemory s t ∧ ∀ k, t.rd k = s.rd k
    (s.inDelay = false →
      (∃ t, exec (.br off) s = .next t ∧ goes t (pc + off.signExtend 64) 0 0 true) ∧
      (∃ t, exec (.call off) s = .next t ∧ goes t (pc + off.signExtend 64) (pc + 3) 63 false) ∧
      (∃ t, exec (.ret a) s = .next t ∧ goes t (s.rd a) 0 0 false) ∧
      (∃ t, exec (.jr d a) s = .next t ∧ goes t (s.rd a) (pc + 3) d true)) ∧
    (s.inDelay = true → ∀ i ∈ [Instr.br off, .call off, .ret a, .jr d a],
      ∃ f, f.cause = .illegalSyllable ∧ exec i s = .next (s.takeFault f))

/-- R146, R151, R152: after a taken transfer the next two bundles in fetch order are delay bundles and the third move goes to the
target, whatever loops end there; a loop whose body does not hold the target of a BR or JR is left on that move, with every
level above it, while CALL and RET leave no loop. R150, R151: the loop-end tests of a bundle, when no transfer reaches its
target after it, with or without a transfer under way. They are made where the innermost active level ends on the bundle: of the levels
that end there, the innermost that has iterations left loops back at no cost, and those inside it finish; when none does, every level
that ends there finishes and fetch falls through. A finished level keeps its count. Elsewhere fetch falls through and no level
changes. -/
def Obligations.EndOfABundle : Prop :=
  (∀ (c : Core) (x : Xfer), c.xfer = some x → c.next = none →
    (x.left = 1 →
      c.advance.pc = x.target ∧ c.advance.xfer = none ∧
      (x.jump = false → ∀ l, c.advance.level l = c.level l) ∧
      (x.jump = true → ∀ l, l < 4 →
        ((c.advance.level l).active = true ↔ (c.level l).active = true ∧
          ∀ k, k ≤ l → (c.level k).active = true → (c.level k).first ≤ x.target.toNat ∧ x.target.toNat ≤ (c.level k).last) ∧
        (c.advance.level l).cnt = (c.level l).cnt ∧ (c.advance.level l).trip = (c.level l).trip)) ∧
    (2 ≤ x.left → c.advance.xfer = some { x with left := x.left - 1 }) ∧
    (x.left = 3 → (∀ l, l < 4 → (c.level l).active = false) →
      c.advance.pc = c.pc + 1 ∧ c.advance.advance.pc = c.pc + 2 ∧ c.advance.advance.advance.pc = x.target ∧
      c.advance.advance.advance.xfer = none)) ∧
  (∀ c : Core, c.next = none → (∀ x, c.xfer = some x → 2 ≤ x.left) →
    let ends := fun l => (c.level l).active = true ∧ (c.level l).last = c.pc.toNat
    let tested := ∃ m, m < 4 ∧ ends m ∧ ∀ k, m < k → k < 4 → (c.level k).active = false
    let more := fun l => (c.level l).cnt.toNat + 1 < (c.level l).trip.toNat
    (∀ l, l < 4 → tested → ends l → more l → (∀ k, l < k → k < 4 → ends k → ¬ more k) →
      c.advance.pc = BitVec.ofNat 64 (c.level l).first ∧
      c.advance.level l = { c.level l with cnt := (c.level l).cnt + 1 } ∧
      (∀ k, l < k → k < 4 → ends k → c.advance.level k = { c.level k with active := false }) ∧
      (∀ k, l < k → k < 4 → ¬ ends k → c.advance.level k = c.level k) ∧ ∀ k, k < l → c.advance.level k = c.level k) ∧
    (tested → (∀ l, l < 4 → ends l → ¬ more l) →
      c.advance.pc = c.pc + 1 ∧
      (∀ l, l < 4 → ends l → c.advance.level l = { c.level l with active := false }) ∧
      ∀ l, l < 4 → ¬ ends l → c.advance.level l = c.level l) ∧
    (¬ tested → c.advance.pc = c.pc + 1 ∧ ∀ l, l < 4 → c.advance.level l = c.level l) ∧
    c.advance.xfer = c.xfer.map fun x => { x with left := x.left - 1 })

/-- R148, R149, R192, R193: LOOP and LOOPI where they may stand: a count of 0 skips the body and changes no level, any other makes
the level active over the body with its count and iteration 0; LBRK leaves its level and every level above it and goes to the
bundle after the body. Where they may not stand, each raises ILLEGAL_SYLLABLE. Nothing else changes. -/
def Obligations.LoopInstructions : Prop :=
  ∀ (s : State) (cnt : Reg) (m : BitVec 6) (len : BitVec 12) (lv : BitVec 2),
    let c := s.tile.core
    let l := lv.toNat
    let i := c.pc.toNat
    let may := s.inDelay = false ∧ ∀ k, k < 4 → (c.level k).active = true → k < l ∧ i + len.toNat ≤ (c.level k).last
    let body := fun (t : State) (n : W64) => OnlyCore s t ∧
      (n = 0 → t.tile.core = { c with next := some (c.pc + BitVec.ofNat 64 (len.toNat + 1)) }) ∧
      (n ≠ 0 → t.tile.core.level l = { active := true, first := i + 1, last := i + len.toNat, cnt := 0, trip := n } ∧
        (∀ k, k ≠ l → t.tile.core.level k = c.level k) ∧ t.tile.core.next = some (c.pc + 1) ∧
        { t.tile.core with levels := [], next := none } = { c with levels := [], next := none })
    let mayBreak := s.inDelay = false ∧ (c.level l).active = true ∧ (c.level l).first ≤ i ∧ i < (c.level l).last ∧
      len.toNat = (c.level l).last - i
    (may → (∃ t, exec (.loop cnt len lv) s = .next t ∧ body t (s.rd cnt)) ∧
      (∃ t, exec (.loopi m len lv) s = .next t ∧ body t (m.setWidth 64))) ∧
    (¬ may → ∀ j ∈ [Instr.loop cnt len lv, .loopi m len lv],
      ∃ f, f.cause = .illegalSyllable ∧ exec j s = .next (s.takeFault f)) ∧
    (mayBreak → ∃ t, exec (.lbrk len lv) s = .next t ∧ OnlyCore s t ∧
      t.tile.core.next = some (BitVec.ofNat 64 ((c.level l).last + 1)) ∧
      (∀ k, k < 4 → t.tile.core.level k = if l ≤ k then { c.level k with active := false } else c.level k) ∧
      { t.tile.core with levels := [], next := none } = { c with levels := [], next := none }) ∧
    (¬ mayBreak → ∃ f, f.cause = .illegalSyllable ∧ exec (.lbrk len lv) s = .next (s.takeFault f))

/-- R161, R194 to R197, R200, R384: outside service and delay bundles IDLE holds for s[d] + n cycles, PPT offers its class, HALT
halts the core, and ALIGN is executed where the stint is strict or all tiles present it; elsewhere in a loose stint it stalls.
In a delay bundle or under service each raises ILLEGAL_SYLLABLE (R195, R432). During an IDLE of n cycles the tile waits on the
next n and presents its bundle on the one after. TRAP lets its bundle finish and is taken after it, with the next bundle in
fetch order in tepc and n in tinfo3. R43, R44, R384: before the bundles of a cycle issue, a PPT that some tile offers is a pause point only
where every tile that has not halted offers one of the same class below NSTINT, alone in its bundle and with its engines at rest; else
each of them takes PAUSEPT_INVALID, which names the first that departs. A strict ALIGN that some do not offer is TIMING (ALIGN) with their
number. R332, R337: a tile's engines rest where no product, row or drain of the M engine and no write of the V engine is under way.
(Assumption log 46: what more a tile at rest is held to; 47: that a class the image lacks is missed by every tile, which tile tinfo3
names and that a HALT of this cycle has halted; 75: that TIMING (ALIGN) comes first where some tiles offer PPT and others ALIGN.) -/
def Obligations.HoldsPausesHalts : Prop :=
  ∀ (s : State) (d : Reg) (n : BitVec 20) (k : BitVec 12),
    let on := fun (f : Core → Core) => s.modCore f
    (s.inDelay = false → s.tile.core.svc = false →
      exec (.idle d n) s = .next (on fun c => { c with hold := .idle (((s.rd d).toNat + n.toNat) % 2 ^ 64) }) ∧
      exec (.ppt k) s = .next (on fun c => { c with ppt := some k.toNat }) ∧
      exec .halt s = .next (on fun c => { c with halted := true }) ∧
      ((s.strict = true ∨ s.tile.core.aligning = true) → exec .align s = .next (on fun c => { c with aligning := true })) ∧
      (s.strict = false → s.tile.core.aligning = false → exec .align s = .next s.stall)) ∧
    (s.inDelay = true ∨ s.tile.core.svc = true → ∀ i ∈ [Instr.idle d n, .ppt k, .halt, .align],
      ∃ f, f.cause = .illegalSyllable ∧ exec i s = .next (s.takeFault f)) ∧
    (∀ m, s.tile.core.hold = .idle m → s.tile.core.halted = false → s.tile.core.entering = false →
      (m = 0 → s.passHold = .bundle (s.modCore fun c => { c with hold := .none })) ∧
      ∀ j, m = j + 1 → s.passHold = .wait (s.modCore fun c => { c with hold := .idle j })) ∧
    exec (.trap n) s = .next (s.modCore fun c => { c with trapAfter := some (n.setWidth 64) }) ∧
    (s.tile.core.halted = false → s.tile.core.trapAfter = none →
      let t := s.modCore fun c => { c.advance with trapAfter := none }
      (s.modCore fun c => { c with trapAfter := some (n.setWidth 64) }).finishBundle =
        (t.takeFaultAt (sFault .trap (n.setWidth 64)) (24 * s.tile.core.advance.pc))) ∧
    (let os := s.offers
     let rests := fun (i : Nat) => let t := FMap.getD s.pad.tiles i Tile.init
      t.mq.entries = [] ∧ t.vq.entries = [] ∧ t.dq.entries = [] ∧ (∀ r ∈ t.dr.runs, r.slot = none) ∧ t.mx.prods = [] ∧
        t.mx.rows = [] ∧ t.mx.loadA = none ∧ t.mx.loadB = none ∧ t.vec.pend = []
     let meets := fun (x : Nat × Option (Option Instr × Bool)) => ∃ m : BitVec 12, x.2 = some (some (.ppt m), false) ∧
      m.toNat < s.pad.shape.nstint ∧ rests x.1 ∧ ∀ y ∈ os, ∀ m' b, y.2 = some (some (.ppt m'), b) → m' = m
     let raised := fun (f : FaultInfo) => (os.foldl (fun t y => t.atTile y.1 fun t => t.cond f) s, false)
     ((∀ x ∈ os, meets x) → s.meet = (s, false)) ∧
      (∀ before x after, os = before ++ x :: after → (∀ y ∈ os, ∀ b, y.2 ≠ some (some .align, b)) →
        (∃ y ∈ os, ∃ m b, y.2 = some (some (.ppt m), b)) → (∀ y ∈ before, meets y) → ¬ meets x →
        s.meet = raised (sFault .pauseptInvalid (w64 x.1))) ∧
      (s.strict = true → ∀ a, a = (os.filter fun x => match x.2 with
          | some (some .align, _) => true
          | _ => false).length → 0 < a → a < os.length →
        s.meet = raised (timingFault .s 0x09 (min 255 (os.length - a)) s.pad.rtick)))

-- Traps (17)

/-- R419 to R421: a tile-local fault with a handler installed, taken at a tile that holds no micro-operation sequence. The record
says the cause, its unit and run, and whether it was taken under service, with PADW 0; PRIV and PPRIV, the program counter, the
loop levels, the transfer and the hold are as the rules say; the shadow holds what was live; no register, no byte of memory and
nothing at another tile changes. R420, R424: TRAP_ENTRY at a tile with conditions to raise takes the first of them in place of
its bundle, at that bundle's address, keeps the others, and clears what was recognised on this cycle. -/
def Obligations.TrapEntry : Prop :=
  (∀ (s : State) (f : FaultInfo) (epc : W64), f.cause.wide s.strict = false → s.tile.noHandler = false →
    (∀ r, s.tile.core.hold ≠ .uop r) →
    let t := s.takeFaultAt f epc
    let old := s.tile.core
    let new := t.tile.core
    let i0 := t.ctl kTinfo0
    bits i0 7 0 = f.cause.code ∧ bits i0 9 8 = slotNo f.unit ∧ bit i0 10 = f.eng ∧ bit i0 11 = false ∧ bit i0 12 = old.svc ∧
      bits i0 23 16 = f.run % 256 ∧ t.ctl (kTinfo0 + 1) = f.t1 ∧ t.ctl (kTinfo0 + 2) = f.t2 ∧ t.ctl (kTinfo0 + 3) = f.t3 ∧
      t.ctl kTepc = epc ∧ new.ppriv = old.priv ∧ new.priv = true ∧ new.tie = old.tie ∧
      new.pc.toNat = bits (s.ctl kTvec) 21 0 / 24 ∧ new.entering = true ∧ new.xfer = none ∧ new.hold = .none ∧
      (∀ l, l < 4 → new.level l = { old.level l with active := false }) ∧
      (∀ l, l < 4 → bit (t.ctl (kShlev + l)) 63 = (old.level l).active ∧
        bits (t.ctl (kShlev + l)) 12 0 = (old.level l).first % 2 ^ 13 ∧
        bits (t.ctl (kShlev + l)) 28 16 = (old.level l).last % 2 ^ 13 ∧ t.ctl (kShcnt + l) = (old.level l).cnt ∧
        t.ctl (kShtrip + l) = (old.level l).trip) ∧
      (old.xfer = none → bit (t.ctl kShxst) 63 = false) ∧
      (∀ x, old.xfer = some x → t.ctl kShxfer = x.target ∧ bit (t.ctl kShxst) 63 = true ∧ bits (t.ctl kShxst) 62 61 = x.left % 4) ∧
      (∀ n, old.hold = .idle n → n < 2 ^ 64 → (t.ctl kShhold).toNat = n ∧ bit (t.ctl kShxst) 60 = false) ∧
      new.regs = old.regs ∧ new.pend = old.pend ∧ new.acc = old.acc ∧ (∀ r, t.rd r = s.rd r) ∧ SameMemory s t ∧
      t.tile.sync = s.tile.sync ∧ (∀ j, j ≠ s.cur.tile → t.tileOf s.cur.pad j = s.tileOf s.cur.pad j)) ∧
  (∀ (s : State) (f : FaultInfo) (fs : List FaultInfo), s.raised.now = f :: fs →
    exec .trapEntry s =
      .next ((s.settled (fs ++ s.raised.held) s.raised.waiting).takeFaultAt f (24 * s.tile.core.pc)))

/-- R417, R418, R426: a paddock-wide cause, or a tile-local one that no handler can take (none installed, a handler address that is
no bundle's, a halted core), writes its record with PADW 1, lets the tile issue nothing more, reports the tile, and stops the
clock within 64 cycles; the program counter, the registers and every byte of memory stay as they are. -/
def Obligations.PaddockWideFault : Prop :=
  ∀ (s : State) (f : FaultInfo) (epc : W64),
    (f.cause.wide s.strict = true ∨ s.tile.core.halted = true ∨ bit (s.ctl kTvec) 63 = false ∨
      bits (s.ctl kTvec) 21 0 % 24 ≠ 0 ∨ 131040 < bits (s.ctl kTvec) 21 0) → (∀ r, s.tile.core.hold ≠ .uop r) →
    let t := s.takeFaultAt f epc
    bits (t.ctl kTinfo0) 7 0 = f.cause.code ∧ bit (t.ctl kTinfo0) 11 = true ∧ t.ctl (kTinfo0 + 3) = f.t3 ∧ t.ctl kTepc = epc ∧
      t.tile.core.faulted = true ∧ t.tile.core.pc = s.tile.core.pc ∧ t.tile.core.priv = s.tile.core.priv ∧
      (∃ n, t.pad.stopAt = some n ∧ n ≤ s.pad.rtick + 64) ∧
      t.pad.reports = s.pad.reports ++ [{ cycle := s.pad.rtick, tile := s.cur.tile, info := f }] ∧
      (∀ r, t.rd r = s.rd r) ∧ SameMemory s t

/-- R153, R421, R422, R425: ERET undoes trap entry. A trap taken at a bundle whose handler changes none of the trap registers
returns to exactly where the program stood: the bundle at the program counter is next, at the old privilege, with the loop
levels, the pending transfer of one to three bundles and the hold that were live; an FBAR whose cycles are over is looked at again after
one more (assumption log 44), and the UOP of a run that the trap has discarded issues anew. R201, R425: ERET in K, outside delay bundles,
with a bundle address in tepc, returns: the level of PPRIV, suspended runs go on, service ends for the tile, the levels, the hold and
the transfer are those of the shadow as it stands, LEFT being 0 to 3, and what is next comes from tepc, or from shxfer when no delay
bundle is left. In U it raises PRIVILEGE, in a delay bundle ILLEGAL_SYLLABLE, and with another tepc MISALIGN with tepc in tinfo3. -/
def Obligations.TrapReturns : Prop :=
  (∀ (t : Tile) (f : FaultInfo), t.core.pc.toNat ≤ 5460 →
    (∀ l, l < 4 → (t.core.level l).first < 2 ^ 13 ∧ (t.core.level l).last < 2 ^ 13) →
    (∀ x, t.core.xfer = some x → x.left = 1 ∨ x.left = 2 ∨ x.left = 3) →
    (∀ n, t.core.hold = .idle n → 0 < n ∧ n < 2 ^ 64) → (∀ n k tok, t.core.hold = .fbar n k tok → n < 2 ^ 64 ∧ k < 4) →
    let c := (t.enterTrap f (24 * t.core.pc)).leaveTrap.core
    c.hold = (match t.core.hold with
      | .fbar 0 k tok => .fbar 1 k tok
      | .uop _ => .none
      | h => h) ∧ c.priv = t.core.priv ∧ c.regs = t.core.regs ∧ c.advance.pc = t.core.pc ∧
      c.advance.xfer = t.core.xfer ∧ ∀ l, l < 4 → c.advance.level l = t.core.level l) ∧
  (∀ s : State,
    let x := s.ctl kShxst
    (s.inK = true → s.inDelay = false → (s.ctl kTepc).toNat % 24 = 0 →
      ∃ t, exec .eret s = .next t ∧ t.tile.core.priv = s.tile.core.ppriv ∧ t.tile.core.svc = false ∧
        (∀ r, t.rd r = s.rd r) ∧ SameMemory s t ∧ t.tile.ctl = s.tile.ctl ∧
        (∀ l, l < 4 → (t.tile.core.level l).cnt = s.ctl (kShcnt + l) ∧ (t.tile.core.level l).trip = s.ctl (kShtrip + l) ∧
          (t.tile.core.level l).active = bit (s.ctl (kShlev + l)) 63 ∧
          (t.tile.core.level l).first = bits (s.ctl (kShlev + l)) 12 0 ∧ (t.tile.core.level l).last = bits (s.ctl (kShlev + l)) 28 16) ∧
        (s.ctl kShhold = 0 → t.tile.core.hold = .none) ∧
        (s.ctl kShhold ≠ 0 → t.tile.core.hold =
          if bit x 60 then .fbar (s.ctl kShhold).toNat (bits x 57 56) (x.setWidth 32) else .idle (s.ctl kShhold).toNat) ∧
        (bit x 63 = false ∨ bits x 62 61 = 0 → t.tile.core.advance.xfer = none) ∧
        (bit x 63 = true → bits x 62 61 ≠ 0 →
          ∃ q, t.tile.core.advance.xfer = some q ∧ q.target = s.ctl kShxfer ∧ q.left = bits x 62 61) ∧
        t.tile.core.next = some (if bit x 63 = true ∧ bits x 62 61 = 0 then s.ctl kShxfer
          else BitVec.ofNat 64 ((s.ctl kTepc).toNat / 24)) ∧
        (∀ r ∈ t.tile.dr.runs, r.susp = false)) ∧
    (s.inK = false → exec .eret s = .next (s.takeFault (sFault .privilege 0))) ∧
    (s.inK = true → s.inDelay = true → ∃ f, f.cause = .illegalSyllable ∧ exec .eret s = .next (s.takeFault f)) ∧
    (s.inK = true → s.inDelay = false → (s.ctl kTepc).toNat % 24 ≠ 0 →
      exec .eret s = .next (s.takeFault (sFault .misalign (s.ctl kTepc)))))
-- Memory (07, 09, 15)

/-- R245, R246: what a virtual address names: own pool, table memory, the pool of the tile at an abstract offset (the own pool at offset
(0, 0), nothing outside the paddock), HBM, windows, host memory, the capability list; an address of no range names nothing. -/
def Obligations.AddressMap : Prop :=
  ∀ (sh : Shape) (me : Nat),
    (∀ a, a < 0x200000 → sh.target me a = .own a) ∧
    (∀ a, a < 0x4000 → sh.target me (0x400000 + a) = .table a) ∧
    (∀ (dx dy : Int) (off : Nat), -128 ≤ dx → dx < 128 → -128 ≤ dy → dy < 128 → off < 2 ^ 21 →
      let x : Int := (me % sh.w : Nat) + dx
      let y : Int := (me / sh.w : Nat) + dy
      let a := (0x010000000000 + (dy + 128) * 2 ^ 29 + (dx + 128) * 2 ^ 21 + off).toNat
      (0 ≤ x ∧ x < sh.w ∧ 0 ≤ y ∧ y < sh.h →
        sh.target me a = if (y * sh.w + x).toNat = me then .own off else .tile (y * sh.w + x).toNat off) ∧
      (¬ (0 ≤ x ∧ x < sh.w ∧ 0 ≤ y ∧ y < sh.h) → sh.target me a = .bad)) ∧
    (∀ p off, p < 2 ^ 23 → off < 2 ^ 21 → sh.target me (0x100000000000 + p * 2 ^ 21 + off) = .hbm p off) ∧
    (∀ w p off, w < 64 → p < 2 ^ 15 → off < 2 ^ 21 →
      sh.target me (0x200000000000 + w * 2 ^ 36 + p * 2 ^ 21 + off) = .window w p off) ∧
    (∀ p off, p < 2 ^ 23 → off < 2 ^ 21 → sh.target me (0x300000000000 + p * 2 ^ 21 + off) = .host p off) ∧
    (∀ a, a < 0x1000 → sh.target me (0x7F0000010000 + a) = .caps a) ∧
    ∀ a, (0x200000 ≤ a ∧ a < 0x400000) ∨ (0x404000 ≤ a ∧ a < 0x010000000000) ∨ (0x012000000000 ≤ a ∧ a < 0x100000000000) ∨
      (0x240000000000 ≤ a ∧ a < 0x300000000000) ∨ (0x400000000000 ≤ a ∧ a < 0x7F0000010000) ∨ 0x7F0000011000 ≤ a →
      sh.target me a = .bad

/-- R137, R184 to R186, R406, R432: a scalar load, store or atomic computes its effective address at issue; a multiple of its width
within reach puts its access in flight for the next cycle, and nothing else changes; otherwise MISALIGN, and after it PROTECTION, is
raised with the address in tinfo3. The pen is reached in K only, table memory and the capability list by loads alone. Under pause-point
service an atomic raises ILLEGAL_SYLLABLE whatever its address, and the tile stays in service. -/
def Obligations.ScalarAccessIssue : Prop :=
  ∀ (s : State) (w : Width) (t : AmoTy) (ft : FpTy) (md : RMode) (op : AmoOp) (o : AmoOrd) (d a b : Reg) (off : BitVec 14),
    let ea := fun (n : Nat) => s.rd a + off.signExtend 64 * BitVec.ofNat 64 n
    let reach := fun (x : W64) (n : Nat) (load : Bool) => (match s.pad.shape.target s.cur.tile x.toNat with
      | .own p => p + n ≤ 0x200000 ∧ (s.inK = true ∨ p + n ≤ s.pad.shape.penBase)
      | .table _ => load = true
      | .caps _ => load = true
      | _ => False)
    let goes := fun (i : Instr) (x : W64) (n : Nat) (load : Bool) (acc : Acc) =>
      (x.toNat % n = 0 → reach x n load →
        exec i s = .next (s.modCore fun c => { c with acc := c.acc ++ [{ acc := acc, ea := x.toNat, left := 1 }] })) ∧
      (x.toNat % n ≠ 0 → exec i s = .next (s.takeFault (sFault .misalign x))) ∧
      (x.toNat % n = 0 → ¬ reach x n load → exec i s = .next (s.takeFault (sFault .protection x)))
    goes (.ld w d a off) (ea w.bytes) w.bytes true (.load w true d) ∧
    goes (.ldz w d a off) (ea w.bytes) w.bytes true (.load w false d) ∧
    goes (.st w d a off) (ea w.bytes) w.bytes false (.store (natLE w.bytes (s.rd d).toNat)) ∧
    goes (.ldp d a off) (ea 16) 16 true (.loadPair d) ∧
    goes (.stp d a off) (ea 16) 16 false (.store (natLE 8 (s.rd d).toNat ++ natLE 8 (s.rd (d + 1)).toNat)) ∧
    (s.tile.core.svc = false →
      goes (.amo op t o d a b) (s.rd a) t.bytes false (.amo op t o d (s.rd b)) ∧
      goes (.amocas t o d a b) (s.rd a) t.bytes false (.amocas t o d (s.rd b) (s.rd d)) ∧
      goes (.famoadd ft md o d a b) (s.rd a) ft.bytes false (.famoadd ft md o d (s.rd b))) ∧
    (s.tile.core.svc = true → ∀ i ∈ ([.amo op t o d a b, .amocas t o d a b, .famoadd ft md o d a b] : List Instr),
      ∃ f, f.cause = .illegalSyllable ∧ f.unit = .s ∧ exec i s = .next (s.takeFault f) ∧ (s.takeFault f).tile.core.svc = true)

/-- R137, R184, R187: a load in its access cycle gives the register, three cycles on, the little-endian bytes at its address,
extended as the instruction says; LDP gives two registers eight bytes each. So does one of table memory, and one of the capability list,
whose bytes are those of its words from byte 0 on (R204). It changes no byte. A load that meets a poisoned
word writes no register: the condition is recognised at the tile with the address, SYNC_POISON where the word is bound to a KIND 4
object and else DATA_POISON (R409; assumption log 55 says which words are so bound). R137, R184, R187, R189, R238: a store in its
access cycle writes its bytes at its address in the own pool and no other byte of any memory; a full word it covers loses its
poison; one narrower than a word that meets a poisoned word writes nothing and raises DATA_POISON with the address. R409: in U a store
of any width that covers a poisoned KIND 4 word, whichever of its words that is, writes nothing, leaves the poison and raises
SYNC_POISON with the address. (MXDBG.SLABGUARD is off.) -/
def Obligations.LoadAndStoreCycles : Prop :=
  (∀ (s : State) (ea off k : Nat) (w : Width) (sx : Bool) (d : Reg), s.pad.shape.target s.cur.tile ea = .own off →
    Mem.wf s.tile.st.pool.bytes = true → s.tile.st.pool.errs = [] →
    let at' := MemSite.pool s.cur.pad s.cur.tile
    let clean := fun (n : Nat) => ∀ x ∈ s.tile.st.pool.poison, x < off / 8 ∨ (off + n - 1) / 8 < x
    let n := w.bytes
    (clean n → ∃ v : W64, let t := s.perform { acc := .load w sx d, ea := ea, left := k }
      t.tile.core = s.tile.core.later d v 3 0 ∧ SameMemory s t ∧
      ∀ i, i < 64 → v.getLsbD i = if i < 8 * n then (s.byteAt at' (off + i / 8)).getLsbD (i % 8)
        else (sx && (s.byteAt at' (off + (n - 1))).getLsbD 7)) ∧
    (clean 16 → ∃ v u : W64, let t := s.perform { acc := .loadPair d, ea := ea, left := k }
      t.tile.core = (s.tile.core.later d v 3 0).later (d + 1) u 3 0 ∧ SameMemory s t ∧
      ∀ i, i < 64 → v.getLsbD i = (s.byteAt at' (off + i / 8)).getLsbD (i % 8) ∧
        u.getLsbD i = (s.byteAt at' (off + 8 + i / 8)).getLsbD (i % 8)) ∧
    (let fails := fun (acc : Acc) (m : Nat) => (∃ x ∈ s.tile.st.pool.poison, off / 8 ≤ x ∧ x ≤ (off + m - 1) / 8) →
      let t := s.perform { acc := acc, ea := ea, left := k }
      t.tile.core.pend = s.tile.core.pend ∧ SameMemory s t ∧ t.tile.st.pool.poison = s.tile.st.pool.poison ∧
        ∃ f, t.tile.core.conds = s.tile.core.conds ++ [f] ∧ f.t3 = BitVec.ofNat 64 ea ∧
          ∃ x ∈ s.tile.st.pool.poison, off / 8 ≤ x ∧ x ≤ (off + m - 1) / 8 ∧
            f.cause = if s.pad.shape.isSyncWord s.cur.tile (8 * x) then .syncPoison else .dataPoison
     fails (.load w sx d) n ∧ fails (.loadPair d) 16)) ∧
  (∀ (s : State) (ea off k : Nat) (w : Width) (sx : Bool) (d : Reg),
    let one := fun (r : Nat → Byte) => ∃ v : W64, let t := s.perform { acc := .load w sx d, ea := ea, left := k }
      t.tile.core = s.tile.core.later d v 3 0 ∧ SameMemory s t ∧
      ∀ i, i < 64 → v.getLsbD i = if i < 8 * w.bytes then (r (off + i / 8)).getLsbD (i % 8)
        else (sx && (r (off + (w.bytes - 1))).getLsbD 7)
    let two := fun (r : Nat → Byte) => ∃ v u : W64, let t := s.perform { acc := .loadPair d, ea := ea, left := k }
      t.tile.core = (s.tile.core.later d v 3 0).later (d + 1) u 3 0 ∧ SameMemory s t ∧
      ∀ i, i < 64 → v.getLsbD i = (r (off + i / 8)).getLsbD (i % 8) ∧ u.getLsbD i = (r (off + 8 + i / 8)).getLsbD (i % 8)
    let table := fun a => s.byteAt (.table s.cur.pad s.cur.tile) a
    let list := fun a => BitVec.ofNat 8 ((capWord s.panel.retire2 (a / 8 * 8)).toNat / 256 ^ (a % 8))
    (s.pad.shape.target s.cur.tile ea = .table off → s.tile.st.tmem.poison = [] → s.tile.st.tmem.errs = [] → one table ∧ two table) ∧
    (s.pad.shape.target s.cur.tile ea = .caps off → (off % w.bytes = 0 → one list) ∧ (off % 16 = 0 → two list))) ∧
  (∀ (s : State) (ea off k : Nat) (data : List Byte), s.pad.shape.target s.cur.tile ea = .own off →
    Mem.wf s.tile.st.pool.bytes = true → s.tile.st.pool.errs = [] → bit (s.ctl kMxdbg) 0 = false →
    data.length ∈ [1, 2, 4, 8, 16] → off % data.length = 0 →
    let at' := MemSite.pool s.cur.pad s.cur.tile
    let t := s.perform { acc := .store data, ea := ea, left := k }
    let meets := ∃ x ∈ s.tile.st.pool.poison, off / 8 ≤ x ∧ x ≤ (off + data.length - 1) / 8
    let refused := s.inK = false ∧ ∃ x ∈ s.tile.st.pool.poison, off / 8 ≤ x ∧ x ≤ (off + data.length - 1) / 8 ∧
      s.pad.shape.isSyncWord s.cur.tile (8 * x) = true
    let stops := fun (c : Cause) => SameMemory s t ∧ t.tile.st.pool.poison = s.tile.st.pool.poison ∧
      ∃ f, t.tile.core.conds = s.tile.core.conds ++ [f] ∧ f.t3 = BitVec.ofNat 64 ea ∧ f.cause = c
    (¬ meets ∨ (8 ≤ data.length ∧ ¬ refused) →
      (∀ i, i < data.length → t.byteAt at' (off + i) = data.getD i 0) ∧ SameMemoryBut s t off data.length ∧
      t.tile.core = s.tile.core ∧
      (∀ x, x ∈ t.tile.st.pool.poison ↔ x ∈ s.tile.st.pool.poison ∧
        ¬ (8 ≤ data.length ∧ off / 8 ≤ x ∧ x ≤ (off + data.length - 1) / 8))) ∧
    (refused → stops .syncPoison) ∧ (meets → data.length < 8 → ¬ refused → stops .dataPoison))

/-- R174, R406, R407: a pool atomic in its access cycle replaces its bytes by the operation's result, returns the old ones five
cycles on, and changes no other byte; a compare that fails writes nothing; FAMOADD replaces a float by its one-rounded sum with
the operand and returns the old pattern with the sum's flags. -/
def Obligations.AtomicCycle : Prop :=
  ∀ (s : State) (ea off k : Nat) (ty : AmoTy) (o : AmoOrd) (d : Reg) (x e : W64), s.pad.shape.target s.cur.tile ea = .own off →
    Mem.wf s.tile.st.pool.bytes = true → s.tile.st.pool.errs = [] → s.tile.st.pool.poison = [] → bit (s.ctl kMxdbg) 0 = false →
    off % ty.bytes = 0 →
    let n := ty.bytes
    let num := fun (t : State) => leNat ((List.range n).map fun i => t.byteAt (.pool s.cur.pad s.cur.tile) (off + i))
    let old := num s
    let y := x.toNat % 2 ^ (8 * n)
    let si := fun (v : Nat) => (BitVec.ofNat (8 * n) v).toInt
    let back := fun (t : State) => ∃ v : W64, t.tile.core = s.tile.core.later d v 5 0 ∧ v.toInt = si old
    (∀ (op : AmoOp) (t : State), t = s.perform { acc := .amo op ty o d x, ea := ea, left := k } →
      SameMemoryBut s t off n ∧ back t ∧ (match op with
        | .add => num t = (old + y) % 2 ^ (8 * n)
        | .min => si (num t) = min (si old) (si y)
        | .max => si (num t) = max (si old) (si y)
        | .and => num t = old &&& y
        | .or => num t = old ||| y
        | .xor => num t = old ^^^ y
        | .swp => num t = y)) ∧
    (∀ t : State, t = s.perform { acc := .amocas ty o d x e, ea := ea, left := k } →
      SameMemoryBut s t off n ∧ back t ∧ num t = if old = e.toNat % 2 ^ (8 * n) then y else old) ∧
    ∀ (ft : FpTy) (md : RMode) (t : State), ft.bytes = n → t = s.perform { acc := .famoadd ft md o d x, ea := ea, left := k } →
      let r := fAdd ft.fmt md.rnd old y
      SameMemoryBut s t off n ∧ num t = r.pat % 2 ^ (8 * n) ∧ t.tile.core = s.tile.core.later d (BitVec.ofNat 64 old) 5 r.fl

/-- R190, R235: SPILL of a register to an aligned word of the pen puts its store in flight and FILL of a parked register its reads;
a FILL of a register that is not parked does nothing. SPILL raises MISALIGN, and outside the pen PROTECTION, at issue. In its
access cycle SPILL writes the register and its address and marks it parked; the accesses of a FILL then read the address, free
the mark, and bring back the value. -/
def Obligations.SpillAndFill : Prop :=
  ∀ (s : State) (d a : Reg) (o : BitVec 14), d ≠ 0 →
    let ea := s.rd a + o.signExtend 64 * 8
    let pen := ∃ off, s.pad.shape.target s.cur.tile ea.toNat = .own off ∧ off + 8 ≤ 0x200000 ∧ s.pad.shape.penBase ≤ off ∧
      s.pad.shape.spBytes ≤ off
    let fly := fun (acc : Acc) (x : Nat) => s.modCore fun c => { c with acc := c.acc ++ [{ acc := acc, ea := x, left := 1 }] }
    (ea.toNat % 8 = 0 → pen → exec (.spill d a o) s = .next (fly (.spill d (s.rd d)) ea.toNat)) ∧
    (ea.toNat % 8 ≠ 0 → exec (.spill d a o) s = .next (s.takeFault (sFault .misalign ea))) ∧
    (ea.toNat % 8 = 0 → ¬ pen → exec (.spill d a o) s = .next (s.takeFault (sFault .protection ea))) ∧
    ((s.ctl kSpmap).getLsbD d.toNat = true → exec (.fill d) s = .next (fly (.fillTable d) (0x1FFD80 + 8 * d.toNat))) ∧
    ((s.ctl kSpmap).getLsbD d.toNat = false → exec (.fill d) s = .next s) ∧
    (∀ (v : W64) (off : Nat), s.pad.shape.target s.cur.tile off = .own off → off % 8 = 0 → off + 8 ≤ 0x1FFD80 →
      s.pad.shape.penBase ≤ off → s.pad.shape.spBytes ≤ off → Mem.wf s.tile.st.pool.bytes = true →
      s.tile.st.pool.errs = [] → bit (s.ctl kMxdbg) 0 = false →
      let t := s.perform { acc := .spill d v, ea := off, left := 1 }
      let u := t.perform { acc := .fillTable d, ea := 0x1FFD80 + 8 * d.toNat, left := 1 }
      (t.ctl kSpmap).getLsbD d.toNat = true ∧ (∀ m x, m ≠ .pool s.cur.pad s.cur.tile ∨ ((x < off ∨ off + 8 ≤ x) ∧
        (x < 0x1FFD80 + 8 * d.toNat ∨ 0x1FFD80 + 8 * d.toNat + 8 ≤ x)) → t.byteAt m x = s.byteAt m x) ∧
      (u.ctl kSpmap).getLsbD d.toNat = false ∧
      ∃ older, u.tile.core.acc = s.tile.core.acc ++ [{ acc := .fillWord d older, ea := off, left := 1 }] ∧
        ∃ w ∈ (u.perform { acc := .fillWord d older, ea := off, left := 1 }).tile.core.pend,
          w.reg = d ∧ w.val = v ∧ w.left = 2)

/-- R134, R188: STR to a tile of the paddock with an aligned offset outside the target's pen sends its word, which is due hops + 2
plus LAT + 8 over the seams between cycles on; otherwise MISALIGN, and after it PROTECTION, is raised with s[a] in tinfo3 and
nothing is sent. R188, R189, R251: STR_ARRIVAL at the current tile takes every word due there off the network and no other, and
applies them in ascending sender; only refusals on their way back join the network. A word within the scope of its granule is
written at its offset and clears the poison of its word; a word out of scope writes nothing and comes back to its sender after
the same latency. R432: under pause-point service STR raises ILLEGAL_SYLLABLE. (MXDBG.SLABGUARD is off.) -/
def Obligations.NetworkStores : Prop :=
  (∀ (s : State) (d a : Reg) (dx dy : BitVec 6), s.tile.core.svc = false →
    let sh := s.pad.shape
    let me := s.cur.tile
    let x : Int := (me % sh.w : Nat) + dx.toInt
    let y : Int := (me / sh.w : Nat) + dy.toInt
    let off := (s.rd a).toNat
    let inside := 0 ≤ x ∧ x < sh.w ∧ 0 ≤ y ∧ y < sh.h
    let tgt := (y * sh.w + x).toNat
    let crossed := sh.seams.filter fun m => if m.col then decide (min (me % sh.w) (tgt % sh.w) < m.index ∧
        m.index ≤ max (me % sh.w) (tgt % sh.w))
      else decide (min (me / sh.w) (tgt / sh.w) < m.index ∧ m.index ≤ max (me / sh.w) (tgt / sh.w))
    let lat := dx.toInt.natAbs + dy.toInt.natAbs + 2 + (crossed.map fun m => m.lat + 8).sum
    let may := inside ∧ off < 0x200000 ∧ (off < sh.spBytes ∨ off < sh.penBase)
    (off % 8 = 0 → may → exec (.str d a dx dy) s = .next (s.modPad fun p => { p with net := p.net ++
      [{ due := s.pad.rtick + lat, sender := me, target := tgt, off := off, data := s.rd d, refusal := none, lat := lat }] })) ∧
    (off % 8 ≠ 0 → exec (.str d a dx dy) s = .next (s.takeFault (sFault .misalign (s.rd a)))) ∧
    (off % 8 = 0 → ¬ may → exec (.str d a dx dy) s = .next (s.takeFault (sFault .protection (s.rd a))))) ∧
  (∀ (s : State) (d a : Reg) (dx dy : BitVec 6), s.tile.core.svc = true →
    ∃ f, f.cause = .illegalSyllable ∧ f.unit = .s ∧ exec (.str d a dx dy) s = .next (s.takeFault f) ∧
      (s.takeFault f).tile.core.svc = true) ∧
  (∀ s : State, bit (s.ctl kMxdbg) 0 = false → Mem.wf s.tile.st.pool.bytes = true →
    (∃ t back, exec .strArrival s = .next t ∧ (∀ w ∈ back, w.refusal ≠ none) ∧
      t.pad.net = (s.pad.net.filter fun w => !(decide (w.due ≤ s.pad.rtick) && w.target == s.cur.tile)) ++ back) ∧
    s.strDue.Pairwise (fun u v => u.sender ≤ v.sender) ∧
    (∀ w, w ∈ s.strDue ↔ w ∈ s.pad.net ∧ w.due ≤ s.pad.rtick ∧ w.target = s.cur.tile) ∧
    ∀ w : NetWord, w.refusal = none → w.off % 8 = 0 →
      let t := s.strApply w
      let sh := s.pad.shape
      let scope := if sh.area w.off = .pen then 0
        else bits (s.ctl kPoolscope) (2 * (w.off / 65536) + 1) (2 * (w.off / 65536))
      let reach := w.sender = s.cur.tile ∨ (scope = 1 ∧ sh.sameBlock w.sender s.cur.tile = true) ∨ 2 ≤ scope
      (reach → (∀ i, i < 8 → t.byteAt (.pool s.cur.pad s.cur.tile) (w.off + i) = BitVec.ofNat 8 (w.data.toNat / 256 ^ i)) ∧
        SameMemoryBut s t w.off 8 ∧ w.off / 8 ∉ t.tile.st.pool.poison) ∧
      (¬ reach → SameMemory s t ∧ ∃ a, t.pad.net = s.pad.net ++
        [{ w with due := w.due + w.lat, sender := s.cur.tile, target := w.sender, refusal := some a }]))

/-- R187, R238: words with an error code. A full word written anywhere clears its poison and stores fresh check bits; a partial write
reads its word first: one flipped bit is corrected and counted, more poison it, and a poisoned word is left as it was. A read
that meets no poison gives the bytes; one that meets a poisoned word gives none. -/
def Obligations.WordsWithErrorCodes : Prop :=
  ∀ (st : Store) (a : Nat) (bs : List Byte), Mem.wf st.bytes = true → 0 < bs.length → a / 8 = (a + bs.length - 1) / 8 →
    let w := a / 8
    let flips := fun m : W64 => ((List.range 64).filter fun i => m.getLsbD i).length
    let err := FMap.get? st.errs w
    let u := st.write a bs
    (bs.length = 8 → w ∉ u.1.poison ∧ u.2 = none ∧ u.1.hits = st.hits ∧ u.1.unc = st.unc ∧
      ∀ i, i < 8 → Mem.rd u.1.bytes (a + i) = bs.getD i 0) ∧
    (bs.length < 8 → (w ∈ st.poison ∨ ∃ m, err = some m ∧ 2 ≤ flips m) → u.2 = some (8 * w) ∧ u.1.bytes = st.bytes ∧
      w ∈ u.1.poison) ∧
    (bs.length < 8 → w ∉ st.poison → (err = none ∨ ∃ m, err = some m ∧ flips m ≤ 1) → u.2 = none ∧ w ∉ u.1.poison ∧
      (∀ i, i < bs.length → Mem.rd u.1.bytes (a + i) = bs.getD i 0) ∧
      u.1.hits = st.hits + (match err with
        | some m => flips m
        | none => 0)) ∧
    (∀ x, x < a ∨ a + bs.length ≤ x → Mem.rd u.1.bytes x = Mem.rd st.bytes x) ∧
    (∀ n, 0 < n → a / 8 = (a + n - 1) / 8 →
      let r := st.read a n
      ((w ∈ st.poison ∨ ∃ m, err = some m ∧ 2 ≤ flips m) → r.2 = .error (8 * w)) ∧
      (w ∉ st.poison → (err = none ∨ ∃ m, err = some m ∧ flips m ≤ 1) →
        r.2 = .ok ((List.range n).map fun i => Mem.rd st.bytes (a + i)) ∧ r.1.bytes = st.bytes))

-- The system instructions (06, 07, 08)

/-- R198, R199: each configuration write takes effect on the next cycle and changes one word of its record, of which it keeps
the writable bits; TIRR and RINGR return the word as it stands with latency 1. -/
def Obligations.ConfigurationRecords : Prop :=
  ∀ (s : State) (d r a : Reg) (w : BitVec 8) (v : W64),
    let x := s.rd a
    let after := fun (i : Instr) (l : Late) =>
      exec i s = .next (s.modCore fun c => { c with late := c.late ++ [(l, 1)] })
    after (.mcfg r a w) (.mn r.toNat w.toNat x) ∧ after (.vcfg r a w) (.ch r.toNat w.toNat x) ∧
    after (.dcfg r a w) (.dd r.toNat w.toNat x) ∧ after (.tirw r a w) (.ti r.toNat w.toNat x) ∧
    after (.fmtw r a) (.ft r.toNat x) ∧ after (.ringw r a w) (.rg r.toNat w.toNat x) ∧
    exec (.tirr d r w) s = .next (s.later d (Regs.rd s.tile.dr.ti (8 * r.toNat + w.toNat)) 1) ∧
    exec (.ringr d r w) s = .next (s.later d (Regs.rd s.tile.dr.rg (4 * r.toNat + w.toNat)) 1) ∧
    (let one := fun (f : Tile → Regs) (put : Tile → Regs → Tile) (l : Late) (k : Nat) (mask : W64) =>
      s.land l = s.modTile (fun t => put t (f (s.land l).tile)) ∧
        ∀ j, Regs.rd (f (s.land l).tile) j = if j = k then v &&& mask else Regs.rd (f s.tile) j
     (∀ rr ww, one (·.mx.mn) (fun t m => { t with mx := { t.mx with mn := m } }) (.mn rr ww v) (24 * rr + ww) (mnMask ww)) ∧
     (∀ rr ww, one (·.vec.ch) (fun t m => { t with vec := { t.vec with ch := m } }) (.ch rr ww v) (16 * rr + ww) (chMask ww)) ∧
     (∀ rr ww, one (·.dr.dd) (fun t m => { t with dr := { t.dr with dd := m } }) (.dd rr ww v) (8 * rr + ww)
       (([0xFFFFFFFF1F1F1F1F, 0x3FFFFFFFFFF, 0xFFFFFFFFFF, 0xFFFFFFFFFFFFFFFF] : List W64).getD ww 0)) ∧
     (∀ rr ww, ww < 8 → one (·.dr.ti) (fun t m => { t with dr := { t.dr with ti := m } }) (.ti rr ww v) (8 * rr + ww)
       (([0xFFFFFFFFFFFF, 0xFFFFFFFFFFFFFFFF, 0xFFFFFFFFFFFFFFFF, 0xFFFFFFFFFFFFFFFF, 0xFFFFFFFFFFFFFFFF, 0xF03, 0xF0F] :
         List W64).getD ww 0)) ∧
     (∀ rr, one (·.mx.ft) (fun t m => { t with mx := { t.mx with ft := m } }) (.ft rr v) rr 0xFFF) ∧
     (∀ rr ww, ww < 3 → one (·.dr.rg) (fun t m => { t with dr := { t.dr with rg := m } }) (.rg rr ww v) (4 * rr + ww)
       (([0xFF001FF000, 0xFFFFFFFFFFFFFFFF, 0xFFFF] : List W64).getD ww 0)) ∧
     ∀ rr, s.land (.rg rr 3 v) = s)

/-- R155, R202: KRD of a register gives its value with latency 1, in U only where the register is U-readable; KWR in K takes effect
on the next cycle, for each register that has a row of its own too, and in U only for fpcsr. The refused ones raise PRIVILEGE with
the register's number in tinfo3. R410: KWR of syncrst that names a fold counts the tile among the members that have written it, and
the write of the last member reinitialises the fold FOLDLAT cycles on; a fold the tile is no member of is left as it is. -/
def Obligations.ControlRegisterAccess : Prop :=
  ∀ (s : State) (d a : Reg) (k : BitVec 8) (w : BitVec 6),
    let n := k.toNat
    let hidden := n = 0x0C ∨ n = 0x0D ∨ (0x10 ≤ n ∧ n ≤ 0x15) ∨ (0x30 ≤ n ∧ n ≤ 0x39) ∨ (0x40 ≤ n ∧ n ≤ 0x4F) ∨ n = 0x58 ∨
      n = 0x66 ∨ (0x68 ≤ n ∧ n ≤ 0x76) ∨ n = 0x79
    let writes := fun (i : Instr) (m : Nat) =>
      (s.inK = true → exec i s = .next (s.modCore fun c => { c with late := c.late ++ [(.ctl m (s.rd a), 1)] })) ∧
      (s.inK = false → m ≠ 0x18 → exec i s = .next (s.takeFault (sFault .privilege (BitVec.ofNat 64 m))))
    (s.inK = true ∨ ¬ hidden → exec (.krd d k) s = .next (s.later d (s.krdValue n) 1)) ∧
    (s.inK = false → hidden → exec (.krd d k) s = .next (s.takeFault (sFault .privilege (BitVec.ofNat 64 n)))) ∧
    writes (.kwr k a) n ∧ writes (.kwrTimer a) 0x0C ∧ writes (.kwrPoolscope a) 0x3C ∧ writes (.kwrLosssel a) 0x77 ∧
    writes (.kwrLossval a) 0x78 ∧ writes (.kwrTrcemit a) 0x79 ∧ writes (.kwrSyncrstWindow a) 0x66 ∧
    writes (.kwrWdesc w a) (0x80 + w.toNat) ∧ writes (.kwrWmap w a) (0xC0 + w.toNat) ∧
    (s.inK = false → exec (.kwr 0x18 a) s =
      .next (s.modCore fun c => { c with late := c.late ++ [(.ctl 0x18 (s.rd a), 1)] })) ∧
    (s.inK = false → exec (.kwrSyncrstFold a) s = .next (s.takeFault (sFault .privilege 0x66))) ∧
    (s.inK = true → ∃ t, exec (.kwrSyncrstFold a) s = .next t ∧ t = s.modPad (fun p => { p with folds := t.pad.folds }) ∧
      ∀ g, FMap.get? t.pad.folds g = (FMap.get? s.pad.folds g).map fun o =>
        if g ≠ (s.rd a).toNat % 256 ∨ s.cur.tile ∉ o.members then o
        else if ∀ m ∈ o.members, m = s.cur.tile ∨ m ∈ o.rewrote then { o with rewrote := [], resetAt := some (s.pad.rtick + o.lat) }
        else { o with rewrote := nsAdd o.rewrote s.cur.tile })

/-- R155, R156, R157, Table 6-6: what registers read: the paddock's geometry and clocks, pstat, the loop registers and the queues from
the live state, a queue without the entry that the same bundle pushes (R7); a write lands in the fields its register has, pstat takes
TIE and PPRIV alone, and a register that is not written keeps its value. R250: poolscope takes each field but a 3 and those of pen granules.
R399: a wdesc or wmap write that sets VALID with an illegal field, or for a window whose PEER has another home on the panel, changes
nothing, and any other write stands in the register's fields. R410: a syncrst write of KIND 3 gives window NUM its counts, its
sequence numbers and its round of zero, no contribution held and no poison, and no other window anything. R440, R450: losssel takes its
fields, and with SNAP the snapshots; lossval writes the selected counter where Table 18-2 assigns one; trcemit makes a SOFT record
where tracing asks for one. -/
def Obligations.ControlRegisterValues : Prop :=
  ∀ (s : State) (v : W64),
    let c := s.tile.core
    let p := s.pad
    let live := ([0, 1, 2, 3].filter fun l => (c.level l).active).length
    s.krdValue 0x02 = p.shape.part ∧ s.krdValue 0x05 = BitVec.ofNat 64 p.stint ∧ s.krdValue 0x08 = BitVec.ofNat 64 p.rtick ∧
    (p.cls < 4096 → ∀ i, i < 64 → (s.krdValue 0x04).getLsbD i =
      (if i = 0 then c.priv else if i = 1 then c.ppriv else if i = 2 then p.strict else if i = 4 then c.tie
       else if 8 ≤ i ∧ i ≤ 10 then live.testBit (i - 8) else decide (32 ≤ i ∧ i ≤ 43) && p.cls.testBit (i - 32))) ∧
    (∀ l, l < 4 → s.krdValue (0x20 + l) = (c.level l).cnt ∧ s.krdValue (0x24 + l) = (c.level l).trip) ∧
    (∀ q ∈ [s.tile.mq, s.tile.vq, s.tile.dq], q.entries.length ≤ 16 →
      bits q.stat 4 0 = q.entries.length ∧
      (bits q.stat 63 32 = match q.entries with
        | e :: _ => e.serial.toNat
        | [] => q.serial.toNat)) ∧
    (∀ x ∈ [(0x28, s.tile.mq), (0x29, s.tile.vq), (0x2A, s.tile.dq)], let q := x.2
      ((∀ e ∈ q.entries, e.pushed ≠ p.rtick) → s.krdValue x.1 = q.stat) ∧
      (∀ e es, q.entries = es ++ [e] → e.pushed = p.rtick → (∀ e' ∈ es, e'.pushed ≠ p.rtick) →
        s.krdValue x.1 = { q with entries := es, serial := e.serial }.stat)) ∧
    (∀ k ∈ [0x11, 0x13, 0x14, 0x15, 0x58, 0x59, 0x6C, 0x6D, 0x6E, 0x6F, 0x70, 0x71, 0x72, 0x73, 0x74, 0x76],
      s.land (.ctl k v) = s.setCtl k v ∧ (s.land (.ctl k v)).krdValue k = v) ∧
    (s.land (.ctl 0x18 v)).krdValue 0x18 = (v &&& 0x7F) ||| (s.ctl 0x18 &&& ~~~ 0x7F) ∧
    (s.land (.ctl 0x10 v)).krdValue 0x10 = (v &&& 0xC0000000003FFFFF) ||| (s.ctl 0x10 &&& ~~~ 0xC0000000003FFFFF) ∧
    (s.land (.ctl 0x0D v)).krdValue 0x0D = (v &&& 0x7FFFFFFFFFFFFFFF) ||| (s.ctl 0x0D &&& ~~~ 0x7FFFFFFFFFFFFFFF) ∧
    (s.land (.ctl 0x0C v)).krdValue 0x0C = (if v.getLsbD 63 then v &&& 0x7FFFFFFFFFFFFFFF
      else (v &&& 0x7FFFFFFFFFFFFFFF) ||| (s.ctl 0x0C &&& 0x8000000000000000)) ∧
    s.land (.ctl 0x04 v) = s.modCore (fun c => { c with tie := v.getLsbD 4, ppriv := v.getLsbD 1 }) ∧
    (∀ k, k ∈ [0x00, 0x01, 0x02, 0x03, 0x05, 0x08, 0x09, 0x0A, 0x0B, 0x19, 0x1A, 0x28, 0x29, 0x2A, 0x51, 0x5A, 0x61] ∨
      (0x20 ≤ k ∧ k ≤ 0x27) ∨ (0x30 ≤ k ∧ k ≤ 0x39) ∨ (0x40 ≤ k ∧ k ≤ 0x4F) ∨ (0x62 ≤ k ∧ k ≤ 0x65) → s.land (.ctl k v) = s) ∧
    (∃ x, s.land (.ctl 0x3C v) = s.setCtl 0x3C x ∧ ∀ g, g < 32 → bits x (2 * g + 1) (2 * g) =
      if bits v (2 * g + 1) (2 * g) = 3 ∨ p.shape.area (g * 65536) = .pen then bits (s.ctl 0x3C) (2 * g + 1) (2 * g)
      else bits v (2 * g + 1) (2 * g)) ∧
    (∀ w, w < 64 →
      let refused := v.getLsbD 63 = true ∧ (bits v 62 61 = 3 ∨ (bits v 62 61 = 2 ∧ bits v 47 32 = 0))
      (refused → s.land (.ctl (0x80 + w) v) = s) ∧
      (¬ refused → s.land (.ctl (0x80 + w) v) = s.setCtl (0x80 + w) (v &&& 0xFF00FFFFFFFFFFFF))) ∧
    (∀ w, w < 64 →
      let taken := ∃ e ∈ s.pads, e.2.state ∈ [PState.running, .preempted, .halted] ∧ ∃ t ∈ e.2.tiles,
        (e.1, t.1) ≠ (s.cur.pad, s.cur.tile) ∧ bit (Regs.rd t.2.ctl (0xC0 + w)) 63 = true ∧
        bits (Regs.rd t.2.ctl (0x80 + w)) 15 0 = bits (s.ctl (0x80 + w)) 15 0
      let refused := v.getLsbD 63 = true ∧ (bits v 53 48 < 6 ∨ 36 < bits v 53 48 ∨ bits v 47 0 % 64 ≠ 0 ∨ taken)
      (refused → s.land (.ctl (0xC0 + w) v) = s) ∧
      (¬ refused → s.land (.ctl (0xC0 + w) v) = s.setCtl (0xC0 + w) (v &&& 0xE03FFFFFFFFFFFFF))) ∧
    (let n := bits v 7 0
      let y := s.tile.sync
      let z := (s.land (.ctl 0x66 v)).tile.sync
      (bits v 15 8 = 3 → n < 64 → FMap.sorted y.wsent = true → FMap.sorted y.wrecv = true → FMap.sorted y.rounds = true →
        s.land (.ctl 0x66 v) = s.modSync (fun _ => z) ∧
        z = { y with wsent := z.wsent, wrecv := z.wrecv, rounds := z.rounds, contribs := z.contribs, wpoison := z.wpoison } ∧
        (∀ w, Regs.rd z.wsent w = (if w = n then 0 else Regs.rd y.wsent w) ∧
          Regs.rd z.wrecv w = if w = n then 0 else Regs.rd y.wrecv w) ∧
        (∀ w, FMap.getD z.rounds w 0 = if w = n ∨ w = 64 + n then 0 else FMap.getD y.rounds w 0) ∧
        z.contribs = y.contribs.filter (·.window != n) ∧ ∀ w, w ∈ z.wpoison ↔ w ∈ y.wpoison ∧ w ≠ n) ∧
      ((bits v 15 8 ≠ 3 ∧ bits v 15 8 ≠ 2) ∨ (bits v 15 8 = 3 ∧ 64 ≤ n) → s.land (.ctl 0x66 v) = s)) ∧
    (let o := s.tile.obs
      let see := fun (f : Observe) => s.modTile fun t => { t with obs := f }
      let i := bits o.losssel 8 0
      let assigned := i ≤ 4 ∨ (8 ≤ i ∧ i ≤ 12) ∨ (16 ≤ i ∧ i ≤ 20) ∨ i = 24 ∨ (256 ≤ i ∧ i ≤ 511)
      let sel := v &&& 0x40000000000001FF
      s.land (.ctl 0x77 v) = see { o with losssel := sel, snaps := if v.getLsbD 63 then o.counters else o.snaps } ∧
      (assigned → s.land (.ctl 0x78 v) = see { o with counters := FMap.put o.counters i v }) ∧
      (¬ assigned → s.land (.ctl 0x78 v) = s) ∧
      (let f := s.fn p.fn
        let on := f.dbg.tcfg.getLsbD 63 = true ∧ f.dbg.tcfg.getLsbD 57 = true ∧ f.session = none
        let now := BitVec.ofNat 64 (if c.svc then p.rtick - 1 else p.rtick)
        let r : TraceRec := { kind := 7, time := now, src := s.cur.tile, aux := 0, data := v, seq := o.seq, drop := min 65535 o.lost }
        (¬ on → s.land (.ctl 0x79 v) = s) ∧
        (on → o.buf.length < 64 → s.land (.ctl 0x79 v) = see { o with seq := o.seq + 1, lost := 0, buf := o.buf ++ [r] })))

/-- R203, R204, R205: MBRD reads a mailbox with latency 1 and MBWR in K writes one on the next cycle; CAPRD reads a word of the
capability list, 0 from offset 4,096 on, and raises MISALIGN for an offset that is no multiple of 8; SRNG draws half of a
Philox block whose counter holds the stream, the tile and s[b]. -/
def Obligations.MailboxesCapabilitiesDraws : Prop :=
  ∀ (s : State) (d a b : Reg) (n : BitVec 4) (k : BitVec 14) (st : BitVec 7),
    let off := s.rd a + 8 * k.signExtend 64
    let z := philox (s.rd a) (st.toNat * 2 ^ 96 + s.cur.tile * 2 ^ 64 + (s.rd b).toNat)
    exec (.mbrd d n) s = .next (s.later d (Regs.rd s.tile.mbox n.toNat) 1) ∧
    (s.inK = true → exec (.mbwr n a) s = .next (s.modCore fun c => { c with late := c.late ++ [(.mbox n.toNat (s.rd a), 1)] })) ∧
    (s.inK = false → exec (.mbwr n a) s = .next (s.takeFault (sFault .privilege 0))) ∧
    (∀ v, Regs.rd (s.land (.mbox n.toNat v)).tile.mbox n.toNat = v ∧
      ∀ j, j ≠ n.toNat → Regs.rd (s.land (.mbox n.toNat v)).tile.mbox j = Regs.rd s.tile.mbox j) ∧
    (off.toNat % 8 = 0 → off.toNat < 4096 →
      exec (.caprd d a k) s = .next (s.later d (capWord s.panel.retire2 off.toNat) 1)) ∧
    (off.toNat % 8 = 0 → 4096 ≤ off.toNat → exec (.caprd d a k) s = .next (s.later d 0 1)) ∧
    (off.toNat % 8 ≠ 0 → exec (.caprd d a k) s = .next (s.takeFault (sFault .misalign off))) ∧
    exec (.srng false st d a b) s = .next (s.later d (BitVec.ofNat 64 z) 3) ∧
    exec (.srng true st d a b) s = .next (s.later d (BitVec.ofNat 64 (z / 2 ^ 64)) 3)

/-- R227 to R230: in K, MSLOAD of a word no valid entry holds, MSBIND, and MSRD in range do what they say; in U, and out of range,
they raise PRIVILEGE and PROTECTION. UOPn outside service and delay bundles begins a hold with its operands and the entry's
sequence; KONLY raises PRIVILEGE in U. An accepted binding holds the source word with its cycle count, a refused one keeps the
old entry, and one without VALID clears it. MSLOAD's word lands whole at its offset, clears its poison, and writes nothing else. R238: a
poisoned word that MSRD or a binding reads raises DATA_POISON with its offset, and writes no register and no entry (that it is raised
as a scalar load's is, is the model's reading: assumption log 65). -/
def Obligations.ControlStore : Prop :=
  ∀ (s : State) (d a b : Reg) (n : BitVec 6),
    let x := (s.rd a).toNat
    let held := ∃ e ∈ s.tile.st.binds, e.2.getLsbD 63 = true ∧ bits e.2 11 0 ≤ x ∧ x < bits e.2 11 0 + bits e.2 22 16
    let e := Regs.rd s.tile.st.binds n.toNat
    let st := s.tile.st.cstore
    (s.inK = true → x < 4096 → ¬ held → exec (.msload a b) s =
      .next (s.modCore fun c => { c with late := c.late ++ [(.cstore x (s.rd b), 1)] })) ∧
    (s.inK = true → 4096 ≤ x ∨ held → exec (.msload a b) s = .next (s.takeFault (sFault .protection (s.rd a)))) ∧
    (s.inK = true → exec (.msbind n a) s =
      .next (s.modCore fun c => { c with late := c.late ++ [(.bind n.toNat (s.rd a), 1)] })) ∧
    (s.inK = true → x < 4096 → FMap.get? st.errs x = none →
      exec (.msrd false d a) s = .next (if x ∈ st.poison then s.cond (sFault .dataPoison (BitVec.ofNat 64 x))
        else s.later d (st.word (8 * x)) 1)) ∧
    (s.inK = true → x < 64 → exec (.msrd true d a) s = .next (s.later d (Regs.rd s.tile.st.binds x) 1)) ∧
    (s.inK = true → 4096 ≤ x → exec (.msrd false d a) s = .next (s.takeFault (sFault .protection (s.rd a)))) ∧
    (s.inK = true → 64 ≤ x → exec (.msrd true d a) s = .next (s.takeFault (sFault .protection (s.rd a)))) ∧
    (s.inK = false → ∀ i ∈ [Instr.msload a b, .msbind n a, .msrd false d a, .msrd true d a],
      exec i s = .next (s.takeFault (sFault .privilege 0))) ∧
    (s.tile.core.svc = false → s.inDelay = false → s.inK = true ∨ e.getLsbD 61 = false →
      ∃ r : UopRun, exec (.uopn n d a b) s = .next (s.modCore fun c => { c with hold := .uop r }) ∧
        r.n = n.toNat ∧ r.entry = e ∧ r.d = d ∧ r.a = s.rd a ∧ r.b = s.rd b ∧ r.di = s.rd d ∧ r.mc = 0 ∧ r.pos = 0 ∧
        r.temps = [] ∧ r.committed = false) ∧
    (s.tile.core.svc = false → s.inDelay = false → s.inK = false → e.getLsbD 61 = true →
      exec (.uopn n d a b) s = .next (s.takeFault (sFault .privilege 0))) ∧
    (∀ (off : Nat) (v : W64), off < 4096 →
      let t := s.landStore (.cstore off v)
      let u := t.tile.st.cstore
      t = s.modTile (fun y => { y with st := { y.st with cstore := u } }) ∧ (∀ y, y ∈ u.poison ↔ y ∈ st.poison ∧ y ≠ off) ∧
      (Mem.wf st.bytes = true → u.word (8 * off) = v ∧
        ∀ y, y < 8 * off ∨ 8 * off + 8 ≤ y → Mem.rd u.bytes y = Mem.rd st.bytes y)) ∧
    (∀ (m : Nat) (w : W64), st.errs = [] → w.getLsbD 63 = true → w &&& 0x1FFF0000FF80F000 = 0 → bits w 22 16 ≤ 64 →
      bits w 11 0 + bits w 22 16 ≤ 4096 → (∃ y ∈ st.poison, bits w 11 0 ≤ y ∧ y < bits w 11 0 + bits w 22 16) →
      let t := s.landStore (.bind m w)
      t.tile.st = s.tile.st ∧ t.tile.ctl = s.tile.ctl ∧ ∃ f, t.tile.core.conds = s.tile.core.conds ++ [f] ∧ f.cause = .dataPoison ∧
        ∃ y ∈ st.poison, bits w 11 0 ≤ y ∧ y < bits w 11 0 + bits w 22 16 ∧ f.t3 = BitVec.ofNat 64 y) ∧
    (∀ (m : Nat) (w : W64), st.errs = [] → st.poison = [] →
      let t := s.landStore (.bind m w)
      let res := bindChecks st w
      let e' := Regs.rd t.tile.st.binds m
      (∀ j, j ≠ m → Regs.rd t.tile.st.binds j = Regs.rd s.tile.st.binds j) ∧ t.tile.st.cstore = st ∧
      (w.getLsbD 63 = false → e' = 0 ∧ t.ctl 0x39 = 0) ∧
      (w.getLsbD 63 = true → res.status = 0 → res.cyc < 65536 → bits e' 47 32 = res.cyc ∧
        e' &&& 0xFFFF0000FFFFFFFF = w &&& 0xFFFF0000FFFFFFFF ∧ t.ctl 0x39 = BitVec.ofNat 64 (res.cyc * 2 ^ 32)) ∧
      (w.getLsbD 63 = true → res.status ≠ 0 → e' = Regs.rd s.tile.st.binds m ∧
        t.ctl 0x39 = BitVec.ofNat 64 (res.index * 2 ^ 16) ||| BitVec.ofNat 64 res.status))

/-- R209 to R212, R214 to R217, R220: what the micro-operation at a run's position does on its micro-cycle, the word of the
control store being sound. One that computes writes its temporary after the latency of Table 8-4, its flags into the run's own
set; ULD and UST put their access in flight or raise what it meets, UBR and UREP say what is next, and UCMT checks the stores of
its group in order and takes what they write, D and the flags. The run then holds the core for one cycle more, or ends with D and
its flags one cycle later. Temporaries land when their latency is over, the later-issued last. R224, R225: a trap before UCMT
discards the run: the eight temporaries, msframe and the copy in the pen say where it stood, no register and no other byte of
memory changes, and tepc names the bundle of the UOPn; while a temporary is in flight the frame waits for it. A trap that discards
nothing clears msframe.VALID. (That the run waits for HBM within the band is assumption log 24's.) -/
def Obligations.MicroOperations : Prop :=
  (∀ (s : State) (r : UopRun), s.tile.st.cstore.errs = [] → s.tile.st.cstore.poison = [] → r.pos < bits r.entry 22 16 →
    let word := fun (pos : Nat) => s.tile.st.cstore.word (8 * (bits r.entry 11 0 + pos))
    let w := word r.pos
    let code := bits w 63 58
    let dst := bits w 57 54
    let fn := bits w 45 40
    let imm := bits w 31 0
    let simm := fun (w : W64) => BitVec.ofInt 64 (sext 32 (bits w 31 0))
    let sel := fun (w : W64) (k : Nat) =>
      if k < 8 then Regs.rd r.temps k else if k = 8 then r.a else if k = 9 then r.b else if k = 10 then r.di
      else if k = 11 then simm w else 0
    let x := sel w (bits w 53 50)
    let y := sel w (bits w 49 46)
    let old := Regs.rd r.temps dst
    let n := y.toNat % 64
    let lo := imm % 64
    let len := imm / 256 % 64 + 1
    let s0 := s.setCstore s.tile.st.cstore
    let t := s.microCycle r
    let step := fun (q : UopRun) => match r.rep with
      | some b =>
        if r.pos + 1 < b.first + b.len then { q with pos := r.pos + 1 }
        else if 1 < b.todo then { q with pos := b.first, rep := some { b with todo := b.todo - 1 } }
        else { q with pos := r.pos + 1, rep := none }
      | none => { q with pos := r.pos + 1 }
    let gives := fun (lat : Nat) (P : W64 → BitVec 7 → Prop) => ∃ v fl, P v fl ∧ t = s0.uopAfter (step { r with
      tpend := r.tpend ++ [{ reg := BitVec.ofNat 6 dst, val := v, left := lat, flags := fl }], flags := r.flags ||| fl })
    let int := fun (lat : Nat) (P : W64 → Prop) => gives lat fun v fl => P v ∧ fl = 0
    let f := if fn % 2 = 0 then Fmt.f32 else Fmt.f64
    let mode := fun (k : Nat) => match k % 4 with
      | 0 => Rnd.rne | 1 => .rtz | 2 => .rdn | _ => .rup
    let bitsOf := fun (g : Fmt) (u : W64) => u.toNat % 2 ^ g.width
    let flt := fun (lat : Nat) (q : FRes) => gives lat fun v fl => v = BitVec.ofNat 64 q.pat ∧ fl = q.fl
    let ea := x + simm w
    (code = 0 → t = s0.uopAfter (step r)) ∧
    (code = 0x01 → int 1 fun v => v = x + y) ∧ (code = 0x02 → int 1 fun v => v = x - y) ∧
    (code = 0x03 → int 3 fun v => v = x * y) ∧ (code = 0x04 → int 3 fun v => v.toInt = x.toInt * y.toInt / 2 ^ 64) ∧
    (code = 0x05 → int 1 fun v => v = x &&& y) ∧ (code = 0x06 → int 1 fun v => v = x ||| y) ∧
    (code = 0x07 → int 1 fun v => v = x ^^^ y) ∧ (code = 0x08 → int 1 fun v => v = x &&& ~~~y) ∧
    (code = 0x09 → int 1 fun v => v.toNat = x.toNat * 2 ^ n % 2 ^ 64) ∧ (code = 0x0A → int 1 fun v => v.toNat = x.toNat / 2 ^ n) ∧
    (code = 0x0B → int 1 fun v => v.toInt = x.toInt / 2 ^ n) ∧
    (code = 0x0C → int 1 fun v => ∀ i, i < 64 → v.getLsbD ((i + n) % 64) = x.getLsbD i) ∧
    (code = 0x0D → int 1 fun v => v.toInt = min x.toInt y.toInt) ∧ (code = 0x0E → int 1 fun v => v.toInt = max x.toInt y.toInt) ∧
    (code = 0x0F → int 1 fun v => v.toNat = min x.toNat y.toNat) ∧ (code = 0x10 → int 1 fun v => v.toNat = max x.toNat y.toNat) ∧
    (code = 0x11 → int 1 fun v => v.toNat ≤ 64 ∧ (∀ i, 64 - v.toNat ≤ i → x.getLsbD i = false) ∧
      (v.toNat < 64 → x.getLsbD (63 - v.toNat) = true)) ∧
    (code = 0x12 → int 1 fun v => v.toNat = ((List.range 64).filter fun i => x.getLsbD i).length) ∧
    (code = 0x13 → int 1 fun v => v.toNat = x.toNat / 2 ^ lo % 2 ^ len) ∧
    (code = 0x14 → int 1 fun v => v.toInt = sext len (x.toNat / 2 ^ lo % 2 ^ len)) ∧
    (code = 0x15 → lo + len ≤ 64 → int 1 fun v => ∀ i, i < 64 →
      v.getLsbD i = if lo ≤ i ∧ i < lo + len then x.getLsbD (i - lo) else old.getLsbD i) ∧
    (∀ c, code = 0x16 → IntCond.ofCode fn = some c → int 1 fun v => v = if c.holds x y then 1 else 0) ∧
    (code = 0x17 → int 1 fun v => v = if Regs.rd r.temps fn = 0 then y else x) ∧
    (code = 0x18 → int 1 fun v => v.toInt = max (-2 ^ fn) (min (2 ^ fn - 1) x.toInt)) ∧
    (code = 0x19 → flt 4 (fAdd f (mode (fn / 2)) (bitsOf f x) (bitsOf f y))) ∧
    (code = 0x1A → flt 4 (fMul f (mode (fn / 2)) (bitsOf f x) (bitsOf f y))) ∧
    (code = 0x1B → flt (if fn % 2 = 0 then 5 else 6) (fFma f (mode (fn / 2)) (bitsOf f x) (bitsOf f y) (bitsOf f old))) ∧
    (∀ p ∈ [(0, Fmt.sint 64, Fmt.f32), (1, Fmt.sint 64, Fmt.f64), (2, Fmt.f32, Fmt.sint 64), (3, Fmt.f64, Fmt.sint 64),
        (4, Fmt.f64, Fmt.f32), (5, Fmt.f32, Fmt.f64)], code = 0x1C → fn % 8 = p.1 →
      gives 4 fun v fl => let q := convert p.2.1 p.2.2 (bitsOf p.2.1 x) (mode (fn / 8))
        v.toNat % 2 ^ p.2.2.width = q.pat % 2 ^ p.2.2.width ∧ fl = q.fl) ∧
    (∀ wd : Width, code = 0x1D → fn ≤ 6 → wd.bytes = 2 ^ (fn % 4) →
      (ea.toNat % wd.bytes ≠ 0 → t = s0.takeFault (sFault .misalign ea)) ∧
      (ea.toNat % wd.bytes = 0 → s.loadOk ea.toNat wd.bytes = true →
        t = (s0.access (.uld wd (decide (fn < 4)) dst) ea.toNat).uopAfter (step r)) ∧
      (ea.toNat % wd.bytes = 0 → s.loadOk ea.toNat wd.bytes = false → ∀ g o, s.pad.shape.target s.cur.tile ea.toNat = .hbm g o →
        let e := s.pad.hbmEntry g
        let may := e.getLsbD 48 = true ∧ (e.getLsbD 45 = true ∨ s.inK = true) ∧ bits e 56 49 = s.pad.shape.world
        (s.strict = true ∨ ¬ may → t = s0.takeFault (sFault .protection ea)) ∧
        (s.strict = false → may → e.getLsbD 63 = false → t = s0.takeFault (sFault .page ea)) ∧
        (s.strict = false → may → e.getLsbD 63 = true → r.hbmWait = none →
          ∃ d, s.pad.rtick + 120 ≤ d ∧ t = ({ s0 with free := s.free + 1 } : State).modCore fun c =>
            { c with hold := .uop { r with hbmWait := some d } })) ∧
      (ea.toNat % wd.bytes = 0 → s.loadOk ea.toNat wd.bytes = false →
        (∀ g o, s.pad.shape.target s.cur.tile ea.toNat ≠ .hbm g o) → t = s0.takeFault (sFault .protection ea))) ∧
    (∀ a d rest, code = 0x1E → r.stores = (a, d) :: rest →
      t = (s0.access (.ust d) a).uopAfter { step r with stores := rest }) ∧
    (code = 0x1F → t = s0.uopAfter { r with pos :=
      if fn = 0 ∨ (fn = 1 ∧ x ≠ 0) ∨ (fn = 2 ∧ x = 0) then r.pos + imm else r.pos + 1 }) ∧
    (code = 0x20 → t = s0.uopAfter { r with
      pos := r.pos + 1, rep := some { first := r.pos + 1, len := imm / 256 % 256, todo := imm % 256 } }) ∧
    (code = 0x21 →
      let sts := (List.range (bits r.entry 22 16 - (r.pos + 1))).map fun i =>
        let u := word (r.pos + 1 + i)
        (sel u (bits u 53 50) + simm u, (List.range (2 ^ bits u 45 40)).map fun i => BitVec.ofNat 8 ((sel u (bits u 49 46)).toNat / 256 ^ i))
      let refuses := fun (st : W64 × List Byte) (f : FaultInfo) =>
        let m := st.2.length
        let off := s.ownOff st.1.toNat
        let sync := !s.inK && s.pad.shape.isSyncWord s.cur.tile st.1.toNat
        if st.1.toNat % m ≠ 0 then f = sFault .misalign st.1
        else if s.storeOk st.1.toNat m = false then f = sFault .protection st.1
        else (m < 8 ∨ sync = true) ∧ (∃ p ∈ s.tile.st.pool.poison, off / 8 ≤ p ∧ p ≤ (off + m - 1) / 8) ∧
          f = sFault (if sync then .syncPoison else .dataPoison) st.1
      ((∀ st ∈ sts, ∀ f, ¬ refuses st f) → t = s0.uopAfter { step r with
        committed := true, stores := sts.map fun st => (st.1.toNat, st.2), dval := if fn = 1 then some x else none }) ∧
      ∀ before st after f, sts = before ++ st :: after → (∀ b ∈ before, ∀ g, ¬ refuses b g) → refuses st f → t = s0.takeFault f)) ∧
  (∀ (s : State) (q : UopRun), q.hbmWait = none →
    (q.mc + 1 ≠ bits q.entry 47 32 → s.uopAfter q = s.modCore fun c => { c with hold := .uop { q with mc := q.mc + 1 } }) ∧
    (q.mc + 1 = bits q.entry 47 32 →
      let d := if q.dval.isSome then q.d else 0
      s.uopAfter q = ((s.laterFl d (q.dval.getD 0) 1 q.flags).modCore fun c => { c with hold := .none }).finishBundle)) ∧
  (∀ (q : UopRun) (k : Nat), q.tick.tpend = (q.tpend.filter fun w => decide (1 < w.left)).map (fun w => { w with left := w.left - 1 }) ∧
    Regs.rd q.tick.temps k = match (q.tpend.filter fun w => decide (w.left ≤ 1 ∧ w.reg.toNat = k)).getLast? with
      | some w => w.val
      | none => Regs.rd q.temps k) ∧
  (∀ (s : State) (a : Access) (q : UopRun), a.ea < 0x200000 → s.tile.st.pool.errs = [] → s.tile.st.pool.poison = [] →
    let at' := MemSite.pool s.cur.pad s.cur.tile
    (∀ wd sg k, a.acc = .uld wd sg k → s.tile.core.hold = .uop q →
      SameMemory s (s.perform a) ∧ ∃ v, (s.perform a).tile.core.hold = .uop { q with
          tpend := q.tpend ++ [{ reg := BitVec.ofNat 6 k, val := v, left := 3, flags := 0 }] } ∧
        ∀ i, i < 64 → v.getLsbD i = if i < 8 * wd.bytes then (s.byteAt at' (a.ea + i / 8)).getLsbD (i % 8)
          else (sg && (s.byteAt at' (a.ea + (wd.bytes - 1))).getLsbD 7)) ∧
    (∀ d : List Byte, a.acc = .ust d → Mem.wf s.tile.st.pool.bytes = true → SameMemoryBut s (s.perform a) a.ea d.length ∧
      ∀ i, i < d.length → (s.perform a).byteAt at' (a.ea + i) = d.getD i 0)) ∧
  (∀ (s : State) (f : FaultInfo), f.cause.wide s.strict = false → s.tile.noHandler = false →
    let t := s.takeFault f
    let flying := s.tile.core.acc.any fun a => a.acc.isUld
    (∀ r, s.tile.core.hold = .uop r → r.committed = false →
      t.tile.core.hold = .none ∧ t.tile.core.regs = s.tile.core.regs ∧ t.tile.core.pend = s.tile.core.pend ∧
      t.tile.sync = s.tile.sync ∧ t.ctl kTepc = 24 * s.tile.core.pc ∧
      (r.tpend ≠ [] ∨ flying = true →
        t.tile.core.frame = some { r with hbmWait := none } ∧ SameMemory s t) ∧
      (r.tpend = [] → flying = false → r.n < 64 → r.mc < 2 ^ 16 → bits r.entry 11 0 + r.pos < 4096 →
        Mem.wf s.tile.st.pool.bytes = true →
        (t.ctl kMsframe).toNat = 2 ^ 63 + r.n * 2 ^ 32 + r.mc * 2 ^ 16 + bits r.entry 11 0 + r.pos ∧
        (∀ i, i < 8 → t.ctl (kMstemp + i) = Regs.rd r.temps i) ∧ SameMemoryBut s t 0x1FFF80 128 ∧
        ∀ i, i < 16 → Mem.rd64 t.tile.st.pool.bytes (0x1FFF80 + 8 * i) =
          if i < 8 then Regs.rd r.temps i else [t.ctl kMsframe, r.a, r.b, r.di].getD (i - 8) 0)) ∧
    ((∀ r, s.tile.core.hold ≠ .uop r) →
      t.ctl kMsframe = s.ctl kMsframe &&& 0x7FFFFFFFFFFFFFFF ∧ ∀ i, i < 8 → t.ctl (kMstemp + i) = s.ctl (kMstemp + i)))

/-- R155, R158, R160, R228 to R230: what a program in U cannot do. No instruction a bundle can hold, run in U, leaves U but by a trap;
none writes a control register but fpcsr, or a mailbox, or the control store or its bindings, now or later, save for the record of a
trap it takes; and no semaphore is set. -/
def Obligations.UserModeIsBound : Prop :=
  ∀ (s t : State) (i : Instr), i.slot.isSome = true → s.inK = false → exec i s = .next t →
    (t.tile.core.priv = true → t.tile.core.entering = true) ∧
    t.tile.mbox = s.tile.mbox ∧ t.tile.st.cstore = s.tile.st.cstore ∧ t.tile.st.binds = s.tile.st.binds ∧
    t.tile.sync.set = s.tile.sync.set ∧ (t.tile.ctl = s.tile.ctl ∨ ∃ f, t = s.takeFault f) ∧
    ∃ ws, t.tile.core.late = s.tile.core.late ++ ws ∧ ∀ w ∈ ws, match w.1 with
      | .ctl k _ => k = 0x18
      | .mbox _ _ => False
      | .cstore _ _ => False
      | .bind _ _ => False
      | _ => True

-- Synchronising (14, 15)

/-- R368 to R374: semaphores outside service. A signal is added at the end of its cycle and SEMSIG.SET, in K, writes and clears the
poison; a wait takes its amount when it is there, and when not raises TIMING (WAIT) in a strict stint and stalls in a loose
one; SEMTST and SEMRD read; a timed wait gives 1 or, when its limit has run out, 0. A poisoned semaphore raises
SYNC_POISON. At the end of a cycle the value is what was left or set plus every signal, at most 65,535. -/
def Obligations.Semaphores : Prop :=
  ∀ (s : State) (d a b : Reg) (n : BitVec 6) (q : BitVec 8), s.tile.core.svc = false →
    let k := q.toNat
    let v := (s.tile.sync.sem k).toNat
    let amt := ((s.rd a).toNat + n.toNat) % 65536
    let amt' := (s.rd a).toNat % 65536
    let limit := (s.rd b).toNat
    let ok := k ∉ s.tile.sync.poison
    let scope := s.outOfScope (.sem s.cur.tile k) = none
    let takes := fun (t : State) (m : Nat) => t = s.modTile (fun x => { x with sync := { x.sync with sems := t.tile.sync.sems } }) ∧
      (t.tile.sync.sem k).toNat = v - m ∧ ∀ j, j ≠ k → t.tile.sync.sem j = s.tile.sync.sem j
    let wait := s.takeFault (timingFault .s 0x08 k s.pad.rtick)
    (ok → scope → exec (.semsig false a n q) s = .next (s.modSync fun y => y.signal k amt)) ∧
    (s.inK = true → scope → exec (.semsig true a n q) s = .next (s.modSync fun y =>
      { y with set := FMap.put y.set k (BitVec.ofNat 16 amt), poison := nsDel y.poison k })) ∧
    (s.inK = false → exec (.semsig true a n q) s = .next (s.takeFault (sFault .privilege 0))) ∧
    (ok → scope → amt ≤ v → ∃ t, exec (.semwt a n q) s = .next t ∧ takes t amt) ∧
    (ok → v < amt → exec (.semwt a n q) s = .next (if s.strict then wait else s.stall)) ∧
    (ok → exec (.semtst d a n q) s = .next (s.later d (if amt ≤ v then 1 else 0) 1)) ∧
    (ok → exec (.semrd d q) s = .next (s.later d (BitVec.ofNat 64 v) 1)) ∧
    (ok → s.strict = true → limit ≠ 0 → exec (.semwtt d a b q) s = .next wait) ∧
    (ok → scope → s.strict = false ∨ limit = 0 → amt' ≤ v →
      ∃ t, exec (.semwtt d a b q) s = .next (t.later d 1 1) ∧ takes t amt') ∧
    (ok → s.strict = false ∨ limit = 0 → v < amt' → exec (.semwtt d a b q) s =
      .next (if s.tile.core.waitFrom.getD s.pad.rtick + limit ≤ s.pad.rtick then s.later d 0 1 else s.stall)) ∧
    (¬ ok → ∀ i ∈ [Instr.semsig false a n q, .semwt a n q, .semtst d a n q, .semrd d q, .semwtt d a b q],
      exec i s = .next (s.takeFault (sFault .syncPoison (BitVec.ofNat 64 k)))) ∧
    (∀ y : Sync, FMap.sorted y.sig = true → FMap.sorted y.set = true →
      let v0 := (FMap.getD y.set k (y.sem k)).toNat
      (y.endCycle.sem k).toNat = min 65535 (v0 + FMap.getD y.sig k 0) ∧ y.endCycle.poison = y.poison ∧
        (65535 < v0 + FMap.getD y.sig k 0 → y.endCycle.ovf = true) ∧ (y.ovf = true → y.endCycle.qnum = y.qnum) ∧
        FMap.getD (y.signal k amt).sig k 0 = FMap.getD y.sig k 0 + (if k ∈ y.poison then 0 else amt))

/-- R375 to R379, R409: a fold at a member that may act on it, not poisoned, outside service. FARV and FBAR arrive on their cycle with
the phase as token, and the last arrival fixes the advance FOLDLAT cycles on; FWT and FWTT give 1, or 3 when a further phase has
passed, once the phase is past the token, and wait or time out before. FOLD_ADVANCE moves the phase on and clears the
arrivals. A tile that is no member, or has arrived, raises PROTECTION; a poisoned fold SYNC_POISON; FBAR in a delay bundle is illegal.
FBAR then holds the core for its cycles; at their end the next bundle issues where the phase is past the token, and else TIMING (WAIT) is
raised in a strict stint and a loose one goes on waiting; poison of its fold ends the hold at once. -/
def Obligations.FoldBarriers : Prop :=
  ∀ (s : State) (f : BitVec 8) (d a b : Reg) (n : BitVec 6), s.tile.core.svc = false →
    let k := f.toNat
    let me := s.cur.tile
    let scope := s.outOfScope (.fold k (s.pad.foldHome k)) = none
    let no := fun (i : Instr) (reason : W64) =>
      exec i s = .next (s.takeFault (sFault .protection (0xF000000000000000 + BitVec.ofNat 64 k * 256 + reason)))
    let absent := (∀ i ∈ [Instr.farv d f, .fwt d a f, .fwtt d a b f], no i 1) ∧ (s.inDelay = false → no (.fbar d a n f) 1)
    (∀ o, FMap.get? s.pad.folds k = some o → me ∉ o.members → absent) ∧ (FMap.get? s.pad.folds k = none → absent) ∧
    (s.inDelay = true → ∃ x, x.cause = .illegalSyllable ∧ exec (.fbar d a n f) s = .next (s.takeFault x)) ∧
    ∀ o, FMap.get? s.pad.folds k = some o → me ∈ o.members →
      let arrived := FMap.get? o.arrived me ≠ none
      let diff := (o.phase - (s.rd a).setWidth 32).toInt
      let limit := (s.rd b).toNat
      let fold := fun (o' : Fold) => s.modPad fun p => { p with folds := FMap.modify p.folds k fun _ => o' }
      let came := fun (o' : Fold) => o' = { o with arrived := o'.arrived, advance := o'.advance } ∧
        (∀ m, FMap.get? o'.arrived m = if m = me then some s.pad.rtick else FMap.get? o.arrived m) ∧
        ((∀ m ∈ o.members, m = me ∨ FMap.get? o.arrived m ≠ none) → o'.advance = some (s.pad.rtick + o.lat)) ∧
        (¬ (∀ m ∈ o.members, m = me ∨ FMap.get? o.arrived m ≠ none) → o'.advance = o.advance)
      let wait := s.takeFault (timingFault .s 0x08 k s.pad.rtick)
      let poisoned := s.takeFault (sFault .syncPoison (BitVec.ofNat 64 k))
      (o.poison = true → (∀ i ∈ [Instr.farv d f, .fwt d a f, .fwtt d a b f], exec i s = .next poisoned) ∧
        (s.inDelay = false → exec (.fbar d a n f) s = .next poisoned)) ∧
      (o.poison = false → arrived → no (.farv d f) 2 ∧ (s.inDelay = false → no (.fbar d a n f) 2)) ∧
      (o.poison = false → ¬ arrived → scope → ∃ o', came o' ∧
        exec (.farv d f) s = .next ((fold o').later d (o.phase.setWidth 64) 1)) ∧
      let inSlot := fun (j : Nat) => (s.pad.folds.filter fun e => e.2.members.contains me)[j]? = some (k, o)
      (o.poison = false → ¬ arrived → scope → s.inDelay = false → ∃ o' slot, came o' ∧ inSlot slot ∧
        exec (.fbar d a n f) s = .next (((fold o').later d (o.phase.setWidth 64) 1).modCore fun c =>
          { c with hold := .fbar (((s.rd a).toNat + n.toNat) % 2 ^ 64) slot o.phase })) ∧
      (o.poison = false → 1 ≤ diff → scope → exec (.fwt d a f) s = .next (s.later d (if 2 ≤ diff then 3 else 1) 1)) ∧
      (o.poison = false → diff < 1 → exec (.fwt d a f) s = .next (if s.strict then wait else s.stall)) ∧
      (o.poison = false → s.strict = true → limit ≠ 0 → exec (.fwtt d a b f) s = .next wait) ∧
      (o.poison = false → 1 ≤ diff → scope → s.strict = false ∨ limit = 0 →
        exec (.fwtt d a b f) s = .next (s.later d (if 2 ≤ diff then 3 else 1) 1)) ∧
      (o.poison = false → diff < 1 → s.strict = false ∨ limit = 0 → exec (.fwtt d a b f) s =
        .next (if s.tile.core.waitFrom.getD s.pad.rtick + limit ≤ s.pad.rtick then s.later d 0 1 else s.stall)) ∧
      (∀ slot tok left, s.tile.core.hold = .fbar left slot tok → inSlot slot → s.tile.core.halted = false →
        s.tile.core.entering = false →
        let past := 1 ≤ (o.phase - tok).toInt
        (o.poison = true → s.passHold = .wait poisoned) ∧
        (o.poison = false → 0 < left → s.passHold = .wait (s.modCore fun c => { c with hold := .fbar (left - 1) slot tok })) ∧
        (o.poison = false → left = 0 → past → scope → s.passHold = .bundle (s.modCore fun c => { c with hold := .none })) ∧
        (o.poison = false → left = 0 → ¬ past → s.passHold = .wait (if s.strict then wait else s))) ∧
      ∃ o', exec (.foldAdvance k) s = .next (fold o') ∧
        (o.resetAt = some (s.pad.rtick + 1) → o'.phase = 0 ∧ o'.arrived = [] ∧ o'.poison = false) ∧
        (o.resetAt = none → o.advance = some (s.pad.rtick + 1) → o' = { o with phase := o.phase + 1, arrived := [], advance := none }) ∧
        (o.resetAt = none → o.advance ≠ some (s.pad.rtick + 1) → o' = o)

/-- R382, R383, R409: window counters outside service, and the poison of objects: WACQ goes on once the home's count has reached s[a],
and else raises TIMING (WAIT) or stalls; WRD reads a counter; a poisoned window raises SYNC_POISON. An uncorrectable error
poisons a semaphore or window of the tile, or a fold at every member, and changes nothing else. -/
def Obligations.WindowCountersAndPoison : Prop :=
  ∀ (s : State) (d a : Reg) (w : BitVec 6), s.tile.core.svc = false →
    let k := w.toNat
    let ok := k ∉ s.tile.sync.wpoison
    let count := Regs.rd s.tile.sync.wrecv k
    (ok → s.rd a ≤ count → s.outOfScope (.window k s.cur.tile) = none → exec (.wacq a w) s = .next s) ∧
    (ok → count < s.rd a → exec (.wacq a w) s =
      .next (if s.strict then s.takeFault (timingFault .s 0x08 k s.pad.rtick) else s.stall)) ∧
    (ok → exec (.wrd true d w) s = .next (s.later d count 1)) ∧
    (ok → exec (.wrd false d w) s = .next (s.later d (Regs.rd s.tile.sync.wsent k) 1)) ∧
    (¬ ok → ∀ i ∈ [Instr.wacq a w, .wrd true d w, .wrd false d w],
      exec i s = .next (s.takeFault (sFault .syncPoison (BitVec.ofNat 64 k)))) ∧
    (∀ q, ∃ l, exec (.syncObjectPoisoned (.sem q)) s = .next (s.modSync fun y => { y with poison := l }) ∧
      ∀ j, j ∈ l ↔ j = q ∨ j ∈ s.tile.sync.poison) ∧
    (∀ q, ∃ l, exec (.syncObjectPoisoned (.window q)) s = .next (s.modSync fun y => { y with wpoison := l }) ∧
      ∀ j, j ∈ l ↔ j = q ∨ j ∈ s.tile.sync.wpoison) ∧
    ∀ f, exec (.syncObjectPoisoned (.fold f)) s =
      .next (s.modPad fun p => { p with folds := FMap.modify p.folds f fun o => { o with poison := true } })

-- The engines (05, 06, 10 to 13)

/-- R107, R108, R110, R111, R138, R139, R141: outside service every engine syllable that executes appends one entry to its slot's
queue, with the queue's next serial, its start tick rtick + 1 + dly or ANY, and copies of the records and registers it names,
and changes nothing else. A full queue is TIMING (QFULL) in a strict stint and a stall in a loose one; ANY in a strict stint is
TIMING (ANY). Under service each is illegal (R432), and MWB of a record that R326 calls illegal always is. -/
def Obligations.EnginePushes : Prop :=
  let stochastic := fun (s : State) (e : En) => let w := Regs.rd s.tile.mx.mn (24 * (e.idx.toNat % 4) + 3)
    bits w 59 57 = 4 ∧ bits w 63 60 ∉ [0, 1, 4, 5]
  (∀ (s : State) (e : En), stochastic s e → ∃ f, f.cause = .illegalSyllable ∧ exec (.mwb e) s = .next (s.takeFault f)) ∧
  ∀ (s : State) (i : Instr) (sl : Slot), i.slot = some sl → sl ≠ .s → i.isNop = false →
    (∀ e, i = .mwb e → ¬ stochastic s e) →
    let now := s.pad.rtick
    let q := s.tile.queue sl
    let full := 16 ≤ q.entries.length
    (s.tile.core.svc = true → ∃ f, f.cause = .illegalSyllable ∧ exec i s = .next (s.takeFault f)) ∧
    (s.tile.core.svc = false → full →
      exec i s = .next (if s.strict then s.takeFault (timingFault sl 0x01 0 now) else s.stall)) ∧
    (s.tile.core.svc = false → ¬ full → s.strict = true → instrDelay i = 63 →
      exec i s = .next (s.takeFault (timingFault sl 0x02 0 now))) ∧
    (s.tile.core.svc = false → ¬ full → s.strict = false ∨ instrDelay i ≠ 63 →
      ∃ x : Entry, exec i s = .next (s.modTile fun t =>
          t.setQueue sl { q with entries := q.entries ++ [x], serial := q.serial + 1 }) ∧
        x.instr = i ∧ x.serial = q.serial ∧ x.j = 0 ∧
        x.start = (if instrDelay i = 63 then none else some (now + 1 + instrDelay i)) ∧
        (∀ e, i ∈ [Instr.mgo e, .mma e, .mzero e, .mwb e] → x.rep = e.rep.toNat ∧ x.step = e.step.toInt ∧
          ∀ k, k < 24 → x.ws.getD k 0 = Regs.rd s.tile.mx.mn (24 * (e.idx.toNat % 4) + k)) ∧
        (∀ e, i ∈ [Instr.mpop e, .mvwin e] → x.rep = e.rep.toNat ∧ x.step = e.step.toInt) ∧
        (∀ e, i = .mscl e → x.rep = e.rep.toNat ∧ x.step = e.step.toInt ∧
          ∀ k, k < 8 → (x.its.getD 0 []).getD k 0 = Regs.rd s.tile.dr.ti (8 * (e.idx.toNat % 32) + k)) ∧
        (∀ e, i = .vchain e → x.rep = e.rep.toNat ∧ x.step = e.step.toInt ∧
          (∀ k, k < 16 → x.ws.getD k 0 = Regs.rd s.tile.vec.ch (16 * (e.idx.toNat % 16) + k)) ∧
          ∀ k, k < 8 → (x.its.getD 0 []).getD k 0 = Regs.rd s.tile.dr.ti (8 * bits (x.ws.getD 0 0) 4 0 + k) ∧
            (x.its.getD 1 []).getD k 0 = Regs.rd s.tile.dr.ti (8 * bits (x.ws.getD 0 0) 12 8 + k) ∧
            (x.its.getD 2 []).getD k 0 = Regs.rd s.tile.dr.ti (8 * bits (x.ws.getD 0 0) 20 16 + k)) ∧
        (∀ e, i ∈ [Instr.dcopy e, .dgather e, .dscatter e, .dfill e, .dput e, .dget e, .dputadd e, .damo e, .dtab e, .dfence e] →
          x.rep = e.rep.toNat ∧ x.step = e.step.toInt ∧
          (∀ k, k < 8 → x.ws.getD k 0 = Regs.rd s.tile.dr.dd (8 * (e.idx.toNat % 32) + k)) ∧
          ∀ k, k < 8 → (x.its.getD 0 []).getD k 0 = Regs.rd s.tile.dr.ti (8 * bits (x.ws.getD 0 0) 4 0 + k) ∧
            (x.its.getD 1 []).getD k 0 = Regs.rd s.tile.dr.ti (8 * bits (x.ws.getD 0 0) 12 8 + k) ∧
            (x.its.getD 2 []).getD k 0 = Regs.rd s.tile.dr.ti (8 * bits (x.ws.getD 0 0) 20 16 + k)) ∧
        (∀ vd a k ty vb hi, i ∈ [Instr.vld vd a k, .vst vd a k, .vbcast ty vd a, .vmovs ty vd a vb hi] → x.x = s.rd a) ∧
        (∀ vd a b, i = .vrng vd a b → x.x = s.rd a ∧ x.y = s.rd b) ∧
        (sl = .v → (∀ e, i ≠ .vchain e) → x.rep = 0 ∧ x.step = 0))

/-- R140, R142 to R145, R284, R285, R316, R335: a due head whose engine is free starts on its cycle. A vector instruction makes the
engine busy for its B cycles; a Drover command takes its semaphore and the lowest free slot, or waits for one; MMA of frame
operands and an unscaled legal pair starts its product, by both of its events, and completes with the product's last cycle. A run whose
semaphore is short does not start: TIMING (FLAG) in a strict stint. A loose run that waits for an amount starts at most 64 cycles from the
one on which its semaphore held (R143), and a strict one on its cycle. (`plain`: the cycle from which a loose run starts is the model's own
field of an entry, assumption log 25.) -/
def Obligations.EngineStarts : Prop :=
  ∀ (s : State) (e : Entry) (es : List Entry),
    let now := s.pad.rtick
    let at' := fun (q : Queue) => q.entries = e :: es ∧ q.act = none ∧
      (s.strict = true → e.due = now ∧ ∀ x ∈ es, x.start ≠ some now) ∧ (s.strict = false → e.due ≤ now)
    let due := fun (q : Queue) => at' q ∧ (s.strict = false → e.ready.getD now ≤ now)
    let plain := fun (x : Entry) => { x with ready := none }
    let same := fun (q r : Queue) => q.serial = r.serial ∧ q.entries.map plain = r.entries.map plain
    let held := fun (w : Wait) => w.n ≤ (s.tile.sync.sem w.q).toNat ∧ (w.n ≠ 0 → w.q ∉ s.tile.sync.poison) ∧
      (w.acq = true → s.outOfScope (.sem s.cur.tile w.q) = none)
    let waits := fun (w : Wait) => held w ∧ (s.strict = true ∨ w.n = 0 ∨ e.ready ≠ none)
    let late := fun (t : State) (sub : Nat) => ∃ f, t.tile.core.conds = s.tile.core.conds ++ [f] ∧ f.cause = .timing ∧
      f.unit = .d ∧ f.eng = true ∧ bits f.t3 7 0 = sub
    exec (.engineRunStart .s) s = .next s ∧
    (due s.tile.vq → (∀ n, e.instr ≠ .vchain n) → ∃ q, exec (.engineRunStart .v) s = .next (s.modTile fun t => { t with vq := q }) ∧
      same q s.tile.vq ∧ q.act = some { s := now, fin := some (now + (vTimeOf e.instr).b - 1) }) ∧
    (let w := dWait e.ws
     let idle := fun (t : State) => t.tile.dr.runs = s.tile.dr.runs ∧ t.tile.sync = s.tile.sync ∧ SameMemory s t ∧
      (s.strict = false → t.tile.core = s.tile.core ∧ same t.tile.dq s.tile.dq ∧ t.tile.dq.act = none)
     let starts := fun (k : Nat) (t : State) => ∃ r, t.tile.dr.runs = s.tile.dr.runs ++ [r] ∧ r.slot = some k ∧
      r.serial = e.serial ∧ r.j = e.j ∧ r.instr = e.instr ∧ r.ws = e.ws ∧ r.its = e.its ∧ r.s = now ∧ r.issued = 0 ∧
      r.fin = none ∧ r.susp = false ∧ same t.tile.dq s.tile.dq ∧ t.tile.dq.act = some { s := now, fin := none } ∧
      (t.tile.sync.sem w.q).toNat = (s.tile.sync.sem w.q).toNat - w.n ∧
      (∀ q, q ≠ w.q → t.tile.sync.sem q = s.tile.sync.sem q) ∧ SameMemory s t ∧ ∀ r, t.rd r = s.rd r
     (∀ n, e.instr ≠ .dfence n) → s.droverReason (e.droverRun now) = none →
      (∀ k, s.tile.dr.freeSlot = some k → due s.tile.dq → waits w → ∃ t, exec (.engineRunStart .d) s = .next t ∧ starts k t) ∧
      (∀ k, s.tile.dr.freeSlot = some k → at' s.tile.dq → s.strict = false → held w → w.n ≠ 0 → e.ready = none →
        ∃ t m, exec (.engineRunStart .d) s = .next t ∧ m ≤ 64 ∧ (m = 0 → starts k t) ∧
          (0 < m → idle t ∧ (t.tile.dq.entries.head?.bind (·.ready)) = some (now + m))) ∧
      (at' s.tile.dq → s.strict = false → held w → now < e.ready.getD now → ∃ t, exec (.engineRunStart .d) s = .next t ∧ idle t) ∧
      (∀ k, s.tile.dr.freeSlot = some k → at' s.tile.dq → (s.tile.sync.sem w.q).toNat < w.n → w.q ∉ s.tile.sync.poison →
        ∃ t, exec (.engineRunStart .d) s = .next t ∧ idle t ∧ (s.strict = true → late t 0x05)) ∧
      (s.tile.dr.freeSlot = none → at' s.tile.dq → ∃ t, exec (.engineRunStart .d) s = .next t ∧ idle t ∧
        (s.strict = true → late t 0x04))) ∧
    (∀ k, s.tile.dr.freeSlot = some k → k < 8 ∧ (∀ r ∈ s.tile.dr.runs, r.slot ≠ some k) ∧
      ∀ m, m < k → ∃ r ∈ s.tile.dr.runs, r.slot = some m) ∧
    (∀ (n : En) (f : ProdFmt), due s.tile.mq → e.instr = .mma n → waits (lWait e.ws 0) → prodFmt (e.ws.getD 24 0) = .ok f →
      f.amx = false → f.bmx = false → (e.ws.getD 0 0).getLsbD 63 = false → (e.ws.getD 1 0).getLsbD 63 = false →
      let fa : Int := (bits (e.ws.getD 0 0) 40 32 : Nat) + e.j * e.step
      let fb : Int := (bits (e.ws.getD 1 0) 40 32 : Nat) + e.j * e.step
      let ct := bits (e.ws.getD 2 0) 5 0
      let sp := bits s.pad.shape.part 21 16 * 16
      0 ≤ fa → fa < sp → 0 ≤ fb → fb < sp → ct < s.pad.shape.nt →
      ∃ t p, exec .matrixProductStart s = .next t ∧ exec (.engineRunStart .m) s = .next t ∧
        t.tile.mx.prods = s.tile.mx.prods ++ [p] ∧ p.serial = e.serial ∧ p.j = e.j ∧ p.p = 0 ∧ p.s = now ∧ p.t = f.t ∧
        p.aFrame = fa.toNat ∧ p.bFrame = fb.toNat ∧ p.ct = ct ∧ p.dead = false ∧
        t.tile.mq.act = some { s := now, fin := some (now + f.t - 1) } ∧ SameMemory s t ∧ ∀ r, t.rd r = s.rd r)

/-- R302, R304, R305, R307, R315 (Table 12-6): the pairs of matrix formats that run, by format code, unscaled and scaled, with
their K, their time T and their blocks; a flag that does not fit its format, a reserved code, a pair of two accumulator types
and a pair of different K are refused. -/
def Obligations.ProductTimes : Prop :=
  let plain : List (Nat × Nat × Nat × Nat) :=
    [(6, 6, 64, 64), (6, 7, 64, 64), (7, 6, 64, 64), (7, 7, 64, 64), (8, 8, 64, 64), (8, 9, 64, 64), (9, 8, 64, 64),
     (9, 9, 64, 64), (10, 10, 128, 128), (5, 5, 128, 128), (4, 4, 64, 256), (11, 11, 32, 128), (12, 12, 32, 298),
     (11, 12, 32, 298), (12, 11, 32, 298)]
  let scaled : List (Nat × Nat × Nat × Nat) :=
    [(6, 6, 64, 64), (6, 7, 64, 64), (7, 7, 64, 64), (8, 8, 64, 64), (8, 9, 64, 64), (9, 9, 64, 64), (3, 3, 128, 128),
     (3, 10, 128, 128), (10, 3, 128, 128), (10, 10, 128, 128), (2, 2, 64, 149), (2, 8, 64, 149), (2, 9, 64, 149),
     (1, 1, 64, 256), (1, 6, 64, 256), (1, 7, 64, 256)]
  let fits := fun (c : Nat) (x : Bool) => (c ∈ [1, 2, 3] ∧ x = true) ∨ (c ∈ [4, 5, 11, 12] ∧ x = false) ∨ c ∈ [6, 7, 8, 9, 10]
  let k := fun (c : Nat) => if c ∈ [3, 5, 10] then 128 else if c ∈ [11, 12] then 32 else 64
  ∀ w : W64,
    let a := bits w 3 0
    let b := bits w 7 4
    let x := w.getLsbD 8
    let y := w.getLsbD 9
    (∀ p ∈ plain, a = p.1 → b = p.2.1 → x = false → y = false →
      ∃ f, prodFmt w = .ok f ∧ f.k = p.2.2.1 ∧ f.t = p.2.2.2 ∧ f.blk = 16 ∧ f.nb = f.k / 16) ∧
    (∀ p ∈ scaled, a = p.1 → b = p.2.1 → x = true → y = true →
      ∃ f, prodFmt w = .ok f ∧ f.k = p.2.2.1 ∧ f.t = p.2.2.2 ∧ f.blk = 32 ∧ f.nb = f.k / 32) ∧
    (¬ fits a x ∨ ¬ fits b y → prodFmt w = .error 1) ∧
    (fits a x → fits b y → ((a = 4 ∨ a = 5) ↔ ¬ (b = 4 ∨ b = 5)) → prodFmt w = .error 2) ∧
    (fits a x → fits b y → ((a = 4 ∨ a = 5) ↔ (b = 4 ∨ b = 5)) → k a ≠ k b → prodFmt w = .error 3)

/-- R274 to R276, R305, R313, R317: an element after a product is the accumulator taken through the product's blocks in ascending K: of an
integer product the sum of the products of its row and column modulo 2^48, with IOV exactly when a block takes the sum out of 48 bits;
of a float product each block one rounding of the accumulator plus the exact scaled sum, with code 127 where an operand is not scaled; a
zero sum −0 only where every term is −0, or terms of both signs meet under RDN; a NaN or an invalid operation giving the quiet NaN, with
NV exactly where an element under a scale other than 255 or C signals, infinity meets zero, or infinities of both signs meet. R306,
R316, R317, R325, R326: on the cycle s + T + i the matrix engine writes row i of a product's accumulator tile, 384 bytes at its place in
the accumulator storage, with the flags of its elements; MZERO writes zeros there on its cycle s + i; MWB reads row i there and on the
next cycle writes its 64 converted elements to the scratchpad; no other byte of any memory changes. Whatever else is in the engine, each
of these rows is written whole where no other falls on it, and no byte outside them. R327 to R329: a column that MSCL reads enters its
queue at the end of the cycle, a full queue is QUEUE_IMBALANCE; MPOP pops its ring's slab; MVWIN sets the window at the end of its
cycle. (MXDBG.SLABGUARD is off.) -/
def Obligations.MatrixResults : Prop :=
  (∀ (f : ProdFmt) (w : Nat) (colA colB : List (List Byte)) (a b : List Nat) (i n c : Nat), f.ints = true →
    (∃ u v, f.fa = .int w u v) → (∃ u v, f.fb = .int w u v) → f.k ∈ [64, 128] → f.blk = 16 → a.length = f.k → b.length = f.k →
    let lim : Int := 2 ^ 47
    let prod := fun (m : Nat) => sext w (a.getD m 0) * sext w (b.getD m 0)
    let sum := fun (m : Nat) => ((List.range m).map prod).sum
    let acc := fun (k : Nat) => sext 48 ((sext 48 c + sum (16 * k)) % 2 ^ 48).toNat
    let r := f.cell colA colB a b i n c
    (r.pat : Int) = (sext 48 c + sum f.k) % 2 ^ 48 ∧
      (r.fl = 0 ∨ r.fl = 0x40) ∧ (r.fl = 0 ↔ ∀ k, k < f.k / 16 →
        -lim ≤ acc k + (sum (16 * k + 16) - sum (16 * k)) ∧ acc k + (sum (16 * k + 16) - sum (16 * k)) < lim)) ∧
  (∀ (f : ProdFmt) (colA colB : List (List Byte)) (a b : List Nat) (i n c : Nat), f.ints = false → 0 < f.blk →
    f.k = f.nb * f.blk → a.length = f.k → b.length = f.k →
    let code := fun (on : Bool) (cols : List (List Byte)) (k r : Nat) => if on then ((cols.getD k []).getD r 0).toNat else 127
    ∃ acc : Nat → FRes, acc 0 = { pat := c, fl := 0 } ∧ f.cell colA colB a b i n c = acc f.nb ∧ ∀ k, k < f.nb →
      let u := blockF48 ((List.range f.blk).map fun m =>
          (widen f.fa (a.getD (k * f.blk + m) 0), widen f.fb (b.getD (k * f.blk + m) 0)))
        (code f.amx colA k i) (code f.bmx colB k n) (acc k).pat f.mode
      acc (k + 1) = { pat := u.pat, fl := (acc k).fl ||| u.fl }) ∧
  (∀ (ps : List (Val × Val)) (ea eb c : Nat) (md : Rnd),
    let r := blockF48 ps ea eb c md
    let cv := widen Fmt.f48 c
    let finite := fun (v : Val) => v.isNan = false ∧ v ≠ .inf true ∧ v ≠ .inf false
    let signed : Int → Val → Int → Int := fun q v e => match v with
      | .fin n m x => (if n then -1 else 1) * ((m * 2 ^ (x + e - q).toNat : Nat) : Int)
      | _ => 0
    let product : Int → Val × Val → Int := fun q p => match p.1.mul p.2 with
      | .val v => signed q v ((ea : Int) - 127 + ((eb : Int) - 127))
      | .invalid => 0
    (ea ≠ 255 → eb ≠ 255 → finite cv → (∀ p ∈ ps, finite p.1 ∧ finite p.2) → ∃ q : Int,
      (∀ n m x, cv = .fin n m x → q ≤ x) ∧
      (∀ p ∈ ps, ∀ n m x, p.1.mul p.2 = .val (.fin n m x) → q ≤ x + ((ea : Int) - 127 + ((eb : Int) - 127))) ∧
      let total : Int := signed q cv 0 + (ps.map (product q)).sum
      (total ≠ 0 → r = round (.fin (decide (total < 0)) total.natAbs q) Fmt.f48 md) ∧
      (total = 0 → r.fl = 0 ∧
        let minus := fun (v : Val) => match v with
          | .fin n _ _ => n = true
          | _ => False
        let term := fun (n : Bool) => (minus cv ↔ n = true) ∨ ∃ p ∈ ps, ∃ v, p.1.mul p.2 = .val v ∧ (minus v ↔ n = true)
        ((¬ term false ∨ (term true ∧ md = .rdn)) → r.pat = 2 ^ 47) ∧ (term false → term true → md ≠ .rdn → r.pat = 0) ∧
        (¬ term true → r.pat = 0))) ∧
    (let scaled := ea ≠ 255 ∧ eb ≠ 255
      let inf0 := scaled ∧ ∃ p ∈ ps, ∃ (u v : Bool) (e : Int), p = (.inf u, .fin v 0 e) ∨ p = (.fin v 0 e, .inf u)
      let inf := fun (n : Bool) => cv = .inf n ∨ (scaled ∧ ∃ p ∈ ps, p.1.mul p.2 = .val (.inf n))
      (¬ scaled ∨ cv.isNan = true ∨ (∃ p ∈ ps, p.1.isNan = true ∨ p.2.isNan = true) ∨ inf0 ∨ (inf true ∧ inf false) →
        r.pat = Fmt.f48.qnan ∧ (r.fl = 0 ∨ r.fl = flNV) ∧
        (r.fl = flNV ↔ (ea ≠ 255 ∧ ∃ p ∈ ps, p.1.isSig = true) ∨ (eb ≠ 255 ∧ ∃ p ∈ ps, p.2.isSig = true) ∨ cv.isSig = true ∨ inf0 ∨
          (inf true ∧ inf false)))) ∧
    (∀ neg : Bool, ea ≠ 255 → eb ≠ 255 → cv.isNan = false → (∀ p ∈ ps, p.1.isNan = false ∧ p.2.isNan = false ∧
        p.1.mul p.2 ≠ .invalid ∧ p.1.mul p.2 ≠ .val (.inf (!neg))) → cv ≠ .inf (!neg) →
      (cv = .inf neg ∨ ∃ p ∈ ps, p.1.mul p.2 = .val (.inf neg)) → r = { pat := Fmt.f48.infPat neg, fl := 0 })) ∧
  (∀ s : State, Mem.wf s.tile.st.pool.bytes = true → bit (s.ctl kMxdbg) 0 = false →
    let now := s.pad.rtick
    let row := fun (ct i : Nat) => s.pad.shape.spBytes + 24576 * ct + 384 * i
    let at' := MemSite.pool s.cur.pad s.cur.tile
    let num := fun (t : State) (a n : Nat) => leNat ((List.range n).map fun k => t.byteAt at' (a + k))
    let clean := s.tile.st.pool.errs = [] ∧ s.tile.st.pool.poison = []
    let wbElem := fun (r : RowRun) (bs : List Byte) (ty : VTy) (i e : Nat) =>
      let w := fun (n : Nat) => r.ws.getD n 0
      let acct := (w 2).getLsbD 16
      let x := leNat ((bs.drop (6 * e)).take 6)
      let ctr := s.cur.tile * 2 ^ 96 + r.tile * 2 ^ 64 + 8 * i + e / 8
      if (ty = .f48 ∧ acct = true) ∨ (ty = .i48 ∧ acct = false) then { pat := x, fl := 0 }
      else convert (if acct then Fmt.f48 else Fmt.sint 48) ty.fmt x
        (if bits (w 3) 59 57 = 4 then rsrOf (w 4) ctr (16 * (e % 8)) else rndOf (bits (w 3) 59 57))
    (let wbAt := fun (r : RowRun) => ((bits (r.ws.getD 3 0) 20 0 : Int) +
        (64 * (r.j : Int) * r.step + (now - r.s - 1 : Nat)) * 64 * bits (r.ws.getD 3 0) 43 32).toNat
      let dueP := fun (p : Product) => !p.dead && p.crow.isSome && decide (p.s + p.t ≤ now ∧ now ≤ p.s + p.t + 63)
      let dueZ := fun (r : RowRun) => !r.dead && !r.wb && decide (now ≤ r.s + 63)
      let dueW := fun (r : RowRun) => !r.dead && r.wb && r.row.isSome
      let rowP := fun (p : Product) => (row p.ct (now - p.s - p.t), 384)
      let rowZ := fun (r : RowRun) => (row r.tile (now - r.s), 384)
      let rowW := fun (r : RowRun) => (wbAt r, 64 * (((VTy.ofCode (bits (r.ws.getD 3 0) 63 60)).map VTy.bytes).getD 0))
      let m := s.tile.mx
      let all := (m.prods.filter dueP).map rowP ++ (m.rows.filter dueZ).map rowZ ++ (m.rows.filter dueW).map rowW
      let alone := fun (x : Nat × Nat) => ∀ y ∈ all.erase x, y.1 + y.2 ≤ x.1 ∨ x.1 + x.2 ≤ y.1
      (∀ p ∈ m.prods, p.s ≤ now ∧ 0 < p.t ∧ (prodFmt p.fmt).toOption.isSome = true ∧ p.brows.length = 64 ∧
        ∀ c, p.crow = some c → c.length = 384) →
      (∀ r ∈ m.rows, r.s ≤ now ∧ (∀ c, r.row = some c → c.length = 384) ∧ bits (r.ws.getD 3 0) 20 0 % 64 = 0) →
      ∃ t, exec .matrixRowRetire s = .next t ∧
        (∀ z b, z ≠ at' ∨ (∀ x ∈ all, b < x.1 ∨ x.1 + x.2 ≤ b) → t.byteAt z b = s.byteAt z b) ∧
        (∀ k, k ≠ 0x18 → t.ctl k = s.ctl k) ∧
        (∀ p ∈ m.prods, dueP p = true → alone (rowP p) → ∀ f c, prodFmt p.fmt = .ok f → p.crow = some c → ∀ n, n < 64 →
          let i := now - p.s - p.t
          num t (row p.ct i + 6 * n) 6 = (f.cell p.colA p.colB (unpackRow f.fa.width f.k (p.arows.getD i []))
            (unpackRow f.fb.width f.k (p.brows.getD n [])) i n (leNat ((c.drop (6 * n)).take 6))).pat % 2 ^ 48) ∧
        (∀ r ∈ m.rows, dueZ r = true → alone (rowZ r) → ∀ k, k < 384 → t.byteAt at' (row r.tile (now - r.s) + k) = 0) ∧
        (∀ r ∈ m.rows, dueW r = true → alone (rowW r) → ∀ bs ty, r.row = some bs → VTy.ofCode (bits (r.ws.getD 3 0) 63 60) = some ty →
          ∀ e, e < 64 → num t (wbAt r + ty.bytes * e) ty.bytes =
            (wbElem r bs ty (now - r.s - 1) e).pat % 2 ^ (8 * ty.bytes))) ∧
    (∀ (p : Product) (f : ProdFmt) (crow : List Byte) (i : Nat), s.tile.mx.prods = [p] → s.tile.mx.rows = [] → p.dead = false →
      prodFmt p.fmt = .ok f → p.crow = some crow → i < 64 → now = p.s + p.t + i → p.brows.length = 64 → crow.length = 384 →
      ∃ t, exec .matrixRowRetire s = .next t ∧ SameMemoryBut s t (row p.ct i) 384 ∧
        t.tile.ctl = (s.tile.orFlags (p.newRow f i crow).2).ctl ∧
        ∀ n, n < 64 →
          let old := leNat ((crow.drop (6 * n)).take 6)
          num t (row p.ct i + 6 * n) 6 = (f.cell p.colA p.colB (unpackRow f.fa.width f.k (p.arows.getD i []))
            (unpackRow f.fb.width f.k (p.brows.getD n [])) i n old).pat % 2 ^ 48) ∧
    (∀ (r : RowRun) (i : Nat), s.tile.mx.prods = [] → s.tile.mx.rows = [r] → r.wb = false → r.dead = false → i < 64 →
      now = r.s + i → ∃ t, exec .matrixRowRetire s = .next t ∧ SameMemoryBut s t (row r.tile i) 384 ∧
        ∀ k, k < 384 → t.byteAt at' (row r.tile i + k) = 0) ∧
    (∀ (r : RowRun) (i : Nat), clean → s.tile.mx.prods = [] → s.tile.mx.rows = [r] → s.tile.mx.loadA = none →
      s.tile.mx.loadB = none → r.wb = true → r.dead = false → i < 64 → now = r.s + i →
      let t := s.matrixReads
      SameMemory s t ∧ t.tile.mx.rows = [{ r with row := some ((List.range 384).map fun k => s.byteAt at' (row r.tile i + k)) }]) ∧
    (∀ (r : RowRun) (i : Nat) (bs : List Byte) (ty : VTy), s.tile.mx.prods = [] → s.tile.mx.rows = [r] → r.wb = true →
      r.dead = false → r.row = some bs → bs.length = 384 → i < 64 → now = r.s + i + 1 →
      let w := fun (n : Nat) => r.ws.getD n 0
      let a : Int := (bits (w 3) 20 0 : Int) + (64 * (r.j : Int) * r.step + i) * 64 * bits (w 3) 43 32
      VTy.ofCode (bits (w 3) 63 60) = some ty → bits (w 3) 20 0 % 64 = 0 → 0 ≤ a →
      let elem := wbElem r bs ty i
      ∃ t, exec .matrixRowRetire s = .next t ∧ SameMemoryBut s t a.toNat (64 * ty.bytes) ∧
        t.tile.ctl = (s.tile.orFlags ((List.range 64).foldl (fun f e => f ||| (elem e).fl) 0)).ctl ∧
        ∀ e, e < 64 → num t (a.toNat + ty.bytes * e) ty.bytes = (elem e).pat % 2 ^ (8 * ty.bytes)) ∧
    (∀ (l : Loader) (o : Nat → Nat), clean → s.tile.mx.loadA = some l → s.tile.mx.loadB = none → l.s < now →
      (∀ i, i < 64 → s.pad.shape.target s.cur.tile ((walkOf l.walk).addr (64 * l.entered + i) l.off) = .own (o i)) →
      let t := s.loaderCycle false
      (s.tile.mx.scaleA.length < 64 → t.tile.mx.loadA =
          some { l with got := some ((List.range 64).map fun i => s.byteAt at' (o i)) } ∧ t.tile.core = s.tile.core) ∧
      (64 ≤ s.tile.mx.scaleA.length → t.tile.mx.loadA = none ∧ ∃ f, t.tile.core.conds = s.tile.core.conds ++ [f] ∧
        f.cause = .queueImbalance)) ∧
    (∀ (l : Loader) (col : List Byte), s.tile.mx.prods = [] → s.tile.mx.loadA = some l → l.got = some col →
      s.tile.mx.loadB = none →
      let t := s.matrixEnd
      t.tile.mx.scaleA = s.tile.mx.scaleA ++ [col] ∧ t.tile.mx.scaleB = s.tile.mx.scaleB ∧ t.tile.mx.loadA =
        if l.entered + 1 < l.cols then some { l with entered := l.entered + 1, got := none } else none) ∧
    (∀ (e : Entry) (x : En), e.instr = .mpop x → let t := s.matrixGo e
      t.tile.dr = { s.tile.dr with heads := s.tile.dr.heads ++ [x.idx.toNat % 8] } ∧
        t.tile.mq.act = some { s := now, fin := some now } ∧ SameMemory s t) ∧
    (∀ (d : Drover) (k : Nat), d.heads = [k] → d.tails = [] → k < 8 →
      let g := d.turnRings
      g.heads = [] ∧ bits (Regs.rd g.rg (4 * k + 1)) 63 32 = (bits (Regs.rd d.rg (4 * k + 1)) 63 32 + 1) % 2 ^ 32 ∧
        bits (Regs.rd g.rg (4 * k + 1)) 31 0 = bits (Regs.rd d.rg (4 * k + 1)) 31 0 ∧
        (Regs.rd g.rg (4 * k + 2)).toNat = (bits (Regs.rd d.rg (4 * k + 2)) 15 0 + 1) % 65536) ∧
    (∀ (e : Entry) (es : List Entry) (z : Active) (x : En), s.tile.mq.entries = e :: es → s.tile.mq.act = some z →
      e.instr = .mvwin x → s.tile.mx.prods = [] → (s.matrixEnd).tile.vec = { s.tile.vec with vwin := x.idx.toNat }))

/-- R335, R339, R340, R343: an integer vector instruction on its start cycle reads its source rows and puts in flight one write of
its destination row, D cycles on, whose lanes are the wrapped sum, difference or product, the unsigned lesser or greater, or the
shift of the source lanes; VAND, VOR and VXOR act on every bit; the flags stay clear and no byte changes yet. -/
def Obligations.VectorIntegerRows : Prop :=
  ∀ (s : State) (e : Entry) (o : Vr), o.ty.isInt = true → Mem.wf s.tile.st.pool.bytes = true → s.tile.st.pool.poison = [] →
    s.tile.st.pool.errs = [] →
    let n := o.ty.bytes
    let w := 8 * n
    let row := fun (v : BitVec 6) => s.pad.shape.spBytes + 24576 * s.tile.vec.vwin + 384 * v.toNat
    let at' := MemSite.pool s.cur.pad s.cur.tile
    let lane := fun (v : BitVec 6) (k : Nat) => leNat ((List.range n).map fun i => s.byteAt at' (row v + n * k + i))
    let puts := fun (i : Instr) (d : Nat) (good : List Byte → Prop) =>
      ∃ (x : VWrite) (bs : List Byte), s.vrRun { e with instr := i } = s.modTile (fun t =>
          { t with vec := { t.vec with pend := t.vec.pend ++ [x] } }) ∧ x.due = s.pad.rtick + d ∧ x.serial = e.serial ∧
        x.flags = 0 ∧ x.items = [(row o.vd, bs)] ∧ bs.length = 384 ∧ good bs
    let lanes := fun (i : Instr) (d : Nat) (f : Nat → Nat → Nat) => puts i d fun bs =>
      ∀ k, k < 384 / n → leNat ((bs.drop (n * k)).take n) = f (lane o.va k) (lane o.vb k)
    let bytes := fun (i : Instr) (f : Byte → Byte → Byte) => puts i 1 fun bs =>
      ∀ k, k < 384 → bs.getD k 0 = f (s.byteAt at' (row o.va + k)) (s.byteAt at' (row o.vb + k))
    (o.md = 0 → lanes (.vadd o) 1 (fun x y => (x + y) % 2 ^ w) ∧ lanes (.vsub o) 1 (fun x y => (x + 2 ^ w - y) % 2 ^ w) ∧
      lanes (.vmul o) 2 (fun x y => x * y % 2 ^ w)) ∧
    (o.md = 1 → lanes (.vmin o) 1 min ∧ lanes (.vmax o) 1 max) ∧
    lanes (.vshl o) 1 (fun x y => if y < w then x * 2 ^ y % 2 ^ w else 0) ∧
    lanes (.vshr o) 1 (fun x y => if y < w then x / 2 ^ y else 0) ∧
    bytes (.vand o.vd o.va o.vb) (· &&& ·) ∧ bytes (.vor o.vd o.va o.vb) (· ||| ·) ∧ bytes (.vxor o.vd o.va o.vb) (· ^^^ ·)

/-- R339 to R341, R346 to R348 (Table 13-3): the other lane-wise vector instructions. On its start cycle each reads its source rows and
puts in flight one write of its destination row, D + B − 1 cycles on, with the flags of all its lanes: float sums, differences,
products, fused products, minima, maxima and comparisons are those of the scalar instruction in the lane's format, the approximations
are those of FRCPA, FRSQA and of the tables of R347 and R348; integer forms with fn[7:4] = 1 saturate; signed minima and maxima,
magnitudes, negations, arithmetic shifts, comparisons and selections are as their rules say. No byte changes yet. -/
def Obligations.VectorLaneResults : Prop :=
  ∀ (s : State) (e : Entry) (o : Vr), Mem.wf s.tile.st.pool.bytes = true → s.tile.st.pool.poison = [] →
    s.tile.st.pool.errs = [] →
    let n := o.ty.bytes
    let w := 8 * n
    let f := o.ty.fmt
    let m := rndOf o.md.toNat
    let row := fun (v : BitVec 6) => s.pad.shape.spBytes + 24576 * s.tile.vec.vwin + 384 * v.toNat
    let at' := MemSite.pool s.cur.pad s.cur.tile
    let lane := fun (v : BitVec 6) (k : Nat) => leNat ((List.range n).map fun i => s.byteAt at' (row v + n * k + i))
    let lanes := fun (i : Instr) (d : Nat) (g : Nat → FRes) =>
      ∃ (x : VWrite) (bs : List Byte), s.vrRun { e with instr := i } = s.modTile (fun t =>
          { t with vec := { t.vec with pend := t.vec.pend ++ [x] } }) ∧ x.due = s.pad.rtick + d ∧ x.serial = e.serial ∧ x.j = e.j ∧
        x.sig = none ∧ x.items = [(row o.vd, bs)] ∧ bs.length = 384 ∧
        (∀ k, k < 384 / n → leNat ((bs.drop (n * k)).take n) = (g k).pat % 2 ^ w) ∧
        x.flags = (List.range (384 / n)).foldl (fun fl k => fl ||| (g k).fl) 0
    let ab := fun (g : Nat → Nat → FRes) (k : Nat) => g (lane o.va k) (lane o.vb k)
    let abd := fun (g : Nat → Nat → Nat → FRes) (k : Nat) => g (lane o.va k) (lane o.vb k) (lane o.vd k)
    let a1 := fun (g : Nat → FRes) (k : Nat) => g (lane o.va k)
    let pat := fun (p : Nat) => ({ pat := p, fl := 0 } : FRes)
    let si := fun (p : Nat) => (BitVec.ofNat w p).toInt
    let int := fun (v : Int) => pat (BitVec.ofInt w v).toNat
    let clamp := fun (v : Int) => int (max (-2 ^ (w - 1)) (min (2 ^ (w - 1) - 1) v))
    let ones := fun (c : Bool) (fl : BitVec 7) => ({ pat := if c then 2 ^ w - 1 else 0, fl := fl } : FRes)
    let wide := if o.ty = .f48 then 1 else 0
    (o.ty.isInt = false →
      lanes (.vadd o) 3 (ab (fAdd f m)) ∧ lanes (.vsub o) 3 (ab (fSub f m)) ∧ lanes (.vmul o) (3 + wide) (ab (fMul f m)) ∧
      lanes (.vfma o) (4 + wide) (abd (fFma f m)) ∧ lanes (.vmin o) 3 (ab (fPick f false)) ∧
      lanes (.vmax o) 3 (ab (fPick f true)) ∧ lanes (.vabs o) 1 (a1 fun x => pat (x % 2 ^ (w - 1))) ∧
      lanes (.vneg o) 1 (a1 fun x => pat (x ^^^ 2 ^ (w - 1))) ∧
      (∀ c, FpCond.ofCode o.md.toNat = some c → lanes (.vcmp o) 3 (ab fun x y => ones (fCond f c x y).1 (fCond f c x y).2)) ∧
      lanes (.vrcpa o) 5 (a1 (fRcpa f)) ∧ lanes (.vrsqa o) 5 (a1 (fRsqa f)) ∧
      (o.ty = .f32 → lanes (.vexp2a o.vd o.va) 5 (a1 fExp2a) ∧ lanes (.vlog2a o.vd o.va) 5 (a1 fLog2a))) ∧
    (o.ty.isInt = true →
      (o.md = 0 → lanes (.vfma o) 2 (abd fun x y z => int (si x * si y + si z)) ∧
        lanes (.vmin o) 1 (ab fun x y => pat (if si y < si x then y else x)) ∧
        lanes (.vmax o) 1 (ab fun x y => pat (if si x < si y then y else x)) ∧
        lanes (.vabs o) 1 (a1 fun x => int (si x).natAbs) ∧ lanes (.vneg o) 1 (a1 fun x => int (-si x))) ∧
      (o.md = 1 → lanes (.vadd o) 1 (ab fun x y => clamp (si x + si y)) ∧
        lanes (.vsub o) 1 (ab fun x y => clamp (si x - si y)) ∧ lanes (.vmul o) 2 (ab fun x y => clamp (si x * si y)) ∧
        lanes (.vfma o) 2 (abd fun x y z => clamp (si x * si y + si z)) ∧
        lanes (.vabs o) 1 (a1 fun x => clamp (si x).natAbs) ∧ lanes (.vneg o) 1 (a1 fun x => clamp (-si x))) ∧
      lanes (.vsar o) 1 (ab fun x y => pat ((BitVec.ofNat w x).sshiftRight y).toNat) ∧
      (∀ c : IntCond, IntCond.ofCode o.md.toNat = some c → lanes (.vcmp o) 1 (ab fun x y =>
        let p := BitVec.ofNat w x
        let q := BitVec.ofNat w y
        ones (match c with
          | .eq => p == q | .ne => p != q | .lt => p.slt q | .le => p.sle q | .ltn => p.ult q | .len => p.ule q) 0))) ∧
    lanes (.vsel o) 1 (abd fun x y z => pat (if z ≠ 0 then x else y))

/-- R238, R342 to R345, R349, R350, R352, R353, R355 to R358: the vector instructions that move, convert and reduce whole rows. VLD and
VST move a row between the window and the own pool, or raise MISALIGN or PROTECTION; VBCAST, VMOVS and VPERM place lanes; VCVT converts
the lanes of one part; VRNG writes 24 Philox blocks; VREDADD and VREDMAX combine the lanes in the tree of R350; VTINT interpolates each
lane in its table, whose invalid header is PROTECTION. An element of a chain goes from its streams through the operations, in order, to
its destination (CTINT interpolates in the table at TSEL); each operation of Table 13-8 is the vector instruction of its name on one lane
of the compute type; and a group's elements are in flight for 2 plus the operations' depths. -/
def Obligations.VectorMovesAndChains : Prop :=
  ∀ (s : State) (e : Entry), Mem.wf s.tile.st.pool.bytes = true → s.tile.st.pool.poison = [] → s.tile.st.pool.errs = [] →
    let now := s.pad.rtick
    let row := fun (v : BitVec 6) => s.pad.shape.spBytes + 24576 * s.tile.vec.vwin + 384 * v.toNat
    let at' := MemSite.pool s.cur.pad s.cur.tile
    let num := fun (a n : Nat) => leNat ((List.range n).map fun i => s.byteAt at' (a + i))
    let lane := fun (t : VTy) (v : BitVec 6) (k : Nat) => num (row v + t.bytes * k) t.bytes
    let puts := fun (i : Instr) (d addr : Nat) (good : List Byte → BitVec 7 → Prop) =>
      ∃ (x : VWrite) (bs : List Byte), s.vrRun { e with instr := i } = s.modTile (fun t =>
          { t with vec := { t.vec with pend := t.vec.pend ++ [x] } }) ∧ x.due = now + d ∧ x.serial = e.serial ∧ x.j = e.j ∧
        x.sig = none ∧ x.items = [(addr, bs)] ∧ bs.length = 384 ∧ good bs x.flags
    let lanes := fun (i : Instr) (t : VTy) (d : Nat) (vd : BitVec 6) (g : Nat → FRes) => puts i d (row vd) fun bs fl =>
      (∀ k, k < t.lanes → leNat ((bs.drop (t.bytes * k)).take t.bytes) = (g k).pat % 2 ^ (8 * t.bytes)) ∧
        fl = (List.range t.lanes).foldl (fun fl k => fl ||| (g k).fl) 0
    let pat := fun (p : Nat) => ({ pat := p, fl := 0 } : FRes)
    let fails := fun (i : Instr) (f : FaultInfo → Prop) => ∃ x, s.vrRun { e with instr := i } = (s.modQueue .v Queue.drop).cond x ∧ f x
    let word := fun (a : Nat) => Mem.rd64 s.tile.st.tmem.bytes a
    let tint := fun (toff : Nat) (f : Fmt) (md x : Nat) => match (tabHead (word toff)).pick f x with
      | .done r => r
      | .pair i num den flip => tabResult f md (word (toff + 8 + 8 * i)) num den flip
    (∀ (v : BitVec 6) (a : Reg) (k : BitVec 6),
      let ea := (e.x + BitVec.ofInt 64 (384 * k.toInt)).toNat
      (∀ off, ea % 64 = 0 → s.pad.shape.target s.cur.tile ea = .own off → off + 384 ≤ s.pad.shape.penBase →
        puts (.vld v a k) 1 (row v) (fun bs fl => fl = 0 ∧ ∀ i, i < 384 → bs.getD i 0 = s.byteAt at' (off + i)) ∧
        puts (.vst v a k) 1 ea (fun bs fl => fl = 0 ∧ ∀ i, i < 384 → bs.getD i 0 = s.byteAt at' (row v + i))) ∧
      (ea % 64 ≠ 0 → ∀ i ∈ [Instr.vld v a k, .vst v a k], fails i fun x => x.cause = .misalign ∧ x.t3 = BitVec.ofNat 64 ea) ∧
      (ea % 64 = 0 → (∀ off, s.pad.shape.target s.cur.tile ea = .own off → s.pad.shape.penBase < off + 384) →
        ∀ i ∈ [Instr.vld v a k, .vst v a k], fails i fun x => x.cause = .protection ∧ x.t3 = BitVec.ofNat 64 ea)) ∧
    (∀ (t : VTy) (v vb : BitVec 6) (a : Reg) (hi : BitVec 4), vb.toNat + 64 * hi.toNat < t.lanes →
      lanes (.vbcast t v a) t 1 v (fun _ => pat e.x.toNat) ∧
      lanes (.vmovs t v a vb hi) t 1 v (fun k => pat (if k = vb.toNat + 64 * hi.toNat then e.x.toNat else lane t v k))) ∧
    (∀ o : Vr, lanes (.vperm o) o.ty 2 o.vd (fun k => pat (lane o.ty o.va (lane o.ty o.vb k % o.ty.lanes)))) ∧
    (∀ (td ts : VTy) (md p : BitVec 3) (vd va : BitVec 6),
      let mode := fun (i : Nat) => if md = 4 then
          rsrOf (s.ctl 0x58) ((0x40000000 + s.cur.tile) * 2 ^ 96 + s.tile.vec.rsr.toNat * 2 ^ 32 + i / 8) (16 * (i % 8))
        else rndOf md.toNat
      let cvt := fun (i k : Nat) => convert ts.fmt td.fmt (lane ts va k) (mode i)
      let q := p.toNat
      (td.lanes ≤ ts.lanes → lanes (.vcvt td ts md p vd va) td 3 vd fun i =>
        if q * td.lanes + i < ts.lanes then cvt i (q * td.lanes + i) else pat 0) ∧
      (ts.lanes < td.lanes → lanes (.vcvt td ts md p vd va) td 3 vd fun i =>
        if q * ts.lanes ≤ i ∧ i < q * ts.lanes + ts.lanes then cvt i (i - q * ts.lanes) else pat (lane td vd i))) ∧
    (∀ (vd : BitVec 6) (a b : Reg), puts (.vrng vd a b) 5 (row vd) fun bs fl => fl = 0 ∧ ∀ g, g < 24 →
      (bs.drop (16 * g)).take 16 = natLE 16 (philox e.x ((0x80000000 + s.cur.tile) * 2 ^ 96 + 32 * e.y.toNat + g))) ∧
    (∀ (o : Vr) (big : Bool),
      let op := fun (x y : Nat) => (if big then LaneFn.max else LaneFn.add).apply o.ty o.md.toNat x y 0
      ∃ (len : Nat → Nat) (v : Nat → Nat → Nat), len 0 = o.ty.lanes ∧ (∀ k, k < o.ty.lanes → v 0 k = lane o.ty o.va k) ∧
        (∀ r, r < 9 → len (r + 1) = (len r + 1) / 2 ∧ ∀ k, k < len (r + 1) →
          v (r + 1) k = if 2 * k + 1 < len r then (op (v r (2 * k)) (v r (2 * k + 1))).pat else v r (2 * k)) ∧
        puts (if big then .vredmax o else .vredadd o) 8 (row o.vd) fun bs fl =>
          leNat (bs.take o.ty.bytes) = v 9 0 % 2 ^ (8 * o.ty.bytes) ∧ (∀ i, o.ty.bytes ≤ i → i < 384 → bs.getD i 0 = 0) ∧
          ∀ i, fl.getLsbD i = true ↔ ∃ r k, r < 9 ∧ 2 * k + 1 < len r ∧
            (op (v r (2 * k)) (v r (2 * k + 1))).fl.getLsbD i = true) ∧
    (∀ o : Vr, s.tile.st.tmem.errs = [] → s.tile.st.tmem.poison = [] →
      let toff := 256 * o.vb.toNat
      (tabValid (word toff) toff = true → lanes (.vtint o) o.ty 5 o.vd fun k => tint toff o.ty.fmt o.md.toNat (lane o.ty o.va k)) ∧
      (tabValid (word toff) toff = false → fails (.vtint o) fun x => x.cause = .protection ∧ x.t3 = fld 0xC0 56 ||| 8)) ∧
    (∀ (c : Chain) (i : Nat) (oa ob : Nat),
      let t := cType e.ws
      let ops := cOps e.ws
      let addr := fun (it : List W64) (fr : Option Nat) => (chainWalk it fr).addr i (chainShift e it)
      let size := fun (it : List W64) => 2 ^ (walkOf it).es
      let ty := fun (it : List W64) => (VTy.ofCode (itType it)).getD .i8
      let xa := convert (ty (chA e)).fmt t.fmt (num oa (size (chA e))) .rne
      let xb := if cBen e.ws then convert (ty (chB e)).fmt t.fmt (num ob (size (chB e))) .rne else pat 0
      let sel := fun (prev k : Nat) => match k with
        | 0 => xa.pat | 1 => xb.pat | 2 => prev
        | 7 => if ops.any (fun o => o.x == 7 || (o.usesY && o.y == 7) || (o.usesZ && o.z == 7)) then
            num (s.pad.shape.accRow c.win (cAccrow e.ws) + t.bytes * (i % t.lanes)) t.bytes else 0
        | k => (cConst e.ws (k - 3)).toNat % 2 ^ t.fmt.width
      let out := ops.foldl (fun (r : FRes) o =>
        let v := if o.opc = 0x15 then tint (256 * o.tsel) t.fmt o.mode (sel r.pat o.x)
          else o.apply t (sel r.pat o.x) (sel r.pat o.y) (sel r.pat o.z)
        { pat := v.pat, fl := r.fl ||| v.fl }) (pat 0)
      let ctr := (0x20000000 + s.cur.tile) * 2 ^ 96 + e.serial.toNat * 2 ^ 64 + e.j * 2 ^ 32 + i / 8
      let d := convert t.fmt (ty (chD e)).fmt out.pat
        (if cDmode e.ws = 4 then rsrOf (cWord e.ws 15) ctr (16 * (i % 8)) else rndOf (cDmode e.ws))
      s.chainCheck (addr (chA e) c.frameA) (size (chA e)) false = .ok (.own oa) →
      (cBen e.ws = true → s.chainCheck (addr (chB e) c.frameB) (size (chB e)) false = .ok (.own ob)) →
      (∃ g, s.chainCheck (addr (chD e) none) (size (chD e)) true = .ok g) →
      ((∃ o ∈ ops, o.opc = 0x15) → s.tile.st.tmem.errs = [] ∧ s.tile.st.tmem.poison = []) →
      ∃ u, s.chainElem e c i = (u, .ok (addr (chD e) none, natLE (size (chD e)) d.pat, xa.fl ||| xb.fl ||| out.fl ||| d.fl)) ∧
        SameMemory s u) ∧
    (∀ (o : COp) (t : VTy) (x y z : Nat), x < 2 ^ t.fmt.width → y < 2 ^ t.fmt.width →
      let w := t.fmt.width
      let f := t.fmt
      let si := fun (p : Nat) => (BitVec.ofNat w p).toInt
      let int := fun (v : Int) => pat (BitVec.ofInt w v).toNat
      let clamp := fun (v : Int) => int (max (-2 ^ (w - 1)) (min (2 ^ (w - 1) - 1) v))
      (o.opc = 0 → o.apply t x y z = pat x) ∧ (o.opc = 1 → o.apply t x y z = LaneFn.add.apply t o.mode x y z) ∧
      (o.opc = 2 → o.apply t x y z = LaneFn.sub.apply t o.mode x y z) ∧
      (o.opc = 3 → o.apply t x y z = LaneFn.mul.apply t o.mode x y z) ∧
      (o.opc = 4 → o.apply t x y z = LaneFn.fma.apply t o.mode x y z) ∧
      (t.isInt = false → (o.opc = 5 → o.apply t x y z = fPick f false x y) ∧ (o.opc = 6 → o.apply t x y z = fPick f true x y) ∧
        (o.opc = 7 → o.apply t x y z = pat (x % 2 ^ (w - 1))) ∧ (o.opc = 8 → o.apply t x y z = pat (x ^^^ 2 ^ (w - 1))) ∧
        (o.opc = 0x10 → ∀ c, FpCond.ofCode o.cond = some c → o.apply t x y z =
          { pat := if (fCond f c x y).1 then (round (.fin false 1 0) f .rne).pat else 0, fl := (fCond f c x y).2 }) ∧
        (o.opc = 0x11 → o.apply t x y z = fRcpa f x) ∧ (o.opc = 0x12 → o.apply t x y z = fRsqa f x) ∧
        (o.opc = 0x13 → o.apply t x y z = fExp2a x) ∧ (o.opc = 0x14 → o.apply t x y z = fLog2a x)) ∧
      (t.isInt = true →
        (o.mode = 0 → (o.opc = 5 → o.apply t x y z = pat (if si y < si x then y else x)) ∧
          (o.opc = 6 → o.apply t x y z = pat (if si x < si y then y else x)) ∧
          (o.opc = 7 → o.apply t x y z = int (si x).natAbs) ∧ (o.opc = 8 → o.apply t x y z = int (-si x))) ∧
        (o.mode = 1 → (o.opc = 5 → o.apply t x y z = pat (min x y)) ∧ (o.opc = 6 → o.apply t x y z = pat (max x y)) ∧
          (o.opc = 7 → o.apply t x y z = clamp (si x).natAbs) ∧ (o.opc = 8 → o.apply t x y z = clamp (-si x))) ∧
        (o.opc = 9 → o.apply t x y z = pat (x &&& y)) ∧ (o.opc = 0xA → o.apply t x y z = pat (x ||| y)) ∧
        (o.opc = 0xB → o.apply t x y z = pat (x ^^^ y)) ∧
        (o.opc = 0xC → o.apply t x y z = pat (if y < w then x * 2 ^ y % 2 ^ w else 0)) ∧
        (o.opc = 0xD → o.apply t x y z = pat (if y < w then x / 2 ^ y else 0)) ∧
        (o.opc = 0xE → o.apply t x y z = pat ((BitVec.ofNat w x).sshiftRight y).toNat)) ∧
      (o.opc = 0x0F → ((∃ n q, widen f x = .fin n 0 q) → o.apply t x y z = pat z) ∧
        ((∀ n q, widen f x ≠ .fin n 0 q) → o.apply t x y z = pat y)) ∧
      (o.opc = 0x10 → t.isInt = true → ∀ c, IntCond.ofCode o.cond = some c → o.apply t x y z =
        pat (if c.holds (BitVec.ofNat t.fmt.width x) (BitVec.ofNat t.fmt.width y) then (round (.fin false 1 0) t.fmt .rne).pat
          else 0))) ∧
    (∀ (c : Chain) (items : List (Nat × List Byte)) (fl : BitVec 7),
      let depth := 2 + ((cOps e.ws).map fun o => o.depth (cType e.ws)).sum
      let last := c.groups ≤ c.group + 1
      let t := s.chainGroupDone e c (items, fl)
      ∃ x, t.tile.vec.pend = s.tile.vec.pend ++ [x] ∧ x.due = now + depth ∧ x.items = items ∧ x.flags = fl ∧
        x.serial = e.serial ∧ x.j = e.j ∧ (x.sig = none ↔ ¬ last) ∧ (last → t.tile.vec.chain = none) ∧ SameMemory s t)

/-- R236, R282, R284, R289 to R291, R293 to R295, R242, R244: which bytes a Drover run moves, beat by beat. Elements lie along their walk
from its saved counters on, moved by the step, and in a gather or scatter by the row's signed index; an index beat gathers the indices,
a data beat the bytes of its elements, or the fill value; the beat's write puts each element at its destination in element order, so
that of two elements on one byte the later wins, and no other byte of any memory changes. DAMO replaces each element by its operation
and, with RET, writes the old value along AUX, at once where no latency lies between, else when the answer is back. A DPUTADD whose
beats are read changes no byte here and sends its elements to the home's panel as contributions of its type and sequence number: to
another panel in one message; into this panel's fabric all in one of an ordered window, and each in one of its own else (assumption log
24: at half the latency drawn; 27: elements come apart in the home's fabric). A push goes to slot TAIL mod NSLAB of its ring, or is a
RING fault; an element whose place from the slot lies outside the pool is none (assumption log 71: it is PROTECTION). A beat is read and
written on the cycles of Table 11-4. (No element is refused: the walks are in reach and no word met is poisoned or bears a code; tags
are not checked.) -/
def Obligations.DroverMovesBytes : Prop :=
  ∀ (s : State) (serial : BitVec 32) (j : Nat) (r : DRun) (b : Beat),
    s.dRun serial j = some r → r.stopAt = none → s.tile.dr.shun = [] → dEchk r.ws = false →
    let me := s.cur.tile
    let sh := s.pad.shape
    let now := s.pad.rtick
    let n := r.width
    let site := fun (g : Target) => match g with
      | .own o => some (MemSite.pool s.cur.pad me, o)
      | .tile i o => some (.pool s.cur.pad i, o)
      | .table o => some (.table s.cur.pad me, o)
      | .hbm p o => some (.hbm s.cur.pad, p * 2 ^ 21 + o)
      | .host p o => some (.host, hostKey s.pad.fn (s.pad.hostAddr p o))
      | _ => none
    let sound := fun (st : Store) => st.errs = [] ∧ st.poison = [] ∧ Mem.wf st.bytes = true
    let clean := fun (m : MemSite) => match m with
      | .pool k i => sound (s.tileOf k i).st.pool
      | .table k i => sound (s.tileOf k i).st.tmem
      | .hbm k => sound (s.padOf k).hbm
      | _ => Mem.wf s.host = true
    let open' := fun (a : Nat) => ∃ m o, site (sh.target me a) = some (m, o) ∧ clean m ∧ s.inReach (sh.target me a) = true
    let bytes := fun (a len : Nat) => match site (sh.target me a) with
      | some (m, o) => (List.range len).map fun i => s.byteAt m (o + i)
      | none => []
    let covers := fun (e : Nat) (m : MemSite) (a : Nat) => match site (sh.target me (r.dstAddr e)) with
      | some (m', o) => decide (m' = m ∧ o ≤ a ∧ a < o + n)
      | none => false
    let place := fun (a : Nat) => ((site (sh.target me a)).map (·.2)).getD 0
    let moved := (j : Int) * r.step * (2 ^ dUnit r.ws : Nat)
    let index := fun (e : Nat) => r.idx.getD (e / r.rowCount) 0 * (2 ^ dUnit r.ws : Nat)
    let rdAt := s.readBeat serial j b
    let wrAt := s.writeBeat serial j b
    let swap := fun (c : Beat) => r.beats.map fun d => if d = b then c else d
    (∀ (it : List W64) (x : Int) (i0 i1 i2 i3 : Nat),
      let w := fun (k : Nat) => it.getD k 0
      let ext := fun (k : Nat) => bits (w 1) (16 * k + 15) (16 * k)
      let str := fun (k : Nat) => if bit (w 5) (8 + k) then (0 : Int)
        else sext 32 (bits (w (2 + k / 2)) (32 * (k % 2) + 31) (32 * (k % 2)))
      let place := fun (j0 j1 j2 j3 : Nat) => j0 + ext 0 * (j1 + ext 1 * (j2 + ext 2 * j3))
      let c := fun (k : Nat) => bits (w 4) (16 * k + 15) (16 * k)
      let first := place (c 0) (c 1) (c 2) (c 3)
      (walkOf it).count = ext 0 * ext 1 * ext 2 * ext 3 - first ∧
      (first ≤ place i0 i1 i2 i3 → i0 < ext 0 → i1 < ext 1 → i2 < ext 2 → i3 < ext 3 →
      ((walkOf it).addr (place i0 i1 i2 i3 - first) x : Int) =
        ((bits (w 0) 47 0 : Int) + x + i0 * str 0 + i1 * str 1 + i2 * str 2 + i3 * str 3) % (2 ^ 64 : Nat))) ∧
    (∀ e, r.srcAddr e = if r.cmd = .gather then r.src.addr (e % r.rowCount) (moved + index e) else r.src.addr e moved) ∧
    (r.ring = none → ∀ e,
      r.dstAddr e = if r.cmd = .scatter then r.dst.addr (e % r.rowCount) (moved + index e) else r.dst.addr e moved) ∧
    (b.kind = .index →
      (∀ k, k < b.count → ∃ o, sh.target me (r.aux.addr (b.first + k) moved) = .own o ∧ clean (.pool s.cur.pad me)) →
      SameMemory s rdAt ∧ rdAt.dRun serial j = some { r with
        idx := r.idx ++ (List.range b.count).map fun k =>
          sext (8 * 2 ^ r.aux.es) (leNat (bytes (r.aux.addr (b.first + k) moved) (2 ^ r.aux.es)))
        beats := r.beats.filter (· != b) }) ∧
    (b.kind = .data → r.cmd.usesSrc = true → r.cmd ≠ .get → (∀ k, k < b.count → open' (r.srcAddr (b.first + k))) →
      SameMemory s rdAt ∧ rdAt.dRun serial j = some { r with beats := swap { b with
        read := true, data := (List.range b.count).map fun k => bytes (r.srcAddr (b.first + k)) n } }) ∧
    (b.kind = .data → r.cmd = .fill →
      SameMemory s rdAt ∧ rdAt.dRun serial j = some { r with beats := swap { b with
        read := true, data := List.replicate b.count ((List.range n).map fun i => BitVec.ofNat 8 ((dWord r.ws 3).toNat / 256 ^ i)) } }) ∧
    (b.kind = .data → r.cmd ≠ .amo → r.ring = none → r.ahead = [] → n ≤ 8 →
      (∀ k, k < b.data.length → (b.data.getD k []).length = n ∧ open' (r.dstAddr (b.first + k)) ∧ r.dstAddr (b.first + k) % n = 0) →
      (∀ m a, wrAt.byteAt m a =
        match (List.range b.data.length).reverse.find? fun k => covers (b.first + k) m a with
        | some k => (b.data.getD k []).getD (a - place (r.dstAddr (b.first + k))) 0
        | none => s.byteAt m a) ∧
      ∃ q, wrAt.dRun serial j = some q ∧ q.beats = r.beats.filter (· != b)) ∧
    (∀ x : List Byte, b.data = [x] → b.kind = .data → r.cmd = .amo → r.ring = none → (n = 4 ∨ n = 8) → x.length = n →
      open' (r.dstAddr b.first) → r.dstAddr b.first % n = 0 →
      let a := r.dstAddr b.first
      let back := r.aux.addr b.first moved
      let old := leNat (bytes a n)
      let arg := leNat x
      let less := fun (u v : Nat) => sext (8 * n) u < sext (8 * n) v
      let res := match dAop r.ws with
        | 0 => (old + arg) % 2 ^ (8 * n)
        | 1 => if less arg old then arg else old
        | 2 => if less old arg then arg else old
        | 3 => old &&& arg
        | 4 => old ||| arg
        | 5 => old ^^^ arg
        | _ => arg
      let lat := s.latTo (some (sh.target me a))
      let stored := fun (m : MemSite) (p : Nat) =>
        if covers b.first m p then BitVec.ofNat 8 (res / 256 ^ (p - place a)) else s.byteAt m p
      (dRet r.ws = false → lat = 0 → ∀ m p, wrAt.byteAt m p = stored m p) ∧
      (dRet r.ws = true → lat = 0 → clean (.pool s.cur.pad me) → ∀ o, sh.target me back = .own o → o % n = 0 →
        ∀ m p, wrAt.byteAt m p = if m = .pool s.cur.pad me ∧ o ≤ p ∧ p < o + n then (bytes a n).getD (p - o) 0 else stored m p) ∧
      (lat ≠ 0 → (∀ m p, wrAt.byteAt m p = stored m p) ∧ ∃ q, wrAt.dRun serial j = some q ∧
        q.beats = swap { b with kind := .back, writeAt := b.writeAt + lat, count := 1, data := [bytes a n] })) ∧
    (∀ x : List Byte, b.data = [x] → b.kind = .back → r.ring = none → dRet r.ws = true → clean (.pool s.cur.pad me) →
      (x.length = 4 ∨ x.length = 8) → ∀ o, sh.target me (r.aux.addr b.first moved) = .own o → o % x.length = 0 →
      ∀ m p, wrAt.byteAt m p =
        if m = .pool s.cur.pad me ∧ o ≤ p ∧ p < o + x.length then x.getD (p - o) 0 else s.byteAt m p) ∧
    (r.cmd = .putadd → r.windowed sh me = true → r.slot.isSome = true → r.sent = false → r.susp = false → r.issued = r.beta →
      r.beats = [b] → b.read = true →
      let route := routeOf r.route
      let item := fun (k : Nat) => (r.dstAddr (b.first + k) % 2 ^ 36, b.data.getD k [])
      let message := fun (k : Nat) (items : List (Nat × List Byte)) => ({
        window := r.window, route := route, back := r.h - r.h / 2, body := .add (dAtype r.ws) r.seq items
        senders := [{ panel := s.panel.panelno.toNat % 32, pad := s.cur.pad, tile := me, serial := serial, j := j, elem := k,
                      counts := true }] } : PodMsg)
      let whole := message 0 ((List.range b.data.length).map item)
      let sends := if route.kind = 2 then [whole] else (List.range b.data.length).map fun k => message k [item k]
      let t := s.windowSend r
      let own := route.panel = s.panel.panelno.toNat % 32
      SameMemory s t ∧ t.dRun serial j = some { r with sent := true, asked := false, beats := [] } ∧
      (own → t.panel = { s.panel with fabric := s.panel.fabric ++ sends.map fun m => (s.dtick + r.h / 2, m) }) ∧
      (¬ own → t.panel = { s.panel with outbox := s.panel.outbox ++ [(route.panel, s.dtick + r.h / 2, whole)] })) ∧
    (∀ k, r.ring = some k → r.base = none →
      let home := r.dstTile sh me
      let d := (FMap.getD s.pad.tiles home Tile.init).dr
      let g := d.ring k
      let occ := (g.tail + 2 ^ 32 - g.head) % 2 ^ 32
      let full := g.nslab = 0 ∨ sh.spBytes < (g.base + g.nslab) * 4096 ∨ occ = g.nslab ∨ k ∈ d.pushing
      let slot := g.base + g.tail % g.nslab
      let t := (s.pushBase r k).1
      SameMemory s t ∧
      (¬ full → (s.pushBase r k).2 = some slot ∧ (FMap.getD t.pad.tiles home Tile.init).dr.pushing = d.pushing ++ [k] ∧
        ∀ e, s.placeOf r e (some slot) =
          let o : Int := slot * 4096 + sext 64 ((r.dstAddr e + 2 ^ 64 - r.dst.base) % 2 ^ 64)
          if o < 0 ∨ 0x200000 < o + n then .bad else if home = me then .own o.toNat else .tile home o.toNat) ∧
      (full → (s.pushBase r k).2 = none ∧ ∃ f, t.tile.core.conds = s.tile.core.conds ++ [f] ∧ f.cause = .ring ∧
        f.t3.toNat = k % 256 + occ % 256 * 2 ^ 16 + now % 2 ^ 32 * 2 ^ 32)) ∧
    (∀ (i l o o' : Nat), s.elemTimes r (some (.own o)) (some (.own o')) = (now, now + 1) ∧
      (0 < sh.strLat me i → s.elemTimes r (some (.own o)) (some (.tile i o')) = (now, now + sh.strLat me i) ∧
        s.elemTimes r (some (.tile i o)) (some (.own o')) = (now + sh.strLat me i, now + 1 + 2 * sh.strLat me i) ∧
        (0 < sh.strLat me l → s.elemTimes r (some (.tile i o)) (some (.tile l o')) =
          (now + sh.strLat me i, now + 2 * sh.strLat me i + sh.strLat me l)))) ∧
    (s.tile.dr.runs = [r] → r.beats = [b] →
      s.droverReads = (if b.read = false ∧ b.readAt ≤ now then rdAt else s) ∧
      ∀ remote, (r.windowed sh me = false ∨ r.sent = true) → s.droverWrites remote =
        if b.read = true ∧ b.writeAt ≤ now ∧ s.beatIsRemote r b = remote then wrAt else s)

/-- R236, R270, R288, R335, R337: VECTOR_WRITE_LAND of a due write into the own pool writes its bytes at its place and no other
byte, ORs its flags, and signals where the run's last write does; DROVER_TRANSFER_FINISH of the run in a slot makes its signal
and, for a put, counts one more for its window. With SIGDST the signal goes to the semaphore of the tile that holds the
destination, and a DAMO has made it when its last byte was written there, an answer's latency before its finish. A release out of
scope makes neither the signal nor the count and raises SCOPE with the address (R396). HBM_DATA_ARRIVAL lets the ULD that waits
issue its access. (MXDBG.SLABGUARD is off.) -/
def Obligations.EngineFinishes : Prop :=
  ∀ s : State,
    let now := s.pad.rtick
    (∀ (x : VWrite) (a : Nat) (bs : List Byte), Mem.wf s.tile.st.pool.bytes = true → bit (s.ctl kMxdbg) 0 = false →
      s.tile.vec.pend = [x] → x.due ≤ now → x.items = [(a, bs)] → a % 8 = 0 → bs.length % 8 = 0 → a + bs.length ≤ 0x200000 →
      (∀ g, x.sig = some g → g.rel = true → s.outOfScope (.sem s.cur.tile g.q) = none) →
      ∃ t, exec .vectorWriteLand s = .next t ∧ SameMemoryBut s t a bs.length ∧ t.tile.vec.pend = [] ∧
        (∀ i, i < bs.length → t.byteAt (.pool s.cur.pad s.cur.tile) (a + i) = bs.getD i 0) ∧
        t.ctl kFpcsr = s.ctl kFpcsr ||| x.flags.setWidth 64 ∧
        t.tile.sync = match x.sig with
          | some g => s.tile.sync.signal g.q g.n
          | none => s.tile.sync) ∧
    (∀ (slot : Nat) (r : DRun), s.slotRun slot = some r → (dWord r.ws 1).getLsbD 34 = false →
      ((dSignal r.ws).rel = true → s.outOfScope (.sem s.cur.tile (dSignal r.ws).q) = none) →
      exec (.droverTransferFinish slot) s = .next (s.modSync fun y =>
        let z := y.signal (dSignal r.ws).q (dSignal r.ws).n
        if r.cmd = .put ∨ r.cmd = .putadd then
          { z with sentInc := FMap.put z.sentInc r.window (FMap.getD z.sentInc r.window 0 + 1) } else z)) ∧
    (∀ (slot : Nat) (r : DRun), s.slotRun slot = some r → (dWord r.ws 1).getLsbD 34 = true → r.cmd ≠ .put → r.cmd ≠ .putadd →
      let home := r.dstTile s.pad.shape s.cur.tile
      let g := dSignal r.ws
      let signalled := s.atTile home fun u => u.modSync fun y => y.signal g.q g.n
      (g.rel = true → s.outOfScope (.sem home g.q) = none) →
      (r.cmd ≠ .amo → exec (.droverTransferFinish slot) s = .next signalled) ∧
      (r.cmd = .amo → exec (.droverTransferFinish slot) s = .next s ∧
        (s.tile.dr.runs = [r] → r.stopAt = none → 0 < s.pad.shape.strLat s.cur.tile home →
          r.fin = some (now + s.pad.shape.strLat s.cur.tile home) → s.droverFinishes = signalled))) ∧
    (∀ (slot : Nat) (r : DRun) (a : W64), s.slotRun slot = some r → (dWord r.ws 1).getLsbD 34 = false →
      (dSignal r.ws).rel = true → s.outOfScope (.sem s.cur.tile (dSignal r.ws).q) = some a →
      ∃ t f, exec (.droverTransferFinish slot) s = .next t ∧ t.tile.sync = s.tile.sync ∧
        t.tile.core.conds = s.tile.core.conds ++ [f] ∧ f.cause = .scope ∧ f.t3 = a) ∧
    (∀ slot, s.slotRun slot = none → exec (.droverTransferFinish slot) s = .next s) ∧
    (∀ (r : UopRun) (d : Nat), s.tile.core.hold = .uop r → r.hbmWait = some d → d ≤ now →
      let u := s.uopAt r r.pos
      let ea := r.sel u u.sa + BitVec.ofInt 64 (sext 32 u.imm)
      u.code = 0x1D → s.uldCheck ea (uldWidth u.fn).1.bytes = .ok true → r.mc + 1 ≠ r.cyc →
      exec .hbmDataArrival s = .next (s.modCore fun c => { c with
        acc := c.acc ++ [{ acc := .uld (uldWidth u.fn).1 (uldWidth u.fn).2 u.dst, ea := ea.toNat, left := 1 }]
        hold := .uop { r.next r.pos with hbmWait := none, mc := r.mc + 1 } }))

-- Windows and reductions (15)

/-- R288, R385, R401, R402: WINDOW_PUT_APPLY of one due put whose home is the current tile writes its element at BASE + o, and no other
byte, counts the run at the home and sends the acknowledgement back; a due get there writes nothing, counts nothing and sends the bytes
at BASE + o back. WINDOW_ACK of one due acknowledgement gives its put its finish, on this cycle or, where the least H has not passed, on
the first that it allows. A request the home must refuse writes nothing and goes back as refused. -/
def Obligations.WindowPutsAndAnswers : Prop :=
  ∀ (s : State) (due : Nat) (m : PodMsg) (x : Sender), s.panel.fabric = [(due, m)] → due ≤ s.dtick → m.senders = [x] →
    x.panel = s.panel.panelno.toNat % 32 →
    let w := m.window
    let back := fun (b : PodBody) => { s.panel with fabric := [(s.dtick + m.back, { m with body := b })] }
    let wd := s.ctl (kWdesc + w)
    let wm := s.ctl (kWmap + w)
    (∀ (o n : Nat), m.body = .get [(o, n)] → s.homeFor m = some s.cur → bits wd 62 61 = m.route.kind → w ∉ s.tile.sync.wpoison →
      wm.getLsbD 62 = true → o + n ≤ 2 ^ bits wm 53 48 →
      let a := bits wm 47 0 + o
      n ∈ [1, 2, 4, 8] → a % n = 0 → a + n ≤ s.pad.shape.penBase → s.pad.shape.penBase ≤ 0x200000 →
      s.pad.shape.spBytes ≤ s.pad.shape.penBase → Mem.wf s.tile.st.pool.bytes = true → s.tile.st.pool.poison = [] →
      s.tile.st.pool.errs = [] → ∃ t, exec .windowPutApply s = .next t ∧ SameMemory s t ∧ t.tile.sync = s.tile.sync ∧
        t.panel = back (.ack [(List.range n).map fun i => s.byteAt (.pool s.cur.pad s.cur.tile) (a + i)])) ∧
    (∀ (o : Nat) (bs : List Byte), m.body = .put [(o, bs)] → s.homeFor m = some s.cur →
      let a := bits wm 47 0 + o
      (bits wd 62 61 = m.route.kind → w ∉ s.tile.sync.wpoison → wm.getLsbD 61 = true → o + bs.length ≤ 2 ^ bits wm 53 48 →
        bs.length ∈ [1, 2, 4, 8] → a % bs.length = 0 → a + bs.length ≤ s.pad.shape.penBase → s.pad.shape.penBase ≤ 0x200000 →
        s.pad.shape.spBytes ≤ s.pad.shape.penBase → Mem.wf s.tile.st.pool.bytes = true → s.tile.st.pool.poison = [] →
        s.tile.st.pool.errs = [] → bit (s.ctl kMxdbg) 0 = false →
        ∃ t, exec .windowPutApply s = .next t ∧ SameMemoryBut s t a bs.length ∧
          (∀ i, i < bs.length → t.byteAt (.pool s.cur.pad s.cur.tile) (a + i) = bs.getD i 0) ∧
          FMap.getD t.tile.sync.recvInc w 0 = FMap.getD s.tile.sync.recvInc w 0 + (if x.counts = true then 1 else 0) ∧
          t.panel = back (.ack [])) ∧
      (bits wd 62 61 ≠ m.route.kind ∨ (w ∉ s.tile.sync.wpoison ∧ (wm.getLsbD 61 = false ∨ 2 ^ bits wm 53 48 < o + bs.length)) →
        exec .windowPutApply s = .next { s with panel := back (.nack x.elem .protection []) }) ∧
      (bits wd 62 61 = m.route.kind → w ∈ s.tile.sync.wpoison →
        exec .windowPutApply s = .next { s with panel := back (.poisoned x.elem []) })) ∧
    (∀ r : DRun, m.body = .ack [] → x.pad = s.cur.pad → x.tile = s.cur.tile → s.dRun x.serial x.j = some r → r.slot.isSome = true →
      r.cmd = .put ∨ r.cmd = .putadd →
      exec .windowAck s = .next (({ s with panel := { s.panel with fabric := [] } } : State).modTile fun t =>
        { t with dr := { t.dr with runs := t.dr.runs.map fun q =>
          if q.serial = x.serial ∧ q.j = x.j then
            { q with beats := [], asked := false, fin := some (max s.pad.rtick (r.s + r.beta + 600)) } else q } }))

/-- R293, R403, R404: REDUCTION_MERGE makes of two messages in the fabric one: of one unordered window, route and type, with the same
elements, of different runs. Each of its elements is the sum of theirs, wrapped for integers and rounded once for floats, and it counts
for and answers the senders of both; every other message, those with the runs' other elements among them, stays as it is. Where no two
may meet it changes nothing. ORDERED_ROUND_APPLY does nothing before the contributions of NSEND senders of the round are held. Then each
sender's elements, in ascending order of sender panel and tile, are added one after another, of every type; an element whose home word
is poisoned writes nothing and poisons the window; no other byte changes, the count rises by NSEND, and the next round is collected.
(Assumption log 27: which contributions merge, and that never two elements of one run do; 56: that a round is applied whole although an
element of it poisons the window, or it was poisoned before.) -/
def Obligations.Reductions : Prop :=
  let sum := fun (ty : Nat) (a b : List Byte) => natLE a.length (
    if ty = 3 then (fAdd Fmt.f32 .rne (leNat a) (leNat b)).pat
    else if ty = 4 then (fAdd Fmt.f64 .rne (leNat a) (leNat b)).pat
    else (leNat a + leNat b) % 2 ^ (8 * a.length))
  (∀ s : State,
    let meet := fun (m n : PodMsg) => m.window = n.window ∧ m.route = n.route ∧ m.route.kind = 1 ∧
      (∀ x ∈ m.senders, ∀ z ∈ n.senders, (x.panel, x.pad, x.tile, x.serial, x.j) ≠ (z.panel, z.pad, z.tile, z.serial, z.j)) ∧
      ∃ ty q q' xs zs, m.body = .add ty q xs ∧ n.body = .add ty q' zs ∧ xs.map (·.1) = zs.map (·.1) ∧
        xs.map (·.2.length) = zs.map (·.2.length)
    ((¬ ∃ x z, [x, z].Sublist s.panel.fabric ∧ meet x.2 z.2) → exec .reductionMerge s = .next s) ∧
    ((∃ x z, [x, z].Sublist s.panel.fabric ∧ meet x.2 z.2) → ∃ x z rest u, meet x.2 z.2 ∧
      s.panel.fabric.Perm (x :: z :: rest) ∧ rest.Sublist s.panel.fabric ∧
      exec .reductionMerge s = .next { s with panel := { s.panel with fabric := rest ++ [(Nat.max x.1 z.1, u)] } } ∧
      u.window = x.2.window ∧ u.route = x.2.route ∧ u.senders = x.2.senders ++ z.2.senders ∧
      ∀ ty q q' xs zs, x.2.body = .add ty q xs → z.2.body = .add ty q' zs → ∃ cs, u.body = .add ty q cs ∧
        cs.map (·.1) = xs.map (·.1) ∧ cs.map (·.2) = (xs.zip zs).map fun e => sum ty e.1.2 e.2.2)) ∧
  ∀ (s : State) (w : Nat) (ks : List (Nat × Nat)),
    let y := s.tile.sync
    let r := FMap.getD y.rounds w 0
    let wm := s.ctl (kWmap + w)
    let nsend := bits (s.ctl (kWdesc + w)) 47 32
    let round := y.contribs.filter fun c => c.window == w && c.seq == r
    let home := fun (c : Contrib) => bits wm 47 0 + c.addr
    let bad := fun (c : Contrib) => s.tile.st.pool.poison.contains (home c / 8)
    let pool := MemSite.pool s.cur.pad s.cur.tile
    let add := fun (m : Nat → Byte) (c : Contrib) => fun b =>
      if home c ≤ b ∧ b < home c + c.data.length ∧ bad c = false then
        (sum c.aty ((List.range c.data.length).map fun i => m (home c + i)) c.data).getD (b - home c) 0
      else m b
    ks.Pairwise (fun k l => k.1 < l.1 ∨ (k.1 = l.1 ∧ k.2 < l.2)) → (∀ k, k ∈ ks ↔ ∃ c ∈ round, (c.panel, c.sender) = k) →
    (ks.length ≠ nsend ∨ nsend = 0 → exec (.orderedRoundApply w) s = .next s) ∧
    (ks.length = nsend → nsend ≠ 0 → wm.getLsbD 61 = true → s.pad.shape.penBase ≤ 0x200000 →
      s.pad.shape.spBytes ≤ s.pad.shape.penBase → Mem.wf s.tile.st.pool.bytes = true → s.tile.st.pool.errs = [] →
      bit (s.ctl kMxdbg) 0 = false →
      (∀ c ∈ round, (((c.aty = 1 ∨ c.aty = 3) ∧ c.data.length = 4) ∨ ((c.aty = 2 ∨ c.aty = 4) ∧ c.data.length = 8)) ∧
        c.addr + c.data.length ≤ 2 ^ bits wm 53 48 ∧ home c % c.data.length = 0 ∧ home c + c.data.length ≤ s.pad.shape.penBase) →
      let order := ks.flatMap fun k => round.filter fun c => (c.panel, c.sender) == k
      ∃ t, exec (.orderedRoundApply w) s = .next t ∧
        (∀ b, t.byteAt pool b = order.foldl add (fun b => s.byteAt pool b) b) ∧
        (∀ m b, m ≠ pool → t.byteAt m b = s.byteAt m b) ∧ t.tile.st.pool.poison = s.tile.st.pool.poison ∧
        t.tile.sync.contribs = y.contribs.filter (fun c => !(c.window == w && c.seq == r)) ∧
        FMap.getD t.tile.sync.rounds w 0 = (r + 1) % 2 ^ 32 ∧
        FMap.getD t.tile.sync.recvInc w 0 = FMap.getD y.recvInc w 0 + nsend ∧
        ∀ v, v ∈ t.tile.sync.wpoison ↔ v ∈ y.wpoison ∨ (v = w ∧ ∃ c ∈ round, bad c = true))

-- Clocks, timers and the end of a region cycle (04, 09, 17, 18)

/-- R44, R46, R89, R90, R429, R439: REGION_CYCLE for a paddock of one tile whose engines rest, which nothing traces and nothing is
asked of. The cycle count and the count of R37 go up by one, each queue counts one EMPTY cycle, COUNT goes up by one and PEND is
set where it then equals CMP. A PPT of the tile on this cycle makes it a pause point: the stint goes up, the class it names gives
the mode, and a latched mailbox write takes effect. An ALIGN on one die freezes
the paddock for two cycles and adds 2 to alignloss. (Assumption log 53: that alignloss stands 2 higher as the freeze begins.) -/
def Obligations.RegionCycleEnds : Prop :=
  ∀ (s : State) (i : Nat) (x : Tile), s.pad.tiles = [(i, x)] → s.pad.folds = [] → s.pad.reports = [] → s.pad.pending = [] →
    s.pad.dbg.armed = [] → s.pad.freeze = none → bit (s.fn s.pad.fn).dbg.tcfg 63 = false →
    x.mq.entries = [] → x.vq.entries = [] → x.dq.entries = [] → x.mq.act = none → x.vq.act = none → x.dq.act = none →
    x.mx = { x.mx with loadA := none, loadB := none, nest := none, prods := [], rows := [] } → x.vec.pend = [] →
    x.vec.chain = none → x.dr = { x.dr with runs := [], tails := [], heads := [], shun := [] } → x.core.landed = [] →
    x.core.waitFrom = none → x.core.hold = .none → x.core.tie = false → x.mboxIn = [] →
    x.sync = { x.sync with sig := [], set := [], sentInc := [], recvInc := [], contribs := [] } →
    x.st.hits = 0 → x.st.uncs = 0 → x.obs.seen = [] → x.core.dead = false →
    let count := fun (t : State) => bits (Regs.rd (t.tileOf s.cur.pad i).ctl kTimer) 62 0
    let old := Regs.rd x.ctl kTimer
    let ends := fun (t : State) =>
      t.pad.rtick = s.pad.rtick + 1 ∧ t.pad.alignCnt = s.pad.alignCnt + 1 ∧
      count t = (bits old 62 0 + 1) % 2 ^ 63 ∧
      (bit (Regs.rd (t.tileOf s.cur.pad i).ctl kTimer) 63 = true ↔
        bit old 63 = true ∨ count t = bits (Regs.rd x.ctl kTcmp) 62 0) ∧
      ∀ k, Regs.rd (t.tileOf s.cur.pad i).obs.counters k =
        Regs.rd x.obs.counters k + (if k = 4 ∨ k = 12 ∨ k = 20 then 1 else 0)
    let loss := fun (t : State) => Regs.rd (t.tileOf s.cur.pad i).ctl 0x0B
    (x.core.ppt = none → x.core.aligning = false →
      ∃ t, exec .regionCycle s = .next t ∧ ends t ∧ t.pad.stint = s.pad.stint ∧ t.pad.freeze = none) ∧
    (∀ (n m : Nat) (v : W64), x.core.ppt = some n → n < s.pad.shape.nstint → x.mboxLatch = [(m, v)] → s.pad.state = .running →
      ∃ t, exec .regionCycle s = .next t ∧ ends t ∧ t.pad.stint = (s.pad.stint + 1) % 2 ^ 64 ∧ t.pad.cls = n ∧
        t.pad.strict = s.pad.shape.strict.getD n true ∧ Regs.rd (t.tileOf s.cur.pad i).mbox m = v ∧
        (t.tileOf s.cur.pad i).mboxLatch = [] ∧ t.pad.freeze = none) ∧
    (x.core.ppt = none → x.core.aligning = true → (s.pad.shape.dies s.pad.place).length ≤ 1 →
      ∃ t, exec .regionCycle s = .next t ∧ ends t ∧ t.pad.freeze = some (.align (s.dtick + 3)) ∧
        loss t = Regs.rd x.ctl 0x0B + 2)

/-- R37, R86, R89, R429: TICK_BEAT gives every tile of the current paddock a skew register with, for each abstract side, 0x8000 where no
tile of the paddock on another die stands there, and else the estimate for that die, 0 in a freeze, where both counts stand (the drift
behind the estimates, the phases and the dtick of each die at a release are the model's, assumption log 5); ALIGN_RELEASE of a freeze
that is over takes the clock up again, recaptures the phase and restarts the count of R37; ALIGNIV_EXPIRY when that count is ALIGNIV + 1
raises TIMING (ALIGNIV) at every tile; TIMER_PEND sets PEND when COUNT equals CMP and changes nothing otherwise. R92, R93, R254, R449,
R453, R454: PAGE_WALK_COMPLETE brings the pages of the walks that are over into the tile's TLB and keeps the other walks;
MOVE_PAGE_SWITCH gives the page of the head its new channel and clears FORWARD, and with the last page, or where none is left to copy,
the old channels are free and the MOVE completes with the placement word (in what order and when pages switch is assumption log 28; that
a page with a channel on an M-die out of service does not, 39); REPLAY_INPUT_APPLY in a loose stint gives an armed record of this cycle
to its tile's mailbox and uses it up, in a strict one it waits; TRACE_SAMPLE puts one record, with its source and number, into the
tile's buffer on a cycle that SPER divides. -/
def Obligations.ClocksAndBackground : Prop :=
  (∀ s : State,
    let p := s.pad
    let side := fun (i : Nat) (dx dy : Int) => match p.shape.offsetTile i dx dy with
        | none => 0x8000
        | some j => if p.shape.die p.place i = p.shape.die p.place j then 0x8000
            else if p.freeze.isSome then 0
            else ((p.seamLead s.dtick (p.shape.die p.place j) (p.shape.die p.place i)) % 65536).toNat
    (FMap.sorted p.tiles = true →
      ∃ t, exec .tickBeat s = .next t ∧ t.panel = s.panel ∧ t.dtick = s.dtick ∧ ∀ i,
        t.tileOf s.cur.pad i = if i ∈ FMap.keys p.tiles then
          (s.tileOf s.cur.pad i).setCtl 0x0A (fld (side i 0 (-1)) 48 ||| fld (side i (-1) 0) 32 ||| fld (side i 0 1) 16 |||
            fld (side i 1 0) 0)
        else s.tileOf s.cur.pad i) ∧
    (∀ d, p.freeze = some (.align d) → d ≤ s.dtick →
      ∃ b, exec .alignRelease s = .next (s.modPad fun p =>
          { p with freeze := none, capture := s.dtick, capTick := p.rtick, alignCnt := 0, slips := [], bases := b }) ∧
        ∀ i ∈ p.shape.dies p.place, FMap.get? b i = some (p.alignedDtick s.panel i s.dtick)) ∧
    (∀ (i : Nat) (x : Tile), p.tiles = [(i, x)] → p.shape.alignIv ≠ 0 → p.alignCnt = p.shape.alignIv + 1 →
      exec .alignivExpiry s = .next (s.atTile i fun s => s.cond (timingFault .s 0x0A 0 p.rtick))) ∧
    (∀ v, v = s.ctl kTimer →
      (bits v 62 0 = bits (s.ctl kTcmp) 62 0 → bit v 63 = false →
        exec .timerPend s = .next ((s.setCtl kTimer (v ||| fld 1 63)).modCore fun c => { c with pendAt := p.rtick })) ∧
      (bits v 62 0 ≠ bits (s.ctl kTcmp) 62 0 ∨ bit v 63 = true → exec .timerPend s = .next s))) ∧
  (∀ s : State,
    let p := s.pad
    (∃ t, exec .pageWalkComplete s = .next t ∧ SameMemory s t ∧
      t.tile.tlb.walks = s.tile.tlb.walks.filter (fun w => match w.2 with
        | some d => decide (s.dtick < d)
        | none => true) ∧
      ∀ g d, s.tile.tlb.walks = [(g, some d)] → d ≤ s.dtick → t.tile.tlb.pages.head? = some g) ∧
    (∀ g rest, p.moving = g :: rest → s.copyCut g = true → exec .movePageSwitch s = .next s) ∧
    (∀ g, p.moving = [g] → g < p.shape.chan * 625 → s.copyCut g = false → FMap.sorted p.pages = true →
      let e := p.hbmEntry g &&& ~~~(fld 1 62 ||| span 39 0)
      ∃ t, exec .movePageSwitch s = .next t ∧ t.pad.hbmEntry g = e ∧ t.pad.moving = [] ∧ t.pad.oldChans = [] ∧
        t.pad.moveCmd = none ∧
        t.panel.owners = s.panel.owners.filter (fun o => !(p.oldChans.contains o.1 && o.2 == s.cur.pad)) ∧
        ∀ c, p.moveCmd = some c → ∃ u : State, u.fns = s.fns ∧ u.host = s.host ∧
          t = u.done 0x07 c stOk p.place 0) ∧
    (∀ g h rest, p.moving = g :: h :: rest → g ∉ h :: rest → g < p.shape.chan * 625 →
      s.copyCut g = false → FMap.sorted p.pages = true → ∃ t, exec .movePageSwitch s = .next t ∧
      t.pad.moving = h :: rest ∧ t.pad.hbmEntry g = p.hbmEntry g &&& ~~~(fld 1 62 ||| span 39 0) ∧ t.panel = s.panel ∧
      (∃ d, t.pad.nextSwitch = some d ∧ s.dtick < d)) ∧
    (p.moving = [] → (p.nextSwitch = none → exec .movePageSwitch s = .next s) ∧
      (p.nextSwitch.isSome = true → ∃ t, exec .movePageSwitch s = .next t ∧ t.pad.oldChans = [] ∧ t.pad.moveCmd = none ∧
        t.pad.nextSwitch = none)) ∧
    (∀ a x, p.dbg.armed = [a] → FMap.get? p.tiles a.tile = some x → bit (s.fn p.fn).dbg.tcfg 63 = false → a.time = p.rtick →
      (p.strict = false → ∃ t, exec .replayInputApply s = .next t ∧ t.pad.dbg.armed = [] ∧
        t.tileOf s.cur.pad a.tile = { x with mbox := FMap.put x.mbox a.mbox a.value }) ∧
      (p.strict = true → exec .replayInputApply s = .next s)) ∧
    (∀ per o, per = bits (s.fn p.fn).dbg.tcfg 39 32 → o = s.tile.obs →
      (10 ≤ per → per ≤ 40 → p.rtick % 2 ^ per = 0 → bit (s.fn p.fn).dbg.tcfg 63 = true → bit (s.fn p.fn).dbg.tcfg 62 = true →
        (s.fn p.fn).session = none → o.buf.length < 64 →
        ∃ t r, exec .traceSample s = .next t ∧ t.tile.obs.buf = o.buf ++ [r] ∧ r.kind = 1 ∧ r.time = w64 p.rtick ∧
          r.src = s.cur.tile ∧ r.seq = o.seq ∧ t.tile.obs.seq = o.seq + 1 ∧ SameMemory s t) ∧
      (per < 10 ∨ 40 < per ∨ p.rtick % 2 ^ per ≠ 0 → exec .traceSample s = .next s)))

-- How paddocks end, and the Shepherd's own turns (01, 03, 17, 18, 19)

/-- R66, R69, R427, R444, R455, R460: BREAKPOINT_STOP after cycle Z stops the paddock where it stands (a fault that waits is reported
instead); PADDOCK_WIDE_FAULT and JOB_END leave the paddock HALTED, with nothing pending, and write their event last; WATCHDOG of reason
4 is a paddock-wide fault, any other destroys the paddock with reason 0x12; a forced reclaim that nothing meets destroys it with reason
0x20, releases taken in time only get a deadline; HOLD_EXPIRY destroys every handle of the world, erases its key and ends the session.
The paddocks of the first clauses have one tile, at rest. (The model's readings behind them: which tile records WATCHDOG 4, assumption
log 39; at which run of a bound sequence a breakpoint stops, 45; what lands when the clock stops for good, 46; that deadlines count
region cycles, 63; what a waiting release leaves, 15; the halt code after a hold expires, 62.) -/
def Obligations.EndsOfPaddocks : Prop :=
  ∀ s : State,
    let k := s.cur.pad
    let p := s.pad
    let destroyed := fun (t : State) (k reason : Nat) => (t.padAt k).state = .destroyed ∧ (t.padAt k).tiles = [] ∧
      ∃ u : State, u.pads = t.pads ∧ t = u.event (s.padAt k).fn evDestroyed (s.padAt k).handle (w64 reason) 0
    let rests := fun (i : Nat) (x : Tile) => FMap.get? s.pads k = some p ∧ p.tiles = [(i, x)] ∧ p.net = [] ∧ p.folds = [] ∧
      x.core.acc = [] ∧ x.vec.pend = [] ∧ x.st.pool.errs = []
    let halted := fun (t : State) (code : Nat) (r0 r1 : W64) => t.pad.state = .halted ∧ t.pad.pending = [] ∧
      t.pad.freeze = none ∧ ∃ u : State, u.pads = t.pads ∧ t = u.event p.fn code p.handle r0 r1
    (∀ z, p.dbg.fireAt = some z → p.state = .running → bit (s.fn p.fn).dbg.tcfg 63 = false →
      (p.reports = [] →
        let stopped := fun (p : Paddock) =>
          { p with freeze := some .stop,
                   dbg := { p.dbg with fireAt := none, state := 3, zlow := z % 2 ^ 32, bp := p.dbg.fireBp } }
        (p.strict = true → exec .breakpointStop s = .next (s.modPad stopped)) ∧
        (p.strict = false → ∃ t, exec .breakpointStop s = .next t ∧
          { t.pad with tiles := [] } = { stopped p with tiles := [] } ∧
          ∀ i x, FMap.sorted p.tiles = true → FMap.get? p.tiles i = some x →
            match x.core.hold with
            | .uop r => if r.committed = true then t.tileOf k i = x
              else (t.tileOf k i).core.hold = .none ∧ (t.tileOf k i).core.pc = x.core.pc ∧ (t.tileOf k i).core.regs = x.core.regs ∧
                (r.tpend = [] → x.core.acc = [] → (t.tileOf k i).ctl = (x.writeFrame r).ctl)
            | _ => t.tileOf k i = x)) ∧
      (p.reports ≠ [] →
        exec .breakpointStop s = .next (s.modPad fun p => { p with dbg := { p.dbg with fireAt := none } }))) ∧
    (∀ i x r, rests i x → p.reports = [r] → p.state = .running → p.freeze = none → p.stopAt = some (p.rtick - 1) →
      0 < p.rtick → ∃ t, exec .paddockWideFault s = .next t ∧
        halted t evFault (fld r.tile 16 ||| fld r.info.cause.code 0) 0) ∧
    (∀ i x, rests i x → p.reports = [] → p.state = .running → p.freeze = none → 0 < p.rtick → x.isDown = true →
      x.core.lately = false →
      ∃ t, exec (.jobEnd k) s = .next t ∧ halted t evJobEnd 0 (w64 (p.rtick - 1))) ∧
    (∀ j r, (s.padAt j).state = .running → FMap.get? s.pads j = some (s.padAt j) → r ≠ 4 →
      ∃ t, exec (.watchdog j r) s = .next t ∧ destroyed t j (0x12 + r * 256)) ∧
    (∀ j, (s.padAt j).state = .running → FMap.get? s.pads j = some (s.padAt j) →
      ∃ t q, exec (.watchdog j 4) s = .next t ∧ (t.padAt j).reports = (s.padAt j).reports ++ [q] ∧
        q.info.cause = .watchdog ∧ q.info.t3 = 4 ∧ q.cycle = (s.padAt j).rtick) ∧
    (∀ j d, (s.padAt j).reclaims = [d] → (s.padAt j).pagesAt d.1 ≠ [] → d.2 ≤ s.dtick →
      FMap.get? s.pads j = some (s.padAt j) → (s.padAt j).pending = [] →
      ∃ t, exec (.forcedReclaim j) s = .next t ∧ destroyed t j 0x20) ∧
    (∀ j d q a n, (s.padAt j).reclaims = [d] → (s.padAt j).pagesAt d.1 ≠ [] → d.2 ≤ s.dtick → (s.padAt j).state = .running →
      (s.padAt j).pending = [q] → q.req = .release a n → q.deadline = none → (s.padAt j).preview.pagesAt d.1 = [] →
      exec (.forcedReclaim j) s = .next (s.modPadAt j fun p =>
        { p with pending := [{ q with deadline := some (q.due + (s.padAt j).shape.pauseMax + 65536, 6) }] })) ∧
    (∀ n d, (s.fn n).hold = some d → d ≤ s.dtick → FMap.sorted s.pads = true →
      ∃ t, exec (.holdExpiry n) s = .next t ∧ (∀ j ∈ s.liveHandles n, (t.padAt j).state = .destroyed) ∧
        (t.fn n).session = none ∧ (t.fn n).worldKey = none ∧ (t.fn n).hold = none ∧
        ∀ j, j ∉ s.liveHandles n → t.padAt j = s.padAt j)

/-- R20, R66 to R68, R459: HEARTBEAT_TIMEOUT of a session not heard for 10 s starts the hold of 30 s and seals the world: a RUNNING paddock
by a request with a deadline, any other at once; BUDGET_WINDOW gives every function its new budget and carries its debt; SLICE_END asks
each RUNNING paddock of the function to pre-empt; RECLAIM_REQ asks a position back within 10 s, with its event; SHEPHERD_TAKEOVER moves
the role to the standby once and loses no notify or count, and a command whose completion entry is not written, be it that the entry
waits, is executed again from its start, in ring order, ahead of all other work. (Assumption log 12: what a first window's job uses; 37:
which states a late heartbeat seals; 40: the takeover is one step; 63: deadlines count region cycles.) -/
def Obligations.ShepherdTurns : Prop :=
  ∀ s : State, FMap.sorted s.pads = true →
    let asked := fun (t : State) (k : Nat) (r : Req) (reason : Nat) => ∃ q, (t.padAt k).pending = (s.padAt k).pending ++ [q] ∧
      q.req = r ∧ q.deadline = some ((s.padAt k).rtick + (s.padAt k).shape.pauseMax + 65536, reason)
    (∀ n x, (s.fn n).session = some x → x.heard + 16000000000 ≤ s.dtick → (s.fn n).hold = none → (s.fn n).void = false →
      ∃ t, exec (.heartbeatTimeout n) s = .next t ∧ (t.fn n).hold = some (s.dtick + 48000000000) ∧
        ∀ k ∈ s.liveHandles n,
          ((s.padAt k).state = .running → asked t k .seal 3) ∧
          ((s.padAt k).state ∈ [PState.empty, .loaded, .preempted] →
            (t.padAt k).state = .held ∧ (t.padAt k).heldFrom = (s.padAt k).state)) ∧
    (∀ n x, (s.fn n).session = some x → s.dtick < x.heard + 16000000000 → exec (.heartbeatTimeout n) s = .next s) ∧
    ((∀ e ∈ s.pads, e.2.sliced = false) → ∃ t, exec .budgetWindow s = .next t ∧ t.pads = s.pads ∧ t.panel.windowAt = s.dtick ∧
      ∀ n, let f := s.fn n
        (t.fn n).budget = f.nextBudget ∧ (t.fn n).used = 0 ∧
          (t.fn n).debt = (f.debt - f.budget) + (f.used - (f.budget - f.debt))) ∧
    (∀ n, ∃ t, exec (.sliceEnd n) s = .next t ∧ (t.fn n).ended = true ∧
      ∀ k ∈ FMap.keys s.pads, (s.padAt k).fn = n → (s.padAt k).state = .running → (s.padAt k).asked .slice = false →
        asked t k .slice 1) ∧
    (∀ k pos c, FMap.get? s.pads k = some (s.padAt k) → (s.padAt k).chans[pos]? = some (some c) → (s.padAt k).reclaims = [] →
      (s.padAt k).pagesAt pos ≠ [] →
      exec (.reclaimReq k pos) s = .next ((s.modPadAt k fun p => { p with reclaims := [(pos, s.dtick + 16000000000)] }).event
        (s.padAt k).fn evReclaim (s.padAt k).handle (w64 ((s.padAt k).pagesAt pos).length) (w64 pos))) ∧
    (∀ k pos c, FMap.get? s.pads k = some (s.padAt k) → (s.padAt k).chans[pos]? = some (some c) → (s.padAt k).reclaims = [] →
      (s.padAt k).pagesAt pos = [] →
      ∃ t, exec (.reclaimReq k pos) s = .next t ∧ (t.padAt k).chans[pos]? = some none ∧ FMap.get? t.panel.owners c = none) ∧
    (s.panel.shep = 105 → (∀ e ∈ s.pads, e.2.placed = true → e.2.touches 105 = false) → s.panel.awaits = [] →
      (∀ e ∈ s.pads, e.2.moveCmd = none) →
      let event := fun (ws : List W64) => match ws with
        | w :: _ => bits w 7 0 == 0xF0
        | [] => true
      ∃ t jobs, exec .shepherdTakeover s = .next t ∧ t.panel.shep = 114 ∧ (t.panel.die 105).failed = true ∧
        t.fns = s.fns.map (fun e => (e.1, { e.2 with held := e.2.held.filter event, blocked := e.2.blocked.filter event,
                                                     undone := [] })) ∧
        t.dtick = s.dtick ∧ t.agenda = jobs ++ s.agenda ∧
        t.pads = s.pads.map (fun e => (e.1, { e.2 with pending := e.2.pending.filter (·.cmd.isNone), moveCmd := none })) ∧
        (∀ j, j ∈ jobs ↔ (∃ e ∈ s.pads, ∃ q ∈ e.2.pending, ∃ c i, q.cmd = some c ∧ commandInstr q.req.op c = some i ∧
          j = .run s.cur i) ∨ (∃ e ∈ s.fns, ∃ x ∈ e.2.undone, ∃ i, e.2.owes x = true ∧ commandInstr x.1 x.2 = some i ∧
          j = .run s.cur i)) ∧
        ((∀ e ∈ s.pads, ∀ q ∈ e.2.pending, q.cmd = none) → (∀ e ∈ s.fns, e.2.undone = []) → jobs = [])) ∧
    (s.panel.shep ≠ 105 → exec .shepherdTakeover s = .next s)

-- The commands of the Shepherd (03, 19)

/-- R59, R66, R477, R478: what turns a command away writes its completion and changes nothing else. During a hold every command but
ATTEST and a renewing SESSION_OPEN completes with EXPIRED; without a hold, flags that mean nothing give BAD_OPCODE, a PF command
of a VF gives DENIED, a handle never given BAD_HANDLE, and a DESTROYED paddock BAD_STATE, the page commands among them with any pages
that their row allows. (The last command number of a session, which also voids it, is left to R62. Assumption log 3: a completion goes
to host memory as the model keeps it; 13: with a page count of 0, PAGE_RELEASE and PAGE_ACCEPT too look at the handle and the state first,
since their rules name DENIED for it; 62: what a session's own commands meet.) -/
def Obligations.CommandRefusals : Prop :=
  ∀ (s : State) (c : Command), c.seq.toNat + 1 < 2 ^ 64 →
    let out := fun (op : Nat) (i : Instr) (st : Nat) => exec i s = .next (s.done op c st 0 0)
    let all := [(0x01, Instr.create c), (0x02, .loadImage c), (0x03, .start c), (0x04, .mbwrite c), (0x05, .preempt c),
      (0x06, .resume c), (0x07, .move c), (0x08, .pageRelease c), (0x09, .pageAccept c), (0x0A, .read c), (0x0B, .destroy c),
      (0x0E, .heartbeat c), (0x0F, .resync c), (0x10, .setBudget c), (0x11, .qconf c), (0x12, .dieResume c),
      (0x13, .hostMap c), (0x14, .hostUnmap c)]
    let held := (s.fn c.fn).hold ≠ none
    let zero := c.flags = 0 ∧ c.arg0 = 0 ∧ c.arg1 = 0 ∧ c.arg2 = 0 ∧ c.arg3 = 0
    let some2MiB := fun (a : W64) (n lo hi : Nat) => a.toNat % 2097152 = 0 ∧ lo ≤ a.toNat ∧ 0 < n ∧ a.toNat + n * 2097152 ≤ hi
    let pages := [(0x08, Instr.pageRelease c), (0x09, .pageAccept c)]
    (held → (∀ x ∈ all, out x.1 x.2 0x09) ∧ (c.flags.getLsbD 0 = false → out 0x0D (.sessionOpen c) 0x09)) ∧
    (¬ held → c.flags ≠ 0 → (∀ x ∈ all, out x.1 x.2 0x01) ∧ out 0x0C (.attest c) 0x01) ∧
    (¬ held ∨ c.flags.getLsbD 0 = true → c.flags.toNat % 256 / 2 ≠ 0 → out 0x0D (.sessionOpen c) 0x01) ∧
    (¬ held → c.flags = 0 → c.fn ≠ 0 →
      out 0x10 (.setBudget c) 0x04 ∧ out 0x11 (.qconf c) 0x04 ∧ out 0x12 (.dieResume c) 0x04) ∧
    (¬ held → zero → FMap.get? s.pads c.key = none → ∀ x ∈ all, 0x02 ≤ x.1 ∧ x.1 ≤ 0x0B → out x.1 x.2 0x02) ∧
    (¬ held → zero → FMap.get? s.pads c.key = some (s.padAt c.key) → (s.padAt c.key).state = .destroyed →
      ∀ x ∈ all, 0x02 ≤ x.1 ∧ x.1 ≤ 0x0B → out x.1 x.2 0x03) ∧
    (∀ st, (FMap.get? s.pads c.key = none ∧ st = 0x02 ∨
        FMap.get? s.pads c.key = some (s.padAt c.key) ∧ (s.padAt c.key).state = .destroyed ∧ st = 0x03) → ¬ held → c.flags = 0 →
      (some2MiB c.arg0 c.arg1.toNat 0x100000000000 0x200000000000 → c.arg2 = 0 → c.arg3 = 0 → ∀ x ∈ pages, out x.1 x.2 st) ∧
      (some2MiB c.arg0 c.arg2.toNat 0x300000000000 0x400000000000 →
        (c.arg1.toNat % 2097152 = 0 → c.arg3 ≠ 0 → c.arg3.toNat < 4 → out 0x13 (.hostMap c) st) ∧
        (c.arg1 = 0 → c.arg3 = 0 → out 0x14 (.hostUnmap c) st)))

/-- R59, R71, R80, R158, R159, R434, R457, R478: the commands that make, place, ask and end paddocks, each where its checks
pass. CREATE gives a handle that no live paddock of the function has, in EMPTY; LOAD_IMAGE of an image that its checks accept
makes it LOADED, where the adapter reaches the buffer (hostOk, a free value); START and RESUME place the paddock where a legal
placement exists, at a legal one, and make it RUNNING, and give NO_PLACE where none exists; a RESUME whose save image has a line
that fails its check ends with AUTH and the paddock DESTROYED, reason 0x0B; MBWRITE reaches the tile or all tiles, at once, latched
or on its way by the state and mode; PREEMPT and MOVE join the paddock's waiting requests without a completion yet, due at the pause
point it stands stopped at, else at one within 1,024 cycles of any pause point taken after it and not before an earlier request's;
READ copies its words to the host; DESTROY leaves the paddock DESTROYED. Which legal placement is taken is a free value.
(Assumption log 3 and 36: host memory, and MBWRITE before the paddock runs; 12, 16: budgets and handles; 22: the placement drawn; 26:
the request's delay; 32: the save space; 33: when START and RESUME complete; 38: the save image; 60: image bits; 61: MOVE's target.) -/
def Obligations.PaddockCommands : Prop :=
  ∀ (s : State) (c : Command), (s.fn c.fn).hold = none → c.seq.toNat + 1 < 2 ^ 64 → c.flags = 0 →
    let k := c.key
    let p := s.padAt k
    let none' := c.arg0 = 0 ∧ c.arg1 = 0 ∧ c.arg2 = 0 ∧ c.arg3 = 0
    let placed := fun (t : State) (word : W64) => s.placeOk k p word = true ∧ (t.padAt k).state = .running ∧
      (t.padAt k).place = word ∧ (t.padAt k).freeze = some (.release (s.dtick + 1 + p.shape.bMax word))
    let fits := fun n => n < 102400 ∧ s.placeOk k p (placeWordOf n) = true
    let asks := fun (i : Instr) (r : Req) => ∃ t q, exec i s = .next t ∧ (t.padAt k).pending = p.pending ++ [q] ∧
      q.req = r ∧ q.cmd = some c ∧ q.deadline = none ∧ (p.atPause = true → q.due = p.rtick - 1) ∧
      (p.atPause = false → p.rtick < q.due ∧ (∀ x ∈ p.pending, x.req.spreads = true → x.due ≤ q.due) ∧
        ((∀ x ∈ p.pending, x.req.spreads = true → x.due ≤ p.rtick + 1025) → q.due ≤ p.rtick + 1025)) ∧
      t.fns = s.fns ∧ t.panel = s.panel
    (none' → (s.liveHandles c.fn).length < 256 → ∃ (t : State) (h : Nat),
      exec (.create c) s = .next (t.done 0x01 { c with handle := BitVec.ofNat 16 h } 0 (w64 h) 0) ∧ h < 65535 ∧
      padKey c.fn h ∉ s.liveHandles c.fn ∧ t.padAt (padKey c.fn h) = { Paddock.init with fn := c.fn, handle := h } ∧
      (∀ j, j ≠ padKey c.fn h → t.padAt j = s.padAt j) ∧
      ∀ l, (s.fn c.fn).lastHandle = some l → l < 65534 → padKey c.fn (l + 1) ∉ s.liveHandles c.fn → h = l + 1) ∧
    (FMap.get? s.pads k = some p →
      (c.arg2 = 0 → c.arg3 = 0 → p.state = .empty → 64 ≤ c.arg1.toNat →
        let m := imageOf (s.hostRead c.fn c.arg0.toNat c.arg1.toNat)
        let st := if hostOk c.fn c.arg0.toNat c.arg1.toNat then m.status c.fn (capsReg s.panel.retire2) else 0x0A
        (st ≠ 0 → exec (.loadImage c) s = .next (s.done 0x02 c st 0 0)) ∧
        (st = 0 → ∃ t : State, exec (.loadImage c) s = .next (t.done 0x02 c 0 0 0) ∧ (t.padAt k).state = .loaded ∧
          (t.padAt k).shape = m.shape ∧ (t.padAt k).tiles = m.tilesOf ∧ (t.padAt k).folds = m.foldsOf)) ∧
      (none' → p.state = .loaded → (s.fn c.fn).nextBudget ≠ 0 → p.chans = [] → p.shape.w ≤ 80 → p.shape.h ≤ 80 →
        s.saveSpaceOk p p.shape.chan = true → (∃ n, fits n) →
        ∃ t word, exec (.start c) s = .next t ∧ placed t word ∧ t.fns = s.fns ∧
          t.panel.awaits = s.panel.awaits ++ [{ op := 0x03, cmd := c, pads := [k], res := word }]) ∧
      (none' → p.state = .loaded → (s.fn c.fn).nextBudget ≠ 0 → (∀ n, ¬ fits n) →
        exec (.start c) s = .next (s.done 0x03 c 0x05 0 0)) ∧
      (none' → p.state = .preempted → (∀ n, ¬ fits n) → exec (.resume c) s = .next (s.done 0x06 c 0x05 0 0)) ∧
      (none' → p.state = .preempted → p.shape.w ≤ 80 → p.shape.h ≤ 80 → (∃ n, fits n) → p.badSave ≠ [] →
        let u := (s.done 0x06 c 0x07 0 0).destroyPad k
        exec (.resume c) s = .next (u.event p.fn 0x0A p.handle 0x0B 0) ∧ (u.padAt k).state = .destroyed) ∧
      (none' → p.state = .preempted → p.badSave = [] → p.shape.w ≤ 80 → p.shape.h ≤ 80 → (∃ n, fits n) →
        (∀ e ∈ p.tiles, e.2.wantsNotice = false) →
        ∃ (t : State) (word : W64), exec (.resume c) s = .next (t.done 0x06 c 0 word 0) ∧ placed t word) ∧
      (p.state ∈ [PState.loaded, .running, .preempted] → c.arg3 = 0 → c.arg1.toNat < 16 →
        (c.arg0 = 0xFFFFFFFF ∨ c.arg0.toNat < p.shape.tiles) → c.arg0.toNat < 2 ^ 32 →
        ∃ t : State, exec (.mbwrite c) s = .next (t.done 0x04 c 0 0 0) ∧ ∀ j x, FMap.get? p.tiles j = some x →
          FMap.get? (t.padAt k).tiles j = some (
            if c.arg0 = 0xFFFFFFFF ∨ c.arg0.toNat = j then
              (if p.state ≠ .running then { x with mbox := FMap.put x.mbox c.arg1.toNat c.arg2 }
               else if p.strict then { x with mboxLatch := x.mboxLatch ++ [(c.arg1.toNat, c.arg2)] }
               else { x with mboxIn := x.mboxIn ++ [(c.arg1.toNat, c.arg2)] })
            else x)) ∧
      (none' → p.state = .running → asks (.preempt c) .preempt) ∧
      (c.arg1 = 0 → c.arg2 = 0 → c.arg3 = 0 → p.state = .running → asks (.move c) (.move c.arg0)) ∧
      (∀ ws : List W64, c.arg3 = 0 → p.state ∈ [PState.halted, .preempted] → c.arg0.toNat % 8 = 0 →
        c.arg2.toNat = 8 * ws.length → (∀ i, i < ws.length → s.savedWord k (c.arg0.toNat + 8 * i) = some (ws[i]?)) →
        let bs := ws.flatMap fun w => natLE 8 w.toNat
        let ok := hostOk c.fn c.arg1.toNat c.arg2.toNat
        exec (.read c) s = .next (if ok then (s.hostWrite c.fn c.arg1.toNat bs).done 0x0A c 0 0 0xFFFFFFFFFFFFFFFF
          else (s.hostWrite c.fn c.arg1.toNat (bs.take (hostReach c.fn c.arg1.toNat c.arg2.toNat))).done 0x0A c 0x0A 0 0)) ∧
      (none' → p.state ≠ .destroyed → ∃ t : State, exec (.destroy c) s = .next (t.done 0x0B c 0 0 0) ∧
        (t.padAt k).state = .destroyed ∧ (t.padAt k).tiles = [] ∧ (∀ j, j ≠ k → t.padAt j = s.padAt j) ∧
        t.panel.owners = s.panel.owners.filter fun o => o.2 != k))

/-- R56, R61, R63, R65 to R67, R72, R73, R458, R461: the page commands wait for a pause point of a RUNNING paddock and else take effect at
once: pages given back are absent and keep their attributes (assumption log 66), pages accepted are present, HOST pages gain their
entries or become absent; ATTEST puts a report with the nonce and its signature into the buffer; SESSION_OPEN starts a session that
expects number 1, and the renewing form ends a hold and gives the held paddocks back; HEARTBEAT restarts the timer; RESYNC sets the
number expected and clears the halt; SET_BUDGET is for the next window; QCONF sets level and pin; DIE_RESUME of a cool die takes it back
into service, and a paddock frozen for its heat goes on by a release wave of B_max + 1 dticks. (Assumption log 13, 14, 15, 19: statuses
and checks the spec leaves open; 3, 20, 21: host memory, the signatures and the curve; 33: how long the release wave lasts; 34: which
positions lose their channel; 62: what a renewal finds.) -/
def Obligations.PageAndFunctionCommands : Prop :=
  ∀ (s : State) (c : Command), c.seq.toNat + 1 < 2 ^ 64 → (c.flags = 1 ∨ (c.flags = 0 ∧ (s.fn c.fn).hold = none)) →
    let k := c.key
    let p := s.padAt k
    let f := s.fn c.fn
    let asks := fun (i : Instr) (r : Req) => ∃ t q, exec i s = .next t ∧ (t.padAt k).pending = p.pending ++ [q] ∧
      q.req = r ∧ q.cmd = some c ∧ q.deadline = none ∧ q.due = (if p.atPause = true then p.rtick - 1 else p.rtick) ∧
      t.fns = s.fns
    let opens := hostOk c.fn c.arg0.toNat 97 && hostOk c.fn (c.arg0.toNat + 128) 193 &&
      pointOk (s.hostRead c.fn c.arg0.toNat 97)
    let hbm := c.arg0.toNat % 2097152 = 0 ∧ 0x100000000000 ≤ c.arg0.toNat ∧ c.arg0.toNat < 0x200000000000 ∧ c.arg1 ≠ 0 ∧
      c.arg2 = 0 ∧ c.arg3 = 0 ∧ hbmPage c.arg0 + c.arg1.toNat ≤ p.shape.chan * 625
    let page := fun i => hbmPage c.arg0 + i
    let hostRange := c.arg0.toNat % 2097152 = 0 ∧ 0x300000000000 ≤ c.arg0.toNat ∧ c.arg2 ≠ 0 ∧
      c.arg0.toNat + c.arg2.toNat * 2097152 ≤ 0x400000000000
    let hostAt := fun i => (c.arg0.toNat - 0x300000000000) / 2097152 + i
    (c.flags = 0 → FMap.get? s.pads k = some p → FMap.sorted p.hostPages = true → FMap.sorted p.pages = true →
      (p.state = .running → p.pending = [] →
        (hbm → (∀ i, i < c.arg1.toNat → bit (p.hbmEntry (page i)) 63 = true) →
          asks (.pageRelease c) (.release c.arg0 c.arg1.toNat)) ∧
        (hbm → (∀ i, i < c.arg1.toNat → bit (p.hbmEntry (page i)) 63 = false) →
          asks (.pageAccept c) (.accept c.arg0 c.arg1.toNat)) ∧
        (hostRange → c.arg1.toNat % 2097152 = 0 → c.arg3 ∈ [1, 2, 3] →
          (∀ i, i < c.arg2.toNat → bit (p.hostEntry (hostAt i)) 63 = false) →
          asks (.hostMap c) (.hostMap c.arg0 c.arg1 c.arg2.toNat c.arg3.toNat)) ∧
        (hostRange → c.arg1 = 0 → c.arg3 = 0 → (∀ i, i < c.arg2.toNat → bit (p.hostEntry (hostAt i)) 63 = true) →
          asks (.hostUnmap c) (.hostUnmap c.arg0 c.arg2.toNat))) ∧
      (p.state = .preempted → p.pending = [] →
        (hbm → p.nextSwitch = none → (∀ i, i < c.arg1.toNat → bit (p.hbmEntry (page i)) 63 = true) →
          ∃ t : State, exec (.pageRelease c) s = .next (t.done 0x08 c 0 0 0) ∧
            ∀ i, i < c.arg1.toNat → (t.padAt k).hbmEntry (page i) =
              p.hbmEntry (page i) &&& ~~~(fld 1 63 ||| fld 1 62 ||| span 39 0)) ∧
        (hbm → (∀ i, i < c.arg1.toNat → bit (p.hbmEntry (page i)) 63 = false) →
          (∀ i, i < p.shape.chan → ∃ ch, p.chans[i]? = some (some ch)) →
          ∃ t : State, exec (.pageAccept c) s = .next (t.done 0x09 c 0 0 0) ∧
            ∀ i, i < c.arg1.toNat → (t.padAt k).hbmEntry (page i) = hbmDefault p.shape.world) ∧
        (hostRange → c.arg1.toNat % 2097152 = 0 → c.arg3 ∈ [1, 2, 3] →
          (∀ i, i < c.arg2.toNat → bit (p.hostEntry (hostAt i)) 63 = false) →
          ∃ t : State, exec (.hostMap c) s = .next (t.done 0x13 c 0 0 0) ∧ ∀ i, i < c.arg2.toNat →
            ∃ g, FMap.get? (t.padAt k).hostPages (hostAt i) = some g ∧ g.base = c.arg1.toNat + i * 2097152 ∧
              g.entry = (fld 1 63 ||| fld 4 59 ||| fld 3 57 ||| fld p.shape.world 49 |||
                fld (8 * (c.arg3.toNat % 2) + 4 * (c.arg3.toNat / 2) + 1) 45 ||| fld (g.base / 2097152 % 2 ^ 40) 0)) ∧
        (hostRange → c.arg1 = 0 → c.arg3 = 0 → (∀ i, i < c.arg2.toNat → bit (p.hostEntry (hostAt i)) 63 = true) →
          ∃ t : State, exec (.hostUnmap c) s = .next (t.done 0x14 c 0 0 0) ∧
            ∀ i, i < c.arg2.toNat → (t.padAt k).hostEntry (hostAt i) = p.hostEntry (hostAt i) &&& ~~~(fld 1 63)))) ∧
    (c.flags = 0 → c.arg1 = 0 → c.arg2 = 0 → c.arg3 = 0 → (c.handle.toNat = 0xFFFF ∨ FMap.get? s.pads k ≠ none) →
      ∃ rep sig : List Byte, rep.length = 240 ∧ sig.length = 96 ∧
        (rep.drop 16).take 32 = s.hostRead c.fn c.arg0.toNat 32 ∧
        (c.handle.toNat = 0xFFFF → rep.drop 96 = List.replicate 144 0) ∧
        exec (.attest c) s = .next (if hostOk c.fn c.arg0.toNat 336 then
          (s.hostWrite c.fn c.arg0.toNat (rep ++ sig)).done 0x0C c 0 0 0 else s.done 0x0C c 0x0A 0 0)) ∧
    (c.fn ≠ 0 → c.arg1 = 0 → c.arg2 = 0 → c.arg3 = 0 → (c.flags = 0 → s.liveHandles c.fn = []) →
      (c.flags = 1 → f.session ≠ none) →
      if opens = true then
        ∃ (t : State) (x : Session), exec (.sessionOpen c) s = .next (t.done 0x0D c 0 0 0) ∧ (t.fn c.fn).session = some x ∧
          x.expected = 1 ∧ x.heard = s.dtick ∧ (t.fn c.fn).void = false ∧ (t.fn c.fn).hold = none ∧
          ∀ j q, FMap.sorted s.pads = true → FMap.get? s.pads j = some q → j ∈ s.liveHandles c.fn →
            if q.state = .held then (t.padAt j).state = q.heldFrom
            else (t.padAt j).state = q.state ∧ (t.padAt j).pending = q.pending.filter (·.req != .seal)
      else exec (.sessionOpen c) s = .next (s.done 0x0D c 0x0A 0 0)) ∧
    (c.flags = 0 → c.arg0 = 0 → c.arg1 = 0 → c.arg2 = 0 → c.arg3 = 0 →
      (∀ x, f.session = some x → s.dtick < x.heard + 16000000000) →
      exec (.heartbeat c) s = .next ((s.setFn c.fn { f with session := f.session.map fun x =>
        { x with heard := s.dtick } }).done 0x0E c 0 0 0)) ∧
    (∀ x, c.flags = 0 → c.arg1 = 0 → c.arg2 = 0 → c.arg3 = 0 → f.halt = 1 → f.session = some x → x.top < c.arg0.toNat →
      exec (.resync c) s = .next ((s.setFn c.fn
        { f with session := some { x with expected := c.arg0.toNat + 1 }, halt := 0, recheck := false }).done 0x0F c 0 0 0)) ∧
    (c.flags = 0 → c.fn = 0 → c.arg2 = 0 → c.arg3 = 0 → c.arg0.toNat ≤ 192 →
      (((s.fns.filter (·.1 != c.arg0.toNat)).foldl (fun t e => t + e.2.nextBudget) 0) + c.arg1.toNat ≤ 2048000000000 →
        exec (.setBudget c) s = .next ((s.modFn c.arg0.toNat fun g => { g with nextBudget := c.arg1.toNat }).done 0x10 c 0 0 0)) ∧
      (c.arg1.toNat < 8 → exec (.qconf c) s = .next ((s.modFn c.arg0.toNat fun g =>
        { g with level := c.arg1.toNat % 4, pinned := decide (4 ≤ c.arg1.toNat) }).done 0x11 c 0 0 0))) ∧
    (∀ x y, c.flags = 0 → c.fn = 0 → c.arg1 = 0 → c.arg2 = 0 → c.arg3 = 0 → x < 20 → y < 20 → c.arg0 = w64 (x + 256 * y) →
      c.handle.toNat = 0xFFFF → s.panel.awaits = [] →
      let d := s.panel.die (siteKey x y)
      (d.hot = true ∨ d.stopped = true) → d.temp < 95 →
      ((∀ e ∈ s.pads, e.2.freeze ≠ some .thermal) →
        ∃ t u : State, exec (.dieResume c) s = .next t ∧ t = u.done 0x12 c 0 0 0 ∧ u.fns = s.fns ∧
          t.panel.die (siteKey x y) = { d with hot := false, stopped := false }) ∧
      (∀ j q, s.pads = [(j, q)] → q.state = .running → q.freeze = some .thermal → q.pending = [] →
        (∀ z ∈ q.shape.dies q.place, z = siteKey x y ∨ (s.panel.die z).hot = false) →
        (∀ e ∈ q.tiles, e.2.wantsNotice = false) →
        ∃ t : State, exec (.dieResume c) s = .next t ∧ t.fns = s.fns ∧
          t.panel.awaits = [{ op := 0x12, cmd := c, pads := [j], res := 0 }] ∧
          (t.padAt j).freeze = some (.release (s.dtick + 1 + q.shape.bMax q.place)) ∧ (t.padAt j).rtick = q.rtick ∧
          t.panel.die (siteKey x y) = { d with hot := false, stopped := false }))

-- The registers the host writes (03, 04, 15, 18, 20)

/-- R53 to R57, R94, R400, R446: a host write to a register of the function's block. NOTIFY takes a new tail (halting the ring with
RING_OVF beyond its size, latching where no slot is held, and counting in PENDCNT where every slot is pinned, the first with an
ALL_PINNED event of the PF), KHEAD lets a waiting entry be written, RCFG sets sizes while EN is 0, starts the ring afresh, and clears
EN, which holds what was to be written; TCFG and THEAD configure the trace ring; HOST_REGISTER_WRITE acts as each of these at its
offset, and a register of plain storage then reads back what its fields hold; unlisted offsets and a VF's BAR2 ignore it. (Assumption
log 17, 18: what a disabled ring keeps; 29: widths of the registers; 61: an RCFG write that clears EN.) -/
def Obligations.HostRegisterWrites : Prop :=
  ∀ (s : State) (n : Nat) (v : W64),
    let f := s.fn n
    let on := f.rcfg.getLsbD 31 = true
    let size := 2 ^ (bits f.rcfg 3 0 + 6)
    let d := (bits v 31 0 + 2 ^ 32 - f.head % 2 ^ 32) % 2 ^ 32
    let back := fun (bar : Bar) (off : Nat) (w : W64) =>
      ∃ t, exec (.hostRegisterWrite n bar off v) s = .next t ∧ t.hostReg n bar off = w
    (on → f.halt ≠ 2 → 0 < d → d ≤ size → f.mapped = true →
      exec (.notify n v) s = .next (s.setFn n { f with tail := bits v 31 0, recheck := f.halt == 1 })) ∧
    (on → f.halt ≠ 2 → 0 < d → d ≤ size → f.mapped = false → s.allPinned = false →
      exec (.notify n v) s = .next (s.setFn n
        { f with tail := bits v 31 0, recheck := f.halt == 1, pendingMap := true })) ∧
    (on → f.halt ≠ 2 → 0 < d → d ≤ size → f.mapped = false → s.allPinned = true →
      let t := s.setFn n { f with tail := bits v 31 0, recheck := f.halt == 1, pendingMap := true, pendcnt := f.pendcnt + 1 }
      exec (.notify n v) s = .next (if f.pendcnt = 0 then t.event 0 0x03 0xFFFF (w64 n) 0 else t)) ∧
    (on → f.halt ≠ 2 → size < d → exec (.notify n v) s = .next ((s.setFn n { f with halt := 2 }).event n 0x07 0xFFFF 0 0)) ∧
    (¬ on ∨ f.halt = 2 ∨ d = 0 → exec (.notify n v) s = .next s) ∧
    (f.blocked = [] → exec (.khead n v) s = .next (s.setFn n { f with khead := bits v 31 0 })) ∧
    (∀ ws, f.blocked = [ws] → on → diff32 f.ktail (bits v 31 0) ≠ f.compSize →
      exec (.khead n v) s = .next ((s.setFn n { f with khead := bits v 31 0, blocked := [] }).putEntry n ws)) ∧
    (¬ on → bits v 3 0 ≤ 10 → bits v 7 4 ≤ 10 → v.getLsbD 31 = false →
      exec (.rcfgWrite n v) s = .next (s.setFn n { f with rcfg := v &&& 0x800000FF })) ∧
    (¬ on → bits v 3 0 ≤ 10 → bits v 7 4 ≤ 10 → v.getLsbD 31 = true → f.held = [] →
      ∃ t, exec (.rcfgWrite n v) s = .next t ∧ (t.fn n).rcfg = v &&& 0x800000FF ∧ (t.fn n).head = 0 ∧ (t.fn n).tail = 0 ∧
        (t.fn n).ktail = 0 ∧ (t.fn n).khead = 0 ∧ (f.halt = 2 → (t.fn n).halt = 0) ∧ t.host = s.host) ∧
    (¬ on → 10 < bits v 3 0 ∨ 10 < bits v 7 4 → exec (.rcfgWrite n v) s = .next s) ∧
    (on → v.getLsbD 31 = true → exec (.rcfgWrite n v) s = .next s) ∧
    (on → v.getLsbD 31 = false → exec (.rcfgWrite n v) s = .next (s.setFn n
      { f with rcfg := f.rcfg &&& 0xFF, held := f.blocked ++ f.held, blocked := [] })) ∧
    (f.session = none → f.dbg.tcfg.getLsbD 63 = false → exec (.tcfgWrite n v) s = .next (s.setFn n { f with dbg :=
      { f.dbg with tcfg := v &&& 0xFE0F00FF00000000, tdrop := if v.getLsbD 63 then 0 else f.dbg.tdrop } })) ∧
    (f.session = none → f.dbg.tcfg.getLsbD 63 = true → v.getLsbD 63 = false → exec (.tcfgWrite n v) s = .next (s.setFn n { f with dbg :=
      { f.dbg with tcfg := v &&& 0xFE0F00FF00000000 } })) ∧
    (f.session ≠ none ∨ (f.dbg.tcfg.getLsbD 63 = true ∧ v.getLsbD 63 = true) → exec (.tcfgWrite n v) s = .next s) ∧
    exec (.thead n v) s = .next (s.setFn n { f with dbg := { f.dbg with thead := bits v 31 0 } }) ∧
    (exec (.hostRegisterWrite n .bar0 0x00 v) s = exec (.notify n v) s ∧
      exec (.hostRegisterWrite n .bar0 0x18 v) s = exec (.rcfgWrite n v) s ∧
      exec (.hostRegisterWrite n .bar0 0x28 v) s = exec (.khead n v) s ∧
      exec (.hostRegisterWrite n .bar4 0x38 v) s = exec (.tcfgWrite n v) s ∧
      exec (.hostRegisterWrite n .bar4 0x48 v) s = exec (.thead n v) s ∧
      exec (.hostRegisterWrite 0 .bar2 0x400 v) s = exec (.pcommit v) s ∧
      exec (.hostRegisterWrite 0 .bar2 0x1808 v) s = exec (.einjctlGo v) s ∧
      exec (.hostRegisterWrite 0 .bar2 0x1900 v) s = exec (.panelnoWrite v) s) ∧
    (¬ on → back .bar0 0x08 (v &&& 0xFFFFFFFFFFFFF000) ∧ back .bar0 0x10 (v &&& 0xFFFFFFFFFFFFF000)) ∧
    (on → back .bar0 0x08 f.cbase ∧ back .bar0 0x10 f.kbase) ∧
    back .bar4 0x00 (v &&& 0xFFFF) ∧ back .bar4 0x18 (v &&& 0xFFFFFFFFFFFFFFC0) ∧ back .bar4 0x20 (v &&& 0xFFFFFFFF) ∧
    back .bar4 0x30 (v &&& 0xFFFFFFFFFFFFF000) ∧ back .bar4 0x58 (v &&& 0xFFFFFFFFFFFFFFE0) ∧
    back .bar4 0x60 (v &&& 0xFFFFFFFF) ∧ (n = 0 → back .bar2 0x1800 (v &&& 0x000003FFFFF7FFFF)) ∧
    (n ≠ 0 → ∀ off, exec (.hostRegisterWrite n .bar2 off v) s = .next s) ∧
    (∀ off, off ∉ [0x00, 0x08, 0x10, 0x18, 0x28] → exec (.hostRegisterWrite n .bar0 off v) s = .next s)

/-- R442, R443, R446 to R451, R454: the debug block's commands, where no session protects the function. STOP of a RUNNING
paddock is a request, GO of a stopped one its release, DUMP writes the stop record of the tile it names (its program counter,
stint, last cycle, queue states and summary) to the buffer, as far as the adapter reaches, and nothing else, ARM of a LOADED one
reads the log; a command without its paddock or state only sets the error. The bellwether's commands go as messages to the
panels it serves. A trace record leaves its source for the function's ring, which it tells by its tail. (Assumption log 3: host memory;
30: the order in which sources reach the ring; 33: how long the release wave of GO lasts, dtick + 1 + B_max; 41: repeated stops.) -/
def Obligations.DebugCommands : Prop :=
  ∀ (s : State) (n : Nat) (v : W64),
    let f := s.fn n
    let k := s.debugPad n
    let p := s.padAt k
    let err := fun e => s.setFn n { f with dbg := { f.dbg with err := e } }
    let recorded := fun (t : State) (r : TraceRec) => (t.fn n).dbg.ttail = (f.dbg.ttail + 1) % 2 ^ 32 ∧ t.cur = s.cur ∧
      t.host = (s.hostWrite n (f.dbg.tbase.toNat + 32 * (f.dbg.ttail % f.dbg.ringSize))
        (r.words.flatMap fun w => natLE 8 w.toNat)).host
    let live := FMap.get? s.pads k = some p ∧ p.state ≠ .destroyed
    (f.session ≠ none → ∀ i ∈ [Instr.debugStop n, .debugGo n, .dump n, .arm n], exec i s = .next s) ∧
    (f.session = none →
      (FMap.get? s.pads k = none → ∀ i ∈ [Instr.debugStop n, .debugGo n, .dump n, .arm n], exec i s = .next (err 1)) ∧
      (live → (p.state ≠ .running → ∀ i ∈ [Instr.debugStop n, .debugGo n, .dump n], exec i s = .next (err 2)) ∧
        (p.state ≠ .loaded → exec (.arm n) s = .next (err 2)) ∧
        (p.state = .running → p.dbg.state = 0 → ∃ t q, exec (.debugStop n) s = .next t ∧
          (t.padAt k).pending = p.pending ++ [q] ∧ q.req = .stop ∧ q.deadline = none ∧ (t.padAt k).dbg.state = 1 ∧
          (t.padAt k).freeze = p.freeze ∧ t.fns = (err 0).fns) ∧
        (p.state = .running → (p.dbg.state = 3 ∨ (p.dbg.state = 2 ∧ ∀ e ∈ p.tiles, e.2.wantsNotice = false)) →
          p.freeze = some .stop → p.pending = [] → ∃ t, exec (.debugGo n) s = .next t ∧
          (t.padAt k).dbg.state = 0 ∧ (t.padAt k).freeze = some (.release (s.dtick + 1 + p.shape.bMax p.place)) ∧
          (t.padAt k).rtick = p.rtick) ∧
        (∀ x, p.state = .running → 2 ≤ p.dbg.state → p.freeze = some .stop →
          FMap.get? p.tiles (bits f.dbg.dtile 31 0) = some x → bits f.dbg.dtile 31 0 ≠ 0xFFFFFFFF →
          ∃ ws : List W64, ws.length = 8 ∧ ws[0]? = some (24 * x.core.pc) ∧
            ws[1]? = some (w64 p.stint) ∧ ws[2]? = some (w64 (p.rtick - 1)) ∧ ws[3]? = some x.mq.stat ∧
            ws[4]? = some x.vq.stat ∧ ws[5]? = some x.dq.stat ∧ ws[7]? = some 0 ∧
            (∀ w, ws[6]? = some w → x.dr.held.length < 256 → bits w 7 0 = x.dr.held.length ∧
              w.getLsbD 8 = (!x.vec.pend.isEmpty) ∧ w.getLsbD 9 = (!x.mx.prods.isEmpty) ∧ w.getLsbD 10 = x.wasDown ∧
              w.getLsbD 11 = x.core.isStalled) ∧
            exec (.dump n) s = .next ((err 0).hostWrite n (bits f.dbg.ddump 63 6 * 64)
              ((ws.flatMap fun w => natLE 8 w.toNat).take (hostReach n (bits f.dbg.ddump 63 6 * 64) 64)))) ∧
        (p.state = .loaded → bits f.dbg.rcnt 31 0 = 1 →
          let w := fun i => w64 (leNat (s.hostRead n (bits f.dbg.rbase 63 5 * 32 + 8 * i) 8))
          ∃ t, exec (.arm n) s = .next t ∧ (t.padAt k).dbg.armed = if bits (w 0) 63 56 = 8 then
            [{ time := (w 2).toNat, tile := bits (w 0) 31 0, mbox := bits (w 0) 51 48, value := w 3, seq := (w 1).toNat }]
            else []))) ∧
    (∀ m, m < 32 → (s.fn 0).session = none → (s.fn 0).dbg.dpod = fld 1 63 ||| fld 1 m → m ≠ s.panel.panelno.toNat % 32 →
      (∃ x, exec (.dpodcmdStop v) s = .next { s with panel := { s.panel with
        outbox := s.panel.outbox ++ [(m, s.dtick + 1, x)] } } ∧ x.body = .stop (bits v 31 16)) ∧
      (∃ t x, exec (.dpodcmdGo v) s = .next t ∧ t.panel = { s.panel with outbox := s.panel.outbox ++ [(m, s.dtick + 1, x)] } ∧
        x.body = .go (bits v 31 16) ∧ (t.fn 0).dbg.podstat = 0)) ∧
    ((s.fn 0).dbg.dpod.getLsbD 63 = false → exec (.dpodcmdStop v) s = .next s ∧ exec (.dpodcmdGo v) s = .next s) ∧
    (f.dbg.tcfg.getLsbD 63 = true → f.session = none → diff32 f.dbg.ttail f.dbg.thead ≠ f.dbg.ringSize →
      (∀ r rest, s.panel.shepBuf = (n, r) :: rest → s.pads = [] →
        ∃ t, exec .traceRecordWrite s = .next t ∧ t.panel.shepBuf = rest ∧ recorded t r) ∧
      (∀ k q i x r rest, s.panel.shepBuf = [] → s.pads = [(k, q)] → q.fn = n → q.tiles = [(i, x)] → x.obs.buf = r :: rest →
        ∃ t, exec .traceRecordWrite s = .next t ∧ (t.tileOf k i).obs.buf = rest ∧ recorded t r))

-- Power, resets, pastures, heat and repair (01, 04, 19, 20)

/-- R24, R53, R94 to R96, R400, R464, R469, R475, R478: POWER_ON and RESET leave the reset state but for what lasts: the fuses'
remap table and log, and over RESET the dies' error counts; FUNCTION_LEVEL_RESET destroys the function's paddocks and starts its
block and handle count afresh, its budget kept and its debt cleared. PCOMMIT applies the staged pastures at once where no paddock
stands in the way, and else asks each such paddock to give way; a paddock that does not in time fails the request and is
destroyed. PANELNO changes while no paddock holds a placement or a saved state. EINJCTL inverts the bits of one pool word that its
code has yet to meet, where a paddock stands and where none does; of a tile that a row shift has copied there already, and of no tile
where the one that stands there has been copied away. (Assumption log 7: reset values the spec does not state; 9: host
writes as rows; 12: a function-level reset leaves no debt; 35: which words the copies of a row shift meet and bring along; 42: what each
reset keeps; 61: a staged byte above 63; 63: the deadline in region cycles.) -/
def Obligations.PowerAndPanel : Prop :=
  ∀ s : State, FMap.sorted s.pads = true →
    let lasts := fun (t : State) => t.pads = [] ∧ t.fns = [] ∧ t.agenda = [] ∧ t.panel.remap = s.panel.remap ∧
      t.panel.log = s.panel.log ∧ t.panel.panelno = 0 ∧ t.panel.diePast = [] ∧ t.panel.dieLive = [] ∧ t.panel.dies = [] ∧
      t.panel.shep = 105 ∧ t.panel.retire2 = s.panel.retire2 - w64 s.panel.shifted ∧ t.host = s.host
    (∃ t, exec .powerOn s = .next t ∧ lasts t ∧ t.dtick = 0 ∧ t.panel.power = s.panel.power + 1 ∧ t.panel.errs = []) ∧
    (∃ t, exec .reset s = .next t ∧ lasts t ∧ t.panel.power = s.panel.power ∧ t.panel.errs = s.panel.errs) ∧
    (∀ n, ∃ t, exec (.functionLevelReset n) s = .next t ∧ (∀ k ∈ s.liveHandles n, (t.padAt k).state = .destroyed) ∧
      (∀ k, k ∉ s.liveHandles n → t.padAt k = s.padAt k) ∧
      (t.fn n).rcfg = 0 ∧ (t.fn n).cbase = 0 ∧ (t.fn n).head = 0 ∧ (t.fn n).lastHandle = none ∧ (t.fn n).session = none ∧
      (t.fn n).worldKey = none ∧ (t.fn n).debt = 0 ∧ (t.fn n).used = Nat.min (s.fn n).used (s.fn n).budget ∧
      (t.fn n).budget = (s.fn n).budget ∧
      (t.fn n).nextBudget = (s.fn n).nextBudget ∧ (t.fn n).held = []) ∧
    (∀ v, v.getLsbD 0 = true → s.panel.pstat ≠ 1 → (∀ e ∈ s.pads, s.affected e.2 = false) →
      exec (.pcommit v) s = .next { s with
        panel := { s.panel with pstat := 0, dieLive := s.panel.diePast, fnLive := s.panel.fnPast }
        pads := s.pads.map fun e => (e.1, { e.2 with pending := e.2.pending.filter (·.req != .partition) }) }) ∧
    (∀ v k, v.getLsbD 0 = true → s.panel.pstat ≠ 1 → s.affectedPads = [k] → ∃ t q, exec (.pcommit v) s = .next t ∧
      t.panel = { s.panel with pstat := 1 } ∧ (t.padAt k).pending = (s.padAt k).pending ++ [q] ∧ q.req = .partition ∧
      q.deadline = some ((s.padAt k).rtick + (s.padAt k).shape.pauseMax + 65536, 2)) ∧
    (∀ v, v.getLsbD 0 = false ∨ s.panel.pstat = 1 → exec (.pcommit v) s = .next s) ∧
    (∀ k, s.panel.pstat = 1 → FMap.get? s.pads k = some (s.padAt k) → ∃ t, exec (.partitionRequestTimeout k) s = .next t ∧
      t.panel.pstat = 2 ∧ t.panel.dieLive = s.panel.dieLive ∧ t.panel.fnLive = s.panel.fnLive ∧
      t.panel.diePast = s.panel.diePast ∧ (t.padAt k).state = .destroyed ∧
      (∀ j, j ≠ k → (t.padAt j).pending = (s.padAt j).pending.filter (·.req != .partition)) ∧
      ∃ u : State, t = u.event (s.padAt k).fn 0x0A (s.padAt k).handle 0x212 0) ∧
    (∀ v, (∀ e ∈ s.pads, e.2.state ∉ [PState.running, .preempted, .halted]) →
      exec (.panelnoWrite v) s = .next { s with panel := { s.panel with panelno := v &&& 31 } }) ∧
    (∀ v, (∃ e ∈ s.pads, e.2.state ∈ [PState.running, .preempted, .halted]) → exec (.panelnoWrite v) s = .next s) ∧
    (∀ (v : W64) (die row pcol k i : Nat) (x : Tile), v.getLsbD 63 = true → einjTile s.panel.einjaddr = some (die, row, pcol) →
      s.panel.closed die row pcol = false → s.onPhys (die * 72 + row * 9 + pcol) = some (k, i) →
      (s.fn (s.padAt k).fn).session = none → FMap.get? (s.padAt k).tiles i = some x → FMap.sorted x.st.pool.errs = true →
      (∀ r ∈ s.panel.retires, ∀ e ∈ r.copied, e.1 ≠ { pad := k, tile := i }) →
      s.incoming (die * 72 + row * 9 + pcol) = none →
      let w := bits s.panel.einjaddr 41 24
      let b := bits v 5 0
      let mask := fld 1 b ||| (if v.getLsbD 8 then fld 1 ((b + 1) % 64) else 0)
      ∃ t, exec (.einjctlGo v) s = .next t ∧ SameMemory s t ∧
        FMap.getD (t.tileOf k i).st.pool.errs w 0 = FMap.getD x.st.pool.errs w 0 ^^^ mask ∧
        ∀ u, u ≠ w → FMap.getD (t.tileOf k i).st.pool.errs u 0 = FMap.getD x.st.pool.errs u 0) ∧
    (∀ (v : W64) (die row pcol : Nat) (c : Ctx) (x : Tile), v.getLsbD 63 = true →
      einjTile s.panel.einjaddr = some (die, row, pcol) → s.panel.closed die row pcol = false →
      s.incoming (die * 72 + row * 9 + pcol) = some c → s.shielded (die * 72 + row * 9 + pcol) = false →
      FMap.get? (s.padAt c.pad).tiles c.tile = some x → FMap.sorted x.st.pool.errs = true →
      let w := bits s.panel.einjaddr 41 24
      let b := bits v 5 0
      ∃ t, exec (.einjctlGo v) s = .next t ∧ SameMemory s t ∧ t.panel = s.panel ∧
        FMap.getD (t.tileOf c.pad c.tile).st.pool.errs w 0 = FMap.getD x.st.pool.errs w 0 ^^^
          (fld 1 b ||| (if v.getLsbD 8 then fld 1 ((b + 1) % 64) else 0)) ∧
        ∀ u, u ≠ w → FMap.getD (t.tileOf c.pad c.tile).st.pool.errs u 0 = FMap.getD x.st.pool.errs u 0) ∧
    (∀ v die row pcol, einjTile s.panel.einjaddr = some (die, row, pcol) → (s.panel.die die).out = true →
      exec (.einjctlGo v) s = .next s) ∧
    (∀ (v : W64) (die row pcol : Nat), v.getLsbD 63 = true → einjTile s.panel.einjaddr = some (die, row, pcol) →
      s.panel.closed die row pcol = false → s.incoming (die * 72 + row * 9 + pcol) = none →
      (s.onPhys (die * 72 + row * 9 + pcol) = none ∨ ∃ k i d r, s.onPhys (die * 72 + row * 9 + pcol) = some (k, i) ∧
        (s.fn (s.padAt k).fn).session = none ∧ s.panel.retires = [r] ∧ r.copied = [({ pad := k, tile := i }, d)] ∧ d ≤ s.dtick) →
      let w := bits s.panel.einjaddr 41 24
      let b := bits v 5 0
      let held := fun (t : State) (ph u : Nat) => FMap.getD (FMap.getD t.panel.struck ph []) u 0
      ∃ t, exec (.einjctlGo v) s = .next t ∧ t.pads = s.pads ∧ t.fns = s.fns ∧
        held t (die * 72 + row * 9 + pcol) w = held s (die * 72 + row * 9 + pcol) w ^^^
          (fld 1 b ||| (if v.getLsbD 8 then fld 1 ((b + 1) % 64) else 0)) ∧
        ∀ ph u, (ph, u) ≠ (die * 72 + row * 9 + pcol, w) → held t ph u = held s ph u) ∧
    (∀ v, v.getLsbD 63 = false ∨ einjTile s.panel.einjaddr = none → exec (.einjctlGo v) s = .next s)

/-- R20, R29, R73, R463, R465, R468, R469, R471: a report above 105 °C makes a die hot with one event and asks the paddocks on it
to freeze; above 115 °C it stops, and a failed die with it: its tiles at once, with WATCHDOG of reason 4 at every paddock it
touches, a pre-empted one with channels on it included; a cooler report only records the temperature. A worn tile of a row with
its spare free asks the paddocks of its columns to freeze; in a row without one it is marked dead. Once they stand frozen the
copies run, those of a paddock that has joined meanwhile after them, and at their end the row shifts, with its log entry and event.
(Assumption log 33: how long the release wave after the shift lasts, dtick + 1 + B_max; 35: how a retirement's copies run; 39: which
fault a lost die gives a saved paddock; 63: deadlines.) -/
def Obligations.HeatAndRepair : Prop :=
  ∀ s : State, FMap.sorted s.pads = true →
    let q := s.panel
    let set := fun (key : Nat) (d : Die) => { s with panel := { q with dies := FMap.put q.dies key d } }
    let lost := fun (t : State) (k : Nat) => (∃ r, (t.padAt k).reports = (s.padAt k).reports ++ [r] ∧
        r.info.cause = .watchdog ∧ r.info.t3 = 4) ∧
      ∀ i x, FMap.sorted (s.padAt k).tiles = true → FMap.get? (s.padAt k).tiles i = some x →
        (t.panel.die ((s.padAt k).shape.die (s.padAt k).place i)).out = true → (t.tileOf k i).core.dead = true
    (∀ x y t, (q.die (siteKey x y)).failed = false → t ≤ 105 →
      exec (.temperatureReport x y t) s = .next (set (siteKey x y) { q.die (siteKey x y) with temp := t })) ∧
    (∀ x y t, x < 20 → y < 20 → let d := q.die (siteKey x y)
      d.failed = false → d.hot = false → d.stopped = false → 105 < t →
      (t ≤ 115 → ∃ u, exec (.temperatureReport x y t) s = .next u ∧
        u.panel.die (siteKey x y) = { d with temp := t, hot := true } ∧
        u.fns = (s.event 0 0x04 0xFFFF (w64 (x + 256 * y)) 0).fns ∧
        ∀ k ∈ s.padsOn (siteKey x y), (s.padAt k).asked .thermal = false → (s.padAt k).freeze ≠ some .thermal →
          ∃ r, (u.padAt k).pending = (s.padAt k).pending ++ [r] ∧ r.req = .thermal ∧ r.deadline = none) ∧
      (115 < t → ∃ u, exec (.temperatureReport x y t) s = .next u ∧
        u.panel.die (siteKey x y) = { d with temp := t, hot := true, stopped := true } ∧
        ∀ e ∈ s.pads, e.2.touches (siteKey x y) = true → (e.2.placed = true → lost u e.1) ∧
          (200 ≤ siteKey x y → e.2.state = .preempted → (u.padAt e.1).state = .halted))) ∧
    (∀ x y, (x + y) % 2 = 0 → (dieAt x y = q.shep → q.awaits = []) →
      ∃ u, exec (.dieFailure x y) s = .next u ∧ (u.panel.die (dieAt x y)).failed = true ∧
      (u.panel.shep = if dieAt x y = q.shep then 114 else q.shep) ∧
      ∀ e ∈ s.pads, e.2.placed = true → e.2.touches (dieAt x y) = true → lost u e.1) ∧
    (∀ x y, (x + y) % 2 ≠ 0 → exec (.dieFailure x y) s = .next s) ∧
    (∀ die row pcol col, s.physOf s.pad s.cur.tile = die * 72 + row * 9 + pcol → row < 8 → pcol < 9 →
      s.worn (die * 72 + row * 9 + pcol) = true → q.retires = [] → q.closed die row pcol = false →
      q.exposed die row pcol = some col →
      (q.shift die row = 8 → ∃ u r, exec .tileRetirement s = .next u ∧ u.panel.retires = [r] ∧ r.die = die ∧ r.row = row ∧
        r.col = col ∧ r.stage = .freezing ∧
        ∀ k ∈ s.holders die row col 7, (s.padAt k).asked .retire = false → (s.padAt k).freeze ≠ some .retire →
          ∃ w, (u.padAt k).pending = (s.padAt k).pending ++ [w] ∧ w.req = .retire ∧
            w.deadline = some (w.due - 1 + (s.padAt k).shape.pauseMax + 65536, 5)) ∧
      (q.shift die row ≠ 8 → q.log.length < 127 → ∃ u, exec .tileRetirement s = .next u ∧ u.panel.retires = [] ∧
        u.panel.available die row col = false ∧ u.panel.shift die row = q.shift die row ∧
        u.panel.log.length = q.log.length + 1)) ∧
    (s.worn (s.physOf s.pad s.cur.tile) = false → exec .tileRetirement s = .next s) ∧
    (∀ r, q.retires = [r] → r.stage = .freezing → s.allFrozen r = true → r.copied = [] →
      ∃ u done l, exec .rowShiftMigration s = .next u ∧
      u.panel.retires = [{ r with stage := .copying done, copied := l }] ∧ s.dtick ≤ done ∧ u.panel.remap = q.remap ∧ u.fns = s.fns ∧
      (∀ c ∈ s.migrants r, ∃ e ∈ l, e.1 = c ∧ s.dtick ≤ e.2 ∧ e.2 ≤ done)) ∧
    (∀ r d, q.retires = [r] → r.stage = .copying d → s.dtick < d → exec .rowShiftRemap s = .next s) ∧
    (∀ r d, q.retires = [r] → r.stage = .copying d → d ≤ s.dtick → s.allFrozen r = true → s.uncopied r ≠ [] →
      exec .rowShiftRemap s = .next s ∧ ∃ u done l, exec .rowShiftMigration s = .next u ∧
        u.panel.retires = [{ r with stage := .copying done, copied := r.copied ++ l }] ∧ s.dtick ≤ done ∧ u.panel.remap = q.remap ∧
        (∀ c ∈ s.uncopied r, ∃ e ∈ l, e.1 = c ∧ s.dtick ≤ e.2 ∧ e.2 ≤ done)) ∧
    (∀ r d k, q.retires = [r] → r.stage = .copying d → d ≤ s.dtick → s.holders r.die r.row r.col 7 = [k] → r.col < 8 →
      s.uncopied r = [] → q.log.length < 127 → (s.padAt k).freeze = some .retire → (s.padAt k).pending = [] → q.struck = [] →
      FMap.sorted (s.padAt k).tiles = true → (∀ i ∈ (s.padAt k).shape.all, FMap.get? (s.padAt k).tiles i ≠ none) →
      (∀ e ∈ (s.padAt k).tiles, e.2.wantsNotice = false) →
      ∃ u, exec .rowShiftRemap s = .next u ∧ u.panel.retires = [] ∧ u.panel.shift r.die r.row = r.col ∧
        u.panel.log.length = q.log.length + 1 ∧ u.panel.shifted = q.shifted + 1 ∧
        (u.padAt k).freeze = some (.release (s.dtick + 1 + (s.padAt k).shape.bMax (s.padAt k).place)) ∧
        (u.padAt k).rtick = (s.padAt k).rtick ∧ (u.padAt k).tiles = (s.padAt k).tiles)

end
end

