-- ==== Sys2Proof/Laws/Decode.lean ====
section
/-!
SUPPORT. Laws/Decode.lean: a field read from packed operands is the field packed (Tables 5-2, 5-3), and a code read back is
the name it stands for.
-/
namespace Sys2Proof

/-- The low part of a concatenation. -/
theorem extract_append_low {m n : Nat} (x : BitVec m) (y : BitVec n) : (x ++ y).extractLsb' 0 n = y := by
  ext i h
  simp [BitVec.getElem_extractLsb', BitVec.getLsbD_append, h]

/-- Fields of a concatenation that lie above its low part. -/
theorem extract_append_high {m n : Nat} (x : BitVec m) (y : BitVec n) (s l : Nat) (h : n ≤ s) :
    (x ++ y).extractLsb' s l = x.extractLsb' (s - n) l := by
  ext i hi
  simp only [BitVec.getElem_extractLsb', BitVec.getLsbD_append]
  rw [if_neg (by omega)]
  congr 1
  omega

/-- Fields of a concatenation that lie within its low part. -/
theorem extract_append_within {m n : Nat} (x : BitVec m) (y : BitVec n) (s l : Nat) (h : s + l ≤ n) :
    (x ++ y).extractLsb' s l = y.extractLsb' s l := by
  ext i hi
  simp only [BitVec.getElem_extractLsb', BitVec.getLsbD_append]
  rw [if_pos (by omega)]

@[simp] theorem extract_all {n : Nat} (x : BitVec n) : x.extractLsb' 0 n = x := by
  ext i h
  simp [BitVec.getElem_extractLsb', h]

theorem extract_extract {n : Nat} (x : BitVec n) (s l t k : Nat) (h : t + k ≤ l) :
    (x.extractLsb' s l).extractLsb' t k = x.extractLsb' (s + t) k := by
  ext i hi
  simp only [BitVec.getElem_extractLsb', BitVec.getLsbD_extractLsb']
  rw [show (decide (t + i < l)) = true by simp; omega, Bool.true_and]
  congr 1
  omega

@[simp] theorem opD_packR (d a b : BitVec 6) (fn : BitVec 8) : opD (packR d a b fn) = d := by
  rw [opD, packR, extract_append_high _ _ _ _ (by omega), extract_append_high _ _ _ _ (by omega),
    extract_append_high _ _ _ _ (by omega)]
  exact extract_all d

@[simp] theorem opA_packR (d a b : BitVec 6) (fn : BitVec 8) : opA (packR d a b fn) = a := by
  rw [opA, packR, extract_append_high _ _ _ _ (by omega), extract_append_high _ _ _ _ (by omega)]
  exact extract_append_low d a

@[simp] theorem opB_packR (d a b : BitVec 6) (fn : BitVec 8) : opB (packR d a b fn) = b := by
  rw [opB, packR, extract_append_high _ _ _ _ (by omega)]
  exact extract_append_low _ b

@[simp] theorem opFn_packR (d a b : BitVec 6) (fn : BitVec 8) : opFn (packR d a b fn) = fn := extract_append_low _ fn

@[simp] theorem opD_packI (d a : BitVec 6) (imm : BitVec 14) : opD (packI d a imm) = d := by
  rw [opD, packI, extract_append_high _ _ _ _ (by omega), extract_append_high _ _ _ _ (by omega)]
  exact extract_all d

@[simp] theorem opA_packI (d a : BitVec 6) (imm : BitVec 14) : opA (packI d a imm) = a := by
  rw [opA, packI, extract_append_high _ _ _ _ (by omega)]
  exact extract_append_low d a

@[simp] theorem opImm14_packI (d a : BitVec 6) (imm : BitVec 14) : opImm14 (packI d a imm) = imm :=
  extract_append_low _ imm

@[simp] theorem opD_packL (d : BitVec 6) (imm : BitVec 20) : opD (packL d imm) = d := by
  rw [opD, packL, extract_append_high _ _ _ _ (by omega)]
  exact extract_all d

@[simp] theorem opImm20_packL (d : BitVec 6) (imm : BitVec 20) : opImm20 (packL d imm) = imm := extract_append_low d imm

@[simp] theorem opD_packLP (c : BitVec 6) (len : BitVec 12) (fn : BitVec 8) : opD (packLP c len fn) = c := by
  rw [opD, packLP, extract_append_high _ _ _ _ (by omega), extract_append_high _ _ _ _ (by omega)]
  exact extract_all c

@[simp] theorem opLen_packLP (c : BitVec 6) (len : BitVec 12) (fn : BitVec 8) : opLen (packLP c len fn) = len := by
  rw [opLen, packLP, extract_append_high _ _ _ _ (by omega)]
  exact extract_append_low c len

@[simp] theorem opEn_packEn (e : En) : opEn (packEn e) = e := by
  cases e
  simp only [opEn, packEn, En.mk.injEq]
  refine ⟨?_, ?_, ?_, ?_⟩
  · rw [extract_append_high _ _ _ _ (by omega), extract_append_high _ _ _ _ (by omega),
      extract_append_high _ _ _ _ (by omega)]
    exact extract_all _
  · rw [extract_append_high _ _ _ _ (by omega), extract_append_high _ _ _ _ (by omega)]
    exact extract_append_low _ _
  · rw [extract_append_high _ _ _ _ (by omega)]
    exact extract_append_low _ _
  · exact extract_append_low _ _

@[simp] theorem IntCond.ofCode_code (c : IntCond) : IntCond.ofCode c.code = some c := by cases c <;> rfl
@[simp] theorem FpCond.ofCode_code (c : FpCond) : FpCond.ofCode c.code = some c := by cases c <;> rfl
@[simp] theorem ScalarTy.ofCode_code (t : ScalarTy) : ScalarTy.ofCode t.code = some t := by cases t <;> rfl
@[simp] theorem FpTy.ofCode_code (t : FpTy) : FpTy.ofCode t.code = some t := by cases t <;> rfl
@[simp] theorem RMode.ofCode_code (m : RMode) : RMode.ofCode m.code = some m := by cases m <;> rfl
@[simp] theorem SgnOp.ofCode_code (o : SgnOp) : SgnOp.ofCode o.code = some o := by cases o <;> rfl
@[simp] theorem AmoOp.ofCode_code (o : AmoOp) : AmoOp.ofCode o.code = some o := by cases o <;> rfl
@[simp] theorem VTy.ofCode_code (t : VTy) : VTy.ofCode t.code = some t := by cases t <;> rfl
@[simp] theorem AmoTy.ofBit_bit (t : AmoTy) : AmoTy.ofBit t.bit = t := by cases t <;> rfl
@[simp] theorem Width.ofCode_code (w : Width) : Width.ofCode w.code = w := by cases w <;> rfl

theorem AmoOrd.ofCode_code (o : AmoOrd) : AmoOrd.ofCode o.code = o := by
  cases o with
  | mk acq rel => cases acq <;> cases rel <;> rfl

end Sys2Proof
end

