-- ==== Sys2Proof/Laws/FMap.lean ====
section
/-!
SUPPORT. Laws/FMap.lean: what finite maps and byte memories do: reading after a change, and the canonical form that every
change keeps (R237).
-/
namespace Sys2Proof.Machine

-- Finite maps

theorem FMap.get?_put_same {α : Type} (m : FMap α) (k : Nat) (v : α) : FMap.get? (FMap.put m k v) k = some v := by
  induction m with
  | nil => simp [FMap.put, FMap.get?]
  | cons p m ih =>
    simp only [FMap.put]
    split
    · simp [FMap.get?]
    · split
      · simp [FMap.get?]
      · rename_i h1 h2
        simp only [FMap.get?, ih]
        rw [if_neg (fun h => h2 h.symm)]

theorem FMap.get?_put_ne {α : Type} (m : FMap α) (k j : Nat) (v : α) (h : j ≠ k) :
    FMap.get? (FMap.put m k v) j = FMap.get? m j := by
  induction m with
  | nil => simp [FMap.put, FMap.get?, Ne.symm h]
  | cons p m ih =>
    simp only [FMap.put]
    split
    · simp [FMap.get?, Ne.symm h]
    · split
      · rename_i h1 h2
        subst h2
        simp [FMap.get?, Ne.symm h]
      · simp [FMap.get?, ih]

@[simp] theorem FMap.getD_put_same {α : Type} (m : FMap α) (k : Nat) (v d : α) : FMap.getD (FMap.put m k v) k d = v := by
  simp [FMap.getD, FMap.get?_put_same]

theorem FMap.getD_put_ne {α : Type} (m : FMap α) (k j : Nat) (v d : α) (h : j ≠ k) :
    FMap.getD (FMap.put m k v) j d = FMap.getD m j d := by
  simp [FMap.getD, FMap.get?_put_ne m k j v h]

theorem FMap.put_put {α : Type} (m : FMap α) (k : Nat) (v w : α) : FMap.put (FMap.put m k v) k w = FMap.put m k w := by
  induction m with
  | nil => simp [FMap.put]
  | cons p m ih =>
    simp only [FMap.put]
    split
    · simp [FMap.put]
    · split
      · simp [FMap.put]
      · rename_i h1 h2
        simp [FMap.put, h1, h2, ih]

@[simp] theorem Regs.rd_put_same (m : Regs) (k : Nat) (v : W64) : Regs.rd (FMap.put m k v) k = v := by simp [Regs.rd]

theorem Regs.rd_put_ne (m : Regs) (k j : Nat) (v : W64) (h : j ≠ k) : Regs.rd (FMap.put m k v) j = Regs.rd m j :=
  FMap.getD_put_ne m k j v 0 h

/-- Rising keys, as a statement about every pair of entries. -/
theorem FMap.sorted_iff {α : Type} (m : FMap α) :
    FMap.sorted m = true ↔ List.Pairwise (fun p q : Nat × α => p.1 < q.1) m := by
  induction m with
  | nil => simp [FMap.sorted]
  | cons p m ih =>
    cases m with
    | nil => simp [FMap.sorted]
    | cons q m =>
      simp only [FMap.sorted, Bool.and_eq_true, decide_eq_true_eq, ih, List.pairwise_cons]
      constructor
      · rintro ⟨h, h1, h2⟩
        refine ⟨?_, h1, h2⟩
        intro a ha
        cases ha with
        | head => exact h
        | tail _ ha => exact Nat.lt_trans h (h1 a ha)
      · rintro ⟨h, h1, h2⟩
        exact ⟨h q (List.mem_cons_self ..), h1, h2⟩

theorem FMap.mem_put {α : Type} (m : FMap α) (k : Nat) (v : α) (x : Nat × α) (h : x ∈ FMap.put m k v) :
    x = (k, v) ∨ x ∈ m := by
  induction m with
  | nil => simpa [FMap.put] using h
  | cons p m ih =>
    simp only [FMap.put] at h
    split at h
    · simpa using h
    · split at h
      · cases h with
        | head => exact .inl rfl
        | tail _ h => exact .inr (List.mem_cons_of_mem _ h)
      · cases h with
        | head => exact .inr (List.mem_cons_self ..)
        | tail _ h =>
          cases ih h with
          | inl h => exact .inl h
          | inr h => exact .inr (List.mem_cons_of_mem _ h)

/-- Putting an entry keeps the keys rising. -/
theorem FMap.sorted_put {α : Type} (m : FMap α) (k : Nat) (v : α) (h : FMap.sorted m = true) :
    FMap.sorted (FMap.put m k v) = true := by
  rw [FMap.sorted_iff] at *
  induction m with
  | nil => simp [FMap.put]
  | cons p m ih =>
    rw [List.pairwise_cons] at h
    simp only [FMap.put]
    split
    · rename_i hk
      refine List.Pairwise.cons ?_ (List.Pairwise.cons h.1 h.2)
      intro q hq
      cases hq with
      | head => exact hk
      | tail _ hq => exact Nat.lt_trans hk (h.1 q hq)
    · split
      · rename_i h1 h2
        subst h2
        exact List.Pairwise.cons h.1 h.2
      · rename_i h1 h2
        refine List.Pairwise.cons ?_ (ih h.2)
        intro q hq
        cases FMap.mem_put m k v q hq with
        | inl hq => subst hq; show p.1 < k; omega
        | inr hq => exact h.1 q hq

theorem FMap.del_sublist {α : Type} (m : FMap α) (k : Nat) : List.Sublist (FMap.del m k) m := by
  induction m with
  | nil => exact .slnil
  | cons p m ih =>
    simp only [FMap.del]
    split
    · exact List.sublist_cons_self ..
    · exact ih.cons_cons p

/-- Removing an entry keeps the keys rising. -/
theorem FMap.sorted_del {α : Type} (m : FMap α) (k : Nat) (h : FMap.sorted m = true) : FMap.sorted (FMap.del m k) = true := by
  rw [FMap.sorted_iff] at *
  exact h.sublist (FMap.del_sublist m k)

-- Byte memories

/-- The canonical form, as rising addresses and no zero byte listed. -/
theorem Mem.wf_iff (m : Mem) :
    Mem.wf m = true ↔ List.Pairwise (fun p q : Nat × Byte => p.1 < q.1) m ∧ ∀ c ∈ m, c.2 ≠ 0 := by
  simp only [Mem.wf, Bool.and_eq_true, List.all_eq_true, bne_iff_ne]
  exact and_congr (FMap.sorted_iff (α := Byte) m) Iff.rfl

theorem Mem.mem_cells (a : Nat) (bs : List Byte) (c : Nat × Byte) (h : c ∈ Mem.cells a bs) :
    a ≤ c.1 ∧ c.1 < a + bs.length ∧ c.2 ≠ 0 := by
  induction bs generalizing a with
  | nil => simp [Mem.cells] at h
  | cons b bs ih =>
    simp only [Mem.cells] at h
    split at h
    · have := ih (a + 1) h
      simp only [List.length_cons]
      exact ⟨by omega, by omega, this.2.2⟩
    · rename_i hb
      cases h with
      | head => simp only [List.length_cons]; exact ⟨Nat.le_refl _, by omega, hb⟩
      | tail _ h =>
        have := ih (a + 1) h
        simp only [List.length_cons]
        exact ⟨by omega, by omega, this.2.2⟩

theorem Mem.pairwise_cells (a : Nat) (bs : List Byte) :
    List.Pairwise (fun p q : Nat × Byte => p.1 < q.1) (Mem.cells a bs) := by
  induction bs generalizing a with
  | nil => simp [Mem.cells]
  | cons b bs ih =>
    simp only [Mem.cells]
    split
    · exact ih (a + 1)
    · refine List.Pairwise.cons ?_ (ih (a + 1))
      intro q hq
      have := (Mem.mem_cells (a + 1) bs q hq).1
      exact this

theorem Mem.mem_below (m : Mem) (a : Nat) (c : Nat × Byte) (h : c ∈ Mem.below m a) : c ∈ m ∧ c.1 < a := by
  induction m with
  | nil => simp [Mem.below] at h
  | cons p m ih =>
    simp only [Mem.below, List.takeWhile_cons] at h ih
    split at h
    · rename_i hp
      cases h with
      | head => exact ⟨List.mem_cons_self .., by simpa using hp⟩
      | tail _ h => exact ⟨List.mem_cons_of_mem _ (ih h).1, (ih h).2⟩
    · simp at h

theorem Mem.above_sublist (m : Mem) (a : Nat) : List.Sublist (Mem.above m a) m := List.dropWhile_sublist _
theorem Mem.below_sublist (m : Mem) (a : Nat) : List.Sublist (Mem.below m a) m := List.takeWhile_sublist _

theorem Mem.mem_above (m : Mem) (a : Nat) (c : Nat × Byte)
    (hm : List.Pairwise (fun p q : Nat × Byte => p.1 < q.1) m) (h : c ∈ Mem.above m a) : a ≤ c.1 := by
  induction m with
  | nil => simp [Mem.above] at h
  | cons p m ih =>
    rw [List.pairwise_cons] at hm
    simp only [Mem.above, List.dropWhile_cons] at h ih
    split at h
    · exact ih hm.2 h
    · rename_i hp
      have hp : a ≤ p.1 := by simpa using hp
      cases h with
      | head => exact hp
      | tail _ h => exact Nat.le_of_lt (Nat.lt_of_le_of_lt hp (hm.1 c h))

/-- Cells below, in and above a range of addresses are canonical together when each part is. -/
theorem Mem.wf_join (m n : Mem) (a b : Nat) (hab : a ≤ b) (hm : Mem.wf m = true)
    (hn : List.Pairwise (fun p q : Nat × Byte => p.1 < q.1) n) (hr : ∀ c ∈ n, a ≤ c.1 ∧ c.1 < b ∧ c.2 ≠ 0) :
    Mem.wf (Mem.below m a ++ n ++ Mem.above m b) = true := by
  rw [Mem.wf_iff] at *
  obtain ⟨hp, hz⟩ := hm
  constructor
  · rw [List.pairwise_append, List.pairwise_append]
    refine ⟨⟨hp.sublist (Mem.below_sublist m a), hn, ?_⟩, hp.sublist (Mem.above_sublist m b), ?_⟩
    · intro x hx y hy
      exact Nat.lt_of_lt_of_le (Mem.mem_below m a x hx).2 (hr y hy).1
    · intro x hx y hy
      have hy := Mem.mem_above m b y hp hy
      rw [List.mem_append] at hx
      cases hx with
      | inl hx => have := (Mem.mem_below m a x hx).2; omega
      | inr hx => have := (hr x hx).2.1; omega
  · intro c hc
    rw [List.mem_append, List.mem_append] at hc
    rcases hc with (hc | hc) | hc
    · exact hz c (Mem.mem_below m a c hc).1
    · exact (hr c hc).2.2
    · exact hz c ((Mem.above_sublist m b).subset hc)

/-- A write keeps the canonical form. -/
theorem Mem.wf_write (m : Mem) (a : Nat) (bs : List Byte) (h : Mem.wf m = true) : Mem.wf (Mem.write m a bs) = true :=
  Mem.wf_join m _ a _ (Nat.le_add_right ..) h (Mem.pairwise_cells a bs) (fun c hc => Mem.mem_cells a bs c hc)

/-- Clearing keeps the canonical form. -/
theorem Mem.wf_clear (m : Mem) (a n : Nat) (h : Mem.wf m = true) : Mem.wf (Mem.clear m a n) = true := by
  have := Mem.wf_join m [] a (a + n) (Nat.le_add_right ..) h .nil (by simp)
  simpa [Mem.clear] using this

theorem Mem.wf_wr64 (m : Mem) (a : Nat) (w : W64) (h : Mem.wf m = true) : Mem.wf (Mem.wr64 m a w) = true :=
  Mem.wf_write m a _ h

theorem Mem.wf_nil : Mem.wf [] = true := rfl

-- Reading after a write

theorem Mem.rd_append (m n : Mem) (x : Nat) (h : ∀ c ∈ m, c.1 ≠ x) : Mem.rd (m ++ n) x = Mem.rd n x := by
  induction m with
  | nil => rfl
  | cons p m ih =>
    have hp : p.1 ≠ x := h p (List.mem_cons_self ..)
    have := ih (fun c hc => h c (List.mem_cons_of_mem _ hc))
    simp only [Mem.rd, FMap.getD] at this ⊢
    simp only [List.cons_append, FMap.get?, if_neg hp, this]

theorem Mem.rd_absent (m : Mem) (x : Nat) (h : ∀ c ∈ m, c.1 ≠ x) : Mem.rd m x = 0 := by
  have := Mem.rd_append m [] x h
  simpa [Mem.rd, FMap.getD, FMap.get?] using this

theorem Mem.rd_append_left (m n : Mem) (x : Nat) (h : ∀ c ∈ n, c.1 ≠ x) : Mem.rd (m ++ n) x = Mem.rd m x := by
  induction m with
  | nil => simpa [Mem.rd, FMap.getD, FMap.get?] using Mem.rd_absent n x h
  | cons p m ih =>
    simp only [Mem.rd, FMap.getD] at ih ⊢
    simp only [List.cons_append, FMap.get?]
    split
    · rfl
    · exact ih

theorem Mem.rd_cells (a x : Nat) (bs : List Byte) (h : a ≤ x) (h' : x < a + bs.length) :
    Mem.rd (Mem.cells a bs) x = bs.getD (x - a) 0 := by
  induction bs generalizing a with
  | nil => simp at h'; omega
  | cons b bs ih =>
    simp only [Mem.cells]
    by_cases hx : x = a
    · subst hx
      split
      · rename_i hb
        rw [Mem.rd_absent]
        · simp [hb]
        · intro c hc
          have := (Mem.mem_cells (x + 1) bs c hc).1
          omega
      · simp [Mem.rd, FMap.getD, FMap.get?]
    · have hlt : a + 1 ≤ x := by omega
      have hlen : x < a + 1 + bs.length := by simp only [List.length_cons] at h'; omega
      have hs : x - a = x - (a + 1) + 1 := by omega
      rw [hs, List.getD_cons_succ, ← ih (a + 1) hlt hlen]
      split
      · rfl
      · simp only [Mem.rd, FMap.getD, FMap.get?, if_neg (Ne.symm hx)]

theorem Mem.rd_below (m : Mem) (a x : Nat) (hm : List.Pairwise (fun p q : Nat × Byte => p.1 < q.1) m) (h : x < a) :
    Mem.rd (Mem.below m a) x = Mem.rd m x := by
  conv => rhs; rw [← List.takeWhile_append_dropWhile (p := fun c : Nat × Byte => decide (c.1 < a)) (l := m)]
  refine (Mem.rd_append_left _ _ x ?_).symm
  intro c hc
  have := Mem.mem_above m a c hm hc
  omega

theorem Mem.rd_above (m : Mem) (a x : Nat) (h : a ≤ x) : Mem.rd (Mem.above m a) x = Mem.rd m x := by
  conv => rhs; rw [← List.takeWhile_append_dropWhile (p := fun c : Nat × Byte => decide (c.1 < a)) (l := m)]
  refine (Mem.rd_append _ _ x ?_).symm
  intro c hc
  have := (Mem.mem_below m a c hc).2
  omega

/-- What a byte reads after a write: the byte written, or what it was. -/
theorem Mem.rd_write (m : Mem) (a : Nat) (bs : List Byte) (x : Nat) (hm : Mem.wf m = true) :
    Mem.rd (Mem.write m a bs) x = if a ≤ x ∧ x < a + bs.length then bs.getD (x - a) 0 else Mem.rd m x := by
  obtain ⟨hp, -⟩ := (Mem.wf_iff m).mp hm
  simp only [Mem.write]
  split
  · rename_i h
    rw [Mem.rd_append_left, Mem.rd_append, Mem.rd_cells a x bs h.1 h.2]
    · intro c hc; have := (Mem.mem_below m a c hc).2; omega
    · intro c hc; have := Mem.mem_above m _ c hp hc; omega
  · rename_i h
    by_cases hx : x < a
    · rw [Mem.rd_append_left, Mem.rd_append_left, Mem.rd_below m a x hp hx]
      · intro c hc; have := (Mem.mem_cells a bs c hc).1; omega
      · intro c hc; have := Mem.mem_above m _ c hp hc; omega
    · have hx' : a + bs.length ≤ x := by omega
      rw [Mem.rd_append, Mem.rd_above m _ x hx']
      intro c hc
      rw [List.mem_append] at hc
      cases hc with
      | inl hc => have := (Mem.mem_below m a c hc).2; omega
      | inr hc => have := (Mem.mem_cells a bs c hc).2.1; omega

@[simp] theorem Mem.length_read (m : Mem) (a n : Nat) : (Mem.read m a n).length = n := by
  induction n generalizing m a with
  | zero => simp [Mem.read]
  | succ n ih =>
    simp only [Mem.read]
    split
    · simp [ih]
    · split <;> simp [ih]

@[simp] theorem length_natLE (n x : Nat) : (natLE n x).length = n := by
  induction n generalizing x with
  | zero => rfl
  | succ n ih => simp [natLE, ih]

/-- The number that n low bytes of x make (R3). -/
theorem leNat_natLE (n x : Nat) : leNat (natLE n x) = x % 256 ^ n := by
  induction n generalizing x with
  | zero => simp [natLE, leNat, Nat.mod_one]
  | succ n ih =>
    simp only [natLE, leNat, ih, BitVec.toNat_ofNat]
    rw [show 256 ^ (n + 1) = 256 * 256 ^ n from by rw [Nat.pow_succ, Nat.mul_comm], Nat.mod_mul]

end Sys2Proof.Machine
end

