-- ==== Sys2Proof/Laws/State.lean ====
section
/-!
SUPPORT. Laws/State.lean: what each named update of the state leaves and what it changes, one lemma a field, so that no proof
unfolds a record update.
-/
namespace Sys2Proof.Machine

-- What is read back after an update

@[simp] theorem State.modPad_pad (s : State) (f : Paddock → Paddock) : (s.modPad f).pad = f s.pad := by
  simp [State.modPad, State.pad]

@[simp] theorem State.setTile_tile (s : State) (t : Tile) : (s.setTile t).tile = t := by
  have h : (s.setTile t).cur = s.cur := rfl
  simp only [State.tile, h]
  simp [State.setTile]

@[simp] theorem State.modTile_tile (s : State) (f : Tile → Tile) : (s.modTile f).tile = f s.tile :=
  State.setTile_tile s (f s.tile)

@[simp] theorem State.modCore_tile (s : State) (f : Core → Core) :
    (s.modCore f).tile = { s.tile with core := f s.tile.core } := State.modTile_tile s _

@[simp] theorem State.modSync_tile (s : State) (f : Sync → Sync) :
    (s.modSync f).tile = { s.tile with sync := f s.tile.sync } := State.modTile_tile s _

@[simp] theorem State.setCtl_tile (s : State) (k : Nat) (v : W64) : (s.setCtl k v).tile = s.tile.setCtl k v :=
  State.modTile_tile s _

@[simp] theorem State.cond_tile (s : State) (f : FaultInfo) :
    (s.cond f).tile = { s.tile with core := { s.tile.core with conds := s.tile.core.conds ++ [f] } } := State.modCore_tile s _

@[simp] theorem State.lateW_tile (s : State) (w : Late) :
    (s.lateW w).tile = { s.tile with core := { s.tile.core with late := s.tile.core.late ++ [(w, 1)] } } :=
  State.modCore_tile s _

@[simp] theorem State.stall_tile (s : State) :
    s.stall.tile =
      { s.tile with core := { s.tile.core with waitFrom := some (s.tile.core.waitFrom.getD s.pad.rtick) } } :=
  State.modCore_tile s _

@[simp] theorem State.later_tile (s : State) (d : Reg) (v : W64) (n : Nat) :
    (s.later d v n).tile = { s.tile with core := s.tile.core.later d v n 0 } := State.modCore_tile s _

@[simp] theorem State.laterFl_tile (s : State) (d : Reg) (v : W64) (n : Nat) (fl : BitVec 7) :
    (s.laterFl d v n fl).tile = { s.tile with core := s.tile.core.later d v n fl } := State.modCore_tile s _

@[simp] theorem Tile.setCtl_rd (t : Tile) (k : Nat) (v : W64) : Regs.rd (t.setCtl k v).ctl k = v := by simp [Tile.setCtl]

theorem Tile.setCtl_rd_ne (t : Tile) (k j : Nat) (v : W64) (h : j ≠ k) :
    Regs.rd (t.setCtl k v).ctl j = Regs.rd t.ctl j := Regs.rd_put_ne t.ctl k j v h

/-- Two changes of the current tile are one. -/
@[simp] theorem State.setTile_setTile (s : State) (t u : Tile) : (s.setTile t).setTile u = s.setTile u := by
  have h : (s.setTile t).cur = s.cur := rfl
  simp only [State.setTile, State.modPad, State.pad] at *
  simp [FMap.put_put]

theorem State.modTile_modTile (s : State) (f g : Tile → Tile) : (s.modTile f).modTile g = s.modTile fun t => g (f t) := by
  simp only [State.modTile]
  rw [State.setTile_tile, State.setTile_setTile]

theorem State.modCore_modCore (s : State) (f g : Core → Core) : (s.modCore f).modCore g = s.modCore fun c => g (f c) :=
  State.modTile_modTile s _ _

-- What an update of the current paddock leaves

@[simp] theorem State.modPad_dtick (s : State) (f : Paddock → Paddock) : (s.modPad f).dtick = s.dtick := rfl
@[simp] theorem State.modPad_fns (s : State) (f : Paddock → Paddock) : (s.modPad f).fns = s.fns := rfl
@[simp] theorem State.modPad_panel (s : State) (f : Paddock → Paddock) : (s.modPad f).panel = s.panel := rfl
@[simp] theorem State.modPad_host (s : State) (f : Paddock → Paddock) : (s.modPad f).host = s.host := rfl
@[simp] theorem State.modPad_agenda (s : State) (f : Paddock → Paddock) : (s.modPad f).agenda = s.agenda := rfl
@[simp] theorem State.modPad_inbox (s : State) (f : Paddock → Paddock) : (s.modPad f).inbox = s.inbox := rfl
@[simp] theorem State.modPad_cur (s : State) (f : Paddock → Paddock) : (s.modPad f).cur = s.cur := rfl
@[simp] theorem State.modPad_free (s : State) (f : Paddock → Paddock) : (s.modPad f).free = s.free := rfl
@[simp] theorem State.setTile_dtick (s : State) (t : Tile) : (s.setTile t).dtick = s.dtick := rfl
@[simp] theorem State.setTile_fns (s : State) (t : Tile) : (s.setTile t).fns = s.fns := rfl
@[simp] theorem State.setTile_panel (s : State) (t : Tile) : (s.setTile t).panel = s.panel := rfl
@[simp] theorem State.setTile_host (s : State) (t : Tile) : (s.setTile t).host = s.host := rfl
@[simp] theorem State.setTile_agenda (s : State) (t : Tile) : (s.setTile t).agenda = s.agenda := rfl
@[simp] theorem State.setTile_inbox (s : State) (t : Tile) : (s.setTile t).inbox = s.inbox := rfl
@[simp] theorem State.setTile_cur (s : State) (t : Tile) : (s.setTile t).cur = s.cur := rfl
@[simp] theorem State.setTile_free (s : State) (t : Tile) : (s.setTile t).free = s.free := rfl
@[simp] theorem State.modTile_dtick (s : State) (f : Tile → Tile) : (s.modTile f).dtick = s.dtick := rfl
@[simp] theorem State.modTile_fns (s : State) (f : Tile → Tile) : (s.modTile f).fns = s.fns := rfl
@[simp] theorem State.modTile_panel (s : State) (f : Tile → Tile) : (s.modTile f).panel = s.panel := rfl
@[simp] theorem State.modTile_host (s : State) (f : Tile → Tile) : (s.modTile f).host = s.host := rfl
@[simp] theorem State.modTile_agenda (s : State) (f : Tile → Tile) : (s.modTile f).agenda = s.agenda := rfl
@[simp] theorem State.modTile_inbox (s : State) (f : Tile → Tile) : (s.modTile f).inbox = s.inbox := rfl
@[simp] theorem State.modTile_cur (s : State) (f : Tile → Tile) : (s.modTile f).cur = s.cur := rfl
@[simp] theorem State.modTile_free (s : State) (f : Tile → Tile) : (s.modTile f).free = s.free := rfl
@[simp] theorem State.modCore_dtick (s : State) (f : Core → Core) : (s.modCore f).dtick = s.dtick := rfl
@[simp] theorem State.modCore_fns (s : State) (f : Core → Core) : (s.modCore f).fns = s.fns := rfl
@[simp] theorem State.modCore_panel (s : State) (f : Core → Core) : (s.modCore f).panel = s.panel := rfl
@[simp] theorem State.modCore_host (s : State) (f : Core → Core) : (s.modCore f).host = s.host := rfl
@[simp] theorem State.modCore_agenda (s : State) (f : Core → Core) : (s.modCore f).agenda = s.agenda := rfl
@[simp] theorem State.modCore_inbox (s : State) (f : Core → Core) : (s.modCore f).inbox = s.inbox := rfl
@[simp] theorem State.modCore_cur (s : State) (f : Core → Core) : (s.modCore f).cur = s.cur := rfl
@[simp] theorem State.modCore_free (s : State) (f : Core → Core) : (s.modCore f).free = s.free := rfl
@[simp] theorem State.modSync_dtick (s : State) (f : Sync → Sync) : (s.modSync f).dtick = s.dtick := rfl
@[simp] theorem State.modSync_fns (s : State) (f : Sync → Sync) : (s.modSync f).fns = s.fns := rfl
@[simp] theorem State.modSync_panel (s : State) (f : Sync → Sync) : (s.modSync f).panel = s.panel := rfl
@[simp] theorem State.modSync_host (s : State) (f : Sync → Sync) : (s.modSync f).host = s.host := rfl
@[simp] theorem State.modSync_agenda (s : State) (f : Sync → Sync) : (s.modSync f).agenda = s.agenda := rfl
@[simp] theorem State.modSync_inbox (s : State) (f : Sync → Sync) : (s.modSync f).inbox = s.inbox := rfl
@[simp] theorem State.modSync_cur (s : State) (f : Sync → Sync) : (s.modSync f).cur = s.cur := rfl
@[simp] theorem State.modSync_free (s : State) (f : Sync → Sync) : (s.modSync f).free = s.free := rfl
@[simp] theorem State.setCtl_dtick (s : State) (k : Nat) (v : W64) : (s.setCtl k v).dtick = s.dtick := rfl
@[simp] theorem State.setCtl_fns (s : State) (k : Nat) (v : W64) : (s.setCtl k v).fns = s.fns := rfl
@[simp] theorem State.setCtl_panel (s : State) (k : Nat) (v : W64) : (s.setCtl k v).panel = s.panel := rfl
@[simp] theorem State.setCtl_host (s : State) (k : Nat) (v : W64) : (s.setCtl k v).host = s.host := rfl
@[simp] theorem State.setCtl_agenda (s : State) (k : Nat) (v : W64) : (s.setCtl k v).agenda = s.agenda := rfl
@[simp] theorem State.setCtl_inbox (s : State) (k : Nat) (v : W64) : (s.setCtl k v).inbox = s.inbox := rfl
@[simp] theorem State.setCtl_cur (s : State) (k : Nat) (v : W64) : (s.setCtl k v).cur = s.cur := rfl
@[simp] theorem State.setCtl_free (s : State) (k : Nat) (v : W64) : (s.setCtl k v).free = s.free := rfl
@[simp] theorem State.cond_dtick (s : State) (f : FaultInfo) : (s.cond f).dtick = s.dtick := rfl
@[simp] theorem State.cond_fns (s : State) (f : FaultInfo) : (s.cond f).fns = s.fns := rfl
@[simp] theorem State.cond_panel (s : State) (f : FaultInfo) : (s.cond f).panel = s.panel := rfl
@[simp] theorem State.cond_host (s : State) (f : FaultInfo) : (s.cond f).host = s.host := rfl
@[simp] theorem State.cond_agenda (s : State) (f : FaultInfo) : (s.cond f).agenda = s.agenda := rfl
@[simp] theorem State.cond_inbox (s : State) (f : FaultInfo) : (s.cond f).inbox = s.inbox := rfl
@[simp] theorem State.cond_cur (s : State) (f : FaultInfo) : (s.cond f).cur = s.cur := rfl
@[simp] theorem State.cond_free (s : State) (f : FaultInfo) : (s.cond f).free = s.free := rfl
@[simp] theorem State.lateW_dtick (s : State) (w : Late) : (s.lateW w).dtick = s.dtick := rfl
@[simp] theorem State.lateW_fns (s : State) (w : Late) : (s.lateW w).fns = s.fns := rfl
@[simp] theorem State.lateW_panel (s : State) (w : Late) : (s.lateW w).panel = s.panel := rfl
@[simp] theorem State.lateW_host (s : State) (w : Late) : (s.lateW w).host = s.host := rfl
@[simp] theorem State.lateW_agenda (s : State) (w : Late) : (s.lateW w).agenda = s.agenda := rfl
@[simp] theorem State.lateW_inbox (s : State) (w : Late) : (s.lateW w).inbox = s.inbox := rfl
@[simp] theorem State.lateW_cur (s : State) (w : Late) : (s.lateW w).cur = s.cur := rfl
@[simp] theorem State.lateW_free (s : State) (w : Late) : (s.lateW w).free = s.free := rfl
@[simp] theorem State.stall_dtick (s : State) : (s.stall).dtick = s.dtick := rfl
@[simp] theorem State.stall_fns (s : State) : (s.stall).fns = s.fns := rfl
@[simp] theorem State.stall_panel (s : State) : (s.stall).panel = s.panel := rfl
@[simp] theorem State.stall_host (s : State) : (s.stall).host = s.host := rfl
@[simp] theorem State.stall_agenda (s : State) : (s.stall).agenda = s.agenda := rfl
@[simp] theorem State.stall_inbox (s : State) : (s.stall).inbox = s.inbox := rfl
@[simp] theorem State.stall_cur (s : State) : (s.stall).cur = s.cur := rfl
@[simp] theorem State.stall_free (s : State) : (s.stall).free = s.free := rfl
@[simp] theorem State.later_dtick (s : State) (d : Reg) (v : W64) (n : Nat) : (s.later d v n).dtick = s.dtick := rfl
@[simp] theorem State.later_fns (s : State) (d : Reg) (v : W64) (n : Nat) : (s.later d v n).fns = s.fns := rfl
@[simp] theorem State.later_panel (s : State) (d : Reg) (v : W64) (n : Nat) : (s.later d v n).panel = s.panel := rfl
@[simp] theorem State.later_host (s : State) (d : Reg) (v : W64) (n : Nat) : (s.later d v n).host = s.host := rfl
@[simp] theorem State.later_agenda (s : State) (d : Reg) (v : W64) (n : Nat) : (s.later d v n).agenda = s.agenda := rfl
@[simp] theorem State.later_inbox (s : State) (d : Reg) (v : W64) (n : Nat) : (s.later d v n).inbox = s.inbox := rfl
@[simp] theorem State.later_cur (s : State) (d : Reg) (v : W64) (n : Nat) : (s.later d v n).cur = s.cur := rfl
@[simp] theorem State.later_free (s : State) (d : Reg) (v : W64) (n : Nat) : (s.later d v n).free = s.free := rfl
@[simp] theorem State.laterFl_dtick (s : State) (d : Reg) (v : W64) (n : Nat) (fl : BitVec 7) : (s.laterFl d v n fl).dtick = s.dtick := rfl
@[simp] theorem State.laterFl_fns (s : State) (d : Reg) (v : W64) (n : Nat) (fl : BitVec 7) : (s.laterFl d v n fl).fns = s.fns := rfl
@[simp] theorem State.laterFl_panel (s : State) (d : Reg) (v : W64) (n : Nat) (fl : BitVec 7) : (s.laterFl d v n fl).panel = s.panel := rfl
@[simp] theorem State.laterFl_host (s : State) (d : Reg) (v : W64) (n : Nat) (fl : BitVec 7) : (s.laterFl d v n fl).host = s.host := rfl
@[simp] theorem State.laterFl_agenda (s : State) (d : Reg) (v : W64) (n : Nat) (fl : BitVec 7) : (s.laterFl d v n fl).agenda = s.agenda := rfl
@[simp] theorem State.laterFl_inbox (s : State) (d : Reg) (v : W64) (n : Nat) (fl : BitVec 7) : (s.laterFl d v n fl).inbox = s.inbox := rfl
@[simp] theorem State.laterFl_cur (s : State) (d : Reg) (v : W64) (n : Nat) (fl : BitVec 7) : (s.laterFl d v n fl).cur = s.cur := rfl
@[simp] theorem State.laterFl_free (s : State) (d : Reg) (v : W64) (n : Nat) (fl : BitVec 7) : (s.laterFl d v n fl).free = s.free := rfl

-- What an update of the current tile leaves of its paddock

@[simp] theorem State.setTile_pad (s : State) (t : Tile) :
    (s.setTile t).pad = { s.pad with tiles := FMap.put s.pad.tiles s.cur.tile t } := State.modPad_pad s _

@[simp] theorem State.modTile_pad (s : State) (f : Tile → Tile) : (s.modTile f).pad =
    { s.pad with tiles := FMap.put s.pad.tiles s.cur.tile (s.modTile f).tile } := by
  rw [State.modTile_tile]; exact State.setTile_pad s _
@[simp] theorem State.modCore_pad (s : State) (f : Core → Core) : (s.modCore f).pad =
    { s.pad with tiles := FMap.put s.pad.tiles s.cur.tile (s.modCore f).tile } := by
  rw [State.modCore_tile]; exact State.setTile_pad s _
@[simp] theorem State.modSync_pad (s : State) (f : Sync → Sync) : (s.modSync f).pad =
    { s.pad with tiles := FMap.put s.pad.tiles s.cur.tile (s.modSync f).tile } := by
  rw [State.modSync_tile]; exact State.setTile_pad s _
@[simp] theorem State.setCtl_pad (s : State) (k : Nat) (v : W64) : (s.setCtl k v).pad =
    { s.pad with tiles := FMap.put s.pad.tiles s.cur.tile (s.setCtl k v).tile } := by
  rw [State.setCtl_tile]; exact State.setTile_pad s _
@[simp] theorem State.cond_pad (s : State) (f : FaultInfo) : (s.cond f).pad =
    { s.pad with tiles := FMap.put s.pad.tiles s.cur.tile (s.cond f).tile } := by
  rw [State.cond_tile]; exact State.setTile_pad s _
@[simp] theorem State.lateW_pad (s : State) (w : Late) : (s.lateW w).pad =
    { s.pad with tiles := FMap.put s.pad.tiles s.cur.tile (s.lateW w).tile } := by
  rw [State.lateW_tile]; exact State.setTile_pad s _
@[simp] theorem State.stall_pad (s : State) : (s.stall).pad =
    { s.pad with tiles := FMap.put s.pad.tiles s.cur.tile (s.stall).tile } := by
  rw [State.stall_tile]; exact State.setTile_pad s _
@[simp] theorem State.later_pad (s : State) (d : Reg) (v : W64) (n : Nat) : (s.later d v n).pad =
    { s.pad with tiles := FMap.put s.pad.tiles s.cur.tile (s.later d v n).tile } := by
  rw [State.later_tile]; exact State.setTile_pad s _
@[simp] theorem State.laterFl_pad (s : State) (d : Reg) (v : W64) (n : Nat) (fl : BitVec 7) : (s.laterFl d v n fl).pad =
    { s.pad with tiles := FMap.put s.pad.tiles s.cur.tile (s.laterFl d v n fl).tile } := by
  rw [State.laterFl_tile]; exact State.setTile_pad s _

-- What updates of a tile leave

@[simp] theorem Tile.setCtl_core (t : Tile) (k : Nat) (v : W64) : (t.setCtl k v).core = t.core := rfl
@[simp] theorem Tile.setCtl_savedCtl (t : Tile) (k : Nat) (v : W64) : (t.setCtl k v).savedCtl = t.savedCtl := rfl
@[simp] theorem Tile.setCtl_parked (t : Tile) (k : Nat) (v : W64) : (t.setCtl k v).parked = t.parked := rfl
@[simp] theorem Tile.setCtl_mbox (t : Tile) (k : Nat) (v : W64) : (t.setCtl k v).mbox = t.mbox := rfl
@[simp] theorem Tile.setCtl_mboxLatch (t : Tile) (k : Nat) (v : W64) : (t.setCtl k v).mboxLatch = t.mboxLatch := rfl
@[simp] theorem Tile.setCtl_mboxIn (t : Tile) (k : Nat) (v : W64) : (t.setCtl k v).mboxIn = t.mboxIn := rfl
@[simp] theorem Tile.setCtl_st (t : Tile) (k : Nat) (v : W64) : (t.setCtl k v).st = t.st := rfl
@[simp] theorem Tile.setCtl_sync (t : Tile) (k : Nat) (v : W64) : (t.setCtl k v).sync = t.sync := rfl
@[simp] theorem Tile.setCtl_mq (t : Tile) (k : Nat) (v : W64) : (t.setCtl k v).mq = t.mq := rfl
@[simp] theorem Tile.setCtl_vq (t : Tile) (k : Nat) (v : W64) : (t.setCtl k v).vq = t.vq := rfl
@[simp] theorem Tile.setCtl_dq (t : Tile) (k : Nat) (v : W64) : (t.setCtl k v).dq = t.dq := rfl
@[simp] theorem Tile.setCtl_mx (t : Tile) (k : Nat) (v : W64) : (t.setCtl k v).mx = t.mx := rfl
@[simp] theorem Tile.setCtl_vec (t : Tile) (k : Nat) (v : W64) : (t.setCtl k v).vec = t.vec := rfl
@[simp] theorem Tile.setCtl_dr (t : Tile) (k : Nat) (v : W64) : (t.setCtl k v).dr = t.dr := rfl
@[simp] theorem Tile.setCtl_obs (t : Tile) (k : Nat) (v : W64) : (t.setCtl k v).obs = t.obs := rfl
@[simp] theorem Tile.setCtl_tlb (t : Tile) (k : Nat) (v : W64) : (t.setCtl k v).tlb = t.tlb := rfl
@[simp] theorem Tile.modPool_core (t : Tile) (f : Store → Store) : (t.modPool f).core = t.core := rfl
@[simp] theorem Tile.modPool_ctl (t : Tile) (f : Store → Store) : (t.modPool f).ctl = t.ctl := rfl
@[simp] theorem Tile.modPool_savedCtl (t : Tile) (f : Store → Store) : (t.modPool f).savedCtl = t.savedCtl := rfl
@[simp] theorem Tile.modPool_parked (t : Tile) (f : Store → Store) : (t.modPool f).parked = t.parked := rfl
@[simp] theorem Tile.modPool_mbox (t : Tile) (f : Store → Store) : (t.modPool f).mbox = t.mbox := rfl
@[simp] theorem Tile.modPool_mboxLatch (t : Tile) (f : Store → Store) : (t.modPool f).mboxLatch = t.mboxLatch := rfl
@[simp] theorem Tile.modPool_mboxIn (t : Tile) (f : Store → Store) : (t.modPool f).mboxIn = t.mboxIn := rfl
@[simp] theorem Tile.modPool_sync (t : Tile) (f : Store → Store) : (t.modPool f).sync = t.sync := rfl
@[simp] theorem Tile.modPool_mq (t : Tile) (f : Store → Store) : (t.modPool f).mq = t.mq := rfl
@[simp] theorem Tile.modPool_vq (t : Tile) (f : Store → Store) : (t.modPool f).vq = t.vq := rfl
@[simp] theorem Tile.modPool_dq (t : Tile) (f : Store → Store) : (t.modPool f).dq = t.dq := rfl
@[simp] theorem Tile.modPool_mx (t : Tile) (f : Store → Store) : (t.modPool f).mx = t.mx := rfl
@[simp] theorem Tile.modPool_vec (t : Tile) (f : Store → Store) : (t.modPool f).vec = t.vec := rfl
@[simp] theorem Tile.modPool_dr (t : Tile) (f : Store → Store) : (t.modPool f).dr = t.dr := rfl
@[simp] theorem Tile.modPool_obs (t : Tile) (f : Store → Store) : (t.modPool f).obs = t.obs := rfl
@[simp] theorem Tile.modPool_tlb (t : Tile) (f : Store → Store) : (t.modPool f).tlb = t.tlb := rfl
@[simp] theorem Tile.orFlags_core (t : Tile) (fl : BitVec 7) : (t.orFlags fl).core = t.core := by unfold Tile.orFlags; split <;> rfl
@[simp] theorem Tile.orFlags_savedCtl (t : Tile) (fl : BitVec 7) : (t.orFlags fl).savedCtl = t.savedCtl := by unfold Tile.orFlags; split <;> rfl
@[simp] theorem Tile.orFlags_parked (t : Tile) (fl : BitVec 7) : (t.orFlags fl).parked = t.parked := by unfold Tile.orFlags; split <;> rfl
@[simp] theorem Tile.orFlags_mbox (t : Tile) (fl : BitVec 7) : (t.orFlags fl).mbox = t.mbox := by unfold Tile.orFlags; split <;> rfl
@[simp] theorem Tile.orFlags_mboxLatch (t : Tile) (fl : BitVec 7) : (t.orFlags fl).mboxLatch = t.mboxLatch := by unfold Tile.orFlags; split <;> rfl
@[simp] theorem Tile.orFlags_mboxIn (t : Tile) (fl : BitVec 7) : (t.orFlags fl).mboxIn = t.mboxIn := by unfold Tile.orFlags; split <;> rfl
@[simp] theorem Tile.orFlags_st (t : Tile) (fl : BitVec 7) : (t.orFlags fl).st = t.st := by unfold Tile.orFlags; split <;> rfl
@[simp] theorem Tile.orFlags_sync (t : Tile) (fl : BitVec 7) : (t.orFlags fl).sync = t.sync := by unfold Tile.orFlags; split <;> rfl
@[simp] theorem Tile.orFlags_mq (t : Tile) (fl : BitVec 7) : (t.orFlags fl).mq = t.mq := by unfold Tile.orFlags; split <;> rfl
@[simp] theorem Tile.orFlags_vq (t : Tile) (fl : BitVec 7) : (t.orFlags fl).vq = t.vq := by unfold Tile.orFlags; split <;> rfl
@[simp] theorem Tile.orFlags_dq (t : Tile) (fl : BitVec 7) : (t.orFlags fl).dq = t.dq := by unfold Tile.orFlags; split <;> rfl
@[simp] theorem Tile.orFlags_mx (t : Tile) (fl : BitVec 7) : (t.orFlags fl).mx = t.mx := by unfold Tile.orFlags; split <;> rfl
@[simp] theorem Tile.orFlags_vec (t : Tile) (fl : BitVec 7) : (t.orFlags fl).vec = t.vec := by unfold Tile.orFlags; split <;> rfl
@[simp] theorem Tile.orFlags_dr (t : Tile) (fl : BitVec 7) : (t.orFlags fl).dr = t.dr := by unfold Tile.orFlags; split <;> rfl
@[simp] theorem Tile.orFlags_obs (t : Tile) (fl : BitVec 7) : (t.orFlags fl).obs = t.obs := by unfold Tile.orFlags; split <;> rfl
@[simp] theorem Tile.orFlags_tlb (t : Tile) (fl : BitVec 7) : (t.orFlags fl).tlb = t.tlb := by unfold Tile.orFlags; split <;> rfl
@[simp] theorem Core.later_regs (c : Core) (d : Reg) (v : W64) (n : Nat) (fl : BitVec 7) : (c.later d v n fl).regs = c.regs := by
  unfold Core.later; split <;> rfl
@[simp] theorem Core.later_late (c : Core) (d : Reg) (v : W64) (n : Nat) (fl : BitVec 7) : (c.later d v n fl).late = c.late := by
  unfold Core.later; split <;> rfl
@[simp] theorem Core.later_landed (c : Core) (d : Reg) (v : W64) (n : Nat) (fl : BitVec 7) : (c.later d v n fl).landed = c.landed := by
  unfold Core.later; split <;> rfl
@[simp] theorem Core.later_acc (c : Core) (d : Reg) (v : W64) (n : Nat) (fl : BitVec 7) : (c.later d v n fl).acc = c.acc := by
  unfold Core.later; split <;> rfl
@[simp] theorem Core.later_pc (c : Core) (d : Reg) (v : W64) (n : Nat) (fl : BitVec 7) : (c.later d v n fl).pc = c.pc := by
  unfold Core.later; split <;> rfl
@[simp] theorem Core.later_halted (c : Core) (d : Reg) (v : W64) (n : Nat) (fl : BitVec 7) : (c.later d v n fl).halted = c.halted := by
  unfold Core.later; split <;> rfl
@[simp] theorem Core.later_levels (c : Core) (d : Reg) (v : W64) (n : Nat) (fl : BitVec 7) : (c.later d v n fl).levels = c.levels := by
  unfold Core.later; split <;> rfl
@[simp] theorem Core.later_xfer (c : Core) (d : Reg) (v : W64) (n : Nat) (fl : BitVec 7) : (c.later d v n fl).xfer = c.xfer := by
  unfold Core.later; split <;> rfl
@[simp] theorem Core.later_shJump (c : Core) (d : Reg) (v : W64) (n : Nat) (fl : BitVec 7) : (c.later d v n fl).shJump = c.shJump := by
  unfold Core.later; split <;> rfl
@[simp] theorem Core.later_hold (c : Core) (d : Reg) (v : W64) (n : Nat) (fl : BitVec 7) : (c.later d v n fl).hold = c.hold := by
  unfold Core.later; split <;> rfl
@[simp] theorem Core.later_waitFrom (c : Core) (d : Reg) (v : W64) (n : Nat) (fl : BitVec 7) : (c.later d v n fl).waitFrom = c.waitFrom := by
  unfold Core.later; split <;> rfl
@[simp] theorem Core.later_aligning (c : Core) (d : Reg) (v : W64) (n : Nat) (fl : BitVec 7) : (c.later d v n fl).aligning = c.aligning := by
  unfold Core.later; split <;> rfl
@[simp] theorem Core.later_ppt (c : Core) (d : Reg) (v : W64) (n : Nat) (fl : BitVec 7) : (c.later d v n fl).ppt = c.ppt := by
  unfold Core.later; split <;> rfl
@[simp] theorem Core.later_entering (c : Core) (d : Reg) (v : W64) (n : Nat) (fl : BitVec 7) : (c.later d v n fl).entering = c.entering := by
  unfold Core.later; split <;> rfl
@[simp] theorem Core.later_svc (c : Core) (d : Reg) (v : W64) (n : Nat) (fl : BitVec 7) : (c.later d v n fl).svc = c.svc := by
  unfold Core.later; split <;> rfl
@[simp] theorem Core.later_priv (c : Core) (d : Reg) (v : W64) (n : Nat) (fl : BitVec 7) : (c.later d v n fl).priv = c.priv := by
  unfold Core.later; split <;> rfl
@[simp] theorem Core.later_ppriv (c : Core) (d : Reg) (v : W64) (n : Nat) (fl : BitVec 7) : (c.later d v n fl).ppriv = c.ppriv := by
  unfold Core.later; split <;> rfl
@[simp] theorem Core.later_tie (c : Core) (d : Reg) (v : W64) (n : Nat) (fl : BitVec 7) : (c.later d v n fl).tie = c.tie := by
  unfold Core.later; split <;> rfl
@[simp] theorem Core.later_next (c : Core) (d : Reg) (v : W64) (n : Nat) (fl : BitVec 7) : (c.later d v n fl).next = c.next := by
  unfold Core.later; split <;> rfl
@[simp] theorem Core.later_trapAfter (c : Core) (d : Reg) (v : W64) (n : Nat) (fl : BitVec 7) : (c.later d v n fl).trapAfter = c.trapAfter := by
  unfold Core.later; split <;> rfl
@[simp] theorem Core.later_held (c : Core) (d : Reg) (v : W64) (n : Nat) (fl : BitVec 7) : (c.later d v n fl).held = c.held := by
  unfold Core.later; split <;> rfl
@[simp] theorem Core.later_returned (c : Core) (d : Reg) (v : W64) (n : Nat) (fl : BitVec 7) : (c.later d v n fl).returned = c.returned := by
  unfold Core.later; split <;> rfl
@[simp] theorem Core.later_waiting (c : Core) (d : Reg) (v : W64) (n : Nat) (fl : BitVec 7) : (c.later d v n fl).waiting = c.waiting := by
  unfold Core.later; split <;> rfl
@[simp] theorem Core.later_frame (c : Core) (d : Reg) (v : W64) (n : Nat) (fl : BitVec 7) : (c.later d v n fl).frame = c.frame := by
  unfold Core.later; split <;> rfl
@[simp] theorem Core.later_conds (c : Core) (d : Reg) (v : W64) (n : Nat) (fl : BitVec 7) : (c.later d v n fl).conds = c.conds := by
  unfold Core.later; split <;> rfl
@[simp] theorem Core.later_pendAt (c : Core) (d : Reg) (v : W64) (n : Nat) (fl : BitVec 7) : (c.later d v n fl).pendAt = c.pendAt := by
  unfold Core.later; split <;> rfl
@[simp] theorem Core.later_faulted (c : Core) (d : Reg) (v : W64) (n : Nat) (fl : BitVec 7) : (c.later d v n fl).faulted = c.faulted := by
  unfold Core.later; split <;> rfl
@[simp] theorem Core.later_lately (c : Core) (d : Reg) (v : W64) (n : Nat) (fl : BitVec 7) : (c.later d v n fl).lately = c.lately := by
  unfold Core.later; split <;> rfl
@[simp] theorem Core.later_dead (c : Core) (d : Reg) (v : W64) (n : Nat) (fl : BitVec 7) : (c.later d v n fl).dead = c.dead := by
  unfold Core.later; split <;> rfl

-- What updates of a function leave

@[simp] theorem State.setFn_dtick (s : State) (n : Nat) (f : Func) : (s.setFn n f).dtick = s.dtick := rfl
@[simp] theorem State.setFn_pads (s : State) (n : Nat) (f : Func) : (s.setFn n f).pads = s.pads := rfl
@[simp] theorem State.setFn_panel (s : State) (n : Nat) (f : Func) : (s.setFn n f).panel = s.panel := rfl
@[simp] theorem State.setFn_host (s : State) (n : Nat) (f : Func) : (s.setFn n f).host = s.host := rfl
@[simp] theorem State.setFn_agenda (s : State) (n : Nat) (f : Func) : (s.setFn n f).agenda = s.agenda := rfl
@[simp] theorem State.setFn_inbox (s : State) (n : Nat) (f : Func) : (s.setFn n f).inbox = s.inbox := rfl
@[simp] theorem State.setFn_cur (s : State) (n : Nat) (f : Func) : (s.setFn n f).cur = s.cur := rfl
@[simp] theorem State.setFn_free (s : State) (n : Nat) (f : Func) : (s.setFn n f).free = s.free := rfl
@[simp] theorem State.modFn_dtick (s : State) (n : Nat) (f : Func → Func) : (s.modFn n f).dtick = s.dtick := rfl
@[simp] theorem State.modFn_pads (s : State) (n : Nat) (f : Func → Func) : (s.modFn n f).pads = s.pads := rfl
@[simp] theorem State.modFn_panel (s : State) (n : Nat) (f : Func → Func) : (s.modFn n f).panel = s.panel := rfl
@[simp] theorem State.modFn_host (s : State) (n : Nat) (f : Func → Func) : (s.modFn n f).host = s.host := rfl
@[simp] theorem State.modFn_agenda (s : State) (n : Nat) (f : Func → Func) : (s.modFn n f).agenda = s.agenda := rfl
@[simp] theorem State.modFn_inbox (s : State) (n : Nat) (f : Func → Func) : (s.modFn n f).inbox = s.inbox := rfl
@[simp] theorem State.modFn_cur (s : State) (n : Nat) (f : Func → Func) : (s.modFn n f).cur = s.cur := rfl
@[simp] theorem State.modFn_free (s : State) (n : Nat) (f : Func → Func) : (s.modFn n f).free = s.free := rfl

@[simp] theorem State.setFn_fn (s : State) (n : Nat) (f : Func) : (s.setFn n f).fn n = f := by simp [State.setFn, State.fn]

@[simp] theorem State.modFn_fn (s : State) (n : Nat) (f : Func → Func) : (s.modFn n f).fn n = f (s.fn n) :=
  State.setFn_fn s n _

theorem State.setFn_fn_ne (s : State) (n m : Nat) (f : Func) (h : m ≠ n) : (s.setFn n f).fn m = s.fn m :=
  FMap.getD_put_ne s.fns n m f Func.init h

-- The current tile moved

@[simp] theorem State.at_pad (s : State) (i : Nat) : (s.at i).pad = s.pad := rfl
@[simp] theorem State.atTile_cur (s : State) (i : Nat) (f : State → State) : (s.atTile i f).cur = s.cur := rfl
@[simp] theorem State.atTile_pads (s : State) (i : Nat) (f : State → State) : (s.atTile i f).pads = (f (s.at i)).pads := rfl

end Sys2Proof.Machine
end

