-- ==== Sys2Proof/Laws/Ops.lean ====
section
/-!
SUPPORT. Laws/Ops.lean: one lemma or two for each shared operation, saying all it can do: issue, verdicts, faults, words with
an error code, pushes.
-/
namespace Sys2Proof.Machine

-- Issue (R115)

@[simp] theorem State.issue_ok (s t : State) : s.issue .ok t = .next t := rfl
@[simp] theorem State.issue_stall (s t : State) : s.issue .stall t = .next s.stall := rfl
@[simp] theorem State.issue_fault (s t : State) (f : FaultInfo) : s.issue (.fault f) t = .next (s.takeFault f) := rfl

/-- An issue always goes on: with its effect, presented again, or in a trap. -/
theorem State.issue_next (s t : State) (v : Verdict) : ∃ u, s.issue v t = .next u := by
  cases v
  · exact ⟨_, rfl⟩
  · exact ⟨_, rfl⟩
  · exact ⟨_, rfl⟩

@[simp] theorem Verdict.ok_or (v : Verdict) : Verdict.ok.or v = v := rfl
@[simp] theorem Verdict.stall_or (v : Verdict) : Verdict.stall.or v = .stall := rfl
@[simp] theorem Verdict.fault_or (f : FaultInfo) (v : Verdict) : (Verdict.fault f).or v = .fault f := rfl
@[simp] theorem Verdict.or_ok (v : Verdict) : v.or .ok = v := by cases v <;> rfl

theorem Verdict.or_eq_ok (v w : Verdict) : v.or w = .ok ↔ v = .ok ∧ w = .ok := by cases v <;> simp

@[simp] theorem failIf_false (f : FaultInfo) : failIf false f = .ok := rfl
@[simp] theorem failIf_true (f : FaultInfo) : failIf true f = .fault f := rfl

theorem failIf_eq_ok (b : Bool) (f : FaultInfo) : failIf b f = .ok ↔ b = false := by cases b <;> simp [failIf]

-- Faults (R417, R418)

/-- Only an FBAR hold that is over is dropped. -/
theorem State.endedHold_eq (s : State) (h : ∀ k tok, s.tile.core.hold ≠ .fbar 0 k tok) : s.endedHold = s := by
  unfold State.endedHold
  split
  · rename_i k tok hk
    exact absurd hk (h k tok)
  · rfl

/-- A tile-local fault with a handler enters the trap. -/
theorem State.takeFaultAt_local (s : State) (f : FaultInfo) (epc : W64) (hw : f.cause.wide s.strict = false)
    (hh : s.tile.noHandler = false) :
    s.takeFaultAt f epc = (s.endedHold.modTile fun t => t.enterTrap f epc).trapRecord := by
  simp [State.takeFaultAt, hw, hh]

/-- A paddock-wide fault, or one that no handler can take, freezes the paddock. -/
theorem State.takeFaultAt_wide (s : State) (f : FaultInfo) (epc : W64)
    (h : (f.cause.wide s.strict || s.tile.noHandler) = true) : s.takeFaultAt f epc = s.endedHold.paddockFault f epc := by
  simp [State.takeFaultAt, h]

-- Words with an error code (R238)

@[simp] theorem Store.meet_bytes (st : Store) (w : Nat) : (st.meet w).bytes = st.bytes := by
  unfold Store.meet
  cases FMap.get? st.errs w with
  | none => rfl
  | some m =>
    simp only
    split
    · rfl
    · split <;> rfl

@[simp] theorem Store.meetAll_bytes (st : Store) (w n : Nat) : (st.meetAll w n).bytes = st.bytes := by
  induction n generalizing st w with
  | zero => rfl
  | succ n ih =>
    simp only [Store.meetAll]
    split
    · rfl
    · rw [ih, Store.meet_bytes]

/-- Reading changes no byte. -/
@[simp] theorem Store.read_bytes (st : Store) (a n : Nat) : (st.read a n).1.bytes = st.bytes := by
  unfold Store.read
  simp only
  split <;> simp

theorem Store.writeWord_bytes (st : Store) (a : Nat) (bs : List Byte) :
    (st.writeWord a bs).1.bytes = if (st.writeWord a bs).2 = none then Mem.write st.bytes a bs else st.bytes := by
  unfold Store.writeWord
  split
  · rfl
  · simp only
    split <;> simp

theorem Store.writeWord_wf (st : Store) (a : Nat) (bs : List Byte) (h : Mem.wf st.bytes = true) :
    Mem.wf (st.writeWord a bs).1.bytes = true := by
  rw [Store.writeWord_bytes]
  split
  · exact Mem.wf_write _ _ _ h
  · exact h

theorem Store.writeN_wf (k : Nat) (st : Store) (a : Nat) (bs : List Byte) (h : Mem.wf st.bytes = true) :
    Mem.wf (Store.writeN k st a bs).1.bytes = true := by
  induction k generalizing st a bs with
  | zero => exact h
  | succ k ih =>
    simp only [Store.writeN]
    split
    · exact h
    · exact ih _ _ _ (Store.writeWord_wf st a _ h)

/-- A write keeps a store's bytes canonical. -/
theorem Store.write_wf (st : Store) (a : Nat) (bs : List Byte) (h : Mem.wf st.bytes = true) :
    Mem.wf (st.write a bs).1.bytes = true := Store.writeN_wf _ st a bs h

/-- A write leaves every byte outside its own alone, refused or not. -/
theorem Store.writeN_outside (k : Nat) (st : Store) (a : Nat) (bs : List Byte) (x : Nat) (h : Mem.wf st.bytes = true)
    (hx : x < a ∨ a + bs.length ≤ x) : Mem.rd (Store.writeN k st a bs).1.bytes x = Mem.rd st.bytes x := by
  induction k generalizing st a bs with
  | zero => rfl
  | succ k ih =>
    simp only [Store.writeN]
    split
    · rfl
    · have hw := Store.writeWord_wf st a (bs.take (8 - a % 8)) h
      have h1 : Mem.rd (st.writeWord a (bs.take (8 - a % 8))).1.bytes x = Mem.rd st.bytes x := by
        rw [Store.writeWord_bytes]
        split
        · rw [Mem.rd_write _ _ _ _ h, if_neg]
          simp only [List.length_take]
          omega
        · rfl
      rw [ih _ _ _ hw, h1]
      simp only [List.length_drop]
      omega

theorem Store.write_outside (st : Store) (a : Nat) (bs : List Byte) (x : Nat) (h : Mem.wf st.bytes = true)
    (hx : x < a ∨ a + bs.length ≤ x) : Mem.rd (st.write a bs).1.bytes x = Mem.rd st.bytes x :=
  Store.writeN_outside _ st a bs x h hx

-- Late register writes (R135)

theorem Core.later_zero (c : Core) (v : W64) (n : Nat) : c.later 0 v n 0 = c := by simp [Core.later]

theorem Core.later_pend (c : Core) (d : Reg) (v : W64) (n : Nat) (h : d ≠ 0) :
    (c.later d v n 0).pend = c.pend ++ [{ reg := d, val := v, left := n, flags := 0 }] := by
  rw [Core.later, if_neg (fun x => h x.1)]

/-- A late write is visible nowhere yet. -/
@[simp] theorem State.later_rd (s : State) (d : Reg) (v : W64) (n : Nat) (r : Reg) : (s.later d v n).rd r = s.rd r := by
  simp [State.rd]

@[simp] theorem State.laterFl_rd (s : State) (d : Reg) (v : W64) (n : Nat) (fl : BitVec 7) (r : Reg) :
    (s.laterFl d v n fl).rd r = s.rd r := by
  simp [State.rd]

@[simp] theorem State.rd_zero (s : State) : s.rd 0 = 0 := rfl

-- Pushes (R138, R139)

@[simp] theorem Queue.push_serial (q : Queue) (i : Instr) (now : Nat) (st : Option Nat) (rep : Nat) (step : Int)
    (ws : List W64) (its : List (List W64)) (x y : W64) :
    (q.push i now st rep step ws its x y).serial = q.serial + 1 := rfl

@[simp] theorem Queue.push_length (q : Queue) (i : Instr) (now : Nat) (st : Option Nat) (rep : Nat) (step : Int)
    (ws : List W64) (its : List (List W64)) (x y : W64) :
    (q.push i now st rep step ws its x y).entries.length = q.entries.length + 1 := by simp [Queue.push]

@[simp] theorem Queue.push_act (q : Queue) (i : Instr) (now : Nat) (st : Option Nat) (rep : Nat) (step : Int)
    (ws : List W64) (its : List (List W64)) (x y : W64) : (q.push i now st rep step ws its x y).act = q.act := rfl

/-- When a push passes its checks: no service, room in the queue, and in a strict stint a start tick. -/
theorem State.pushCheck_ok (s : State) (sl : Slot) (i : Instr) (dly : Nat) (hs : s.tile.core.svc = false)
    (hl : (s.tile.queue sl).entries.length < 16) (hd : s.strict = false ∨ dly ≠ 63) : s.pushCheck sl i dly = .ok := by
  have h : ¬ 16 ≤ (s.tile.queue sl).entries.length := by omega
  rcases hd with hd | hd <;> simp [State.pushCheck, hs, h, hd]

@[simp] theorem Tile.setQueue_queue_m (t : Tile) (q : Queue) : (t.setQueue .m q).queue .m = q := rfl
@[simp] theorem Tile.setQueue_queue_v (t : Tile) (q : Queue) : (t.setQueue .v q).queue .v = q := rfl
@[simp] theorem Tile.setQueue_queue_d (t : Tile) (q : Queue) : (t.setQueue .d q).queue .d = q := rfl

@[simp] theorem Tile.setQueue_core (t : Tile) (sl : Slot) (q : Queue) : (t.setQueue sl q).core = t.core := by cases sl <;> rfl
@[simp] theorem Tile.setQueue_ctl (t : Tile) (sl : Slot) (q : Queue) : (t.setQueue sl q).ctl = t.ctl := by cases sl <;> rfl
@[simp] theorem Tile.setQueue_st (t : Tile) (sl : Slot) (q : Queue) : (t.setQueue sl q).st = t.st := by cases sl <;> rfl

-- Semaphores (R368, R369)

theorem Sync.take_zero (y : Sync) (q : Nat) : y.take q 0 = y := by simp [Sync.take]

theorem Sync.take_sem (y : Sync) (q n : Nat) (h : n ≠ 0) : (y.take q n).sem q = y.sem q - BitVec.ofNat 16 n := by
  simp [Sync.take, Sync.sem, h]

theorem Sync.take_sem_ne (y : Sync) (q r n : Nat) (h : r ≠ q) : (y.take q n).sem r = y.sem r := by
  unfold Sync.take
  split
  · rfl
  · simp [Sync.sem, FMap.getD_put_ne _ _ _ _ _ h]

end Sys2Proof.Machine
end

