-- ==== Sys2Proof/Laws/Memory.lean ====
section
/-!
SUPPORT. Laws/Memory.lean: the canonical form of the machine's memories under the shared operations of Machine/Ops.lean and
Machine/Life.lean, so that no later proof unfolds them.
-/
namespace Sys2Proof.Machine

theorem FMap.mem_of_get? {α : Type} (m : FMap α) (k : Nat) (v : α) (h : FMap.get? m k = some v) : ∃ e ∈ m, e.2 = v := by
  induction m with
  | nil => simp [FMap.get?] at h
  | cons p m ih =>
    rw [FMap.get?] at h
    split at h
    · exact ⟨p, by simp, by simpa using h⟩
    · obtain ⟨e, he, hv⟩ := ih h
      exact ⟨e, by simp [he], hv⟩

/-- What holds of every entry and of the default holds of what is looked up. -/
theorem FMap.getD_of_all {α : Type} (P : α → Prop) (m : FMap α) (k : Nat) (d : α) (hm : ∀ e ∈ m, P e.2) (hd : P d) :
    P (FMap.getD m k d) := by
  unfold FMap.getD
  cases h : FMap.get? m k with
  | none => exact hd
  | some v =>
    obtain ⟨e, he, rfl⟩ := FMap.mem_of_get? m k v h
    exact hm e he

theorem FMap.all_put {α : Type} (P : α → Prop) (m : FMap α) (k : Nat) (v : α) (hm : ∀ e ∈ m, P e.2) (hv : P v) :
    ∀ e ∈ FMap.put m k v, P e.2 := by
  intro e he
  rcases FMap.mem_put m k v e he with h | h
  · rw [h]; exact hv
  · exact hm e h

theorem FMap.all_modify {α : Type} (P : α → Prop) (m : FMap α) (k : Nat) (f : α → α) (hm : ∀ e ∈ m, P e.2)
    (hf : ∀ v, P v → P (f v)) : ∀ e ∈ FMap.modify m k f, P e.2 := by
  induction m with
  | nil => simp [FMap.modify]
  | cons p m ih =>
    intro e he
    rw [FMap.modify] at he
    split at he
    · rcases List.mem_cons.1 he with rfl | h
      · exact hf _ (hm p (by simp))
      · exact hm e (by simp [h])
    · rcases List.mem_cons.1 he with rfl | h
      · exact hm _ (by simp)
      · exact ih (fun x hx => hm x (by simp [hx])) e h

theorem Tile.memOk_init : Tile.init.memOk := ⟨rfl, rfl, rfl, rfl⟩

theorem Paddock.memOk_init : Paddock.init.memOk := ⟨rfl, by simp [Paddock.init]⟩

theorem State.memOk_pad (s : State) (h : s.memOk) : s.pad.memOk := FMap.getD_of_all Paddock.memOk _ _ _ h.2 Paddock.memOk_init

theorem State.memOk_tile (s : State) (h : s.memOk) : s.tile.memOk :=
  FMap.getD_of_all Tile.memOk _ _ _ (s.memOk_pad h).2 Tile.memOk_init

/-- A change of the current paddock that keeps its memories keeps all. -/
theorem State.memOk_modPad (s : State) (f : Paddock → Paddock) (h : s.memOk) (hf : ∀ p : Paddock, p.memOk → (f p).memOk) :
    (s.modPad f).memOk :=
  ⟨h.1, FMap.all_put Paddock.memOk _ _ _ h.2 (hf _ (s.memOk_pad h))⟩

theorem State.memOk_setTile (s : State) (t : Tile) (h : s.memOk) (ht : t.memOk) : (s.setTile t).memOk :=
  s.memOk_modPad _ h fun p hp => ⟨hp.1, FMap.all_put Tile.memOk p.tiles _ t hp.2 ht⟩

/-- A change of the current tile that keeps its stores' bytes keeps all. -/
theorem State.memOk_modTile (s : State) (f : Tile → Tile) (h : s.memOk) (hf : ∀ t : Tile, t.memOk → (f t).memOk) :
    (s.modTile f).memOk := s.memOk_setTile _ h (hf _ (s.memOk_tile h))

theorem State.memOk_modCore (s : State) (f : Core → Core) (h : s.memOk) : (s.modCore f).memOk :=
  s.memOk_modTile _ h fun _ ht => ht

theorem State.memOk_modSync (s : State) (f : Sync → Sync) (h : s.memOk) : (s.modSync f).memOk :=
  s.memOk_modTile _ h fun _ ht => ht

theorem State.memOk_setCtl (s : State) (k : Nat) (v : W64) (h : s.memOk) : (s.setCtl k v).memOk :=
  s.memOk_modTile _ h fun _ ht => ht

theorem State.memOk_modPadAt (s : State) (k : Nat) (f : Paddock → Paddock) (h : s.memOk)
    (hf : ∀ p : Paddock, p.memOk → (f p).memOk) : (s.modPadAt k f).memOk :=
  ⟨h.1, FMap.all_modify Paddock.memOk _ _ _ h.2 hf⟩

theorem State.memOk_setFn (s : State) (n : Nat) (f : Func) (h : s.memOk) : (s.setFn n f).memOk := h

theorem State.memOk_modFn (s : State) (n : Nat) (f : Func → Func) (h : s.memOk) : (s.modFn n f).memOk := h

theorem State.memOk_hostWrite (s : State) (fn a : Nat) (bs : List Byte) (h : s.memOk) : (s.hostWrite fn a bs).memOk :=
  ⟨Mem.wf_write _ _ _ h.1, h.2⟩

theorem State.memOk_atTile (s : State) (i : Nat) (f : State → State) (h : s.memOk) (hf : ∀ u : State, u.memOk → (f u).memOk) :
    (s.atTile i f).memOk := hf (s.at i) h

theorem State.memOk_onPad (s : State) (k : Nat) (f : State → State) (h : s.memOk) (hf : ∀ u : State, u.memOk → (f u).memOk) :
    (s.onPad k f).memOk := hf { s with cur := { pad := k, tile := 0 } } h

/-- A fold of changes that each keep the memories keeps them. -/
theorem State.memOk_foldl {α : Type} (l : List α) (f : State → α → State) (s : State) (h : s.memOk)
    (hf : ∀ (u : State) (x : α), u.memOk → (f u x).memOk) : (l.foldl f s).memOk := by
  induction l generalizing s with
  | nil => exact h
  | cons x l ih => exact ih _ (hf s x h)

theorem State.memOk_eachTile (s : State) (f : State → State) (h : s.memOk) (hf : ∀ u : State, u.memOk → (f u).memOk) :
    (s.eachTile f).memOk := State.memOk_foldl _ _ s h fun u i hu => u.memOk_atTile i _ hu fun v hv => by
    split
    · exact hv
    · exact hf v hv

theorem State.memOk_putEntry (s : State) (fn : Nat) (ws : List W64) (h : s.memOk) : (s.putEntry fn ws).memOk :=
  State.memOk_modFn _ _ _ (State.memOk_hostWrite _ _ _ _ h)

theorem State.memOk_post (s : State) (fn : Nat) (ws : List W64) (h : s.memOk) : (s.post fn ws).memOk := by
  unfold State.post
  simp only
  split
  · split <;> exact h
  · split
    · exact h
    · exact s.memOk_putEntry fn ws h

theorem State.memOk_event (s : State) (fn code handle : Nat) (r0 r1 : W64) (h : s.memOk) :
    (s.event fn code handle r0 r1).memOk := s.memOk_post _ _ h

theorem State.memOk_done (s : State) (op : Nat) (c : Command) (st : Nat) (r0 r1 : W64) (h : s.memOk) :
    (s.done op c st r0 r1).memOk := s.memOk_post _ _ h

theorem State.memOk_traceTile (s : State) (kind aux time : Nat) (data : W64) (h : s.memOk) :
    (s.traceTile kind aux time data).memOk := by
  unfold State.traceTile
  simp only
  split
  · exact h
  · split
    · exact s.memOk_modTile _ h fun _ ht => ht
    · split
      · exact State.memOk_modPad _ _ (State.memOk_modFn _ _ _ (State.memOk_modTile _ _ h fun _ ht => ht)) fun _ hp => hp
      · exact State.memOk_modFn _ _ _ (State.memOk_modTile _ _ h fun _ ht => ht)

-- Parking at a pre-emption, and a freeze inside a hold (R224, R235)

/-- The drain's parking keeps the pool in its canonical form. -/
theorem Tile.park_wf (t : Tile) (draw : Nat) (h : Mem.wf t.st.pool.bytes = true) : Mem.wf (t.park draw).st.pool.bytes = true := by
  have go : ∀ (ds : List Nat) (u : Tile), Mem.wf u.st.pool.bytes = true →
      Mem.wf (ds.foldl (fun (u : Tile) d => u.modPool fun p =>
        p.put (spillSlot (BitVec.ofNat 6 d)) (natLE 8 (Config.parkAddress draw d).toNat)) u).st.pool.bytes = true := by
    intro ds
    induction ds with
    | nil => exact fun _ hu => hu
    | cons d ds ih => exact fun u hu => ih _ (Store.write_wf _ _ _ hu)
  exact go _ t h

@[simp] theorem Tile.unpark_core (t : Tile) : t.unpark.core = t.core := rfl
@[simp] theorem Tile.unpark_st (t : Tile) : t.unpark.st = t.st := rfl
@[simp] theorem Tile.unpark_mbox (t : Tile) : t.unpark.mbox = t.mbox := rfl
@[simp] theorem Tile.unpark_parked (t : Tile) : t.unpark.parked = 0 := rfl

/-- A tile in no run of micro-operations keeps its hold in a freeze, and so does one whose run has committed. -/
theorem Tile.freezeHold_eq (t : Tile) (h : ∀ r, t.core.hold = .uop r → r.committed = true) : t.freezeHold = t := by
  unfold Tile.freezeHold
  split <;> simp_all

-- Clocks (R18, R85)

theorem within5ppm_bounds (r : Int) : -5368 ≤ within5ppm r ∧ within5ppm r ≤ 5368 := by unfold within5ppm; omega

/-- No die's rate leaves 10 ppm of 1.6 GHz. -/
theorem dieRate_bounds (d k : Nat) : -10736 ≤ dieRate d k ∧ dieRate d k ≤ 10736 := by
  have h := within5ppm_bounds (Config.trim (dieX d) (dieY d))
  have g := within5ppm_bounds (Config.drift (dieX d) (dieY d) k)
  unfold dieRate; omega

@[simp] theorem dieDtick_shepherd (n : Nat) : dieDtick [] 105 n = n := by simp [dieDtick, FMap.getD, FMap.get?]

end Sys2Proof.Machine
end

