-- ==== Sys2Proof/Laws/Pages.lean ====
section
/-!
SUPPORT. Laws/Pages.lean: what giving back HBM pages does to the page entries of a paddock (R72, R248, R459).
-/
namespace Sys2Proof.Machine

/-- P is clear in an entry from which more than P is cleared. -/
theorem bit_clear_present (e m : W64) (h : m.getLsbD 63 = true) : bit (e &&& ~~~m) 63 = false := by
  simp [bit, h]

/-- A page taken away is absent, and keeps the rest of its entry but FWD and FRAME; taking others away changes no entry. -/
theorem hbmEntry_drop_self (p : Paddock) (g : Nat) (h : g < p.shape.chan * 625) :
    (p.dropPage g).hbmEntry g = p.hbmEntry g &&& ~~~(pPresent ||| pForward ||| span 39 0) := by
  show (if g < p.shape.chan * 625 then (FMap.get? (FMap.put p.pages g _) g).getD _ else _) = _
  rw [FMap.get?_put_same, if_pos h]
  rfl

theorem hbmEntry_drop_ne (p : Paddock) (g x : Nat) (e : g ≠ x) : (p.dropPage x).hbmEntry g = p.hbmEntry g := by
  show (if g < p.shape.chan * 625 then (FMap.get? (FMap.put p.pages x _) g).getD _ else _) = _
  rw [FMap.get?_put_ne _ _ _ _ e]
  rfl

theorem absent_drop_self (p : Paddock) (g : Nat) : bit ((p.dropPage g).hbmEntry g) 63 = false := by
  by_cases h : g < p.shape.chan * 625
  · rw [hbmEntry_drop_self p g h]
    exact bit_clear_present _ _ (by decide)
  · show bit (if g < p.shape.chan * 625 then _ else hbmDefault p.shape.world &&& ~~~pPresent) 63 = false
    rw [if_neg h]
    exact bit_clear_present _ _ (by decide)

theorem absent_drops (gs : List Nat) : ∀ (p : Paddock) (g : Nat), bit (p.hbmEntry g) 63 = false ∨ g ∈ gs →
    bit ((gs.foldl Paddock.dropPage p).hbmEntry g) 63 = false := by
  induction gs with
  | nil => exact fun _ _ h => h.elim id fun h => absurd h (List.not_mem_nil)
  | cons x xs ih =>
    intro p g h
    refine ih _ _ ?_
    by_cases e : g = x
    · exact .inl (e ▸ absent_drop_self p g)
    · rcases h with h | h
      · exact .inl ((hbmEntry_drop_ne p g x e).symm ▸ h)
      · exact .inr ((List.mem_cons.mp h).resolve_left e)

theorem pagesAt_none (p : Paddock) (pos : Nat) (h : ∀ i, i < 625 → bit (p.hbmEntry (i * p.shape.chan + pos)) 63 = false) :
    p.pagesAt pos = [] := by
  refine List.filter_eq_nil_iff.mpr fun g hg => ?_
  obtain ⟨i, hi, rfl⟩ := List.mem_map.mp hg
  simp [h i (List.mem_range.mp hi)]

theorem dropTlbs_pagesAt (p : Paddock) (pos : Nat) : p.dropTlbs.pagesAt pos = p.pagesAt pos := rfl

theorem drops_chan (gs : List Nat) (p : Paddock) : (gs.foldl Paddock.dropPage p).shape = p.shape := by
  induction gs generalizing p with
  | nil => rfl
  | cons x xs ih => exact (ih _).trans rfl

/-- A paddock of one channel that gives back all its pages has none. -/
theorem pagesAt_drops (p : Paddock) (gs : List Nat) (hc : p.shape.chan = 1) (h : ∀ i, i < 625 → i ∈ gs) :
    (gs.foldl Paddock.dropPage p).pagesAt 0 = [] := by
  refine pagesAt_none _ _ fun i hi => absent_drops gs p _ (.inr ?_)
  rw [drops_chan, hc]
  simpa using h i hi

end Sys2Proof.Machine
end

