-- ==== Sys2Proof/Laws/Service.lean ====
section
/-!
SUPPORT. Laws/Service.lean: while every die is in service nothing is cut off (R29), and what the wake of a paddock changes.
-/
namespace Sys2Proof.Machine

theorem Paddock.hbmCut_nil (p : Paddock) (g : Nat) : p.hbmCut [] g = false := by
  cases h : p.hbmServer g <;> simp [Paddock.hbmCut, h]

theorem Paddock.cutTarget_nil (p : Paddock) (t : Target) : p.cutTarget [] t = false := by
  cases t <;> simp [Paddock.cutTarget, Paddock.hbmCut_nil]

theorem State.placeCut_of_service (s : State) (x : Except Cause Target) (h : s.panel.outDies = []) : s.placeCut x = false := by
  cases x <;> simp [State.placeCut, h, Paddock.cutTarget_nil]

/-- With every die in service a region cycle loses nothing. -/
theorem State.sever_of_service (s : State) (h : s.panel.outDies = []) : s.sever = s := by
  simp [State.sever, h]

theorem State.copyCut_of_service (s : State) (g : Nat) (h : s.panel.outDies = []) : s.copyCut g = false := by
  cases hc : (s.pad.chans[g % s.pad.shape.chan]?).join <;> simp [State.copyCut, h, Paddock.hbmCut_nil, hc]

theorem Panel.outDies_of_none (q : Panel) (h : q.dies = []) : q.outDies = [] := by simp [Panel.outDies, h]

@[simp] theorem Paddock.wake_freeze (p : Paddock) (f : Freeze) : (p.wake f).freeze = some f := rfl
@[simp] theorem Paddock.wake_waking (p : Paddock) (f : Freeze) : (p.wake f).waking = true := rfl
@[simp] theorem Paddock.wake_tiles (p : Paddock) (f : Freeze) : (p.wake f).tiles = p.tiles := rfl
@[simp] theorem Paddock.wake_state (p : Paddock) (f : Freeze) : (p.wake f).state = p.state := rfl
@[simp] theorem Paddock.wake_rtick (p : Paddock) (f : Freeze) : (p.wake f).rtick = p.rtick := rfl
@[simp] theorem Paddock.wake_hbm (p : Paddock) (f : Freeze) : (p.wake f).hbm = p.hbm := rfl
@[simp] theorem Paddock.wake_pending (p : Paddock) (f : Freeze) : (p.wake f).pending = p.pending := rfl
@[simp] theorem Paddock.wake_place (p : Paddock) (f : Freeze) : (p.wake f).place = p.place := rfl
@[simp] theorem Paddock.wake_shape (p : Paddock) (f : Freeze) : (p.wake f).shape = p.shape := rfl

end Sys2Proof.Machine
end

