-- ==== Sys2Proof/Laws/Words.lean ====
section
/-!
SUPPORT. Laws/Words.lean: the opcode, the operands and the guard of a syllable word are the ones it was made of, and when a slot
reads such words.
-/
namespace Sys2Proof.Machine

@[simp] theorem sylWord_opcode (op : BitVec 9) (g : Guard) (o : BitVec 26) : BitVec.extractLsb' 39 9 (sylWord op g o) = op := by
  unfold sylWord
  rw [extract_append_high _ _ _ _ (by omega), extract_append_high _ _ _ _ (by omega),
    extract_append_high _ _ _ _ (by omega), extract_append_high _ _ _ _ (by omega)]
  exact extract_all op

@[simp] theorem sylWord_operands (op : BitVec 9) (g : Guard) (o : BitVec 26) : BitVec.extractLsb' 0 26 (sylWord op g o) = o :=
  extract_append_low _ o

@[simp] theorem sylWord_guard (op : BitVec 9) (g : Guard) (o : BitVec 26) : guardOf (sylWord op g o) = g := by
  obtain ⟨r, b, n⟩ := g
  simp only [guardOf, Guard.mk.injEq, sylWord]
  refine ⟨?_, ?_, ?_⟩
  · rw [extract_append_high _ _ _ _ (by omega), extract_append_high _ _ _ _ (by omega),
      extract_append_high _ _ _ _ (by omega)]
    exact extract_append_low _ _
  · rw [extract_append_high _ _ _ _ (by omega), extract_append_high _ _ _ _ (by omega)]
    exact extract_append_low _ _
  · rw [BitVec.getLsbD_append, if_neg (by omega), BitVec.getLsbD_append, if_pos (by omega)]
    simp

/-- A slot reads a word as an instruction where its operand field decodes to it and its operands are legal. -/
theorem reads_of_raw (sl : Slot) (op : BitVec 9) (o : BitVec 26) (i : Instr) (h : decodeRaw sl op.toNat o = .ok i)
    (hw : i.wf = true) : Reads sl op o i := by
  intro g hg
  simp only [decodeSyllable, sylWord_opcode, sylWord_operands, sylWord_guard, h, hg, hw]
  rfl

/-- A slot reads nothing where its operand field does not decode. -/
theorem readsNot_of_raw (sl : Slot) (op : BitVec 9) (o : BitVec 26) (e : DecodeErr)
    (h : decodeRaw sl op.toNat o = .error e) : ReadsNot sl op o := by
  intro g y
  simp only [decodeSyllable, sylWord_opcode, sylWord_operands, h]
  simp

end Sys2Proof.Machine
end

