-- ==== Sys2Proof/Tests/Slice0.lean ====
section
/-!
SUPPORT. Tests/Slice0.lean: checks of the model on small states, and for each statement of Certificates/Slice0/Obligations.lean
that has hypotheses a state and operands that meet them.
-/
namespace Sys2Proof.Tests

open Sys2Proof Sys2Proof.Machine

set_option Elab.async false

-- The states the tests start from

/-- A tile with the given core. -/
def withCore (c : Core) : Tile := { Tile.init with core := c }

/-- A running paddock of 2 × 2 tiles, whose tile 3 is the given one. -/
def testPad (t : Tile) : Paddock :=
  { Paddock.init with
    state := .running, rtick := 41, tiles := [(0, Tile.init), (1, Tile.init), (2, Tile.init), (3, t)]
    shape := { Shape.init with w := 2, h := 2, part := 0x1E0101, pauseMax := 1000, nstint := 2, strict := [true, false] } }

/-- The machine with that paddock as number 7, tile 3 current. -/
def testState (t : Tile) : State := { State.reset with pads := [(7, testPad t)], cur := { pad := 7, tile := 3 }, dtick := 1000 }

/-- Registers s1, s2, … hold the given values. -/
def testRegs (vs : List Nat) : Regs := (vs.mapIdx fun i v => (i + 1, w64 v)).filter fun e => e.2 != 0

/-- A tile in K whose registers hold the given values. -/
def kTile (vs : List Nat) : Tile := withCore { Core.init with regs := testRegs vs }

/-- The same in U. -/
def uTile (vs : List Nat) : Tile := withCore { Core.init with regs := testRegs vs, priv := false }

def kState (vs : List Nat) : State := testState (kTile vs)

def uState (vs : List Nat) : State := testState (uTile vs)

/-- The next state of one instruction, or the state itself. -/
def run1 (i : Instr) (s : State) : State := match exec i s with
  | .next t => t
  | _ => s

/-- The write an instruction leaves waiting to land: register, value, cycles left, flags. -/
def lands (i : Instr) (s : State) : List (Nat × Nat × Nat × Nat) :=
  (run1 i s).tile.core.pend.map fun w => (w.reg.toNat, w.val.toNat, w.left, w.flags.toNat)

/-- The cause an instruction is refused with at its tile, and word 3 of its record. -/
def traps (i : Instr) (s : State) : Nat × Nat :=
  let t := run1 i s
  (bits (t.ctl kTinfo0) 7 0, (t.ctl (kTinfo0 + 3)).toNat)

-- Well-formedness: an ill-formed term for each check is refused

theorem test_wf_guard : Guard.wf { reg := 0, bit := 1, neg := false } = false ∧ Guard.wf { reg := 0, bit := 0, neg := true } = false ∧
    Guard.wf { reg := 1, bit := 7, neg := true } = true := by decide
theorem test_wf_field : Instr.wf (.bfx 1 2 63 1) = false ∧ Instr.wf (.bfx 1 2 63 0) = true := by decide
theorem test_wf_pair : Instr.wf (.ldp 3 1 0) = false ∧ Instr.wf (.stp 3 1 0) = false ∧ Instr.wf (.ldp 2 1 0) = true := by decide
theorem test_wf_str : Instr.wf (.str 1 2 0 0) = false := by decide
theorem test_wf_spill : Instr.wf (.spill 0 1 0) = false ∧ Instr.wf (.fill 0) = false := by decide
theorem test_wf_fcvt : Instr.wf (.fcvt .f32 .f32 .rne 1 2) = false ∧ Instr.wf (.fcvt .i32 .i64 .rne 1 2) = false ∧
    Instr.wf (.fcvt .i32 .f16 .rne 1 2) = true := by decide
theorem test_wf_loop : Instr.wf (.loop 1 0 0) = false ∧ Instr.wf (.loopi 1 0 0) = false ∧ Instr.wf (.lbrk 0 0) = false := by decide
theorem test_wf_mcfg : Instr.wf (.mcfg 4 1 0) = false ∧ Instr.wf (.mcfg 3 1 24) = false ∧ Instr.wf (.mcfg 3 1 23) = true := by decide
theorem test_wf_vcfg : Instr.wf (.vcfg 16 1 0) = false ∧ Instr.wf (.vcfg 0 1 16) = false := by decide
theorem test_wf_dcfg : Instr.wf (.dcfg 32 1 0) = false ∧ Instr.wf (.dcfg 0 1 8) = false := by decide
theorem test_wf_iterators : Instr.wf (.tirw 32 1 0) = false ∧ Instr.wf (.tirr 1 0 8) = false ∧ Instr.wf (.fmtw 16 1) = false := by decide
theorem test_wf_rings : Instr.wf (.ringw 8 1 0) = false ∧ Instr.wf (.ringr 1 0 4) = false := by decide
theorem test_wf_kwr : Instr.wf (.kwr 0x0C 1) = false ∧ Instr.wf (.kwr 0x80 1) = false ∧ Instr.wf (.kwr 0x18 1) = true := by decide
theorem test_wf_tables : Instr.wf (.mgo { idx := 4, rep := 0, step := 0, dly := 0 }) = false ∧
    Instr.wf (.vchain { idx := 16, rep := 0, step := 0, dly := 0 }) = false ∧
    Instr.wf (.dcopy { idx := 32, rep := 0, step := 0, dly := 0 }) = false := by decide
theorem test_wf_repeats : Instr.wf (.mpop { idx := 7, rep := 1, step := 1, dly := 0 }) = false ∧
    Instr.wf (.mvwin { idx := 0, rep := 1, step := 0, dly := 0 }) = false ∧
    Instr.wf (.dfence { idx := 0, rep := 0, step := 1, dly := 0 }) = false := by decide
theorem test_wf_vector : Instr.wf (.vadd { vd := 1, va := 2, vb := 3, ty := .i8, md := 2 }) = false ∧
    Instr.wf (.vmin { vd := 1, va := 2, vb := 3, ty := .f32, md := 1 }) = false ∧
    Instr.wf (.vneg { vd := 1, va := 2, vb := 3, ty := .i8, md := 0 }) = false ∧
    Instr.wf (.vshl { vd := 1, va := 2, vb := 3, ty := .f32, md := 0 }) = false ∧
    Instr.wf (.vcmp { vd := 1, va := 2, vb := 3, ty := .f32, md := 4 }) = false := by decide
theorem test_wf_vector_more : Instr.wf (.vcvt .f32 .f32 0 0 1 2) = false ∧ Instr.wf (.vcvt .f32 .f16 4 0 1 2) = false ∧
    Instr.wf (.vrsqa { vd := 1, va := 2, vb := 0, ty := .f16, md := 0 }) = false ∧
    Instr.wf (.vtint { vd := 1, va := 2, vb := 0, ty := .f64, md := 0 }) = false ∧
    Instr.wf (.vmovs .f64 1 2 48 0) = false ∧ Instr.wf (.vperm { vd := 1, va := 2, vb := 3, ty := .i8, md := 1 }) = false := by decide
theorem test_wf_events : Instr.wf (.functionLevelReset 0) = false ∧ Instr.wf (.notify 193 0) = false ∧
    Instr.wf (.temperatureReport 20 0 0) = false ∧ Instr.wf (.dieFailure 0 1) = false ∧
    Instr.wf (.syncObjectPoisoned (.window 64)) = false ∧ Instr.wf (.hostRegisterWrite 1 .bar2 0 0) = false := by decide

-- Decoding: words of the listings of the spec, one family at a time, and the limits of their fields

/-- Listings of 07: ADDI, ORHI, the division family, the memory family, the atomics. -/
theorem test_decode_scalar :
    decodeSyllable .s 0x010A1870BFFD = .ok { guard := { reg := 5, bit := 3, neg := false }, instr := .addi 7 2 0x3FFD } ∧
    decodeSyllable .s 0x14800011DEF0 = .ok { guard := Guard.none, instr := .orhi 1 0xDEF0 1 } ∧
    decodeSyllable .s 0x040000304000 = .ok { guard := Guard.none, instr := .divn 3 1 0 } ∧
    decodeSyllable .s 0x358000400001 = .ok { guard := Guard.none, instr := .st .b8 4 0 1 } ∧
    decodeSyllable .s 0x370204308100 = .ok { guard := { reg := 1, bit := 0, neg := true }, instr := .str 3 2 1 0 } ∧
    decodeSyllable .s 0x388000310538 =
      .ok { guard := Guard.none, instr := .amo .add .i64 { acq := true, rel := true } 3 4 5 } := by decide

/-- Control flow, synchronisation and system words of the listings of 06, 07, 08, 14, 15. -/
theorem test_decode_control :
    decodeSyllable .s 0x400A07FFFFFE = .ok { guard := { reg := 5, bit := 0, neg := true }, instr := .br 0x3FFFFFE } ∧
    decodeSyllable .s 0x428000300200 = .ok { guard := Guard.none, instr := .loopi 3 2 0 } ∧
    decodeSyllable .s 0x498000310507 = .ok { guard := Guard.none, instr := .semwtt 3 4 5 7 } ∧
    decodeSyllable .s 0x598000004010 = .ok { guard := Guard.none, instr := .kwr 0x10 1 } ∧
    decodeSyllable .s 0x588000000000 = .ok { guard := Guard.none, instr := .eret } ∧
    decodeSyllable .s 0xE28000A2CC00 = .ok { guard := Guard.none, instr := .uopn 5 10 11 12 } := by decide

/-- Words of the engine slots (11, 12, 13), and words that no slot reads. -/
theorem test_decode_engines :
    decodeSyllable .m 0x028002300000 = .ok { guard := Guard.none, instr := .mscl { idx := 35, rep := 0, step := 0, dly := 0 } } ∧
    decodeSyllable .v 0x0F8000000000 = .ok { guard := Guard.none, instr := .vchain { idx := 0, rep := 0, step := 0, dly := 0 } } ∧
    decodeSyllable .v 0x0C0000100006 =
      .ok { guard := Guard.none, instr := .vtint { vd := 1, va := 0, vb := 0, ty := .f32, md := 0 } } ∧
    decodeSyllable .d 0x008000601049 = .ok { guard := Guard.none, instr := .dcopy { idx := 6, rep := 1, step := 1, dly := 9 } } ∧
    (decodeSyllable .d 0x008002800000).toOption = none ∧ (decodeSyllable .m 0x040000000000).toOption = none := by decide

/-- Words put together by hand from Tables 5-3, 7-6, 7-12, 5-9 and R205: FADD.f32.RTZ, SRNG.HI, DCFG, VADD.i16 with saturation. -/
theorem test_decode_by_hand :
    decodeSyllable .s 0x200000304216 = .ok { guard := Guard.none, instr := .fadd .f32 .rtz 3 1 2 } ∧
    decodeSyllable .s 0x5D00003042FF = .ok { guard := Guard.none, instr := .srng true 127 3 1 2 } ∧
    decodeSyllable .s 0x510001F04007 = .ok { guard := Guard.none, instr := .dcfg 31 1 7 } ∧
    decodeSyllable .v 0x018000108311 =
      .ok { guard := Guard.none, instr := .vadd { vd := 1, va := 2, vb := 3, ty := .i16, md := 1 } } := by decide

/-- SpecWordsDecode, its ranges: the last table of each family is read and the next one is not (R118, R119, R121). -/
theorem test_decode_ranges :
    let w := fun (op : BitVec 9) (idx : BitVec 6) => sylWord op Guard.none (idx ++ (0 : BitVec 8) ++ (0 : BitVec 6) ++ (0 : BitVec 6))
    let ok := fun (sl : Slot) (w : Syl) => (decodeSyllable sl w).toOption.isSome
    ok .m (w 1 3) = true ∧ ok .m (w 1 4) = false ∧ ok .m (w 4 3) = true ∧ ok .m (w 5 63) = true ∧ ok .m (w 6 7) = true ∧
      ok .m (w 6 8) = false ∧ ok .m (w 7 0) = true ∧ ok .m (w 8 0) = false ∧ ok .v (w 0x1F 15) = true ∧ ok .v (w 0x1F 16) = false ∧
      ok .v (w 0x20 0) = false ∧ ok .d (w 1 31) = true ∧ ok .d (w 1 32) = false ∧ ok .d (w 10 31) = true ∧ ok .d (w 10 32) = false ∧
      ok .d (w 11 0) = false := by decide

/-- DecodeAndEncodeAgree: a legal syllable of each slot, with its word. -/
theorem test_witness_encoding :
    Syllable.wf .s { guard := { reg := 5, bit := 3, neg := false }, instr := .addi 7 2 0x3FFD } = true ∧
    Syllable.wf .m { guard := Guard.none, instr := .mscl { idx := 35, rep := 0, step := 0, dly := 0 } } = true ∧
    Syllable.wf .v { guard := Guard.none, instr := .vchain { idx := 15, rep := 255, step := 63, dly := 63 } } = true ∧
    Syllable.wf .d { guard := Guard.none, instr := .dcopy { idx := 31, rep := 1, step := 1, dly := 9 } } = true ∧
    encode { guard := { reg := 5, bit := 3, neg := false }, instr := .addi 7 2 0x3FFD } = 0x010A1870BFFD := by decide

/-- NopsAndGuards: a legal and an illegal guard, an operand field that is not zero, a guard that holds and one that
does not. -/
theorem test_witness_guards :
    Guard.wf { reg := 0, bit := 0, neg := true } = false ∧ Guard.wf { reg := 5, bit := 3, neg := false } = true ∧
    (1 : BitVec 26) ≠ 0 ∧ (kState [0, 0, 0, 0, 8]).guardHolds { reg := 5, bit := 3, neg := false } = true ∧
    (kState [0, 0, 0, 0, 8]).guardHolds { reg := 5, bit := 3, neg := true } = false ∧
    (decodeSyllable .s 1).toOption = none := by decide

/-- SpecWordsDecode, ScalarOpcodeMap: the edges of what each cell accepts: reserved cells, types, modes, operands that must be zero. -/
theorem test_witness_opcode_maps :
    let ok := fun (sl : Slot) (op : BitVec 9) (o : BitVec 26) => (decodeSyllable sl (sylWord op Guard.none o)).toOption.isSome
    ([0x30, 0x3F, 0x4C, 0x5F, 0x74, 0x7F, 0x8B, 0x8F, 0x9B, 0x9F, 0xA8, 0xAF, 0xBB, 0x1BF].map fun op => ok .s op 0) =
      List.replicate 14 false ∧
    (([(0x40, 0x36), (0x40, 0x46), (0x40, 0x37), (0x43, 0x38), (0x44, 0x16), (0x46, 0x36), (0x46, 0x48), (0x4B, 0x26), (0x4B, 0x36)] :
        List (BitVec 9 × BitVec 8)).map fun x => ok .s x.1 (rrr 1 2 3 x.2)) = [true, false, false, true, false, true, false, true, false] ∧
    ([(2, 6), (2, 2), (2, 9), (6, 11), (3, 6)].map fun x => ok .s 0x47 (rrr 1 2 (BitVec.ofNat 6 x.2) (BitVec.ofNat 8 x.1))) =
      [true, false, false, true, false] ∧
    [ok .s 0x6C (ri 2 1 0), ok .s 0x6C (ri 3 1 0), ok .s 0x6E (rrr 1 2 0 1), ok .s 0x6E (rrr 1 2 0 0), ok .s 0x6E (rrr 1 2 1 64)] =
      [true, false, true, false, false] ∧
    [ok .s 0x6F (ri 0 1 0), ok .s 0x70 (ri 1 0 0), ok .s 0x71 (rrr 1 2 3 6), ok .s 0x71 (rrr 1 2 3 7), ok .s 0x72 (rrr 1 2 3 1),
      ok .s 0x73 (rrr 1 2 3 0xF8), ok .s 0x73 (rrr 1 2 3 0xF7)] =
      [false, true, true, false, false, true, false] ∧
    [ok .s 0x84 0, ok .s 0x84 (rrr 1 0 16 0), ok .s 0x88 4095, ok .s 0x88 4096, ok .s 0x89 1, ok .s 0x90 (rrr 2 0 0 0), ok .s 0x99 (rrr 0 1 0 63),
      ok .s 0x99 (rrr 0 1 0 64), ok .s 0x9A (rrr 1 0 0 127), ok .s 0x9A (rrr 1 0 0 128)] =
      [false, true, true, false, false, false, true, false, true, false] ∧
    [ok .s 0xA0 (rrr 3 1 0 23), ok .s 0xA0 (rrr 4 1 0 23), ok .s 0xA5 (rrr 15 1 0 0), ok .s 0xA7 (rrr 1 7 0 3), ok .s 0xA7 (rrr 1 8 0 3),
      ok .s 0xB3 (rrr 0 1 0 0x7F), ok .s 0xB3 (rrr 0 1 0 0xFF), ok .s 0xB3 (rrr 1 1 0 0xFF), ok .s 0xB4 (ri 1 0 15), ok .s 0xB4 (ri 1 0 16),
      ok .s 0xB8 (rrr 1 2 0 1), ok .s 0xB8 (rrr 1 2 0 2), ok .s 0x1FF (rrr 1 2 3 0), ok .s 0x1C0 (rrr 1 2 3 1)] =
      [true, false, true, true, false, true, true, false, true, false, true, false, true, false] ∧
    (([(0x01, 0), (0x01, 1), (0x03, 0x36), (0x03, 0x46), (0x03, 0x10), (0x03, 0x20), (0x07, 0x16), (0x0E, 0x00), (0x0E, 0x06), (0x12, 0x50),
        (0x12, 0x60), (0x18, 0x36), (0x18, 0x38), (0x1D, 0x10), (0x03, 0x09)] : List (BitVec 9 × BitVec 8)).map fun x => ok .v x.1 (rrr 1 2 3 x.2)) =
      [true, false, true, false, true, false, false, true, false, true, false, true, false, false, false] ∧
    [ok .v 0x1E (rrr 1 2 47 0x08), ok .v 0x1E (rrr 1 2 48 0x08), ok .v 0x11 (rrr 1 2 6 0x04), ok .v 0x11 (rrr 1 2 6 0x06), ok .v 0x11 (rrr 1 2 9 0x04),
      ok .v 0x11 (rrr 1 2 4 0x46), ok .v 0x11 (rrr 1 2 6 0x44), ok .v 0x11 (rrr 1 2 6 0x54)] =
      [true, false, true, false, false, false, true, false] := by decide +kernel

-- One step of the machine

/-- StepRunsDecodedBundle: the state of a fetched word presents its bundle, which is legal and passes its checks; ADDI s7 = s0 + 5,
alone in its bundle, is what the second clause runs, and an MSCL beside it what the first one does. -/
theorem test_witness_step :
    let y : Syllable := { guard := Guard.none, instr := .addi 7 0 5 }
    let s := State.reset.withFetchWord 48 (encode y).toNat
    let c : Ctx := { pad := 0, tile := 0 }
    let s1 : State := { s with agenda := [], cur := c }
    let p := s1.settled s1.raised.held s1.raised.waiting
    let bs := BitVec.ofNat 192 (encode y).toNat
    s.agenda = [.present c] ∧ s1.pad.clockOn = true ∧ s1.tile.core.faulted = false ∧ s1.raised.now = [] ∧ s1.tile.core.dead = false ∧ s1.timerDue = false ∧
      s1.tile.core.hold = .none ∧ s1.tile.core.halted = false ∧ s1.tile.core.entering = false ∧
      p.tile.core.pc.toNat ≤ 5460 ∧ p.fetch.2 = .ok bs ∧ decodeSyllable .s (bundleSyl bs .s) = .ok y ∧ bundleSyl bs .m = 0 ∧
      bundleSyl bs .v = 0 ∧ bundleSyl bs .d = 0 ∧ p.ctxOk bs y.instr = true ∧ p.guardHolds y.guard = true ∧
      y.instr.isNop = false ∧ p.scalarVerdict (p.resolve y.instr) = .ok := by decide +kernel

/-- The first clause: two syllables execute, the engine slot first. -/
theorem test_witness_step_bundle :
    let s := State.reset.withFetchWord 96 (0x028002300000 * 2 ^ 48 + 0x010000700005)
    let p : State := { s with agenda := [] }
    (match p.plan with
      | .go bs => p.fetch.1.runList bs
      | _ => []) = [.mscl { idx := 35, rep := 0, step := 0, dly := 0 }, .addi 7 0 5] := by decide +kernel

/-- A fetched ADDI waits to land one cycle on, and the next bundle is bundle 1 (R115, R135). -/
theorem test_step_addi :
    (match step (State.reset.withFetchWord 48 0x010000700005) with
      | .next t => (t.tile.core.pend.map fun w => (w.reg.toNat, w.val.toNat, w.left), t.tile.core.pc.toNat)
      | _ => ([], 0)) = ([(7, 5, 1)], 1) := by decide +kernel

/-- StepKeepsCanonicalMemory: a step that goes on from a state in canonical form. UserModeIsBound: a tile in U, an instruction of
a bundle. -/
theorem test_witness_canonical : State.reset.memOk ∧ (match step State.reset with
    | .next _ => true
    | _ => false) = true ∧ (uState [2, 3]).inK = false ∧ (Instr.add 3 1 2).slot.isSome = true :=
  ⟨⟨by decide, fun _ h => nomatch h⟩, by decide +kernel, by decide, by decide⟩

-- Integer instructions (07)

theorem test_add_wraps : lands (.add 3 1 2) (kState [2 ^ 64 - 1, 2]) = [(3, 1, 1, 0)] := by decide +kernel
theorem test_add_zero_register : lands (.add 0 1 2) (kState [1, 2]) = [] := by decide +kernel
theorem test_mulh_negative : lands (.mulh 3 1 2) (kState [2 ^ 64 - 1, 1]) = [(3, 2 ^ 64 - 1, 3, 0)] := by decide +kernel
theorem test_sar_sign : lands (.sar 3 1 2) (kState [2 ^ 63, 65]) = [(3, 3 * 2 ^ 62, 1, 0)] := by decide +kernel
theorem test_rotl : lands (.rotl 3 1 2) (kState [2 ^ 63 + 1, 1]) = [(3, 3, 1, 0)] := by decide +kernel
theorem test_clz_zero : lands (.clz 3 1) (kState [0]) = [(3, 64, 1, 0)] := by decide +kernel
theorem test_popc : lands (.popc 3 1) (kState [0xF0F]) = [(3, 8, 1, 0)] := by decide +kernel
theorem test_bfxs : lands (.bfxs 3 1 4 3) (kState [0x80]) = [(3, 2 ^ 64 - 8, 1, 0)] := by decide +kernel
theorem test_bfi : lands (.bfi 3 1 4 3) (kState [0xFA, 0, 0xFFF]) = [(3, 0xFAF, 1, 0)] := by decide +kernel
theorem test_orhi : lands (.orhi 1 0xDEF0 1) (kState [0x1234]) = [(1, 0xDEF01234, 1, 0)] := by decide +kernel
theorem test_lea : lands (.lea 3 1 2 3) (kState [5, 2]) = [(3, 21, 1, 0)] := by decide +kernel
theorem test_cmpi_unsigned : lands (.cmpi .ltn 3 1 0x3FFF) (kState [5]) = [(3, 1, 1, 0)] := by decide +kernel

/-- R165: the corners of division. -/
theorem test_div_corners :
    lands (.div 3 1 2) (kState [7, 0]) = [(3, 2 ^ 64 - 1, 18, 0)] ∧ lands (.rem 3 1 2) (kState [7, 0]) = [(3, 7, 18, 0)] ∧
    lands (.div 3 1 2) (kState [2 ^ 63, 2 ^ 64 - 1]) = [(3, 2 ^ 63, 18, 0)] ∧
    lands (.rem 3 1 2) (kState [2 ^ 64 - 7, 2]) = [(3, 2 ^ 64 - 1, 18, 0)] := by decide +kernel

/-- DivisionAndImmediates: operands of each of its clauses, the overflowing quotient among them. -/
theorem test_witness_division :
    (kState [7, 0]).rd 2 = 0 ∧ ((kState [2 ^ 63, 2 ^ 64 - 1]).rd 1).toInt = -2 ^ 63 ∧
    ((kState [2 ^ 63, 2 ^ 64 - 1]).rd 2).toInt = -1 ∧ (kState [7, 2]).rd 2 ≠ 0 ∧
    ¬ (((kState [7, 2]).rd 1).toInt = -2 ^ 63 ∧ ((kState [7, 2]).rd 2).toInt = -1) := by decide +kernel

/-- DivisionAndImmediates, CompareSelectConstants: values on each side of what their words may hold. -/
theorem test_witness_fields :
    64 ≤ (64 : BitVec 14).toNat ∧ 6 ≤ (6 : BitVec 8).toNat ∧ 64 ≤ (64 : BitVec 8).toNat ∧
    (63 : BitVec 6).toNat + ((0 : BitVec 6).toNat + 1) ≤ 64 ∧ 64 ≤ (63 : BitVec 6).toNat + (1 : BitVec 8).toNat ∧
    8 ≤ (8 : BitVec 8).toNat ∧ (1 : BitVec 2) ≠ 0 ∧ (kState [1, 2, 3]).rd 3 ≠ 0 ∧ (kState [1, 2, 0]).rd 3 = 0 := by decide +kernel

-- Scalar floating point (07)

/-- 1.5 + 2.5 = 4 in f32, exact. -/
theorem test_fadd : lands (.fadd .f32 .rne 3 1 2) (kState [0x3FC00000, 0x40200000]) = [(3, 0x40800000, 4, 0)] := by decide +kernel
theorem test_fmul_inexact : lands (.fmul .f32 .rtz 3 1 2) (kState [0x3F800001, 0x3F800001]) = [(3, 0x3F800002, 4, 1)] := by
  decide +kernel
theorem test_fmin_nan : lands (.fmin .f32 3 1 2) (kState [0x7FC00000, 0x40200000]) = [(3, 0x40200000, 4, 0)] := by decide +kernel
theorem test_fsgn : lands (.fsgn .jn .f32 3 1 2) (kState [0x3FC00000, 0x40200000]) = [(3, 0xBFC00000, 1, 0)] := by decide +kernel
/-- R179: the ten classes. -/
theorem test_fclass : ([0xFF800000, 0xBF800000, 0x80000001, 0x80000000, 0, 1, 0x3F800000, 0x7F800000, 0x7F800001, 0x7FC00000].map fun p =>
    (lands (.fclass .f32 3 1) (kState [p])).map fun w => w.2.1) = [[1], [2], [4], [8], [16], [32], [64], [128], [256], [512]] := by
  decide +kernel
theorem test_fcvt : lands (.fcvt .i32 .f32 .rtz 3 1) (kState [0xC0600000]) = [(3, 2 ^ 64 - 3, 4, 1)] := by decide +kernel

/-- FloatResults and FloatSelections: a NaN and a number, two types that differ, rounding on the grid and off it. -/
theorem test_witness_float :
    (widen FpTy.f32.fmt 0x7FC00000).isNan = true ∧ (widen FpTy.f32.fmt 0x3FC00000).isNan = false ∧
    (widen FpTy.f32.fmt 0x7F800001).isSig = true ∧ ScalarTy.i32 ≠ ScalarTy.f32 ∧
    roundAt false 5 0 1 .rne = (2, true) ∧ roundAt false 4 0 1 .rne = (2, false) ∧ roundAt false 5 1 1 .rne = (5, false) ∧
    roundAt true 5 0 1 .rdn = (3, true) ∧ roundAt false 7 0 1 .rne = (4, true) := by decide +kernel

/-- FloatResults, the modes: none of the four named modes is the stochastic one. -/
theorem test_witness_modes : ∀ u, Rnd.rne ≠ .rsr u := nofun

/-- FloatResults: infinity times zero with a number and with a quiet NaN, and one times one with a signalling NaN (R177); an FRCPA of a
zero, of an infinity, of 1.0 and of the least subnormal, whose reciprocal overflows; an FRSQA of 4.0 and of a negative number (R181 to
R183); and a bf16 from f32, whose bits above 15 are zeros. -/
theorem test_witness_float_cases :
    let one := fun (i : Instr) (l x y z : Nat) => (lands i (kState [x, y, z])).map fun w => if w.2.2.1 = l then (w.2.1, w.2.2.2) else (0, 99)
    let fma := one (.ffma .f32 .rne 3 1 2) 5
    let rcp := fun (x : Nat) => one (.frcpa .f32 3 1) 6 x 0 0
    let rsq := fun (x : Nat) => one (.frsqa .f32 3 1) 6 x 0 0
    fma 0x7F800000 0 0x3F800000 = [(0x7FC00000, flNV.toNat)] ∧ fma 0x3F800000 0x3F800000 0x7F800001 = [(0x7FC00000, flNV.toNat)] ∧
    fma 0x3F800000 0x3F800000 0x40000000 = [(0x40400000, 0)] ∧
    rcp 0x80000000 = [(0xFF800000, flDZ.toNat)] ∧ rcp 0xFF800000 = [(0x80000000, 0)] ∧ rcp 1 = [(0x7F800000, flOF.toNat)] ∧
    rsq 0xBF800000 = [(0x7FC00000, flNV.toNat)] ∧ one (.fcvt .bf16 .f32 .rne 3 1) 4 0xBF800000 0 0 = [(0xBF80, 0)] := by decide +kernel

-- Registers (06)

/-- WritesLandAtTheirLatency: writes wait at tile 3, an older one of longer latency among them, and a third is issued. -/
theorem test_witness_landing :
    let a : RegWrite := { reg := 5, val := 1, left := 4, flags := 0 }
    let b : RegWrite := { reg := 5, val := 2, left := 1, flags := 0 }
    let s := testState (withCore { Core.init with pend := [a, b] })
    let t := s.laterFl 5 9 2 0
    (1 ≤ 2) ∧ (∀ w ∈ s.tile.core.pend, 1 ≤ w.left) ∧ (5 : Reg) ≠ 0 ∧
    (∀ w ∈ s.tile.core.pend, w.reg = 5 → w.left ≤ 2 ∨ 3 < w.left) ∧ (∃ w ∈ s.tile.core.pend, w.reg = 5 ∧ 2 < w.left ∧ w.left ≤ 4) ∧
    ([0, 1, 2, 3, 4].map fun n => (t.rdAfter n 5).toNat) = [0, 2, 9, 9, 1] := by decide +kernel

/-- RegisterResultFrame: instructions of each kind that go on, with a destination and with none. -/
theorem test_witness_frames :
    let s := kState [0x3F800001, 2]
    let t := fun (i : Instr) => match exec i s with
      | .next t => t.tile.core.pend.map fun w => (w.reg.toNat, w.flags.toNat)
      | _ => [(99, 0)]
    [t (.add 3 1 2), t (.add 0 1 2), t (.mbrd 3 2), t (.fmul .f32 .rtz 0 1 1)] = [[(3, 0)], [], [(3, 0)], [(0, 1)]] := by decide +kernel

-- Control transfers, loops, holds (06, 07)

theorem test_br_target : ((run1 (.br 0x3FFFFFE) (testState (withCore { Core.init with pc := 10 }))).tile.core.xfer.map fun x =>
    (x.target.toNat, x.left, x.jump)) = some (8, 3, true) := by decide +kernel
theorem test_call_link : lands (.call 5) (testState (withCore { Core.init with pc := 10 })) = [(63, 13, 1, 0)] := by decide +kernel

/-- A core in a delay bundle. -/
def delayCore : Core := { Core.init with xfer := some { target := 100, left := 2, jump := true } }

theorem test_br_in_delay : (traps (.br 1) (testState (withCore delayCore))).1 = 0x01 := by decide +kernel

/-- TransfersTaken: outside the delay bundles and in one. -/
theorem test_witness_transfers : (kState []).inDelay = false ∧ (testState (withCore delayCore)).inDelay = true := by decide +kernel

/-- EndOfABundle: a pending BR and a pending CALL at each count of moves to go, a loop that the target leaves, one it stays in, and
a level with iterations left and one without. -/
theorem test_witness_bundle_ends :
    let lv := fun (n : Nat) => ({ active := true, first := 4, last := 9, cnt := w64 n, trip := 3 } : Level)
    let x := fun (n : Nat) (j : Bool) => ({ target := 5, left := n, jump := j } : Xfer)
    let c := { Core.init with pc := 9, levels := [(0, lv 1), (1, lv 2)] }
    ([1, 2, 3].map fun n => ({ c with xfer := some (x n true) } : Core).next) = [none, none, none] ∧
    (∀ l, l < 4 → (Core.init.level l).active = false) ∧
    (∀ l, l < 2 → (c.level l).active = true ∧ (c.level l).last = c.pc.toNat) ∧
    (c.level 0).cnt.toNat + 1 < (c.level 0).trip.toNat ∧ ¬ (c.level 1).cnt.toNat + 1 < (c.level 1).trip.toNat ∧
    (({ c with levels := [(0, lv 1)], xfer := some { x 1 true with target := 20 } } : Core).advance.level 0).active = false ∧
    (({ c with levels := [(0, lv 1)], xfer := some { x 1 false with target := 20 } } : Core).advance.level 0).active = true ∧
    c.advance.pc = 4 ∧ (c.advance.level 0).cnt = 2 ∧ (c.advance.level 1).active = false := by decide +kernel

/-- EndOfABundle: a level that ends elsewhere inside one that ends here; a bundle past which no level is tested, an inner level being
active; a transfer two moves away while a level is tested. -/
theorem test_witness_bundle_ends_more :
    let lv := fun (l n : Nat) => ({ active := true, first := 4, last := l, cnt := w64 n, trip := 3 } : Level)
    let c := { Core.init with pc := 9, levels := [(0, lv 9 1), (1, lv 12 1)] }
    let d := { c with levels := [(0, lv 12 1), (1, lv 9 1)], xfer := some { target := 5, left := 2, jump := true } }
    ((c.level 0).last = 9 ∧ (c.level 1).active = true ∧ (c.level 1).last ≠ 9) ∧ (c.advance.pc, (c.advance.level 0).cnt) = (10, 1) ∧
    ((d.level 1).last = 9 ∧ (d.level 2).active = false ∧ (d.level 3).active = false ∧ (d.level 0).last ≠ 9) ∧
    (d.advance.pc, (d.advance.level 1).cnt, d.advance.xfer.map (·.left)) = (4, 2, some 1) := by decide +kernel

/-- LoopInstructions: a LOOP inside an outer body and on its last bundle, one that may not stand there, a count of zero and one
that is not, an LBRK in its body and one outside it. -/
theorem test_witness_loops :
    let c := { Core.init with pc := 6, levels := [(0, { active := true, first := 4, last := 9, cnt := 0, trip := 3 })], regs := testRegs [2, 0] }
    let s := testState (withCore c)
    let may := fun (l len : Nat) => !s.inDelay && (List.range 4).all fun k =>
      !(c.level k).active || (decide (k < l) && decide (6 + len ≤ (c.level k).last))
    (may 1 3, may 1 4, may 0 3) = (true, false, false) ∧ s.rd 1 ≠ 0 ∧ s.rd 2 = 0 ∧
    ((run1 (.loop 1 3 1) s).tile.core.level 1) = { active := true, first := 7, last := 9, cnt := 0, trip := 2 } ∧
    (run1 (.loop 2 3 1) s).tile.core.next = some 10 ∧ (run1 (.lbrk 3 0) s).tile.core.next = some 10 ∧
    (c.level 0).active = true ∧ (c.level 0).first ≤ 6 ∧ 6 < (c.level 0).last ∧ (c.level 0).last - 6 = 3 ∧
    (traps (.lbrk 2 0) s).1 = 0x01 := by decide +kernel

/-- HoldsPausesHalts: outside delay bundles and service in each mode, under service, at both ends of an IDLE, and at a TRAP. -/
theorem test_witness_holds :
    let s := kState [3]
    let loose := { s with pads := [(7, { testPad (kTile [3]) with strict := false, cls := 1 })] }
    let idle := fun (n : Nat) => testState (withCore { Core.init with hold := .idle n })
    s.inDelay = false ∧ s.tile.core.svc = false ∧ s.strict = true ∧ loose.strict = false ∧ loose.tile.core.aligning = false ∧
    (testState (withCore { Core.init with svc := true })).tile.core.svc = true ∧
    (idle 0).tile.core.hold = .idle 0 ∧ (idle 1).tile.core.hold = .idle (0 + 1) ∧ (idle 1).tile.core.halted = false ∧
    (idle 1).tile.core.entering = false ∧ s.tile.core.halted = false ∧ s.tile.core.trapAfter = none ∧
    (run1 (.idle 1 4) s).tile.core.hold = .idle 7 := by decide +kernel

-- Traps (17)

/-- The control registers of a tile with a handler at bundle 100. -/
def handlerCtl : Regs := [(kTvec, fld 1 63 ||| fld (24 * 100) 0)]

/-- A tile in U at bundle 10 with a handler. -/
def trapTile : Tile := { withCore { Core.init with pc := 10, priv := false } with ctl := handlerCtl }

theorem test_trap_entry :
    let t := (testState trapTile).takeFaultAt (sFault .privilege 5) 240
    (t.tile.core.pc.toNat, t.tile.core.priv, t.tile.core.ppriv, (t.ctl kTepc).toNat, (t.ctl (kTinfo0 + 3)).toNat) =
      (100, true, false, 240, 5) := by decide +kernel
theorem test_eret_returns :
    let t := testState { withCore { Core.init with pc := 101, ppriv := false } with ctl := (kTepc, 264) :: handlerCtl }
    ((run1 .eret t).tile.core.next, (run1 .eret t).tile.core.priv) = (some 11, false) := by decide +kernel
theorem test_eret_in_user : (traps .eret (uState [])).1 = Cause.privilege.code := by decide +kernel

/-- TrapEntry: a tile-local cause with a handler installed, at a tile with no sequence, with a transfer pending or not and in an IDLE;
and a tile with two conditions to raise. -/
theorem test_witness_trap_entry :
    let s := testState trapTile
    let f := sFault .privilege 5
    f.cause.wide s.strict = false ∧ s.tile.noHandler = false ∧ s.tile.core.hold = .none ∧ s.tile.core.xfer = none ∧
    delayCore.xfer = some { target := 100, left := 2, jump := true } ∧
    (testState { withCore { Core.init with hold := .idle 5 } with ctl := handlerCtl }).tile.core.hold = .idle 5 ∧
    (testState { withCore { Core.init with conds := [f, f], held := [] } with ctl := handlerCtl }).raised.now = [f, f] ∧
    (∀ r, s.tile.core.hold ≠ .uop r) := by
  refine ⟨by decide +kernel, by decide +kernel, by decide +kernel, by decide +kernel, by decide +kernel, by decide +kernel, by decide +kernel, ?_⟩
  exact fun _ h => nomatch h

/-- PaddockWideFault: a cause of the whole paddock, a halted core, no handler, a handler address that is no bundle's, and one past
the store. -/
theorem test_witness_wide_faults :
    (sFault .watchdog 0).cause.wide true = true ∧ (testState (withCore { Core.init with halted := true })).tile.core.halted = true ∧
    bit ((kState []).ctl kTvec) 63 = false ∧
    bits ((testState { kTile [] with ctl := [(kTvec, fld 1 63 ||| 25)] }).ctl kTvec) 21 0 % 24 ≠ 0 ∧
    131040 < bits ((testState { kTile [] with ctl := [(kTvec, fld 1 63 ||| 131064)] }).ctl kTvec) 21 0 := by decide +kernel

/-- TrapReturns: a tile within the bounds it asks for, in each hold it names; ERET in K with and without a transfer to take up, in
U, in a delay bundle, and with a tepc that is no bundle's. -/
theorem test_witness_trap_returns :
    trapTile.core.pc.toNat ≤ 5460 ∧ (∀ l, l < 4 → (trapTile.core.level l).first < 2 ^ 13 ∧ (trapTile.core.level l).last < 2 ^ 13) ∧
    (∃ x, delayCore.xfer = some x ∧ (x.left = 1 ∨ x.left = 2 ∨ x.left = 3)) ∧ trapTile.core.hold = .none ∧
    (∃ n, Hold.idle 1 = .idle n ∧ 0 < n ∧ n < 2 ^ 64) ∧ (∃ n k tok, Hold.fbar 0 3 7 = .fbar n k tok ∧ n < 2 ^ 64 ∧ k < 4) ∧
    (kState []).inK = true ∧ (kState []).inDelay = false ∧ ((kState []).ctl kTepc).toNat % 24 = 0 ∧ (uState []).inK = false ∧
    (testState (withCore delayCore)).inK = true ∧ (testState (withCore delayCore)).inDelay = true ∧
    ((testState { kTile [] with ctl := [(kTepc, 25)] }).ctl kTepc).toNat % 24 ≠ 0 :=
  ⟨by decide, by decide, ⟨_, rfl, by decide⟩, rfl, ⟨_, rfl, by decide⟩, ⟨_, _, _, rfl, by decide⟩, by decide, by decide, by decide,
    by decide, by decide, by decide, by decide⟩

-- Memory (07, 09, 15)

/-- AddressMap: the first and the last address of every range, and the addresses on both sides of each gap (Table 9-5). -/
theorem test_witness_address_map :
    let sh := { Shape.init with w := 2, h := 2, part := 0x1E0101 }
    (([0, 0x1FFFFF, 0x400000, 0x403FFF, 0x010010200000, 0x0101FFFFFFF, 0x1FFFFFFFFFFF, 0x23FFFFFFFFFF, 0x3FFFFFFFFFFF,
        0x7F0000010FFF] : List Nat).map fun a => sh.target 0 a) =
      [.own 0, .own 0x1FFFFF, .table 0, .table 0x3FFF, .bad, .bad, .hbm (2 ^ 23 - 1) 0x1FFFFF,
        .window 63 (2 ^ 15 - 1) 0x1FFFFF, .host (2 ^ 23 - 1) 0x1FFFFF, .caps 0xFFF] ∧
    (([0x200000, 0x3FFFFF, 0x404000, 0x00FFFFFFFFFF, 0x012000000000, 0x0FFFFFFFFFFF, 0x240000000000, 0x2FFFFFFFFFFF, 0x400000000000,
        0x7F000000FFFF, 0x7F0000011000] : List Nat).map fun a => sh.target 0 a) = List.replicate 11 .bad ∧
    (([(0, 0), (1, 0), (0, 1), (1, 1), (2, 0), (-1, 0)] : List (Int × Int)).map fun o =>
      sh.target 0 (0x010000000000 + (o.2 + 128) * 2 ^ 29 + (o.1 + 128) * 2 ^ 21 + 8).toNat) =
      [.own 8, .tile 1 8, .tile 2 8, .tile 3 8, .bad, .bad] := by decide +kernel

theorem test_ld_issue : ((run1 (.ld .b4 3 1 0x3FFF) (kState [0x1004])).tile.core.acc.map fun a => (a.ea, a.left)) = [(0x1000, 1)] := by
  decide +kernel
theorem test_st_misaligned : traps (.st .b8 3 1 0) (kState [0x1004]) = (0x0D, 0x1004) := by decide +kernel
theorem test_st_pen_in_user : traps (.st .b8 3 1 0) (uState [0x1FF000]) = (0x0A, 0x1FF000) := by decide +kernel

/-- ScalarAccessIssue: an aligned address within reach, one in table memory, one in the capability list, a misaligned one, one beyond
the store, and one in the pen for a tile in U. -/
theorem test_witness_access :
    let s := kState [0x1FFFF8]
    let u := uState [0x1FFFF8]
    s.pad.shape.target 3 0x1FFFF8 = .own 0x1FFFF8 ∧ 0x1FFFF8 + 8 ≤ 0x200000 ∧ s.inK = true ∧ u.inK = false ∧
    s.pad.shape.penBase + 8 ≤ 0x1FFFF8 + 8 ∧ (s.rd 1 + (0 : BitVec 14).signExtend 64 * 8).toNat % 8 = 0 ∧
    s.pad.shape.target 3 0x400000 = .table 0 ∧ s.pad.shape.target 3 0x7F0000010000 = .caps 0 ∧ s.tile.core.svc = false ∧
    ((kState [4]).rd 1).toNat % 8 ≠ 0 ∧ s.pad.shape.target 3 0x200000 = .bad := by decide +kernel

/-- ScalarAccessIssue, NetworkStores: an atomic and STR under pause-point service (R432), which stay in service. -/
theorem test_witness_service_illegal :
    let s := testState (withCore { Core.init with svc := true })
    let amo := Instr.amo .add .i32 { acq := false, rel := false } 3 1 2
    s.tile.core.svc = true ∧ (traps amo s).1 = 0x01 ∧ (traps (.str 3 1 0 0) s).1 = 0x01 ∧ (run1 amo s).tile.core.svc = true ∧
    (run1 (.str 3 1 0 0) s).tile.core.svc = true := by decide +kernel

/-- A pool with a word at 0x1000, one poisoned word at 0x2000, and one with a flipped bit at 0x3000. -/
def testPool : Store :=
  { Store.empty with bytes := [(0x1000, 0x80), (0x1001, 0x81), (0x1007, 0xFF)], poison := [0x400] }

def poolTile : Tile := { kTile [] with st := { Stores.empty with pool := testPool } }

theorem test_load_signed :
    let t := (testState poolTile).perform { acc := .load .b2 true 3, ea := 0x1000, left := 1 }
    (t.tile.core.pend.map fun w => (w.reg.toNat, w.val.toNat, w.left)) = [(3, 2 ^ 64 - 0x7E80, 3)] := by decide +kernel

/-- LoadAndStoreCycles: loads of table memory, and of the capability list, whose first word begins with its magic (R24). -/
theorem test_witness_table_and_list_loads :
    let s := testState { kTile [] with st := { Stores.empty with tmem := { Store.empty with bytes := [(0x10, 0x80), (0x11, 0x81)] } } }
    let ld := fun (w : Width) (sx : Bool) (ea : Nat) => (s.perform { acc := .load w sx 3, ea := ea, left := 1 }).tile.core.pend.map (·.val)
    s.pad.shape.target s.cur.tile 0x400010 = .table 0x10 ∧ s.tile.st.tmem.errs = [] ∧ s.tile.st.tmem.poison = [] ∧
    s.pad.shape.target s.cur.tile 0x7F0000010008 = .caps 8 ∧ 8 % Width.b8.bytes = 0 ∧ 8 % 16 ≠ 0 ∧
    ld .b2 true 0x400010 = [BitVec.ofInt 64 (0x8180 - 0x10000)] ∧ ld .b2 false 0x400010 = [0x8180] ∧
    ld .b8 false 0x7F0000010008 = [capWord s.panel.retire2 8] ∧
    ld .b1 false 0x7F0000010009 = [BitVec.ofNat 64 (bits (capWord s.panel.retire2 8) 15 8)] := by decide +kernel

theorem test_load_poisoned :
    let t := (testState poolTile).perform { acc := .load .b2 true 3, ea := 0x2000, left := 1 }
    (t.tile.core.pend, t.tile.core.conds.map fun f => (f.cause, f.t3.toNat)) = ([], [(Cause.dataPoison, 0x2000)]) := by decide +kernel
theorem test_store_bytes :
    let t := (testState poolTile).perform { acc := .store [1, 2, 3, 4, 5, 6, 7, 8], ea := 0x2000, left := 1 }
    ([0x1FFF, 0x2000, 0x2007, 0x2008].map fun a => (t.byteAt (.pool 7 3) a).toNat, t.tile.st.pool.poison) = ([0, 1, 8, 0], []) := by
  decide +kernel

/-- LoadAndStoreCycles, AtomicCycle: a pool in canonical form with clean and poisoned words, stores of each width, an aligned and
full one, a narrow one that meets poison; MXDBG is 0. -/
theorem test_witness_cycles :
    let s := testState poolTile
    s.pad.shape.target s.cur.tile 0x1000 = .own 0x1000 ∧ Mem.wf s.tile.st.pool.bytes = true ∧ s.tile.st.pool.errs = [] ∧
    (∀ x ∈ s.tile.st.pool.poison, x < 0x1000 / 8 ∨ (0x1000 + 16 - 1) / 8 < x) ∧
    (∃ x ∈ s.tile.st.pool.poison, 0x2000 / 8 ≤ x ∧ x ≤ (0x2000 + 2 - 1) / 8) ∧ bit (s.ctl kMxdbg) 0 = false ∧
    ([1] : List Byte).length ∈ [1, 2, 4, 8, 16] ∧ 0x2000 % 16 = 0 ∧ s.inK = true ∧
    (kState []).tile.st.pool.poison = [] ∧ FpTy.f32.bytes = AmoTy.i32.bytes := by decide +kernel

/-- A paddock with a KIND 4 binding of the pool word at 0x2000. -/
def syncWordState (t : Tile) : State :=
  (testState t).modPad fun p => { p with shape := { p.shape with binds := [{ start := 0, len := 8, obj := 4, addr := 0x2000 }] } }

/-- LoadAndStoreCycles: a poisoned word that a KIND 4 binding names, for a load, and as the second word of a store of 16 bytes in each
mode. -/
theorem test_witness_sync_words :
    let u := { uTile [] with st := poolTile.st }
    let s := syncWordState u
    let k := syncWordState poolTile
    let st := fun (s : State) (ea n : Nat) =>
      let t := s.perform { acc := .store (List.replicate n 7), ea := ea, left := 1 }
      (t.tile.core.conds.map (·.cause), (t.byteAt (.pool 7 3) 0x2000).toNat)
    s.pad.shape.isSyncWord 3 0x2000 = true ∧ s.inK = false ∧ k.inK = true ∧ 0x1FF8 % 8 = 0 ∧ 0x1FF0 % 16 = 0 ∧
    (st s 0x2000 8, st s 0x2000 4, st k 0x2000 4, st k 0x2000 8) =
      (([.syncPoison], 0), ([.syncPoison], 0), ([.dataPoison], 0), ([], 7)) ∧
    ((s.perform { acc := .load .b2 true 3, ea := 0x2000, left := 1 }).tile.core.conds.map (·.cause)) = [.syncPoison] := by
  decide +kernel

/-- A 16-byte store in U whose second word alone is such a word writes nothing (R409). -/
theorem test_store_pair_sync_word :
    let u := { uTile [] with st := { Stores.empty with pool := { Store.empty with poison := [0x401] } } }
    let s := (testState u).modPad fun p => { p with shape := { p.shape with binds := [{ start := 0, len := 8, obj := 4, addr := 0x2008 }] } }
    let t := s.perform { acc := .store (List.replicate 16 7), ea := 0x2000, left := 1 }
    (t.tile.core.conds.map fun f => (f.cause, f.t3.toNat), t.tile.st.pool.bytes, t.tile.st.pool.poison) =
      ([(.syncPoison, 0x2000)], [], [0x401]) := by decide +kernel

theorem test_amo_max :
    let s := testState { kTile [] with st := { Stores.empty with pool := { Store.empty with bytes := [(0x1000, 5)] } } }
    let t := s.perform { acc := .amo .max .i32 { acq := false, rel := false } 3 9, ea := 0x1000, left := 1 }
    ((t.byteAt (.pool 7 3) 0x1000).toNat, t.tile.core.pend.map fun w => (w.reg.toNat, w.val.toNat, w.left)) = (9, [(3, 5, 5)]) := by
  decide +kernel

/-- SpillAndFill: an aligned word of the pen, the same for a tile in U, a word outside it, a misaligned address, and a register that is
parked and one that is not. -/
theorem test_witness_spill :
    let s := kState [0x1FF000]
    let p := testState { kTile [] with ctl := [(kSpmap, 8)] }
    s.pad.shape.target s.cur.tile 0x1FF000 = .own 0x1FF000 ∧ 0x1FF000 + 8 ≤ 0x1FFD80 ∧ s.pad.shape.penBase ≤ 0x1FF000 ∧
    s.pad.shape.spBytes ≤ 0x1FF000 ∧ 0x1FF000 % 8 = 0 ∧ (3 : Reg) ≠ 0 ∧ (p.ctl kSpmap).getLsbD 3 = true ∧
    (p.ctl kSpmap).getLsbD 4 = false ∧ (traps (.spill 3 1 0) (kState [0x1000])).1 = 0x0A ∧ (traps (.spill 3 1 0) (kState [4])).1 = 0x0D := by
  decide +kernel

theorem test_fill_brings_back :
    let s := (kState [0x1FF000, 0, 77]).perform { acc := .spill 3 77, ea := 0x1FF000, left := 1 }
    let u := s.perform { acc := .fillTable 3, ea := 0x1FFD80 + 24, left := 1 }
    (u.tile.core.acc.map fun a => (a.ea, a.left), (u.ctl kSpmap).toNat) = ([(0x1FF000, 1)], 0) := by decide +kernel

theorem test_str_sent : ((run1 (.str 3 1 0x3F 0x3F) (kState [0x1000, 0, 9])).pad.net.map fun w =>
    (w.due, w.sender, w.target, w.off, w.data.toNat)) = [(45, 3, 0, 0x1000, 9)] := by decide +kernel
theorem test_str_outside : traps (.str 3 1 1 0) (kState [0x1000, 0, 9]) = (0x0A, 0x1000) := by decide +kernel

/-- NetworkStores: words due at tile 3 and not yet due, one whose granule's scope lets its sender in and one whose does not. -/
theorem test_witness_network :
    let w : NetWord := { due := 41, sender := 0, target := 3, off := 0x10000, data := 9, refusal := none, lat := 4 }
    let s0 := testState { kTile [] with ctl := [(kPoolscope, 0x8)] }
    let s := s0.modPad fun p => { p with net := [w, { w with due := 42 }, { w with off := 0, sender := 1 }] }
    (s.strDue.map fun w => w.sender) = [0, 1] ∧ bit (s.ctl kMxdbg) 0 = false ∧ Mem.wf s.tile.st.pool.bytes = true ∧
    s.pad.shape.reaches (s.tile.granuleScope s.pad.shape 0x10000) 0 3 = true ∧
    s.pad.shape.reaches (s.tile.granuleScope s.pad.shape 0) 1 3 = false ∧ w.off % 8 = 0 ∧ w.refusal = none ∧
    s.tile.core.svc = false ∧ ((run1 .strArrival s).pad.net.map fun w => (w.due, w.target, w.refusal.isSome)) =
      [(42, 3, false), (45, 1, true)] := by decide +kernel

/-- WordsWithErrorCodes: a full word and a part of one, clean, with one flipped bit, with two, and poisoned. -/
theorem test_witness_error_codes :
    let st := { testPool with errs := [(0x200, (4 : W64)), (0x600, 5)] }
    Mem.wf st.bytes = true ∧ 0x1000 / 8 = (0x1000 + 8 - 1) / 8 ∧ 0x1007 / 8 = (0x1007 + 1 - 1) / 8 ∧
    FMap.get? st.errs 0x200 = some 4 ∧ FMap.get? st.errs 0x600 = some 5 ∧ (0x400 : Nat) ∈ st.poison ∧
    (((st.write 0x1000 [9]).2, (st.write 0x3000 [9]).2, (st.write 0x2000 [9]).2, (st.write 0x3000 [1, 2, 3, 4, 5, 6, 7, 8]).2) =
      (none, some 0x3000, some 0x2000, none)) ∧ (st.write 0x1000 [9]).1.hits = 1 := by decide +kernel

-- The system instructions (06, 07, 08)

theorem test_krd_hidden : traps (.krd 3 0x11) (uState []) = (0x02, 0x11) := by decide +kernel
theorem test_krd_rtick : lands (.krd 3 0x08) (uState []) = [(3, 41, 1, 0)] := by decide +kernel
theorem test_tirr : lands (.tirr 3 2 1) (testState { kTile [] with dr := { Drover.init with ti := [(17, 5)] } }) = [(3, 5, 1, 0)] := by
  decide +kernel
theorem test_caprd_beyond : lands (.caprd 3 1 0) (kState [4096]) = [(3, 0, 1, 0)] := by decide +kernel
theorem test_fpcsr_write :
    ((testState { kTile [] with ctl := [(kFpcsr, 0x300)] }).land (.ctl kFpcsr 0xFFF)).ctl kFpcsr = 0x37F := by decide +kernel

/-- R205 with R9's Philox: the first known answer of the generator, key 0 and counter 0, is what stream 0 of tile 0 draws. -/
theorem test_srng : (philox 0 0) % 2 ^ 64 = 0xE169C58D6627E8D5 := by decide +kernel

/-- ConfigurationRecords, ControlRegisterAccess: the last words of each record; registers that U may and may not read or write; a
fold whose last member rewrites it, and one with another member still to come. -/
theorem test_witness_control :
    let fold : Fold := { members := [2, 3], lat := 9, phase := 4, arrived := [], advance := none, poison := false, rewrote := [2], resetAt := none }
    let s := (kState [5]).modPad fun p => { p with folds := [(5, fold), (6, { fold with rewrote := [] })] }
    let t := run1 (.kwrSyncrstFold 1) s
    (uState []).inK = false ∧ s.inK = true ∧ (0x18 : BitVec 8).toNat ≠ 0x10 ∧ (0x0C : BitVec 8).toNat = 0x0C ∧
    (FMap.get? t.pad.folds 5).map (fun o => o.resetAt) = some (some 50) ∧
    (FMap.get? (run1 (.kwrSyncrstFold 1) ((kState [6]).modPad fun p => { p with folds := s.pad.folds })).pad.folds 6).map (fun o => o.rewrote) =
      some [3] := by decide +kernel

/-- ConfigurationRecords: writes of the last words of the narrow records, and of the tag, which a RINGW does not write (R199). -/
theorem test_witness_records :
    let s := kState []
    let v : W64 := 2 ^ 64 - 1
    ((Regs.rd (s.land (.ti 31 6 v)).tile.dr.ti 254).toNat, (Regs.rd (s.land (.rg 7 2 v)).tile.dr.rg 30).toNat,
      (Regs.rd (s.land (.ft 15 v)).tile.mx.ft 15).toNat) = (0xF0F, 0xFFFF, 0xFFF) ∧ (s.land (.rg 7 3 v)).tile.dr.rg = [] := by decide +kernel

/-- ControlRegisterValues: queues that hold entries and none; a class below 4,096. -/
theorem test_witness_registers :
    (kState []).pad.cls < 4096 ∧ (∀ q ∈ [(kState []).tile.mq, (kState []).tile.vq, (kState []).tile.dq], q.entries.length ≤ 16) ∧
    (kState []).krdValue 0x04 = fld 1 0 ||| fld 1 2 := by decide +kernel

/-- ControlRegisterValues: writes of the window, scope, loss and trace registers that stand, and such that do not. -/
theorem test_witness_window_registers :
    let s := kState []
    let home := fun (w : W64) => s.modPadAt s.cur.pad fun p =>
      { p with tiles := FMap.put p.tiles 60 { kTile [] with ctl := [(0x80 + 5, w), (0xC0 + 5, fld 1 63)] } }
    let reads := fun (s : State) (k : Nat) (v : W64) => ((s.land (.ctl k v)).ctl k).toNat
    let y := { Sync.init with wsent := [(4, 8), (5, 9)], rounds := [(5, 2), (69, 3)], wpoison := [4, 5] }
    let z := ((s.modSync fun _ => y).land (.ctl 0x66 0x305)).tile.sync
    let bad : List W64 := [fld 1 63 ||| fld 3 61, fld 1 63 ||| fld 2 61]
    (bad.map fun v => reads s 0x85 v) = [0, 0] ∧ reads s 0x85 (fld 3 61 ||| fld 0xFF 48) = 3 * 2 ^ 61 ∧
    (([fld 1 63 ||| fld 5 48, fld 1 63 ||| fld 37 48, fld 1 63 ||| fld 6 48 ||| 32] : List W64).map fun v => reads s 0xC5 v) = [0, 0, 0] ∧
    reads s 0xC5 (fld 1 63 ||| fld 6 48 ||| 64) = 2 ^ 63 + 6 * 2 ^ 48 + 64 ∧ s.pad.state = .running ∧
    reads (home 0) 0xC5 (fld 1 63 ||| fld 6 48) = 0 ∧ reads (home 1) 0xC5 (fld 1 63 ||| fld 6 48) = 2 ^ 63 + 6 * 2 ^ 48 ∧
    (bits (0x305 : W64) 15 8, bits (0x305 : W64) 7 0) = (3, 5) ∧ FMap.sorted y.rounds = true ∧
    (z.wsent, z.rounds, z.wpoison) = ([(4, 8)], [], [4]) ∧
    ((s.land (.ctl 0x3C 0xFFFFFFFFFFFFFFF1)).ctl 0x3C &&& 15).toNat = (s.ctl 0x3C &&& 12).toNat + 1 ∧
    (s.land (.ctl 0x77 (fld 1 63 ||| fld 1 62 ||| fld 24 0))).tile.obs.losssel = fld 1 62 ||| fld 24 0 := by decide +kernel

/-- MailboxesCapabilitiesDraws: offsets within the list, at its end, and one that is no multiple of 8; both levels. -/
theorem test_witness_caprd :
    let off := fun (s : State) => s.rd 1 + 8 * (0 : BitVec 14).signExtend 64
    (off (kState [4088])).toNat % 8 = 0 ∧ (off (kState [4088])).toNat < 4096 ∧ 4096 ≤ (off (kState [4096])).toNat ∧
    (off (kState [4])).toNat % 8 ≠ 0 ∧ (kState []).inK = true ∧ (uState []).inK = false := by decide +kernel

/-- ControlStore: offsets on both sides of each limit, a word that a valid entry holds and one past it, entries with and without
KONLY, and words that the checks of a binding accept and refuse. -/
theorem test_witness_control_store :
    let e := fld 1 63 ||| fld 1 61 ||| fld 2 16 ||| fld 100 0
    let t := { kTile [] with st := { Stores.empty with binds := [(5, e)] } }
    let s := testState t
    (decide (bits e 11 0 ≤ 101 ∧ 101 < bits e 11 0 + bits e 22 16), decide (bits e 11 0 ≤ 102 ∧ 102 < bits e 11 0 + bits e 22 16)) =
      (true, false) ∧
    e.getLsbD 63 = true ∧ e.getLsbD 61 = true ∧ (Regs.rd s.tile.st.binds 4).getLsbD 61 = false ∧ s.tile.core.svc = false ∧
    s.inDelay = false ∧ s.inK = true ∧ (uState []).inK = false ∧ (4095 : Nat) < 4096 ∧ (63 : Nat) < 64 ∧
    (bindChecks Store.empty (fld 1 63)).status ≠ 0 ∧ (0 : W64).getLsbD 63 = false := by decide +kernel

/-- ControlStore: a sequence of one UCMT, which a binding accepts with one cycle (Table 8-4, R222). -/
theorem test_witness_binding :
    let st := { Store.empty with bytes := [(7, 0x84)] }
    (bindChecks st (fld 1 63 ||| fld 1 16)).status = 0 ∧ (bindChecks st (fld 1 63 ||| fld 1 16)).cyc = 1 ∧
    (fld 1 63 ||| fld 1 16 : W64).getLsbD 63 = true := by decide +kernel

/-- ControlStore: a word that is poisoned and one that is not for MSRD and for a binding; a word that MSLOAD lands. -/
theorem test_witness_control_words :
    let st : Store := { Store.empty with bytes := [(7, 0x84)], poison := [1] }
    let t := { kTile [1, 0, 4095] with st := { Stores.empty with cstore := st } }
    let s := testState t
    let w : W64 := fld 1 63 ||| fld 2 16
    (s.rd 1).toNat < 4096 ∧ FMap.get? st.errs 1 = none ∧ (s.rd 1).toNat ∈ st.poison ∧ (s.rd 2).toNat ∉ st.poison ∧ st.errs = [] ∧
    w.getLsbD 63 = true ∧ w &&& 0x1FFF0000FF80F000 = 0 ∧ bits w 22 16 ≤ 64 ∧ bits w 11 0 + bits w 22 16 ≤ 4096 ∧
    (∃ y ∈ st.poison, bits w 11 0 ≤ y ∧ y < bits w 11 0 + bits w 22 16) ∧ Mem.wf st.bytes = true ∧
    ((run1 (.msrd false 5 1) s).tile.core.conds.map fun f => (f.cause, f.t3.toNat)) = [(.dataPoison, 1)] ∧
    ((s.landStore (.bind 3 w)).tile.core.conds.map fun f => (f.cause, f.t3.toNat)) = [(.dataPoison, 1)] ∧
    ((s.landStore (.cstore 1 9)).tile.st.cstore.poison, ((s.landStore (.cstore 1 9)).tile.st.cstore.word 8).toNat) = ([], 9) ∧
    (bindChecks { st with poison := [] } (fld 1 63 ||| fld 1 16)).cyc < 65536 := by decide +kernel

/-- A micro-operation word (Table 8-2). -/
def uword (code dst sa sb fn imm : Nat) : W64 := fld code 58 ||| fld dst 54 ||| fld sa 50 ||| fld sb 46 ||| fld fn 40 ||| fld imm 0

/-- A run of the sequence of the given words, at its first one: t0 = 5, A = 0x1000, B = 7. -/
def aRun (ws : List W64) : UopRun :=
  { n := 5, entry := fld 1 63 ||| fld 20 32 ||| fld ws.length 16, d := 3, a := 0x1000, b := 7, di := 0, mc := 4, pos := 0, rep := none
    temps := [(0, 5)], tpend := [], flags := 0, committed := false, stores := [], dval := none, hbmWait := none }

/-- A tile whose control store holds those words and whose core is held by the run. -/
def uopTile (ws : List W64) (r : UopRun) : Tile :=
  { withCore { Core.init with hold := .uop r } with
    st := { Stores.empty with pool := testPool, cstore := { Store.empty with bytes := Mem.write [] 0 (ws.flatMap fun w => natLE 8 w.toNat) } } }

/-- What one micro-cycle makes of the run: its next micro-cycle and position, the temporaries in flight, and the accesses. -/
def uop1 (ws : List W64) (f : UopRun → UopRun) : List Nat :=
  let t := (testState (uopTile ws (aRun ws))).microCycle (f (aRun ws))
  (match t.tile.core.hold with
    | .uop q => q.mc :: q.pos :: q.tpend.flatMap fun w => [w.reg.toNat, w.val.toNat, w.left]
    | _ => []) ++ t.tile.core.acc.map fun a => a.ea

/-- MicroOperations: micro-operations of each kind that compute, load, branch, repeat and store. -/
theorem test_witness_micro :
    let u := fun (code fn imm : Nat) => [uword code 2 0 9 fn imm, 0, 0]
    let far := fun (a : W64) (r : UopRun) => { r with a := a }
    [uop1 (u 0 0 0) id, uop1 (u 2 0 0) id, uop1 (u 3 0 0) id, uop1 (u 0x16 2 0) id, uop1 (u 0x18 1 0) id, uop1 (u 0x1C 0 0) id] =
      [[5, 1], [5, 1, 2, 2 ^ 64 - 2, 1], [5, 1, 2, 35, 3], [5, 1, 2, 1, 1], [5, 1, 2, 1, 1], [5, 1, 2, 0x40A00000, 4]] ∧
    [uop1 [uword 0x1D 2 8 0 3 8, 0] id, uop1 [uword 0x1D 2 8 0 3 4, 0] id, uop1 [uword 0x1D 2 8 0 3 0, 0] (far 0x200000)] =
      [[5, 1, 0x1008], [], []] ∧
    [uop1 (u 0x1F 1 2) id, uop1 (u 0x1F 2 2) id, uop1 (u 0x20 0 0x103) id,
        uop1 (u 0x1E 0 0) (fun r => { r with stores := [(0x1000, [1])] }), uop1 (u 0 0 0) (fun r => { r with mc := 19 })] =
      [[5, 2], [5, 1], [5, 1], [5, 1, 0x1000], []] := by decide +kernel

/-- MicroOperations: a commit whose stores pass, and one each that a misaligned store, one out of reach and one that meets poison
refuses. -/
theorem test_witness_commit :
    let ws := fun (imm : Nat) => [uword 0x21 0 9 0 1 0, uword 0x1E 0 8 0 3 8, uword 0x1E 0 8 9 0 imm]
    let c := fun (imm : Nat) => ((testState (uopTile (ws imm) (aRun (ws imm)))).microCycle (aRun (ws imm)))
    let ok := match (c 1).tile.core.hold with
      | .uop q => (q.committed, q.dval.map (·.toNat), q.stores.map fun x => (x.1, x.2.length))
      | _ => (false, none, [])
    ok = (true, some 7, [(0x1008, 8), (0x1001, 1)]) ∧ (c 0x1000).tile.core.hold = .none ∧ bits ((c 0x1000).ctl kTinfo0) 7 0 = Cause.dataPoison.code ∧
    ((c 0x200000).tile.core.hold = .none ∧ bits ((c 0x200000).ctl kTinfo0) 7 0 = Cause.protection.code) ∧ (testPool.errs, testPool.poison) = ([], [0x400]) := by
  decide +kernel

/-- MicroOperations: a load from a page of the paddock's HBM that is present and grants reads, that is absent, and that grants none, in a
loose stint; and the same in a strict one. -/
theorem test_witness_uld_hbm :
    let ws := [uword 0x1D 2 8 0 3 0, 0]
    let r := { aRun ws with a := 0x100000000000 }
    let s0 := testState (uopTile ws r)
    let s := fun (f : Paddock → Paddock) => s0.modPad fun p => f { p with strict := false, shape := { p.shape with chan := 1, world := 3 } }
    let cause := fun (s : State) => bits ((s.microCycle r).ctl kTinfo0) 7 0
    let may := fun (s : State) => let e := s.pad.hbmEntry 0
      e.getLsbD 48 && (e.getLsbD 45 || s.inK) && bits e 56 49 == s.pad.shape.world
    (s id).loadOk 0x100000000000 8 = false ∧ may (s id) = true ∧ ((s id).pad.hbmEntry 0).getLsbD 63 = true ∧
    (match ((s id).microCycle r).tile.core.hold with
      | .uop q => q.hbmWait.isSome && q.pos == 0
      | _ => false) = true ∧
    cause ((s id).modPad fun p => { p with pages := [(0, p.hbmEntry 0 &&& 0x7FFFFFFFFFFFFFFF)] }) = Cause.page.code ∧
    cause ((s id).modPad fun p => { p with strict := true }) = Cause.protection.code ∧
    cause ((s id).modPad fun p => { p with pages := [(0, p.hbmEntry 0 &&& ~~~(fld 1 48))] }) = Cause.protection.code := by decide +kernel

/-- MicroOperations: temporaries of one register that land together and one still in flight; accesses of a run; traps of an uncommitted
run with nothing in flight, with a temporary in flight, and of a tile without a run. -/
theorem test_witness_micro_ends :
    let r := aRun [0]
    let w := fun (reg val left : Nat) => ({ reg := BitVec.ofNat 6 reg, val := w64 val, left := left, flags := 0 } : RegWrite)
    let q := { r with tpend := [w 2 8 1, w 2 9 1, w 3 1 2] }
    let s := testState { uopTile [0] r with ctl := handlerCtl, core := { Core.init with hold := .uop r, pc := 10 } }
    let s' := s.modCore fun c => { c with hold := .uop q }
    let f := sFault .privilege 5
    ((Regs.rd q.tick.temps 2).toNat, q.tick.tpend.map fun x => (x.reg.toNat, x.left)) = (9, [(3, 1)]) ∧
    f.cause.wide s.strict = false ∧ s.tile.noHandler = false ∧ s.tile.core.hold = .uop r ∧ r.committed = false ∧ r.tpend = [] ∧
    (s.tile.core.acc.any fun a => a.acc.isUld) = false ∧ r.n < 64 ∧ r.mc < 2 ^ 16 ∧ bits r.entry 11 0 + r.pos < 4096 ∧
    Mem.wf s.tile.st.pool.bytes = true ∧ q.tpend ≠ [] ∧ ((s.takeFault f).ctl kMsframe).toNat = 2 ^ 63 + 5 * 2 ^ 32 + 4 * 2 ^ 16 ∧
    (Mem.rd64 (s.takeFault f).tile.st.pool.bytes 0x1FFFC8).toNat = 0x1000 ∧
    ((s'.takeFault f).tile.core.frame.map fun x => x.n) = some 5 ∧ (s'.takeFault f).tile.st.pool = s.tile.st.pool ∧
    q.hbmWait = none ∧ (0x1000 : Nat) < 0x200000 := by decide +kernel

/-- MicroOperations: accesses of a run into a pool without errors: a zero-extended load of two bytes, a store of two. -/
theorem test_witness_micro_accesses :
    let r := aRun [0]
    let s := testState { uopTile [0] r with st := { Stores.empty with pool := { testPool with poison := [] } } }
    let l := (s.perform { acc := .uld .b2 false 4, ea := 0x1000, left := 1 }).tile.core.hold
    let u := s.perform { acc := .ust [1, 2], ea := 0x1000, left := 1 }
    s.tile.core.hold = .uop r ∧ s.tile.st.pool.errs = [] ∧ s.tile.st.pool.poison = [] ∧ Mem.wf s.tile.st.pool.bytes = true ∧
    (match l with
      | .uop q => q.tpend.map fun w => (w.reg.toNat, w.val.toNat, w.left)
      | _ => []) = [(4, 0x8180, 3)] ∧
    ([0x1000, 0x1001, 0x1007].map fun a => (u.byteAt (.pool 7 3) a).toNat) = [1, 2, 0xFF] := by decide +kernel

-- Synchronising (14, 15)

/-- Tile 3 with semaphore 7 at 5 and semaphore 8 poisoned. -/
def semTile (vs : List Nat) : Tile := { kTile vs with sync := { Sync.init with sems := [(7, 5)], poison := [8] } }

theorem test_semwt : ((run1 (.semwt 1 1 7) (testState (semTile [2]))).tile.sync.sem 7).toNat = 2 := by decide +kernel
theorem test_semwt_short : (traps (.semwt 1 0 7) (testState (semTile [6]))).1 = 0x04 := by decide +kernel
theorem test_semrd_poisoned : traps (.semrd 3 8) (testState (semTile [])) = (0x0C, 8) := by decide +kernel
theorem test_signal_saturates :
    let y := ({ Sync.init with sems := [(7, 65535)], sig := [(7, 2)] } : Sync).endCycle
    ((y.sem 7).toNat, y.ovf) = (65535, true) := by decide +kernel

/-- Semaphores: a clean and a poisoned one, amounts that are there and not there, in both modes and both levels, with a limit of 0 and
another, where no binding narrows the scope; signals in order. -/
theorem test_witness_semaphores :
    let s := testState (semTile [5, 0])
    let amt := fun (n : BitVec 6) => ((s.rd 1).toNat + n.toNat) % 65536
    let loose := s.modPad fun p => { p with strict := false }
    s.tile.core.svc = false ∧ (7 : Nat) ∉ s.tile.sync.poison ∧ (8 : Nat) ∈ s.tile.sync.poison ∧
    s.outOfScope (.sem s.cur.tile 7) = none ∧ amt 0 ≤ (s.tile.sync.sem 7).toNat ∧ (s.tile.sync.sem 7).toNat < amt 1 ∧ s.inK = true ∧
    (uState []).inK = false ∧ s.strict = true ∧ loose.strict = false ∧ (s.rd 1).toNat ≠ 0 ∧ (s.rd 2).toNat = 0 ∧
    FMap.sorted ([(7, 2), (9, 1)] : FMap Nat) = true ∧ FMap.sorted ([(7, 3)] : FMap (BitVec 16)) = true := by decide +kernel

/-- A fold of tiles 2 and 3. -/
def testFold : Fold :=
  { members := [2, 3], lat := 9, phase := 4, arrived := [(2, 40)], advance := none, poison := false, rewrote := [], resetAt := none }

def foldState (o : Fold) (vs : List Nat) : State := (kState vs).modPad fun p => { p with folds := [(5, o)] }

theorem test_farv_last : (FMap.get? (run1 (.farv 3 5) (foldState testFold [])).pad.folds 5).map (fun o => o.advance) = some (some 50) := by
  decide +kernel
theorem test_fwt_passed : lands (.fwt 3 1 5) (foldState testFold [2]) = [(3, 3, 1, 0)] := by decide +kernel
theorem test_fwt_waits : (traps (.fwt 3 1 5) (foldState testFold [4])).1 = 0x04 := by decide +kernel

/-- FoldBarriers: a fold with this tile as a member, one without it, one that does not exist; the tile arrived and not; phases
before, at and two past the token; poison; both modes; an advance due on the next cycle, a reinitialisation due then, and neither. -/
theorem test_witness_folds :
    let s := foldState testFold [4, 0, 3, 2]
    let diff := fun (r : Reg) => (testFold.phase - (s.rd r).setWidth 32).toInt
    FMap.get? s.pad.folds 5 = some testFold ∧ s.cur.tile ∈ testFold.members ∧ FMap.get? testFold.arrived 3 = none ∧
    FMap.get? s.pad.folds 6 = none ∧ (3 : Nat) ∉ [1, 2] ∧ FMap.get? testFold.arrived 2 ≠ none ∧ testFold.poison = false ∧
    s.outOfScope (.fold 5 (s.pad.foldHome 5)) = none ∧ s.inDelay = false ∧ s.tile.core.svc = false ∧ diff 1 < 1 ∧ 1 ≤ diff 3 ∧
    2 ≤ diff 4 ∧ s.strict = true ∧ (s.rd 2).toNat = 0 ∧ (s.rd 1).toNat ≠ 0 ∧ ({ testFold with poison := true } : Fold).poison = true ∧
    ({ testFold with resetAt := some 42 } : Fold).resetAt = some (s.pad.rtick + 1) ∧
    ({ testFold with advance := some 42 } : Fold).advance = some (s.pad.rtick + 1) ∧ testFold.advance ≠ some (s.pad.rtick + 1) := by
  decide +kernel

/-- FoldBarriers: a tile held by an FBAR of the fold in its slot 0, with the advance visible and not, time left and not, clean and
poisoned; an FBAR in a delay bundle, and one of a poisoned fold. -/
theorem test_witness_fold_holds :
    let hold := fun (o : Fold) (left : Nat) (tok : BitVec 32) =>
      (foldState o []).modCore fun c => { c with hold := .fbar left 0 tok }
    let s := hold testFold 0 3
    let bad := { testFold with poison := true }
    let cause := fun (t : State) => bits (t.ctl kTinfo0) 7 0
    let pass := fun (t : State) => match t.passHold with
      | .wait u => (1, bits (u.ctl kTinfo0) 7 0)
      | .bundle _ => (2, 0)
    (s.pad.folds.filter fun e => e.2.members.contains s.cur.tile)[0]? = some (5, testFold) ∧ s.tile.core.halted = false ∧
    s.tile.core.entering = false ∧ 1 ≤ (testFold.phase - 3).toInt ∧ ¬ 1 ≤ (testFold.phase - 4).toInt ∧
    s.outOfScope (.fold 5 (s.pad.foldHome 5)) = none ∧
    [pass s, pass (hold testFold 3 3), pass (hold testFold 0 4), pass (hold bad 0 3)] =
      [(2, 0), (1, 0), (1, Cause.timing.code), (1, Cause.syncPoison.code)] ∧
    cause (run1 (.fbar 3 0 9 5) (foldState bad [])) = Cause.syncPoison.code ∧
    cause (run1 (.fbar 3 0 9 5) ((testState (withCore delayCore)).modPad fun p => { p with folds := [(5, testFold)] })) =
      Cause.illegalSyllable.code ∧
    ((run1 (.fbar 3 0 9 5) (foldState testFold [])).tile.core.hold) = .fbar 9 0 4 := by decide +kernel

/-- WindowCountersAndPoison: a window whose count is reached, one whose count is not, one that is poisoned. -/
theorem test_witness_windows :
    let s := testState { kTile [4, 5] with sync := { Sync.init with wrecv := [(9, 4)], wpoison := [10] } }
    s.rd 1 ≤ Regs.rd s.tile.sync.wrecv 9 ∧ Regs.rd s.tile.sync.wrecv 9 < s.rd 2 ∧ (9 : Nat) ∉ s.tile.sync.wpoison ∧
    (10 : Nat) ∈ s.tile.sync.wpoison ∧ s.outOfScope (.window 9 s.cur.tile) = none ∧ s.tile.core.svc = false ∧
    lands (.wrd true 3 9) s = [(3, 4, 1, 0)] ∧ traps (.wacq 1 10) s = (0x0C, 10) := by decide +kernel

-- The engines (05, 06, 10 to 13)

/-- Entries of a queue that fill it. -/
def anEntry (i : Instr) : Entry :=
  { instr := i, serial := 7, start := some 41, pushed := 40, rep := 0, step := 0, j := 0, due := 41, ready := none, ws := [], its := [],
    x := 0, y := 0 }

def e0 : En := { idx := 0, rep := 0, step := 0, dly := 0 }

/-- HoldsPausesHalts: two tiles that offer PPT of class 1; one of them with an entry in its queue; one that offers ALIGN alone. -/
theorem test_witness_meetings :
    let at' := fun (i : Instr) (f : Tile → Tile) => f { Tile.init with
      st := { Stores.empty with istore := { Store.empty with bytes := Mem.write [] 0 (natLE 24 (encode { guard := Guard.none, instr := i }).toNat) } } }
    let s := fun (a b : Tile) => (testState Tile.init).modPad fun p => { p with tiles := [(0, a), (1, b)] }
    let p := at' (.ppt 1) id
    let q := at' (.ppt 1) fun t => { t with dq := { Queue.init with entries := [anEntry (.dcopy e0)] } }
    let causes := fun (s : State) => s.pad.tiles.map fun e => e.2.core.conds.map fun f => (f.cause.code, f.t3.toNat % 256)
    ((s p p).offers.map fun x => (x.1, x.2.map (·.2))) = [(0, some false), (1, some false)] ∧ (s p p).pad.shape.nstint = 2 ∧
    ((s p p).offers.all fun x => (x.2.bind (·.1)) == some (.ppt 1)) = true ∧ causes (s p p).meet.1 = [[], []] ∧
    causes (s p q).meet.1 = [[(Cause.pauseptInvalid.code, 1)], [(Cause.pauseptInvalid.code, 1)]] ∧
    causes (s p (at' (.ppt 2) id)).meet.1 = [[(Cause.pauseptInvalid.code, 0)], [(Cause.pauseptInvalid.code, 0)]] ∧
    causes (s (at' .align id) (at' .nop id)).meet.1 = [[(Cause.timing.code, 9)], [(Cause.timing.code, 9)]] := by decide +kernel

/-- ControlRegisterValues: a queue whose last entry was pushed on this cycle, and one with older entries only. -/
theorem test_witness_queue_registers :
    let e := fun (n : Nat) => { anEntry (.mscl e0) with pushed := n }
    let q := fun (es : List Entry) => { Queue.init with entries := es, serial := 9 }
    let s := fun (es : List Entry) => testState { kTile [] with mq := q es }
    ((s [e 40]).krdValue 0x28 = (q [e 40]).stat ∧ (s [e 40, e 41]).krdValue 0x28 = { q [e 40] with serial := 7 }.stat) ∧
    ((q [e 40]).entries.length ≤ 16 ∧ (s []).pad.rtick = 41) ∧ bits ((s [e 40, e 41]).krdValue 0x28) 4 0 = 1 := by decide +kernel

theorem test_push_mscl :
    let t := run1 (.mscl { idx := 35, rep := 2, step := 63, dly := 9 }) (kState [])
    (t.tile.mq.entries.map fun x => (x.start, x.rep, x.step), t.tile.mq.serial.toNat) = ([(some 51, 2, -1)], 1) := by decide +kernel
theorem test_push_full :
    let s := testState { kTile [] with mq := { Queue.init with entries := List.replicate 16 (anEntry (.mscl e0)) } }
    (traps (.mscl e0) s).1 = 0x04 := by decide +kernel
theorem test_push_any_in_strict : (traps (.dcopy { e0 with dly := 63 }) (kState [])).1 = 0x04 := by decide +kernel

/-- EnginePushes: under service, a full queue and one with room, ANY and a delay in each mode, and an MWB that is legal. -/
theorem test_witness_pushes :
    let s := kState []
    let full := testState { kTile [] with dq := { Queue.init with entries := List.replicate 16 (anEntry (.dcopy e0)) } }
    (Instr.dcopy e0).slot = some .d ∧ (Instr.dcopy e0).isNop = false ∧ s.tile.core.svc = false ∧
    (testState (withCore { Core.init with svc := true })).tile.core.svc = true ∧ 16 ≤ (full.tile.queue .d).entries.length ∧
    ¬ 16 ≤ (s.tile.queue .d).entries.length ∧ s.strict = true ∧ instrDelay (.dcopy { e0 with dly := 63 }) = 63 ∧
    instrDelay (.dcopy { e0 with dly := 62 }) ≠ 63 ∧ s.mwbIllegal e0 = false ∧
    (s.modPad fun p => { p with strict := false }).strict = false := by decide +kernel

/-- EnginePushes: an MWB of an i32 matrix whose record asks for stochastic rounding. -/
theorem test_mwb_stochastic :
    let s := testState { kTile [] with mx := { Matrix.init with mn := [(3, fld 4 57 ||| fld 2 60)] } }
    let w := Regs.rd s.tile.mx.mn 3
    bits w 59 57 = 4 ∧ bits w 63 60 ∉ [0, 1, 4, 5] ∧ (traps (.mwb e0) s).1 = Cause.illegalSyllable.code := by decide +kernel

/-- EngineStarts: a due vector instruction; a due Drover copy of one 8-byte element within the own pool, which nothing refuses, with a
slot free and with none; a due MMA of two frames. -/
theorem test_witness_starts :
    let d := { anEntry (.dcopy e0) with
      ws := [0, 0, 0, 0, 0, 0, 0, 0]
      its := [[0x1000, 0x1000100010001, 0, 0, 0, 3, 0, 0], [0x2000, 0x1000100010001, 0, 0, 0, 3, 0, 0], []] }
    let m := { anEntry (.mma e0) with ws := List.replicate 24 0 ++ [0x66] }
    let v := anEntry (.vmul { vd := 1, va := 2, vb := 3, ty := .i8, md := 0 })
    let s := testState { kTile [] with
      mq := { Queue.init with entries := [m] }, vq := { Queue.init with entries := [v] }, dq := { Queue.init with entries := [d] } }
    s.tile.vq.act = none ∧ s.strict = true ∧ v.due = s.pad.rtick ∧ d.due = s.pad.rtick ∧ m.due = s.pad.rtick ∧
    (dWait d.ws).n ≤ (s.tile.sync.sem (dWait d.ws).q).toNat ∧ (dWait d.ws).n = 0 ∧ (dWait d.ws).acq = false ∧
    s.droverReason (d.droverRun 41) = none ∧ s.tile.dr.freeSlot = some 0 ∧
    (prodFmt (m.ws.getD 24 0)).toOption.map (fun f => (f.amx, f.bmx, f.t)) = some (false, false, 64) ∧ (lWait m.ws 0).n = 0 ∧
    (m.ws.getD 0 0).getLsbD 63 = false ∧ 0 < bits s.pad.shape.part 21 16 * 16 ∧ bits (m.ws.getD 2 0) 5 0 < s.pad.shape.nt ∧
    (run1 (.engineRunStart .m) s).tile.mq.act = some { s := 41, fin := some 104 } ∧
    (run1 (.engineRunStart .d) s).tile.dr.runs.length = 1 := by decide +kernel

/-- EngineStarts: eight runs that hold every slot. -/
theorem test_witness_slots :
    let r : Nat → DRun := fun k => { (anEntry (.dcopy e0)).droverRun 41 with slot := some k }
    ({ Drover.init with runs := (List.range 8).map r } : Drover).freeSlot = none ∧
    ({ Drover.init with runs := ((List.range 8).filter (· != 5)).map r } : Drover).freeSlot = some 5 := by decide +kernel

/-- ProductTimes: a word of each kind, and one for each refusal (Table 12-6). -/
theorem test_witness_product_times :
    ((prodFmt 0x66).toOption.map (fun f => (f.k, f.t)), (prodFmt 0xCC).toOption.map (fun f => (f.k, f.t)),
      (prodFmt 0x322).toOption.map (fun f => (f.k, f.t))) = (some (64, 64), some (32, 298), some (64, 149)) ∧
    ([0x00, 0x46, 0xA6].map fun w => match prodFmt w with
      | .error n => n
      | .ok _ => 0) = [1, 2, 3] := by decide +kernel

/-- A due row of an integer product: accumulator tile 1, row 2. -/
def rowProduct : Product :=
  { serial := 7, j := 0, p := 0, s := 39, t := 256, fmt := 0x44, aFrame := 0, bFrame := 1, ct := 1, colA := [], colB := [],
    arows := List.replicate 64 [], brows := List.replicate 64 [], crow := some (List.replicate 384 0), cflags := 0, pops := [], sigs := [],
    dead := false }

/-- MatrixResults, its blocks: finite products with a sum and with none, an infinity of each sign, an infinity less another, a scale of
255, a NaN, infinity times zero. -/
theorem test_witness_blocks :
    let f32 := fun (p : Nat) => widen FpTy.f32.fmt p
    let b := fun (xs : List (Nat × Nat)) (ea : Nat) => blockF48 (xs.map fun x => (f32 x.1, f32 x.2)) ea 127 0 .rne
    let one := 0x3F800000
    let inf := 0x7F800000
    let q := Fmt.f48.qnan
    let z := fun (xs : List (Nat × Nat)) (c : Nat) (md : Rnd) => blockF48 (xs.map fun x => (f32 x.1, f32 x.2)) 127 127 c md
    ((prodFmt 0x66).toOption.map fun f => (f.ints, f.k, f.nb * f.blk)) = some (false, 64, 64) ∧
    (f32 one).isNan = false ∧ f32 one ≠ .inf true ∧ f32 one ≠ .inf false ∧ (f32 0x7FC00000).isNan = true ∧
    (f32 inf).mul (f32 0) = .invalid ∧ (f32 inf).mul (f32 one) = .val (.inf false) ∧ f32 inf ≠ .inf true ∧
    ([b [(one, one)] 127, b [(one, one)] 128, b [(one, one), (one, one + 2 ^ 31)] 127, b [(inf, one)] 127, b [(inf, one), (inf, one + 2 ^ 31)] 127,
        b [(one, one)] 255, b [(0x7FC00000, one)] 127, b [(inf, 0)] 127].map fun r => (r.pat, r.fl)) =
      [(0x3FF000000000, 0), (0x400000000000, 0), (0, 0), (Fmt.f48.infPat false, 0), (q, flNV), (q, 0), (q, 0), (q, flNV)] ∧
    ([z [(one, one), (one, one + 2 ^ 31)] 0 .rdn, z [(one, 2 ^ 31)] (2 ^ 47) .rne, z [(one, 0)] (2 ^ 47) .rne, z [(one, 0)] (2 ^ 47) .rdn,
        z [(0x7F800001, 0)] 0 .rne].map fun r => (r.pat, r.fl)) = [(2 ^ 47, 0), (2 ^ 47, 0), (0, 0), (2 ^ 47, 0), (q, flNV)] := by
  decide +kernel

/-- Row 2 of tile 1 of the accumulators goes to its place (R306, R325). -/
theorem test_mzero_row :
    let r : RowRun := { serial := 7, j := 0, s := 39, tile := 1, ws := [], wb := false, step := 0, row := none, flags := 0, sig := none, dead := false }
    let a := 0x1E0000 + 24576 + 2 * 384
    let s := testState { kTile [] with
      mx := { Matrix.init with rows := [r] }
      st := { Stores.empty with pool := { Store.empty with bytes := [(a - 1, 1), (a, 2), (a + 383, 3), (a + 384, 4)] } } }
    ((run1 .matrixRowRetire s).tile.st.pool.bytes.map fun c => (c.1 - a, c.2.toNat)) = [(0, 1), (384, 4)] := by decide +kernel

/-- MatrixResults: a product, an MZERO and an MWB that write on one cycle, each its own row. -/
theorem test_witness_matrix_rows :
    let z : RowRun := { serial := 8, j := 0, s := 290, tile := 2, ws := [], wb := false, step := 0, row := none, flags := 0, sig := none, dead := false }
    let ws := [0, 0, fld 1 16, fld 0x1000 0 ||| fld 1 32 ||| fld 7 60]
    let b : RowRun := { z with serial := 9, s := 294, tile := 3, ws := ws, wb := true, row := some (List.replicate 384 0) }
    let at_ := fun (ct i : Nat) => 0x1E0000 + 24576 * ct + 384 * i
    let s := (testState { kTile [] with
      mx := { Matrix.init with rows := [z, b], prods := [rowProduct] }
      st := { Stores.empty with pool := { Store.empty with
        bytes := [(0x1000 + 128, 7), (at_ 1 2, 2), (at_ 1 3, 3), (at_ 2 6 + 383, 4), (at_ 2 7, 5)] } } }).modPad fun p => { p with rtick := 297 }
    (∀ p ∈ s.tile.mx.prods, p.s ≤ 297 ∧ 0 < p.t ∧ (prodFmt p.fmt).toOption.isSome = true ∧ p.brows.length = 64) ∧
    (∀ r ∈ s.tile.mx.rows, r.s ≤ 297 ∧ bits (r.ws.getD 3 0) 20 0 % 64 = 0) ∧ s.pad.rtick = 297 ∧
    (run1 .matrixRowRetire s).tile.st.pool.bytes.map (fun c => (c.1, c.2.toNat)) = [(at_ 1 3, 3), (at_ 2 6 + 383, 4)] := by decide +kernel

/-- VectorIntegerRows: a pool in canonical form without errors and poison, an integer type, both modifiers. -/
theorem test_witness_rows :
    let s := kState []
    VTy.i48.isInt = true ∧ Mem.wf s.tile.st.pool.bytes = true ∧ s.tile.st.pool.poison = [] ∧ s.tile.st.pool.errs = [] ∧
    ({ vd := 1, va := 2, vb := 3, ty := .i48, md := 1 } : Vr).md = 1 := by decide +kernel

/-- What a vector instruction on a small pool puts in flight: cycle, place and the first bytes; and the causes it raises. -/
def vecRow (i : Instr) (x : W64) : List Nat :=
  let row := fun (v : Nat) => 0x1E0000 + 384 * v
  let m := Mem.write (Mem.write [] 0x1000 [1, 2, 3]) (row 2) [5, 6, 7, 0]
  let t := (testState { kTile [] with st := { Stores.empty with pool := { Store.empty with bytes := m } } }).vrRun { anEntry i with x := x }
  (t.tile.vec.pend.flatMap fun w => w.items.flatMap fun y => w.due :: y.1 :: (y.2.take 4).map (·.toNat)) ++ t.tile.core.conds.map (·.cause.code)

/-- VectorMovesAndChains: VLD and VST within the own pool, misaligned, into the pen, and outside; a broadcast, a lane that is set, one part
of a conversion each way, and a reduction. -/
theorem test_witness_moves_of_rows :
    let o := fun (ty : VTy) => ({ vd := 1, va := 2, vb := 0, ty := ty, md := 0 } : Vr)
    let sh := (kState []).pad.shape
    (sh.target 3 0x1000 = .own 0x1000 ∧ 0x1000 + 384 ≤ sh.penBase ∧ sh.target 3 (sh.penBase - 64) = .own (sh.penBase - 64) ∧
      sh.target 3 0x400000 = .table 0 ∧ (0 : BitVec 6).toNat + 64 * (1 : BitVec 4).toNat < VTy.i8.lanes ∧ VTy.i32.lanes ≤ VTy.i8.lanes) ∧
    [vecRow (.vld 1 0 0) 0x1000, vecRow (.vst 2 0 0) 0x2000, vecRow (.vld 1 0 0) 0x1008, vecRow (.vst 1 0 0) (w64 (sh.penBase - 64)),
        vecRow (.vld 1 0 0) 0x400000] =
      [[42, 0x1E0180, 1, 2, 3, 0], [42, 0x2000, 5, 6, 7, 0], [Cause.misalign.code], [Cause.protection.code], [Cause.protection.code]] ∧
    [vecRow (.vbcast .i16 1 0) 0x1234, vecRow (.vmovs .i8 2 0 1 0) 9, vecRow (.vcvt .i16 .i8 0 0 1 2) 0, vecRow (.vcvt .i8 .i32 0 0 1 2) 0,
        vecRow (.vredadd (o .i8)) 0] =
      [[42, 0x1E0180, 0x34, 0x12, 0x34, 0x12], [42, 0x1E0300, 5, 9, 7, 0], [44, 0x1E0180, 5, 0, 6, 0], [44, 0x1E0180, 127, 0, 0, 0],
        [49, 0x1E0180, 18, 0, 0, 0]] := by decide +kernel

/-- Lane 1 of an i16 sum wraps (R339, R340). -/
theorem test_vadd_wraps :
    let row := fun (v : Nat) => 0x1E0000 + 384 * v
    let s := testState { kTile [] with st := { Stores.empty with
      pool := { Store.empty with bytes := [(row 2 + 2, 0xFF), (row 2 + 3, 0xFF), (row 3 + 2, 2)] } } }
    let t := s.vrRun (anEntry (.vadd { vd := 1, va := 2, vb := 3, ty := .i16, md := 0 }))
    (t.tile.vec.pend.map fun x => (x.due, x.items.map fun y => (y.1, y.2.length, (y.2.drop 2).take 2))) =
      [(42, [(row 1, 384, [1, 0])])] := by decide +kernel

/-- The bytes of lane 1 that a vector instruction puts in flight, and its flags; rows 2, 3 and 1 hold the given patterns in their lane 1. -/
def lane1 (i : Instr) (n a b d : Nat) : List (Nat × Nat × Nat) :=
  let row := fun (v : Nat) => 0x1E0000 + 384 * v + n
  let m := Mem.write (Mem.write (Mem.write [] (row 2) (natLE n a)) (row 3) (natLE n b)) (row 1) (natLE n d)
  let t := (testState { kTile [] with st := { Stores.empty with pool := { Store.empty with bytes := m } } }).vrRun (anEntry i)
  t.tile.vec.pend.flatMap fun x => x.items.map fun y => (x.due, leNat ((y.2.drop n).take n), x.flags.toNat)

/-- VectorLaneResults: float and integer types, each modifier; the lanes of one instruction of each kind (R339 to R341, R346 to R348). -/
theorem test_witness_lanes :
    let o := fun (ty : VTy) (md : BitVec 4) => ({ vd := 1, va := 2, vb := 3, ty := ty, md := md } : Vr)
    (VTy.f32.isInt = false ∧ VTy.i8.isInt = true ∧ FpCond.ofCode (o .f32 1).md.toNat = some .lt ∧ IntCond.ofCode (o .i8 4).md.toNat = some .ltn ∧
      VTy.f48.isInt = false) ∧
    [lane1 (.vfma (o .f32 0)) 4 0x40000000 0x40400000 0x3F800000, lane1 (.vcmp (o .f32 1)) 4 0x3F800000 0x40000000 0,
        lane1 (.vneg (o .f32 0)) 4 0x3F800000 0 0] =
      [[(45, 0x40E00000, 0)], [(44, 0xFFFFFFFF, 0)], [(42, 0xBF800000, 0)]] ∧
    [lane1 (.vadd (o .i8 1)) 1 0x7F 1 0, lane1 (.vabs (o .i8 1)) 1 0x80 0 0, lane1 (.vabs (o .i8 0)) 1 0x80 0 0, lane1 (.vsar (o .i8 0)) 1 0x80 9 0,
        lane1 (.vcmp (o .i8 4)) 1 0x7F 0x80 0, lane1 (.vsel (o .i8 0)) 1 5 6 1, lane1 (.vfma (o .i8 0)) 1 0x7F 2 5] =
      [[(42, 0x7F, 0)], [(42, 0x7F, 0)], [(42, 0x80, 0)], [(42, 0xFF, 0)], [(42, 0xFF, 0)], [(42, 5, 0)], [(43, 3, 0)]] := by decide +kernel

/-- EngineFinishes: a due vector write into the own pool with its signal, a run in a slot, no run there, and a ULD that waits for
HBM data that is due. -/
theorem test_witness_finishes :
    let x : VWrite := { due := 41, serial := 7, j := 0, items := [(0x1000, [1, 2, 3, 4, 5, 6, 7, 8])], flags := 0, sig := some { q := 7, n := 2, rel := false } }
    let r := { (anEntry (.dcopy e0)).droverRun 40 with slot := some 3 }
    let s := testState { kTile [] with vec := { Vector.init with pend := [x] }, dr := { Drover.init with runs := [r] } }
    Mem.wf s.tile.st.pool.bytes = true ∧ bit (s.ctl kMxdbg) 0 = false ∧ x.due ≤ s.pad.rtick ∧ 0x1000 % 8 = 0 ∧ 0x1000 + 8 ≤ 0x200000 ∧
    (∀ g, x.sig = some g → g.rel = true → s.outOfScope (.sem s.cur.tile g.q) = none) ∧
    s.slotRun 3 = some r ∧ s.slotRun 4 = none ∧ (dWord r.ws 1).getLsbD 34 = false ∧ (dSignal r.ws).rel = false ∧
    (run1 .vectorWriteLand s).tile.sync.sig = [(7, 2)] ∧ ((run1 .vectorWriteLand s).byteAt (.pool 7 3) 0x1007).toNat = 8 := by
  refine ⟨by decide +kernel, by decide +kernel, by decide +kernel, by decide +kernel, by decide +kernel, ?_, by decide +kernel,
    by decide +kernel, by decide +kernel, by decide +kernel, by decide +kernel, by decide +kernel⟩
  intro g h k
  cases h
  exact absurd k (by decide)

/-- EngineFinishes, the last clause: a run waits at a ULD.i64 of an HBM page in a loose stint, and its data is due. -/
theorem test_witness_hbm_data :
    let w : W64 := fld 0x1D 58 ||| fld 1 54 ||| fld 8 50 ||| fld 3 40
    let r : UopRun := { n := 5, entry := fld 1 63 ||| fld 20 32 ||| fld 2 16, d := 3, a := 0x100000000000, b := 0, di := 0, mc := 0, pos := 0,
                        rep := none, temps := [], tpend := [], flags := 0, committed := false, stores := [], dval := none, hbmWait := some 41 }
    let t := { withCore { Core.init with hold := .uop r } with
      st := { Stores.empty with cstore := { Store.empty with bytes := Mem.write [] 0 (natLE 8 w.toNat) } } }
    let s := (testState t).modPad fun p => { p with strict := false, shape := { p.shape with chan := 1, world := 3 } }
    let u := s.uopAt r r.pos
    let ea := r.sel u u.sa + BitVec.ofInt 64 (sext 32 u.imm)
    s.tile.core.hold = .uop r ∧ r.hbmWait = some 41 ∧ 41 ≤ s.pad.rtick ∧ u.code = 0x1D ∧
    (s.uldCheck ea (uldWidth u.fn).1.bytes).toOption = some true ∧ r.mc + 1 ≠ r.cyc ∧
    ((run1 .hbmDataArrival s).tile.core.acc.map fun a => a.ea) = [0x100000000000] := by decide +kernel

/-- An iterator record of n0 elements of 2 ^ es bytes from an address on, a stride apart (Table 11-2). -/
def iter (base n0 stride es : Nat) : List W64 := [w64 base, 0x1000100010000 + w64 n0, w64 stride, 0, 0, w64 es, 0, 0]

/-- MatrixResults: a product whose row is due; an MWB row to read, and one to write, with its signal's matrix named in f48 and in i16; a
column that a loader reads, with room and with none; one that it takes in; and the commands MPOP and MVWIN. -/
theorem test_witness_matrix :
    let s := (kState []).modPad fun p => { p with rtick := 297 }
    let p := rowProduct
    let w := fun (f : Matrix → Matrix) => s.modTile fun t => { t with mx := f t.mx }
    let r : RowRun := { serial := 7, j := 0, s := 295, tile := 1, ws := [0, 0, fld 1 16, fld 0x1000 0 ||| fld 1 32 ||| fld 7 60], wb := true, step := 0,
                        row := none, flags := 0, sig := none, dead := false }
    let q := { r with s := 294, row := some (List.replicate 384 0) }
    let l : Loader := { serial := 7, j := 0, s := 290, walk := iter 0x1000 64 1 0, off := 0, cols := 2, entered := 0, got := none }
    let pop := { anEntry (.mpop { e0 with idx := 5 }) with rep := 0 }
    ((prodFmt p.fmt).toOption.map (fun f => (f.ints, f.k, f.blk)) = some (true, 64, 16) ∧ Mem.wf s.tile.st.pool.bytes = true ∧
      bit (s.ctl kMxdbg) 0 = false ∧ p.dead = false ∧ p.crow.map List.length = some 384 ∧ p.brows.length = 64 ∧ s.pad.rtick = p.s + p.t + 2) ∧
    ((w fun m => { m with rows := [r] }).matrixReads.tile.mx.rows.map fun x => x.row.map List.length) = [some 384] ∧ s.pad.rtick = r.s + 2 ∧
    (VTy.ofCode (bits (r.ws.getD 3 0) 63 60)).isSome = true ∧ bits (r.ws.getD 3 0) 20 0 % 64 = 0 ∧ s.pad.rtick = q.s + 2 + 1 ∧
    (s.pad.shape.target 3 ((walkOf l.walk).addr 127 l.off)) = .own 0x103F ∧
    (((w fun m => { m with loadA := some l }).loaderCycle false).tile.mx.loadA.bind fun x => x.got.map List.length) = some 64 ∧
    (((w fun m => { m with loadA := some l, scaleA := List.replicate 64 [] }).loaderCycle false).tile.core.conds.map (·.cause)) =
      [.queueImbalance] ∧
    ((w fun m => { m with loadA := some { l with got := some [9] } }).matrixEnd.tile.mx.loadA.map fun x => (x.entered, x.got.isSome)) =
      some (1, false) ∧
    (s.matrixGo pop).tile.dr.heads = [5] ∧ pop.instr = .mpop { e0 with idx := 5 } := by decide +kernel

/-- MatrixResults: a pop that reaches its ring, and an MVWIN that ends. -/
theorem test_witness_rings_and_windows :
    let d := { Drover.init with heads := [5], rg := [(21, fld 0xFFFFFFFF 32 ||| 3), (22, 0xFFFF)] }
    let e := anEntry (.mvwin { e0 with idx := 9 })
    let s := testState { kTile [] with mq := { Queue.init with entries := [e], act := some { s := 41, fin := some 41 } } }
    (Regs.rd d.turnRings.rg 21, Regs.rd d.turnRings.rg 22, d.turnRings.heads) = (3, 0, []) ∧ s.tile.mx.prods = [] ∧
    s.matrixEnd.tile.vec.vwin = 9 := by decide +kernel

/-- VectorMovesAndChains: a legal header of one pair at table 0 and none; and a chain of one addition of two i32 streams. -/
theorem test_witness_chain :
    let h : W64 := fld 1 16
    let s := fun (w : W64) => testState { kTile [] with
      st := { Stores.empty with tmem := { Store.empty with bytes := Mem.write [] 0 (natLE 8 w.toNat) }
                                pool := { Store.empty with bytes := Mem.write [] 0x1000 [5, 0, 0, 0, 6] } } }
    let it := fun (a : Nat) => [w64 a, 0x1000100010001, 0, 0, 0, 2, 2, 0]
    let e := { anEntry (.vchain e0) with
      ws := [fld 1 52, 0, 0, 0, 0, 0, fld 1 0 ||| fld 1 13, 0, 0, 0, 0, 0, 0, 0, fld 2 4, 0], its := [it 0x1000, it 0x1004, it 0x2000] }
    let c : Chain := { s := 41, group := 0, groups := 1, due := 41, win := 0, frameA := none, frameB := none, susp := false, wait := none }
    tabValid h 0 = true ∧ tabValid 0 0 = false ∧ (s 0).tile.st.tmem.errs = [] ∧ (s 0).tile.st.tmem.poison = [] ∧
    (match (s h).chainElem e c 0 with
      | (_, .ok r) => (r.1, r.2.1.map (·.toNat), r.2.2.toNat)
      | _ => (0, [], 0)) = (0x2000, [11, 0, 0, 0], 0) ∧
    ((s h).chainCheck 0x1000 4 false).toOption = some (.own 0x1000) ∧ ((s h).chainCheck 0x1004 4 false).toOption = some (.own 0x1004) ∧
    ((s h).chainCheck 0x2000 4 true).toOption = some (.own 0x2000) ∧ cBen e.ws = true ∧ ((cOps e.ws).all fun o => o.opc == 1) = true ∧
    (((s h).chainGroupDone e c ([(0x2000, [11, 0, 0, 0])], 0)).tile.vec.pend.map fun x => (x.due, x.sig.isSome)) = [(44, true)] ∧
    (((s h).chainGroupDone e { c with groups := 2 } ([(0x2000, [11, 0, 0, 0])], 0)).tile.vec.pend.map fun x => (x.due, x.sig.isSome)) =
      [(44, false)] := by decide +kernel

/-- VectorMovesAndChains: a CTINT of 0.5, below the range of a clamped table whose one pair is 3.0 and 1.0, is the pair's value; and the
chain operations on a NaN, on the least i8 and past the width (Table 13-8). -/
theorem test_witness_chain_operations :
    let s := testState { kTile [] with
      st := { Stores.empty with tmem := { Store.empty with bytes := Mem.write [] 0 (natLE 8 65536 ++ natLE 4 0x40400000 ++ natLE 4 0x3F800000) } } }
    let e := { anEntry (.vchain e0) with ws := List.replicate 14 0 ++ [fld 6 4] }
    let o : COp := { opc := 0x15, x := 0, y := 0, z := 0, mode := 0, cond := 0, tsel := 0 }
    tabValid 65536 0 = true ∧ cType e.ws = .f32 ∧ s.tile.st.tmem.errs = [] ∧ s.tile.st.tmem.poison = [] ∧
    (match (s.chainOps e 0x3F000000 0 0 [o] 0 0).2 with | .ok r => (r.pat, r.fl.toNat) | _ => (0, 0)) = (0x40400000, 0) ∧
    ({ o with opc := 0x0F }.apply .f32 0x7FC00000 1 2).pat = 1 ∧ ({ o with opc := 0x0F }.apply .f32 0x80000000 1 2).pat = 2 ∧
    ({ o with opc := 7, mode := 1 }.apply .i8 0x80 0 0).pat = 0x7F ∧ ({ o with opc := 7 }.apply .i8 0x80 0 0).pat = 0x80 ∧
    ({ o with opc := 0xC }.apply .i8 1 8 0).pat = 0 ∧ ({ o with opc := 0xE }.apply .i8 0x80 9 0).pat = 0xFF ∧
    ({ o with opc := 0x10, cond := 2 }.apply .f32 0 0x3F800000 0).pat = 0x3F800000 := by decide +kernel

/-- A run of the given command over two walks and an auxiliary one, in slot 0, with one beat. -/
def aMove (i : Instr) (w1 w2 w3 : W64) (a b c : List W64) (bt : Beat) : DRun :=
  { { anEntry i with ws := [0, w1, w2, w3, 0, 0, 0, 0], its := [a, b, c] }.droverRun 40 with slot := some 0, beats := [bt] }

def aBeat (k : BeatKind) (n : Nat) (data : List (List Byte)) : Beat :=
  { kind := k, first := 0, count := n, readAt := 41, writeAt := 41, read := !data.isEmpty, data := data }

/-- Tile 3 with a sound pool, whose engine holds the run. -/
def moveState (r : DRun) : State :=
  (testState { kTile [] with
    st := { Stores.empty with pool := { testPool with poison := [] } }
    dr := { Drover.init with runs := [r], rg := [(0, fld 2 32 ||| fld 4 12)] } }).modPad fun p =>
    { p with tiles := FMap.put p.tiles 1 { Tile.init with ctl := [(kPoolscope, 2)] } }

/-- DroverMovesBytes: reads of a copy, a fill and indices; writes of a copy whose elements overlap, near and at another tile. -/
theorem test_witness_moves :
    let cp := fun (d : Nat) (data : List (List Byte)) => aMove (.dcopy e0) 0 0 0 (iter 0x1000 2 7 0) (iter d 2 0 0) [] (aBeat .data 2 data)
    let r := cp 0x3000 []
    let s := moveState r
    let q := cp 0x3000 [[5], [6]]
    let x := moveState q
    let f := aMove (.dfill e0) 0 0 0x1234 [] (iter 0x3000 2 2 1) [] (aBeat .data 2 [])
    let got := fun (s : State) (b : Beat) => (s.readBeat 7 0 b).tile.dr.runs.flatMap fun r => r.beats.flatMap (·.data)
    (s.dRun 7 0 = some r ∧ r.stopAt = none ∧ s.tile.dr.shun = [] ∧ dEchk r.ws = false) ∧
    (r.cmd.usesSrc = true ∧ r.srcAddr 1 = 0x1007 ∧ s.pad.shape.target 3 0x1007 = .own 0x1007 ∧ s.inReach (.own 0x1007) = true) ∧
    (s.tile.st.pool.errs = [] ∧ s.tile.st.pool.poison = [] ∧ Mem.wf s.tile.st.pool.bytes = true ∧ r.ring = none ∧ r.ahead = []) ∧
    got s (aBeat .data 2 []) = [[0x80], [0xFF]] ∧ got (moveState f) (aBeat .data 2 []) = [[0x34, 0x12], [0x34, 0x12]] ∧
    q.dstAddr 1 % q.width = 0 ∧ ((x.writeBeat 7 0 (aBeat .data 2 [[5], [6]])).byteAt (.pool 7 3) 0x3000).toNat = 6 := by decide +kernel

/-- DroverMovesBytes: a DPUTADD of two elements into window 0, unordered and ordered; and a walk whose saved counters are (1, 1) of (2, 3). -/
theorem test_witness_contributions_sent :
    let b := aBeat .data 2 [[1, 0, 0, 0], [2, 0, 0, 0]]
    let r := fun (k : W64) => { aMove (.dputadd e0) 0 (fld 1 36) 0 (iter 0x1000 2 4 2) (iter 0x200000000010 2 4 2) [] b with
      route := fld k.toNat 61, issued := 1, beta := 1, h := 9 }
    let s := fun (k : W64) => moveState (r k)
    let sent := fun (k : W64) => (((s k).windowSend (r k)).panel.fabric.map fun x => (x.1 - (s k).dtick, x.2.senders.map (·.elem), x.2.body))
    let it : List W64 := [0x1000, 0x1000100030002, 100 <<< 32 ||| 4, 0, 0x10001, 2, 0, 0]
    (r 1).cmd = .putadd ∧ (r 1).windowed (s 1).pad.shape 3 = true ∧ (s 1).dRun 7 0 = some (r 1) ∧ (s 2).dRun 7 0 = some (r 2) ∧
    sent 1 = [(4, [0], .add (dAtype (r 1).ws) 0 [(16, [1, 0, 0, 0])]), (4, [1], .add (dAtype (r 1).ws) 0 [(20, [2, 0, 0, 0])])] ∧
    sent 2 = [(4, [0], .add (dAtype (r 1).ws) 0 [(16, [1, 0, 0, 0]), (20, [2, 0, 0, 0])])] ∧
    (walkOf it).count = 3 ∧ (List.range 3).map (fun e => (walkOf it).addr e 0) = [0x1000 + 104, 0x1000 + 200, 0x1000 + 204] := by
  decide +kernel

/-- DroverMovesBytes: the index beat of a gather, and a beat that is due. -/
theorem test_witness_indices :
    let g := aMove (.dgather e0) 0 0 0 (iter 0x1000 1 0 0) (iter 0x3000 2 1 0) (iter 0x1000 2 4 2) (aBeat .index 2 [])
    let s := moveState g
    ((s.readBeat 7 0 (aBeat .index 2 [])).tile.dr.runs.map fun r => r.idx) = [[0x8180, 0xFF000000 - 2 ^ 32]] ∧
    s.pad.shape.target 3 (g.aux.addr 1 0) = .own 0x1004 ∧ s.tile.dr.runs = [g] ∧ g.windowed s.pad.shape 3 = false ∧
    s.beatIsRemote g (aBeat .index 2 []) = false ∧ (aBeat .index 2 []).readAt ≤ s.pad.rtick := by decide +kernel

/-- The address of tile 1's pool as tile 3 of the paddock sees it: 0 across, 1 up (R246). -/
def northTile : Nat := 0x010000000000 + 127 * 2 ^ 29 + 128 * 2 ^ 21

/-- DroverMovesBytes: atomics on the own pool with and without RET, one at another tile, and the old value that comes back. -/
theorem test_witness_atomics :
    let am := fun (ret : W64) (a : Nat) (k : BeatKind) =>
      aMove (.damo e0) (ret <<< 41) (fld 2 32) 0 (iter 0x1100 1 0 2) (iter a 1 0 2) (iter 0x1200 1 0 2) (aBeat k 1 [[0, 0, 0, 0x80]])
    let w := fun (ret : W64) (a : Nat) (k : BeatKind) => (moveState (am ret a k)).writeBeat 7 0 (aBeat k 1 [[0, 0, 0, 0x80]])
    let at' := fun (s : State) (i a : Nat) => ((List.range 4).map fun k => (s.byteAt (.pool 7 i) (a + k)).toNat)
    at' (w 0 0x1004 .data) 3 0x1004 = [0, 0, 0, 0xFF] ∧ at' (w 1 0x1004 .data) 3 0x1200 = [0, 0, 0, 0xFF] ∧
    (moveState (am 0 0x1004 .data)).pad.shape.target 3 northTile = .tile 1 0 ∧ dRet (am 1 0x1004 .data).ws = true ∧
    (moveState (am 0 0x1004 .data)).latTo (some (.own 0x1004)) = 0 ∧ 0 < (moveState (am 0 0x1004 .data)).latTo (some (.tile 1 0)) ∧
    ((w 1 northTile .data).tile.dr.runs.map fun r => r.beats.map fun b => (b.kind, b.count, b.data)) = [[(.back, 1, [[0, 0, 0, 0]])]] ∧
    (moveState (am 0 0x1004 .data)).inReach (.tile 1 0) = true ∧ at' (w 1 northTile .back) 3 0x1200 = [0, 0, 0, 0x80] := by decide +kernel

/-- DroverMovesBytes: a push into a ring of two slabs that has room, one that is full, and one that another push is writing. -/
theorem test_witness_slots_of_pushes :
    let p := aMove (.dcopy e0) (fld 1 35) 0 0 (iter 0x1000 512 8 3) (iter 0 512 8 3) [] (aBeat .data 2 [])
    let s := moveState p
    let g := s.tile.dr.ring 0
    let t := fun (f : Drover → Drover) => s.modDrover f
    (p.ring, p.base, g.base, g.nslab, g.occ) = (some 0, none, 4, 2, 0) ∧ s.pad.shape.spBytes ≥ (g.base + g.nslab) * 4096 ∧
    (s.pushBase p 0).2 = some 4 ∧ ((t fun d => { d with pushing := [0] }).pushBase p 0).2 = none ∧
    ((t fun d => { d with rg := d.rg ++ [(1, 2)] }).pushBase p 0).2 = none := by decide +kernel

/-- EngineFinishes: a run with SIGDST whose destination lies in tile 1, a copy and an atomic one. -/
theorem test_witness_signals_at_destination :
    let c := aMove (.dcopy e0) (fld 1 34 ||| fld 7 16 ||| fld 2 24) 0 0 (iter 0x1000 1 0 3) (iter northTile 1 0 3) [] (aBeat .data 1 [])
    let s := moveState c
    let a := { aMove (.damo e0) (fld 1 34 ||| fld 7 16 ||| fld 2 24) 0 0 (iter 0x1000 1 0 3) (iter northTile 1 0 3) [] (aBeat .data 1 []) with
      fin := some (41 + s.pad.shape.strLat 3 1), beats := [] }
    let m := moveState a
    let sig := fun (t : State) => (t.tileOf 7 1).sync.sig
    s.slotRun 0 = some c ∧ (dWord c.ws 1).getLsbD 34 = true ∧ c.cmd ≠ .put ∧ c.cmd ≠ .putadd ∧ c.cmd ≠ .amo ∧
    c.dstTile s.pad.shape 3 = 1 ∧ (dSignal c.ws).rel = false ∧ sig (run1 (.droverTransferFinish 0) s) = [(7, 2)] ∧
    a.cmd = .amo ∧ m.tile.dr.runs = [a] ∧ a.stopAt = none ∧ 0 < m.pad.shape.strLat 3 1 ∧
    sig (run1 (.droverTransferFinish 0) m) = [] ∧ sig m.droverFinishes = [(7, 2)] := by decide +kernel

/-- EngineFinishes, its SCOPE clause: a binding gives semaphore 7 of tile 3 bytes of tile 1 that tile 1 alone reaches. -/
theorem test_witness_scope :
    let c := aMove (.dcopy e0) (fld 7 16 ||| fld 2 24 ||| fld 1 33) 0 0 (iter 0x1000 1 0 3) (iter 0x2000 1 0 3) [] (aBeat .data 1 [])
    let s := (moveState c).modPad fun p => { p with shape := { p.shape with
      binds := [{ start := northTile + 0x10000, len := 8, obj := fld 1 0 ||| fld 7 8 ||| fld 1 16 ||| fld 1 24, addr := 0 }] } }
    (dSignal c.ws).rel = true ∧ (s.outOfScope (.sem 3 7)).isSome = true ∧ s.slotRun 0 = some c ∧ (dWord c.ws 1).getLsbD 34 = false ∧
    ((run1 (.droverTransferFinish 0) s).tile.core.conds.map (·.cause)) = [.scope] := by decide +kernel

/-- A Drover copy of one element within the own pool, due now, that waits for 2 of semaphore 7. -/
def waitingCopy (w1 : W64) : Entry :=
  { anEntry (.dcopy e0) with ws := [0, w1, 0, 0, 0, 0, 0, 0], its := [iter 0x1000 1 0 3, iter 0x2000 1 0 3, []] }

def waitingState (e : Entry) (sem : BitVec 16) (strict : Bool) (runs : List DRun) : State :=
  (testState { kTile [] with
    dq := { Queue.init with entries := [e] }, sync := { Sync.init with sems := [(7, sem)] }, dr := { Drover.init with runs := runs } }).modPad
    fun p => { p with strict := strict }

/-- EngineStarts: a loose copy whose semaphore holds from now, one whose start is some cycles on, a short one in each mode, and no free
slot in each mode. -/
theorem test_witness_loose_starts :
    let w1 : W64 := fld 7 0 ||| fld 2 8
    let e := waitingCopy w1
    let s := waitingState e 5 false []
    let all := (List.range 8).map fun k => { e.droverRun 40 with slot := some k }
    let conds := fun (s : State) => (run1 (.engineRunStart .d) s).tile.core.conds.map fun f => (f.cause, f.unit, bits f.t3 7 0)
    (dWait e.ws).n = 2 ∧ (dWait e.ws).q = 7 ∧ (7 : Nat) ∉ s.tile.sync.poison ∧ (dWait e.ws).acq = false ∧ e.ready = none ∧
    s.tile.dq.act = none ∧ e.due ≤ s.pad.rtick ∧ s.droverReason (e.droverRun 41) = none ∧ s.tile.dr.freeSlot = some 0 ∧
    2 ≤ (s.tile.sync.sem 7).toNat ∧ (let x := { e with ready := some 60 }; s.pad.rtick < x.ready.getD s.pad.rtick) ∧
    (waitingState { e with ready := some 60 } 5 false []).tile.dq.entries.length = 1 ∧
    ((waitingState e 1 false []).tile.sync.sem 7).toNat < 2 ∧ (waitingState e 5 false all).tile.dr.freeSlot = none ∧
    conds (waitingState e 1 true []) = [(.timing, .d, 5)] ∧ conds (waitingState e 5 true all) = [(.timing, .d, 4)] ∧
    conds (waitingState e 1 false []) = [] ∧
    ((run1 (.engineRunStart .d) (waitingState e 5 true [])).tile.sync.sem 7).toNat = 3 := by decide +kernel

-- Windows and reductions (15)

def testMsg (b : PodBody) : PodMsg :=
  { window := 9, route := { panel := 0, kind := 1, hx := 1, hy := 1, peer := 6 }, back := 5, body := b
    senders := [{ panel := 0, pad := 7, tile := 3, serial := 7, j := 0, elem := 0, counts := true }] }

/-- Tile 3 as the home of window 9: peer word 6, kind 1, two senders, 256 bytes from 0x1000. -/
def homeTile' (f : Sync → Sync) : Tile :=
  { kTile [] with
    ctl := [(kWdesc + 9, fld 1 63 ||| fld 1 61 ||| fld 2 32 ||| 6), (kWmap + 9, fld 1 63 ||| fld 1 61 ||| fld 8 48 ||| 0x1000)]
    sync := f Sync.init }

def homeState (m : PodMsg) (f : Sync → Sync) : State :=
  { testState (homeTile' f) with panel := { Panel.init with fabric := [(1000, m)] } }

/-- WindowPutsAndAnswers: a due put whose element the window takes, one of another kind, one past the end of the range, one of a
poisoned window, and the acknowledgement of a run in a slot. -/
theorem test_witness_window_put :
    let m := testMsg (.put [(0xF8, [1, 2, 3, 4, 5, 6, 7, 8])])
    let s := homeState m id
    let wd := s.ctl (kWdesc + 9)
    let wm := s.ctl (kWmap + 9)
    s.panel.fabric = [(1000, m)] ∧ 1000 ≤ s.dtick ∧ s.panel.panelno.toNat % 32 = 0 ∧ s.homeFor m = some s.cur ∧
    bits wd 62 61 = m.route.kind ∧ (9 : Nat) ∉ s.tile.sync.wpoison ∧ wm.getLsbD 61 = true ∧ 0xF8 + 8 ≤ 2 ^ bits wm 53 48 ∧
    (bits wm 47 0 + 0xF8) % 8 = 0 ∧ bits wm 47 0 + 0xF8 + 8 ≤ s.pad.shape.penBase ∧ s.pad.shape.penBase ≤ 0x200000 ∧
    s.pad.shape.spBytes ≤ s.pad.shape.penBase ∧ Mem.wf s.tile.st.pool.bytes = true ∧ s.tile.st.pool.poison = [] ∧
    s.tile.st.pool.errs = [] ∧ bit (s.ctl kMxdbg) 0 = false ∧ bits wd 62 61 ≠ 2 ∧ 2 ^ bits wm 53 48 < 0xF9 + 8 ∧
    (9 : Nat) ∈ (homeState m fun y => { y with wpoison := [9] }).tile.sync.wpoison ∧
    ((run1 .windowPutApply s).byteAt (.pool 7 3) 0x10FF).toNat = 8 := by decide +kernel

/-- WindowPutsAndAnswers: a due get of the window. -/
theorem test_witness_window_get :
    let m := testMsg (.get [(0xF8, 8)])
    let s0 := homeState m id
    let s := s0.modTile fun t => { t with ctl := (kWmap + 9, fld 1 63 ||| fld 1 62 ||| fld 8 48 ||| 0x1000) :: t.ctl.filter fun e => e.1 != kWmap + 9
                                          st := { Stores.empty with pool := { Store.empty with bytes := [(0x10FF, 5)] } } }
    let wm := s.ctl (kWmap + 9)
    s.panel.fabric = [(1000, m)] ∧ s.homeFor m = some s.cur ∧ bits (s.ctl (kWdesc + 9)) 62 61 = m.route.kind ∧ (9 : Nat) ∉ s.tile.sync.wpoison ∧
    wm.getLsbD 62 = true ∧ 0xF8 + 8 ≤ 2 ^ bits wm 53 48 ∧ (8 : Nat) ∈ [1, 2, 4, 8] ∧ (bits wm 47 0 + 0xF8) % 8 = 0 ∧
    bits wm 47 0 + 0xF8 + 8 ≤ s.pad.shape.penBase ∧ Mem.wf s.tile.st.pool.bytes = true ∧ s.tile.st.pool.poison = [] ∧
    ((run1 .windowPutApply s).panel.fabric.map fun x => match x.2.body with
      | .ack [d] => d.map (·.toNat)
      | _ => []) = [[0, 0, 0, 0, 0, 0, 0, 5]] := by decide +kernel

theorem test_witness_window_ack :
    let r := { (anEntry (.dput e0)).droverRun 40 with slot := some 3 }
    let s0 := homeState (testMsg (.ack [])) id
    let s := s0.modTile fun t => { t with dr := { Drover.init with runs := [r] } }
    s.dRun 7 0 = some r ∧ r.slot.isSome = true ∧ r.cmd = .put ∧ s.cur = { pad := 7, tile := 3 } ∧
    ((run1 .windowAck s).tile.dr.runs.map fun q => q.fin) = [some 640] := by decide +kernel

/-- Reductions: two contributions of one element to one unordered window; a window whose round is whole, and one with a sender to
come. -/
theorem test_witness_reductions :
    let m := testMsg (.add 1 0 [(0x10, [255, 1, 0, 0])])
    let n := { m with senders := [{ panel := 1, pad := 7, tile := 0, serial := 9, j := 0, elem := 0, counts := true }], body := .add 1 0 [(0x10, [1, 0, 0, 0])] }
    let s := { testState (kTile []) with panel := { Panel.init with fabric := [(1500, m), (1600, n)] } }
    let c : Contrib := { window := 9, panel := 1, sender := 0, seq := 0, addr := 0x10, data := [0, 0, 0x80, 0x3F], aty := 3 }
    let d := { c with panel := 0, sender := 7 }
    let h := homeState m fun y => { y with contribs := [c, d] }
    let l := homeState m fun y => { y with contribs := [c] }
    m.window = n.window ∧ m.route = n.route ∧ m.route.kind = 1 ∧ ([255, 1, 0, 0] : List Byte).length = 4 ∧
    ((run1 .reductionMerge s).panel.fabric.map fun x => match x.2.body with
      | .add _ _ xs => xs
      | _ => []) = [[(0x10, [0, 2, 0, 0])]] ∧
    bits (h.ctl (kWdesc + 9)) 47 32 = 2 ∧ (h.tile.sync.roundKeys 9 0).length = 2 ∧ (l.tile.sync.roundKeys 9 0).length ≠ 2 ∧
    d.panel < c.panel ∧ c.addr = d.addr ∧ c.data.length = 4 ∧ (h.ctl (kWmap + 9)).getLsbD 61 = true ∧
    ((run1 (.orderedRoundApply 9) h).byteAt (.pool 7 3) 0x1013).toNat = 0x40 := by decide +kernel

/-- Reductions: of three messages two may meet, and the third, with another element of the second's run, stays; and a round of three
senders with elements of two types, one of them over a poisoned word. -/
theorem test_witness_reduction_runs :
    let m := testMsg (.add 1 0 [(0x10, [255, 1, 0, 0])])
    let from9 : List Sender := [{ panel := 1, pad := 7, tile := 0, serial := 9, j := 0, elem := 0, counts := true }]
    let n := { m with senders := from9, body := .add 1 0 [(0x10, [1, 0, 0, 0])] }
    let o := { m with senders := from9, body := .add 1 0 [(0x14, [7, 0, 0, 0])] }
    let s := { testState (kTile []) with panel := { Panel.init with fabric := [(1500, m), (1600, n), (1600, o)] } }
    let none2 := { s with panel := { s.panel with fabric := [(1600, n), (1600, o)] } }
    let items := fun (s : State) => s.panel.fabric.map fun x => match x.2.body with
      | .add _ _ xs => (x.1, xs)
      | _ => (0, [])
    let c : Contrib := { window := 9, panel := 1, sender := 0, seq := 0, addr := 0x10, data := [0, 0, 0x80, 0x3F], aty := 3 }
    let d := { c with panel := 0, sender := 7 }
    let e := { c with panel := 0, sender := 7, addr := 0x20 }
    let f := { c with panel := 0, sender := 8, addr := 0x18, data := [255, 0, 0, 0, 0, 0, 0, 0], aty := 2 }
    let round := [c, f, d, e]
    let h0 := homeState m fun y => { y with contribs := round }
    let h := h0.modTile fun t => (t.modPool fun p => { p with poison := [0x204] }).setCtl (kWdesc + 9) (fld 1 63 ||| fld 1 61 ||| fld 3 32 ||| 6)
    let t := run1 (.orderedRoundApply 9) h
    [(0, 7), (0, 8), (1, 0)].Pairwise (fun (k l : Nat × Nat) => k.1 < l.1 ∨ (k.1 = l.1 ∧ k.2 < l.2)) ∧
    (∀ c ∈ round, (c.panel, c.sender) ∈ [(0, 7), (0, 8), (1, 0)]) ∧ bits (h.ctl (kWdesc + 9)) 47 32 = 3 ∧
    (h.ctl (kWmap + 9)).getLsbD 61 = true ∧ (∀ c ∈ round, c.addr + c.data.length ≤ 2 ^ bits (h.ctl (kWmap + 9)) 53 48 ∧
      (bits (h.ctl (kWmap + 9)) 47 0 + c.addr) % c.data.length = 0) ∧
    items (run1 .reductionMerge s) = [(1600, [(0x14, [7, 0, 0, 0])]), (1600, [(0x10, [0, 2, 0, 0])])] ∧
    items (run1 .reductionMerge none2) = items none2 ∧
    (t.byteAt (.pool 7 3) 0x1013).toNat = 0x40 ∧ (t.byteAt (.pool 7 3) 0x1018).toNat = 255 ∧
    (t.byteAt (.pool 7 3) 0x1023).toNat = 0 ∧ t.tile.sync.wpoison = [9] ∧ t.tile.sync.contribs = [] := by decide +kernel

-- Clocks, timers and the end of a region cycle (04, 09, 17, 18)

/-- A paddock of one tile. -/
def soloState (t : Tile) : State :=
  { testState t with
    pads := [(7, { testPad t with tiles := [(3, t)] })] }

/-- RegionCycleEnds: a tile at rest; one that issues PPT with a mailbox write latched; one at an ALIGN; on one die. -/
theorem test_witness_region_cycle :
    let x := kTile []
    let s := soloState x
    let q := { withCore { Core.init with ppt := some 1 } with mboxLatch := [(2, 9)] }
    let a := withCore { Core.init with aligning := true }
    s.pad.tiles = [(3, x)] ∧ s.pad.folds = [] ∧ s.pad.reports = [] ∧ s.pad.pending = [] ∧ s.pad.dbg.armed = [] ∧ s.pad.freeze = none ∧
    bit (s.fn s.pad.fn).dbg.tcfg 63 = false ∧ x.mq.entries = [] ∧ x.mx = { x.mx with loadA := none, loadB := none, nest := none, prods := [], rows := [] } ∧
    x.dr = { x.dr with runs := [], tails := [], heads := [], shun := [] } ∧ x.core.landed = [] ∧
    x.sync = { x.sync with sig := [], set := [], sentInc := [], recvInc := [], contribs := [] } ∧ x.core.ppt = none ∧
    q.core.ppt = some 1 ∧ q.mboxLatch = [(2, 9)] ∧ s.pad.state = .running ∧ a.core.aligning = true ∧
    (s.pad.shape.dies s.pad.place).length ≤ 1 ∧
    ((run1 .regionCycle (soloState q)).pad.stint, (run1 .regionCycle (soloState q)).pad.strict) = (1, false) ∧
    (run1 .regionCycle (soloState a)).pad.freeze = some (.align 1003) ∧ (run1 .regionCycle s).pad.rtick = 42 := by decide +kernel

/-- RegionCycleEnds: what the tile is at rest in besides; a class of the image; the tile of the pause point with one write latched. -/
theorem test_witness_rest :
    let x := kTile []
    let q := { withCore { Core.init with ppt := some 1 } with mboxLatch := [(2, 9)] }
    x.core.waitFrom = none ∧ x.core.hold = .none ∧ x.core.tie = false ∧ x.mboxIn = [] ∧ x.st.hits = 0 ∧ x.st.uncs = 0 ∧ x.obs.seen = [] ∧
    x.core.dead = false ∧ x.core.aligning = false ∧ 1 < (soloState q).pad.shape.nstint ∧ q.core.waitFrom = none ∧ q.mboxIn = [] := by decide +kernel

/-- ClocksAndBackground: a freeze for an ALIGN that is over and one that is not; an ALIGN interval that ends; COUNT at CMP and away
from it; a walk that is over; a move with one page to switch and with two; an armed record of this cycle in each mode; a
sampling period that divides the cycle and one that does not. -/
theorem test_witness_background :
    let s := soloState (kTile [])
    let p := fun (f : Paddock → Paddock) => s.modPad f
    let t := fun (f : Tile → Tile) => soloState (f (kTile []))
    let a : Armed := { time := 41, tile := 3, mbox := 2, value := 9, seq := 0 }
    FMap.sorted s.pad.tiles = true ∧ (p fun p => { p with freeze := some (.align 1000) }).pad.freeze = some (.align s.dtick) ∧
    (let q := (p fun p => { p with shape := { p.shape with alignIv := 9 }, alignCnt := 10 }).pad
     q.shape.alignIv ≠ 0 ∧ q.alignCnt = q.shape.alignIv + 1) ∧
    bits (s.ctl kTimer) 62 0 = bits (s.ctl kTcmp) 62 0 ∧ bit (s.ctl kTimer) 63 = false ∧
    bits ((t fun t => { t with ctl := [(kTimer, 5)] }).ctl kTimer) 62 0 ≠ bits ((t fun t => { t with ctl := [(kTimer, 5)] }).ctl kTcmp) 62 0 ∧
    (t fun t => { t with tlb := { pages := [], walks := [(5, some 1000)] } }).tile.tlb.walks = [(5, some s.dtick)] ∧
    (let q := (p fun p => { p with moving := [624], shape := { p.shape with chan := 1 } }).pad
     q.moving = [624] ∧ 624 < q.shape.chan * 625 ∧ FMap.sorted q.pages = true) ∧
    (623 : Nat) ∉ ([624] : List Nat) ∧
    FMap.get? (run1 .replayInputApply (p fun p => { p with strict := false, dbg := { p.dbg with armed := [a] } })).pad.tiles 3 =
      some { kTile [] with mbox := [(2, 9)] } ∧
    a.time = s.pad.rtick ∧ FMap.get? s.pad.tiles 3 = some (kTile []) := by decide +kernel

theorem test_witness_sampling :
    let s := { soloState (kTile []) with fns := [(0, { Func.init with dbg := { DebugBlock.init with tcfg := fld 1 63 ||| fld 1 62 ||| fld 10 32 } })] }
    let u := s.modPad fun p => { p with rtick := 2048 }
    bits (u.fn u.pad.fn).dbg.tcfg 39 32 = 10 ∧ u.pad.rtick % 2 ^ 10 = 0 ∧ s.pad.rtick % 2 ^ 10 ≠ 0 ∧
    bit (u.fn u.pad.fn).dbg.tcfg 63 = true ∧ bit (u.fn u.pad.fn).dbg.tcfg 62 = true ∧ (u.fn u.pad.fn).session = none ∧
    u.tile.obs.buf.length < 64 ∧ bits ((soloState (kTile [])).fn 0).dbg.tcfg 39 32 < 10 := by decide +kernel

/-- ClocksAndBackground: a paddock that is frozen, at its release; a move whose last page has gone; another side's register. -/
theorem test_witness_clocks :
    let s := soloState (kTile [])
    let z := s.modPad fun p => { p with freeze := some (.align 1000), slips := [(0, 1)] }
    let m := s.modPad fun p => { p with moving := [], nextSwitch := some 2000, oldChans := [5] }
    z.pad.freeze.isSome = true ∧ (run1 .alignRelease z).pad.freeze = none ∧ (run1 .alignRelease z).pad.capture = 1000 ∧
    (run1 .tickBeat s).ctl 0x0A = 0x8000800080008000 ∧ m.pad.nextSwitch.isSome = true ∧
    ((run1 .movePageSwitch m).pad.oldChans, (run1 .movePageSwitch m).pad.nextSwitch) = ([], none) := by decide +kernel

/-- ClocksAndBackground: a page whose channel's M-die is out of service, one whose is not; and a beat that such a die cuts off (R29). -/
theorem test_stopped_mdie :
    let s := soloState (kTile [])
    let off := fun (s : State) => { s with panel := { s.panel with dies := [(202, { temp := 120, hot := true, stopped := true, failed := false })] } }
    let m := s.modPad fun p => { p with moving := [0], chans := [some 64], shape := { p.shape with chan := 1 } }
    let run := { aMove (.dcopy e0) 0 0 0 (iter 0x100000000000 1 7 0) (iter 0x2000 1 0 0) [] (aBeat .data 1 []) with fin := some 60 }
    let d := (soloState { kTile [] with dr := { Drover.init with runs := [run] } }).modPad fun p => { p with chans := [some 64], shape := { p.shape with chan := 1 } }
    m.copyCut 0 = false ∧ (off m).copyCut 0 = true ∧ (run1 .movePageSwitch (off m)).pad.moving = [0] ∧
    d.sever.tile.dr.runs = [run] ∧ (off d).sever.tile.dr.runs.map (fun r => (r.beats, r.fin)) = [([], some (60 + 2 ^ 32))] := by decide +kernel

-- How paddocks end, and the Shepherd's own turns (01, 03, 17, 18, 19)

/-- A machine with one paddock of function 0, handle 7, on dies whose rows are not shifted. -/
def padState (p : Paddock) : State :=
  { State.reset with
    pads := [(7, { p with handle := 7 })], dtick := 1000, cur := { pad := 7, tile := 3 }
    panel := { Panel.init with retire2 := 5, remap := (List.range 1600).map fun i => (i, 8) } }

/-- A paddock of one tile with a channel. -/
def soloPad (t : Tile) : Paddock :=
  { testPad t with
    tiles := [(0, t)], shape := { (testPad t).shape with w := 1, h := 1, chan := 1 }, chans := [some 64] }

/-- EndsOfPaddocks: a breakpoint that fires, alone and beside a fault; a fault whose clock has stopped; a tile that is down;
watchdogs of a running paddock; a reclaim that ran out, met and unmet; a hold that is over. -/
theorem test_witness_ends :
    let p := soloPad (kTile [])
    let s := padState p
    FMap.get? s.pads 7 = some s.pad ∧ p.net = [] ∧ p.folds = [] ∧ (kTile []).core.acc = [] ∧ (kTile []).vec.pend = [] ∧
    (kTile []).st.pool.errs = [] ∧ p.state = .running ∧ bit (s.fn p.fn).dbg.tcfg 63 = false ∧ p.freeze = none ∧ 0 < p.rtick ∧
    p.reports = [] ∧ (s.padAt 7).state = .running ∧ (3 : Nat) ≠ 4 ∧ FMap.sorted s.pads = true ∧ s.liveHandles 0 = [7] := by decide +kernel

/-- A request that gives back every page of a paddock of one channel. -/
def releaseAll : Pending := { req := .release 0x100000000000 625, due := 41, cmd := none, deadline := none }

/-- A paddock of one tile and one channel, asked to give it back until dtick 1000. -/
def reclaimedPad (ps : List Pending) : Paddock := { soloPad (kTile []) with reclaims := [(0, 1000)], pending := ps }

theorem test_witness_release : (reclaimedPad [releaseAll]).preview.pagesAt 0 = [] := by
  have e : (reclaimedPad [releaseAll]).preview = (Req.release 0x100000000000 625).onPages (reclaimedPad [releaseAll]) := rfl
  rw [e, Req.onPages, dropTlbs_pagesAt]
  refine pagesAt_drops _ _ (by decide) fun i hi => List.mem_map.mpr ⟨i, List.mem_range.mpr hi, ?_⟩
  have z : hbmPage 0x100000000000 = 0 := by decide
  rw [z, Nat.zero_add]

theorem test_witness_reclaim :
    let q := padState (reclaimedPad [])
    ((q.padAt 7).pagesAt 0).isEmpty = false ∧ 1000 ≤ q.dtick ∧ (q.padAt 7).pending = [] ∧ (q.padAt 7).reclaims = [(0, 1000)] := by
  decide +kernel

/-- ShepherdTurns: a position all of whose pages are gone. -/
theorem test_witness_no_pages :
    ((padState ((List.range 625).foldl Paddock.dropPage (soloPad (kTile [])))).padAt 7).pagesAt 0 = [] := by
  have e : ∀ p, ((padState p).padAt 7).pagesAt 0 = p.pagesAt 0 := fun _ => rfl
  rw [e]
  exact pagesAt_drops _ _ (by decide) fun i hi => List.mem_range.mpr hi

theorem test_witness_stops :
    let r : Report := { cycle := 40, tile := 0, info := sFault .watchdog 1 }
    let p := { soloPad (kTile []) with stopAt := some 40, reports := [r] }
    let d := withCore { Core.init with halted := true }
    let f := { Func.init with hold := some 1000 }
    p.stopAt = some (p.rtick - 1) ∧ p.reports = [r] ∧ d.isDown = true ∧ ({ Dbg.init with fireAt := some 41 } : Dbg).fireAt = some 41 ∧
    ({ padState p with fns := [(0, f)] } : State).fn 0 = f ∧ (padState p).dtick = 1000 := by decide +kernel

theorem test_job_end :
    let s := padState (soloPad (withCore { Core.init with halted := true }))
    (((run1 (.jobEnd 7) s).padAt 7).state, ((run1 (.jobEnd 7) s).padAt 7).pending) = (.halted, []) := by decide +kernel

/-- EndsOfPaddocks: the cycle a breakpoint fired on, kept; a paddock all of whose tiles are down since an earlier cycle. -/
theorem test_witness_fired :
    let d := { withCore { Core.init with halted := true } with core := { Core.init with halted := true, lately := false } }
    let s := padState { soloPad d with dbg := { Dbg.init with fireAt := some 41, fireBp := 3 } }
    d.isDown = true ∧ d.core.lately = false ∧ s.pad.reports = [] ∧ s.pad.dbg.fireAt = some 41 ∧
    ((run1 .breakpointStop s).pad.dbg.state, (run1 .breakpointStop s).pad.dbg.bp, (run1 .breakpointStop s).pad.dbg.zlow) = (3, 3, 41) := by
  decide +kernel

/-- A session of function 3 last heard at a given dtick. -/
def sessionFn (heard : Nat) : Func :=
  { Func.init with session := some { key := [], expected := 1, top := 0, heard := heard } }

/-- ShepherdTurns: a session not heard for 10 s and one heard a dtick later; no paddock sliced; a running paddock; a reclaim of a
position with pages and of one without; the role at its first site and at the standby. -/
theorem test_witness_turns :
    let p := soloPad (kTile [])
    let s := { padState { p with fn := 3 } with fns := [(3, sessionFn 0)], dtick := 16000000000 }
    FMap.sorted s.pads = true ∧ (s.fn 3).session = (sessionFn 0).session ∧ 0 + 16000000000 ≤ s.dtick ∧ s.dtick < 1 + 16000000000 ∧
    (s.fn 3).hold = none ∧ (s.fn 3).void = false ∧ (∀ e ∈ s.pads, e.2.sliced = false) ∧ (s.padAt 7).state = .running ∧
    (s.padAt 7).asked .slice = false ∧ (s.padAt 7).chans[0]? = some (some 64) ∧ (s.padAt 7).reclaims = [] ∧
    ((s.padAt 7).pagesAt 0).isEmpty = false ∧ s.panel.shep = 105 ∧
    (∀ e ∈ s.pads, e.2.placed = true → e.2.touches 105 = false) ∧ ({ s.panel with shep := 114 } : Panel).shep ≠ 105 := by decide +kernel

theorem test_heartbeat_timeout :
    let s := { padState { soloPad (kTile []) with fn := 3, state := .loaded } with fns := [(3, sessionFn 0)], dtick := 16000000000 }
    (((run1 (.heartbeatTimeout 3) s).fn 3).hold, ((run1 (.heartbeatTimeout 3) s).padAt 7).state) = (some 64000000000, .held) := by
  decide +kernel

-- The commands of the Shepherd (03, 19)

/-- A command of function 0 with handle 7. -/
def aCommand : Command :=
  { fn := 0, index := 0, cookie := 0, handle := 7, flags := 0, arg0 := 0, arg1 := 0, arg2 := 0, arg3 := 0, seq := 1, atag := 0 }

/-- ShepherdTurns: a command that waits at a takeover, which runs again; a slice end of a running paddock. -/
theorem test_witness_takeover :
    let c := { aCommand with handle := 7 }
    let q : Pending := { req := .preempt, due := 50, cmd := some c, deadline := none }
    let s := padState { soloPad (kTile []) with pending := [q] }
    let t := run1 .shepherdTakeover s
    s.panel.shep = 105 ∧ s.panel.awaits = [] ∧ (∀ e ∈ s.pads, e.2.moveCmd = none) ∧ (∀ e ∈ s.pads, e.2.placed = true → e.2.touches 105 = false) ∧
    t.agenda = [.run s.cur (.preempt c)] ∧ (t.padAt 7).pending = [] ∧ ((run1 (.sliceEnd 0) s).padAt 7).pending.length = 2 ∧
    (s.padAt 7).asked .slice = false := by decide +kernel

/-- CommandRefusals: a hold and none; flags; a virtual function; no such handle; a DESTROYED paddock; the last number but one. -/
theorem test_witness_refusals :
    let s := padState (soloPad (kTile []))
    let d := padState { Paddock.init with state := .destroyed }
    let h := { s with fns := [(0, { Func.init with hold := some 5 })] }
    aCommand.seq.toNat + 1 < 2 ^ 64 ∧ ({ aCommand with seq := w64 (2 ^ 64 - 2) } : Command).seq.toNat + 1 < 2 ^ 64 ∧
    (h.fn 0).hold ≠ none ∧ (s.fn 0).hold = none ∧ (2 : BitVec 8) ≠ 0 ∧ (2 : BitVec 8).toNat % 256 / 2 ≠ 0 ∧
    ({ aCommand with fn := 3 } : Command).fn ≠ 0 ∧ FMap.get? s.pads ({ aCommand with handle := 8 } : Command).key = none ∧
    FMap.get? d.pads aCommand.key = some (d.padAt aCommand.key) ∧ (d.padAt aCommand.key).state = .destroyed := by decide +kernel

/-- The smallest image: one tile without a program, one strict class, no channel (Tables 2-1 to 2-5). -/
def smallImage : List Byte :=
  ([0x14954544F, 3, 64, 208, 1, 0, 0, 0, 1, 160, 32, 0, 3, 192, 8, 0, 4, 200, 2, 0, 0x101, 0x1E0101, 1000, 1, 1, 0xFFFF] : List Nat).flatMap
    (natLE 8)

/-- PaddockCommands, LOAD_IMAGE: a host file that its checks accept, and one they refuse. -/
theorem test_witness_image :
    let s := (padState { Paddock.init with state := .empty }).hostWrite 0 0x1000 smallImage
    let c := { aCommand with arg0 := 0x1000, arg1 := 208 }
    c.key = 7 ∧ FMap.get? s.pads 7 = some (s.padAt 7) ∧ (s.padAt 7).state = .empty ∧ 64 ≤ c.arg1.toNat ∧
    (imageOf (s.hostRead 0 0x1000 208)).status 0 (capsReg s.panel.retire2) = 0 ∧
    (imageOf (s.hostRead 0 0x1000 200)).status 0 (capsReg s.panel.retire2) = 0x21 := by decide +kernel

/-- PaddockCommands: handles to give; a loaded and a pre-empted paddock that a legal placement fits; a running one; a mailbox of one tile
and of all; words to read of a HALTED one. -/
theorem test_witness_paddock_commands :
    let p := { soloPad (kTile []) with chans := [], shape := { (soloPad (kTile [])).shape with chan := 0 } }
    let s := { padState { p with state := .loaded } with fns := [(0, { Func.init with nextBudget := 5, lastHandle := some 7 })] }
    let r := padState { p with state := .preempted }
    let h := padState { soloPad { kTile [] with st := { Stores.empty with pool := testPool } } with state := .halted }
    (s.fn 0).hold = none ∧ (s.liveHandles 0).length < 256 ∧ (s.fn 0).lastHandle = some 7 ∧ padKey 0 8 ∉ s.liveHandles 0 ∧
    (s.padAt 7).state = .loaded ∧ (s.fn 0).nextBudget ≠ 0 ∧ (s.padAt 7).chans = [] ∧ (s.padAt 7).shape.w ≤ 80 ∧
    s.saveSpaceOk (s.padAt 7) 0 = true ∧ s.placeOk 7 (s.padAt 7) (placeWordOf 0) = true ∧ r.placeOk 7 (r.padAt 7) (placeWordOf 0) = true ∧
    (r.padAt 7).state = .preempted ∧ (∀ e ∈ (r.padAt 7).tiles, e.2.wantsNotice = false) ∧ (15 : W64).toNat < 16 ∧
    (0 : W64).toNat < (s.padAt 7).shape.tiles ∧ (h.padAt 7).state = .halted ∧ (0x1000 : W64).toNat % 8 = 0 ∧
    (h.savedWord 7 0x1000, h.savedWord 7 0x2000) = (some (some 0xFF00000000008180), some none) := by decide +kernel

/-- PaddockCommands: a pre-empted paddock with a bad line in its save image, and one with none; a running one at a pause point and not, with
a request that waits and with none; a DESTROY. -/
theorem test_witness_paddock_states :
    let p := { soloPad (kTile []) with chans := [], shape := { (soloPad (kTile [])).shape with chan := 0 } }
    let r := padState { p with state := .preempted, badSave := [0] }
    let q : Pending := { req := .preempt, due := 50, cmd := none, deadline := none }
    let s := padState { p with pending := [q] }
    (r.padAt 7).badSave ≠ [] ∧ r.placeOk 7 (r.padAt 7) (placeWordOf 0) = true ∧ (p.badSave = []) ∧ (s.padAt 7).state = .running ∧
    (s.padAt 7).atPause = false ∧ ((padState { p with freeze := some .stop, dbg := { Dbg.init with state := 2 } }).padAt 7).atPause = true ∧
    q.req.spreads = true ∧ q.due ≤ (s.padAt 7).rtick + 1025 ∧ (0xFFFFFFFF : W64) = 0xFFFFFFFF ∧
    ((run1 (.destroy aCommand) s).padAt 7).state = .destroyed ∧
    ((run1 (.mbwrite { aCommand with arg0 := 0xFFFFFFFF, arg1 := 3, arg2 := 9 }) s).padAt 7).tiles.map (fun e => e.2.mboxLatch) = [[(3, 9)]] := by
  decide +kernel

/-- PageAndFunctionCommands: the last HBM page of a paddock of one channel, present and absent; a host page, mapped and not; buffers within
reach; a function without paddocks; a session that is heard in time, and one halted for its number; budgets, levels; a hot
die that has cooled. -/
theorem test_witness_page_commands :
    let p := soloPad (kTile [])
    let s := padState p
    let a := padState { p with pages := [(624, 0)], hostPages := [(0, { entry := hostDefault 0, base := 0x10000 })], state := .preempted }
    let c := { aCommand with arg0 := w64 (0x100000000000 + 624 * 2097152), arg1 := 1 }
    hbmPage c.arg0 = 624 ∧ c.arg0.toNat % 2097152 = 0 ∧ hbmPage c.arg0 + c.arg1.toNat ≤ p.shape.chan * 625 ∧
    bit (p.hbmEntry 624) 63 = true ∧ bit ((a.padAt 7).hbmEntry 624) 63 = false ∧ FMap.sorted (a.padAt 7).pages = true ∧
    FMap.sorted (a.padAt 7).hostPages = true ∧ (∀ i, i < p.shape.chan → (p.chans[i]?).isSome = true) ∧ p.pending = [] ∧
    0x300000000000 + 1 * 2097152 ≤ 0x400000000000 ∧ FMap.get? p.hostPages 0 = none ∧ (FMap.get? (a.padAt 7).hostPages 0).isSome = true ∧
    (3 : W64) ∈ ([1, 2, 3] : List W64) ∧ s.liveHandles 3 = [] ∧ (1000 : Nat) < 0 + 16000000000 ∧ (0 : Nat) < (5 : W64).toNat ∧
    ((s.fns.filter (·.1 != 192)).foldl (fun t e => t + e.2.nextBudget) 0) + 2048000000000 ≤ 2048000000000 ∧ (7 : W64).toNat < 8 ∧
    s.panel.awaits = [] ∧ (∀ e ∈ s.pads, e.2.freeze ≠ some .thermal) := by decide +kernel

/-- PageAndFunctionCommands: host entries present and absent, no copy of pages in progress; a paddock frozen for its heat on the
die alone. -/
theorem test_witness_page_states :
    let p := soloPad (kTile [])
    let a := { p with hostPages := [(0, { entry := hostDefault 0, base := 0x10000 })], state := .preempted }
    let die := p.shape.die p.place 0
    let h := { padState { p with freeze := some .thermal } with panel :=
      { Panel.init with dies := [(die, { temp := 94, hot := true, stopped := false, failed := false })] } }
    bit (p.hostEntry 0) 63 = false ∧ bit (a.hostEntry 0) 63 = false ∧ bit (({ a with hostPages := [(0, { entry := fld 1 63, base := 0 })] }).hostEntry 0) 63 = true ∧
    p.nextSwitch = none ∧ h.pads.length = 1 ∧ (h.padAt 7).state = .running ∧ (h.padAt 7).freeze = some .thermal ∧ (h.padAt 7).pending = [] ∧
    ((h.padAt 7).shape.dies (h.padAt 7).place) = [die] ∧ (h.panel.die die).hot = true ∧ (h.panel.die die).temp < 95 ∧
    (∀ e ∈ (h.padAt 7).tiles, e.2.wantsNotice = false) := by decide +kernel

/-- PageAndFunctionCommands, SESSION_OPEN: the base point of P-384 lies on its curve. -/
theorem test_witness_point :
    pointOk (0x04 :: (natLE 48 0xaa87ca22be8b05378eb1c71ef320ad746e1d3b628ba79b9859f741e082542a385502f25dbf55296c3a545e3872760ab7).reverse ++
      (natLE 48 0x3617de4a96262c6f5d9e98bf9292dc29f8f41dbd289a147ce9da3113b5f0b8c00a60b1ce1d7e819d7a431d7c90ea0e5f).reverse) = true := by
  decide +kernel

theorem test_setBudget :
    let c := { aCommand with arg0 := 3, arg1 := 2048000000000 }
    ((run1 (.setBudget c) State.reset).fn 3).nextBudget = 2048000000000 := by decide +kernel

/-- PageAndFunctionCommands, DIE_RESUME: a hot die below 95 °C. -/
theorem test_witness_die_resume :
    let s := { padState (soloPad (kTile [])) with panel := { Panel.init with dies := [(siteKey 2 4, { temp := 94, hot := true, stopped := false, failed := false })] } }
    (s.panel.die (siteKey 2 4)).hot = true ∧ (s.panel.die (siteKey 2 4)).temp < 95 ∧ s.panel.awaits = [] ∧
    ((run1 (.dieResume { aCommand with handle := 0xFFFF, arg0 := 0x402 }) s).panel.die (siteKey 2 4)).hot = false := by decide +kernel

-- The registers the host writes (03, 04, 15, 18, 20)

/-- A function with a ring of 64 entries. -/
def ringFn (f : Func → Func) : Func := f { Func.init with rcfg := fld 1 31, mapped := true }

def fnState (f : Func) : State := { State.reset with fns := [(3, f)], dtick := 1000 }

theorem test_notify_overflow :
    let s := fnState (ringFn id)
    (((run1 (.notify 3 64) s).fn 3).tail, ((run1 (.notify 3 65) s).fn 3).halt) = (64, 2) := by decide +kernel

/-- HostRegisterWrites: a ring that is on and one that is off; a new tail at the size of the ring, one beyond it, and none; mapped
and not; halted; a held entry that fits and none; sizes at and past the limit; a session, and a trace ring that runs. -/
theorem test_witness_host_registers :
    let f := ringFn id
    let d := fun (v : Nat) (f : Func) => (v + 2 ^ 32 - f.head % 2 ^ 32) % 2 ^ 32
    f.rcfg.getLsbD 31 = true ∧ Func.init.rcfg.getLsbD 31 = false ∧ f.halt ≠ 2 ∧ (ringFn fun f => { f with halt := 2 }).halt = 2 ∧
    0 < d 64 f ∧ d 64 f ≤ 2 ^ (bits f.rcfg 3 0 + 6) ∧ 2 ^ (bits f.rcfg 3 0 + 6) < d 65 f ∧ d 0 f = 0 ∧ f.mapped = true ∧
    Func.init.mapped = false ∧ (fnState f).allPinned = false ∧ f.blocked = [] ∧
    diff32 f.ktail (bits (0 : W64) 31 0) ≠ f.compSize ∧ bits (0xAA : W64) 3 0 ≤ 10 ∧ bits (0xAA : W64) 7 4 ≤ 10 ∧ 10 < bits (0x0B : W64) 3 0 ∧
    10 < bits (0xB0 : W64) 7 4 ∧ (fld 1 31 : W64).getLsbD 31 = true ∧ f.held = [] ∧ f.session = none ∧ f.dbg.tcfg.getLsbD 63 = false ∧
    (sessionFn 0).session.isSome = true ∧ (fld 1 63 : W64).getLsbD 63 = true ∧ (0x30 : Nat) ∉ [0x00, 0x08, 0x10, 0x18, 0x28] := by
  decide +kernel

/-- HostRegisterWrites: a notify while 64 pinned rings hold every slot, the first and a later one; and RCFG and TCFG that clear EN. -/
theorem test_witness_pinned_slots :
    let pins := (List.range 64).map fun k => (k + 4, { Func.init with mapped := true, pinned := true })
    let s := fun (f : Func) => { testState (kTile []) with fns := (3, f) :: pins }
    let f := ringFn fun f => { f with mapped := false }
    let t := run1 (.notify 3 5) (s f)
    let u := run1 (.notify 3 5) (s { f with pendcnt := 1 })
    (s f).allPinned = true ∧ f.mapped = false ∧ ((t.fn 3).pendcnt, (t.fn 3).pendingMap, (t.fn 0).held.length) = (1, true, 1) ∧
    ((u.fn 3).pendcnt, (u.fn 0).held.length) = (2, 0) ∧
    ((run1 (.rcfgWrite 3 0) (s { f with blocked := [[1, 2, 3, 4]] })).fn 3).held = [[1, 2, 3, 4]] ∧
    ((run1 (.tcfgWrite 3 0) (s { f with dbg := { f.dbg with tcfg := fld 1 63 } })).fn 3).dbg.tcfg = 0 := by decide +kernel

theorem test_rcfg_too_big : ((run1 (.rcfgWrite 3 0x0B) (fnState Func.init)).fn 3).rcfg = 0 := by decide +kernel

/-- DebugCommands: a function with and without a session whose DHANDLE names a running paddock, a stopped one, a loaded one, a
DESTROYED one, and none; a tile to dump; one log entry; the pod's register with a panel beside this one and without its VALID;
a trace ring with room, and records at the Shepherd and at a tile. -/
theorem test_witness_debug :
    let f := { Func.init with dbg := { DebugBlock.init with dhandle := 7, rcnt := 1, dpod := fld 1 63 ||| fld 1 4, tcfg := fld 1 63 } }
    let s := fun (p : Paddock) => { padState p with fns := [(0, f)] }
    let p := soloPad (kTile [])
    let z := { p with freeze := some .stop, dbg := { p.dbg with state := 3 } }
    (s p).debugPad 0 = 7 ∧ FMap.get? (s p).pads 7 = some ((s p).padAt 7) ∧ ((s p).padAt 7).state = .running ∧
    ((s p).padAt 7).dbg.state = 0 ∧ ((s z).padAt 7).dbg.state = 3 ∧ ((s z).padAt 7).freeze = some .stop ∧ p.pending = [] ∧
    ((s { p with state := .loaded }).padAt 7).state = .loaded ∧ bits f.dbg.rcnt 31 0 = 1 ∧
    ((s { p with state := .destroyed }).padAt 7).state = .destroyed ∧ (fnState Func.init).debugPad 3 = 3 * 65536 ∧
    FMap.get? (fnState Func.init).pads (3 * 65536) = none ∧ (sessionFn 0).session ≠ none ∧ f.session = none ∧
    (FMap.get? ((s z).padAt 7).tiles (bits f.dbg.dtile 31 0)).isSome = true ∧ bits f.dbg.dtile 31 0 ≠ 0xFFFFFFFF ∧
    4 ≠ (s p).panel.panelno.toNat % 32 ∧ Func.init.dbg.dpod.getLsbD 63 = false ∧ f.dbg.tcfg.getLsbD 63 = true ∧
    diff32 f.dbg.ttail f.dbg.thead ≠ f.dbg.ringSize := by decide +kernel

theorem test_debug_stop :
    let f := { Func.init with dbg := { DebugBlock.init with dhandle := 7 } }
    let s := { padState (soloPad (kTile [])) with fns := [(0, f)] }
    (((run1 (.debugStop 0) s).padAt 7).pending.map fun q => q.req, ((run1 (.debugStop 0) s).padAt 7).dbg.state) = ([.stop], 1) := by
  decide +kernel

/-- DebugCommands: paddocks stopped at a pause point and at a breakpoint, which GO releases. -/
theorem test_debug_go :
    let f := { Func.init with dbg := { DebugBlock.init with dhandle := 7 } }
    let s := fun (n : Nat) => { padState { soloPad (kTile []) with freeze := some .stop, dbg := { Dbg.init with state := n } } with fns := [(0, f)] }
    let t := fun (n : Nat) => (run1 (.debugGo 0) (s n)).padAt 7
    ([2, 3].map fun n => ((t n).dbg.state, (t n).freeze.isSome, (t n).rtick)) = [(0, true, 41), (0, true, 41)] ∧
    ((s 2).padAt 7).pending = [] ∧ (∀ e ∈ ((s 2).padAt 7).tiles, e.2.wantsNotice = false) := by decide +kernel

theorem test_witness_trace_records :
    let r : TraceRec := { kind := 1, drop := 0, src := 3, seq := 0, time := 5, data := 0, aux := 0 }
    let q := { State.reset.panel with shepBuf := [(3, r)] }
    let p := soloPad { kTile [] with obs := { Observe.init with buf := [r] } }
    q.shepBuf = (3, r) :: [] ∧ State.reset.pads = [] ∧ p.tiles.map (fun e => e.2.obs.buf) = [[r]] ∧ p.fn = 0 := by decide +kernel

-- Power, resets, pastures, heat and repair (01, 04, 19, 20)

theorem test_reset_keeps_repair :
    let s := padState (soloPad (kTile []))
    ((run1 .reset s).pads, (run1 .reset s).panel.remap.length, (run1 .reset s).panel.power, (run1 .powerOn s).panel.power) = ([], 1600, 1, 2) := by
  decide +kernel

/-- PowerAndPanel: a function with a paddock; a commit that nothing keeps waiting, and one that a paddock does; a request pending; panels
with and without a placement; an error of a word of a tile that the paddock holds, and one of none. -/
theorem test_witness_panel :
    let s := padState (soloPad (kTile []))
    let w := { s with panel := { s.panel with diePast := (List.range 200).map fun i => (i, 3) } }
    let ph := s.physOf s.pad 0
    let a := fld (dieX (ph / 72)) 0 ||| fld (dieY (ph / 72)) 8 ||| fld (ph / 9 % 8) 16 ||| fld (ph % 9) 20 ||| fld 0x200 24
    FMap.sorted s.pads = true ∧ s.liveHandles 0 = [7] ∧ (1 : W64).getLsbD 0 = true ∧ s.panel.pstat ≠ 1 ∧
    (∀ e ∈ s.pads, s.affected e.2 = false) ∧ w.affectedPads = [7] ∧ ({ w.panel with pstat := 1 } : Panel).pstat = 1 ∧
    (∃ e ∈ s.pads, e.2.state ∈ [PState.running, .preempted, .halted]) ∧
    (∀ e ∈ (padState Paddock.init).pads, e.2.state ∉ [PState.running, .preempted, .halted]) ∧
    einjTile a = some (ph / 72, ph / 9 % 8, ph % 9) ∧ s.panel.closed (ph / 72) (ph / 9 % 8) (ph % 9) = false ∧
    s.onPhys (ph / 72 * 72 + ph / 9 % 8 * 9 + ph % 9) = some (7, 0) ∧ (s.fn 0).session = none ∧
    FMap.sorted ((kTile []).st.pool.errs) = true ∧ einjTile 0xFF = none ∧ (fld 1 63 : W64).getLsbD 63 = true := by decide +kernel

/-- PowerAndPanel: an error injected where no paddock stands. -/
theorem test_witness_bare_tile :
    let a := fld 19 0 ||| fld 19 8 ||| fld 7 16 ||| fld 8 20 ||| fld 0x200 24
    let s0 := padState (soloPad (kTile []))
    let s := { s0 with panel := { s0.panel with einjaddr := a } }
    let x := (einjTile a).getD (0, 0, 0)
    let ph := x.1 * 72 + x.2.1 * 9 + x.2.2
    (einjTile a).isSome = true ∧ s.panel.closed x.1 x.2.1 x.2.2 = false ∧ s.onPhys ph = none ∧ x.2 = (7, 8) ∧
    (run1 (.einjctlGo (fld 1 63 ||| 3)) s).panel.struck = [(ph, [(0x200, 8)])] := by decide +kernel

/-- PowerAndPanel: a strike into a tile whose row-shift copy is over (it stays with the physical tile) or still runs (the copy corrects and counts it, in a piece
that it brings along), and into a tile of a stopped die. -/
theorem test_strike_beside_copy :
    let s0 := (padState (soloPad (kTile []))).modPadAt 7 fun p => p.mapTiles fun _ t => t.modPool fun st =>
      { st with bytes := Mem.write st.bytes 0x1000 (natLE 8 5) }
    let ph := s0.physOf (s0.padAt 7) 0
    let a := fld (dieX (ph / 72)) 0 ||| fld (dieY (ph / 72)) 8 ||| fld (ph / 9 % 8) 16 ||| fld (ph % 9) 20 ||| fld 0x200 24
    let r0 : Retire := { die := ph / 72, row := ph / 9 % 8, col := 0, cause := 1, stage := .freezing, copied := [] }
    let r := fun (d : Nat) => { r0 with stage := .copying d, copied := [({ pad := 7, tile := 0 }, d)] }
    let at_ := fun (d : Nat) => { s0 with panel := { s0.panel with einjaddr := a, retires := [r d] } }
    let out := FMap.put s0.panel.dies (ph / 72) { s0.panel.die (ph / 72) with stopped := true }
    let off := { s0 with panel := { s0.panel with einjaddr := a, dies := out } }
    let go := fun (s : State) => run1 (.einjctlGo (fld 1 63 ||| 3)) s
    (go (at_ 1000)).panel.errs = [] ∧ ((go (at_ 1000)).tileOf 7 0).st.pool.errs = [] ∧
    (go (at_ 1001)).panel.errs.map (fun e => (e.1 == ph, e.2.corr)) = [(true, 1)] ∧ ((go (at_ 1001)).tileOf 7 0).st.pool.errs = [] ∧
    (go (at_ 1000)).panel.struck = [(ph, [(0x200, 8)])] ∧ (at_ 1000).incoming ph = none ∧ (at_ 1000).onPhys ph = some (7, 0) ∧
    (at_ 1000).dtick = 1000 ∧ ((go off).tileOf 7 0).st.pool.errs = [] := by decide +kernel

/-- PowerAndPanel: a strike into the physical tile that a tile has been copied to already, which holds it from then on. -/
theorem test_witness_strike_copied :
    let s0 := padState (soloPad (kTile []))
    let ph := s0.physOf (s0.padAt 7) 0 + 1
    let a := fld (dieX (ph / 72)) 0 ||| fld (dieY (ph / 72)) 8 ||| fld (ph / 9 % 8) 16 ||| fld (ph % 9) 20 ||| fld 0x200 24
    let r : Retire := { die := ph / 72, row := ph / 9 % 8, col := 0, cause := 1, stage := .copying 1000, copied := [({ pad := 7, tile := 0 }, 1000)] }
    let s := { s0 with panel := { s0.panel with einjaddr := a, retires := [r] } }
    (einjTile a).isSome = true ∧ s.panel.closed (ph / 72) (ph / 9 % 8) (ph % 9) = false ∧ s.incoming ph = some { pad := 7, tile := 0 } ∧
    s.shielded ph = false ∧ ((run1 (.einjctlGo (fld 1 63 ||| 3)) s).tileOf 7 0).st.pool.errs = [(0x200, 8)] := by decide +kernel

/-- HeatAndRepair: a cool, a hot and a stopping report of a die in service; a site of a C-die and one of none; a worn tile in a row with
its spare free, one in a row that has shifted; freezing and copying retirements. -/
theorem test_witness_heat :
    let s := { padState (soloPad (kTile [])) with cur := { pad := 7, tile := 0 } }
    let ph := s.physOf s.pad 0
    let worn := { s with panel := { s.panel with errs := [(ph, { unc := 1, corr := 0, stamps := [] })] } }
    let shifted := { worn.panel with remap := (List.range 1600).map fun i => (i, 7) }
    let r : Retire := { die := ph / 72, row := ph / 9 % 8, col := 0, cause := 1, stage := .freezing, copied := [] }
    (s.panel.die (siteKey 2 4)).failed = false ∧ (s.panel.die (siteKey 2 4)).hot = false ∧ (s.panel.die (siteKey 2 4)).stopped = false ∧
    (105 : Int) ≤ 105 ∧ (105 : Int) < 106 ∧ (115 : Int) < 116 ∧ (2 + 4) % 2 = 0 ∧ (2 + 5) % 2 ≠ 0 ∧ ph / 9 % 8 < 8 ∧ ph % 9 < 9 ∧
    worn.worn ph = true ∧ s.worn ph = false ∧ worn.panel.retires = [] ∧ worn.panel.closed (ph / 72) (ph / 9 % 8) (ph % 9) = false ∧
    worn.panel.exposed (ph / 72) (ph / 9 % 8) (ph % 9) = some 0 ∧ worn.panel.shift (ph / 72) (ph / 9 % 8) = 8 ∧
    shifted.shift (ph / 72) (ph / 9 % 8) ≠ 8 ∧ shifted.exposed (ph / 72) (ph / 9 % 8) (ph % 9) = some 0 ∧ s.panel.log.length < 127 ∧
    (s.modPadAt 7 fun p => { p with freeze := some .retire }).allFrozen r = true ∧ r.col < 8 ∧ (s.padAt 7).pending = [] ∧
    (∀ e ∈ (s.padAt 7).tiles, e.2.wantsNotice = false) ∧ ({ r with stage := .copying 1000 } : Retire).stage = .copying s.dtick ∧
    ((run1 .tileRetirement worn).panel.retires.map fun r => (r.col, r.cause)) = [(0, 1)] := by decide +kernel

/-- HeatAndRepair: an M-die that stops, with a running paddock and a pre-empted one that hold its channels; and a row's copies
that are over, with no error struck beside it. -/
theorem test_witness_lost_die :
    let p := soloPad (kTile [])
    let s0 := { padState { p with chans := [some 64] } with cur := { pad := 7, tile := 0 } }
    let s := s0.modPadAt 7 fun p => { p with state := .preempted }
    let ph := s0.physOf s0.pad 0
    let done := (s0.padAt 7).shape.all.map fun i => (({ pad := 7, tile := i } : Ctx), 900)
    let r : Retire := { die := ph / 72, row := ph / 9 % 8, col := 0, cause := 1, stage := .copying 1000, copied := done }
    let at7 := fun (r : Retire) => { s0.modPadAt 7 (fun p => { p with freeze := some .retire }) with panel := { s0.panel with retires := [r] } }
    let c := at7 r
    let joined := at7 { r with copied := [] }
    ((List.range 400).filter fun k => decide (200 ≤ k) && (s.padAt 7).touches k) ≠ [] ∧ (s.padAt 7).state = .preempted ∧
    (s0.padAt 7).placed = true ∧ c.holders r.die r.row r.col 7 = [7] ∧ c.panel.struck = [] ∧ c.panel.log.length < 127 ∧
    FMap.sorted (c.padAt 7).tiles = true ∧ (∀ i ∈ (c.padAt 7).shape.all, FMap.get? (c.padAt 7).tiles i ≠ none) ∧
    c.uncopied r = [] ∧ (run1 .rowShiftRemap c).panel.shifted = 1 ∧
    joined.allFrozen { r with copied := [] } = true ∧ (joined.uncopied { r with copied := [] }).map (·.tile) = [0] ∧
    ((run1 .rowShiftMigration joined).panel.retires.map fun x => x.copied.map fun e => (e.1.tile, e.2)) =
      [[(0, 1064)]] := by decide +kernel

theorem test_temperature_stops_die :
    let s := padState (soloPad (kTile []))
    let d := (run1 (.temperatureReport 2 4 116) s).panel.die (siteKey 2 4)
    (d.temp, d.hot, d.stopped) = (116, true, true) := by decide +kernel

end Sys2Proof.Tests
end

namespace Sys2Proof.Machine

-- Rounding to a grid (R9, R264)

/-- The whole steps of size d that rounding makes of a magnitude m. -/
def gridSteps (neg : Bool) (m d : Nat) (md : Rnd) : Nat :=
  if roundsUp neg (m / d) (m % d) d md then m / d + 1 else m / d

theorem roundAt_coarse (neg : Bool) (m : Nat) (e q : Int) (md : Rnd) (h : q ≤ e) :
    roundAt neg m e q md = (m * 2 ^ (e - q).toNat, false) := by simp [roundAt, h]

theorem roundAt_fine (neg : Bool) (m : Nat) (e q : Int) (md : Rnd) (h : e < q) :
    roundAt neg m e q md = (gridSteps neg m (2 ^ (q - e).toNat) md, decide (m % 2 ^ (q - e).toNat ≠ 0)) := by
  simp only [roundAt, if_neg (show ¬ q ≤ e by omega), gridSteps]

section
variable (neg : Bool) (m d : Nat) (md : Rnd)

/-- The answer is the step below m, or the next one: then it exceeds m by what is left of a step. -/
theorem gridSteps_cases :
    (roundsUp neg (m / d) (m % d) d md = false ∧ gridSteps neg m d md = m / d ∧ gridSteps neg m d md * d + m % d = m) ∨
    (roundsUp neg (m / d) (m % d) d md = true ∧ gridSteps neg m d md = m / d + 1 ∧
      gridSteps neg m d md * d + m % d = m + d) := by
  have hm := Nat.div_add_mod' m d
  cases h : roundsUp neg (m / d) (m % d) d md with
  | false => exact .inl ⟨rfl, by simp [gridSteps, h], by simpa [gridSteps, h] using hm⟩
  | true => exact .inr ⟨rfl, by simp [gridSteps, h], by simp only [gridSteps, h, if_true, Nat.succ_mul]; omega⟩

/-- No mode moves a magnitude that the grid holds. -/
theorem roundsUp_exact (n : Nat) (hd : 0 < d) : roundsUp neg n 0 d md = false := by
  cases md <;> simp [roundsUp] ; omega

theorem gridSteps_rtz : gridSteps neg m d .rtz * d ≤ m := by
  rcases gridSteps_cases neg m d .rtz with ⟨-, -, hk⟩ | ⟨ht, -⟩
  · omega
  · cases ht

variable (hd : 0 < d)
include hd

theorem gridSteps_exact (h : m % d = 0) : gridSteps neg m d md * d = m := by
  have hup := roundsUp_exact neg d md (m / d) hd
  rcases gridSteps_cases neg m d md with ⟨-, -, hk⟩ | ⟨ht, -⟩
  · omega
  · rw [h, hup] at ht; cases ht

/-- The answer lies less than a step from m. -/
theorem gridSteps_near : gridSteps neg m d md * d < m + d ∧ m < gridSteps neg m d md * d + d := by
  have hr := Nat.mod_lt m hd
  by_cases h : m % d = 0
  · have := gridSteps_exact neg m d md hd h; omega
  · rcases gridSteps_cases neg m d md with ⟨-, -, hk⟩ | ⟨-, -, hk⟩ <;> omega

theorem gridSteps_rdn : if neg then m ≤ gridSteps neg m d .rdn * d else gridSteps neg m d .rdn * d ≤ m := by
  have hr := Nat.mod_lt m hd
  rcases gridSteps_cases neg m d .rdn with ⟨hu, -, hk⟩ | ⟨hu, -, hk⟩ <;> cases neg <;> simp [roundsUp] at hu ⊢ <;> omega

theorem gridSteps_rup : if neg then gridSteps neg m d .rup * d ≤ m else m ≤ gridSteps neg m d .rup * d := by
  have hr := Nat.mod_lt m hd
  rcases gridSteps_cases neg m d .rup with ⟨hu, -, hk⟩ | ⟨hu, -, hk⟩ <;> cases neg <;> simp [roundsUp] at hu ⊢ <;> omega

/-- To nearest: never more than half a step away, and half a step only from an even answer. -/
theorem gridSteps_rne (k : Nat) (h : k = gridSteps neg m d .rne) :
    2 * (k * d) ≤ 2 * m + d ∧ 2 * m ≤ 2 * (k * d) + d ∧
      (2 * (k * d) = 2 * m + d ∨ 2 * m = 2 * (k * d) + d → k % 2 = 0) := by
  have hr := Nat.mod_lt m hd
  rcases gridSteps_cases neg m d .rne with ⟨hu, hn, hk⟩ | ⟨hu, hn, hk⟩ <;> rw [← h] at hn hk <;>
    simp [roundsUp] at hu <;> omega

end

/-- What each rounding mode makes of a magnitude on a grid (R9, R264). -/
theorem roundAt_grid (neg : Bool) (m : Nat) (e q : Int) (md : Rnd) :
    let r := roundAt neg m e q md
    (q ≤ e → r = (m * 2 ^ (e - q).toNat, false)) ∧
    (e < q →
      let d := 2 ^ (q - e).toNat
      (r.2 = true ↔ m % d ≠ 0) ∧ (r.2 = false → r.1 * d = m) ∧ r.1 * d < m + d ∧ m < r.1 * d + d ∧
      (md = .rtz → r.1 * d ≤ m) ∧ (md = .rdn → if neg then m ≤ r.1 * d else r.1 * d ≤ m) ∧
      (md = .rup → if neg then r.1 * d ≤ m else m ≤ r.1 * d) ∧
      (md = .rne → 2 * (r.1 * d) ≤ 2 * m + d ∧ 2 * m ≤ 2 * (r.1 * d) + d ∧
        (2 * (r.1 * d) = 2 * m + d ∨ 2 * m = 2 * (r.1 * d) + d → r.1 % 2 = 0))) := by
  refine ⟨roundAt_coarse neg m e q md, fun h => ?_⟩
  rw [roundAt_fine neg m e q md h]
  have hd : 0 < 2 ^ (q - e).toNat := by positivity
  generalize 2 ^ (q - e).toNat = d at hd
  obtain ⟨hlt, hgt⟩ := gridSteps_near neg m d md hd
  refine ⟨by simp, fun hx => gridSteps_exact neg m d md hd (by simpa using hx), hlt, hgt, ?_, ?_, ?_, ?_⟩
  · rintro rfl; exact gridSteps_rtz neg m d
  · rintro rfl; exact gridSteps_rdn neg m d hd
  · rintro rfl; exact gridSteps_rup neg m d hd
  · rintro rfl; exact gridSteps_rne neg m d hd _ rfl

-- Scalar float results (R173 to R178)

theorem width_fmt_fpTy (t : FpTy) : t.fmt.width = t.bytes * 8 := by cases t <;> rfl

theorem scalarResult_fpTy (t : FpTy) (p : Nat) : scalarResult t.fmt p = BitVec.ofNat 64 p := by cases t <;> rfl

/-- The value and flags of a result, as a property of what a register receives. -/
def FRes.landsAs (r : FRes) (v : W64) (fl : BitVec 7) : Prop := v = BitVec.ofNat 64 r.pat ∧ fl = r.fl

/-- An instruction that lands a float result gives whatever that result satisfies. -/
theorem givesFl_of_laterF {i : Instr} {s : State} {d : Reg} {f : Fmt} {r : FRes} {lat : Nat} {p : W64 → BitVec 7 → Prop}
    (hi : exec i s = .next (s.laterF d f r lat)) (hp : p (scalarResult f r.pat) r.fl) : GivesFl i s d lat p :=
  ⟨_, _, hi, hp⟩

theorem givesFl_landsAs {i : Instr} {s : State} {d : Reg} {t : FpTy} {r r' : FRes} {lat : Nat}
    (hi : exec i s = .next (s.laterF d t.fmt r lat)) (hr : r = r') : GivesFl i s d lat r'.landsAs :=
  givesFl_of_laterF hi (by subst hr; exact ⟨scalarResult_fpTy t _, rfl⟩)

section
variable (f : Fmt) (md : Rnd) (a b : Nat)

theorem fAdd_num (hx : (widen f a).isNan = false) (hy : (widen f b).isNan = false) :
    fAdd f md a b = ((widen f a).add (widen f b) md).round f md := by simp [fAdd, hx, hy]

theorem fSub_num (hx : (widen f a).isNan = false) (hy : (widen f b).isNan = false) :
    fSub f md a b = ((widen f a).add (widen f b).negate md).round f md := by simp [fSub, hx, hy]

theorem fMul_num (hx : (widen f a).isNan = false) (hy : (widen f b).isNan = false) :
    fMul f md a b = ((widen f a).mul (widen f b)).round f md := by simp [fMul, hx, hy]

variable (h : (widen f a).isNan = true ∨ (widen f b).isNan = true)
include h

theorem fAdd_nan : fAdd f md a b = nanRes f ((widen f a).isSig || (widen f b).isSig) := by
  simp only [fAdd, Bool.or_eq_true, if_pos h]

theorem fSub_nan : fSub f md a b = nanRes f ((widen f a).isSig || (widen f b).isSig) := by
  simp only [fSub, Bool.or_eq_true, if_pos h]

theorem fMul_nan : fMul f md a b = nanRes f ((widen f a).isSig || (widen f b).isSig) := by
  simp only [fMul, Bool.or_eq_true, if_pos h]

end

section
variable (x y z : Val) (f : Fmt) (md : Rnd)

theorem vFma_nan (h : x.isNan = true ∨ y.isNan = true) : vFma x y z f md = nanRes f (x.isSig || y.isSig || z.isSig) := by
  simp only [vFma, Bool.or_eq_true, if_pos h]

/-- An infinity times a zero is invalid, and neither is a NaN (R175). -/
theorem vFma_inf_zero (u v : Bool) (e : Int) (h : (x = .inf u ∧ y = .fin v 0 e) ∨ (x = .fin v 0 e ∧ y = .inf u)) :
    vFma x y z f md = nanRes f true := by
  rcases h with ⟨rfl, rfl⟩ | ⟨rfl, rfl⟩ <;> rfl

/-- Only operands that are no NaN have a valid product. -/
theorem Val.isNan_of_mul {x y p : Val} (h : x.mul y = .val p) : x.isNan = false ∧ y.isNan = false := by
  cases x <;> cases y <;> simp_all [Val.mul, Val.isNan]

theorem vFma_product {p : Val} (h : x.mul y = .val p) :
    vFma x y z f md = if z.isNan then nanRes f z.isSig else (p.add z md).round f md := by
  obtain ⟨hx, hy⟩ := Val.isNan_of_mul h
  simp [vFma, hx, hy, h]

end

theorem fadd_fsub_fmul_number (s : State) (t : FpTy) (md : RMode) (d a b : Reg) :
    let x := widen t.fmt (scalarBits t.fmt (s.rd a))
    let y := widen t.fmt (scalarBits t.fmt (s.rd b))
    x.isNan = false → y.isNan = false →
      GivesFl (.fadd t md d a b) s d 4 ((x.add y md.rnd).round t.fmt md.rnd).landsAs ∧
      GivesFl (.fsub t md d a b) s d 4 ((x.add y.negate md.rnd).round t.fmt md.rnd).landsAs ∧
      GivesFl (.fmul t md d a b) s d 4 ((x.mul y).round t.fmt md.rnd).landsAs := fun hx hy =>
  ⟨givesFl_landsAs rfl (fAdd_num _ _ _ _ hx hy), givesFl_landsAs rfl (fSub_num _ _ _ _ hx hy),
    givesFl_landsAs rfl (fMul_num _ _ _ _ hx hy)⟩

theorem fadd_fsub_fmul_nan (s : State) (t : FpTy) (md : RMode) (d a b : Reg) :
    let x := widen t.fmt (scalarBits t.fmt (s.rd a))
    let y := widen t.fmt (scalarBits t.fmt (s.rd b))
    x.isNan = true ∨ y.isNan = true →
      GivesFl (.fadd t md d a b) s d 4 (nanRes t.fmt (x.isSig || y.isSig)).landsAs ∧
      GivesFl (.fsub t md d a b) s d 4 (nanRes t.fmt (x.isSig || y.isSig)).landsAs ∧
      GivesFl (.fmul t md d a b) s d 4 (nanRes t.fmt (x.isSig || y.isSig)).landsAs := fun h =>
  ⟨givesFl_landsAs rfl (fAdd_nan _ _ _ _ h), givesFl_landsAs rfl (fSub_nan _ _ _ _ h),
    givesFl_landsAs rfl (fMul_nan _ _ _ _ h)⟩

theorem ffma_gives (s : State) (t : FpTy) (md : RMode) (d a b : Reg) :
    let x := widen t.fmt (scalarBits t.fmt (s.rd a))
    let y := widen t.fmt (scalarBits t.fmt (s.rd b))
    let z := widen t.fmt (scalarBits t.fmt (s.rd d))
    let gives := fun (r : FRes) => GivesFl (.ffma t md d a b) s d (ffmaLat t) r.landsAs
    (x.isNan = true ∨ y.isNan = true → gives (nanRes t.fmt (x.isSig || y.isSig || z.isSig))) ∧
    (∀ (u v : Bool) (e : Int), (x = .inf u ∧ y = .fin v 0 e) ∨ (x = .fin v 0 e ∧ y = .inf u) → gives (nanRes t.fmt true)) ∧
    (∀ p, x.mul y = .val p → (z.isNan = true → gives (nanRes t.fmt z.isSig)) ∧
      (z.isNan = false → gives ((p.add z md.rnd).round t.fmt md.rnd))) := by
  intro x y z gives
  refine ⟨fun h => givesFl_landsAs rfl (vFma_nan x y z _ _ h),
    fun u v e h => givesFl_landsAs rfl (vFma_inf_zero x y z _ _ u v e h), fun p h => ⟨fun hz => ?_, fun hz => ?_⟩⟩
  · exact givesFl_landsAs rfl ((vFma_product x y z _ _ h).trans (by simp [hz]))
  · exact givesFl_landsAs rfl ((vFma_product x y z _ _ h).trans (by simp [hz]))

-- Fields of a pattern of an IEEE format (Table 10-2) and the steps of FRCPA and FRSQA (R181 to R183)

section
variable (e m b c : Nat)

/-- An IEEE format of e exponent and m fraction bits. -/
abbrev ieee : Fmt := .flt e m b .ieee

theorem widen_ieee_nan (hx : c / 2 ^ m % 2 ^ e = 2 ^ e - 1) (he : 0 < e) (hf : c % 2 ^ m ≠ 0) :
    ∃ n p w, widen (ieee e m b) c = .nan n (decide (c % 2 ^ m < 2 ^ (m - 1))) p w := by
  have h1 : 2 ^ e - 1 ≠ 0 := by have := Nat.one_lt_two_pow he.ne'; omega
  have hs : (c % 2 ^ m / 2 ^ (m - 1) == 0) = decide (c % 2 ^ m < 2 ^ (m - 1)) := by
    rw [Bool.eq_iff_iff]
    simp [Nat.div_eq_zero_iff]
  simp only [widen, widenFlt, hx, if_neg h1, if_neg hf, if_true, hs]
  exact ⟨_, _, _, rfl⟩

theorem widen_ieee_inf (he : 0 < e) (hx : c / 2 ^ m % 2 ^ e = 2 ^ e - 1) (hf : c % 2 ^ m = 0) :
    widen (ieee e m b) c = .inf (c / 2 ^ (e + m) % 2 == 1) := by
  have h1 : 2 ^ e - 1 ≠ 0 := by have := Nat.one_lt_two_pow he.ne'; omega
  simp only [widen, widenFlt, hx, if_neg h1, hf, if_true]

theorem widen_ieee_zero (hx : c / 2 ^ m % 2 ^ e = 0) (hf : c % 2 ^ m = 0) :
    ∃ k, widen (ieee e m b) c = .fin (c / 2 ^ (e + m) % 2 == 1) 0 k := by
  simp only [widen, widenFlt, hx, hf, if_true]
  exact ⟨_, rfl⟩

/-- The exponent of a finite non-zero number with exponent field ex and fraction field fr (R181). -/
def numExp (m b ex fr : Nat) : Int := if ex = 0 then 1 - (b : Int) - ((m - Nat.log2 fr : Nat) : Int) else ex - (b : Int)

/-- Its top 23 fraction bits. -/
def topFrac (m ex fr : Nat) : Nat := (if ex = 0 then fr * 2 ^ (m - Nat.log2 fr) % 2 ^ m else fr) / 2 ^ (m - 23)

theorem log2_normal (fr : Nat) (h : fr < 2 ^ m) : Nat.log2 (2 ^ m + fr) = m := by
  rw [Nat.log2_eq_iff (by positivity)]
  constructor
  · omega
  · rw [Nat.pow_succ]; omega

/-- A normal number (R181). -/
theorem normalise_normal (fr : Nat) (k : Int) (h : fr < 2 ^ m) (hm : 23 ≤ m) :
    normalise (2 ^ m + fr) k = (k + m, fr / 2 ^ (m - 23)) := by
  simp only [normalise, log2_normal m fr h, Nat.add_sub_cancel_left]
  by_cases h23 : m = 23
  · subst h23; simp
  · rw [if_neg (by omega)]

/-- A subnormal number: its fraction is moved up until its leading bit is the hidden one (R181). -/
theorem normalise_subnormal (fr : Nat) (k : Int) (h : fr < 2 ^ m) (h0 : fr ≠ 0) (hm : 23 ≤ m) :
    normalise fr k = (k + Nat.log2 fr, fr * 2 ^ (m - Nat.log2 fr) % 2 ^ m / 2 ^ (m - 23)) := by
  have hlm : Nat.log2 fr < m := (Nat.log2_lt h0).mpr h
  have hlo : 2 ^ Nat.log2 fr ≤ fr := Nat.log2_self_le h0
  have hhi : fr < 2 ^ Nat.log2 fr * 2 := by rw [← Nat.pow_succ]; exact Nat.lt_log2_self
  generalize hl : Nat.log2 fr = l at hlm hlo hhi
  obtain ⟨r, rfl⟩ : ∃ r, fr = 2 ^ l + r := ⟨fr - 2 ^ l, by omega⟩
  have hmod : (2 ^ l + r) * 2 ^ (m - l) % 2 ^ m = r * 2 ^ (m - l) := by
    have hpow : 2 ^ l * 2 ^ (m - l) = 2 ^ m := by rw [← Nat.pow_add]; congr 1; omega
    have hr : r * 2 ^ (m - l) < 2 ^ m := hpow ▸ Nat.mul_lt_mul_of_pos_right (by omega) (by positivity)
    rw [Nat.add_mul, hpow, Nat.add_mod_left, Nat.mod_eq_of_lt hr]
  simp only [normalise, hl, hmod, Nat.add_sub_cancel_left]
  refine Prod.ext rfl ?_
  show (if l ≤ 23 then _ else _) = _
  split
  · next h23 =>
    have : m - l = (23 - l) + (m - 23) := by omega
    rw [this, Nat.pow_add, ← Nat.mul_assoc, Nat.mul_div_cancel _ (by positivity)]
  · next h23 =>
    have : m - 23 = (m - l) + (l - 23) := by omega
    rw [this, Nat.pow_add, Nat.mul_comm r, Nat.mul_div_mul_left _ _ (by positivity)]

/-- A finite non-zero pattern widens to a value whose normal form its fields give (R181). -/
theorem widen_ieee_number (hm : 23 ≤ m) (hx : c / 2 ^ m % 2 ^ e ≠ 2 ^ e - 1) (h0 : c / 2 ^ m % 2 ^ e ≠ 0 ∨ c % 2 ^ m ≠ 0) :
    ∃ M E, widen (ieee e m b) c = .fin (c / 2 ^ (e + m) % 2 == 1) M E ∧ M ≠ 0 ∧
      normalise M E = (numExp m b (c / 2 ^ m % 2 ^ e) (c % 2 ^ m), topFrac m (c / 2 ^ m % 2 ^ e) (c % 2 ^ m)) := by
  have hfr : c % 2 ^ m < 2 ^ m := Nat.mod_lt _ (by positivity)
  simp only [widen, widenFlt, if_neg hx]
  by_cases hz : c / 2 ^ m % 2 ^ e = 0
  · have hf : c % 2 ^ m ≠ 0 := h0.resolve_left (by simp [hz])
    have hl : Nat.log2 (c % 2 ^ m) < m := (Nat.log2_lt hf).mpr hfr
    refine ⟨_, _, if_pos hz, hf, ?_⟩
    rw [normalise_subnormal m _ _ hfr hf hm]
    simp only [numExp, topFrac, hz, if_true]
    refine Prod.ext ?_ rfl
    show (1 - (b : Int) - m + Nat.log2 (c % 2 ^ m) : Int) = _
    omega
  · refine ⟨_, _, if_neg hz, by positivity, ?_⟩
    rw [normalise_normal m _ _ hfr hm]
    simp only [numExp, topFrac, hz, if_false]
    refine Prod.ext ?_ rfl
    show ((c / 2 ^ m % 2 ^ e : Nat) - (b : Int) - m + m : Int) = _
    omega

-- FRCPA and FRSQA by the class of their operand

variable {e m b c}

theorem fRcpa_nan {n sig : Bool} {p w : Nat} {f : Fmt} (h : widen f c = .nan n sig p w) : fRcpa f c = nanRes f sig := by
  simp [fRcpa, h]
theorem fRcpa_inf {n : Bool} {f : Fmt} (h : widen f c = .inf n) : fRcpa f c = { pat := f.zeroPat n, fl := 0 } := by
  simp [fRcpa, h]
theorem fRcpa_zero {n : Bool} {k : Int} {f : Fmt} (h : widen f c = .fin n 0 k) :
    fRcpa f c = { pat := f.infPat n, fl := flDZ } := by simp [fRcpa, h]

/-- The two steps of FRCPA from the top 23 fraction bits (R182). -/
def rcpaStep (f : Nat) : Nat :=
  let y := 2 ^ 25 / (513 + 2 * (f / 2 ^ 15))
  y * (2 ^ 40 - (2 ^ 23 + f) * y) / 2 ^ 39

theorem fRcpa_number {n : Bool} {M fr : Nat} {E k : Int} {f : Fmt} (h : widen f c = .fin n M E) (hM : M ≠ 0)
    (hn : normalise M E = (k, fr)) : fRcpa f c = packApprox f n (-k) (rcpaStep fr) := by
  simp [fRcpa, h, hM, hn, rcpaStep]

theorem fRsqa_nan {n sig : Bool} {p w : Nat} {f : Fmt} (h : widen f c = .nan n sig p w) : fRsqa f c = nanRes f sig := by
  simp [fRsqa, h]
theorem fRsqa_inf {f : Fmt} (h : widen f c = .inf false) : fRsqa f c = { pat := f.zeroPat false, fl := 0 } := by
  simp [fRsqa, h]
theorem fRsqa_zero {n : Bool} {k : Int} {f : Fmt} (h : widen f c = .fin n 0 k) :
    fRsqa f c = { pat := f.infPat n, fl := flDZ } := by simp [fRsqa, h]
theorem fRsqa_negative_inf {f : Fmt} (h : widen f c = .inf true) : fRsqa f c = nanRes f true := by
  simp [fRsqa, h, nanRes, flIf]
theorem fRsqa_negative {M : Nat} {E : Int} {f : Fmt} (h : widen f c = .fin true M E) (hM : M ≠ 0) :
    fRsqa f c = nanRes f true := by simp [fRsqa, h, hM, nanRes, flIf]

end

/-- `greatest` answers a number at which the test holds, and after which it fails. -/
theorem greatest_spec (test : Nat → Bool) (k y : Nat) (hy : test y = true)
    (hend : test (y + 2 ^ k) = false) : test (greatest test k y) = true ∧ test (greatest test k y + 1) = false := by
  induction k generalizing y with
  | zero => exact ⟨hy, hend⟩
  | succ k ih =>
    rw [greatest]
    split
    · next h => exact ih _ h (by rw [Nat.add_assoc, ← Nat.two_mul, ← Nat.pow_succ']; exact hend)
    · next h => exact ih _ hy (by simpa using h)

/-- The first estimate of FRSQA: the greatest y with y² u at most 2^40 (R183). -/
theorem greatest_root (u : Nat) (hu : 1 ≤ u) :
    let y := greatest (fun y => decide (y * y * u ≤ 2 ^ 40)) 21 0
    y * y * u ≤ 2 ^ 40 ∧ 2 ^ 40 < (y + 1) * (y + 1) * u := by
  have hend : ¬ (0 + 2 ^ 21) * (0 + 2 ^ 21) * u ≤ 2 ^ 40 := by norm_num; omega
  have h := greatest_spec (fun y => decide (y * y * u ≤ 2 ^ 40)) 21 0 (by simp) (by simpa using hend)
  simpa using h

/-- The step of FRSQA from a first estimate y (R183). -/
def rsqaStep (mm y : Nat) : Nat := y * (3 * 2 ^ 55 - mm * y * y) / 2 ^ 56

theorem fRsqa_number {c M fr : Nat} {E k : Int} {f : Fmt} (h : widen f c = .fin false M E) (hM : M ≠ 0)
    (hn : normalise M E = (k, fr)) :
    let p := (k % 2).toNat
    let n := (257 + 2 * (fr / 2 ^ 16)) * (1 + p)
    ∃ y, y * y * n ≤ 2 ^ 40 ∧ 2 ^ 40 < (y + 1) * (y + 1) * n ∧
      fRsqa f c = packApprox f false (-((k - p) / 2)) (rsqaStep ((2 ^ 23 + fr) * 2 ^ p) y) := by
  intro p n
  obtain ⟨hle, hlt⟩ := greatest_root n (Nat.mul_pos (by omega) (by omega))
  exact ⟨_, hle, hlt, by simp [fRsqa, h, hM, hn, rsqaStep, n, p]⟩

/-- Pack: overflow to infinity, underflow to zero, or a pattern with its fraction's top bits from y (R181). -/
theorem packApprox_ieee (e m b : Nat) (neg : Bool) (k : Int) (y : Nat) :
    let r := packApprox (ieee e m b) neg k y
    let ex : Int := if 2 ^ 15 ≤ y then k - 1 else k - 2
    let g := if 2 ^ 15 ≤ y then y % 2 ^ 15 * 2 ^ 8 else y % 2 ^ 14 * 2 ^ 9
    ((b : Int) < ex → r = { pat := (ieee e m b).infPat neg, fl := flOF }) ∧
    (ex < 1 - (b : Int) → r = { pat := (ieee e m b).zeroPat neg, fl := flUF }) ∧
    (ex ≤ b → 1 - (b : Int) ≤ ex →
      r = { pat := neg.toNat * 2 ^ (e + m) + (ex + b).toNat * 2 ^ m + g * 2 ^ (m - 23), fl := 0 }) := by
  intro r ex g
  refine ⟨fun h => ?_, fun h => ?_, fun h h' => ?_⟩
  · exact if_pos h
  · exact (if_neg (by omega)).trans (if_pos h)
  · exact (if_neg (by omega)).trans (if_neg (by omega))

section
variable (e m b c : Nat)

/-- The sign bit is the top bit of a pattern. -/
theorem sign_toNat (hc : c < 2 ^ (1 + e + m)) : (c / 2 ^ (e + m) % 2 == 1).toNat = c / 2 ^ (e + m) := by
  have h : c / 2 ^ (e + m) < 2 := Nat.div_lt_of_lt_mul (by rwa [← Nat.pow_succ, show (e + m).succ = 1 + e + m by omega])
  rw [Nat.mod_eq_of_lt h]
  interval_cases c / 2 ^ (e + m) <;> rfl

/-- R181, in the fields of a register: overflow to infinity, underflow to zero, or exponent and fraction. -/
def packedTo (sg : Nat) (k : Int) (y : Nat) (v : W64) (fl : BitVec 7) : Prop :=
  let k' := if 2 ^ 15 ≤ y then k - 1 else k - 2
  let g := if 2 ^ 15 ≤ y then y % 2 ^ 15 * 2 ^ 8 else y % 2 ^ 14 * 2 ^ 9
  ((b : Int) < k' → v = BitVec.ofNat 64 (sg * 2 ^ (e + m) + (2 ^ e - 1) * 2 ^ m) ∧ fl = flOF) ∧
  (k' < 1 - (b : Int) → v = BitVec.ofNat 64 (sg * 2 ^ (e + m)) ∧ fl = flUF) ∧
  (k' ≤ (b : Int) → 1 - (b : Int) ≤ k' →
    v = BitVec.ofNat 64 (sg * 2 ^ (e + m) + (k' + b).toNat * 2 ^ m + g * 2 ^ (m - 23)) ∧ fl = 0)

theorem packApprox_packedTo (n : Bool) (k : Int) (y : Nat) :
    packedTo e m b n.toNat k y (BitVec.ofNat 64 (packApprox (ieee e m b) n k y).pat) (packApprox (ieee e m b) n k y).fl := by
  obtain ⟨hover, hunder, hin⟩ := packApprox_ieee e m b n k y
  refine ⟨fun h => ?_, fun h => ?_, fun h h' => ?_⟩
  · rw [hover h]; exact ⟨rfl, rfl⟩
  · rw [hunder h]; exact ⟨rfl, rfl⟩
  · rw [hin h h']; exact ⟨rfl, rfl⟩

variable (he : 0 < e) (hm : 23 ≤ m) (hc : c < 2 ^ (1 + e + m))
include he hm hc

/-- FRCPA by the fields of its operand (R182). -/
theorem fRcpa_fields (v : W64) (fl : BitVec 7) (h : (fRcpa (ieee e m b) c).landsAs v fl) :
    let ex := c / 2 ^ m % 2 ^ e
    let fr := c % 2 ^ m
    let neg := c / 2 ^ (e + m)
    (ex = 2 ^ e - 1 → fr ≠ 0 → v = BitVec.ofNat 64 (ieee e m b).qnan ∧ fl = if decide (fr < 2 ^ (m - 1)) then flNV else 0) ∧
    (ex = 0 → fr = 0 → v = BitVec.ofNat 64 (neg * 2 ^ (e + m) + (2 ^ e - 1) * 2 ^ m) ∧ fl = flDZ) ∧
    (ex = 2 ^ e - 1 → fr = 0 → v = BitVec.ofNat 64 (neg * 2 ^ (e + m)) ∧ fl = 0) ∧
    (ex ≠ 2 ^ e - 1 → ex ≠ 0 ∨ fr ≠ 0 → packedTo e m b neg (-numExp m b ex fr) (rcpaStep (topFrac m ex fr)) v fl) := by
  intro ex fr neg
  obtain ⟨rfl, rfl⟩ := h
  have hs : (neg % 2 == 1).toNat = neg := sign_toNat e m c hc
  refine ⟨fun hx hf => ?_, fun hx hf => ?_, fun hx hf => ?_, fun hx h0 => ?_⟩
  · obtain ⟨n, p, w, hv⟩ := widen_ieee_nan e m b c hx he hf
    rw [fRcpa_nan hv]; exact ⟨rfl, rfl⟩
  · obtain ⟨k, hv⟩ := widen_ieee_zero e m b c hx hf
    rw [fRcpa_zero hv, ← hs]; exact ⟨rfl, rfl⟩
  · rw [fRcpa_inf (widen_ieee_inf e m b c he hx hf), ← hs]; exact ⟨rfl, rfl⟩
  · obtain ⟨M, E, hv, hM, hn⟩ := widen_ieee_number e m b c hm hx h0
    rw [fRcpa_number hv hM hn, ← hs]
    exact packApprox_packedTo e m b _ _ _

/-- FRSQA by the fields of its operand (R183). -/
theorem fRsqa_fields (v : W64) (fl : BitVec 7) (h : (fRsqa (ieee e m b) c).landsAs v fl) :
    let ex := c / 2 ^ m % 2 ^ e
    let fr := c % 2 ^ m
    let neg := c / 2 ^ (e + m)
    (ex = 2 ^ e - 1 → fr ≠ 0 → v = BitVec.ofNat 64 (ieee e m b).qnan ∧ fl = if decide (fr < 2 ^ (m - 1)) then flNV else 0) ∧
    (ex = 0 → fr = 0 → v = BitVec.ofNat 64 (neg * 2 ^ (e + m) + (2 ^ e - 1) * 2 ^ m) ∧ fl = flDZ) ∧
    (ex = 2 ^ e - 1 → fr = 0 → neg = 0 → v = 0 ∧ fl = 0) ∧
    (neg = 1 → (ex = 2 ^ e - 1 ∧ fr = 0) ∨ (ex ≠ 2 ^ e - 1 ∧ (ex ≠ 0 ∨ fr ≠ 0)) →
      v = BitVec.ofNat 64 (ieee e m b).qnan ∧ fl = if true then flNV else 0) ∧
    (neg = 0 → ex ≠ 2 ^ e - 1 → ex ≠ 0 ∨ fr ≠ 0 →
      let k := numExp m b ex fr
      let f := topFrac m ex fr
      let p := (k % 2).toNat
      let n := (257 + 2 * (f / 2 ^ 16)) * (1 + p)
      ∃ y, y * y * n ≤ 2 ^ 40 ∧ 2 ^ 40 < (y + 1) * (y + 1) * n ∧
        packedTo e m b 0 (-((k - p) / 2)) (rsqaStep ((2 ^ 23 + f) * 2 ^ p) y) v fl) := by
  intro ex fr neg
  obtain ⟨rfl, rfl⟩ := h
  have hs : (neg % 2 == 1).toNat = neg := sign_toNat e m c hc
  refine ⟨fun hx hf => ?_, fun hx hf => ?_, fun hx hf hp => ?_, fun hn h => ?_, fun hp hx h0 => ?_⟩
  · obtain ⟨n, p, w, hv⟩ := widen_ieee_nan e m b c hx he hf
    rw [fRsqa_nan hv]; exact ⟨rfl, rfl⟩
  · obtain ⟨k, hv⟩ := widen_ieee_zero e m b c hx hf
    rw [fRsqa_zero hv, ← hs]; exact ⟨rfl, rfl⟩
  · have hv : widen (ieee e m b) c = .inf false := by
      have := widen_ieee_inf e m b c he hx hf
      rwa [show c / 2 ^ (e + m) = 0 from hp] at this
    rw [fRsqa_inf hv]
    simp [Fmt.zeroPat]
  · rcases h with ⟨hx, hf⟩ | ⟨hx, h0⟩
    · have hv : widen (ieee e m b) c = .inf true := by
        have := widen_ieee_inf e m b c he hx hf
        rwa [show c / 2 ^ (e + m) = 1 from hn] at this
      rw [fRsqa_negative_inf hv]; exact ⟨rfl, rfl⟩
    · obtain ⟨M, E, hv, hM, -⟩ := widen_ieee_number e m b c hm hx h0
      rw [show c / 2 ^ (e + m) = 1 from hn] at hv
      rw [fRsqa_negative hv hM]; exact ⟨rfl, rfl⟩
  · obtain ⟨M, E, hv, hM, hn⟩ := widen_ieee_number e m b c hm hx h0
    rw [show c / 2 ^ (e + m) = 0 from hp] at hv
    obtain ⟨y, hle, hlt, hr⟩ := fRsqa_number hv hM hn
    refine ⟨y, hle, hlt, ?_⟩
    rw [hr]
    exact packApprox_packedTo e m b false _ _

end

-- Every result of a rounding fits its format (Table 10-2), so FCVT leaves zeros above it (Table 7-1)

/-- The payload of a NaN has the width it names. -/
def Val.payFits : Val → Prop
  | .nan _ _ pay w => pay < 2 ^ w
  | _ => True

theorem widen_payFits (f : Fmt) (c : Nat) : (widen f c).payFits := by
  cases f with
  | int w sg fr => trivial
  | flt e m b top =>
    simp only [widen, widenFlt]
    split
    · trivial
    · split
      · cases top <;> simp only
        · split
          · trivial
          · exact Nat.mod_lt _ (by positivity)
        · split <;> simp [Val.payFits]
        · trivial
      · trivial

theorem FRes.ite_pat_lt {c : Prop} [Decidable c] {x y : FRes} {n : Nat} (hx : c → x.pat < n) (hy : ¬ c → y.pat < n) :
    (if c then x else y).pat < n := by
  split
  · next h => exact hx h
  · next h => exact hy h

section
variable (e m b : Nat) (neg : Bool)

/-- A sign above a body of e + m bits makes a pattern of the format. -/
theorem signed_lt {n : Nat} (hn : n < 2 ^ (e + m)) : neg.toNat * 2 ^ (e + m) + n < 2 ^ (1 + e + m) := by
  have hw : 2 ^ (1 + e + m) = 2 ^ (e + m) + 2 ^ (e + m) := by rw [Nat.add_assoc, Nat.pow_add]; omega
  cases neg <;> simp <;> omega

theorem topExp_lt {n : Nat} (hn : n < 2 ^ m) : (2 ^ e - 1) * 2 ^ m + n < 2 ^ (e + m) := by
  have hp : 2 ^ (e + m) = (2 ^ e - 1) * 2 ^ m + 2 ^ m := by
    rw [← Nat.succ_mul, Nat.succ_eq_add_one, Nat.sub_add_cancel Nat.one_le_two_pow, Nat.pow_add]
  omega

theorem infPat_lt : (ieee e m b).infPat neg < 2 ^ (1 + e + m) :=
  signed_lt e m neg (topExp_lt e m (n := 0) (by positivity))

theorem maxPat_lt : (ieee e m b).maxPat < 2 ^ (e + m) :=
  (Nat.sub_le _ _).trans_lt (topExp_lt e m (n := 0) (by positivity))

theorem overflowRes_ieee_lt (md : Rnd) : (overflowRes (ieee e m b) neg md).pat < 2 ^ (1 + e + m) := by
  have h1 := infPat_lt e m b neg
  have h2 := signed_lt e m neg (maxPat_lt e m b)
  have hpick : ∀ up : Bool, (if up then (ieee e m b).infPat neg else neg.toNat * 2 ^ (e + m) + (ieee e m b).maxPat) <
      2 ^ (1 + e + m) := fun up => by cases up <;> assumption
  exact hpick _

theorem roundFlt_lt (mag : Nat) (ex : Int) (md : Rnd) : (roundFlt e m b .ieee neg mag ex md).pat < 2 ^ (1 + e + m) := by
  have hsub : 2 ^ m ≤ 2 ^ (e + m) := Nat.pow_le_pow_right (by omega) (by omega)
  refine FRes.ite_pat_lt (fun _ => signed_lt e m neg (n := 0) (by positivity)) fun _ => ?_
  refine FRes.ite_pat_lt (fun h => signed_lt e m neg (h.trans_le hsub)) fun _ => ?_
  exact FRes.ite_pat_lt (fun _ => overflowRes_ieee_lt e m b neg md)
    fun h => signed_lt e m neg ((Nat.le_of_not_lt h).trans_lt (maxPat_lt e m b))

/-- A payload cut or widened to m - 1 bits stands below the quiet bit. -/
theorem payload_lt (pay w k : Nat) (h : pay < 2 ^ w) : (if w ≤ k then pay * 2 ^ (k - w) else pay / 2 ^ (w - k)) < 2 ^ k := by
  split
  · next hw =>
    calc pay * 2 ^ (k - w) < 2 ^ w * 2 ^ (k - w) := Nat.mul_lt_mul_of_pos_right h (by positivity)
      _ = 2 ^ k := by rw [← Nat.pow_add]; congr 1; omega
  · next hw =>
    refine Nat.div_lt_of_lt_mul ?_
    rwa [← Nat.pow_add, show w - k + k = w by omega]

end

theorem round_ieee_lt (e m b : Nat) (hm : 0 < m) (x : Val) (md : Rnd) (hx : x.payFits) :
    (round x (ieee e m b) md).pat < 2 ^ (1 + e + m) := by
  cases x with
  | fin neg mag ex => exact roundFlt_lt e m b neg mag ex md
  | inf neg => exact infPat_lt e m b neg
  | nan neg sig pay w =>
    have hp := payload_lt pay w (m - 1) hx
    have hq : 2 ^ m = 2 ^ (m - 1) + 2 ^ (m - 1) := by
      rw [← Nat.two_mul, ← Nat.pow_succ', Nat.succ_eq_add_one, Nat.sub_add_cancel hm]
    refine lt_of_eq_of_lt ?_ (signed_lt e m neg (topExp_lt e m (n := 2 ^ (m - 1) + _) (by rw [hq]; exact Nat.add_lt_add_left hp _)))
    simp only [round, Fmt.qnan, Nat.add_assoc]

theorem round_int_lt (w fr : Nat) (x : Val) (md : Rnd) : (round x (.int w false fr) md).pat < 2 ^ w := by
  have hpos : 0 < 2 ^ w := by positivity
  have hover : ∀ neg, (overflowRes (.int w false fr) neg md).pat < 2 ^ w := by
    intro neg
    cases neg <;> simp [overflowRes, Fmt.maxPat]
  cases x with
  | inf neg => exact hover neg
  | nan _ _ _ _ => exact hpos
  | fin neg mag ex =>
    have hmod (v : Int) : (v % ((2 ^ w : Nat) : Int)).toNat < 2 ^ w := by
      have := Int.emod_lt_of_pos v (show (0 : Int) < ((2 ^ w : Nat) : Int) by exact_mod_cast hpos)
      omega
    exact FRes.ite_pat_lt (fun _ => hover neg) fun _ => hmod _

/-- A signed integer as a register holds it (Table 7-1). -/
theorem w64i_sext (w p : Nat) (hw : 0 < w) : w64i (sext w p) = (BitVec.ofNat w p).signExtend 64 := by
  have h : sext w p = (BitVec.ofNat w p).toInt := by
    rw [BitVec.toInt_eq_toNat_cond, BitVec.toNat_ofNat, sext]
    have h2 : 2 ^ w = 2 * 2 ^ (w - 1) := by rw [← Nat.pow_succ', Nat.succ_eq_add_one, Nat.sub_add_cancel hw]
    by_cases hlt : p % 2 ^ w < 2 ^ (w - 1)
    · rw [if_pos hlt, if_pos (by omega)]
    · rw [if_neg hlt, if_neg (by omega)]
  rw [h]; rfl

/-- What a register receives of a rounding to a scalar type (Table 7-1). -/
theorem scalarResult_round (t : ScalarTy) (x : Val) (md : Rnd) (hx : x.payFits) :
    scalarResult t.fmt (round x t.fmt md).pat =
      if t = .i32 then (BitVec.ofNat 32 (round x t.fmt md).pat).signExtend 64
      else BitVec.ofNat 64 ((round x t.fmt md).pat % 2 ^ t.fmt.width) := by
  have hfloat : ∀ e m b, 0 < m → (round x (ieee e m b) md).pat % 2 ^ (1 + e + m) = (round x (ieee e m b) md).pat :=
    fun e m b hm => Nat.mod_eq_of_lt (round_ieee_lt e m b hm x md hx)
  have huint : ∀ w, (round x (.int w false 0) md).pat % 2 ^ w = (round x (.int w false 0) md).pat :=
    fun w => Nat.mod_eq_of_lt (round_int_lt w 0 x md)
  cases t with
  | i32 => exact w64i_sext 32 _ (by omega)
  | i64 =>
    rw [if_neg (by decide)]
    refine (w64i_sext 64 _ (by omega)).trans ?_
    rw [BitVec.signExtend_eq]
    exact BitVec.eq_of_toNat_eq (by simp [ScalarTy.fmt, Fmt.sint, Fmt.width])
  | f16 => exact congrArg (BitVec.ofNat 64) (hfloat 5 10 15 (by omega)).symm
  | bf16 => exact congrArg (BitVec.ofNat 64) (hfloat 8 7 127 (by omega)).symm
  | f32 => exact congrArg (BitVec.ofNat 64) (hfloat 8 23 127 (by omega)).symm
  | f64 => exact congrArg (BitVec.ofNat 64) (hfloat 11 52 1023 (by omega)).symm
  | n32 => exact congrArg (BitVec.ofNat 64) (huint 32).symm
  | n64 => exact congrArg (BitVec.ofNat 64) (huint 64).symm

/-- Settles O11: each result is the model's own rounding of the exact value; the approximations by the class of their operand, and the
rounding modes by how far the answer lies from the value. -/
theorem floatResults : Obligations.FloatResults := by
  unfold Obligations.FloatResults
  refine ⟨fun s t md d a b => ?_, fun neg m e q md _ => roundAt_grid neg m e q md⟩
  rw [← width_fmt_fpTy t]
  refine ⟨fadd_fsub_fmul_number s t md d a b, fadd_fsub_fmul_nan s t md d a b, ?_, ⟨?_, ?_⟩, fun td ts _ => ?_⟩
  · cases t <;> exact ffma_gives s _ md d a b
  · refine givesFl_of_laterF rfl ?_
    cases t
    · exact fRcpa_fields 8 23 127 _ (by omega) (by omega) (Nat.mod_lt _ (by positivity)) _ _ ⟨rfl, rfl⟩
    · exact fRcpa_fields 11 52 1023 _ (by omega) (by omega) (Nat.mod_lt _ (by positivity)) _ _ ⟨rfl, rfl⟩
  · refine givesFl_of_laterF rfl ?_
    cases t
    · exact fRsqa_fields 8 23 127 _ (by omega) (by omega) (Nat.mod_lt _ (by positivity)) _ _ ⟨rfl, rfl⟩
    · exact fRsqa_fields 11 52 1023 _ (by omega) (by omega) (Nat.mod_lt _ (by positivity)) _ _ ⟨rfl, rfl⟩
  · exact givesFl_of_laterF rfl ⟨scalarResult_round td _ md.rnd (widen_payFits _ _), rfl⟩

end Sys2Proof.Machine

namespace Sys2Proof.Machine

-- The lossval clause of ControlRegisterValues (R440)

theorem FMap.entry_mem_of_get? {α : Type} (m : FMap α) (k : Nat) (v : α) (h : FMap.get? m k = some v) : (k, v) ∈ m := by
  induction m with
  | nil => cases h
  | cons p m ih =>
    simp only [FMap.get?] at h
    split at h
    · next hk => cases h; simp [← hk]
    · next => exact List.mem_cons_of_mem _ (ih h)

/-- In a map with rising keys, putting an entry that is there already changes nothing. -/
theorem FMap.put_self {α : Type} (m : FMap α) (k : Nat) (v : α) (hs : FMap.sorted m = true) (h : FMap.get? m k = some v) :
    FMap.put m k v = m := by
  rw [FMap.sorted_iff] at hs
  induction m with
  | nil => cases h
  | cons p m ih =>
    obtain ⟨hlt, hm⟩ := List.pairwise_cons.mp hs
    simp only [FMap.get?] at h
    split at h
    · next hk => cases h; simp [FMap.put, ← hk]
    · next hk =>
      have hpk : p.1 < k := hlt _ (FMap.entry_mem_of_get? m k v h)
      rw [FMap.put, if_neg (by omega), if_neg (by omega), ih hm h]

theorem State.modPad_self (s : State) (f : Paddock → Paddock) (hp : FMap.get? s.pads s.cur.pad = some s.pad)
    (hps : FMap.sorted s.pads = true) (hf : f s.pad = s.pad) : s.modPad f = s := by
  rw [State.modPad, hf, FMap.put_self _ _ _ hps hp]

/-- Putting the current tile back changes nothing where it stands in maps with rising keys. -/
theorem State.setTile_self (s : State) (hp : FMap.get? s.pads s.cur.pad = some s.pad)
    (ht : FMap.get? s.pad.tiles s.cur.tile = some s.tile) (hps : FMap.sorted s.pads = true)
    (hts : FMap.sorted s.pad.tiles = true) : s.setTile s.tile = s :=
  s.modPad_self _ hp hps (by rw [FMap.put_self _ _ _ hts ht])

/-- A tile that selects an unassigned counter is no tile after reset, so it stands in its map. -/
theorem State.get?_of_unassigned (s : State) (h : lossAssigned (bits s.tile.obs.losssel 8 0) = false) :
    FMap.get? s.pads s.cur.pad = some s.pad ∧ FMap.get? s.pad.tiles s.cur.tile = some s.tile := by
  have htile : FMap.get? s.pad.tiles s.cur.tile = some s.tile := by
    cases ht : FMap.get? s.pad.tiles s.cur.tile with
    | some t => simp [State.tile, FMap.getD, ht]
    | none => rw [show s.tile = Tile.init by simp [State.tile, FMap.getD, ht]] at h; cases h
  refine ⟨?_, htile⟩
  cases hp : FMap.get? s.pads s.cur.pad with
  | some p => simp [State.pad, FMap.getD, hp]
  | none => rw [show s.pad = Paddock.init by simp [State.pad, FMap.getD, hp]] at htile; cases htile

/-- R440: lossval of an unassigned counter changes nothing, where the maps of paddocks and tiles have rising keys: the premise that
ControlRegisterValues does not have. -/
theorem State.land_lossval_unassigned (s : State) (v : W64) (hps : FMap.sorted s.pads = true)
    (hts : FMap.sorted s.pad.tiles = true) (h : lossAssigned (bits s.tile.obs.losssel 8 0) = false) :
    s.land (.ctl 0x78 v) = s := by
  obtain ⟨hp, ht⟩ := s.get?_of_unassigned h
  have hland : s.land (.ctl 0x78 v) = s.setTile s.tile := by
    show s.setTile (if lossAssigned _ then _ else s.tile) = _
    rw [h]; rfl
  rw [hland, s.setTile_self hp ht hps hts]

/-- Two paddocks out of the order of their keys, and a current tile that selects the unassigned counter 5. -/
def unsortedPads : State :=
  let t := { Tile.init with obs := { Observe.init with losssel := 5 } }
  { State.reset with
    pads := [(1, Paddock.init), (0, { Paddock.init with tiles := [(0, t)] })], cur := { pad := 0, tile := 0 } }

/-- Writing the current tile back finds no place below paddock 1 and lists paddock 0 a second time. -/
theorem unsortedPads_land_lossval : (unsortedPads.land (.ctl 0x78 0)).pads.map (·.1) = [0, 1, 0] := by decide

/-- Refutes O31: the clause that lossval of an unassigned counter changes nothing has no premise on the order of the maps. The landing
puts the unchanged tile back, and in a state whose paddocks stand out of the order that an FMap asks for, that lists one of them twice.
With that premise the clause holds (State.land_lossval_unassigned). -/
theorem not_controlRegisterValues : ¬ Obligations.ControlRegisterValues := by
  unfold Obligations.ControlRegisterValues
  intro h
  obtain ⟨-, -, -, -, -, -, -, -, -, -, -, -, -, -, -, -, -, -, -, -, hunassigned, -⟩ := h unsortedPads 0
  have hsame : unsortedPads.land (.ctl 0x78 0) = unsortedPads := hunassigned (by decide)
  have hkeys := unsortedPads_land_lossval
  rw [hsame] at hkeys
  exact absurd hkeys (by decide)

end Sys2Proof.Machine

-- Maps whose keys rise, and maps changed entry by entry (Machine/FMap)

namespace Sys2Proof.Machine

theorem FMap.get?_of_mem {α : Type} (m : FMap α) (e : Nat × α) (hs : FMap.sorted m = true) (he : e ∈ m) :
    FMap.get? m e.1 = some e.2 := by
  rw [FMap.sorted_iff] at hs
  induction m with
  | nil => cases he
  | cons p m ih =>
    obtain ⟨hlt, hm⟩ := List.pairwise_cons.mp hs
    rw [FMap.get?]
    rcases List.mem_cons.mp he with rfl | he
    · simp
    · rw [if_neg (Nat.ne_of_lt (hlt e he))]
      exact ih hm he

theorem FMap.get?_eq_none {α : Type} (m : FMap α) (k : Nat) (h : ∀ e ∈ m, e.1 ≠ k) : FMap.get? m k = none := by
  cases hg : FMap.get? m k with
  | none => rfl
  | some v => exact absurd rfl (h _ (FMap.entry_mem_of_get? m k v hg))

theorem FMap.keys_nodup {α : Type} (m : FMap α) (h : FMap.sorted m = true) : (FMap.keys m).Nodup := by
  rw [FMap.sorted_iff] at h
  exact List.pairwise_map.mpr (h.imp Nat.ne_of_lt)

/-- Entries that pass a test, by their keys. -/
theorem FMap.filter_keys_nodup {α : Type} (m : FMap α) (t : Nat × α → Bool) (h : FMap.sorted m = true) :
    ((m.filter t).map (·.1)).Nodup :=
  (FMap.keys_nodup m h).sublist (List.filter_sublist.map _)

theorem FMap.get?_modify_same {α : Type} (m : FMap α) (k : Nat) (f : α → α) :
    FMap.get? (FMap.modify m k f) k = (FMap.get? m k).map f := by
  induction m with
  | nil => rfl
  | cons p m ih => by_cases h : p.1 = k <;> simp [FMap.modify, FMap.get?, h, ih]

theorem FMap.get?_modify_ne {α : Type} (m : FMap α) (k j : Nat) (f : α → α) (h : j ≠ k) :
    FMap.get? (FMap.modify m k f) j = FMap.get? m j := by
  induction m with
  | nil => rfl
  | cons p m ih =>
    by_cases hk : p.1 = k
    · simp [FMap.modify, FMap.get?, hk, Ne.symm h]
    · simp [FMap.modify, FMap.get?, hk, ih]

/-- Only what a change does to the entry that is there counts. -/
theorem FMap.modify_congr {α : Type} (m : FMap α) (k : Nat) (f g : α → α) (h : ∀ v, FMap.get? m k = some v → f v = g v) :
    FMap.modify m k f = FMap.modify m k g := by
  induction m with
  | nil => rfl
  | cons p m ih =>
    by_cases hk : p.1 = k
    · rw [FMap.modify, FMap.modify, if_pos hk, if_pos hk, h p.2 (by simp [FMap.get?, hk])]
    · rw [FMap.modify, FMap.modify, if_neg hk, if_neg hk, ih fun v hv => h v (by simp [FMap.get?, hk, hv])]

theorem FMap.modify_id {α : Type} (m : FMap α) (k : Nat) : (FMap.modify m k fun v => v) = m := by
  induction m with
  | nil => rfl
  | cons p m ih => rw [FMap.modify, ih, ite_self]

theorem FMap.modify_modify {α : Type} (m : FMap α) (k : Nat) (f g : α → α) :
    FMap.modify (FMap.modify m k f) k g = FMap.modify m k fun v => g (f v) := by
  induction m with
  | nil => rfl
  | cons p m ih => by_cases hk : p.1 = k <;> simp [FMap.modify, hk, ih]

theorem FMap.get?_map {α β : Type} (m : FMap α) (k : Nat) (f : Nat → α → β) :
    FMap.get? (m.map fun e => (e.1, f e.1 e.2)) k = (FMap.get? m k).map (f k) := by
  induction m with
  | nil => rfl
  | cons p m ih =>
    by_cases hk : p.1 = k
    · subst hk; simp [FMap.get?]
    · simpa [FMap.get?, hk] using ih

theorem FMap.get?_del_same {α : Type} (m : FMap α) (k : Nat) (h : FMap.sorted m = true) :
    FMap.get? (FMap.del m k) k = none := by
  rw [FMap.sorted_iff] at h
  induction m with
  | nil => rfl
  | cons p m ih =>
    obtain ⟨hlt, hm⟩ := List.pairwise_cons.mp h
    rw [FMap.del]
    split
    · next hk => exact FMap.get?_eq_none m k fun e he => hk ▸ (Nat.ne_of_lt (hlt e he)).symm
    · next hk => rw [FMap.get?, if_neg hk, ih hm]

theorem FMap.get?_del_ne {α : Type} (m : FMap α) (k j : Nat) (h : j ≠ k) : FMap.get? (FMap.del m k) j = FMap.get? m j := by
  induction m with
  | nil => rfl
  | cons p m ih =>
    by_cases hk : p.1 = k
    · simp [FMap.del, FMap.get?, hk, Ne.symm h]
    · simp [FMap.del, FMap.get?, hk, ih]

-- Paddocks by key

theorem State.padAt_of_get? {s : State} {k : Nat} {p : Paddock} (h : FMap.get? s.pads k = some p) : s.padAt k = p := by
  simp [State.padAt, FMap.getD, h]

theorem State.padAt_congr {s t : State} {k : Nat} (h : FMap.get? t.pads k = FMap.get? s.pads k) : t.padAt k = s.padAt k := by
  simp [State.padAt, FMap.getD, h]

theorem State.get?_of_mem {s : State} {e : Nat × Paddock} (hs : FMap.sorted s.pads = true) (he : e ∈ s.pads) :
    FMap.get? s.pads e.1 = some e.2 := FMap.get?_of_mem s.pads e hs he

theorem State.padAt_of_mem {s : State} {e : Nat × Paddock} (hs : FMap.sorted s.pads = true) (he : e ∈ s.pads) :
    s.padAt e.1 = e.2 := State.padAt_of_get? (State.get?_of_mem hs he)

/-- The keys of the paddocks that pass a test, each with its paddock. -/
theorem State.mem_filter_keys {s : State} {t : Nat × Paddock → Bool} {k : Nat} (hs : FMap.sorted s.pads = true) :
    k ∈ (s.pads.filter t).map (·.1) ↔ FMap.get? s.pads k = some (s.padAt k) ∧ t (k, s.padAt k) = true := by
  constructor
  · intro h
    obtain ⟨e, he, rfl⟩ := List.mem_map.mp h
    obtain ⟨he, ht⟩ := List.mem_filter.mp he
    rw [State.padAt_of_mem hs he]
    exact ⟨State.get?_of_mem hs he, ht⟩
  · rintro ⟨hg, ht⟩
    exact List.mem_map.mpr ⟨_, List.mem_filter.mpr ⟨FMap.entry_mem_of_get? _ _ _ hg, ht⟩, rfl⟩

/-- Nothing but the paddock of key k changes among the paddocks. -/
def OnlyPad (k : Nat) (s t : State) : Prop := ∀ j, j ≠ k → FMap.get? t.pads j = FMap.get? s.pads j

theorem OnlyPad.trans {k : Nat} {s t u : State} (h : OnlyPad k s t) (g : OnlyPad k t u) : OnlyPad k s u :=
  fun j hj => (g j hj).trans (h j hj)

theorem onlyPad_of_pads {k : Nat} {s t : State} (h : t.pads = s.pads) : OnlyPad k s t := fun j _ => by rw [h]

theorem onlyPad_modPadAt (s : State) (k : Nat) (f : Paddock → Paddock) : OnlyPad k s (s.modPadAt k f) :=
  fun j hj => FMap.get?_modify_ne s.pads k j f hj

theorem onlyPad_modPad (s : State) (f : Paddock → Paddock) : OnlyPad s.cur.pad s (s.modPad f) :=
  fun j hj => FMap.get?_put_ne s.pads s.cur.pad j _ hj

theorem State.get?_modPadAt (s : State) (k : Nat) (f : Paddock → Paddock) :
    FMap.get? (s.modPadAt k f).pads k = (FMap.get? s.pads k).map f := FMap.get?_modify_same s.pads k f

theorem State.padAt_modPadAt {s : State} {k : Nat} {p : Paddock} (f : Paddock → Paddock) (h : FMap.get? s.pads k = some p) :
    (s.modPadAt k f).padAt k = f p := State.padAt_of_get? (by rw [State.get?_modPadAt, h]; rfl)

theorem State.modPadAt_congr (s : State) (k : Nat) (f g : Paddock → Paddock)
    (h : ∀ p, FMap.get? s.pads k = some p → f p = g p) : s.modPadAt k f = s.modPadAt k g := by
  rw [State.modPadAt, FMap.modify_congr _ _ _ _ h]; rfl

theorem State.modPadAt_self (s : State) (k : Nat) (f : Paddock → Paddock) (h : ∀ p, FMap.get? s.pads k = some p → f p = p) :
    s.modPadAt k f = s := by
  rw [s.modPadAt_congr k f (fun p => p) h, State.modPadAt, FMap.modify_id]

@[simp] theorem State.modPadAt_dtick (s : State) (k : Nat) (f : Paddock → Paddock) : (s.modPadAt k f).dtick = s.dtick := rfl
@[simp] theorem State.modPadAt_fns (s : State) (k : Nat) (f : Paddock → Paddock) : (s.modPadAt k f).fns = s.fns := rfl
@[simp] theorem State.modPadAt_panel (s : State) (k : Nat) (f : Paddock → Paddock) : (s.modPadAt k f).panel = s.panel := rfl

-- Folds over paddocks and other lists

/-- What each change of a fold keeps, the fold keeps. -/
theorem State.foldl_keeps {α β : Type} (g : State → β) (f : State → α → State) (hf : ∀ s x, g (f s x) = g s) (l : List α)
    (s : State) : g (l.foldl f s) = g s := by
  induction l generalizing s with
  | nil => rfl
  | cons x l ih => exact (ih _).trans (hf s x)

/-- A fold over different keys, each of whose changes is local to its key's paddock: paddocks of other keys stay, and that of one of the
keys becomes what its own change makes of it, in a state that looks like the first to whatever the changes keep. -/
theorem State.foldl_onlyPad {β : Type} (g : State → β) (f : State → Nat → State) (hg : ∀ u k, g (f u k) = g u)
    (hf : ∀ u k, OnlyPad k u (f u k)) (ks : List Nat) (hks : ks.Nodup) (s : State) :
    (∀ j, j ∉ ks → FMap.get? (ks.foldl f s).pads j = FMap.get? s.pads j) ∧
    ∀ k ∈ ks, ∃ u : State, g u = g s ∧ FMap.get? u.pads k = FMap.get? s.pads k ∧
      FMap.get? (ks.foldl f s).pads k = FMap.get? (f u k).pads k := by
  induction ks generalizing s with
  | nil => exact ⟨fun _ _ => rfl, fun _ h => by cases h⟩
  | cons x xs ih =>
    obtain ⟨hx, hxs⟩ := List.nodup_cons.mp hks
    obtain ⟨hout, hin⟩ := ih hxs (f s x)
    refine ⟨fun j hj => ?_, fun k hk => ?_⟩
    · obtain ⟨hjx, hjxs⟩ := not_or.mp (List.mem_cons.not.mp hj)
      exact (hout j hjxs).trans (hf s x j hjx)
    · rcases List.mem_cons.mp hk with rfl | hk
      · exact ⟨s, rfl, rfl, hout _ hx⟩
      · obtain ⟨u, hu, hp, hr⟩ := hin k hk
        exact ⟨u, hu.trans (hg s x), hp.trans (hf s x k fun h => hx (h ▸ hk)), hr⟩

-- Entries of the completion rings (R54, R58, R60)

/-- What a function's budget and its use of it are. -/
def Func.account (f : Func) : Nat × Nat × Nat := (f.budget, f.nextBudget, f.used)

/-- A change that leaves the accounts of the function it is made to leaves every account. -/
theorem State.account_modFn (s : State) (n m : Nat) (f : Func → Func) (hf : ∀ x, (f x).account = x.account) :
    ((s.modFn n f).fn m).account = (s.fn m).account := by
  by_cases h : m = n
  · subst h; rw [State.modFn_fn, hf]
  · rw [State.modFn, State.setFn_fn_ne _ _ _ _ h]

section
variable (s : State) (n : Nat) (ws : List W64)

/-- An entry that falls due is dropped, or changes its function's waiting entries, tail and memory and nothing else. -/
theorem State.post_cases : s.post n ws = s ∨ ∃ m a b c,
    s.post n ws = { s with host := m }.modFn n fun f => { f with held := a, blocked := b, ktail := c } := by
  unfold State.post
  simp only
  split
  · split
    · exact .inr ⟨s.host, _, (s.fn n).blocked, (s.fn n).ktail, rfl⟩
    · exact .inl rfl
  · split
    · exact .inr ⟨s.host, (s.fn n).held, _, (s.fn n).ktail, rfl⟩
    · exact .inr ⟨_, (s.fn n).held, (s.fn n).blocked, _, rfl⟩

@[simp] theorem State.post_pads : (s.post n ws).pads = s.pads := by
  rcases s.post_cases n ws with h | ⟨m, a, b, c, h⟩ <;> simp [h]
@[simp] theorem State.post_panel : (s.post n ws).panel = s.panel := by
  rcases s.post_cases n ws with h | ⟨m, a, b, c, h⟩ <;> simp [h]
@[simp] theorem State.post_dtick : (s.post n ws).dtick = s.dtick := by
  rcases s.post_cases n ws with h | ⟨m, a, b, c, h⟩ <;> simp [h]
@[simp] theorem State.post_account (m : Nat) : ((s.post n ws).fn m).account = (s.fn m).account := by
  rcases s.post_cases n ws with h | ⟨h', a, b, c, h⟩ <;> rw [h]
  exact State.account_modFn { s with host := h' } n m _ fun _ => rfl

theorem State.putEntry_fns :
    (s.putEntry n ws).fns = FMap.put s.fns n { s.fn n with ktail := ((s.fn n).ktail + 1) % 2 ^ 32 } := rfl

/-- What an entry does to the functions comes of the functions alone. -/
theorem State.post_fns_congr (t : State) (h : t.fns = s.fns) : (t.post n ws).fns = (s.post n ws).fns := by
  have hn : t.fn n = s.fn n := by rw [State.fn, h]; rfl
  unfold State.post
  simp only [hn]
  split
  · split
    · exact congrArg (FMap.put · n _) h
    · exact h
  · split
    · exact congrArg (FMap.put · n _) h
    · rw [State.putEntry_fns, State.putEntry_fns, h, hn]

end

section
variable (s : State) (n code handle : Nat) (r0 r1 : W64)

@[simp] theorem State.event_pads : (s.event n code handle r0 r1).pads = s.pads := s.post_pads n _
@[simp] theorem State.event_panel : (s.event n code handle r0 r1).panel = s.panel := s.post_panel n _
@[simp] theorem State.event_dtick : (s.event n code handle r0 r1).dtick = s.dtick := s.post_dtick n _
end

section
variable (s : State) (op : Nat) (c : Command) (st : Nat) (r0 r1 : W64)

@[simp] theorem State.done_pads : (s.done op c st r0 r1).pads = s.pads := s.post_pads c.fn _
@[simp] theorem State.done_panel : (s.done op c st r0 r1).panel = s.panel := s.post_panel c.fn _
@[simp] theorem State.done_account (m : Nat) : ((s.done op c st r0 r1).fn m).account = (s.fn m).account :=
  (State.account_modFn (s.post c.fn _) c.fn m (fun f => { f with undone := (f.undone ++ [(op, c)]).filter f.owes })
    fun _ => rfl).trans (s.post_account c.fn _ m)

end

section
variable (s : State) (q : Pending) (st : Nat) (r0 : W64)

@[simp] theorem State.endReq_pads : (s.endReq q st r0).pads = s.pads := by unfold State.endReq; split <;> simp
@[simp] theorem State.endReq_panel : (s.endReq q st r0).panel = s.panel := by unfold State.endReq; split <;> simp
@[simp] theorem State.endReq_account (m : Nat) : ((s.endReq q st r0).fn m).account = (s.fn m).account := by
  unfold State.endReq; split <;> simp

end

-- Requests to a paddock (R71, R434)

section
variable (s : State) (k : Nat) (r : Req) (cmd : Option Command) (watch : Option Nat)

@[simp] theorem State.request_panel : (s.request k r cmd watch).panel = s.panel := rfl

theorem onlyPad_request : OnlyPad k s (s.request k r cmd watch) := onlyPad_modPadAt s k _

/-- The entry of a request q: what is asked, by which command, and until when. -/
def Pending.asks (q : Pending) (p : Paddock) (r : Req) (cmd : Option Command) (watch : Option Nat) : Prop :=
  q.req = r ∧ q.cmd = cmd ∧ q.deadline = watch.map fun reason =>
    ((if reason ≤ 3 then p.rtick else q.due - 1) + p.shape.pauseMax + 65536, reason)

/-- A request joins those that wait. -/
theorem State.get?_request {p : Paddock} (h : FMap.get? s.pads k = some p) : ∃ q : Pending, q.asks p r cmd watch ∧
    FMap.get? (s.request k r cmd watch).pads k = some { p with pending := p.pending ++ [q] } := by
  have hp : s.padAt k = p := State.padAt_of_get? h
  subst hp
  exact ⟨_, ⟨rfl, rfl, rfl⟩, (State.get?_modPadAt s k _).trans (by rw [h]; rfl)⟩

end

/-- The same request to each of some paddocks that are there joins what waits at each, and every other paddock stays. -/
theorem State.request_all (r : Req) (cmd : Option Command) (watch : Option Nat) (ks : List Nat) (hks : ks.Nodup) (s : State) :
    let t := ks.foldl (fun s k => s.request k r cmd watch) s
    t.dtick = s.dtick ∧ t.fns = s.fns ∧ t.panel = s.panel ∧ (∀ j, j ∉ ks → FMap.get? t.pads j = FMap.get? s.pads j) ∧
    ∀ k ∈ ks, ∀ p, FMap.get? s.pads k = some p →
      ∃ q : Pending, q.asks p r cmd watch ∧ FMap.get? t.pads k = some { p with pending := p.pending ++ [q] } := by
  obtain ⟨hout, hin⟩ := State.foldl_onlyPad (fun s => (s.dtick, s.fns, s.panel)) (fun s k => s.request k r cmd watch)
    (fun _ _ => rfl) (fun u k => onlyPad_request u k r cmd watch) ks hks s
  have hkeep := State.foldl_keeps (fun s => (s.dtick, s.fns, s.panel)) (fun s k => s.request k r cmd watch) (fun _ _ => rfl) ks s
  simp only [Prod.mk.injEq] at hkeep
  obtain ⟨hd, hf, hq⟩ := hkeep
  refine ⟨hd, hf, hq, hout, fun k hk p hp => ?_⟩
  obtain ⟨u, -, hu, ht⟩ := hin k hk
  obtain ⟨q, hq, hg⟩ := u.get?_request k r cmd watch (hu.trans hp)
  exact ⟨q, hq, ht.trans hg⟩

end Sys2Proof.Machine

-- The machine at its first power-on (R24)

namespace Sys2Proof.Machine

theorem State.memOk_reset : State.reset.memOk := ⟨Mem.wf_nil, fun _ he => by cases he⟩

/-- Every memory reads 0 at the first power-on: nothing is listed in it. -/
theorem State.byteAt_reset (m : MemSite) (a : Nat) : State.reset.byteAt m a = 0 := by cases m <;> rfl

/-- Settles O7: the reset state read off field by field. -/
theorem powerOnState : Obligations.PowerOnState := by
  unfold Obligations.PowerOnState
  exact ⟨State.memOk_reset, rfl, rfl, rfl, fun n => ⟨rfl, rfl, rfl, rfl, rfl, rfl⟩, rfl, rfl, rfl, rfl, rfl, State.byteAt_reset⟩

end Sys2Proof.Machine

-- Heartbeats and the seal of a world (R66)

namespace Sys2Proof.Machine

/-- What the seal of a world does to the paddock of key k (R66). -/
def State.sealOne (s : State) (k : Nat) : State :=
  match (s.padAt k).state with
  | .running => s.request k .seal none (some 3)
  | .empty => s.modPadAt k fun p => { p with state := .held, heldFrom := .empty }
  | .loaded => s.modPadAt k fun p => { p with state := .held, heldFrom := .loaded }
  | .preempted => s.modPadAt k fun p => { p with state := .held, heldFrom := .preempted }
  | _ => s

theorem State.sealWorld_eq (s : State) (n : Nat) : s.sealWorld n =
    (s.liveHandles n).foldl State.sealOne (s.modFn n fun f => { f with hold := some (s.dtick + secs 30) }) := rfl

theorem onlyPad_sealOne (s : State) (k : Nat) : OnlyPad k s (s.sealOne k) := by
  unfold State.sealOne
  split
  · exact onlyPad_request s k _ _ _
  · exact onlyPad_modPadAt s k _
  · exact onlyPad_modPadAt s k _
  · exact onlyPad_modPadAt s k _
  · exact onlyPad_of_pads rfl

theorem State.sealOne_fns (s : State) (k : Nat) : (s.sealOne k).fns = s.fns := by unfold State.sealOne; split <;> rfl

section
variable {s : State} {k : Nat} {p : Paddock} (h : FMap.get? s.pads k = some p)
include h

theorem State.get?_sealOne_running (hr : p.state = .running) : ∃ q : Pending, q.asks p .seal none (some 3) ∧
    FMap.get? (s.sealOne k).pads k = some { p with pending := p.pending ++ [q] } := by
  have hseal : s.sealOne k = s.request k .seal none (some 3) := by simp only [State.sealOne, State.padAt_of_get? h, hr]
  rw [hseal]
  exact s.get?_request k .seal none (some 3) h

theorem State.get?_sealOne_still (hr : p.state ∈ [PState.empty, .loaded, .preempted]) :
    FMap.get? (s.sealOne k).pads k = some { p with state := .held, heldFrom := p.state } := by
  rw [State.sealOne, State.padAt_of_get? h]
  simp only [List.mem_cons, List.not_mem_nil, or_false] at hr
  rcases hr with hr | hr | hr <;> simp [hr, State.get?_modPadAt, h]

end

theorem State.liveHandles_nodup (s : State) (n : Nat) (hs : FMap.sorted s.pads = true) : (s.liveHandles n).Nodup :=
  FMap.filter_keys_nodup _ _ hs

theorem State.mem_liveHandles {s : State} {n k : Nat} (hs : FMap.sorted s.pads = true) :
    k ∈ s.liveHandles n ↔ FMap.get? s.pads k = some (s.padAt k) ∧ (s.padAt k).fn = n ∧ (s.padAt k).state ≠ .destroyed := by
  simp [State.liveHandles, State.mem_filter_keys hs]

theorem State.liveHandles_congr {s t : State} (n : Nat) (h : t.pads = s.pads) : t.liveHandles n = s.liveHandles n := by
  rw [State.liveHandles, h]; rfl

/-- The paddock of key k has a new request in t, with a deadline for a WATCHDOG of the given reason at most 3. -/
def AskedBy (s t : State) (k : Nat) (r : Req) (reason : Nat) : Prop :=
  ∃ q, (t.padAt k).pending = (s.padAt k).pending ++ [q] ∧ q.req = r ∧
    q.deadline = some ((s.padAt k).rtick + (s.padAt k).shape.pauseMax + 65536, reason)

theorem askedBy_of_get? {s t : State} {k : Nat} {p : Paddock} {r : Req} {cmd : Option Command} {reason : Nat} (hr : reason ≤ 3)
    (hp : s.padAt k = p) (h : ∃ q : Pending, q.asks p r cmd (some reason) ∧
      FMap.get? t.pads k = some { p with pending := p.pending ++ [q] }) : AskedBy s t k r reason := by
  obtain ⟨q, ⟨hq, -, hd⟩, ht⟩ := h
  refine ⟨q, ?_, hq, ?_⟩
  · rw [State.padAt_of_get? ht, hp]
  · simpa [hr, hp] using hd

/-- The seal of a world asks its running paddocks to seal and seals those that stand still, and starts the hold of 30 s. -/
theorem State.sealWorld_spec (s : State) (n : Nat) (hs : FMap.sorted s.pads = true) :
    ((s.sealWorld n).fn n).hold = some (s.dtick + 48000000000) ∧ ∀ k ∈ s.liveHandles n,
      ((s.padAt k).state = .running → AskedBy s (s.sealWorld n) k .seal 3) ∧
      ((s.padAt k).state ∈ [PState.empty, .loaded, .preempted] →
        ((s.sealWorld n).padAt k).state = .held ∧ ((s.sealWorld n).padAt k).heldFrom = (s.padAt k).state) := by
  rw [State.sealWorld_eq]
  generalize hu : (s.modFn n fun f => { f with hold := some (s.dtick + secs 30) }) = u
  have hupads : u.pads = s.pads := by rw [← hu]; rfl
  have hhold : (u.fn n).hold = some (s.dtick + 48000000000) := by rw [← hu, State.modFn_fn]; rfl
  obtain ⟨-, hin⟩ := State.foldl_onlyPad (fun _ => ()) State.sealOne (fun _ _ => rfl) onlyPad_sealOne _ (s.liveHandles_nodup n hs) u
  have hfns : ((s.liveHandles n).foldl State.sealOne u).fns = u.fns := State.foldl_keeps State.fns _ State.sealOne_fns _ _
  refine ⟨by rw [State.fn, hfns]; exact hhold, fun k hk => ?_⟩
  obtain ⟨hget, -, -⟩ := (State.mem_liveHandles hs).mp hk
  obtain ⟨v, -, hv, ht⟩ := hin k hk
  rw [hupads] at hv
  rw [hget] at hv
  refine ⟨fun hr => ?_, fun hr => ?_⟩
  · obtain ⟨q, hq, hg⟩ := State.get?_sealOne_running hv hr
    exact askedBy_of_get? (by decide) rfl ⟨q, hq, ht.trans hg⟩
  · rw [State.padAt_of_get? (ht.trans (State.get?_sealOne_still hv hr))]
    exact ⟨rfl, rfl⟩

/-- R66: a session not heard for 10 s starts the hold. -/
theorem execHeartbeatTimeout_late (s : State) (n : Nat) (x : Session)
    (hx : (s.fn n).session = some x) (hl : x.heard + 16000000000 ≤ s.dtick) (hh : (s.fn n).hold = none)
    (hv : (s.fn n).void = false) :
    exec (.heartbeatTimeout n) s = .next ((s.event n evHbTimeout noHandle 0 0).sealWorld n) := by
  have hlate : (s.fn n).hbLate s.dtick = true := by
    simp [Func.hbLate, hx, hh, hv, Session.late, secs, hl]
  show execHeartbeatTimeout n s = _
  rw [execHeartbeatTimeout, hlate]
  rfl

theorem execHeartbeatTimeout_heard (s : State) (n : Nat) (x : Session) (hx : (s.fn n).session = some x)
    (hl : s.dtick < x.heard + 16000000000) : exec (.heartbeatTimeout n) s = .next s := by
  have hlate : (s.fn n).hbLate s.dtick = false := by
    have hnot : x.late s.dtick = false := decide_eq_false (by rw [secs]; omega)
    simp [Func.hbLate, hx, hnot]
  show execHeartbeatTimeout n s = _
  rw [execHeartbeatTimeout, hlate]
  rfl

-- Budget windows and slices (R67, R68)

theorem State.fn_map (s t : State) (n : Nat) (f : Func → Func) (h : t.fns = s.fns.map fun e => (e.1, f e.2))
    (hf : f Func.init = Func.init) : t.fn n = f (s.fn n) := by
  rw [State.fn, FMap.getD, h, FMap.get?_map s.fns n fun _ => f, State.fn, FMap.getD]
  cases FMap.get? s.fns n with
  | none => exact hf.symm
  | some x => rfl

theorem State.resumeSliced_self (s : State) (h : ∀ e ∈ s.pads, e.2.sliced = false) : s.resumeSliced = s := by
  have hnone : (s.pads.filter fun e => e.2.state == .preempted && e.2.sliced && decide (0 < (s.fn e.2.fn).avail)) = [] :=
    List.filter_eq_nil_iff.mpr fun e he => by simp [h e he]
  simp only [State.resumeSliced, hnone]
  rfl

/-- R67: the windows of all functions change, and where no paddock was sliced nothing else. -/
theorem execBudgetWindow_unsliced (s : State) (h : ∀ e ∈ s.pads, e.2.sliced = false) :
    exec .budgetWindow s = .next { s with fns := s.fns.map fun e => (e.1, e.2.window), panel := { s.panel with windowAt := s.dtick } } :=
  congrArg Host.Outcome.next (State.resumeSliced_self _ h)

theorem State.mem_unsliced {s : State} {n k : Nat} (hs : FMap.sorted s.pads = true) :
    k ∈ s.unsliced n ↔ FMap.get? s.pads k = some (s.padAt k) ∧ (s.padAt k).fn = n ∧ (s.padAt k).state = .running ∧
      (s.padAt k).asked .slice = false := by
  simp [State.unsliced, State.mem_filter_keys hs, and_assoc]

/-- R68: the end of a slice asks each RUNNING paddock of the function to pre-empt. -/
theorem execSliceEnd_spec (s : State) (n : Nat) (hs : FMap.sorted s.pads = true) :
    ∃ t, exec (.sliceEnd n) s = .next t ∧ (t.fn n).ended = true ∧ ∀ k ∈ s.unsliced n, AskedBy s t k .slice 1 := by
  refine ⟨_, rfl, ?_⟩
  have hnd : (s.unsliced n).Nodup := FMap.filter_keys_nodup _ _ hs
  obtain ⟨-, hfns, -, -, hin⟩ :=
    State.request_all .slice none (some 1) _ hnd (s.modFn n fun f => { f with ended := true })
  refine ⟨?_, fun k hk => ?_⟩
  · rw [State.fn, hfns]
    exact congrArg Func.ended (State.modFn_fn ..)
  · exact askedBy_of_get? (by decide) rfl (hin k hk _ ((State.mem_unsliced hs).mp hk).1)

-- Reclaims (R459)

theorem getElem?_setNth {α : Type} (l : List α) (i : Nat) (v w : α) (h : l[i]? = some w) : (setNth l i v)[i]? = some v := by
  induction l generalizing i with
  | nil => simp at h
  | cons x xs ih =>
    cases i with
    | zero => rfl
    | succ i => simpa [setNth] using ih i (by simpa using h)

/-- Nothing is vacated where every position asked back still holds a page. -/
theorem State.vacate_self (s : State) (k : Nat) (h : ∀ i ∈ FMap.keys (s.padAt k).reclaims, (s.padAt k).pagesAt i ≠ []) :
    s.vacate k = s := by
  have hgone : ((FMap.keys (s.padAt k).reclaims).filter fun i => ((s.padAt k).pagesAt i).isEmpty) = [] :=
    List.filter_eq_nil_iff.mpr fun i hi => by simp [h i hi]
  have hpad : s.modPadAt k (fun p => { p with chans := p.chans }) = s := s.modPadAt_self k _ fun p _ => rfl
  simp only [State.vacate, hgone, List.foldl_nil, List.filterMap_nil, List.contains_nil, Bool.not_false, hpad, List.filter_true]

/-- A position asked back that holds no page is vacant, and its channel free. -/
theorem State.vacate_position {s : State} {k pos c : Nat} {p : Paddock} (hp : FMap.get? s.pads k = some p)
    (hr : FMap.keys p.reclaims = [pos]) (hg : p.pagesAt pos = []) (hc : p.chans[pos]? = some (some c)) :
    ((s.vacate k).padAt k).chans = setNth p.chans pos none ∧ FMap.get? (s.vacate k).panel.owners c = none := by
  have hgone : ((FMap.keys p.reclaims).filter fun i => (p.pagesAt i).isEmpty) = [pos] := by simp [hr, hg]
  have hchan : [pos].filterMap (fun i => (p.chans[i]?).join) = [c] := by simp [hc]
  simp only [State.vacate, State.padAt_of_get? hp, hgone, hchan]
  refine ⟨congrArg Paddock.chans (State.padAt_modPadAt _ hp), FMap.get?_eq_none _ _ fun e he => ?_⟩
  simpa using (List.mem_filter.mp he).2

/-- The paddock as it stands once a position has been asked back. -/
theorem State.get?_reclaimed {s : State} {k pos d : Nat} {p : Paddock} (n code handle : Nat) (r0 r1 : W64)
    (hp : FMap.get? s.pads k = some p) :
    FMap.get? ((s.modPadAt k fun p => { p with reclaims := [(pos, d)] }).event n code handle r0 r1).pads k =
      some { p with reclaims := [(pos, d)] } := by
  rw [State.event_pads, State.get?_modPadAt, hp]
  rfl

section
variable {s : State} {k pos c : Nat} {p : Paddock} (hp : FMap.get? s.pads k = some p) (hc : p.chans[pos]? = some (some c))
  (hr : p.reclaims = [])
include hp hc hr

/-- A position is asked back, and vacated at once where no page of it is left. -/
theorem execReclaimReq_first : exec (.reclaimReq k pos) s =
    .next (((s.modPadAt k fun p => { p with reclaims := [(pos, s.dtick + 16000000000)] }).event p.fn evReclaim p.handle
      (w64 (p.pagesAt pos).length) (w64 pos)).vacate k) := by
  have hmod : (s.modPadAt k fun p => { p with reclaims := FMap.put p.reclaims pos (s.dtick + secs 10) }) =
      s.modPadAt k fun p => { p with reclaims := [(pos, s.dtick + 16000000000)] } :=
    s.modPadAt_congr k _ _ fun p' hp' => by
      obtain rfl : p = p' := by simpa [hp] using hp'
      simp [hr, FMap.put, secs]
  show execReclaimReq k pos s = _
  simp [execReclaimReq, State.padAt_of_get? hp, hc, hr, FMap.get?, hmod]

/-- R459: a position that holds pages is asked back, and nothing else. -/
theorem execReclaimReq_pages (hg : p.pagesAt pos ≠ []) : exec (.reclaimReq k pos) s =
    .next ((s.modPadAt k fun p => { p with reclaims := [(pos, s.dtick + 16000000000)] }).event p.fn evReclaim p.handle
      (w64 (p.pagesAt pos).length) (w64 pos)) := by
  rw [execReclaimReq_first hp hc hr, State.vacate_self]
  intro i hi
  rw [State.padAt_of_get? (State.get?_reclaimed _ _ _ _ _ hp)] at hi ⊢
  obtain rfl : i = pos := by simpa [FMap.keys] using hi
  exact hg

/-- R459: a position without pages is vacant at once, and its channel free. -/
theorem execReclaimReq_vacant (hg : p.pagesAt pos = []) : ∃ t, exec (.reclaimReq k pos) s = .next t ∧
    (t.padAt k).chans[pos]? = some none ∧ FMap.get? t.panel.owners c = none := by
  refine ⟨_, execReclaimReq_first hp hc hr, ?_⟩
  obtain ⟨hchans, hown⟩ := State.vacate_position (State.get?_reclaimed p.fn evReclaim p.handle _ _ hp) rfl hg hc
  exact ⟨by rw [hchans]; exact getElem?_setNth _ _ _ _ hc, hown⟩

end

-- The takeover (R20)

theorem State.mem_insertOutstanding (s : State) (x y : Nat × Command) (l : List (Nat × Command)) :
    y ∈ s.insertOutstanding x l ↔ y = x ∨ y ∈ l := by
  induction l with
  | nil => simp [State.insertOutstanding]
  | cons z l ih =>
    simp only [State.insertOutstanding]
    split
    · simp
    · simp only [List.mem_cons, ih]
      tauto

/-- The commands that are executed again, in ring order. -/
def State.inOrder (s : State) : List (Nat × Command) := s.outstanding.foldl (fun l x => s.insertOutstanding x l) []

theorem State.mem_inOrder (s : State) (y : Nat × Command) : y ∈ s.inOrder ↔ y ∈ s.outstanding := by
  have hfold : ∀ xs l : List (Nat × Command), y ∈ xs.foldl (fun l x => s.insertOutstanding x l) l ↔ y ∈ xs ∨ y ∈ l := by
    intro xs
    induction xs with
    | nil => simp
    | cons x xs ih => intro l; rw [List.foldl_cons, ih, State.mem_insertOutstanding]; simp only [List.mem_cons]; tauto
  rw [State.inOrder, hfold]
  simp

/-- The jobs that execute the outstanding commands again. -/
def State.rerunJobs (s : State) : List Job := s.inOrder.filterMap fun x => (commandInstr x.1 x.2).map fun i => Job.run s.cur i

theorem State.mem_rerunJobs (s : State) (j : Job) :
    j ∈ s.rerunJobs ↔ ∃ x ∈ s.outstanding, ∃ i, commandInstr x.1 x.2 = some i ∧ j = .run s.cur i := by
  simp only [State.rerunJobs, List.mem_filterMap, State.mem_inOrder, Option.map_eq_some_iff, eq_comm (a := j)]

/-- Where nothing waits for a release and no move goes on, what is outstanding waits in a ring or for a pause point. -/
theorem State.mem_outstanding {s : State} (ha : s.panel.awaits = []) (hm : ∀ e ∈ s.pads, e.2.moveCmd = none)
    (x : Nat × Command) : x ∈ s.outstanding ↔ (∃ e ∈ s.fns, x ∈ e.2.undone ∧ e.2.owes x = true) ∨
      ∃ e ∈ s.pads, ∃ q ∈ e.2.pending, ∃ c, q.cmd = some c ∧ x = (q.req.op, c) := by
  have hout : s.outstanding = (s.fns.flatMap fun e => e.2.undone.filter e.2.owes) ++
      (s.pads.flatMap fun e => e.2.pending.filterMap fun q => q.cmd.map fun c => (q.req.op, c)) := by
    rw [State.outstanding, ha, List.map_nil, List.append_nil]
    exact congrArg _ (List.flatMap_congr fun e he => by simp [hm e he])
  simp only [hout, List.mem_append, List.mem_flatMap, List.mem_filter, List.mem_filterMap, Option.map_eq_some_iff,
    eq_comm (a := x)]

/-- Where nothing waits for a release, executing again changes the agenda and what waits. -/
theorem State.rerun_eq (s : State) (ha : s.panel.awaits = []) : s.rerun = { s with
    panel := { s.panel with awaits := [] }, agenda := s.rerunJobs ++ s.agenda, fns := s.fns.map fun e => (e.1, e.2.dropOwed)
    pads := s.pads.map fun e => (e.1, { e.2 with pending := e.2.pending.filter (·.cmd.isNone), moveCmd := none }) } := by
  rw [State.rerun, ha]
  rfl

/-- A die that no paddock touches goes without a fault. -/
theorem State.loseDie_untouched (s : State) (key : Nat) (d : Die) (hk : key < 200)
    (h : ∀ e ∈ s.pads, e.2.placed = true → e.2.touches key = false) :
    s.loseDie key d = { s with panel := { s.panel with dies := FMap.put s.panel.dies key d } } := by
  have hlost : (s.pads.filter fun e => e.2.placed && e.2.touches key) = [] :=
    List.filter_eq_nil_iff.mpr fun e he => by simpa using h e he
  have hsaved : (s.pads.filter fun e => decide (200 ≤ key) && e.2.touches key &&
      (e.2.state == .preempted || (e.2.state == .held && e.2.heldFrom == .preempted))) = [] :=
    List.filter_eq_nil_iff.mpr fun e _ => by simp [Nat.not_le.mpr hk]
  simp only [State.loseDie, hlost, hsaved, List.map_nil, List.foldl_nil]

theorem Panel.die_of_put {q : Panel} {m : FMap Die} {k : Nat} {d : Die} (h : q.dies = FMap.put m k d) : q.die k = d := by
  rw [Panel.die, h, FMap.getD_put_same]

section
variable (s : State) (h : s.panel.shep = 105) (ht : ∀ e ∈ s.pads, e.2.placed = true → e.2.touches 105 = false)
  (ha : s.panel.awaits = []) (hm : ∀ e ∈ s.pads, e.2.moveCmd = none)
include h ht ha hm

/-- R20: the role moves to the standby; what has no completion entry is executed again. -/
theorem execShepherdTakeover_spec : ∃ t jobs, exec .shepherdTakeover s = .next t ∧ t.panel.shep = 114 ∧
    (t.panel.die 105).failed = true ∧ t.fns = s.fns.map (fun e => (e.1, e.2.dropOwed)) ∧ t.dtick = s.dtick ∧
    t.agenda = jobs ++ s.agenda ∧
    t.pads = s.pads.map (fun e => (e.1, { e.2 with pending := e.2.pending.filter (·.cmd.isNone), moveCmd := none })) ∧
    ∀ j, j ∈ jobs ↔ (∃ e ∈ s.pads, ∃ q ∈ e.2.pending, ∃ c i, q.cmd = some c ∧ commandInstr q.req.op c = some i ∧
      j = .run s.cur i) ∨ (∃ e ∈ s.fns, ∃ x ∈ e.2.undone, ∃ i, e.2.owes x = true ∧ commandInstr x.1 x.2 = some i ∧
      j = .run s.cur i) := by
  generalize hr : ({ s with panel := { s.panel with shep := 114 } } : State) = r
  have hpads : r.pads = s.pads := by rw [← hr]
  have hfns : r.fns = s.fns := by rw [← hr]
  have hcur : r.cur = s.cur := by rw [← hr]
  have haw : r.panel.awaits = [] := by rw [← hr]; exact ha
  have hrole : s.takeRole = r.rerun := by rw [← hr]; rfl
  have hexec : exec .shepherdTakeover s = .next (r.rerun.loseDie 105 { s.panel.die 105 with failed := true }) := by
    show execShepherdTakeover s = _
    rw [execShepherdTakeover, if_pos h, hrole]
  have huntouched : ∀ e ∈ r.rerun.pads, e.2.placed = true → e.2.touches 105 = false := by
    rw [r.rerun_eq haw]
    intro e he
    obtain ⟨e', he', rfl⟩ := List.mem_map.mp he
    exact ht e' (hpads ▸ he')
  rw [hexec, State.loseDie_untouched _ _ _ (by decide) huntouched, r.rerun_eq haw]
  refine ⟨_, r.rerunJobs, rfl, by simp [← hr],
    by rw [Panel.die_of_put (k := 105) (d := { s.panel.die 105 with failed := true }) rfl],
    by simp [hfns], by simp [← hr], by simp [← hr], by simp [hpads], fun j => ?_⟩
  rw [State.mem_rerunJobs]
  simp only [State.mem_outstanding haw (hpads ▸ hm), hpads, hfns, hcur]
  constructor
  · rintro ⟨x, ⟨e, he, hx, ho⟩ | ⟨e, he, q, hq, c, hc, rfl⟩, i, hi, rfl⟩
    · exact .inr ⟨e, he, x, hx, i, ho, hi, rfl⟩
    · exact .inl ⟨e, he, q, hq, c, i, hc, hi, rfl⟩
  · rintro (⟨e, he, q, hq, c, i, hc, hi, rfl⟩ | ⟨e, he, x, hx, i, ho, hi, rfl⟩)
    · exact ⟨_, .inr ⟨e, he, q, hq, c, hc, rfl⟩, i, hi, rfl⟩
    · exact ⟨x, .inl ⟨e, he, hx, ho⟩, i, hi, rfl⟩

end

/-- What waits once the commands are dropped: events. -/
theorem Func.dropOwed_eq (f : Func) (event : List W64 → Bool)
    (h : ∀ ws, event ws = match ws with
      | a :: _ => bits a 7 0 == 0xF0
      | [] => true) :
    f.dropOwed = { f with held := f.held.filter event, blocked := f.blocked.filter event, undone := [] } := by
  obtain rfl : event = _ := funext h
  rfl

/-- Settles O53: each turn of the Shepherd by its own rule above. -/
theorem shepherdTurns : Obligations.ShepherdTurns := by
  unfold Obligations.ShepherdTurns
  intro s hs asked
  refine ⟨fun n x hx hl hh hv => ?_, fun n x hx hl => execHeartbeatTimeout_heard s n x hx hl, fun h => ?_, fun n => ?_,
    fun k pos c hp hc hr hg => execReclaimReq_pages hp hc hr hg, fun k pos c hp hc hr hg => execReclaimReq_vacant hp hc hr hg,
    fun h ht ha hm => ?_, fun h => ?_⟩
  · have hpads := s.event_pads n evHbTimeout noHandle 0 0
    have hpad : ∀ k, (s.event n evHbTimeout noHandle 0 0).padAt k = s.padAt k := fun k => State.padAt_congr (by rw [hpads])
    obtain ⟨hhold, hsealed⟩ := State.sealWorld_spec (s.event n evHbTimeout noHandle 0 0) n (by rw [hpads]; exact hs)
    refine ⟨_, execHeartbeatTimeout_late s n x hx hl hh hv, by rw [hhold, State.event_dtick], fun k hk => ?_⟩
    have hboth := hsealed k (by rw [State.liveHandles_congr n hpads]; exact hk)
    simp only [AskedBy, hpad] at hboth
    exact hboth
  · refine ⟨_, execBudgetWindow_unsliced s h, rfl, rfl, fun n => ?_⟩
    intro f
    rw [State.fn_map s _ n Func.window rfl rfl]
    exact ⟨rfl, rfl, rfl⟩
  · obtain ⟨t, ht, hended, hasked⟩ := execSliceEnd_spec s n hs
    refine ⟨t, ht, hended, fun k hk hn hr ha => hasked k ((State.mem_unsliced hs).mpr ⟨?_, hn, hr, ha⟩)⟩
    obtain ⟨e, he, rfl⟩ := List.mem_map.mp hk
    rw [State.padAt_of_mem hs he]
    exact State.get?_of_mem hs he
  · intro event
    obtain ⟨t, jobs, ht, hshep, hdie, hfns, hd, hag, hpads, hjobs⟩ := execShepherdTakeover_spec s h ht ha hm
    refine ⟨t, jobs, ht, hshep, hdie, ?_, hd, hag, hpads, hjobs, fun hp hu => ?_⟩
    · rw [hfns]
      exact List.map_congr_left fun e _ => by rw [Func.dropOwed_eq e.2 event fun ws => rfl]
    · refine List.eq_nil_iff_forall_not_mem.mpr fun j hj => ?_
      rcases (hjobs j).mp hj with ⟨e, he, q, hq, c, i, hc, -⟩ | ⟨e, he, x, hx, -⟩
      · rw [hp e he q hq] at hc; cases hc
      · rw [hu e he] at hx; cases hx
  · show execShepherdTakeover s = _
    rw [execShepherdTakeover, if_neg h]

end Sys2Proof.Machine

-- Destruction (R71, R457)

namespace Sys2Proof.Machine

/-- Two states differ in the functions' rings and handles at most: the paddocks, the panel and the accounts are the same. -/
def OnlyRings (s t : State) : Prop := t.pads = s.pads ∧ t.panel = s.panel ∧ ∀ n, (t.fn n).account = (s.fn n).account

theorem OnlyRings.refl (s : State) : OnlyRings s s := ⟨rfl, rfl, fun _ => rfl⟩

theorem OnlyRings.trans {s t u : State} (h : OnlyRings s t) (g : OnlyRings t u) : OnlyRings s u :=
  ⟨g.1.trans h.1, g.2.1.trans h.2.1, fun n => (g.2.2 n).trans (h.2.2 n)⟩

theorem onlyRings_done (s : State) (op : Nat) (c : Command) (st : Nat) (r0 r1 : W64) : OnlyRings s (s.done op c st r0 r1) :=
  ⟨s.done_pads .., s.done_panel .., s.done_account op c st r0 r1⟩

theorem onlyRings_endReq (s : State) (q : Pending) (st : Nat) (r0 : W64) : OnlyRings s (s.endReq q st r0) :=
  ⟨s.endReq_pads .., s.endReq_panel .., s.endReq_account q st r0⟩

theorem onlyRings_foldl {α : Type} (f : State → α → State) (hf : ∀ s x, OnlyRings s (f s x)) (l : List α) (s : State) :
    OnlyRings s (l.foldl f s) := by
  induction l generalizing s with
  | nil => exact .refl s
  | cons x l ih => exact (hf s x).trans (ih _)

@[simp] theorem Paddock.dropStop_fn (p : Paddock) : p.dropStop.fn = p.fn := by unfold Paddock.dropStop; split <;> rfl
@[simp] theorem Paddock.dropStop_handle (p : Paddock) : p.dropStop.handle = p.handle := by
  unfold Paddock.dropStop; split <;> rfl

/-- The completions of what waits at the paddock of key k: its requests, its move, and the commands that await its release (R71). -/
def State.endPending (s : State) (k : Nat) : State :=
  let p := s.padAt k
  let u := p.pending.foldl (fun s q => s.endReq q stBadState 0) s
  let u := match p.moveCmd with
    | some c => u.done 0x07 c stBadState 0 0
    | none => u
  (u.panel.awaits.filter fun a => a.pads.contains k && a.op != 0x12).foldl (fun s a => s.done a.op a.cmd stBadState 0 0) u

theorem onlyRings_endPending (s : State) (k : Nat) : OnlyRings s (s.endPending k) := by
  refine (onlyRings_foldl _ (fun s q => onlyRings_endReq s q stBadState 0) (s.padAt k).pending s).trans ?_
  refine OnlyRings.trans ?_ (onlyRings_foldl _ (fun s (a : Await) => onlyRings_done s a.op a.cmd stBadState 0 0) _ _)
  split
  · exact onlyRings_done ..
  · exact .refl _

theorem State.failPending_pads (s : State) (k : Nat) : (s.failPending k).pads =
    FMap.modify s.pads k fun p => { p.dropStop with pending := [], moveCmd := none } := by
  rw [← (onlyRings_endPending s k).1]; rfl

theorem State.failPending_panel (s : State) (k : Nat) : ∃ a, (s.failPending k).panel = { s.panel with awaits := a } :=
  ⟨_, by rw [← (onlyRings_endPending s k).2.1]; rfl⟩

theorem State.failPending_account (s : State) (k n : Nat) : ((s.failPending k).fn n).account = (s.fn n).account :=
  (onlyRings_endPending s k).2.2 n

theorem State.leaveDies_pads (s : State) (k : Nat) : (s.leaveDies k).pads =
    FMap.modify s.pads k fun p => { p with bases := [], rises := [] } := rfl

theorem State.leaveDies_panel (s : State) (k : Nat) : ∃ d, (s.leaveDies k).panel = { s.panel with dieTop := d } := ⟨_, rfl⟩

/-- A destroyed paddock: its handle is all that is left (R457). -/
def Paddock.destroyed (p : Paddock) : Paddock := { Paddock.init with fn := p.fn, handle := p.handle, state := .destroyed }

/-- A paddock destroyed, before the world key goes with the last handle. -/
def State.emptyPad (s : State) (k : Nat) : State :=
  let u := (s.failPending k).leaveDies k
  ({ u with panel := u.panel.disown k } : State).modPadAt k Paddock.destroyed

theorem State.destroyPad_cases (s : State) (k : Nat) : s.destroyPad k = s.emptyPad k ∨
    ∃ n, s.destroyPad k = (s.emptyPad k).modFn n fun f => { f with worldKey := none } := by
  unfold State.destroyPad
  simp only
  split
  · exact .inr ⟨_, rfl⟩
  · exact .inl rfl

theorem State.destroyPad_pads (s : State) (k : Nat) : (s.destroyPad k).pads = FMap.modify s.pads k Paddock.destroyed := by
  have hempty : (s.emptyPad k).pads = FMap.modify s.pads k Paddock.destroyed := by
    show FMap.modify ((s.failPending k).leaveDies k).pads k Paddock.destroyed = _
    rw [State.leaveDies_pads, State.failPending_pads, FMap.modify_modify, FMap.modify_modify]
    exact FMap.modify_congr _ _ _ _ fun p _ => by simp [Paddock.destroyed]
  rcases s.destroyPad_cases k with h | ⟨n, h⟩ <;> rw [h]
  · exact hempty
  · exact hempty

theorem State.destroyPad_panel (s : State) (k : Nat) : ∃ a d o,
    (s.destroyPad k).panel = { s.panel with awaits := a, dieTop := d, owners := o } := by
  obtain ⟨a, ha⟩ := s.failPending_panel k
  obtain ⟨d, hd⟩ := (s.failPending k).leaveDies_panel k
  have hempty : (s.emptyPad k).panel = ((s.failPending k).leaveDies k).panel.disown k := rfl
  rw [hd, ha] at hempty
  refine ⟨a, d, (Panel.disown s.panel k).owners, ?_⟩
  rcases s.destroyPad_cases k with h | ⟨n, h⟩ <;> rw [h]
  · exact hempty
  · exact hempty

theorem State.destroyPad_account (s : State) (k n : Nat) : ((s.destroyPad k).fn n).account = (s.fn n).account := by
  have hempty : ((s.emptyPad k).fn n).account = (s.fn n).account := s.failPending_account k n
  rcases s.destroyPad_cases k with h | ⟨m, h⟩ <;> rw [h]
  · exact hempty
  · exact (State.account_modFn _ _ _ (fun f => { f with worldKey := none }) fun _ => rfl).trans hempty

theorem onlyPad_destroyPad (s : State) (k : Nat) : OnlyPad k s (s.destroyPad k) := fun j hj => by
  rw [State.destroyPad_pads, FMap.get?_modify_ne _ _ _ _ hj]

theorem State.get?_destroyPad {s : State} {k : Nat} {p : Paddock} (h : FMap.get? s.pads k = some p) :
    FMap.get? (s.destroyPad k).pads k = some p.destroyed := by
  rw [State.destroyPad_pads, FMap.get?_modify_same, h]; rfl

-- Resets (R24, R53, R478)

/-- R53, R478: a function-level reset destroys the function's paddocks and no other, and keeps its budget. -/
theorem execFunctionLevelReset_spec (s : State) (n : Nat) (hs : FMap.sorted s.pads = true) :
    ∃ (t : State) (g : Func), exec (.functionLevelReset n) s = .next t ∧ (∀ k ∈ s.liveHandles n, (t.padAt k).state = .destroyed) ∧
      (∀ k, k ∉ s.liveHandles n → t.padAt k = s.padAt k) ∧ t.fn n = g.flr ∧ g.account = (s.fn n).account := by
  obtain ⟨hout, hin⟩ := State.foldl_onlyPad (fun _ => ()) State.destroyPad (fun _ _ => rfl) onlyPad_destroyPad _
    (s.liveHandles_nodup n hs) s
  have hacc := State.foldl_keeps (fun u => (u.fn n).account) State.destroyPad (fun u k => u.destroyPad_account k n)
    (s.liveHandles n) s
  refine ⟨_, _, rfl, fun k hk => ?_, fun k hk => State.padAt_congr (hout k hk), State.modFn_fn _ n Func.flr, hacc⟩
  obtain ⟨u, -, hu, ht⟩ := hin k hk
  have hget := State.get?_destroyPad (hu.trans ((State.mem_liveHandles hs).mp hk).1)
  exact congrArg Paddock.state (State.padAt_of_get? (ht.trans hget))

-- Pastures (R94 to R96)

theorem bit_eq_getLsbD (w : W64) (i : Nat) : bit w i = w.getLsbD i := rfl

theorem execPcommit_neutral (s : State) (v : W64) (h : v.getLsbD 0 = false ∨ s.panel.pstat = 1) :
    exec (.pcommit v) s = .next s := by
  show execPcommit v s = _
  exact if_pos (by simpa [bit_eq_getLsbD] using h)

section
variable (s : State) (v : W64) (hv : v.getLsbD 0 = true) (hq : s.panel.pstat ≠ 1)
include hv hq

theorem execPcommit_asks : exec (.pcommit v) s = .next ((s.affectedPads.foldl
    (fun (s : State) k => s.request k .partition none (some 2)) { s with panel := { s.panel with pstat := 1 } }).applyPastures) := by
  show execPcommit v s = _
  exact if_neg (by rw [bit_eq_getLsbD, hv]; simp [hq])

/-- R95: with no paddock in the way the staged pastures are live at once. -/
theorem execPcommit_free (h : ∀ e ∈ s.pads, s.affected e.2 = false) : exec (.pcommit v) s = .next { s with
    panel := { s.panel with pstat := 0, dieLive := s.panel.diePast, fnLive := s.panel.fnPast }
    pads := s.pads.map fun e => (e.1, { e.2 with pending := e.2.pending.filter (·.req != .partition) }) } := by
  have hnone : s.affectedPads = [] := by
    rw [State.affectedPads, List.filter_eq_nil_iff.mpr fun e he => by simp [h e he]]; rfl
  rw [execPcommit_asks s v hv hq, hnone]
  exact congrArg Host.Outcome.next (if_pos ⟨rfl, congrArg List.isEmpty hnone⟩)

/-- R95: a paddock in the way is asked to give way, and the change waits. -/
theorem execPcommit_waits (k : Nat) (hs : FMap.sorted s.pads = true) (h : s.affectedPads = [k]) :
    ∃ t, exec (.pcommit v) s = .next t ∧ t.panel = { s.panel with pstat := 1 } ∧ AskedBy s t k .partition 2 := by
  obtain ⟨hget, haff⟩ := (State.mem_filter_keys hs).mp (show k ∈ s.affectedPads by simp [h])
  obtain ⟨q, hq', hreq⟩ := ({ s with panel := { s.panel with pstat := 1 } } : State).get?_request k .partition none (some 2) hget
  rw [execPcommit_asks s v hv hq, h, List.foldl_cons, List.foldl_nil]
  generalize ht : State.request _ k _ _ _ = t at hreq
  have hstill : t.affectedPads ≠ [] := by
    have hmem : k ∈ t.affectedPads := List.mem_map.mpr ⟨_, List.mem_filter.mpr ⟨FMap.entry_mem_of_get? _ _ _ hreq, ?_⟩, rfl⟩
    · exact List.ne_nil_of_mem hmem
    · rw [← ht]; exact haff
  have hwait : t.applyPastures = t := if_neg (by simp [hstill])
  refine ⟨t, by rw [hwait], by rw [← ht]; rfl, askedBy_of_get? (by decide) rfl ⟨q, hq', hreq⟩⟩

end

/-- A paddock whose part in a change of the pastures is withdrawn. -/
def Paddock.unasked (p : Paddock) : Paddock := { p with pending := p.pending.filter (·.req != .partition) }

theorem State.get?_dropPartition (s : State) (k : Nat) :
    FMap.get? s.dropPartition.pads k = (FMap.get? s.pads k).map Paddock.unasked :=
  FMap.get?_map s.pads k fun _ => Paddock.unasked

/-- R96: the paddock that did not give way is destroyed, and the change fails for the others. -/
theorem execPartitionRequestTimeout_spec (s : State) (k : Nat) (h : s.panel.pstat = 1)
    (hk : FMap.get? s.pads k = some (s.padAt k)) : ∃ t, exec (.partitionRequestTimeout k) s = .next t ∧
      (∃ a d o, t.panel = { s.panel with pstat := 2, awaits := a, dieTop := d, owners := o }) ∧
      (t.padAt k).state = .destroyed ∧
      (∀ j, j ≠ k → (t.padAt j).pending = (s.padAt j).pending.filter (·.req != .partition)) ∧
      ∃ u : State, t = u.event (s.padAt k).fn 0x0A (s.padAt k).handle 0x212 0 := by
  generalize hd : State.dropPartition { s with panel := { s.panel with pstat := 2 } } = d
  have hget : ∀ j, FMap.get? d.pads j = (FMap.get? s.pads j).map Paddock.unasked := fun j => by
    rw [← hd]; exact State.get?_dropPartition _ j
  have hexec : exec (.partitionRequestTimeout k) s = .next (d.destroyFor k (0x12 + 2 * 256)) := by
    rw [← hd]
    exact if_neg (by simp [h])
  have hpad : d.padAt k = (s.padAt k).unasked :=
    State.padAt_of_get? (by rw [hget, hk]; rfl)
  have hdead : FMap.get? (d.destroyPad k).pads k = some (d.padAt k).destroyed :=
    State.get?_destroyPad (by rw [hpad, hget, hk]; rfl)
  obtain ⟨a, e, o, hpanel⟩ := d.destroyPad_panel k
  refine ⟨_, hexec, ⟨a, e, o, ?_⟩, ?_, fun j hj => ?_, d.destroyPad k, ?_⟩
  · rw [State.destroyFor, State.event_panel, hpanel, ← hd]; rfl
  · rw [State.padAt_of_get? (p := (d.padAt k).destroyed) (by rw [State.destroyFor, State.event_pads, hdead])]; rfl
  · have hsame : FMap.get? (d.destroyFor k (0x12 + 2 * 256)).pads j = FMap.get? d.pads j := by
      rw [State.destroyFor, State.event_pads]; exact onlyPad_destroyPad d k j hj
    rw [State.padAt, FMap.getD, hsame, hget, State.padAt, FMap.getD]
    cases FMap.get? s.pads j <;> rfl
  · rw [State.destroyFor, hpad]; rfl

-- PANELNO (R400)

theorem State.anyStarted_iff (s : State) :
    s.anyStarted = true ↔ ∃ e ∈ s.pads, e.2.state ∈ [PState.running, .preempted, .halted] := by
  simp [State.anyStarted, or_assoc]

theorem execPanelnoWrite_none (s : State) (v : W64) (h : ∀ e ∈ s.pads, e.2.state ∉ [PState.running, .preempted, .halted]) :
    exec (.panelnoWrite v) s = .next { s with panel := { s.panel with panelno := v &&& 31 } } := by
  have hnone : ¬ s.anyStarted = true := fun ha => by
    obtain ⟨e, he, hst⟩ := s.anyStarted_iff.mp ha
    exact h e he hst
  have hmask : span 4 0 = 31 := by decide
  show execPanelnoWrite v s = _
  rw [execPanelnoWrite, if_neg hnone, hmask]

theorem execPanelnoWrite_started (s : State) (v : W64) (h : ∃ e ∈ s.pads, e.2.state ∈ [PState.running, .preempted, .halted]) :
    exec (.panelnoWrite v) s = .next s := congrArg Host.Outcome.next (if_pos (s.anyStarted_iff.mpr h))

-- Error injection (R475)

/-- Striking a word inverts its bits and no other word's. -/
theorem Store.strike_errs (st : Store) (w u : Nat) (m : W64) (h : FMap.sorted st.errs = true) :
    FMap.getD (st.strike w m).errs u 0 = if u = w then FMap.getD st.errs w 0 ^^^ m else FMap.getD st.errs u 0 := by
  simp only [Store.strike]
  by_cases hu : u = w
  · subst hu
    rw [if_pos rfl]
    split
    · next h0 => rw [h0, FMap.getD, FMap.get?_del_same _ _ h]; rfl
    · exact FMap.getD_put_same ..
  · rw [if_neg hu]
    split
    · rw [FMap.getD, FMap.get?_del_ne _ _ _ hu]; rfl
    · exact FMap.getD_put_ne _ _ _ _ _ hu

theorem State.padOf_setTile (s : State) (x : Tile) (k : Nat) : (s.setTile x).padOf k =
    if k = s.cur.pad then { s.pad with tiles := FMap.put s.pad.tiles s.cur.tile x } else s.padOf k := by
  by_cases hk : k = s.cur.pad
  · subst hk; rw [if_pos rfl]; exact s.setTile_pad x
  · rw [if_neg hk]; exact FMap.getD_put_ne _ _ _ _ _ hk

theorem State.tileOf_setTile (s : State) (x : Tile) (k i : Nat) :
    (s.setTile x).tileOf k i = if k = s.cur.pad ∧ i = s.cur.tile then x else s.tileOf k i := by
  rw [State.tileOf, State.padOf_setTile]
  by_cases hk : k = s.cur.pad
  · subst hk
    rw [if_pos rfl]
    by_cases hi : i = s.cur.tile
    · subst hi; simp
    · rw [if_neg (fun h => hi h.2)]
      exact FMap.getD_put_ne _ _ _ _ _ hi
  · rw [if_neg hk, if_neg (fun h => hk h.1)]
    rfl

theorem State.padOf_setTile_hbm (s : State) (x : Tile) (k : Nat) : ((s.setTile x).padOf k).hbm = (s.padOf k).hbm := by
  rw [State.padOf_setTile]
  split
  · next h => rw [h]; rfl
  · rfl

/-- A tile whose stores hold the same bytes as before leaves every memory as it was. -/
theorem sameMemory_setTile (s : State) (x : Tile) (hp : x.st.pool.bytes = s.tile.st.pool.bytes)
    (hi : x.st.istore = s.tile.st.istore) (hc : x.st.cstore = s.tile.st.cstore) (ht : x.st.tmem = s.tile.st.tmem) :
    SameMemory s (s.setTile x) := by
  have htile : ∀ k i, ((s.setTile x).tileOf k i).st.pool.bytes = (s.tileOf k i).st.pool.bytes ∧
      ((s.setTile x).tileOf k i).st.istore = (s.tileOf k i).st.istore ∧
      ((s.setTile x).tileOf k i).st.cstore = (s.tileOf k i).st.cstore ∧
      ((s.setTile x).tileOf k i).st.tmem = (s.tileOf k i).st.tmem := fun k i => by
    rw [State.tileOf_setTile]
    split
    · next h => obtain ⟨rfl, rfl⟩ := h; exact ⟨hp, hi, hc, ht⟩
    · exact ⟨rfl, rfl, rfl, rfl⟩
  intro m a
  cases m with
  | pool k i => simp only [State.byteAt, (htile k i).1]
  | istore k i => simp only [State.byteAt, (htile k i).2.1]
  | cstore k i => simp only [State.byteAt, (htile k i).2.2.1]
  | table k i => simp only [State.byteAt, (htile k i).2.2.2]
  | hbm k => simp only [State.byteAt, State.padOf_setTile_hbm]
  | host => rfl

/-- A word of the pool of the tile at c is struck: its bits are inverted, and every memory reads as before (R475). -/
theorem strikePool_at (s : State) (c : Ctx) (w : Nat) (m : W64) (x : Tile)
    (hx : FMap.get? (s.padAt c.pad).tiles c.tile = some x) (hs : FMap.sorted x.st.pool.errs = true) :
    let t := s.onPad c.pad fun s => s.atTile c.tile fun s => s.strikePool w m
    SameMemory s t ∧ t.panel = s.panel ∧ ∀ u, FMap.getD (t.tileOf c.pad c.tile).st.pool.errs u 0 =
      if u = w then FMap.getD x.st.pool.errs w 0 ^^^ m else FMap.getD x.st.pool.errs u 0 := by
  intro t
  generalize hr : ({ s with cur := c } : State) = r
  have hcur : r.cur = c := by rw [← hr]
  have htile : r.tile = x := by
    have hpad : r.pad = s.padAt c.pad := by rw [← hr]; rfl
    rw [State.tile, hpad, hcur, FMap.getD, hx]; rfl
  have ht : t = { r.strikePool w m with cur := s.cur } := by rw [← hr]; rfl
  have hstruck : t.tileOf c.pad c.tile = x.modPool fun st => st.strike w m := by
    have : t.tileOf c.pad c.tile = (r.strikePool w m).tileOf c.pad c.tile := by rw [ht]; rfl
    rw [this, State.strikePool, State.modTile, State.tileOf_setTile, if_pos ⟨by rw [hcur], by rw [hcur]⟩, htile]
  refine ⟨?_, by rw [ht, ← hr]; rfl, fun u => ?_⟩
  · have hsame : SameMemory r (r.strikePool w m) := sameMemory_setTile r _ rfl rfl rfl rfl
    intro n a
    rw [ht, show s.byteAt n a = r.byteAt n a by rw [← hr]; rfl]
    exact hsame n a
  · rw [hstruck]
    exact Store.strike_errs _ _ _ _ hs

theorem execEinjctlGo_neutral (s : State) (v : W64) (h : v.getLsbD 63 = false ∨ einjTile s.panel.einjaddr = none) :
    exec (.einjctlGo v) s = .next s := by
  show execEinjctlGo v s = _
  simp only [execEinjctlGo]
  split
  · rfl
  · next hsome =>
    rcases h with h | h
    · rw [bit_eq_getLsbD, h]; rfl
    · rw [h] at hsome; cases hsome

section
variable {s : State} {v : W64} {die row pcol : Nat} (ha : einjTile s.panel.einjaddr = some (die, row, pcol))
include ha

theorem execEinjctlGo_addressed : exec (.einjctlGo v) s = .next (
    if !bit v 63 || s.panel.closed die row pcol || s.shielded (die * 72 + row * 9 + pcol) then s
    else s.strikePhys (die * 72 + row * 9 + pcol) (bits s.panel.einjaddr 41 24) (einjMask v)) := by
  show execEinjctlGo v s = _
  simp only [execEinjctlGo, ha]

theorem execEinjctlGo_out (h : (s.panel.die die).out = true) : exec (.einjctlGo v) s = .next s := by
  rw [execEinjctlGo_addressed ha, Panel.closed, h]
  simp

theorem execEinjctlGo_strikes (hv : v.getLsbD 63 = true) (hc : s.panel.closed die row pcol = false)
    (hs : s.shielded (die * 72 + row * 9 + pcol) = false) : exec (.einjctlGo v) s =
      .next (s.strikePhys (die * 72 + row * 9 + pcol) (bits s.panel.einjaddr 41 24) (einjMask v)) := by
  rw [execEinjctlGo_addressed ha, hc, hs, bit_eq_getLsbD, hv]
  rfl

end

theorem State.shielded_none (s : State) (ph : Nat) (hi : s.incoming ph = none)
    (ho : ∀ k i, s.onPhys ph = some (k, i) → (s.fn (s.padAt k).fn).session = none) : s.shielded ph = false := by
  rw [State.shielded, hi]
  cases h : s.onPhys ph with
  | none => rfl
  | some x => simp [Func.inSession, ho x.1 x.2 h]

theorem State.onPad_atTile (s : State) (k i : Nat) (f : State → State) :
    (s.onPad k fun s => s.atTile i f) = { f { s with cur := { pad := k, tile := i } } with cur := s.cur } := rfl

theorem State.strikeTile_uncopied (s : State) (w : Nat) (m : W64)
    (h : ∀ r ∈ s.panel.retires, ∀ e ∈ r.copied, e.1 ≠ s.cur) : s.strikeTile w m = s.strikePool w m := by
  have hnone : s.copyEnd = none := by
    rw [State.copyEnd, List.findSome?_eq_none_iff]
    intro r hr
    rw [List.find?_eq_none.mpr fun e he => by simpa using h r hr e he]
    rfl
  simp only [State.strikeTile, hnone]

theorem State.strikeTile_copied (s : State) (w d : Nat) (m : W64) (r : Retire) (h : s.panel.retires = [r])
    (hr : r.copied = [(s.cur, d)]) (hd : d ≤ s.dtick) :
    s.strikeTile w m = { s with panel := s.panel.strikeFree (s.physOf s.pad s.cur.tile) w m } := by
  have hend : s.copyEnd = some d := by simp [State.copyEnd, h, hr]
  simp only [State.strikeTile, hend]
  exact if_neg fun hlt => Nat.not_lt.mpr hd hlt.1

/-- The tile found on a physical tile stands there. -/
theorem State.physOf_onPhys {s : State} {ph k i : Nat} (hs : FMap.sorted s.pads = true) (h : s.onPhys ph = some (k, i)) :
    s.physOf (s.padAt k) i = ph := by
  obtain ⟨e, he, hf⟩ := List.exists_of_findSome?_eq_some h
  split at hf
  · obtain ⟨j, hj, hji⟩ := Option.map_eq_some_iff.mp hf
    obtain ⟨rfl, rfl⟩ := Prod.mk.inj hji
    rw [State.padAt_of_mem hs he]
    simpa using List.find?_some hj
  · cases hf

section
variable {s : State} {ph w : Nat} {m : W64}

theorem State.strikePhys_incoming {c : Ctx} (hi : s.incoming ph = some c) :
    s.strikePhys ph w m = s.onPad c.pad fun s => s.atTile c.tile fun s => s.strikePool w m := by
  simp only [State.strikePhys, hi]

variable (hi : s.incoming ph = none)
include hi

theorem State.strikePhys_bare (ho : s.onPhys ph = none) : s.strikePhys ph w m = { s with panel := s.panel.strikeFree ph w m } := by
  simp only [State.strikePhys, hi, ho]

theorem State.strikePhys_tile {k i : Nat} (ho : s.onPhys ph = some (k, i)) :
    s.strikePhys ph w m = s.onPad k fun s => s.atTile i fun s => s.strikeTile w m := by
  simp only [State.strikePhys, hi, ho]

/-- A tile that no row shift copies holds the error itself. -/
theorem State.strikePhys_uncopied {k i : Nat} (ho : s.onPhys ph = some (k, i))
    (hr : ∀ r ∈ s.panel.retires, ∀ e ∈ r.copied, e.1 ≠ { pad := k, tile := i }) :
    s.strikePhys ph w m = s.onPad k fun s => s.atTile i fun s => s.strikePool w m := by
  rw [State.strikePhys_tile hi ho, State.onPad_atTile, State.onPad_atTile, State.strikeTile_uncopied _ _ _ hr]

/-- Where the tile that stands there has been copied away, the physical tile alone holds the error. -/
theorem State.strikePhys_copied {k i d : Nat} {r : Retire} (hs : FMap.sorted s.pads = true) (ho : s.onPhys ph = some (k, i))
    (h : s.panel.retires = [r]) (hr : r.copied = [({ pad := k, tile := i }, d)]) (hd : d ≤ s.dtick) :
    s.strikePhys ph w m = { s with panel := s.panel.strikeFree ph w m } := by
  rw [State.strikePhys_tile hi ho, State.onPad_atTile,
    State.strikeTile_copied { s with cur := { pad := k, tile := i } } w d m r h hr hd]
  have hph := State.physOf_onPhys hs ho
  subst hph
  rfl

end

/-- A word struck on a free tile is inverted there, and no other. -/
theorem Panel.strikeFree_struck (q : Panel) (ph w ph' u : Nat) (m : W64) :
    FMap.getD (FMap.getD (q.strikeFree ph w m).struck ph' []) u 0 =
      if (ph', u) = (ph, w) then FMap.getD (FMap.getD q.struck ph []) w 0 ^^^ m else FMap.getD (FMap.getD q.struck ph' []) u 0 := by
  simp only [Panel.strikeFree]
  by_cases hp : ph' = ph
  · subst hp
    by_cases hu : u = w
    · subst hu; simp
    · rw [if_neg (by simp [hu]), FMap.getD_put_same, FMap.getD_put_ne _ _ _ _ _ hu]
  · rw [if_neg (by simp [hp]), FMap.getD_put_ne _ _ _ _ _ hp]

/-- Settles O59: each reset, host write and deadline by its own rule above. -/
theorem powerAndPanel : Obligations.PowerAndPanel := by
  unfold Obligations.PowerAndPanel
  intro s hs lasts
  refine ⟨⟨_, rfl, ⟨rfl, rfl, rfl, rfl, rfl, rfl, rfl, rfl, rfl, rfl, rfl, rfl⟩, rfl, rfl, rfl⟩,
    ⟨_, rfl, ⟨rfl, rfl, rfl, rfl, rfl, rfl, rfl, rfl, rfl, rfl, rfl, rfl⟩, rfl, rfl⟩, fun n => ?_,
    fun v hv hq h => execPcommit_free s v hv hq h, fun v k hv hq h => ?_, fun v h => execPcommit_neutral s v h,
    fun k h hk => ?_, fun v h => execPanelnoWrite_none s v h, fun v h => execPanelnoWrite_started s v h,
    fun v die row pcol k i x hv ha hc ho hn hx hes hr hi => ?_, fun v die row pcol c x hv ha hc hi hsh hx hes => ?_,
    fun v die row pcol ha h => execEinjctlGo_out ha h, fun v die row pcol hv ha hc hi ho => ?_,
    fun v h => execEinjctlGo_neutral s v h⟩
  · obtain ⟨t, g, ht, hdead, hkeep, hg, hacc⟩ := execFunctionLevelReset_spec s n hs
    simp only [Func.account, Prod.mk.injEq] at hacc
    obtain ⟨hb, hnb, hu⟩ := hacc
    refine ⟨t, ht, hdead, hkeep, ?_⟩
    rw [hg, ← hb, ← hnb, ← hu]
    exact ⟨rfl, rfl, rfl, rfl, rfl, rfl, rfl, rfl, rfl, rfl, rfl⟩
  · obtain ⟨t, ht, hpanel, q, hq'⟩ := execPcommit_waits s v hv hq k hs h
    exact ⟨t, q, ht, hpanel, hq'⟩
  · obtain ⟨t, ht, ⟨a, d, o, hpanel⟩, hdead, hothers, hevent⟩ := execPartitionRequestTimeout_spec s k h hk
    exact ⟨t, ht, by rw [hpanel], by rw [hpanel], by rw [hpanel], by rw [hpanel], hdead, hothers, hevent⟩
  · intro w b mask
    have hsh := s.shielded_none _ hi fun k' i' h' => by
      rw [ho] at h'; obtain ⟨rfl, rfl⟩ := Prod.mk.inj (Option.some.inj h'); exact hn
    obtain ⟨hmem, -, herrs⟩ := strikePool_at s { pad := k, tile := i } w mask x hx hes
    refine ⟨_, (execEinjctlGo_strikes ha hv hc hsh).trans (by rw [State.strikePhys_uncopied hi ho hr]; rfl), hmem, ?_, ?_⟩
    · rw [herrs, if_pos rfl]
    · exact fun u hu => by rw [herrs, if_neg hu]
  · intro w b
    obtain ⟨hmem, hpanel, herrs⟩ := strikePool_at s c w (einjMask v) x hx hes
    refine ⟨_, (execEinjctlGo_strikes ha hv hc hsh).trans (by rw [State.strikePhys_incoming hi]), hmem, hpanel, ?_, ?_⟩
    · rw [herrs, if_pos rfl]; rfl
    · exact fun u hu => by rw [herrs, if_neg hu]
  · intro w b held
    have hsh : s.shielded (die * 72 + row * 9 + pcol) = false := s.shielded_none _ hi fun k i h => by
      rcases ho with ho | ⟨k', i', d, r, ho, hn, -⟩
      · rw [ho] at h; cases h
      · rw [ho] at h; obtain ⟨rfl, rfl⟩ := Prod.mk.inj (Option.some.inj h); exact hn
    have hstrike : s.strikePhys (die * 72 + row * 9 + pcol) w (einjMask v) =
        { s with panel := s.panel.strikeFree (die * 72 + row * 9 + pcol) w (einjMask v) } := by
      rcases ho with ho | ⟨k, i, d, r, ho, -, h, hr, hd⟩
      · exact State.strikePhys_bare hi ho
      · exact State.strikePhys_copied hi hs ho h hr hd
    refine ⟨_, (execEinjctlGo_strikes ha hv hc hsh).trans (congrArg Host.Outcome.next hstrike), rfl, rfl, ?_, fun ph u hne => ?_⟩
    · exact (s.panel.strikeFree_struck ..).trans (if_pos rfl)
    · exact (s.panel.strikeFree_struck ..).trans (if_neg hne)

end Sys2Proof.Machine

-- A paddock-wide fault at a tile (R224, R225, R426)

namespace Sys2Proof.Machine

theorem Tile.writeFrame_core (t : Tile) (r : UopRun) : (t.writeFrame r).core = t.core := rfl

theorem Tile.settleFrame_dead (t : Tile) : t.settleFrame.core.dead = t.core.dead := by
  unfold Tile.settleFrame
  split
  · split
    · rw [Tile.writeFrame_core]
    · rfl
  · rfl

theorem Tile.seqFrame_dead (t : Tile) : t.seqFrame.core.dead = t.core.dead := by
  unfold Tile.seqFrame
  split
  · split
    · rfl
    · exact Tile.settleFrame_dead _
  · rfl

theorem Tile.freezeHold_dead (t : Tile) : t.freezeHold.core.dead = t.core.dead := by
  unfold Tile.freezeHold
  split
  · split
    · rfl
    · exact t.seqFrame_dead
  · rfl

/-- A change at the current tile that reports no fault and stops no tile: the same tile is current, the panel and other paddocks stay,
and so do the paddock's reports and what has stopped. -/
def QuietAt (s t : State) : Prop :=
  t.cur = s.cur ∧ t.panel = s.panel ∧ OnlyPad s.cur.pad s t ∧ t.pad.reports = s.pad.reports ∧
    ∀ k i, (t.tileOf k i).core.dead = (s.tileOf k i).core.dead

theorem QuietAt.refl (s : State) : QuietAt s s := ⟨rfl, rfl, fun _ _ => rfl, rfl, fun _ _ => rfl⟩

theorem QuietAt.trans {s t u : State} (h : QuietAt s t) (g : QuietAt t u) : QuietAt s u := by
  obtain ⟨hc, hq, hp, hr, hd⟩ := h
  obtain ⟨gc, gq, gp, gr, gd⟩ := g
  exact ⟨gc.trans hc, gq.trans hq, hp.trans (hc ▸ gp), gr.trans hr, fun k i => (gd k i).trans (hd k i)⟩

theorem quietAt_setTile (s : State) (x : Tile) (h : x.core.dead = s.tile.core.dead) : QuietAt s (s.setTile x) := by
  refine ⟨rfl, rfl, onlyPad_modPad s _, by rw [State.setTile_pad], fun k i => ?_⟩
  rw [State.tileOf_setTile]
  split
  · next hki => obtain ⟨rfl, rfl⟩ := hki; exact h
  · rfl

theorem quietAt_modTile (s : State) (f : Tile → Tile) (h : (f s.tile).core.dead = s.tile.core.dead) : QuietAt s (s.modTile f) :=
  quietAt_setTile s _ h

theorem quietAt_modFn (s : State) (n : Nat) (f : Func → Func) : QuietAt s (s.modFn n f) := QuietAt.refl s

theorem quietAt_endedHold (s : State) : QuietAt s s.endedHold := by
  unfold State.endedHold
  split
  · split
    · exact quietAt_setTile s _ rfl
    · exact .refl s
  · exact .refl s

/-- A record other than an INPUT one. -/
theorem quietAt_traceTile (s : State) (kind aux time : Nat) (data : W64) (hk : kind ≠ 8) :
    QuietAt s (s.traceTile kind aux time data) := by
  unfold State.traceTile
  simp only [if_neg hk]
  split
  · exact .refl s
  · split
    · exact quietAt_modTile s _ rfl
    · refine QuietAt.trans ?_ (quietAt_modFn _ _ _)
      exact quietAt_modTile s _ rfl

/-- A paddock that has taken a paddock-wide fault: its report, and the pause point at which it halts. -/
def Paddock.faulted (p : Paddock) (n : Nat) (r : Report) : Paddock := { p with stopAt := some n, reports := p.reports ++ [r] }

/-- R426: a paddock-wide fault adds its report and stops no tile by itself. -/
theorem State.paddockFault_spec (s : State) (f : FaultInfo) (epc : W64) : ∃ (u : State) (n : Nat) (r : Report),
    QuietAt s u ∧ r.info = f ∧ s.paddockFault f epc = { u.modPad (fun p => p.faulted n r) with free := u.free + 1 } := by
  refine ⟨_, _, _, ?_, ?_, rfl⟩
  · refine QuietAt.trans ?_ (quietAt_traceTile _ 4 0 _ _ (by decide))
    exact quietAt_modTile s _ s.tile.freezeHold_dead
  · rfl

theorem State.takeFault_watchdog (s : State) (r : W64) : let t := s.takeFault (sFault .watchdog r)
    t.panel = s.panel ∧ OnlyPad s.cur.pad s t ∧
      (∃ q, (t.padAt s.cur.pad).reports = (s.padAt s.cur.pad).reports ++ [q] ∧ q.info = sFault .watchdog r) ∧
      ∀ k i, (t.tileOf k i).core.dead = (s.tileOf k i).core.dead := by
  intro t
  obtain ⟨u, n, q, hu, hq, ht⟩ := s.endedHold.paddockFault_spec (sFault .watchdog r) (bundleAddr s.tile.core.pc)
  obtain ⟨hc, hp, ho, hr, hd⟩ := (quietAt_endedHold s).trans hu
  have ht : t = { u.modPad (fun p => p.faulted n q) with free := u.free + 1 } :=
    (s.takeFaultAt_wide _ _ rfl).trans ht
  have hpad : t.padAt s.cur.pad = u.pad.faulted n q := by
    rw [ht, ← hc]; exact u.modPad_pad fun p => p.faulted n q
  have hother : OnlyPad s.cur.pad u t := by rw [ht, ← hc]; exact onlyPad_modPad u fun p => p.faulted n q
  refine ⟨by rw [ht]; exact hp, ho.trans hother, ⟨q, ?_, hq⟩, fun k i => ?_⟩
  · rw [hpad]; exact congrArg (· ++ [q]) hr
  · rw [← hd]
    by_cases hk : k = s.cur.pad
    · subst hk
      rw [State.tileOf, show t.padOf s.cur.pad = _ from hpad, ← hc]
      rfl
    · rw [State.tileOf, show t.padOf k = u.padOf k from State.padAt_congr (hother k hk)]
      rfl

-- Dies that stop and fail (R29, R471)

/-- What a lost die does to a paddock that touches it: a WATCHDOG of reason 4 is reported, and its tiles on dies out of service stop. -/
def Panel.Lost (q : Panel) (p p' : Paddock) : Prop :=
  (∃ r, p'.reports = p.reports ++ [r] ∧ r.info.cause = .watchdog ∧ r.info.t3 = 4) ∧
    ∀ i x, FMap.get? p.tiles i = some x → (q.die (p.shape.die p.place i)).out = true →
      (FMap.getD p'.tiles i Tile.init).core.dead = true

theorem Paddock.stopTiles_dead {p : Paddock} {q : Panel} {i : Nat} {x : Tile} (hp : p.placed = true)
    (hx : FMap.get? p.tiles i = some x) (ho : (q.die (p.shape.die p.place i)).out = true) :
    (FMap.getD (p.stopTiles q).tiles i Tile.init).core.dead = true := by
  have hget : FMap.get? (p.stopTiles q).tiles i = (FMap.get? p.tiles i).map fun t =>
      if p.placed && (q.die (p.shape.die p.place i)).out then { t with core := { t.core with dead := true } } else t := by
    have h := FMap.get?_map p.tiles i fun i (t : Tile) =>
      if p.placed && (q.die (p.shape.die p.place i)).out then { t with core := { t.core with dead := true } } else t
    exact h
  rw [FMap.getD, hget, hx, hp, ho]
  rfl

section
variable (s : State) (k : Nat)

theorem State.dieFault_eq : s.dieFault k = { ({ s.modPadAt k (fun p => p.stopTiles s.panel) with
    cur := { pad := k, tile := s.lostTile (s.padAt k) } } : State).takeFault (sFault .watchdog 4) with cur := s.cur } := rfl

theorem State.dieFault_panel : (s.dieFault k).panel = s.panel := by
  rw [State.dieFault_eq]
  exact (State.takeFault_watchdog _ 4).1

theorem onlyPad_dieFault : OnlyPad k s (s.dieFault k) := by
  rw [State.dieFault_eq]
  obtain ⟨-, ho, -⟩ := State.takeFault_watchdog ({ s.modPadAt k (fun p => p.stopTiles s.panel) with
    cur := { pad := k, tile := s.lostTile (s.padAt k) } } : State) 4
  exact (onlyPad_modPadAt s k _).trans ho

theorem State.dieFault_lost {p : Paddock} (h : FMap.get? s.pads k = some p) (hp : p.placed = true) :
    s.panel.Lost p ((s.dieFault k).padAt k) := by
  rw [State.dieFault_eq]
  generalize hu : ({ s.modPadAt k (fun p => p.stopTiles s.panel) with
    cur := { pad := k, tile := s.lostTile (s.padAt k) } } : State) = u
  have hpad : u.padAt k = p.stopTiles s.panel := by rw [← hu]; exact State.padAt_modPadAt _ h
  have hcur : u.cur.pad = k := by rw [← hu]
  obtain ⟨-, -, ⟨q, hq, hinfo⟩, hdead⟩ := State.takeFault_watchdog u 4
  rw [hcur, hpad] at hq
  refine ⟨⟨q, hq, by rw [hinfo]; rfl, by rw [hinfo]; rfl⟩, fun i x hx ho => ?_⟩
  have hstop := Paddock.stopTiles_dead hp hx ho
  rw [← hpad] at hstop
  exact (hdead k i).trans hstop

/-- A paddock whose state is saved, with the fault of a lost die recorded at its tile 0. -/
def Paddock.savedLost (p : Paddock) : Paddock :=
  { p with state := if p.state = .held then .held else .halted, heldFrom := if p.state = .held then .halted else p.heldFrom,
           tiles := FMap.modify p.tiles 0 fun t => t.record (sFault .watchdog 4) false true (bundleAddr t.core.pc) }

theorem State.savedFault_panel : (s.savedFault k).panel = s.panel := State.event_panel ..

theorem onlyPad_savedFault : OnlyPad k s (s.savedFault k) :=
  (onlyPad_modPadAt s k Paddock.savedLost).trans (onlyPad_of_pads (State.event_pads ..))

/-- A pre-empted paddock whose channels are lost is HALTED (R427). -/
theorem State.savedFault_halted {p : Paddock} (h : FMap.get? s.pads k = some p) (hp : p.state ≠ .held) :
    ((s.savedFault k).padAt k).state = .halted := by
  have hget : FMap.get? (s.savedFault k).pads k = some p.savedLost := by
    refine (congrArg (FMap.get? · k) (State.event_pads ..)).trans ((State.get?_modPadAt s k Paddock.savedLost).trans ?_)
    rw [h]; rfl
  rw [State.padAt_of_get? hget]
  exact if_neg hp

end

end Sys2Proof.Machine

-- Heat and failure (R20, R29, R73, R471)

namespace Sys2Proof.Machine

/-- The record of a die changes. -/
def State.setDie (s : State) (key : Nat) (d : Die) : State :=
  { s with panel := { s.panel with dies := FMap.put s.panel.dies key d } }

/-- Running paddocks that touch a die. -/
def State.lostPads (s : State) (key : Nat) : List Nat := (s.pads.filter fun e => e.2.placed && e.2.touches key).map (·.1)

/-- Paddocks whose state is saved and that hold channels of an M-die. -/
def State.lostSaved (s : State) (key : Nat) : List Nat :=
  (s.pads.filter fun e => decide (200 ≤ key) && e.2.touches key &&
    (e.2.state == .preempted || (e.2.state == .held && e.2.heldFrom == .preempted))).map (·.1)

section
variable (s : State) (key : Nat) (d : Die)

@[simp] theorem State.setDie_die : (s.setDie key d).panel.die key = d := Panel.die_of_put (m := s.panel.dies) rfl

theorem State.loseDie_eq : s.loseDie key d =
    (s.lostSaved key).foldl State.savedFault ((s.lostPads key).foldl State.dieFault (s.setDie key d)) := rfl

theorem State.loseDie_panel : (s.loseDie key d).panel = (s.setDie key d).panel := by
  rw [State.loseDie_eq, State.foldl_keeps State.panel _ State.savedFault_panel, State.foldl_keeps State.panel _ State.dieFault_panel]

theorem State.loseDie_die : (s.loseDie key d).panel.die key = d := by rw [State.loseDie_panel, State.setDie_die]

theorem State.loseDie_shep : (s.loseDie key d).panel.shep = s.panel.shep := by rw [State.loseDie_panel]; rfl

variable {s key d} {k : Nat} {p : Paddock} (hs : FMap.sorted s.pads = true) (hk : FMap.get? s.pads k = some p)
  (ht : p.touches key = true)
include hs hk ht

/-- A running paddock that touches a lost die takes the fault. -/
theorem State.loseDie_lost (hp : p.placed = true) :
    (s.loseDie key d).panel.Lost p ((s.loseDie key d).padAt k) := by
  have hpad : s.padAt k = p := State.padAt_of_get? hk
  have hin : k ∈ s.lostPads key := (State.mem_filter_keys hs).mpr ⟨by rw [hpad]; exact hk, by simp [hpad, hp, ht]⟩
  have hrun : p.state = .running := by simpa [Paddock.placed] using hp
  have hout : k ∉ s.lostSaved key := fun h => by simpa [hpad, hrun] using ((State.mem_filter_keys hs).mp h).2
  obtain ⟨-, hfault⟩ := State.foldl_onlyPad State.panel State.dieFault State.dieFault_panel onlyPad_dieFault
    (s.lostPads key) (FMap.filter_keys_nodup _ _ hs) (s.setDie key d)
  obtain ⟨hkeep, -⟩ := State.foldl_onlyPad State.panel State.savedFault State.savedFault_panel onlyPad_savedFault
    (s.lostSaved key) (FMap.filter_keys_nodup _ _ hs) ((s.lostPads key).foldl State.dieFault (s.setDie key d))
  obtain ⟨u, hup, hu, hg⟩ := hfault k hin
  have hlost := u.dieFault_lost k (hu.trans hk) hp
  rw [State.loseDie_panel, ← hup]
  rwa [← State.padAt_congr ((hkeep k hout).trans hg)] at hlost

/-- A pre-empted paddock with channels on a lost M-die is HALTED. -/
theorem State.loseDie_halted (hm : 200 ≤ key) (hp : p.state = .preempted) : ((s.loseDie key d).padAt k).state = .halted := by
  have hpad : s.padAt k = p := State.padAt_of_get? hk
  have hin : k ∈ s.lostSaved key := (State.mem_filter_keys hs).mpr ⟨by rw [hpad]; exact hk, by simp [hpad, hp, ht, hm]⟩
  have hout : k ∉ s.lostPads key := fun h => by simpa [hpad, hp, Paddock.placed] using ((State.mem_filter_keys hs).mp h).2
  obtain ⟨hkeep, -⟩ := State.foldl_onlyPad State.panel State.dieFault State.dieFault_panel onlyPad_dieFault
    (s.lostPads key) (FMap.filter_keys_nodup _ _ hs) (s.setDie key d)
  obtain ⟨-, hfault⟩ := State.foldl_onlyPad State.panel State.savedFault State.savedFault_panel onlyPad_savedFault
    (s.lostSaved key) (FMap.filter_keys_nodup _ _ hs) ((s.lostPads key).foldl State.dieFault (s.setDie key d))
  obtain ⟨u, -, hu, hg⟩ := hfault k hin
  exact (congrArg Paddock.state (State.padAt_congr hg)).trans
    (u.savedFault_halted k ((hu.trans (hkeep k hout)).trans hk) (by rw [hp]; decide))

end

/-- Only reports, tiles and the place of tiles count for what a lost die does. -/
theorem Panel.Lost.congr {q : Panel} {p r p' : Paddock} (h : q.Lost r p') (hr : r.reports = p.reports) (ht : r.tiles = p.tiles)
    (hs : r.shape = p.shape) (hp : r.place = p.place) : q.Lost p p' := by
  rwa [Panel.Lost, hr, ht, hs, hp] at h

-- A hot die asks its paddocks to freeze

/-- A paddock of a hot die is asked to freeze, unless it is asked already or stands so. -/
def State.coolOne (s : State) (k : Nat) : State :=
  if (s.padAt k).asked .thermal || (s.padAt k).freeze == some .thermal then s else s.request k .thermal none none

section
variable (s : State) (k : Nat)

theorem State.cool_eq (key : Nat) : s.cool key = (s.padsOn key).foldl State.coolOne s := rfl

theorem State.coolOne_cases : s.coolOne k = s ∨ s.coolOne k = s.request k .thermal none none := ite_eq_or_eq ..

theorem onlyPad_coolOne : OnlyPad k s (s.coolOne k) := by
  rcases s.coolOne_cases k with h | h <;> rw [h]
  · exact onlyPad_of_pads rfl
  · exact onlyPad_request s k _ _ _

theorem State.coolOne_frame : ((s.coolOne k).panel, (s.coolOne k).fns) = (s.panel, s.fns) := by
  rcases s.coolOne_cases k with h | h <;> rw [h]
  rfl

theorem State.cool_frame (key : Nat) : (s.cool key).panel = s.panel ∧ (s.cool key).fns = s.fns := by
  have h := State.foldl_keeps (fun s => (s.panel, s.fns)) State.coolOne State.coolOne_frame (s.padsOn key) s
  exact Prod.mk.inj h

theorem State.coolOne_asks {p : Paddock} (hk : FMap.get? s.pads k = some p) (ha : p.asked .thermal = false)
    (hf : p.freeze ≠ some .thermal) : ∃ q : Pending, q.asks p .thermal none none ∧
      FMap.get? (s.coolOne k).pads k = some { p with pending := p.pending ++ [q] } := by
  have hreq : s.coolOne k = s.request k .thermal none none := by simp [State.coolOne, State.padAt_of_get? hk, ha, hf]
  rw [hreq]
  exact s.get?_request k .thermal none none hk

end

theorem State.cool_asks {s : State} {key k : Nat} (hs : FMap.sorted s.pads = true) (hk : k ∈ s.padsOn key)
    (ha : (s.padAt k).asked .thermal = false) (hf : (s.padAt k).freeze ≠ some .thermal) :
    ∃ q : Pending, q.asks (s.padAt k) .thermal none none ∧ ((s.cool key).padAt k).pending = (s.padAt k).pending ++ [q] := by
  obtain ⟨-, hin⟩ := State.foldl_onlyPad (fun _ => ()) State.coolOne (fun _ _ => rfl) onlyPad_coolOne (s.padsOn key)
    (FMap.filter_keys_nodup _ _ hs) s
  obtain ⟨u, -, hu, ht⟩ := hin k hk
  obtain ⟨q, hq, hg⟩ := u.coolOne_asks k (hu.trans ((State.mem_filter_keys hs).mp hk).1) ha hf
  refine ⟨q, hq, ?_⟩
  rw [s.cool_eq, State.padAt_of_get? (ht.trans hg)]

-- Temperature reports

section
variable (s : State) (x y : Nat) (t : Int)

/-- A cool die's temperature is only recorded. -/
theorem execTemperatureReport_cool (ht : t ≤ 105) : exec (.temperatureReport x y t) s =
    .next (s.setDie (siteKey x y) { s.panel.die (siteKey x y) with temp := t }) := by
  have h105 : decide (105 < t) = false := decide_eq_false (by omega)
  have h115 : decide (115 < t) = false := decide_eq_false (by omega)
  show execTemperatureReport x y t s = _
  simp only [execTemperatureReport, h105, h115, Bool.or_false, if_pos (Or.inr ht)]
  rfl

variable (hf : (s.panel.die (siteKey x y)).failed = false) (hh : (s.panel.die (siteKey x y)).hot = false)
  (hst : (s.panel.die (siteKey x y)).stopped = false)
include hf hh hst

/-- The state after a die's first report above 105 °C: its record and the event. -/
theorem execTemperatureReport_hot (ht : 105 < t) : exec (.temperatureReport x y t) s =
    let d : Die := { s.panel.die (siteKey x y) with temp := t, hot := true, stopped := decide (115 < t) }
    let u := (s.setDie (siteKey x y) d).event 0 evThermal noHandle (fld y 8 ||| fld x 0) 0
    .next (if 115 < t then u.loseDie (siteKey x y) d else u.cool (siteKey x y)) := by
  have hnot : ¬((s.panel.die (siteKey x y)).failed = true ∨ t ≤ 105) := by simp [hf]; omega
  show execTemperatureReport x y t s = _
  simp only [execTemperatureReport, if_neg hnot, hh, hst, decide_eq_true ht, Bool.or_true, Bool.false_or, Bool.false_eq_true,
    if_false]
  by_cases h : 115 < t <;> simp only [h, if_true, if_false] <;> rfl

end

/-- A site's coordinates stand beside each other in its event (Table 3-7). -/
theorem fld_site (x y : Nat) (hx : x < 20) : (fld y 8 ||| fld x 0 : W64) = w64 (x + 256 * y) := by
  have h : 2 ^ 8 * y + x = 2 ^ 8 * y ||| x := Nat.two_pow_add_eq_or_of_lt (by omega) y
  rw [fld, fld, ← BitVec.ofNat_or, w64, show x + 256 * y = 2 ^ 8 * y + x by omega, h, Nat.mul_comm y, Nat.pow_zero, Nat.mul_one]

-- A failed die

theorem execDieFailure_odd (s : State) (x y : Nat) (h : (x + y) % 2 ≠ 0) : exec (.dieFailure x y) s = .next s := if_pos h

/-- The state in which a die's failure is acted upon: the role has moved where the Shepherd's die failed. -/
def State.afterRole (s : State) (key : Nat) : State := if key = s.panel.shep then s.takeRole else s

theorem execDieFailure_even (s : State) (x y : Nat) (h : (x + y) % 2 = 0) : exec (.dieFailure x y) s =
    .next ((s.afterRole (dieAt x y)).loseDie (dieAt x y) { (s.afterRole (dieAt x y)).panel.die (dieAt x y) with failed := true }) :=
  if_neg (by omega)

/-- A paddock as the takeover leaves it: the requests of commands are executed again, and wait no more. -/
def Paddock.rerun (p : Paddock) : Paddock := { p with pending := p.pending.filter (·.cmd.isNone), moveCmd := none }

theorem State.rerun_spec (s : State) (ha : s.panel.awaits = []) :
    s.rerun.panel.shep = s.panel.shep ∧ s.rerun.pads = s.pads.map fun e => (e.1, e.2.rerun) := by
  rw [s.rerun_eq ha]
  exact ⟨rfl, rfl⟩

theorem State.takeRole_spec (s : State) (ha : s.panel.awaits = []) :
    s.takeRole.panel.shep = 114 ∧ s.takeRole.pads = s.pads.map fun e => (e.1, e.2.rerun) := State.rerun_spec _ ha

/-- What the role's move leaves at a paddock of what a lost die concerns. -/
theorem State.afterRole_spec (s : State) (key : Nat) (ha : key = s.panel.shep → s.panel.awaits = []) :
    (s.afterRole key).panel.shep = (if key = s.panel.shep then 114 else s.panel.shep) ∧
    (FMap.sorted s.pads = true → FMap.sorted (s.afterRole key).pads = true) ∧
    ∀ k p, FMap.get? s.pads k = some p → ∃ r, FMap.get? (s.afterRole key).pads k = some r ∧ r.reports = p.reports ∧
      r.tiles = p.tiles ∧ r.shape = p.shape ∧ r.place = p.place ∧ r.placed = p.placed ∧ r.touches key = p.touches key := by
  unfold State.afterRole
  split
  · next h =>
    obtain ⟨hshep, hpads⟩ := s.takeRole_spec (ha h)
    refine ⟨hshep, fun hs => ?_, fun k p hp => ⟨p.rerun, ?_, rfl, rfl, rfl, rfl, rfl, rfl⟩⟩
    · rw [hpads, FMap.sorted_iff, List.pairwise_map]
      exact (FMap.sorted_iff _).mp hs
    · rw [hpads, FMap.get?_map s.pads k fun _ => Paddock.rerun, hp]
      rfl
  · exact ⟨rfl, id, fun k p hp => ⟨p, hp, rfl, rfl, rfl, rfl, rfl, rfl⟩⟩

theorem execDieFailure_spec (s : State) (x y : Nat) (hs : FMap.sorted s.pads = true) (h : (x + y) % 2 = 0)
    (ha : dieAt x y = s.panel.shep → s.panel.awaits = []) :
    ∃ u, exec (.dieFailure x y) s = .next u ∧ (u.panel.die (dieAt x y)).failed = true ∧
      (u.panel.shep = if dieAt x y = s.panel.shep then 114 else s.panel.shep) ∧
      ∀ k p, FMap.get? s.pads k = some p → p.placed = true → p.touches (dieAt x y) = true → u.panel.Lost p (u.padAt k) := by
  obtain ⟨hshep, hsort, hpads⟩ := s.afterRole_spec (dieAt x y) ha
  refine ⟨_, execDieFailure_even s x y h, by rw [State.loseDie_die], (State.loseDie_shep ..).trans hshep, fun k p hk hp ht => ?_⟩
  obtain ⟨r, hr, hreports, htiles, hshape, hplace, hplaced, htouch⟩ := hpads k p hk
  exact (State.loseDie_lost (hsort hs) hr (htouch.trans ht) (hplaced.trans hp)).congr hreports htiles hshape hplace

/-- R29, R73: a die above 105 °C and not above 115 °C becomes hot, with one event, and its paddocks are asked to freeze. -/
theorem execTemperatureReport_warm (s : State) (x y : Nat) (t : Int) (hs : FMap.sorted s.pads = true) (hx : x < 20)
    (hf : (s.panel.die (siteKey x y)).failed = false) (hh : (s.panel.die (siteKey x y)).hot = false)
    (hst : (s.panel.die (siteKey x y)).stopped = false) (ht : 105 < t) (hle : t ≤ 115) :
    ∃ u, exec (.temperatureReport x y t) s = .next u ∧
      u.panel.die (siteKey x y) = { s.panel.die (siteKey x y) with temp := t, hot := true } ∧
      u.fns = (s.event 0 evThermal noHandle (w64 (x + 256 * y)) 0).fns ∧
      ∀ k ∈ s.padsOn (siteKey x y), (s.padAt k).asked .thermal = false → (s.padAt k).freeze ≠ some .thermal →
        ∃ r, (u.padAt k).pending = (s.padAt k).pending ++ [r] ∧ r.req = .thermal ∧ r.deadline = none := by
  have hnot : ¬115 < t := by omega
  have hexec := execTemperatureReport_hot s x y t hf hh hst ht
  simp only [if_neg hnot, decide_eq_false hnot, fld_site x y hx] at hexec
  generalize hd : ({ s.panel.die (siteKey x y) with temp := t, hot := true, stopped := false } : Die) = d at hexec
  generalize hv : (s.setDie (siteKey x y) d).event 0 evThermal noHandle (w64 (x + 256 * y)) 0 = v at hexec
  have hpads : v.pads = s.pads := by rw [← hv]; exact State.event_pads ..
  have hpanel : v.panel = (s.setDie (siteKey x y) d).panel := by rw [← hv]; exact State.event_panel ..
  have hfns : v.fns = (s.event 0 evThermal noHandle (w64 (x + 256 * y)) 0).fns := by
    rw [← hv]; exact State.post_fns_congr s 0 _ _ rfl
  obtain ⟨hcp, hcf⟩ := v.cool_frame (siteKey x y)
  refine ⟨_, hexec, ?_, hcf.trans hfns, fun k hk ha hfr => ?_⟩
  · rw [hcp, hpanel, State.setDie_die, ← hd, ← hst]
  · have hpad : v.padAt k = s.padAt k := State.padAt_congr (by rw [hpads])
    have hon : v.padsOn (siteKey x y) = s.padsOn (siteKey x y) := by rw [State.padsOn, hpads]; rfl
    rw [← hpad] at ha hfr ⊢
    obtain ⟨q, ⟨hreq, -, hdl⟩, hq⟩ := State.cool_asks (hpads ▸ hs) (hon ▸ hk) ha hfr
    exact ⟨q, hq, hreq, hdl⟩

/-- R29, R427: above 115 °C a die stops, with what a lost die does to the paddocks on it. -/
theorem execTemperatureReport_stops (s : State) (x y : Nat) (t : Int) (hs : FMap.sorted s.pads = true)
    (hf : (s.panel.die (siteKey x y)).failed = false) (hh : (s.panel.die (siteKey x y)).hot = false)
    (hst : (s.panel.die (siteKey x y)).stopped = false) (ht : 115 < t) :
    ∃ u, exec (.temperatureReport x y t) s = .next u ∧
      u.panel.die (siteKey x y) = { s.panel.die (siteKey x y) with temp := t, hot := true, stopped := true } ∧
      ∀ k p, FMap.get? s.pads k = some p → p.touches (siteKey x y) = true →
        (p.placed = true → u.panel.Lost p (u.padAt k)) ∧
        (200 ≤ siteKey x y → p.state = .preempted → (u.padAt k).state = .halted) := by
  have hexec := execTemperatureReport_hot s x y t hf hh hst (by omega)
  simp only [if_pos ht, decide_eq_true ht] at hexec
  generalize hd : ({ s.panel.die (siteKey x y) with temp := t, hot := true, stopped := true } : Die) = d at hexec
  generalize hv : (s.setDie (siteKey x y) d).event 0 evThermal noHandle (fld y 8 ||| fld x 0) 0 = v at hexec
  have hpads : v.pads = s.pads := by rw [← hv]; exact State.event_pads ..
  refine ⟨_, hexec, State.loseDie_die .., fun k p hk htouch => ?_⟩
  rw [← hpads] at hs hk
  exact ⟨State.loseDie_lost hs hk htouch, State.loseDie_halted hs hk htouch⟩

end Sys2Proof.Machine

-- Retiring a tile (R463 to R469)

namespace Sys2Proof.Machine

-- The record of a retirement (R469)

section
variable (s : State) (r : Retire) (kind : Nat)

/-- Word 1 of a log entry written now. -/
def State.logTime (s : State) : W64 := fld (s.panel.power % 2 ^ 32) 32 ||| fld (s.dtick / secs 1 % 2 ^ 32) 0

theorem State.logRetire_pads : (s.logRetire r kind).pads = s.pads := by
  rw [State.logRetire, State.event_pads]
  exact (apply_ite State.pads ..).trans (ite_self _)

theorem State.logRetire_panel (h : s.panel.log.length < 127) :
    (s.logRetire r kind).panel = { s.panel with log := s.panel.log ++ [(logWord r kind, s.logTime)] } := by
  rw [State.logRetire, State.event_panel]
  exact congrArg State.panel (if_pos h)

end

-- The retirement begins (R465)

theorem State.mem_holders {s : State} {die row lo hi k : Nat} (hs : FMap.sorted s.pads = true) (h : k ∈ s.holders die row lo hi) :
    FMap.get? s.pads k = some (s.padAt k) := ((State.mem_filter_keys hs).mp h).1

theorem State.shifting_first {s : State} {r : Retire} {l : List Retire} (h : s.panel.retires = r :: l) (hr : r.stage ≠ .queued) :
    s.shifting = s.holders r.die r.row r.col 7 := by
  simp only [State.shifting, h, if_neg hr]

/-- Affected paddocks that are neither asked to freeze nor frozen for the retirement. -/
def State.unfrozen (s : State) : List Nat :=
  s.shifting.filter fun k => !(s.padAt k).asked .retire && (s.padAt k).freeze != some .retire

theorem State.askFreeze_spec {s : State} {r : Retire} {l : List Retire} (hs : FMap.sorted s.pads = true)
    (h : s.panel.retires = r :: l) (hr : r.stage ≠ .queued) : s.askFreeze.panel = s.panel ∧
      ∀ k ∈ s.holders r.die r.row r.col 7, (s.padAt k).asked .retire = false → (s.padAt k).freeze ≠ some .retire →
        ∃ w : Pending, w.asks (s.padAt k) .retire none (some 5) ∧
          (s.askFreeze.padAt k).pending = (s.padAt k).pending ++ [w] := by
  have hshift := State.shifting_first h hr
  have hnodup : s.unfrozen.Nodup := by
    rw [State.unfrozen, hshift]
    exact (FMap.filter_keys_nodup _ _ hs).filter _
  obtain ⟨-, -, hpanel, -, hask⟩ := State.request_all .retire none (some 5) s.unfrozen hnodup s
  refine ⟨hpanel, fun k hk ha hf => ?_⟩
  have hin : k ∈ s.unfrozen := List.mem_filter.mpr ⟨hshift ▸ hk, by simp [ha, hf]⟩
  obtain ⟨w, hw, ht⟩ := hask k hin _ (State.mem_holders hs hk)
  exact ⟨w, hw, congrArg Paddock.pending (State.padAt_of_get? ht)⟩

/-- The retirement of a physical tile as it joins the queue. -/
def State.newRetire (s : State) (die row pcol : Nat) : Retire :=
  { die := die, row := row, col := pcol, cause := (decide (0 < (s.errCnt (die * 72 + row * 9 + pcol)).unc)).toNat,
    stage := .queued, copied := [] }

/-- The machine with these retirements. -/
def State.withRetires (s : State) (l : List Retire) : State := { s with panel := { s.panel with retires := l } }

theorem phys_coordinates {die row pcol : Nat} (hr : row < 8) (hc : pcol < 9) : physDie (die * 72 + row * 9 + pcol) = die ∧
    physRow (die * 72 + row * 9 + pcol) = row ∧ physColumn (die * 72 + row * 9 + pcol) = pcol := by
  refine ⟨?_, ?_, ?_⟩ <;> simp only [physDie, physRow, physColumn] <;> omega

/-- R463: a worn tile's retirement joins the empty queue. -/
theorem State.retireTile_first (s : State) {die row pcol : Nat} (hr : row < 8) (hc : pcol < 9)
    (hw : s.worn (die * 72 + row * 9 + pcol) = true) (hq : s.panel.retires = []) (hopen : s.panel.closed die row pcol = false) :
    s.retireTile (die * 72 + row * 9 + pcol) = (s.withRetires [s.newRetire die row pcol]).nextRetire 1 := by
  obtain ⟨hdie, hrow, hcol⟩ := phys_coordinates (die := die) hr hc
  have hnone : s.panel.retiring (die * 72 + row * 9 + pcol) = false := by rw [Panel.retiring, hq]; rfl
  simp only [State.retireTile, hdie, hrow, hcol, hw, hnone, hopen, hq]
  rfl

theorem State.retireTile_sound (s : State) (ph : Nat) (h : s.worn ph = false) : s.retireTile ph = s := by
  rw [State.retireTile, h]
  rfl

section
variable (s : State) {r : Retire} {col : Nat} (hq : r.stage = .queued) (he : s.panel.exposed r.die r.row r.col = some col)
include hq he

/-- A row with its spare free begins its shift. -/
theorem State.nextRetire_shifts (h : s.panel.shift r.die r.row = 8) : (s.withRetires [r]).nextRetire 1 =
    (s.withRetires [{ r with col := col, stage := .freezing }]).askFreeze := by
  have he' : (s.withRetires [r]).panel.exposed r.die r.row r.col = some col := he
  have h' : (s.withRetires [r]).panel.shift r.die r.row = 8 := h
  rw [State.nextRetire]
  simp only [show (s.withRetires [r]).panel.retires = [r] from rfl, hq, he', h', ne_eq, not_true_eq_false, if_false]
  rfl

/-- In a row whose spare is used up the tile is marked dead. -/
theorem State.nextRetire_marks (h : s.panel.shift r.die r.row ≠ 8) : (s.withRetires [r]).nextRetire 1 =
    (s.withRetires []).markDead { r with col := col } := by
  have he' : (s.withRetires [r]).panel.exposed r.die r.row r.col = some col := he
  have h' : (s.withRetires [r]).panel.shift r.die r.row ≠ 8 := h
  rw [State.nextRetire]
  simp only [show (s.withRetires [r]).panel.retires = [r] from rfl, hq, he', if_pos h', ne_eq, not_true_eq_false, if_false]
  rfl

end

/-- The panel with an exposed tile marked dead; a tile of the row that was dead before stays so (R464, R468). -/
def Panel.marked (q : Panel) (r : Retire) : Panel :=
  { q with
    dead := if 128 ≤ q.remapByte r.die r.row then nsAdd q.dead (r.die * 64 + r.row * 8 + q.remapByte r.die r.row / 16 % 8) else q.dead
    remap := FMap.put q.remap (r.die * 8 + r.row) (128 + r.col * 16 + q.remapByte r.die r.row % 16) }

theorem State.markDead_eq (s : State) (r : Retire) : s.markDead r =
    ((({ s with panel := s.panel.marked r } : State).logRetire r 1).holders r.die r.row r.col r.col).foldl
      (fun s k => s.request k .relocate none (some 5)) (({ s with panel := s.panel.marked r } : State).logRetire r 1) := rfl

theorem State.markDead_panel (s : State) (r : Retire) (h : s.panel.log.length < 127) :
    (s.markDead r).panel = { s.panel.marked r with log := s.panel.log ++ [(logWord r 1, s.logTime)] } := by
  rw [State.markDead_eq, State.foldl_keeps State.panel _ fun s k => s.request_panel k .relocate none (some 5)]
  exact State.logRetire_panel _ r 1 h

/-- A remap byte as it stands in the table. -/
theorem Panel.remapByte_put {q : Panel} {m : FMap Nat} {die row b : Nat} (h : q.remap = FMap.put m (die * 8 + row) b) :
    q.remapByte die row = b := by
  rw [Panel.remapByte, h, FMap.getD_put_same]

theorem Panel.available_marked {q : Panel} {die row col n : Nat} (hc : col < 8) (hn : n < 16)
    (h : q.remapByte die row = 128 + col * 16 + n) : q.available die row col = false := by
  have hge : 128 ≤ 128 + col * 16 + n := by omega
  have hcol : (128 + col * 16 + n) / 16 % 8 = col := by omega
  simp [Panel.available, h, hge, hcol]

theorem Panel.exposed_lt {q : Panel} {die row pcol col : Nat} (h : q.exposed die row pcol = some col) : col < 8 :=
  List.mem_range.mp (List.mem_of_find?_eq_some h)

section
variable (s : State) {die row pcol col : Nat} (hs : FMap.sorted s.pads = true)
  (hph : s.physOf s.pad s.cur.tile = die * 72 + row * 9 + pcol) (hr : row < 8) (hc : pcol < 9)
  (hw : s.worn (die * 72 + row * 9 + pcol) = true) (hq : s.panel.retires = []) (hopen : s.panel.closed die row pcol = false)
  (he : s.panel.exposed die row pcol = some col)
include hph hr hc hw hq hopen

theorem execTileRetirement_first : exec .tileRetirement s =
    .next ((s.withRetires [s.newRetire die row pcol]).nextRetire 1) := by
  show Host.Outcome.next (s.retireTile (s.physOf s.pad s.cur.tile)) = _
  rw [hph, s.retireTile_first hr hc hw hq hopen]

include hs he in
/-- R465: the row of a worn tile is to shift, and each affected paddock is asked to freeze. -/
theorem execTileRetirement_shifts (h : s.panel.shift die row = 8) : ∃ u r, exec .tileRetirement s = .next u ∧
    u.panel.retires = [r] ∧ r.die = die ∧ r.row = row ∧ r.col = col ∧ r.stage = .freezing ∧
    ∀ k ∈ s.holders die row col 7, (s.padAt k).asked .retire = false → (s.padAt k).freeze ≠ some .retire →
      ∃ w, (u.padAt k).pending = (s.padAt k).pending ++ [w] ∧ w.req = .retire ∧
        w.deadline = some (w.due - 1 + (s.padAt k).shape.pauseMax + 65536, 5) := by
  have hexec := execTileRetirement_first s hph hr hc hw hq hopen
  rw [s.nextRetire_shifts (r := s.newRetire die row pcol) rfl he h] at hexec
  obtain ⟨hpanel, hask⟩ := State.askFreeze_spec (s := s.withRetires [{ s.newRetire die row pcol with col := col, stage := .freezing }])
    hs rfl (show RStage.freezing ≠ .queued by decide)
  refine ⟨_, _, hexec, congrArg Panel.retires hpanel, rfl, rfl, rfl, rfl, fun k hk ha hf => ?_⟩
  obtain ⟨w, ⟨hreq, -, hdl⟩, hpend⟩ := hask k hk ha hf
  exact ⟨w, hpend, hreq, hdl⟩

include he in
/-- R468: a worn tile of a row that cannot shift is no longer available. -/
theorem execTileRetirement_marks (h : s.panel.shift die row ≠ 8) (hlog : s.panel.log.length < 127) :
    ∃ u, exec .tileRetirement s = .next u ∧ u.panel.retires = [] ∧ u.panel.available die row col = false ∧
      u.panel.shift die row = s.panel.shift die row ∧ u.panel.log.length = s.panel.log.length + 1 := by
  have hexec := execTileRetirement_first s hph hr hc hw hq hopen
  rw [s.nextRetire_marks (r := s.newRetire die row pcol) rfl he h] at hexec
  have hpanel := (s.withRetires []).markDead_panel { s.newRetire die row pcol with col := col } hlog
  generalize (s.withRetires []).markDead { s.newRetire die row pcol with col := col } = u at hexec hpanel
  have hbyte : u.panel.remapByte die row = 128 + col * 16 + s.panel.remapByte die row % 16 :=
    Panel.remapByte_put (congrArg Panel.remap hpanel)
  refine ⟨u, hexec, congrArg Panel.retires hpanel, Panel.available_marked (Panel.exposed_lt he) (Nat.mod_lt _ (by decide)) hbyte, ?_,
    (congrArg (List.length ∘ Panel.log) hpanel).trans List.length_append⟩
  rw [Panel.shift, hbyte, Panel.shift]
  omega

end

theorem execTileRetirement_sound (s : State) (h : s.worn (s.physOf s.pad s.cur.tile) = false) :
    exec .tileRetirement s = .next s := congrArg Host.Outcome.next (s.retireTile_sound _ h)

-- The copies of a row shift (R465)

/-- A tile is copied: every word of it meets its code. -/
def State.copyTile (s : State) (c : Ctx) : State := s.onPad c.pad fun s => s.atTile c.tile State.readTile

/-- What copies leave as it is: time, functions, the retirements and the remap table. -/
def State.beyondCopies (s : State) : Nat × FMap Func × List Retire × FMap Nat := (s.dtick, s.fns, s.panel.retires, s.panel.remap)

theorem State.countErrors_beyond (s : State) : s.countErrors.beyondCopies = s.beyondCopies := by
  unfold State.countErrors
  simp only
  split <;> rfl

theorem State.readTile_beyond (s : State) : s.readTile.beyondCopies = s.beyondCopies :=
  (State.countErrors_beyond _).trans rfl

theorem State.copyTile_beyond (s : State) (c : Ctx) : (s.copyTile c).beyondCopies = s.beyondCopies := by
  rw [State.copyTile, State.onPad_atTile]
  exact State.readTile_beyond { s with cur := c }

theorem lastRun_cons (t : Nat) (x : Ctx × Nat) (l : List (Ctx × Nat)) : lastRun t (x :: l) = lastRun x.2 l := by
  cases l <;> simp [lastRun, List.getLast?_cons]

/-- Copies run one after another: each ends no earlier than the first begins and no later than the last ends. -/
theorem State.copyRuns_times (s : State) (cs : List Ctx) (t : Nat) : t ≤ lastRun t (s.copyRuns t cs) ∧
    ∀ c ∈ cs, ∃ e ∈ s.copyRuns t cs, e.1 = c ∧ t ≤ e.2 ∧ e.2 ≤ lastRun t (s.copyRuns t cs) := by
  induction cs generalizing t with
  | nil => exact ⟨Nat.le_refl t, fun _ h => by cases h⟩
  | cons c cs ih =>
    rw [State.copyRuns, lastRun_cons]
    generalize hd : t + (FMap.getD (s.padAt c.pad).tiles c.tile Tile.init).liveBytes / 64 = d
    have htd : t ≤ d := by omega
    obtain ⟨hlast, hall⟩ := ih d
    refine ⟨Nat.le_trans htd hlast, fun c' hc => ?_⟩
    rcases List.mem_cons.mp hc with rfl | hc
    · exact ⟨(c', d), List.mem_cons_self, rfl, htd, hlast⟩
    · obtain ⟨e, he, hec, hle, hge⟩ := hall c' hc
      exact ⟨e, List.mem_cons_of_mem _ he, hec, Nat.le_trans htd hle, hge⟩

/-- Before the first copies every tile of the row has none. -/
theorem State.mem_uncopied_first {s : State} {r : Retire} {c : Ctx} (hr : r.copied = []) (hc : c ∈ s.migrants r) :
    c ∈ s.uncopied r := by
  have hcol : s.columnOf c < 8 := Nat.mod_lt _ (by decide)
  exact List.mem_flatMap.mpr ⟨s.columnOf c, by simpa using hcol, List.mem_filter.mpr ⟨hc, by simp [hr]⟩⟩

/-- Where copies are to begin they run, and the retirement waits for their end. -/
theorem execRowShiftMigration_copies (s : State) (r : Retire) (hr : s.panel.retires = [r]) (hnow : s.copyNow r = true) :
    ∃ u done l, exec .rowShiftMigration s = .next u ∧
      u.panel.retires = [{ r with stage := .copying done, copied := r.copied ++ l }] ∧ s.dtick ≤ done ∧
      u.panel.remap = s.panel.remap ∧ u.fns = s.fns ∧ ∀ c ∈ s.uncopied r, ∃ e ∈ l, e.1 = c ∧ s.dtick ≤ e.2 ∧ e.2 ≤ done := by
  generalize hu : (s.uncopied r).foldl State.copyTile s = u
  have hkeep : u.beyondCopies = s.beyondCopies := by rw [← hu]; exact State.foldl_keeps _ _ State.copyTile_beyond _ _
  obtain ⟨hd, hrest⟩ := Prod.mk.inj hkeep
  obtain ⟨hf, hrest⟩ := Prod.mk.inj hrest
  obtain ⟨hretires, hremap⟩ := Prod.mk.inj hrest
  obtain ⟨hle, hall⟩ := u.copyRuns_times (s.uncopied r) s.dtick
  refine ⟨{ u with panel := u.panel.setRetire { r with
      stage := .copying (lastRun s.dtick (u.copyRuns s.dtick (s.uncopied r)))
      copied := r.copied ++ u.copyRuns s.dtick (s.uncopied r) } }, _, _, ?_, ?_, hle, hremap, hf, hall⟩
  · show execRowShiftMigration s = _
    simp only [execRowShiftMigration, hr, hnow, Bool.not_true, Bool.false_eq_true, if_false]
    rw [← hd, ← hu]
    rfl
  · exact congrArg (_ :: List.drop 1 ·) (hretires.trans hr)

theorem State.copyNow_freezing (s : State) {r : Retire} (hst : r.stage = .freezing) (hall : s.allFrozen r = true) :
    s.copyNow r = true := by simp [State.copyNow, hst, hall]

theorem State.copyNow_joined (s : State) {r : Retire} {d : Nat} (hst : r.stage = .copying d) (hd : d ≤ s.dtick)
    (hall : s.allFrozen r = true) (hu : s.uncopied r ≠ []) : s.copyNow r = true := by simp [State.copyNow, hst, hall, hd, hu]

end Sys2Proof.Machine

-- A paddock with nothing to do at its pause point (R431, R443)

namespace Sys2Proof.Machine

section
variable {s : State} {k : Nat} {p : Paddock} (hp : FMap.get? s.pads k = some p)
include hp

theorem State.pageReqs_none (c : Nat) (h : p.pending = []) : s.pageReqs k c = s := by
  rw [State.pageReqs, State.padAt_of_get? hp, h]
  refine s.modPadAt_self k _ fun p' hp' => ?_
  obtain rfl : p = p' := by simpa [hp] using hp'
  show { p with pending := p.pending.filter _ } = p
  rw [h]
  exact congrArg (fun l => { p with pending := l }) h.symm

theorem State.carryOut_none (c : Nat) (h : p.pending = []) : s.carryOut k c = s := by
  rw [State.carryOut, State.padAt_of_get? hp, h]
  exact ite_self s

/-- A paddock at its release wave, with no notification to take, goes on. -/
theorem State.settle_quiet {n : Nat} (hf : p.freeze = some (.release n)) (hw : ∀ e ∈ p.tiles, e.2.wantsNotice = false) :
    s.settle k = (s.modPadAt k fun p => { p with owed := [] }).release k := by
  have hwho : (p.tiles.filter fun e => p.owed.contains e.1 && e.2.wantsNotice) = [] :=
    List.filter_eq_nil_iff.mpr fun e he => by simp [hw e he]
  simp only [State.settle, State.padAt_of_get? hp, hf, hwho]
  rfl

/-- R443: a frozen paddock with nothing waiting is released by a wave of the length of its placement. -/
theorem State.goOn_quiet (hq : p.pending = []) (hw : ∀ e ∈ p.tiles, e.2.wantsNotice = false) :
    (s.goOn k).panel = s.panel ∧ FMap.get? (s.goOn k).pads k = some { p.wake (s.wave p) with owed := [] } := by
  generalize hu : s.modPadAt k (fun p => p.wake (s.wave p)) = u
  have hpu : FMap.get? u.pads k = some (p.wake (s.wave p)) := by rw [← hu, State.get?_modPadAt, hp]; rfl
  have hgo : s.goOn k = (u.modPadAt k fun p => { p with owed := [] }).release k := by
    rw [State.goOn, hu, State.pageReqs_none hpu _ hq, State.carryOut_none hpu _ hq]
    exact State.settle_quiet hpu rfl hw
  rw [hgo, State.release, State.get?_modPadAt, State.get?_modPadAt, hpu, ← hu]
  exact ⟨rfl, rfl⟩

end

-- The row shifts (R465)

/-- Errors injected into the tile's new place meet it, and the tile is owed a notification. -/
def State.shiftTile (s : State) (c : Ctx) : State :=
  (s.modPadAt c.pad fun p => { p with owed := nsAdd p.owed c.tile }).onPad c.pad fun s => s.atTile c.tile State.meetStruck

/-- Nothing but what its tiles are owed changes at the paddock of key k, and nothing of the panel and the time. -/
def OwedOnly (k : Nat) (s t : State) : Prop :=
  t.dtick = s.dtick ∧ t.panel = s.panel ∧
    ∀ p, FMap.get? s.pads k = some p → ∃ l, FMap.get? t.pads k = some { p with owed := l }

theorem OwedOnly.refl (k : Nat) (s : State) : OwedOnly k s s := ⟨rfl, rfl, fun p hp => ⟨p.owed, hp⟩⟩

theorem OwedOnly.trans {k : Nat} {s t u : State} (h : OwedOnly k s t) (g : OwedOnly k t u) : OwedOnly k s u := by
  obtain ⟨hd, hq, hp⟩ := h
  obtain ⟨gd, gq, gp⟩ := g
  refine ⟨gd.trans hd, gq.trans hq, fun p hget => ?_⟩
  obtain ⟨l, hl⟩ := hp p hget
  obtain ⟨m, hm⟩ := gp _ hl
  exact ⟨m, hm⟩

/-- Where no error waits in a bare tile, none meets the tile that comes to stand there. -/
theorem State.meetStruck_none {s : State} {p : Paddock} {t : Tile} (hq : s.panel.struck = [])
    (hp : FMap.get? s.pads s.cur.pad = some p) (hs : FMap.sorted p.tiles = true) (ht : FMap.get? p.tiles s.cur.tile = some t) :
    s.meetStruck.dtick = s.dtick ∧ s.meetStruck.panel = s.panel ∧ FMap.get? s.meetStruck.pads s.cur.pad = some p := by
  have hpad : s.pad = p := State.padAt_of_get? hp
  have htile : s.tile = t := by simp [State.tile, hpad, FMap.getD, ht]
  have hnone : FMap.getD s.panel.struck (s.physOf s.pad s.cur.tile) [] = [] := by rw [hq]; rfl
  have hdel : FMap.del s.panel.struck (s.physOf s.pad s.cur.tile) = s.panel.struck := by rw [hq]; rfl
  have hmeet : s.meetStruck = { s.setTile s.tile with
      panel := { s.panel with struck := FMap.del s.panel.struck (s.physOf s.pad s.cur.tile) } } := by
    simp only [State.meetStruck, hnone]
    rfl
  rw [hmeet, htile]
  refine ⟨rfl, congrArg (fun m => { s.panel with struck := m }) hdel, (FMap.get?_put_same ..).trans ?_⟩
  rw [hpad]
  exact congrArg (fun m => some { p with tiles := m }) (FMap.put_self p.tiles _ t hs ht)

theorem owedOnly_shiftTile {s : State} {k i : Nat} {p : Paddock} (hq : s.panel.struck = []) (hp : FMap.get? s.pads k = some p)
    (hs : FMap.sorted p.tiles = true) (hi : FMap.get? p.tiles i ≠ none) : OwedOnly k s (s.shiftTile { pad := k, tile := i }) := by
  obtain ⟨t, ht⟩ := Option.ne_none_iff_exists'.mp hi
  have hget : FMap.get? (s.modPadAt k fun p => { p with owed := nsAdd p.owed i }).pads k =
      some { p with owed := nsAdd p.owed i } := by rw [State.get?_modPadAt, hp]; rfl
  obtain ⟨hd, hpanel, hpads⟩ := State.meetStruck_none
    (s := { s.modPadAt k (fun p => { p with owed := nsAdd p.owed i }) with cur := { pad := k, tile := i } }) hq hget hs ht
  refine ⟨hd, hpanel, fun p' hp' => ⟨nsAdd p'.owed i, ?_⟩⟩
  obtain rfl : p = p' := by simpa [hp] using hp'
  exact hpads

theorem owedOnly_shiftTiles {s : State} {k : Nat} {p : Paddock} (hq : s.panel.struck = []) (hp : FMap.get? s.pads k = some p)
    (hs : FMap.sorted p.tiles = true) (cs : List Ctx) (hcs : ∀ c ∈ cs, c.pad = k ∧ FMap.get? p.tiles c.tile ≠ none) :
    OwedOnly k s (cs.foldl State.shiftTile s) := by
  induction cs generalizing s p with
  | nil => exact .refl k s
  | cons c cs ih =>
    obtain ⟨⟨rfl, hi⟩, hrest⟩ := List.forall_mem_cons.mp hcs
    have hstep : OwedOnly c.pad s (s.shiftTile c) := owedOnly_shiftTile hq hp hs hi
    have ⟨_, hpanel, hpads⟩ := hstep
    obtain ⟨l, hl⟩ := hpads p hp
    exact hstep.trans (ih (hpanel ▸ hq) hl hs hrest)

/-- The tiles that move are tiles of affected paddocks. -/
theorem State.mem_migrants_single {s : State} {r : Retire} {k : Nat} {c : Ctx} (hk : s.holders r.die r.row r.col 7 = [k])
    (hc : c ∈ s.migrants r) : c.pad = k ∧ c.tile ∈ (s.padAt k).shape.all := by
  rw [State.migrants, hk] at hc
  simp only [List.flatMap_cons, List.flatMap_nil, List.append_nil] at hc
  obtain ⟨i, hi, rfl⟩ := List.mem_map.mp hc
  exact ⟨rfl, (List.mem_filter.mp hi).1⟩

/-- The panel once the row has shifted: the failed column is the fenced one, and the retirement is over. -/
def Panel.rowShifted (q : Panel) (r : Retire) (rest : List Retire) : Panel :=
  { q with
    retires := rest, shifted := q.shifted + 1, struck := FMap.del q.struck (r.die * 72 + r.row * 9 + r.col)
    remap := FMap.put q.remap (r.die * 8 + r.row) (q.remapByte r.die r.row / 16 * 16 + r.col) }

/-- The only retirement's row shifts: its tiles stand in their new places, its paddocks go on, and the log has its entry. -/
def State.shiftRow (s : State) (r : Retire) : State :=
  ((s.holders r.die r.row r.col 7).foldl State.goOn
    ((s.migrants r).foldl State.shiftTile { s with panel := s.panel.rowShifted r [] })).logRetire r 0

theorem State.nextRetire_none (s : State) (h : s.panel.retires = []) (n : Nat) : s.nextRetire n = s := by
  cases n with
  | zero => rfl
  | succ n => simp only [State.nextRetire, h]

section
variable (s : State) {r : Retire} {d : Nat} (hr : s.panel.retires = [r]) (hst : r.stage = .copying d)
include hr hst

/-- The row stands while copies run, and while a tile of it has none. -/
theorem execRowShiftRemap_waits (h : s.dtick < d ∨ s.uncopied r ≠ []) : exec .rowShiftRemap s = .next s := by
  have hwait : s.dtick < d ∨ (!s.allFrozen r) = true ∨ (!(s.uncopied r).isEmpty) = true :=
    h.imp_right fun hu => .inr (by simpa using hu)
  show execRowShiftRemap s = _
  simp only [execRowShiftRemap, hr, hst, if_pos hwait]

theorem execRowShiftRemap_shifts (hd : d ≤ s.dtick) (hall : s.allFrozen r = true) (hu : s.uncopied r = []) :
    exec .rowShiftRemap s = .next ((s.shiftRow r).nextRetire (s.shiftRow r).panel.retires.length) := by
  have hgo : ¬(s.dtick < d ∨ (!s.allFrozen r) = true ∨ (!(s.uncopied r).isEmpty) = true) := by
    simp [hall, hu, Nat.not_lt.mpr hd]
  show execRowShiftRemap s = _
  simp only [execRowShiftRemap, hr, hst, if_neg hgo]
  rfl

/-- R465: with the copies over, the row shifts, its paddock goes on, and the retirement is recorded. -/
theorem execRowShiftRemap_done {k : Nat} (hs : FMap.sorted s.pads = true) (hd : d ≤ s.dtick)
    (hk : s.holders r.die r.row r.col 7 = [k]) (hcol : r.col < 8) (hu : s.uncopied r = []) (hlog : s.panel.log.length < 127)
    (hf : (s.padAt k).freeze = some .retire) (hpend : (s.padAt k).pending = []) (hstruck : s.panel.struck = [])
    (hts : FMap.sorted (s.padAt k).tiles = true)
    (hall : ∀ i ∈ (s.padAt k).shape.all, FMap.get? (s.padAt k).tiles i ≠ none)
    (hw : ∀ e ∈ (s.padAt k).tiles, e.2.wantsNotice = false) :
    ∃ u, exec .rowShiftRemap s = .next u ∧ u.panel.retires = [] ∧ u.panel.shift r.die r.row = r.col ∧
      u.panel.log.length = s.panel.log.length + 1 ∧ u.panel.shifted = s.panel.shifted + 1 ∧
      (u.padAt k).freeze = some (.release (s.dtick + 1 + (s.padAt k).shape.bMax (s.padAt k).place)) ∧
      (u.padAt k).rtick = (s.padAt k).rtick ∧ (u.padAt k).tiles = (s.padAt k).tiles := by
  have hfrozen : s.allFrozen r = true := by simp [State.allFrozen, hk, hf]
  have hexec := execRowShiftRemap_shifts s hr hst hd hfrozen hu
  have hget : FMap.get? s.pads k = some (s.padAt k) := State.mem_holders hs (hk ▸ List.mem_singleton_self k)
  have hbare : (s.panel.rowShifted r []).struck = [] := by rw [Panel.rowShifted, hstruck]; rfl
  obtain ⟨hdtick, hpanel, hpads⟩ := owedOnly_shiftTiles (s := { s with panel := s.panel.rowShifted r [] }) hbare hget hts
    (s.migrants r) fun c hc => (State.mem_migrants_single hk hc).imp_right (hall _)
  obtain ⟨l, hl⟩ := hpads _ hget
  rw [State.shiftRow, hk, List.foldl_cons, List.foldl_nil] at hexec
  generalize (s.migrants r).foldl State.shiftTile { s with panel := s.panel.rowShifted r [] } = v at hexec hdtick hpanel hl
  obtain ⟨hgopanel, hgo⟩ := State.goOn_quiet hl hpend hw
  have hlast := (v.goOn k).logRetire_panel r 0 (by rw [hgopanel, hpanel]; exact hlog)
  rw [hgopanel, hpanel] at hlast
  have hpad : ((v.goOn k).logRetire r 0).padAt k = _ := State.padAt_of_get? (by rw [State.logRetire_pads]; exact hgo)
  have hretires : ((v.goOn k).logRetire r 0).panel.retires = [] := congrArg Panel.retires hlast
  have hbyte : ((v.goOn k).logRetire r 0).panel.remapByte r.die r.row = s.panel.remapByte r.die r.row / 16 * 16 + r.col :=
    Panel.remapByte_put (congrArg Panel.remap hlast)
  refine ⟨_, hexec.trans (congrArg _ (State.nextRetire_none _ hretires _)), hretires, ?_,
    (congrArg (List.length ∘ Panel.log) hlast).trans List.length_append, congrArg Panel.shifted hlast, ?_, ?_, ?_⟩
  · rw [Panel.shift, hbyte]
    omega
  · rw [hpad, ← show v.dtick = s.dtick from hdtick]
    rfl
  · rw [hpad]; rfl
  · rw [hpad]; rfl

end

/-- Settles O60: each report, failure, retirement and row shift by its own rule above. -/
theorem heatAndRepair : Obligations.HeatAndRepair := by
  unfold Obligations.HeatAndRepair
  intro s hs
  refine ⟨fun x y t _ ht => execTemperatureReport_cool s x y t ht, fun x y t hx _ hf hh hst ht => ⟨fun hle => ?_, fun h115 => ?_⟩,
    fun x y h ha => ?_, execDieFailure_odd s,
    fun die row pcol col hph hr hc hw hq hopen he =>
      ⟨execTileRetirement_shifts s hs hph hr hc hw hq hopen he, execTileRetirement_marks s hph hr hc hw hq hopen he⟩,
    execTileRetirement_sound s, fun r hr hst hall hcop => ?_, fun r d hr hst hd => execRowShiftRemap_waits s hr hst (.inl hd),
    fun r d hr hst hd hall hu => ⟨execRowShiftRemap_waits s hr hst (.inr hu), ?_⟩,
    fun r d k hr hst hd hk hcol hu hlog hf hpend hstruck hts hall hw =>
      execRowShiftRemap_done s hr hst hs hd hk hcol hu hlog hf hpend hstruck hts hall hw⟩
  · exact execTemperatureReport_warm s x y t hs hx hf hh hst ht hle
  · obtain ⟨u, hexec, hdie, hall⟩ := execTemperatureReport_stops s x y t hs hf hh hst h115
    refine ⟨u, hexec, hdie, fun e he htouch => ?_⟩
    obtain ⟨hlost, hhalt⟩ := hall _ _ (State.get?_of_mem hs he) htouch
    refine ⟨fun hp => ?_, hhalt⟩
    have hlost := hlost hp
    rw [← State.padAt_of_mem hs he] at hlost
    exact hlost.imp_right fun h i x _ => h i x
  · obtain ⟨u, hexec, hfail, hshep, hall⟩ := execDieFailure_spec s x y hs h ha
    refine ⟨u, hexec, hfail, hshep, fun e he hp htouch => ?_⟩
    have hlost := hall _ _ (State.get?_of_mem hs he) hp htouch
    rw [← State.padAt_of_mem hs he] at hlost
    exact hlost.imp_right fun h i x _ => h i x
  · obtain ⟨u, done, l, hexec, hret, hle, hremap, hfns, hcopies⟩ :=
      execRowShiftMigration_copies s r hr (s.copyNow_freezing hst hall)
    rw [hcop, List.nil_append] at hret
    exact ⟨u, done, l, hexec, hret, hle, hremap, hfns, fun c hc => hcopies c (State.mem_uncopied_first hcop hc)⟩
  · obtain ⟨u, done, l, hexec, hret, hle, hremap, -, hcopies⟩ :=
      execRowShiftMigration_copies s r hr (s.copyNow_joined hst hd hall hu)
    exact ⟨u, done, l, hexec, hret, hle, hremap, hcopies⟩

end Sys2Proof.Machine

-- The meeting of the tiles at a pause point (R44, R337)

namespace Sys2Proof.Machine

/-- A tile at the bundle PPT 0 on whose cycle a write of its vector engine lands: nothing waits in its engines any more. -/
def landingTile : Tile :=
  { Tile.init with
    st := { Stores.empty with istore := { Store.empty with
      bytes := Mem.write [] 0 (natLE 24 (encode { guard := Guard.none, instr := .ppt 0 }).toNat) } }
    vec := { Vector.init with landed := true } }

/-- A paddock of that tile alone, in an image of one class. -/
def landingState : State :=
  { State.reset with pads := [(0, { Paddock.init with shape := { Shape.init with nstint := 1 }, tiles := [(0, landingTile)] })] }

theorem landingState_offers : landingState.offers = [(0, some (some (.ppt 0), false))] := by decide

theorem landingState_meet : landingState.meet.1.tile.core.conds = [sFault .pauseptInvalid 0] := by decide

/-- Refutes O18: its tile at rest leaves out that no write of the vector engine lands on this very cycle, which the model asks for (R337,
Tile.quiet_of_rests). A tile alone in its paddock on which one lands offers PPT of class 0 with every engine at rest as the statement
says it, and takes PAUSEPT_INVALID all the same. Where every tile is quiet the clause holds (State.meet_of_quiet). -/
theorem not_holdsPausesHalts : ¬ Obligations.HoldsPausesHalts := by
  unfold Obligations.HoldsPausesHalts
  intro h
  obtain ⟨-, -, -, -, -, hpause, -⟩ := h landingState 0 0 0
  have hmeets : landingState.meet = (landingState, false) := by
    refine hpause fun x hx => ?_
    rw [landingState_offers, List.mem_singleton] at hx
    subst hx
    refine ⟨0, rfl, by decide, by decide, fun y hy m b hm => ?_⟩
    rw [landingState_offers, List.mem_singleton] at hy
    subst hy
    cases hm
    rfl
  have hconds := landingState_meet
  rw [hmeets] at hconds
  exact absurd hconds (by decide)

/-- What the statement asks of a tile at rest makes it quiet but for a write that lands on this cycle (R337). -/
theorem Tile.quiet_of_rests {t : Tile} (hm : t.mq.entries = []) (hv : t.vq.entries = []) (hd : t.dq.entries = [])
    (hr : ∀ r ∈ t.dr.runs, r.slot = none) (hp : t.mx.prods = []) (hw : t.mx.rows = []) (ha : t.mx.loadA = none)
    (hb : t.mx.loadB = none) (hn : t.vec.pend = []) : t.quiet = !t.vec.landed := by
  have hheld : t.dr.held = [] := List.filterMap_eq_nil_iff.mpr hr
  simp [Tile.quiet, hm, hv, hd, hheld, hp, hw, ha, hb, hn]

/-- R44: where every tile that has not halted is quiet and offers a PPT of one class of the image, alone in its bundle, none of them
departs. -/
theorem State.meet_of_quiet (s : State) (h : ∀ x ∈ s.offers, ∃ m : BitVec 12, x.2 = some (some (.ppt m), false) ∧
    m.toNat < s.pad.shape.nstint ∧ (FMap.getD s.pad.tiles x.1 Tile.init).quiet = true ∧
    ∀ y ∈ s.offers, ∀ m' b, y.2 = some (some (.ppt m'), b) → m' = m) : s.meet = (s, false) := by
  have haligns : s.offers.filter offersAlign = [] := List.filter_eq_nil_iff.mpr fun x hx => by
    obtain ⟨m, hm, -⟩ := h x hx
    simp [offersAlign, hm]
  have hall : ¬ ((!s.offers.isEmpty) = true ∧ 0 = s.offers.length) := by
    rintro ⟨hne, hlen⟩
    simp [List.eq_nil_of_length_eq_zero hlen.symm] at hne
  have hstay : s.offers.find? (s.departs s.offers) = none := List.find?_eq_none.mpr fun x hx => by
    obtain ⟨m, hm, hlt, hq, hsame⟩ := h x hx
    have hclass : ∀ y ∈ s.offers, offersPpt y = some m.toNat := fun y hy => by
      obtain ⟨k, hk, -⟩ := h y hy
      simp [offersPpt, hk, hsame y hy k false hk]
    have hany : ∀ t : Nat × Option (Option Instr × Bool) → Bool, (∀ y ∈ s.offers, t y = false) → s.offers.any t = false :=
      fun t ht => List.any_eq_false.mpr fun y hy => by simp [ht y hy]
    simp only [State.departs, hclass x hx]
    rw [hany _ fun y hy => by simp [hclass y hy]]
    simp [hm, hq, Nat.not_le.mpr hlt]
  simp only [State.meet, haligns, List.length_nil, if_neg hall, hstay, Nat.lt_irrefl, false_and, if_false, ite_self]

end Sys2Proof.Machine

-- Trace records and mailbox writes of a function that traces nothing (R453, R454)

namespace Sys2Proof.Machine

/-- Without TCFG.EN no record is made. -/
theorem State.traceTile_off (s : State) (kind aux time : Nat) (data : W64) (h : bit (s.fn s.pad.fn).dbg.tcfg 63 = false) :
    s.traceTile kind aux time data = s := by
  simp [State.traceTile, Func.traces, h]

/-- A tile's source with one record more. -/
def Observe.recorded (o : Observe) (r : TraceRec) : Observe := { o with seq := o.seq + 1, buf := o.buf ++ [r], lost := 0 }

/-- A record that its function traces joins the tile's buffer while it has room (R451, R453). -/
theorem State.traceTile_on (s : State) (kind aux time : Nat) (data : W64) (h : (s.fn s.pad.fn).traces (traceBit kind) = true)
    (hb : s.tile.obs.buf.length < 64) : ∃ r : TraceRec,
      (r.kind = kind ∧ r.time = w64 time ∧ r.src = s.cur.tile ∧ r.seq = s.tile.obs.seq) ∧
      s.traceTile kind aux time data = s.modTile fun t => { t with obs := s.tile.obs.recorded r } := by
  simp only [State.traceTile, h, if_pos hb]
  exact ⟨_, ⟨rfl, rfl, rfl, rfl⟩, rfl⟩

theorem State.mailIn_off (s : State) (n : Nat) (v : W64) (time : Nat) (h : bit (s.fn s.pad.fn).dbg.tcfg 63 = false) :
    s.mailIn n v time = s.modTile fun t => { t with mbox := FMap.put t.mbox n v } :=
  State.traceTile_off _ _ _ _ _ (by rw [State.modTile_pad]; exact h)

theorem State.applyArmed_none (s : State) (c : Nat) (h : s.pad.dbg.armed = []) : s.applyArmed c = s.modPad fun p => p := by
  have hpad : { s.pad with dbg := { s.pad.dbg with armed := [] } } = s.pad := by rw [← h]
  simp only [State.applyArmed, h, List.filter_nil, List.foldl_nil, State.modPad, hpad]

def Paddock.unarmed (p : Paddock) : Paddock := { p with dbg := { p.dbg with armed := [] } }

/-- The only armed record, at its cycle, writes its mailbox and is used up (R454). -/
theorem State.applyArmed_single (s : State) (a : Armed) (h : s.pad.dbg.armed = [a])
    (ht : (FMap.get? s.pad.tiles a.tile).isSome = true) :
    s.applyArmed a.time = (s.modPad Paddock.unarmed).atTile a.tile fun s => s.mailIn a.mbox a.value a.time := by
  have hpad : { s.pad with dbg := { s.pad.dbg with armed := s.pad.dbg.armed.filter fun b => b.time != a.time } } =
      s.pad.unarmed := by rw [h]; simp [Paddock.unarmed]
  have hmod : (s.modPad fun p => { p with dbg := { p.dbg with armed := p.dbg.armed.filter fun b => b.time != a.time } }) =
      s.modPad Paddock.unarmed := congrArg (fun p => s.modPad fun _ => p) hpad
  have ht : (FMap.get? s.pad.unarmed.tiles a.tile).isSome = true := ht
  simp only [State.applyArmed, hmod]
  simp [h, insertSeq, ht]

end Sys2Proof.Machine

-- Tick beats, the release of an alignment, ALIGNIV and the timer (R37, R86, R89, R429)

namespace Sys2Proof.Machine

theorem FMap.get?_of_not_key {α : Type} (m : FMap α) (k : Nat) (h : k ∉ FMap.keys m) : FMap.get? m k = none :=
  FMap.get?_eq_none m k fun _ he hk => h (hk ▸ List.mem_map_of_mem he)

theorem FMap.get?_of_key {α : Type} (m : FMap α) (k : Nat) (h : k ∈ FMap.keys m) : ∃ v, FMap.get? m k = some v := by
  induction m with
  | nil => cases h
  | cons p m ih =>
    by_cases hk : p.1 = k
    · exact ⟨p.2, if_pos hk⟩
    · obtain ⟨v, hv⟩ := ih ((List.mem_cons.mp h).resolve_left (Ne.symm hk))
      exact ⟨v, (if_neg hk).trans hv⟩

/-- A change of every entry is seen at the keys and nowhere else. -/
theorem FMap.getD_map {α : Type} (m : FMap α) (k : Nat) (d : α) (f : Nat → α → α) :
    FMap.getD (m.map fun e => (e.1, f e.1 e.2)) k d = if k ∈ FMap.keys m then f k (FMap.getD m k d) else FMap.getD m k d := by
  rw [FMap.getD, FMap.get?_map, FMap.getD]
  split
  · next h => obtain ⟨v, hv⟩ := FMap.get?_of_key m k h; rw [hv]; rfl
  · next h => rw [FMap.get?_of_not_key m k h]; rfl

/-- A map that gives each of some keys the value of a function. -/
theorem FMap.get?_graph {α : Type} (f : Nat → α) (ks : List Nat) (k : Nat) (h : k ∈ ks) :
    FMap.get? (ks.map fun i => (i, f i)) k = some (f k) := by
  induction ks with
  | nil => cases h
  | cons i ks ih =>
    by_cases hk : i = k
    · subst hk; exact if_pos rfl
    · exact (if_neg hk).trans (ih ((List.mem_cons.mp h).resolve_left (Ne.symm hk)))

variable (s : State)

/-- R86: a beat gives every tile of the paddock its skew register, and no other tile. -/
theorem tileOf_beat (i : Nat) : (s.modPad fun p => p.beat s.dtick).tileOf s.cur.pad i =
    if i ∈ FMap.keys s.pad.tiles then (s.tileOf s.cur.pad i).setCtl 0x0A (s.pad.skewWord s.dtick i)
    else s.tileOf s.cur.pad i := by
  have hpad : (s.modPad fun p => p.beat s.dtick).padOf s.cur.pad = s.pad.beat s.dtick := s.modPad_pad _
  rw [State.tileOf, hpad]
  exact FMap.getD_map s.pad.tiles i Tile.init fun i t => t.setCtl 0x0A (s.pad.skewWord s.dtick i)

/-- R89: an alignment that is over is released, every die's count captured. -/
theorem execAlignRelease_due {d : Nat} (hf : s.pad.freeze = some (.align d)) (hd : d ≤ s.dtick) :
    exec .alignRelease s = .next (s.modPad fun p =>
      { p with
        freeze := none, capture := s.dtick, capTick := p.rtick, alignCnt := 0, slips := []
        bases := (s.pad.shape.dies s.pad.place).map fun e => (e, s.pad.alignedDtick s.panel e s.dtick) }) := by
  have hdue : s.pad.alignDue s.dtick = true := by simp [Paddock.alignDue, hf, hd]
  show execAlignRelease s = _
  rw [execAlignRelease, if_pos hdue]
  rfl

theorem execAlignivExpiry_over {i : Nat} {x : Tile} (ht : s.pad.tiles = [(i, x)]) (hiv : s.pad.shape.alignIv ≠ 0)
    (hcnt : s.pad.alignCnt = s.pad.shape.alignIv + 1) :
    exec .alignivExpiry s = .next (s.atTile i fun t => t.cond (timingFault .s 0x0A 0 s.pad.rtick)) := by
  have hover : s.pad.alignOver = true := by simp [Paddock.alignOver, hiv, hcnt]
  show execAlignivExpiry s = _
  rw [execAlignivExpiry, if_pos hover, ht]
  rfl

theorem execTimerPend_at (hc : bits (s.ctl kTimer) 62 0 = bits (s.ctl kTcmp) 62 0) (hp : bit (s.ctl kTimer) 63 = false) :
    execTimerPend s =
      .next ((s.setCtl kTimer (s.ctl kTimer ||| fld 1 63)).modCore fun c => { c with pendAt := s.pad.rtick }) := by
  have hnow : bits (s.ctl kTimer) 62 0 = bits (s.ctl kTcmp) 62 0 ∧ (!bit (s.ctl kTimer) 63) = true := ⟨hc, by rw [hp]; rfl⟩
  rw [execTimerPend, if_pos hnow]

theorem execTimerPend_off (h : bits (s.ctl kTimer) 62 0 ≠ bits (s.ctl kTcmp) 62 0 ∨ bit (s.ctl kTimer) 63 = true) :
    execTimerPend s = .next s := by
  have hnot : ¬ (bits (s.ctl kTimer) 62 0 = bits (s.ctl kTcmp) 62 0 ∧ (!bit (s.ctl kTimer) 63) = true) := by
    rintro ⟨hc, hp⟩
    rcases h with h | h
    · exact h hc
    · rw [h] at hp; cases hp
  rw [execTimerPend, if_neg hnot]

end Sys2Proof.Machine

-- Page walks and the copy of a move (R92, R93, R254)

namespace Sys2Proof.Machine

variable (s : State)

/-- R254: the walks that are over leave the TLB's list of walks. -/
theorem Tlb.fill_walks (b : Tlb) (now : Nat) : (b.fill now).walks = b.walks.filter fun w => match w.2 with
    | some d => decide (now < d)
    | none => true := by
  refine List.filter_congr fun w _ => ?_
  obtain ⟨g, d⟩ := w
  cases d with
  | none => rfl
  | some d => exact (decide_not ..).symm.trans (decide_eq_decide.mpr Nat.not_le)

theorem Tlb.fill_single (b : Tlb) {now g d : Nat} (hw : b.walks = [(g, some d)]) (hd : d ≤ now) :
    (b.fill now).pages.head? = some g := by
  simp [Tlb.fill, hw, hd]

/-- R92 step 5: the entry of a page that has switched, FORWARD and its old frame cleared. -/
theorem Paddock.switchPage_hbmEntry (p : Paddock) (g : Nat) (hg : g < p.shape.chan * 625) (hs : FMap.sorted p.pages = true) :
    (p.switchPage g).hbmEntry g = p.hbmEntry g &&& ~~~(fld 1 62 ||| span 39 0) := by
  show (if g < p.shape.chan * 625 then (FMap.get? (if _ = hbmDefault p.shape.world then _ else _) g).getD _ else _) = _
  rw [if_pos hg]
  split
  · next h => rw [FMap.get?_del_same _ _ hs]; exact h.symm
  · rw [FMap.get?_put_same]; rfl

theorem Paddock.switchPage_moving (p : Paddock) {g : Nat} {rest : List Nat} (h : p.moving = g :: rest) (hg : g ∉ rest) :
    (p.switchPage g).moving = rest := by
  show p.moving.filter (· != g) = rest
  rw [h, List.filter_cons_of_neg (by simp)]
  exact List.filter_eq_self.mpr fun x hx => by
    have hne : x ≠ g := fun e => hg (e ▸ hx)
    simpa using hne

/-- The paddock whose move is over: nothing of the old channels is left. -/
def Paddock.moved (p : Paddock) : Paddock := { p with oldChans := [], moveCmd := none, nextSwitch := none }

theorem State.freeOld_padAt (k : Nat) : (s.freeOld k).padAt k = (s.padAt k).moved := by
  show FMap.getD (FMap.modify s.pads k Paddock.moved) k Paddock.init = Paddock.moved (FMap.getD s.pads k Paddock.init)
  rw [FMap.getD, FMap.get?_modify_same, FMap.getD]
  cases FMap.get? s.pads k <;> rfl

theorem State.done_cur (op : Nat) (c : Command) (st : Nat) (r0 r1 : W64) : (s.done op c st r0 r1).cur = s.cur := by
  rw [State.done, State.modFn_cur]
  rcases s.post_cases c.fn (completionWords op c c.handle.toNat st r0 r1) with h | ⟨m, a, b, d, h⟩ <;> rw [h]
  rfl

/-- The end of a move frees the old channels, and a completion changes neither a paddock nor the panel. -/
theorem State.endMove_frame (k : Nat) : (s.endMove k).cur = s.cur ∧ (s.endMove k).pads = (s.freeOld k).pads ∧
    (s.endMove k).panel = (s.freeOld k).panel := by
  simp only [State.endMove]
  split
  · exact ⟨State.done_cur .., State.done_pads .., State.done_panel ..⟩
  · exact ⟨rfl, rfl, rfl⟩

theorem State.endMove_pad : (s.endMove s.cur.pad).pad = s.pad.moved := by
  obtain ⟨hc, hp, -⟩ := s.endMove_frame s.cur.pad
  rw [State.pad, hc, hp]
  exact s.freeOld_padAt s.cur.pad

theorem State.endMove_command {k : Nat} {c : Command} (h : (s.padAt k).moveCmd = some c) :
    s.endMove k = (s.freeOld k).done 0x07 c stOk (s.padAt k).place 0 := by
  simp only [State.endMove, h]

theorem execMovePageSwitch_cut {g : Nat} {rest : List Nat} (h : s.pad.moving = g :: rest) (hc : s.copyCut g = true) :
    exec .movePageSwitch s = .next s := by
  show execMovePageSwitch s = _
  simp only [execMovePageSwitch, h, hc, if_true]

theorem execMovePageSwitch_last {g : Nat} (h : s.pad.moving = [g]) (hc : s.copyCut g = false) :
    exec .movePageSwitch s = .next ((s.modPad fun p => p.switchPage g).endMove s.cur.pad) := by
  have hnone : (s.pad.switchPage g).moving = [] := s.pad.switchPage_moving h List.not_mem_nil
  show execMovePageSwitch s = _
  simp [execMovePageSwitch, h, hc, hnone]

/-- R92 step 6: with its last page switched the move is over, its old channels free and its command complete. -/
theorem execMovePageSwitch_ends {g : Nat} (h : s.pad.moving = [g]) (hc : s.copyCut g = false) :
    ∃ t, exec .movePageSwitch s = .next t ∧ t.pad = (s.pad.switchPage g).moved ∧
      t.panel.owners = s.panel.owners.filter (fun o => !(s.pad.oldChans.contains o.1 && o.2 == s.cur.pad)) ∧
      ∀ c, s.pad.moveCmd = some c →
        ∃ u : State, u.fns = s.fns ∧ u.host = s.host ∧ t = u.done 0x07 c stOk s.pad.place 0 := by
  refine ⟨_, execMovePageSwitch_last s h hc, ?_⟩
  generalize hu : s.modPad (fun p => p.switchPage g) = u
  have hpad : u.padAt s.cur.pad = s.pad.switchPage g := by rw [← hu]; exact s.modPad_pad _
  obtain ⟨-, -, hpanel⟩ := u.endMove_frame s.cur.pad
  refine ⟨?_, ?_, fun c hcmd => ⟨u.freeOld s.cur.pad, by rw [← hu]; rfl, by rw [← hu]; rfl, ?_⟩⟩
  · have hcur : u.cur = s.cur := by rw [← hu]; rfl
    rw [← hcur, u.endMove_pad, ← hpad, ← hcur]
    rfl
  · rw [hpanel, ← hu]
    exact congrArg (fun p : Paddock => s.panel.owners.filter fun o => !(p.oldChans.contains o.1 && o.2 == s.cur.pad))
      (hu ▸ hpad)
  · rw [u.endMove_command (c := c) (by rw [hpad]; exact hcmd), hpad]
    rfl

/-- The next page of a move is due by a dtick. -/
def Paddock.nextDue (p : Paddock) (d : Nat) : Paddock := { p with nextSwitch := some d }

/-- With more pages to copy the next one is due later. -/
theorem execMovePageSwitch_goes {g x : Nat} {rest : List Nat} (h : s.pad.moving = g :: x :: rest) (hg : g ∉ x :: rest)
    (hc : s.copyCut g = false) : ∃ t d, exec .movePageSwitch s = .next t ∧ t.panel = s.panel ∧ s.dtick < d ∧
      t.pad = (s.pad.switchPage g).nextDue d := by
  have hmore : (s.pad.switchPage g).moving = x :: rest := s.pad.switchPage_moving h hg
  have hexec : exec .movePageSwitch s = .next
      { (s.modPad fun p => p.switchPage g).modPad (fun p => p.nextDue s.copyDue) with free := s.free + 1 } := by
    show execMovePageSwitch s = _
    simp [execMovePageSwitch, h, hc, hmore]
    rfl
  refine ⟨_, s.copyDue, hexec, rfl, by unfold State.copyDue; omega, ?_⟩
  exact ((s.modPad _).modPad_pad fun p => p.nextDue s.copyDue).trans (congrArg (·.nextDue s.copyDue) (s.modPad_pad _))

theorem execMovePageSwitch_none (h : s.pad.moving = []) : exec .movePageSwitch s = .next (s.checkMove s.cur.pad) := by
  show execMovePageSwitch s = _
  simp only [execMovePageSwitch, h]

theorem State.checkMove_eq (h : s.pad.moving = []) :
    s.checkMove s.cur.pad = if s.pad.nextSwitch.isSome then s.endMove s.cur.pad else s := by
  show (if s.pad.moving.isEmpty && s.pad.nextSwitch.isSome then _ else _) = _
  rw [h]; rfl

end Sys2Proof.Machine

-- Replay inputs and samples (R449, R453, R454)

namespace Sys2Proof.Machine

section
variable (s : State)

/-- R454: in a loose stint the record of this cycle stands in its tile's mailbox and is used up. -/
theorem execReplayInputApply_loose {a : Armed} {x : Tile} (ha : s.pad.dbg.armed = [a])
    (hx : FMap.get? s.pad.tiles a.tile = some x) (hoff : bit (s.fn s.pad.fn).dbg.tcfg 63 = false) (ht : a.time = s.pad.rtick)
    (hl : s.pad.strict = false) : ∃ t, exec .replayInputApply s = .next t ∧ t.pad.dbg.armed = [] ∧
      t.tileOf s.cur.pad a.tile = { x with mbox := FMap.put x.mbox a.mbox a.value } := by
  generalize hu : (s.modPad Paddock.unarmed).at a.tile = u
  have hcur : u.cur = { s.cur with tile := a.tile } := by rw [← hu]; rfl
  have hpad : u.pad = s.pad.unarmed := by rw [← hu, State.at_pad, State.modPad_pad]
  have htile : u.tile = x := by rw [State.tile, hpad, hcur, FMap.getD]; exact congrArg (·.getD Tile.init) hx
  have huoff : bit (u.fn u.pad.fn).dbg.tcfg 63 = false := by rw [hpad, ← hu]; exact hoff
  have hexec : exec .replayInputApply s =
      .next { u.setTile { x with mbox := FMap.put x.mbox a.mbox a.value } with cur := s.cur } := by
    show execReplayInputApply s = _
    rw [execReplayInputApply, if_neg (by simp [State.strict, hl]), ← ht, s.applyArmed_single a ha (by rw [hx]; rfl),
      State.atTile, hu, State.mailIn_off _ _ _ _ huoff, State.modTile, htile]
    rfl
  have hkey : u.cur.pad = s.cur.pad := by rw [hcur]
  refine ⟨_, hexec, ?_, ?_⟩
  · show ((u.setTile _).padAt s.cur.pad).dbg.armed = []
    rw [← hkey]
    exact (congrArg (fun p : Paddock => p.dbg.armed) (u.setTile_pad _)).trans (by rw [hpad]; rfl)
  · exact (u.tileOf_setTile _ _ _).trans (if_pos ⟨hkey.symm, by rw [hcur]⟩)

theorem execReplayInputApply_strict (h : s.pad.strict = true) : exec .replayInputApply s = .next s := by
  show execReplayInputApply s = _
  rw [execReplayInputApply, State.strict, h, if_pos rfl]

theorem State.sample_off (h : bits (s.fn s.pad.fn).dbg.tcfg 39 32 < 10 ∨ 40 < bits (s.fn s.pad.fn).dbg.tcfg 39 32 ∨
    s.pad.rtick % 2 ^ bits (s.fn s.pad.fn).dbg.tcfg 39 32 ≠ 0) : s.sample = s := by
  rw [State.sample, if_neg (by omega)]

/-- R449, R453: a sample on a cycle that SPER divides, where its function traces them. -/
theorem execTraceSample_on (h10 : 10 ≤ bits (s.fn s.pad.fn).dbg.tcfg 39 32) (h40 : bits (s.fn s.pad.fn).dbg.tcfg 39 32 ≤ 40)
    (hdiv : s.pad.rtick % 2 ^ bits (s.fn s.pad.fn).dbg.tcfg 39 32 = 0) (hon : (s.fn s.pad.fn).traces 62 = true)
    (hb : s.tile.obs.buf.length < 64) : ∃ r : TraceRec,
      (r.kind = 1 ∧ r.time = w64 s.pad.rtick ∧ r.src = s.cur.tile ∧ r.seq = s.tile.obs.seq) ∧
      exec .traceSample s = .next (s.modTile fun t => { t with obs := s.tile.obs.recorded r }) := by
  have hsample : exec .traceSample s = .next (s.traceTile 1 0 s.pad.rtick _) :=
    congrArg Host.Outcome.next (if_pos ⟨h10, h40, hdiv⟩)
  obtain ⟨r, hr, hrec⟩ := s.traceTile_on 1 0 s.pad.rtick _ hon hb
  exact ⟨r, hr, hsample.trans (congrArg Host.Outcome.next hrec)⟩

end

/-- Settles O51: each event of the clocks and of the background by its own rule above. -/
theorem clocksAndBackground : Obligations.ClocksAndBackground := by
  unfold Obligations.ClocksAndBackground
  refine ⟨fun s => ⟨fun _ => ⟨_, rfl, rfl, rfl, tileOf_beat s⟩, fun d hf hd => ⟨_, execAlignRelease_due s hf hd, ?_⟩,
      fun i x ht hiv hcnt => execAlignivExpiry_over s ht hiv hcnt, ?_⟩,
    fun s => ⟨⟨_, rfl, sameMemory_setTile s _ rfl rfl rfl rfl, ?_, fun g d hw hd => ?_⟩,
      fun g rest hm hc => execMovePageSwitch_cut s hm hc, ?_, ?_, fun hm => ⟨fun hn => ?_, fun hn => ?_⟩,
      fun a x ha hx hoff ht => ⟨execReplayInputApply_loose s ha hx hoff ht, execReplayInputApply_strict s⟩, ?_⟩⟩
  · exact fun i hi => FMap.get?_graph _ _ i hi
  · rintro v rfl
    exact ⟨execTimerPend_at s, execTimerPend_off s⟩
  · rw [State.modTile_tile]; exact Tlb.fill_walks ..
  · rw [State.modTile_tile]; exact Tlb.fill_single _ hw hd
  · intro g hm hg hc hs
    obtain ⟨t, hexec, hpad, howners, hdone⟩ := execMovePageSwitch_ends s hm hc
    refine ⟨t, hexec, ?_, ?_, by rw [hpad]; rfl, by rw [hpad]; rfl, howners, hdone⟩ <;> rw [hpad]
    · exact s.pad.switchPage_hbmEntry g hg hs
    · exact s.pad.switchPage_moving hm List.not_mem_nil
  · intro g h rest hm hg hlt hc hs
    obtain ⟨t, d, hexec, hpanel, hd, hpad⟩ := execMovePageSwitch_goes s hm hg hc
    refine ⟨t, hexec, ?_, ?_, hpanel, d, by rw [hpad]; rfl, hd⟩ <;> rw [hpad]
    · exact s.pad.switchPage_moving hm hg
    · exact s.pad.switchPage_hbmEntry g hlt hs
  · rw [execMovePageSwitch_none s hm, s.checkMove_eq hm, hn]; rfl
  · refine ⟨_, (execMovePageSwitch_none s hm).trans (by rw [s.checkMove_eq hm, if_pos hn]), ?_⟩
    rw [s.endMove_pad]
    exact ⟨rfl, rfl, rfl⟩
  · rintro per o rfl rfl
    refine ⟨fun h10 h40 hdiv hen hsmp hsess hb => ?_, fun h => ?_⟩
    · have hon : (s.fn s.pad.fn).traces 62 = true := by simp [Func.traces, Func.inSession, hen, hsmp, hsess]
      obtain ⟨r, ⟨hk, ht, hsrc, hseq⟩, hexec⟩ := execTraceSample_on s h10 h40 hdiv hon hb
      refine ⟨_, r, hexec, ?_, hk, ht, hsrc, hseq, ?_, sameMemory_setTile s _ rfl rfl rfl rfl⟩ <;> rw [State.modTile_tile] <;> rfl
    · exact congrArg Host.Outcome.next (s.sample_off h)

end Sys2Proof.Machine

-- The end of a region cycle at a tile at rest (R135, R140, R242, R369, R439)

namespace Sys2Proof.Machine

/-- What of a tile's engines, late writes and stores could act at the end of a cycle, all of it at rest. -/
structure Tile.Rests (t : Tile) : Prop where
  mq : t.mq.entries = []
  vq : t.vq.entries = []
  dq : t.dq.entries = []
  mact : t.mq.act = none
  mx : t.mx = { t.mx with loadA := none, loadB := none, nest := none, prods := [], rows := [] }
  dr : t.dr = { t.dr with runs := [], tails := [], heads := [], shun := [] }
  landed : t.core.landed = []
  waitFrom : t.core.waitFrom = none
  mboxIn : t.mboxIn = []
  sync : t.sync = { t.sync with sig := [], set := [], sentInc := [], recvInc := [], contribs := [] }
  hits : t.st.hits = 0
  uncs : t.st.uncs = 0
  seen : t.obs.seen = []

theorem Observe.count_rd (o : Observe) (i k : Nat) :
    Regs.rd (o.count i).counters k = Regs.rd o.counters k + if k = i then 1 else 0 := by
  by_cases h : k = i
  · subst h; simp [Observe.count]
  · rw [Observe.count, Regs.rd_put_ne _ _ _ _ h]; simp [h]

/-- The loss account of a cycle on which every queue is EMPTY (Table 18-1). -/
def Observe.idleCycle (o : Observe) : Observe := ((({ o with seen := [] } : Observe).count 4).count 12).count 20

theorem Observe.idleCycle_rd (o : Observe) (k : Nat) : Regs.rd o.idleCycle.counters k =
    Regs.rd o.counters k + if k = 4 ∨ k = 12 ∨ k = 20 then 1 else 0 := by
  simp only [Observe.idleCycle, Observe.count_rd]
  by_cases h4 : k = 4
  · simp [h4]
  by_cases h12 : k = 12
  · simp [h12]
  · simp [h4, h12]

section
variable (s : State) {x : Tile} (h : x.Rests)
include h

theorem State.queueClass_empty (sl : Slot) : (s.setTile x).queueClass sl = (5, none) := by
  cases sl <;> simp [State.queueClass, Tile.queue, h.seen, h.mq, h.vq, h.dq, FMap.get?]

theorem State.lossTurn_idle : (s.setTile x).lossTurn = s.setTile { x with obs := x.obs.idleCycle } := by
  have hstall : x.core.isStalled = false := by simp [Core.isStalled, h.waitFrom]
  simp only [State.lossTurn, State.queueClass_empty s h, hstall, State.modTile, State.setTile_tile, State.setTile_setTile]
  rfl

theorem State.matrixEnd_idle : (s.setTile x).matrixEnd = s.setTile x := by
  have hp : x.mx.prods = [] := by rw [h.mx]
  have hr : x.mx.rows = [] := by rw [h.mx]
  have hcols : x.mx.enterA.enterB = x.mx := by rw [h.mx]; rfl
  have hmx : { x.mx with nest := none, prods := [], rows := [] } = x.mx := by rw [h.mx]
  simp only [State.matrixEnd, State.modMatrix, State.modTile, State.setTile_tile, State.setTile_setTile, hp, h.mq,
    List.foldl_nil, hcols, hr, h.mact]
  exact congrArg (fun m => s.setTile { x with mx := m }) hmx

theorem State.vectorEnd_idle : (s.setTile x).vectorEnd = s.setTile x := by
  simp only [State.vectorEnd, State.setTile_tile, h.vq]

theorem State.windowSends_idle : (s.setTile x).windowSends = s.setTile x := by
  have hr : x.dr.runs = [] := by rw [h.dr]
  rw [State.windowSends, State.setTile_tile, hr, List.foldl_nil]

theorem State.droverEnd_idle : (s.setTile x).droverEnd = s.setTile x := by
  have hr : x.dr.runs = [] := by rw [h.dr]
  have hs : x.dr.shun = [] := by rw [h.dr]
  have hdr : { x.dr with runs := [], shun := [] } = x.dr := by rw [h.dr]
  simp only [State.droverEnd, State.modDrover, State.modTile, State.setTile_tile, State.setTile_setTile, hr, hs, List.foldl_nil]
  exact congrArg (fun d => s.setTile { x with dr := d }) hdr

theorem State.countErrors_none : (s.setTile x).countErrors = s.setTile x := by
  rw [State.countErrors, State.setTile_tile, if_pos ⟨h.hits, h.uncs⟩]

end

theorem Queue.complete_empty {q : Queue} (now : Nat) (h : q.entries = []) : q.complete now = q := by
  rw [Queue.complete, h]
  cases q.act <;> rfl

/-- What the end of a cycle does to queues, synchronisation objects and rings at rest is nothing. -/
theorem Tile.Rests.completes {t : Tile} (h : t.Rests) (now : Nat) : t.mq.complete now = t.mq ∧ t.vq.complete now = t.vq ∧
    t.dq.complete now = t.dq ∧ t.sync.endCycle = t.sync ∧ t.dr.turnRings = t.dr :=
  ⟨Queue.complete_empty now h.mq, Queue.complete_empty now h.vq, Queue.complete_empty now h.dq, by rw [h.sync]; rfl,
    by rw [h.dr]; rfl⟩

-- The timer (R429)

theorem bits_low (w : W64) : bits w 62 0 = (w.setWidth 63).toNat := by simp [bits]

/-- The bit PEND as it was, with a count beside it. -/
def pendCount (old : W64) (c : Nat) : W64 := (old &&& fld 1 63) ||| w64 c

theorem pendCount_fields (old : W64) (c : Nat) (hc : c < 2 ^ 63) :
    bits (pendCount old c) 62 0 = c ∧ bit (pendCount old c) 63 = bit old 63 := by
  have hpend : (fld 1 63).setWidth 63 = 0#63 := by decide
  have hhigh : (w64 c).getLsbD 63 = false := by
    rw [w64, BitVec.getLsbD_ofNat, Nat.testBit_lt_two_pow hc, Bool.and_false]
  have hbit : (fld 1 63).getLsbD 63 = true := by decide
  constructor
  · rw [bits_low, pendCount, BitVec.setWidth_or, BitVec.setWidth_and, hpend]
    simp [w64]
    omega
  · rw [bit, pendCount, BitVec.getLsbD_or, BitVec.getLsbD_and, hhigh, hbit, Bool.and_true, Bool.or_false, bit]

theorem setPend_fields (w : W64) : bits (w ||| fld 1 63) 62 0 = bits w 62 0 ∧ bit (w ||| fld 1 63) 63 = true := by
  have hpend : (fld 1 63).setWidth 63 = 0#63 := by decide
  have hbit : (fld 1 63).getLsbD 63 = true := by decide
  constructor
  · rw [bits_low, bits_low, BitVec.setWidth_or, hpend, BitVec.or_zero]
  · rw [bit, BitVec.getLsbD_or, hbit, Bool.or_true]

theorem Tile.setCtl_setCtl (t : Tile) (k : Nat) (v w : W64) : (t.setCtl k v).setCtl k w = t.setCtl k w := by
  simp [Tile.setCtl, FMap.put_put]

/-- What COUNT and PEND become on a cycle of a tile with some control registers (R429). -/
def TimerCounts (ctl : Regs) (v : W64) : Prop :=
  bits v 62 0 = (bits (Regs.rd ctl kTimer) 62 0 + 1) % 2 ^ 63 ∧
    (bit v 63 = true ↔ bit (Regs.rd ctl kTimer) 63 = true ∨ bits v 62 0 = bits (Regs.rd ctl kTcmp) 62 0)

/-- A tile after its timer's turn: the timer, and the cycle PEND was set on. -/
def Tile.timed (t : Tile) (v : W64) (n : Nat) : Tile := { t.setCtl kTimer v with core := { t.core with pendAt := n } }

/-- R429: COUNT goes up by one, and PEND is set where it then equals CMP. -/
theorem State.timerTurn_spec (s : State) : ∃ (v : W64) (n : Nat),
    s.timerTurn = s.setTile (s.tile.timed v n) ∧
    TimerCounts s.tile.ctl v := by
  generalize hv : pendCount (s.ctl kTimer) ((bits (s.ctl kTimer) 62 0 + 1) % 2 ^ 63) = v
  generalize hu : s.setCtl kTimer v = u
  obtain ⟨hcount, hpend⟩ := pendCount_fields (s.ctl kTimer) _ (Nat.mod_lt (bits (s.ctl kTimer) 62 0 + 1) (by decide : 0 < 2 ^ 63))
  rw [hv] at hcount hpend
  have hturn : s.timerTurn = match execTimerPend u with
      | .next t => t
      | _ => u := by rw [← hu, ← hv]; rfl
  have htimer : u.ctl kTimer = v := by rw [← hu, State.ctl, State.setCtl_tile, Tile.setCtl_rd]
  have hcmp : u.ctl kTcmp = s.ctl kTcmp := by
    rw [← hu, State.ctl, State.setCtl_tile, Tile.setCtl_rd_ne _ _ _ _ (by decide)]; rfl
  by_cases hdue : bits v 62 0 = bits (s.ctl kTcmp) 62 0 ∧ bit v 63 = false
  · obtain ⟨hc, hp⟩ := hdue
    obtain ⟨hsame, hset⟩ := setPend_fields v
    refine ⟨v ||| fld 1 63, u.pad.rtick, ?_, hsame.trans hcount, iff_of_true hset (.inr (hsame.trans hc))⟩
    rw [hturn, execTimerPend_at u (by rw [htimer, hcmp]; exact hc) (by rw [htimer]; exact hp), htimer, ← hu,
      State.setCtl, State.setCtl, State.modTile_modTile, State.modCore, State.modTile_modTile]
    simp only [State.modTile, Tile.setCtl_setCtl]
    rfl
  · have hoff : bits (u.ctl kTimer) 62 0 ≠ bits (u.ctl kTcmp) 62 0 ∨ bit (u.ctl kTimer) 63 = true := by
      rw [htimer, hcmp]
      simpa only [Bool.not_eq_false] using not_and_or.mp hdue
    refine ⟨v, s.tile.core.pendAt, ?_, hcount, ?_⟩
    · rw [hturn, execTimerPend_off u hoff, ← hu]
      rfl
    · show bit v 63 = true ↔ bit (s.ctl kTimer) 63 = true ∨ bits v 62 0 = bits (s.ctl kTcmp) 62 0
      rw [← hpend]
      exact ⟨.inl, fun h => h.elim id fun hc => by simpa using fun hp => hdue ⟨hc, hp⟩⟩

/-- Without TCFG.EN there are no samples. -/
theorem State.sample_quiet (s : State) (h : bit (s.fn s.pad.fn).dbg.tcfg 63 = false) : s.sample = s := by
  simp only [State.sample, State.traceTile_off _ _ _ _ _ h, ite_self]

/-- A change that does nothing to a tile. -/
theorem State.modTile_setTile_self (s : State) {x : Tile} {f : Tile → Tile} (h : f x = x) :
    (s.setTile x).modTile f = s.setTile x := by
  rw [State.modTile, State.setTile_tile, State.setTile_setTile, h]

/-- The marks that a tile's cycle leaves: whether it was in use, and no landing any more. -/
def Tile.marked (t : Tile) : Tile := { t with core := { t.core with lately := t.inUse }, vec := { t.vec with landed := false } }

/-- A tile at rest at the end of a cycle, its timer aside. -/
def Tile.idleCycle (t : Tile) : Tile := { t.marked with obs := t.obs.idleCycle }

theorem Tile.Rests.marked {t : Tile} (h : t.Rests) : t.marked.Rests := { h with }
theorem Tile.Rests.idleCycle {t : Tile} (h : t.Rests) : t.idleCycle.Rests := { h with seen := rfl }
theorem Tile.Rests.timed {t : Tile} (h : t.Rests) (v : W64) (n : Nat) : (t.timed v n).Rests := { h with }

/-- What a cycle ends at a tile at rest before its timer's turn: only its marks and its loss account change. -/
theorem State.tileEnd_eq (s : State) (h : s.tile.Rests) :
    s.tileEnd = (s.setTile s.tile.idleCycle).timerTurn.sample.countErrors := by
  have hidle := h.idleCycle
  have hmarks : (s.modCore fun c => { c with lately := s.tile.inUse }).modVec (fun v => { v with landed := false }) =
      s.setTile s.tile.marked := by rw [State.modCore, State.modVec, State.modTile_modTile]; rfl
  have hloss : (s.setTile s.tile.marked).lossTurn = s.setTile s.tile.idleCycle := s.lossTurn_idle h.marked
  obtain ⟨hm, hv, hd, hsync, hrings⟩ := hidle.completes s.pad.rtick
  have hqueues : (s.setTile s.tile.idleCycle).modTile (fun t => { t with
      mq := t.mq.complete s.pad.rtick, vq := t.vq.complete s.pad.rtick, dq := t.dq.complete s.pad.rtick }) =
      s.setTile s.tile.idleCycle := s.modTile_setTile_self (by rw [hm, hv, hd])
  have hturn : (s.setTile s.tile.idleCycle).modTile (fun t => { t with sync := t.sync.endCycle, dr := t.dr.turnRings }) =
      s.setTile s.tile.idleCycle := s.modTile_setTile_self (by rw [hsync, hrings])
  have hmail : (s.setTile s.tile.idleCycle).modTile (fun t => { t with mboxIn := [] }) = s.setTile s.tile.idleCycle :=
    s.modTile_setTile_self (by rw [← hidle.mboxIn])
  simp only [State.tileEnd, hmarks, hloss, State.matrixEnd_idle s hidle, State.vectorEnd_idle s hidle,
    State.windowSends_idle s hidle, hqueues, State.droverEnd_idle s hidle, hturn, State.setTile_tile, hidle.landed,
    List.filter_nil, List.foldl_nil, hidle.mboxIn, hmail]

/-- At a tile at rest the end of a cycle moves the loss account and the timer, and nothing else. -/
theorem State.tileEnd_idle (s : State) (h : s.tile.Rests) (hoff : bit (s.fn s.pad.fn).dbg.tcfg 63 = false) :
    ∃ (v : W64) (n : Nat), s.tileEnd = s.setTile (s.tile.idleCycle.timed v n) ∧ TimerCounts s.tile.ctl v := by
  obtain ⟨v, n, hturn, hcounts⟩ := (s.setTile s.tile.idleCycle).timerTurn_spec
  rw [State.setTile_tile] at hcounts
  rw [State.setTile_tile, State.setTile_setTile] at hturn
  have hend : (s.tile.idleCycle.timed v n).Rests := h.idleCycle.timed v n
  have hquiet : bit ((s.setTile (s.tile.idleCycle.timed v n)).fn
      (s.setTile (s.tile.idleCycle.timed v n)).pad.fn).dbg.tcfg 63 = false := by
    rw [State.setTile_pad]; exact hoff
  refine ⟨v, n, ?_, hcounts⟩
  rw [s.tileEnd_eq h, hturn, State.sample_quiet _ hquiet, s.countErrors_none hend]

end Sys2Proof.Machine

-- The end of a region cycle of a paddock of one tile at rest (R37, R44, R46, R89, R439)

namespace Sys2Proof.Machine

theorem State.modPad_modPad (s : State) (f g : Paddock → Paddock) : (s.modPad f).modPad g = s.modPad fun p => g (f p) := by
  simp [State.modPad, State.pad, FMap.put_put]

/-- Only what a change makes of the current paddock counts. -/
theorem State.modPad_congr (s : State) {f g : Paddock → Paddock} (h : f s.pad = g s.pad) : s.modPad f = s.modPad g := by
  rw [State.modPad, State.modPad, h]

/-- A paddock with another state of its only tile. -/
def Paddock.only (p : Paddock) (i : Nat) (y : Tile) : Paddock := { p with tiles := [(i, y)] }

theorem FMap.getD_single {α : Type} (k : Nat) (v d : α) : FMap.getD [(k, v)] k d = v := by
  simp [FMap.getD, FMap.get?]

theorem State.at_tile {s : State} {i : Nat} {x : Tile} (ht : s.pad.tiles = [(i, x)]) : (s.at i).tile = x := by
  show FMap.getD s.pad.tiles i Tile.init = x
  rw [ht, FMap.getD_single]

/-- What is done at each tile is done at the only one. -/
theorem State.eachTile_single {s : State} {i : Nat} {x : Tile} (y : Tile) (f : State → State) (ht : s.pad.tiles = [(i, x)])
    (hd : x.core.dead = false) (hf : (s.at i).tile = x → f (s.at i) = (s.at i).setTile y) :
    s.eachTile f = s.modPad fun p => p.only i y := by
  have htile := State.at_tile ht
  have hput : FMap.put s.pad.tiles i y = [(i, y)] := by rw [ht]; simp [FMap.put]
  have hpad : { s.pad with tiles := FMap.put s.pad.tiles i y } = s.pad.only i y := by rw [hput]; rfl
  have hone : s.eachTile f = s.atTile i fun s => if s.tile.core.dead then s else f s := by
    rw [State.eachTile, State.everyTile, ht]; rfl
  rw [hone, State.atTile, htile, hd, if_neg Bool.false_ne_true, hf htile]
  exact congrArg (fun p => s.modPad fun _ => p) hpad

/-- A paddock of one tile, all of it at rest, that nothing traces and nothing is asked of. -/
structure State.Solo (s : State) (i : Nat) (x : Tile) : Prop where
  tiles : s.pad.tiles = [(i, x)]
  folds : s.pad.folds = []
  reports : s.pad.reports = []
  pending : s.pad.pending = []
  armed : s.pad.dbg.armed = []
  freeze : s.pad.freeze = none
  untraced : bit (s.fn s.pad.fn).dbg.tcfg 63 = false
  rests : x.Rests
  alive : x.core.dead = false
  untied : x.core.tie = false

/-- The paddock after a region cycle, before what that cycle's PPT or ALIGN do. -/
def Paddock.cycled (p : Paddock) (i : Nat) (y : Tile) (now : Nat) : Paddock :=
  { p with
    rtick := p.rtick + 1, alignCnt := p.alignCnt + 1, ranAt := now
    tiles := [(i, { y with core := { y.core with ppt := none, aligning := false } })] }

theorem execReplayInputApply_none (s : State) (f : Paddock → Paddock) (h : (f s.pad).dbg.armed = []) :
    execReplayInputApply (s.modPad f) = .next (s.modPad f) := by
  rw [execReplayInputApply, State.applyArmed_none _ _ (by rw [State.modPad_pad]; exact h), State.modPad_modPad, ite_self]

section
variable {s : State} {i : Nat} {x : Tile} (h : s.Solo i x)
include h

/-- The end of a region cycle at a tile at rest: what its PPT, or else its ALIGN, then do to the paddock that the cycle left. -/
theorem execRegionCycle_idle : ∃ (v : W64) (n : Nat), TimerCounts x.ctl v ∧
    let u := s.modPad fun p => p.cycled i (x.idleCycle.timed v n) s.dtick
    (x.core.ppt = none → exec .regionCycle s = .next (if x.core.aligning then u.alignFreeze else u)) ∧
    ∀ m, x.core.ppt = some m → exec .regionCycle s = .next (u.pausePoint s.cur.pad s.pad.rtick m) := by
  have hx := State.at_tile h.tiles
  obtain ⟨v, n, hend, hcounts⟩ := (s.at i).tileEnd_idle (hx ▸ h.rests) h.untraced
  rw [hx] at hend hcounts
  have htiles := State.eachTile_single _ State.tileEnd h.tiles h.alive fun _ => hend
  generalize hy : x.idleCycle.timed v n = y at hend htiles
  have hcore : y.core.ppt = x.core.ppt ∧ y.core.aligning = x.core.aligning := by rw [← hy]; exact ⟨rfl, rfl⟩
  have hfolds : (s.modPad fun p => p.only i y).modPad (fun p =>
      { p with folds := p.folds.map fun (e : Nat × Fold) => (e.1, e.2.turn p.rtick) }) = s.modPad fun p => p.only i y := by
    rw [State.modPad_modPad]
    refine s.modPad_congr (congrArg (fun l => { s.pad.only i y with folds := l }) ?_)
    show s.pad.folds.map _ = s.pad.folds
    rw [h.folds]
    rfl
  have hreplay : execReplayInputApply (s.modPad fun p => p.only i y) = .next (s.modPad fun p => p.only i y) :=
    execReplayInputApply_none s _ h.armed
  have hcycled : (s.modPad fun p => p.only i y).modPad (fun p =>
      { p with rtick := p.rtick + 1, alignCnt := p.alignCnt + 1, ranAt := s.dtick,
               tiles := p.tiles.map fun (e : Nat × Tile) => (e.1, { e.2 with core := { e.2.core with ppt := none, aligning := false } }) }) =
      s.modPad fun p => p.cycled i y s.dtick := by
    rw [State.modPad_modPad]
    rfl
  have htile : (s.modPad fun p => p.only i y).pad.tiles = [(i, y)] := by rw [State.modPad_pad]; rfl
  have hrtick : (s.modPad fun p => p.only i y).pad.rtick = s.pad.rtick := by rw [State.modPad_pad]; rfl
  have hreports : (s.modPad fun p => p.cycled i y s.dtick).pad.reports.isEmpty = true := by
    rw [State.modPad_pad]
    exact List.isEmpty_iff.mpr h.reports
  refine ⟨v, n, hcounts, fun hppt => ?_, fun m hppt => ?_⟩
  all_goals
    have hcls : (List.filterMap (fun e : Nat × Tile => e.2.core.ppt) [(i, y)]).head? = x.core.ppt := by
      rw [List.filterMap_cons, hcore.1, hppt]; rfl
    show execRegionCycle s = _
    simp only [execRegionCycle, htiles, hfolds, hreplay, State.modPad_dtick, hcycled, htile, hrtick, hreports, hcls, hppt, hy]
    simp [hcore.2]

end

end Sys2Proof.Machine

-- What an ALIGN and a PPT do to the paddock then

namespace Sys2Proof.Machine

/-- What is done at each tile in vain is not done. -/
theorem State.eachTile_id (s : State) (f : State → State) (hf : ∀ i, f (s.at i) = s.at i) : s.eachTile f = s := by
  have hone : ∀ i, s.atTile i (fun s => if s.tile.core.dead then s else f s) = s := fun i => by
    rw [State.atTile, hf, ite_self]
    rfl
  rw [State.eachTile, State.everyTile]
  induction FMap.keys s.pad.tiles with
  | nil => rfl
  | cons i is ih => rw [List.foldl_cons, hone, ih]

/-- Without TCFG.EN a pause point makes no records. -/
theorem State.recordPause_off (s : State) {k : Nat} (hoff : bit (s.fn (s.padAt k).fn).dbg.tcfg 63 = false) (c cls : Nat) :
    (s.onPad k fun s => s.eachTile fun s => s.traceTile 5 0 c (fld (s.pad.stint % 2 ^ 48) 0 ||| fld cls 48)) = s := by
  generalize hu : ({ s with cur := { pad := k, tile := 0 } } : State) = u
  have huoff : bit (u.fn u.pad.fn).dbg.tcfg 63 = false := by rw [← hu]; exact hoff
  have hnone : (u.eachTile fun s => s.traceTile 5 0 c (fld (s.pad.stint % 2 ^ 48) 0 ||| fld cls 48)) = u :=
    u.eachTile_id _ fun i => State.traceTile_off (u.at i) 5 0 c _ huoff
  rw [State.onPad, hu, hnone, ← hu]

theorem FMap.modify_put {α : Type} (m : FMap α) (k : Nat) (v : α) (f : α → α) :
    FMap.modify (FMap.put m k v) k f = FMap.put m k (f v) := by
  induction m with
  | nil => simp [FMap.put, FMap.modify]
  | cons p m ih =>
    simp only [FMap.put]
    split
    · simp [FMap.modify]
    · split
      · simp [FMap.modify]
      · next hne => rw [FMap.modify, if_neg (Ne.symm hne), ih]

/-- The current paddock changed by its key. -/
theorem State.modPad_modPadAt (s : State) (f g : Paddock → Paddock) :
    (s.modPad f).modPadAt s.cur.pad g = s.modPad fun p => g (f p) := by
  rw [State.modPadAt, State.modPad, FMap.modify_put]
  rfl

theorem State.modPad_padAt (s : State) (f : Paddock → Paddock) : (s.modPad f).padAt s.cur.pad = f s.pad := s.modPad_pad f

section
variable {s : State} {i : Nat} {y : Tile} (ht : s.pad.tiles = [(i, y)]) (hd : y.core.dead = false)
include ht hd

/-- R89, R90: an alignment on one die freezes it for two cycles. -/
theorem State.alignFreeze_one (hdies : (s.pad.shape.dies s.pad.place).length ≤ 1) : ∃ r, s.alignFreeze = s.modPad fun p =>
    { p.only i (y.setCtl 0x0B (Regs.rd y.ctl 0x0B + 2)) with freeze := some (.align (s.dtick + 3)), rises := r } := by
  have hrise : ∀ d, s.pad.alignRise s.panel.slipped s.dtick d = 2 := fun d => if_pos hdies
  have hloss := State.eachTile_single (y.setCtl 0x0B (Regs.rd y.ctl 0x0B + 2))
    (fun s => s.setCtl 0x0B (s.ctl 0x0B + w64 2)) ht hd fun htile => by
      rw [State.setCtl, State.ctl, State.modTile, htile]
      rfl
  simp only [State.alignFreeze, hrise, hloss, State.modPad_modPad]
  exact ⟨_, rfl⟩

/-- A mailbox write that a tile's latch holds takes effect (R46, R159). -/
theorem State.latchMail_single {m : Nat} {v : W64} (c : Nat) (hl : y.mboxLatch = [(m, v)]) (ha : s.pad.dbg.armed = [])
    (hoff : bit (s.fn s.pad.fn).dbg.tcfg 63 = false) :
    s.latchMail c = s.modPad fun p => p.only i { y with mbox := FMap.put y.mbox m v, mboxLatch := [] } := by
  have hmail := State.eachTile_single { y with mbox := FMap.put y.mbox m v, mboxLatch := [] }
    (fun s => (latched s.tile.mboxLatch).foldl (fun s e => s.mailIn e.1 e.2 c) (s.modTile fun t => { t with mboxLatch := [] }))
    ht hd fun htile => by
      rw [htile, hl]
      show State.mailIn _ m v c = _
      rw [State.mailIn_off _ _ _ _ (by rw [State.modTile_pad]; exact hoff), State.modTile_modTile, State.modTile, htile]
  have harmed : (s.modPad fun p => p.only i { y with mbox := FMap.put y.mbox m v, mboxLatch := [] }).pad.dbg.armed = [] := by
    rw [State.modPad_pad]; exact ha
  simp only [State.latchMail, hmail]
  rw [State.applyArmed_none _ _ harmed, State.modPad_modPad]

/-- The paddock after a pause point of class cls on cycle c (R44, R46). -/
def Paddock.paused (p : Paddock) (c cls : Nat) : Paddock :=
  { p with stint := (p.stint + 1) % 2 ^ 64, cls := cls, strict := p.shape.strict.getD cls true,
           pending := p.pending.map fun (q : Pending) => q.reached c }.measure

/-- R44, R46: a pause point at which one mailbox write waits and nothing else is due. -/
theorem State.pausePoint_single {m : Nat} {v : W64} (c cls : Nat) (hl : y.mboxLatch = [(m, v)]) (ha : s.pad.dbg.armed = [])
    (hq : s.pad.pending = []) (hf : s.pad.freeze = none) (htie : y.core.tie = false)
    (hoff : bit (s.fn s.pad.fn).dbg.tcfg 63 = false) : s.pausePoint s.cur.pad c cls =
      s.modPad fun p => (p.only i { y with mbox := FMap.put y.mbox m v, mboxLatch := [] }).paused c cls := by
  generalize hz : ({ y with mbox := FMap.put y.mbox m v, mboxLatch := [] } : Tile) = z
  generalize hw : (s.modPad fun p => (p.only i z).paused c cls) = w
  have hget : FMap.get? w.pads s.cur.pad = some ((s.pad.only i z).paused c cls) := by
    rw [← hw]; exact FMap.get?_put_same ..
  have hpending : ((s.pad.only i z).paused c cls).pending = [] := by
    show s.pad.pending.map _ = []
    rw [hq]; rfl
  have hmail : (s.onPad s.cur.pad fun s => s.latchMail c) = s.modPad fun p => p.only i z := by
    rw [State.onPad, State.latchMail_single (s := { s with cur := { pad := s.cur.pad, tile := 0 } }) ht hd c hl ha hoff, hz]
    rfl
  have hpoint : (s.modPad fun p => p.only i z).modPadAt s.cur.pad (fun p =>
      { p with stint := (p.stint + 1) % 2 ^ 64, cls := cls, strict := p.shape.strict.getD cls true,
               pending := p.pending.map fun (q : Pending) => q.reached c }.measure) = w := by
    rw [← hw]; exact s.modPad_modPadAt _ fun p => p.paused c cls
  have htrace : (w.onPad s.cur.pad fun s => s.eachTile fun s =>
      s.traceTile 5 0 c (fld (s.pad.stint % 2 ^ 48) 0 ||| fld cls 48)) = w := by
    have hwoff : bit (w.fn (w.padAt s.cur.pad).fn).dbg.tcfg 63 = false := by
      rw [State.padAt_of_get? hget, ← hw]; exact hoff
    exact w.recordPause_off hwoff c cls
  have hserved : (((s.pad.only i z).paused c cls).tiles.filter fun e =>
      (s.padAt s.cur.pad).strict && e.2.core.timerDue e.2.ctl c) = [] := by
    have hdue : z.core.timerDue z.ctl c = false := by rw [Core.timerDue, ← hz, htie]; simp
    have htiles : ((s.pad.only i z).paused c cls).tiles = [(i, z)] := rfl
    rw [htiles, List.filter_cons, hdue, Bool.and_false, if_neg Bool.false_ne_true, List.filter_nil]
  have hsettle : w.settle s.cur.pad = w := by
    have hnone : ((s.pad.only i z).paused c cls).freeze = none := hf
    simp only [State.settle, State.padAt_of_get? hget, hnone]
  simp only [State.pausePoint, hmail, hpoint, htrace, State.pageReqs_none hget c hpending, State.padAt_of_get? hget, hserved,
    List.isEmpty_nil, if_true, State.carryOut_none hget c hpending, hsettle]

end

end Sys2Proof.Machine

-- The three ends of a region cycle (R44, R46, R89, R429, R439)

namespace Sys2Proof.Machine

theorem State.tileOf_modPad {s : State} {f : Paddock → Paddock} {i : Nat} {z : Tile} (h : (f s.pad).tiles = [(i, z)]) :
    (s.modPad f).tileOf s.cur.pad i = z := by
  have hpad : (s.modPad f).padOf s.cur.pad = f s.pad := s.modPad_pad f
  rw [State.tileOf, hpad, h, FMap.getD_single]

/-- What every region cycle of tile x, of index i and at rest, leaves: the counts of the paddock, the timer, and the loss counters. -/
def CycleEnds (s t : State) (i : Nat) (x : Tile) : Prop :=
  t.pad.rtick = s.pad.rtick + 1 ∧ t.pad.alignCnt = s.pad.alignCnt + 1 ∧
    bits (Regs.rd (t.tileOf s.cur.pad i).ctl kTimer) 62 0 = (bits (Regs.rd x.ctl kTimer) 62 0 + 1) % 2 ^ 63 ∧
    (bit (Regs.rd (t.tileOf s.cur.pad i).ctl kTimer) 63 = true ↔ bit (Regs.rd x.ctl kTimer) 63 = true ∨
      bits (Regs.rd (t.tileOf s.cur.pad i).ctl kTimer) 62 0 = bits (Regs.rd x.ctl kTcmp) 62 0) ∧
    ∀ k, Regs.rd (t.tileOf s.cur.pad i).obs.counters k =
      Regs.rd x.obs.counters k + (if k = 4 ∨ k = 12 ∨ k = 20 then 1 else 0)

/-- A change of the paddock that counts the cycle and leaves of its tile the timer and the loss account that the cycle made. -/
theorem cycleEnds_modPad {s : State} {f : Paddock → Paddock} {i : Nat} {x z : Tile} {v : W64}
    (hr : (f s.pad).rtick = s.pad.rtick + 1) (ha : (f s.pad).alignCnt = s.pad.alignCnt + 1) (ht : (f s.pad).tiles = [(i, z)])
    (hv : TimerCounts x.ctl v) (hctl : Regs.rd z.ctl kTimer = v) (hobs : z.obs = x.obs.idleCycle) :
    CycleEnds s (s.modPad f) i x := by
  obtain ⟨hcount, hpend⟩ := hv
  rw [CycleEnds, State.tileOf_modPad ht, State.modPad_pad, hctl, hobs]
  exact ⟨hr, ha, hcount, hpend, x.obs.idleCycle_rd⟩

/-- The tile after a cycle at rest, its timer at v: what the end of the cycle leaves of it. -/
def Tile.cycleOver (x : Tile) (v : W64) (n : Nat) : Tile :=
  let y := x.idleCycle.timed v n
  { y with core := { y.core with ppt := none, aligning := false } }

theorem Tile.cycleOver_timer (x : Tile) (v : W64) (n : Nat) : Regs.rd (x.cycleOver v n).ctl kTimer = v :=
  Tile.setCtl_rd x.idleCycle kTimer v

section
variable {s : State} {i : Nat} {x : Tile} (h : s.Solo i x)
include h

/-- A cycle on which its tile issued neither PPT nor ALIGN. -/
theorem execRegionCycle_plain (hppt : x.core.ppt = none) (hal : x.core.aligning = false) :
    ∃ t, exec .regionCycle s = .next t ∧ CycleEnds s t i x ∧ t.pad.stint = s.pad.stint ∧ t.pad.freeze = none := by
  obtain ⟨v, n, hv, hexec, -⟩ := execRegionCycle_idle h
  refine ⟨_, (hexec hppt).trans (by rw [hal, if_neg Bool.false_ne_true]),
    cycleEnds_modPad rfl rfl rfl hv (x.cycleOver_timer v n) rfl, ?_⟩
  rw [State.modPad_pad]
  exact ⟨rfl, h.freeze⟩

/-- R44, R46: a PPT makes the cycle a pause point. -/
theorem execRegionCycle_pause {n m : Nat} {w : W64} (hppt : x.core.ppt = some n) (hl : x.mboxLatch = [(m, w)]) :
    ∃ t, exec .regionCycle s = .next t ∧ CycleEnds s t i x ∧ t.pad.stint = (s.pad.stint + 1) % 2 ^ 64 ∧ t.pad.cls = n ∧
      t.pad.strict = s.pad.shape.strict.getD n true ∧ Regs.rd (t.tileOf s.cur.pad i).mbox m = w ∧
      (t.tileOf s.cur.pad i).mboxLatch = [] ∧ t.pad.freeze = none := by
  obtain ⟨v, k, hv, -, hexec⟩ := execRegionCycle_idle h
  have hpad : (s.modPad fun p => p.cycled i (x.idleCycle.timed v k) s.dtick).pad = s.pad.cycled i (x.idleCycle.timed v k) s.dtick :=
    s.modPad_pad _
  have hpause := State.pausePoint_single (s := s.modPad fun p => p.cycled i (x.idleCycle.timed v k) s.dtick) (y := x.cycleOver v k)
    (by rw [hpad]; rfl) h.alive s.pad.rtick n hl (by rw [hpad]; exact h.armed) (by rw [hpad]; exact h.pending)
    (by rw [hpad]; exact h.freeze) h.untied (by rw [hpad]; exact h.untraced)
  rw [State.modPad_modPad] at hpause
  refine ⟨_, (hexec n hppt).trans (congrArg _ hpause), cycleEnds_modPad rfl rfl rfl hv (x.cycleOver_timer v k) rfl, ?_⟩
  rw [State.modPad_pad, State.tileOf_modPad rfl]
  exact ⟨rfl, rfl, rfl, Regs.rd_put_same .., rfl, h.freeze⟩

/-- R89, R90: an ALIGN on one die freezes the paddock for two cycles. -/
theorem execRegionCycle_align (hppt : x.core.ppt = none) (hal : x.core.aligning = true)
    (hdies : (s.pad.shape.dies s.pad.place).length ≤ 1) :
    ∃ t, exec .regionCycle s = .next t ∧ CycleEnds s t i x ∧ t.pad.freeze = some (.align (s.dtick + 3)) ∧
      Regs.rd (t.tileOf s.cur.pad i).ctl 0x0B = Regs.rd x.ctl 0x0B + 2 := by
  obtain ⟨v, n, hv, hexec, -⟩ := execRegionCycle_idle h
  have hpad : (s.modPad fun p => p.cycled i (x.idleCycle.timed v n) s.dtick).pad = s.pad.cycled i (x.idleCycle.timed v n) s.dtick :=
    s.modPad_pad _
  obtain ⟨r, hfreeze⟩ := State.alignFreeze_one (s := s.modPad fun p => p.cycled i (x.idleCycle.timed v n) s.dtick)
    (y := x.cycleOver v n) (by rw [hpad]; rfl) h.alive (by rw [hpad]; exact hdies)
  have htimer : Regs.rd ((x.cycleOver v n).setCtl 0x0B (Regs.rd (x.cycleOver v n).ctl 0x0B + 2)).ctl kTimer = v := by
    rw [Tile.setCtl_rd_ne _ _ _ _ (by decide), Tile.cycleOver_timer]
  have hloss : Regs.rd (x.cycleOver v n).ctl 0x0B = Regs.rd x.ctl 0x0B := x.idleCycle.setCtl_rd_ne kTimer 0x0B v (by decide)
  rw [State.modPad_modPad] at hfreeze
  refine ⟨_, (hexec hppt).trans (by rw [hal, if_pos rfl, hfreeze]), cycleEnds_modPad rfl rfl rfl hv htimer rfl, ?_⟩
  rw [State.modPad_pad, State.tileOf_modPad rfl, Tile.setCtl_rd, hloss]
  exact ⟨rfl, rfl⟩

end

/-- Settles O50: what every cycle at rest leaves, and then what its PPT or its ALIGN makes of it. -/
theorem regionCycleEnds : Obligations.RegionCycleEnds := by
  unfold Obligations.RegionCycleEnds
  intro s i x ht hfolds hreports hpending harmed hfreeze hoff hmq hvq hdq hmact _ _ hmx _ _ hdr hlanded hwait _ htie hin hsync
    hhits huncs hseen halive
  have hrests : x.Rests := ⟨hmq, hvq, hdq, hmact, hmx, hdr, hlanded, hwait, hin, hsync, hhits, huncs, hseen⟩
  have hsolo : s.Solo i x := ⟨ht, hfolds, hreports, hpending, harmed, hfreeze, hoff, hrests, halive, htie⟩
  exact ⟨execRegionCycle_plain hsolo, fun n m v hppt _ hl _ => execRegionCycle_pause hsolo hppt hl, execRegionCycle_align hsolo⟩

end Sys2Proof.Machine

-- What a host write does to its function's registers (R53 to R57, R94, R400, R446)

namespace Sys2Proof.Machine

theorem State.setFn_setFn (s : State) (n : Nat) (f g : Func) : (s.setFn n f).setFn n g = s.setFn n g := by
  simp [State.setFn, FMap.put_put]

/-- An entry that fails a test, put in the place of one that failed it, changes nothing among those that pass. -/
theorem FMap.filter_put {α : Type} (m : FMap α) (k : Nat) (v : α) (t : α → Bool) (hv : t v = false)
    (hm : ∀ w, FMap.get? m k = some w → t w = false) :
    (FMap.put m k v).filter (fun e => t e.2) = m.filter fun e => t e.2 := by
  induction m with
  | nil => simp [FMap.put, hv]
  | cons p m ih =>
    rw [FMap.put]
    split
    · simp [hv]
    · split
      · next hk => simp [hv, hm p.2 (by simp [FMap.get?, hk])]
      · next hk =>
        have ih := ih fun w hw => hm w (by rw [FMap.get?, if_neg (Ne.symm hk)]; exact hw)
        simp only [List.filter_cons, ih]

/-- What a function without a slot becomes, still without one and pinned as before, changes nothing about who holds the slots. -/
theorem State.allPinned_setFn (s : State) (n : Nat) (f : Func) (hs : (s.fn n).mapped = false) (hf : f.mapped = false)
    (hp : f.pinned = (s.fn n).pinned) : (s.setFn n f).allPinned = s.allPinned := by
  have hfilter := FMap.filter_put s.fns n f Func.mapped hf fun w hw => by simpa [State.fn, FMap.getD, hw] using hs
  have hmapped : (s.setFn n f).mappedFns = s.mappedFns := congrArg (List.map Prod.fst) hfilter
  have hpins : ∀ m, ((s.setFn n f).fn m).pinned = (s.fn m).pinned := fun m => by
    by_cases h : m = n
    · rw [h, State.setFn_fn, hp]
    · rw [State.setFn_fn_ne _ _ _ _ h]
  simp only [State.allPinned, hmapped, hpins]

section
variable (s : State) (n : Nat) (v : W64)

-- NOTIFY

/-- A function whose ring has a new tail (R55, R63). -/
def Func.notified (f : Func) (tail : Nat) : Func := { f with tail := tail, recheck := f.halt == 1 }

theorem execNotify_neutral
    (h : (s.fn n).enabled = false ∨ (s.fn n).halt = 2 ∨ diff32 (bits v 31 0) (s.fn n).head = 0) :
    exec (.notify n v) s = .next s := if_pos (by simpa using h)

section
variable (hon : (s.fn n).enabled = true) (hh : (s.fn n).halt ≠ 2)
include hon hh

theorem execNotify_overflows (hd : (s.fn n).ringSize < diff32 (bits v 31 0) (s.fn n).head) :
    exec (.notify n v) s = .next ((s.setFn n { s.fn n with halt := 2 }).event n evRingOvf noHandle 0 0) :=
  (if_neg (by simp [hon, hh]; omega)).trans (if_pos hd)

variable (h0 : 0 < diff32 (bits v 31 0) (s.fn n).head) (hd : diff32 (bits v 31 0) (s.fn n).head ≤ (s.fn n).ringSize)
include h0 hd

theorem execNotify_takes :
    exec (.notify n v) s = .next ((s.setFn n ((s.fn n).notified (bits v 31 0))).latchNotify n) :=
  (if_neg (by simp [hon, hh]; omega)).trans (if_neg (by omega))

theorem execNotify_mapped (hm : (s.fn n).mapped = true) :
    exec (.notify n v) s = .next (s.setFn n ((s.fn n).notified (bits v 31 0))) := by
  have hslot : ((s.setFn n ((s.fn n).notified (bits v 31 0))).fn n).mapped = true := by rw [State.setFn_fn]; exact hm
  rw [execNotify_takes s n v hon hh h0 hd, State.latchNotify, if_pos hslot]

/-- Without a slot the notify is latched, and counted where every slot is pinned. -/
theorem execNotify_latches (hm : (s.fn n).mapped = false) :
    let f := { (s.fn n).notified (bits v 31 0) with pendingMap := true }
    exec (.notify n v) s = .next (if s.allPinned then (s.setFn n f).countNotify n else s.setFn n f) := by
  intro f
  have hslot : ¬((s.setFn n ((s.fn n).notified (bits v 31 0))).fn n).mapped = true := by
    rw [State.setFn_fn]; simpa [Func.notified] using hm
  have hpinned : (s.setFn n f).allPinned = s.allPinned := s.allPinned_setFn n f hm hm rfl
  rw [execNotify_takes s n v hon hh h0 hd, State.latchNotify, if_neg hslot, State.setFn_setFn, State.setFn_fn, ← hpinned]

end

-- KHEAD and RCFG

theorem execKhead_nothingWaits (h : (s.fn n).blocked = []) :
    exec (.khead n v) s = .next (s.setFn n { s.fn n with khead := bits v 31 0 }) := by
  have hnone : ((s.modFn n fun f => { f with khead := bits v 31 0 }).fn n).blocked = [] := by rw [State.modFn_fn]; exact h
  show execKhead n v s = _
  rw [execKhead, hnone]
  rfl

/-- The one entry that waits is written where there is room for it. -/
theorem State.flush_one {s : State} {n : Nat} {ws : List W64} (h : (s.fn n).blocked = [ws]) (hfull : (s.fn n).full = false)
    (hon : (s.fn n).enabled = true) : s.flush n 1 = (s.setFn n { s.fn n with blocked := [] }).putEntry n ws := by
  simp only [State.flush, h, hfull, hon]
  rfl

theorem execKhead_oneWaits {ws : List W64} (h : (s.fn n).blocked = [ws]) (hon : (s.fn n).enabled = true)
    (hroom : diff32 (s.fn n).ktail (bits v 31 0) ≠ (s.fn n).compSize) :
    exec (.khead n v) s = .next ((s.setFn n { s.fn n with khead := bits v 31 0, blocked := [] }).putEntry n ws) := by
  generalize hu : (s.setFn n { s.fn n with khead := bits v 31 0 }) = u
  have hf : u.fn n = { s.fn n with khead := bits v 31 0 } := by rw [← hu, State.setFn_fn]
  have hfull : (u.fn n).full = false := by rw [hf]; exact beq_false_of_ne hroom
  have hexec : exec (.khead n v) s = .next (u.flush n (u.fn n).blocked.length) := by rw [← hu]; rfl
  have hb : (u.fn n).blocked = [ws] := by rw [hf]; exact h
  rw [hexec, hb, List.length_singleton, State.flush_one hb hfull (by rw [hf]; exact hon), hf, ← hu, State.setFn_setFn]

theorem rcfgMask_eq : rcfgMask = 0x800000FF := by decide

section
variable (hoff : (s.fn n).enabled = false)
include hoff

theorem execRcfgWrite_tooLarge (h : 10 < bits v 3 0 ∨ 10 < bits v 7 4) : exec (.rcfgWrite n v) s = .next s := by
  show Host.Outcome.next (s.writeRcfg n v) = _
  rw [State.writeRcfg, hoff, if_neg Bool.false_ne_true, if_pos h]

variable (h3 : bits v 3 0 ≤ 10) (h7 : bits v 7 4 ≤ 10)
include h3 h7

theorem execRcfgWrite_sizes (hv : v.getLsbD 31 = false) :
    exec (.rcfgWrite n v) s = .next (s.setFn n { s.fn n with rcfg := v &&& 0x800000FF }) := by
  have hsize : ¬(10 < bits v 3 0 ∨ 10 < bits v 7 4) := by omega
  show Host.Outcome.next (s.writeRcfg n v) = _
  rw [State.writeRcfg, hoff, if_neg Bool.false_ne_true, if_neg hsize, bit_eq_getLsbD, hv, rcfgMask_eq]
  rfl

/-- Setting EN starts the rings afresh; with nothing held nothing is written. -/
theorem execRcfgWrite_enables (hv : v.getLsbD 31 = true) (hheld : (s.fn n).held = []) :
    exec (.rcfgWrite n v) s = .next (s.setFn n { s.fn n with
      rcfg := v &&& 0x800000FF, head := 0, tail := 0, ktail := 0, khead := 0, held := [], blocked := []
      halt := if (s.fn n).halt = 2 then 0 else (s.fn n).halt, recheck := false }) := by
  have hsize : ¬(10 < bits v 3 0 ∨ 10 < bits v 7 4) := by omega
  show Host.Outcome.next (s.writeRcfg n v) = _
  rw [State.writeRcfg, hoff, if_neg Bool.false_ne_true, if_neg hsize, bit_eq_getLsbD, hv, hheld, rcfgMask_eq]
  rfl

end

section
variable (hon : (s.fn n).enabled = true)
include hon

theorem execRcfgWrite_staysOn (hv : v.getLsbD 31 = true) : exec (.rcfgWrite n v) s = .next s := by
  show Host.Outcome.next (s.writeRcfg n v) = _
  rw [State.writeRcfg, hon, if_pos rfl, bit_eq_getLsbD, hv, if_pos rfl]

/-- Clearing EN holds what waited. -/
theorem execRcfgWrite_disables (hv : v.getLsbD 31 = false) : exec (.rcfgWrite n v) s = .next (s.setFn n
    { s.fn n with rcfg := (s.fn n).rcfg &&& 0xFF, held := (s.fn n).blocked ++ (s.fn n).held, blocked := [] }) := by
  have hmask : span 7 0 = 0xFF := by decide
  show Host.Outcome.next (s.writeRcfg n v) = _
  rw [State.writeRcfg, hon, if_pos rfl, bit_eq_getLsbD, hv, if_neg Bool.false_ne_true, hmask]

end

-- TCFG

theorem execTcfgWrite_ignored (h : (s.fn n).session ≠ none ∨ ((s.fn n).dbg.tcfg.getLsbD 63 = true ∧ v.getLsbD 63 = true)) :
    exec (.tcfgWrite n v) s = .next s :=
  if_pos (by simpa [Func.inSession, bit_eq_getLsbD, Option.isSome_iff_ne_none] using h)

theorem execTcfgWrite_taken (hs : (s.fn n).session = none) (h : (s.fn n).dbg.tcfg.getLsbD 63 = false ∨ v.getLsbD 63 = false) :
    exec (.tcfgWrite n v) s = .next (s.setFn n { s.fn n with dbg := { (s.fn n).dbg with
      tcfg := v &&& 0xFE0F00FF00000000, tdrop := if v.getLsbD 63 then 0 else (s.fn n).dbg.tdrop } }) := by
  have hmask : tcfgMask = 0xFE0F00FF00000000 := by decide
  have hopen : (s.fn n).inSession = false := by rw [Func.inSession, hs]; rfl
  have hfree : ((s.fn n).dbg.tcfg.getLsbD 63 && v.getLsbD 63) = false := Bool.and_eq_false_iff.mpr h
  refine (if_neg ?_).trans (by rw [hmask]; rfl)
  show ¬((s.fn n).inSession || ((s.fn n).dbg.tcfg.getLsbD 63 && v.getLsbD 63)) = true
  rw [hopen, hfree]
  decide

-- Registers of plain storage

/-- A register of a function's block reads back what a write has left in the function. -/
theorem hostReg_of_modFn {bar : Bar} {off : Nat} {g : Func → Func} {w : W64} (field : Func → W64)
    (hexec : exec (.hostRegisterWrite n bar off v) s = .next (s.modFn n g))
    (hread : ∀ t : State, t.hostReg n bar off = field (t.fn n)) (hw : field (g (s.fn n)) = w) :
    ∃ t, exec (.hostRegisterWrite n bar off v) s = .next t ∧ t.hostReg n bar off = w :=
  ⟨_, hexec, by rw [hread, State.modFn_fn, hw]⟩

/-- A field of the debug block reads back what a write has left there. -/
theorem hostReg_of_modDbg {off : Nat} {g : DebugBlock → DebugBlock} {w : W64} (field : DebugBlock → W64)
    (hoff : off ∉ [0x08, 0x38, 0x48, 0x108]) (hwrite : s.writeBar4 n off v = s.modDbg n g)
    (hread : ∀ t : State, t.hostReg n .bar4 off = field (t.fn n).dbg) (hw : ∀ d, field (g d) = w) :
    ∃ t, exec (.hostRegisterWrite n .bar4 off v) s = .next t ∧ t.hostReg n .bar4 off = w := by
  simp only [List.mem_cons, List.not_mem_nil, or_false, not_or] at hoff
  obtain ⟨h8, h38, h48, h108⟩ := hoff
  refine hostReg_of_modFn s n v (g := fun f => { f with dbg := g f.dbg }) (fun f => field f.dbg) ?_ hread (hw _)
  show execHostRegisterWrite n .bar4 off v s = _
  rw [execHostRegisterWrite, if_neg h8, if_neg h38, if_neg h48, if_neg h108, hwrite]
  rfl

/-- The debug block's registers of plain storage (Table 18-6). -/
theorem writeBar4_plain :
    s.writeBar4 n 0x00 v = s.modDbg n (fun d => { d with dhandle := v &&& 0xFFFF }) ∧
    s.writeBar4 n 0x18 v = s.modDbg n (fun d => { d with ddump := v &&& 0xFFFFFFFFFFFFFFC0 }) ∧
    s.writeBar4 n 0x20 v = s.modDbg n (fun d => { d with dtile := v &&& 0xFFFFFFFF }) ∧
    s.writeBar4 n 0x30 v = s.modDbg n (fun d => { d with tbase := v &&& 0xFFFFFFFFFFFFF000 }) ∧
    s.writeBar4 n 0x58 v = s.modDbg n (fun d => { d with rbase := v &&& 0xFFFFFFFFFFFFFFE0 }) ∧
    s.writeBar4 n 0x60 v = s.modDbg n (fun d => { d with rcnt := v &&& 0xFFFFFFFF }) := by
  have hmasks : span 15 0 = 0xFFFF ∧ span 63 6 = 0xFFFFFFFFFFFFFFC0 ∧ span 31 0 = 0xFFFFFFFF ∧
      span 63 12 = 0xFFFFFFFFFFFFF000 ∧ span 63 5 = 0xFFFFFFFFFFFFFFE0 := by decide
  obtain ⟨h15, h6, h31, h12, h5⟩ := hmasks
  rw [← h15, ← h6, ← h31, ← h12, ← h5]
  exact ⟨rfl, rfl, rfl, rfl, rfl, rfl⟩

theorem ringBases_off (hoff : (s.fn n).enabled = false) :
    (s.fn n).setBase false v = { s.fn n with cbase := v &&& 0xFFFFFFFFFFFFF000 } ∧
    (s.fn n).setBase true v = { s.fn n with kbase := v &&& 0xFFFFFFFFFFFFF000 } := by
  have hmask : span 63 12 = 0xFFFFFFFFFFFFF000 := by decide
  simp [Func.setBase, hoff, hmask]

theorem ringBases_on (hon : (s.fn n).enabled = true) (comp : Bool) : (s.fn n).setBase comp v = s.fn n := if_pos hon

/-- The registers whose write is a row of its own (R53). -/
theorem execHostRegisterWrite_acts :
    execHostRegisterWrite n .bar0 0x00 v s = execNotify n v s ∧ execHostRegisterWrite n .bar0 0x18 v s = execRcfgWrite n v s ∧
    execHostRegisterWrite n .bar0 0x28 v s = execKhead n v s ∧ execHostRegisterWrite n .bar4 0x38 v s = execTcfgWrite n v s ∧
    execHostRegisterWrite n .bar4 0x48 v s = execThead n v s ∧ execHostRegisterWrite 0 .bar2 0x400 v s = execPcommit v s ∧
    execHostRegisterWrite 0 .bar2 0x1808 v s = execEinjctlGo v s ∧
    execHostRegisterWrite 0 .bar2 0x1900 v s = execPanelnoWrite v s := by simp [execHostRegisterWrite]

end

/-- Settles O57: each register by its own rule above. -/
theorem hostRegisterWrites : Obligations.HostRegisterWrites := by
  unfold Obligations.HostRegisterWrites
  intro s n v f on size d back
  obtain ⟨hdhandle, hddump, hdtile, htbase, hrbase, hrcnt⟩ := writeBar4_plain s n v
  have hoff : ¬ on → f.enabled = false := Bool.eq_false_iff.mpr
  refine ⟨fun hon hh h0 hd hm => execNotify_mapped s n v hon hh h0 hd hm, fun hon hh h0 hd hm hp => ?_, fun hon hh h0 hd hm hp => ?_,
    fun hon hh hd => execNotify_overflows s n v hon hh hd, fun h => execNotify_neutral s n v (h.imp_left hoff),
    fun h => execKhead_nothingWaits s n v h, fun ws h hon hroom => execKhead_oneWaits s n v h hon hroom,
    fun h h3 h7 hv => execRcfgWrite_sizes s n v (hoff h) h3 h7 hv, fun h h3 h7 hv hheld => ?_,
    fun h hsize => execRcfgWrite_tooLarge s n v (hoff h) hsize, fun hon hv => execRcfgWrite_staysOn s n v hon hv,
    fun hon hv => execRcfgWrite_disables s n v hon hv, fun hs ht => execTcfgWrite_taken s n v hs (.inl ht), fun hs _ hv => ?_,
    fun h => execTcfgWrite_ignored s n v h, rfl, execHostRegisterWrite_acts s n v, fun h => ?_, fun hon => ?_,
    ?_, ?_, ?_, ?_, ?_, ?_, fun hn => ?_, fun hn off => if_pos hn, fun off hoff => ?_⟩
  · exact (execNotify_latches s n v hon hh h0 hd hm).trans (by rw [hp]; rfl)
  · refine (execNotify_latches s n v hon hh h0 hd hm).trans ?_
    rw [hp, if_pos rfl, State.countNotify, State.setFn_setFn, State.setFn_fn]
    rfl
  · refine ⟨_, execRcfgWrite_enables s n v (hoff h) h3 h7 hv hheld, ?_⟩
    rw [State.setFn_fn]
    exact ⟨rfl, rfl, rfl, rfl, rfl, fun h2 => if_pos h2, rfl⟩
  · rw [execTcfgWrite_taken s n v hs (.inr hv), hv]
    rfl
  · obtain ⟨hc, hk⟩ := ringBases_off s n v (hoff h)
    exact ⟨hostReg_of_modFn s n v Func.cbase rfl (fun _ => rfl) (by rw [hc]),
      hostReg_of_modFn s n v Func.kbase rfl (fun _ => rfl) (by rw [hk])⟩
  · have hbase := ringBases_on s n v hon
    exact ⟨hostReg_of_modFn s n v Func.cbase rfl (fun _ => rfl) (by rw [hbase]),
      hostReg_of_modFn s n v Func.kbase rfl (fun _ => rfl) (by rw [hbase])⟩
  · exact hostReg_of_modDbg s n v DebugBlock.dhandle (by decide) hdhandle (fun _ => rfl) fun _ => rfl
  · exact hostReg_of_modDbg s n v DebugBlock.ddump (by decide) hddump (fun _ => rfl) fun _ => rfl
  · exact hostReg_of_modDbg s n v DebugBlock.dtile (by decide) hdtile (fun _ => rfl) fun _ => rfl
  · exact hostReg_of_modDbg s n v DebugBlock.tbase (by decide) htbase (fun _ => rfl) fun _ => rfl
  · exact hostReg_of_modDbg s n v DebugBlock.rbase (by decide) hrbase (fun _ => rfl) fun _ => rfl
  · exact hostReg_of_modDbg s n v DebugBlock.rcnt (by decide) hrcnt (fun _ => rfl) fun _ => rfl
  · subst hn
    exact ⟨_, rfl, congrArg (v &&& ·) (show span 41 20 ||| span 18 0 = 0x000003FFFFF7FFFF by decide)⟩
  · simp only [List.mem_cons, List.not_mem_nil, or_false, not_or] at hoff
    obtain ⟨h0, h8, h10, h18, h28⟩ := hoff
    show execHostRegisterWrite n .bar0 off v s = _
    rw [execHostRegisterWrite, if_neg h0, if_neg h8, if_neg h10, if_neg h18, if_neg h28]

end Sys2Proof.Machine

-- What turns a command away (R59, R66, R477, R478)

namespace Sys2Proof.Machine

theorem firstFail_append {a b : List (Bool × Nat)} (h : firstFail a = none) : firstFail (a ++ b) = firstFail b := by
  induction a with
  | nil => rfl
  | cons x a ih =>
    obtain ⟨bad, st⟩ := x
    cases bad with
    | true => cases h
    | false => exact ih h

theorem firstFail_plain {c : Command} {extra : List W64} (hf : c.flags = 0) (h : ∀ w ∈ extra, w = 0) :
    firstFail (plain c extra) = none := by
  have hzero : extra.any (· != 0) = false := by simpa using h
  have hflags : (c.flags != 0) = false := by simp [hf]
  rw [plain, hflags, hzero]
  rfl

/-- What the checks of the handle and of the paddock's state give. -/
inductive State.Unnamed (s : State) (k : Nat) : Nat → Prop
  | noHandle : FMap.get? s.pads k = none → s.Unnamed k stBadHandle
  | destroyed : FMap.get? s.pads k = some (s.padAt k) → (s.padAt k).state = .destroyed → s.Unnamed k stBadState

theorem firstFail_named {s : State} {k st : Nat} {legal : List PState} (hd : .destroyed ∉ legal) (h : s.Unnamed k st)
    (rest : List (Bool × Nat)) : firstFail (s.named k legal ++ rest) = some st := by
  cases h with
  | noHandle hg => simp [State.named, firstFail, hg]
  | destroyed hg hs => simp [State.named, firstFail, hg, hs, hd]

theorem firstFail_named_none {s : State} {k : Nat} {legal : List PState} {p : Paddock} (hg : FMap.get? s.pads k = some p)
    (hl : p.state ∈ legal) : firstFail (s.named k legal) = none := by
  simp [State.named, firstFail, hg, State.padAt_of_get? hg, hl]

section
variable {s : State} {c : Command} (hseq : c.seq.toNat + 1 < 2 ^ 64) {op st : Nat} {inHold : Bool} {checks : List (Bool × Nat)}
  {eff : State → State}
include hseq

/-- Short of the last command number no session is void. -/
theorem Command.seq_not_last : (c.seq.toNat + 1 == 2 ^ 64) = false := by simpa using Nat.ne_of_lt hseq

theorem State.command_expired (hh : (s.fn c.fn).hold ≠ none) (hi : inHold = false) :
    s.command op c inHold checks eff = .next (s.done op c stExpired 0 0) := by
  have hheld : ((s.fn c.fn).hold.isSome && !inHold) = true := by simp [Option.isSome_iff_ne_none, hh, hi]
  simp only [State.command, State.carry, Command.seq_not_last hseq, Bool.and_false, Bool.false_eq_true, if_false, hheld, if_true]

section
variable (hh : (s.fn c.fn).hold = none ∨ inHold = true)
include hh

theorem State.command_refused (hf : firstFail checks = some st) :
    s.command op c inHold checks eff = .next (s.done op c st 0 0) := by
  have hopen : ((s.fn c.fn).hold.isSome && !inHold) = false := by rcases hh with h | h <;> simp [h]
  simp only [State.command, State.carry, Command.seq_not_last hseq, Bool.and_false, Bool.false_eq_true, if_false, hopen, hf]

theorem State.command_passes (hf : firstFail checks = none) : s.command op c inHold checks eff = .next (eff s) := by
  have hopen : ((s.fn c.fn).hold.isSome && !inHold) = false := by rcases hh with h | h <;> simp [h]
  simp only [State.command, State.carry, Command.seq_not_last hseq, Bool.and_false, Bool.false_eq_true, if_false, hopen, hf]

end

end

/-- A command's row: it looks at the flags first, and none of it is carried out during a hold. -/
def State.FlagsFirst (s : State) (c : Command) (x : Nat × Instr) : Prop :=
  ∃ checks eff, exec x.2 s = s.command x.1 c false ((c.flags != 0, stBadOpcode) :: checks) eff

/-- A command's row that, once some checks have passed, looks at the handle and the state, and takes no DESTROYED paddock. -/
def State.NamesPaddock (s : State) (c : Command) (pre : List (Bool × Nat)) (x : Nat × Instr) : Prop :=
  ∃ legal rest eff, PState.destroyed ∉ legal ∧ exec x.2 s = s.command x.1 c false (pre ++ (s.named c.key legal ++ rest)) eff

section
variable {s : State} {c : Command} (hseq : c.seq.toNat + 1 < 2 ^ 64) {x : Nat × Instr}
include hseq

theorem State.FlagsFirst.expired (h : s.FlagsFirst c x) (hh : (s.fn c.fn).hold ≠ none) :
    exec x.2 s = .next (s.done x.1 c stExpired 0 0) := by
  obtain ⟨checks, eff, hexec⟩ := h
  rw [hexec, State.command_expired hseq hh rfl]

theorem State.FlagsFirst.refused (h : s.FlagsFirst c x) (hh : (s.fn c.fn).hold = none) (hf : c.flags ≠ 0) :
    exec x.2 s = .next (s.done x.1 c stBadOpcode 0 0) := by
  obtain ⟨checks, eff, hexec⟩ := h
  have hbad : (c.flags != 0) = true := by simpa using hf
  rw [hexec, State.command_refused hseq (.inl hh) (st := stBadOpcode) (by rw [hbad]; rfl)]

theorem State.NamesPaddock.refused {pre : List (Bool × Nat)} {st : Nat} (h : s.NamesPaddock c pre x)
    (hpre : firstFail pre = none) (hh : (s.fn c.fn).hold = none) (hst : s.Unnamed c.key st) :
    exec x.2 s = .next (s.done x.1 c st 0 0) := by
  obtain ⟨legal, rest, eff, hd, hexec⟩ := h
  rw [hexec, State.command_refused hseq (.inl hh) ((firstFail_append hpre).trans (firstFail_named hd hst rest))]

end

/-- A command of the PF: the second check is whose it is. -/
theorem State.command_denied {s : State} {c : Command} {op : Nat} {checks : List (Bool × Nat)} {eff : State → State}
    (hseq : c.seq.toNat + 1 < 2 ^ 64) (hh : (s.fn c.fn).hold = none) (hf : c.flags = 0) (hn : c.fn ≠ 0) :
    s.command op c false ((c.flags != 0, stBadOpcode) :: (c.fn != 0, stDenied) :: checks) eff =
      .next (s.done op c stDenied 0 0) :=
  State.command_refused hseq (.inl hh) (by simp [firstFail, hf, hn])

/-- A command without flags and operands. -/
structure Bare (c : Command) : Prop where
  flags : c.flags = 0
  arg0 : c.arg0 = 0
  arg1 : c.arg1 = 0
  arg2 : c.arg2 = 0
  arg3 : c.arg3 = 0

/-- The paddock a DESTROY names is its function's own where ARG0 is 0. -/
theorem Command.victim_eq {c : Command} (h : c.arg0 = 0) : c.victim = c.key := by
  unfold Command.victim
  split
  · next hn => rw [Command.key, hn, h]; rfl
  · rfl

-- The rows of the commands, by what they look at (Table 3-6)

/-- LOAD_IMAGE to DESTROY: the commands that name a paddock by its handle, but for those of HOST pages. -/
def namingRows (c : Command) : List (Nat × Instr) :=
  [(0x02, .loadImage c), (0x03, .start c), (0x04, .mbwrite c), (0x05, .preempt c), (0x06, .resume c), (0x07, .move c),
    (0x08, .pageRelease c), (0x09, .pageAccept c), (0x0A, .read c), (0x0B, .destroy c)]

/-- The rows after ATTEST and SESSION_OPEN. -/
def lateRows (c : Command) : List (Nat × Instr) :=
  [(0x0E, .heartbeat c), (0x0F, .resync c), (0x10, .setBudget c), (0x11, .qconf c), (0x12, .dieResume c), (0x13, .hostMap c),
    (0x14, .hostUnmap c)]

theorem mem_namingRows {c : Command} {x : Nat × Instr} (hx : x ∈ (0x01, Instr.create c) :: (namingRows c ++ lateRows c))
    (h : 0x02 ≤ x.1 ∧ x.1 ≤ 0x0B) : x ∈ namingRows c := by
  have hlate : ∀ y ∈ lateRows c, 0x0E ≤ y.1 := by simp [lateRows]
  rcases List.mem_cons.mp hx with rfl | hx
  · exact absurd (show 2 ≤ 1 from h.1) (by decide)
  · rcases List.mem_append.mp hx with hx | hx
    · exact hx
    · have := hlate x hx; omega

section
variable (s : State) (c : Command)

theorem State.flagsFirst_rows : ∀ x ∈ (0x01, Instr.create c) :: (namingRows c ++ lateRows c), s.FlagsFirst c x := by
  simp only [namingRows, lateRows, List.cons_append, List.nil_append, List.forall_mem_cons, List.not_mem_nil, false_implies,
    implies_true, and_true]
  exact ⟨⟨_, _, rfl⟩, ⟨_, _, rfl⟩, ⟨_, _, rfl⟩, ⟨_, _, rfl⟩, ⟨_, _, rfl⟩, ⟨_, _, rfl⟩, ⟨_, _, rfl⟩, ⟨_, _, rfl⟩, ⟨_, _, rfl⟩,
    ⟨_, _, rfl⟩, ⟨_, _, rfl⟩, ⟨_, _, rfl⟩, ⟨_, _, rfl⟩, ⟨_, _, rfl⟩, ⟨_, _, rfl⟩, ⟨_, _, rfl⟩, ⟨_, _, rfl⟩, ⟨_, _, rfl⟩⟩

/-- The HBM page commands look at nothing but their unused operands before the handle: their range is left to a later check. -/
theorem State.namesPaddock_hbmPages : ∀ x ∈ [(0x08, Instr.pageRelease c), (0x09, .pageAccept c)],
    s.NamesPaddock c (plain c [c.arg2, c.arg3]) x := by
  simp only [List.forall_mem_cons, List.not_mem_nil, false_implies, implies_true, and_true]
  exact ⟨⟨[.running, .preempted], _, _, by decide, rfl⟩, ⟨[.running, .preempted], _, _, by decide, rfl⟩⟩

theorem State.namesPaddock_hostMap : s.NamesPaddock c [(c.flags != 0, stBadOpcode),
    (hostRangeBad c.arg0 c.arg2 || decide (c.arg1.toNat % 2097152 ≠ 0) || c.arg3 == 0 || bits c.arg3 63 2 != 0, stBadArg)]
    (0x13, .hostMap c) := ⟨[.loaded, .running, .preempted], _, _, by decide, rfl⟩

theorem State.namesPaddock_hostUnmap : s.NamesPaddock c [(c.flags != 0, stBadOpcode),
    (hostRangeBad c.arg0 c.arg2 || c.arg1 != 0 || c.arg3 != 0, stBadArg)]
    (0x14, .hostUnmap c) := ⟨[.loaded, .running, .preempted], _, _, by decide, rfl⟩

variable {s c}

/-- The rows that name a paddock, without operands. -/
theorem State.namesPaddock_of_bare (h : Bare c) : ∀ x ∈ namingRows c, ∃ pre, firstFail pre = none ∧ s.NamesPaddock c pre x := by
  obtain ⟨hf, h0, h1, h2, h3⟩ := h
  have hplain : ∀ extra, (∀ w ∈ extra, w = 0) → firstFail (plain c extra) = none := fun _ => firstFail_plain hf
  have hall := hplain [c.arg0, c.arg1, c.arg2, c.arg3] (by simp [h0, h1, h2, h3])
  have hpages := hplain [c.arg2, c.arg3] (by simp [h2, h3])
  have hmbwrite : firstFail [(c.flags != 0, stBadOpcode),
      (c.arg3 != 0 || bits c.arg1 63 4 != 0 || decide (2 ^ 32 ≤ c.arg0.toNat), stBadArg)] = none := by
    rw [hf, h0, h1, h3]; rfl
  have hdestroy : firstFail [(c.flags != 0, stBadOpcode), (c.arg1 != 0 || c.arg2 != 0 || c.arg3 != 0 ||
      decide ((if c.fn = 0 then 192 else 0) < c.arg0.toNat), stBadArg)] = none := by
    rw [hf, h0, h1, h2, h3]; split <;> rfl
  have hvictim : s.NamesPaddock c [(c.flags != 0, stBadOpcode), (c.arg1 != 0 || c.arg2 != 0 || c.arg3 != 0 ||
      decide ((if c.fn = 0 then 192 else 0) < c.arg0.toNat), stBadArg)] (0x0B, .destroy c) := by
    refine ⟨[.empty, .loaded, .running, .preempted, .halted, .held], [], fun s => (s.destroyPad c.key).done 0x0B c stOk 0 0,
      by decide, ?_⟩
    rw [← Command.victim_eq h0]; rfl
  simp only [namingRows, List.forall_mem_cons, List.not_mem_nil, false_implies, implies_true, and_true]
  exact ⟨⟨_, hpages, [.empty], [], _, by decide, rfl⟩, ⟨_, hall, [.loaded], _, _, by decide, rfl⟩,
    ⟨_, hmbwrite, [.loaded, .running, .preempted], _, _, by decide, rfl⟩, ⟨_, hall, [.running], [], _, by decide, rfl⟩,
    ⟨_, hall, [.preempted], [], _, by decide, rfl⟩,
    ⟨_, hplain [c.arg1, c.arg2, c.arg3] (by simp [h1, h2, h3]), [.running], [], _, by decide, rfl⟩,
    ⟨_, hpages, s.namesPaddock_hbmPages c _ (by simp)⟩, ⟨_, hpages, s.namesPaddock_hbmPages c _ (by simp)⟩,
    ⟨_, hplain [c.arg3] (by simp [h3]), [.halted, .preempted], [], _, by decide, rfl⟩, ⟨_, hdestroy, hvictim⟩⟩

end

theorem hostRangeBad_false {a n : W64} (ha : a.toNat % 2097152 = 0) (hlo : 0x300000000000 ≤ a.toNat) (hn : 0 < n.toNat)
    (hhi : a.toNat + n.toNat * 2097152 ≤ 0x400000000000) : hostRangeBad a n = false := by
  have hz : n ≠ 0 := fun h => by rw [h] at hn; exact absurd hn (by decide)
  refine decide_eq_false ?_
  rintro (h | h | h | h)
  · exact h ha
  · omega
  · exact hz h
  · omega

/-- A SESSION_OPEN with flags other than RENEW. -/
theorem execSessionOpen_badFlags {s : State} {c : Command} (hseq : c.seq.toNat + 1 < 2 ^ 64)
    (hh : (s.fn c.fn).hold = none ∨ c.flags.getLsbD 0 = true) (hf : c.flags.toNat % 256 / 2 ≠ 0) :
    exec (.sessionOpen c) s = .next (s.done 0x0D c stBadOpcode 0 0) := by
  have hbits : bits (c.flags.setWidth 64) 7 1 ≠ 0 := by
    have := c.flags.isLt
    simp only [bits, BitVec.toNat_setWidth]
    omega
  have hbad : (bits (c.flags.setWidth 64) 7 1 != 0) = true := by simpa using hbits
  exact State.command_refused hseq hh (by rw [hbad]; rfl)

/-- Settles O54: during a hold, by its flags, by whose it is, by its handle, by its paddock's state. -/
theorem commandRefusals : Obligations.CommandRefusals := by
  unfold Obligations.CommandRefusals
  intro s c hseq out all held zero some2MiB pages
  have hopen : ¬ held → (s.fn c.fn).hold = none := not_not.mp
  have hrows : ∀ x ∈ all, s.FlagsFirst c x := s.flagsFirst_rows c
  have hnamed : zero → ¬ held → ∀ st, s.Unnamed c.key st → ∀ x ∈ all, 0x02 ≤ x.1 ∧ x.1 ≤ 0x0B → out x.1 x.2 st := by
    rintro ⟨hf, h0, h1, h2, h3⟩ hh st hst x hx hop
    obtain ⟨pre, hpre, hx⟩ := State.namesPaddock_of_bare ⟨hf, h0, h1, h2, h3⟩ x (mem_namingRows hx hop)
    exact hx.refused hseq hpre (hopen hh) hst
  refine ⟨fun hh => ⟨fun x hx => (hrows x hx).expired hseq hh, fun hr => State.command_expired hseq hh hr⟩,
    fun hh hf => ⟨fun x hx => (hrows x hx).refused hseq (hopen hh) hf, ?_⟩,
    fun hh hf => execSessionOpen_badFlags hseq (hh.imp_left hopen) hf,
    fun hh hf hn => ⟨State.command_denied hseq (hopen hh) hf hn, State.command_denied hseq (hopen hh) hf hn,
      State.command_denied hseq (hopen hh) hf hn⟩,
    fun hh hz hg => hnamed hz hh _ (.noHandle hg), fun hh hz hg hd => hnamed hz hh _ (.destroyed hg hd),
    fun st hst hh hf => ?_⟩
  · have hbad : (c.flags != 0) = true := by simpa using hf
    exact State.command_refused hseq (.inl (hopen hh)) (st := stBadOpcode)
      (checks := (c.flags != 0, stBadOpcode) :: _) (by rw [hbad]; rfl)
  · have hst : s.Unnamed c.key st := by
      rcases hst with ⟨hg, rfl⟩ | ⟨hg, hd, rfl⟩
      · exact .noHandle hg
      · exact .destroyed hg hd
    refine ⟨fun _ h2 h3 x hx => (s.namesPaddock_hbmPages c x hx).refused hseq (firstFail_plain hf (by simp [h2, h3])) (hopen hh) hst,
      fun ⟨ha, hlo, hn, hhi⟩ => ⟨fun h1 h3 h4 => (s.namesPaddock_hostMap c).refused hseq ?_ (hopen hh) hst,
        fun h1 h3 => (s.namesPaddock_hostUnmap c).refused hseq ?_ (hopen hh) hst⟩⟩
    · have hperm : bits c.arg3 63 2 = 0 := by simp only [bits]; omega
      simpa [firstFail, hf, hostRangeBad_false ha hlo hn hhi, h1, hperm] using h3
    · simp [firstFail, hf, hostRangeBad_false ha hlo hn hhi, h1, h3]

end Sys2Proof.Machine

-- The page commands of the host, and a world beyond its field (R72)

namespace Sys2Proof.Machine

theorem HostPage.drop_drop (h : HostPage) : h.drop.drop = h.drop := by
  simp [HostPage.drop, BitVec.and_assoc]

/-- HOST pages dropped one after another: those of them that the map lists. -/
theorem get?_foldl_drop (gs : List Nat) : ∀ (m : FMap HostPage) (g : Nat),
    FMap.get? (gs.foldl (fun m g => FMap.modify m g HostPage.drop) m) g =
      if g ∈ gs then (FMap.get? m g).map HostPage.drop else FMap.get? m g := by
  induction gs with
  | nil => exact fun m g => rfl
  | cons x gs ih =>
    intro m g
    rw [List.foldl_cons, ih]
    by_cases hx : g = x
    · subst hx
      cases hg : FMap.get? m g <;> simp [FMap.get?_modify_same, hg, HostPage.drop_drop]
    · rw [FMap.get?_modify_ne m x g _ hx]
      simp [hx]

/-- P is clear in what an unlisted HOST page has, where the world fits its 8 bits of an entry's field and those below P. -/
theorem hostDefault_absent {world : Nat} (h : world < 2 ^ 14) : bit (hostDefault world) 63 = false := by
  have hw : (fld world 49).getLsbD 63 = false := by
    rw [fld, BitVec.getLsbD_ofNat, Nat.testBit_mul_two_pow]
    simp [Nat.testBit_lt_two_pow h]
  rw [hostDefault, entryOf, bit_eq_getLsbD, BitVec.getLsbD_or, BitVec.getLsbD_or, BitVec.getLsbD_or, hw]
  decide

/-- R72: what HOST_UNMAP leaves of a present page, where the paddock's world is below 2^14: the premise that PageAndFunctionCommands does
not have. -/
theorem hostEntry_hostUnmap {p : Paddock} (hw : p.shape.world < 2 ^ 14) (a : W64) (n : Nat) {g : Nat} (hg : g ∈ hostPagesAt a n)
    (hp : bit (p.hostEntry g) 63 = true) :
    ((Req.hostUnmap a n).onPages p).hostEntry g = p.hostEntry g &&& ~~~(fld 1 63) := by
  cases hl : FMap.get? p.hostPages g with
  | none =>
    rw [Paddock.hostEntry, hl] at hp
    exact absurd hp (by simp [hostDefault_absent hw])
  | some h =>
    have hdropped : FMap.get? ((Req.hostUnmap a n).onPages p).hostPages g = some h.drop := by
      rw [Req.onPages, get?_foldl_drop, if_pos hg, hl]; rfl
    rw [Paddock.hostEntry, hdropped, Paddock.hostEntry, hl]
    rfl

/-- A preempted paddock of world 2^14, which lists no HOST page: the world's field of an entry reaches into P. -/
def widePaddock : Paddock := { Paddock.init with state := .preempted, shape := { Shape.init with world := 16384 } }

def wideWorld : State := { State.reset with pads := [(0, widePaddock)] }

/-- HOST_UNMAP of the first HOST page of the paddock of handle 0. -/
def unmapFirst : Command :=
  { fn := 0, index := 0, cookie := 0, handle := 0, flags := 0, arg0 := 0x300000000000, arg1 := 0, arg2 := 1, arg3 := 0, seq := 0,
    atag := 0 }

/-- The page seems present, so the command goes through; but nothing lists it, so it stays so. -/
theorem wideWorld_stays : ∃ t, exec (.hostUnmap unmapFirst) wideWorld = .next t ∧ bit ((t.padAt 0).hostEntry 0) 63 = true := by
  refine ⟨_, rfl, ?_⟩
  decide

/-- Refutes O56: the clause that HOST_UNMAP clears P has no premise on the width of the paddock's world. A world of 2^14 sets P in the
entry of a page that nothing lists, so the page passes for present, and HOST_UNMAP, which changes listed pages only, leaves P set.
With that premise the clause holds (hostEntry_hostUnmap). -/
theorem not_pageAndFunctionCommands : ¬ Obligations.PageAndFunctionCommands := by
  unfold Obligations.PageAndFunctionCommands
  intro h
  obtain ⟨hpages, -⟩ := h wideWorld unmapFirst (by decide) (.inr ⟨rfl, rfl⟩)
  have hget : FMap.get? wideWorld.pads unmapFirst.key = some widePaddock := by
    rw [show unmapFirst.key = 0 by decide]; rfl
  rw [State.padAt_of_get? hget] at hpages
  obtain ⟨-, hpreempted⟩ := hpages rfl hget rfl rfl
  obtain ⟨-, -, -, hunmap⟩ := hpreempted rfl rfl
  obtain ⟨t, hexec, hcleared⟩ := hunmap (by decide) rfl rfl fun i hi => by
    obtain rfl : i = 0 := Nat.lt_one_iff.mp hi
    decide
  obtain ⟨u, hu, hset⟩ := wideWorld_stays
  obtain rfl : t.done 0x14 unmapFirst 0 0 0 = u := Host.Outcome.next.inj (hexec.symm.trans hu)
  have hclear : bit ((t.padAt 0).hostEntry 0) 63 = false :=
    (congrArg (bit · 63) (hcleared 0 (by decide))).trans (bit_clear_present _ _ (by decide))
  rw [State.padAt_congr (congrArg (FMap.get? · 0) (t.done_pads ..))] at hset
  rw [hclear] at hset
  cases hset

end Sys2Proof.Machine

-- A breakpoint stop (R444, R445)

namespace Sys2Proof.Machine

theorem Paddock.get?_mapTiles (p : Paddock) (f : Nat → Tile → Tile) (j : Nat) :
    FMap.get? (p.mapTiles f).tiles j = (FMap.get? p.tiles j).map (f j) := FMap.get?_map p.tiles j f

/-- A paddock that a breakpoint has stopped after cycle z. -/
def Paddock.stoppedAt (p : Paddock) (z : Nat) : Paddock :=
  { p with freeze := some .stop, dbg := { p.dbg with fireAt := none, state := 3, zlow := z % 2 ^ 32, bp := p.dbg.fireBp } }

/-- The paddock as its tiles stand: a strict stint's runs go on, a loose one's are discarded unless committed (R224, R445). -/
def Paddock.stopped (p : Paddock) (z : Nat) : Paddock :=
  if p.strict then p.stoppedAt z else (p.stoppedAt z).mapTiles fun _ => Tile.freezeHold

theorem Paddock.stopped_fn (p : Paddock) (z : Nat) : (p.stopped z).fn = p.fn := by unfold Paddock.stopped; split <;> rfl

/-- Without TCFG.EN no record is made at another tile either. -/
theorem State.atTile_traceTile_off (u : State) (i kind aux time : Nat) (data : State → W64)
    (h : bit (u.fn u.pad.fn).dbg.tcfg 63 = false) : u.atTile i (fun v => v.traceTile kind aux time (data v)) = u := by
  rw [State.atTile, (u.at i).traceTile_off kind aux time _ h]
  rfl

theorem execBreakpointStop_stops {s : State} {z : Nat} (hz : s.pad.dbg.fireAt = some z) (hr : s.pad.state = .running)
    (hq : s.pad.reports = []) (ht : bit (s.fn s.pad.fn).dbg.tcfg 63 = false) :
    exec .breakpointStop s = .next (s.modPad fun p => p.stopped z) := by
  show execBreakpointStop s = _
  simp only [execBreakpointStop, hz, State.modPad_pad, hq, hr, List.isEmpty_nil, Bool.not_true, bne_self_eq_false, Bool.or_self,
    Bool.false_eq_true, if_false, State.modPad_modPad]
  have hstop : (if s.pad.strict then s.modPad fun p => p.stoppedAt z else
      s.modPad fun p => (p.stoppedAt z).mapTiles fun _ => Tile.freezeHold) = s.modPad fun p => p.stopped z := by
    cases hs : s.pad.strict with
    | true => rw [if_pos rfl]; exact s.modPad_congr (by simp [Paddock.stopped, hs])
    | false => rw [if_neg Bool.false_ne_true]; exact s.modPad_congr (by simp [Paddock.stopped, hs])
  have hoff := (s.modPad fun p => p.stopped z).atTile_traceTile_off 0 6 0 z (fun u => fld 3 8 ||| fld u.pad.dbg.bp 0)
    (by rw [State.modPad_pad, Paddock.stopped_fn]; exact ht)
  rw [← hstop] at hoff ⊢
  exact congrArg Host.Outcome.next hoff

theorem execBreakpointStop_reported {s : State} {z : Nat} (hz : s.pad.dbg.fireAt = some z) (hq : s.pad.reports ≠ []) :
    exec .breakpointStop s = .next (s.modPad fun p => { p with dbg := { p.dbg with fireAt := none } }) := by
  show execBreakpointStop s = _
  simp [execBreakpointStop, hz, hq]

/-- A run not committed is discarded at the freeze: its tile stands before the bundle, its frame in the control registers once the
temporaries have landed (R224, R225). -/
theorem Tile.freezeHold_uop {x : Tile} {r : UopRun} (hh : x.core.hold = .uop r) (hc : r.committed = false) :
    x.freezeHold.core.hold = .none ∧ x.freezeHold.core.pc = x.core.pc ∧ x.freezeHold.core.regs = x.core.regs ∧
      (r.tpend = [] → x.core.acc = [] → x.freezeHold.ctl = (x.writeFrame r).ctl) := by
  have hfreeze : x.freezeHold =
      Tile.settleFrame { x with core := { x.core with hold := .none, frame := some { r with hbmWait := none } } } := by
    simp [Tile.freezeHold, Tile.seqFrame, hh, hc]
  rw [hfreeze]
  refine ⟨?_, ?_, ?_, fun hp ha => ?_⟩
  · unfold Tile.settleFrame; dsimp only; split <;> rfl
  · unfold Tile.settleFrame; dsimp only; split <;> rfl
  · unfold Tile.settleFrame; dsimp only; split <;> rfl
  · simp only [Tile.settleFrame, hp, ha, List.isEmpty_nil, List.any_nil, Bool.not_false, Bool.and_self, if_true]
    rfl

end Sys2Proof.Machine

-- Paddocks that end halted, with nothing lost (R427, R455)

namespace Sys2Proof.Machine

/-- Key k names a paddock. -/
def State.Lists (s : State) (k : Nat) : Prop := (FMap.get? s.pads k).isSome = true

theorem State.Lists.padAt {s : State} {k : Nat} (h : s.Lists k) : FMap.get? s.pads k = some (s.padAt k) := by
  obtain ⟨p, hp⟩ := Option.isSome_iff_exists.mp h
  rw [hp, State.padAt_of_get? hp]

theorem Tile.settleFrame_acc (t : Tile) : t.settleFrame.core.acc = t.core.acc := by
  unfold Tile.settleFrame
  split
  · split <;> rfl
  · rfl

theorem Tile.tickFrame_acc (t : Tile) : t.tickFrame.core.acc = t.core.acc := by
  unfold Tile.tickFrame
  split
  · exact Tile.settleFrame_acc _
  · rfl

section
variable {s : State} {k : Nat} (h : s.Lists k)
include h

theorem State.Lists.modPadAt (j : Nat) (f : Paddock → Paddock) : (s.modPadAt j f).Lists k := by
  show (FMap.get? (FMap.modify s.pads j f) k).isSome = true
  by_cases hk : k = j
  · subst hk
    rw [FMap.get?_modify_same, Option.isSome_map]
    exact h
  · rw [FMap.get?_modify_ne _ _ _ _ hk]
    exact h

theorem State.Lists.modPad (f : Paddock → Paddock) : (s.modPad f).Lists k := by
  show (FMap.get? (FMap.put s.pads s.cur.pad _) k).isSome = true
  by_cases hk : k = s.cur.pad
  · rw [hk, FMap.get?_put_same]; rfl
  · rw [FMap.get?_put_ne _ _ _ _ hk]
    exact h

theorem State.Lists.modTile (f : Tile → Tile) : (s.modTile f).Lists k := h.modPad _

theorem State.Lists.countErrors : s.countErrors.Lists k := by
  unfold State.countErrors
  dsimp only
  split
  · exact h
  · exact h.modTile fun t => { t with st := t.st.counted }

/-- The copy of a tile into the save image. -/
theorem State.Lists.saveTile : s.readTile.saveCtl.Lists k := (h.modTile _).countErrors.modTile _

theorem State.Lists.everyTile {f : State → State} (hf : ∀ {u : State}, u.Lists k → (f u).Lists k) : (s.everyTile f).Lists k := by
  unfold State.everyTile
  induction FMap.keys s.pad.tiles generalizing s with
  | nil => exact h
  | cons i is ih => exact ih (s := s.atTile i f) (hf (u := s.at i) h)

theorem State.Lists.onPad (j : Nat) {f : State → State} (hf : ∀ {u : State}, u.Lists k → (f u).Lists k) : (s.onPad j f).Lists k :=
  hf (u := { s with cur := { pad := j, tile := 0 } }) h

theorem State.Lists.leaveDies (j : Nat) : (s.leaveDies j).Lists k := h.modPadAt j _

/-- A flush of a tile without accesses in flight performs none. -/
theorem State.Lists.flushFor (ha : s.tile.core.acc = []) (n : Nat) : (s.flushFor n).Lists k := by
  induction n generalizing s with
  | zero => exact h
  | succ n ih =>
    have hland : s.landWrites.tile.core.acc = [] := by
      rw [State.landWrites, State.modTile_tile, Tile.tickFrame_acc]
      exact ha
    have hidle : s.landWrites.scalarAccesses = s.landWrites.modCore fun c =>
        { c with acc := (c.acc.filter fun a => decide (1 < a.left)).map fun a => { a with left := a.left - 1 } } := by
      rw [State.scalarAccesses, hland]; rfl
    rw [State.flushFor]
    split
    · exact h
    · rw [hidle]
      refine ih ((h.modTile _).modTile _) ?_
      rw [State.modCore, State.modTile_tile]
      dsimp only
      rw [hland]; rfl

end

/-- What is done at each tile is done at the only one, unless its die has stopped. -/
theorem State.eachTile_only {s : State} {i : Nat} {x : Tile} (f : State → State) (ht : s.pad.tiles = [(i, x)]) :
    s.eachTile f = if x.core.dead then s else s.atTile i f := by
  have hone : s.eachTile f = s.atTile i fun s => if s.tile.core.dead then s else f s := by
    rw [State.eachTile, State.everyTile, ht]; rfl
  rw [hone, State.atTile, State.at_tile ht]
  split <;> rfl

/-- The paddock of key k has the one tile of index i, with no access in flight. -/
def State.Rests (s : State) (k i : Nat) : Prop := ∃ x, (s.padAt k).tiles = [(i, x)] ∧ x.core.acc = []

/-- Vector writes of a tile that has none pending. -/
theorem State.vectorFlush_idle {s : State} (h : s.tile.vec.pend = []) :
    s.vectorFlush = s.setTile { s.tile with vec := { s.tile.vec with pend := [] } } := by
  rw [State.vectorFlush, h]; rfl

theorem State.onPad_vectorFlush {s : State} {k i : Nat} {x : Tile} (h : s.Lists k) (ht : (s.padAt k).tiles = [(i, x)])
    (ha : x.core.acc = []) (hv : x.vec.pend = []) :
    (s.onPad k fun s => s.eachTile State.vectorFlush).Lists k ∧ (s.onPad k fun s => s.eachTile State.vectorFlush).Rests k i := by
  let u : State := { s with cur := { pad := k, tile := 0 } }
  have hu : u.pad.tiles = [(i, x)] := ht
  have htile := State.at_tile hu
  rw [State.onPad, State.eachTile_only _ hu]
  split
  · exact ⟨h, x, ht, ha⟩
  · have hset : ∀ y : Tile, ((u.at i).setTile y).Lists k := fun y => State.Lists.modPad (s := u.at i) h _
    rw [State.atTile, State.vectorFlush_idle (by rw [htile]; exact hv), htile]
    refine ⟨hset _, { x with vec := { x.vec with pend := [] } }, ?_, ha⟩
    show (((u.at i).setTile _).pad).tiles = _
    rw [State.setTile_pad]
    show FMap.put u.pad.tiles i _ = _
    rw [hu]
    simp [FMap.put]

theorem State.Lists.settleWrites {s : State} {k i : Nat} (h : s.Lists k) (hr : s.Rests k i) : (s.settleWrites k).Lists k := by
  obtain ⟨x, ht, ha⟩ := hr
  let u : State := { s with cur := { pad := k, tile := 0 } }
  have hu : u.pad.tiles = [(i, x)] := ht
  rw [State.settleWrites, State.onPad, State.eachTile_only _ hu]
  split
  · exact h
  · exact State.Lists.flushFor (s := u.at i) h (by rw [State.at_tile hu]; exact ha) 128

/-- A sealed paddock that rested stands no longer frozen. -/
theorem State.sealPad_freeze {s : State} {k i : Nat} (h : s.Lists k) (hr : s.Rests k i) (c : Nat) :
    ∃ p, FMap.get? (s.sealPad k c).pads k = some p ∧ p.freeze = none := by
  have hdrained := (h.settleWrites hr).modPadAt k fun p =>
    { (p.drain c).mapTiles (fun _ t => { t with tlb := { pages := [], walks := [] } }) with owed := [] }
  have hsaved := (hdrained.onPad k fun hu => hu.everyTile fun hv => hv.saveTile).leaveDies k
  refine ⟨_, (State.get?_modPadAt ..).trans (by rw [hsaved.padAt]; rfl), rfl⟩

theorem State.foldl_cur {α : Type} (f : State → α → State) (hf : ∀ s x, (f s x).cur = s.cur) (l : List α) (s : State) :
    (l.foldl f s).cur = s.cur := State.foldl_keeps State.cur f hf l s

theorem State.endReq_cur (s : State) (q : Pending) (st : Nat) (r0 : W64) : (s.endReq q st r0).cur = s.cur := by
  unfold State.endReq
  split
  · exact s.done_cur ..
  · rfl

theorem State.failPending_cur (s : State) (k : Nat) : (s.failPending k).cur = s.cur := by
  show (s.endPending k).cur = s.cur
  unfold State.endPending
  dsimp only
  rw [State.foldl_cur _ fun s (a : Await) => s.done_cur ..]
  split
  · rw [State.done_cur, State.foldl_cur _ fun s (q : Pending) => s.endReq_cur ..]
  · rw [State.foldl_cur _ fun s (q : Pending) => s.endReq_cur ..]

theorem State.event_cur (s : State) (n code handle : Nat) (r0 r1 : W64) : (s.event n code handle r0 r1).cur = s.cur := by
  rw [State.event]
  rcases s.post_cases n [fld code 8 ||| fld 0xF0 0, fld handle 32, r0, r1] with h | ⟨m, a, b, d, h⟩ <;> rw [h]
  rfl

theorem Paddock.dropStop_frame (p : Paddock) : p.dropStop.state = p.state ∧ p.dropStop.freeze = p.freeze := by
  unfold Paddock.dropStop; split <;> exact ⟨rfl, rfl⟩

theorem State.sealPad_cur (s : State) (k c : Nat) : (s.sealPad k c).cur = s.cur := rfl

theorem State.modPadAt_cur (s : State) (k : Nat) (f : Paddock → Paddock) : (s.modPadAt k f).cur = s.cur := rfl

theorem State.onPad_cur (s : State) (k : Nat) (f : State → State) : (s.onPad k f).cur = s.cur := rfl

theorem State.haltPad_cur (s : State) (k c : Nat) : (s.haltPad k c).cur = s.cur := by
  rw [State.haltPad, State.failPending_cur, State.modPadAt_cur, State.sealPad_cur, State.onPad_cur]

/-- R427, R455: a paddock of one tile at rest ends halted, with nothing pending. -/
theorem State.haltPad_rests {s : State} {k i : Nat} {x : Tile} (h : s.Lists k) (ht : (s.padAt k).tiles = [(i, x)])
    (ha : x.core.acc = []) (hv : x.vec.pend = []) (c : Nat) :
    ((s.haltPad k c).padAt k).state = .halted ∧ ((s.haltPad k c).padAt k).pending = [] ∧
      ((s.haltPad k c).padAt k).freeze = none ∧ (s.haltPad k c).cur = s.cur := by
  obtain ⟨hflushed, hrests⟩ := State.onPad_vectorFlush h ht ha hv
  obtain ⟨p, hp, hf⟩ := State.sealPad_freeze hflushed hrests c
  have hget : FMap.get? (s.haltPad k c).pads k =
      some { ({ p with state := .halted } : Paddock).dropStop with pending := [], moveCmd := none } := by
    rw [State.haltPad, State.failPending_pads, FMap.get?_modify_same, State.get?_modPadAt, hp]; rfl
  obtain ⟨hstate, hfreeze⟩ := Paddock.dropStop_frame { p with state := .halted }
  rw [State.padAt_of_get? hget]
  exact ⟨hstate, rfl, hfreeze.trans hf, s.haltPad_cur k c⟩

/-- What halts with an event last. -/
theorem haltPad_event {s : State} {k i : Nat} {x : Tile} (h : s.Lists k) (hk : s.cur.pad = k) (ht : (s.padAt k).tiles = [(i, x)])
    (ha : x.core.acc = []) (hv : x.vec.pend = []) (c n code handle : Nat) (r0 r1 : W64) :
    let t := (s.haltPad k c).event n code handle r0 r1
    t.pad.state = .halted ∧ t.pad.pending = [] ∧ t.pad.freeze = none ∧
      ∃ u : State, u.pads = t.pads ∧ t = u.event n code handle r0 r1 := by
  intro t
  obtain ⟨hstate, hpending, hfreeze, hcur⟩ := State.haltPad_rests h ht ha hv c
  have hpad : t.pad = (s.haltPad k c).padAt k := by
    show t.padAt t.cur.pad = _
    rw [State.event_cur, hcur, hk]
    exact State.padAt_congr (congrArg (FMap.get? · k) (State.event_pads ..))
  rw [hpad]
  exact ⟨hstate, hpending, hfreeze, _, (State.event_pads ..).symm, rfl⟩

end Sys2Proof.Machine

-- What destroys a paddock, or reports its die (R69, R455, R460)

namespace Sys2Proof.Machine

theorem State.destroyFor_pads (s : State) (k r : Nat) : (s.destroyFor k r).pads = (s.destroyPad k).pads := State.event_pads ..

theorem onlyPad_destroyFor (s : State) (k r : Nat) : OnlyPad k s (s.destroyFor k r) :=
  (onlyPad_destroyPad s k).trans (onlyPad_of_pads (s.destroyFor_pads k r))

theorem State.padAt_destroyFor {s u : State} {k : Nat} {p : Paddock} (r : Nat) (h : FMap.get? u.pads k = some p)
    (hs : FMap.get? s.pads k = FMap.get? (u.destroyFor k r).pads k) : s.padAt k = p.destroyed :=
  State.padAt_of_get? (hs.trans (by rw [State.destroyFor_pads, State.get?_destroyPad h]))

/-- R69: a paddock destroyed for a reason has its event last. -/
theorem State.destroyFor_spec {s : State} {k : Nat} (h : FMap.get? s.pads k = some (s.padAt k)) (r : Nat) :
    ((s.destroyFor k r).padAt k).state = .destroyed ∧ ((s.destroyFor k r).padAt k).tiles = [] ∧
      ∃ u : State, u.pads = (s.destroyFor k r).pads ∧
        s.destroyFor k r = u.event (s.padAt k).fn evDestroyed (s.padAt k).handle (w64 r) 0 := by
  rw [State.padAt_destroyFor r h rfl]
  exact ⟨rfl, rfl, _, (s.destroyFor_pads k r).symm, rfl⟩

/-- R66: the expiry of a hold destroys what the function still has, and ends its session. -/
theorem execHoldExpiry_spec {s : State} {n d : Nat} (hh : (s.fn n).hold = some d) (hd : d ≤ s.dtick)
    (hs : FMap.sorted s.pads = true) : ∃ t, exec (.holdExpiry n) s = .next t ∧ (∀ j ∈ s.liveHandles n, (t.padAt j).state = .destroyed) ∧
      (t.fn n).session = none ∧ (t.fn n).worldKey = none ∧ (t.fn n).hold = none ∧
      ∀ j, j ∉ s.liveHandles n → t.padAt j = s.padAt j := by
  obtain ⟨hout, hin⟩ := State.foldl_onlyPad (fun _ => ()) (fun s k => s.destroyFor k 0x21) (fun _ _ => rfl)
    (fun u k => onlyPad_destroyFor u k 0x21) _ (s.liveHandles_nodup n hs) s
  have hover : (s.fn n).holdOver s.dtick = true := by rw [Func.holdOver, hh]; exact decide_eq_true hd
  refine ⟨_, congrArg Host.Outcome.next (if_pos hover), fun j hj => ?_, ?_, ?_, ?_, fun j hj => State.padAt_congr (hout j hj)⟩
  · obtain ⟨u, -, hu, ht⟩ := hin j hj
    exact congrArg Paddock.state (State.padAt_destroyFor 0x21 (hu.trans ((State.mem_liveHandles hs).mp hj).1) ht)
  all_goals rw [State.modFn_fn]

-- The report of a stopped die (R69)

/-- The same tile is current, and its paddock has the same region cycle and the same reports. -/
def SameReports (s t : State) : Prop := t.cur = s.cur ∧ t.pad.rtick = s.pad.rtick ∧ t.pad.reports = s.pad.reports

theorem SameReports.refl (s : State) : SameReports s s := ⟨rfl, rfl, rfl⟩

theorem SameReports.trans {s t u : State} (h : SameReports s t) (g : SameReports t u) : SameReports s u :=
  ⟨g.1.trans h.1, g.2.1.trans h.2.1, g.2.2.trans h.2.2⟩

theorem sameReports_setTile (s : State) (x : Tile) : SameReports s (s.setTile x) :=
  ⟨rfl, by rw [State.setTile_pad], by rw [State.setTile_pad]⟩

theorem sameReports_endedHold (s : State) : SameReports s s.endedHold := by
  unfold State.endedHold
  split
  · split
    · exact sameReports_setTile s _
    · exact .refl s
  · exact .refl s

/-- A record other than an INPUT one. -/
theorem sameReports_traceTile (s : State) (kind aux time : Nat) (data : W64) (hk : kind ≠ 8) :
    SameReports s (s.traceTile kind aux time data) := by
  unfold State.traceTile
  simp only [if_neg hk]
  split
  · exact .refl s
  · split
    · exact sameReports_setTile s _
    · exact sameReports_setTile s _

/-- R426: the report of a paddock-wide fault stands at the end, with the region cycle it came on. -/
theorem State.paddockFault_reports (s : State) (f : FaultInfo) (epc : W64) : (s.paddockFault f epc).cur = s.cur ∧
    (s.paddockFault f epc).pad.reports = s.pad.reports ++ [{ cycle := s.pad.rtick, tile := s.cur.tile, info := f }] := by
  let recorded := s.modTile fun t =>
    { t.freezeHold.record f t.core.svc true epc with core := { (t.freezeHold.record f t.core.svc true epc).core with faulted := true } }
  obtain ⟨hcur, hcycle, hreports⟩ : SameReports s recorded.trapRecord :=
    (sameReports_setTile s _).trans (sameReports_traceTile recorded 4 0 _ _ (by decide))
  have hpad : (s.paddockFault f epc).pad.reports = recorded.trapRecord.pad.reports ++
      [{ cycle := recorded.trapRecord.pad.rtick, tile := recorded.trapRecord.cur.tile, info := f }] :=
    congrArg Paddock.reports (recorded.trapRecord.modPad_pad fun p => p.faulted _ _)
  exact ⟨hcur, by rw [hpad, hcycle, hreports, hcur]⟩

/-- R69: a stopped die's fault is reported on the paddock's region cycle. -/
theorem State.dieFault_reports {s : State} {k : Nat} (h : FMap.get? s.pads k = some (s.padAt k)) :
    ∃ q, ((s.dieFault k).padAt k).reports = (s.padAt k).reports ++ [q] ∧ q.info = sFault .watchdog 4 ∧
      q.cycle = (s.padAt k).rtick := by
  let u : State := { s.modPadAt k (fun p => p.stopTiles s.panel) with cur := { pad := k, tile := s.lostTile (s.padAt k) } }
  have hpad : u.pad = (s.padAt k).stopTiles s.panel := State.padAt_modPadAt _ h
  obtain ⟨hcur, hcycle, hold⟩ := sameReports_endedHold u
  obtain ⟨hfcur, hreports⟩ := u.endedHold.paddockFault_reports (sFault .watchdog 4) (bundleAddr u.tile.core.pc)
  have hfault : (s.dieFault k).padAt k = (u.endedHold.paddockFault (sFault .watchdog 4) (bundleAddr u.tile.core.pc)).pad := by
    rw [State.dieFault_eq]
    show (u.takeFaultAt (sFault .watchdog 4) (bundleAddr u.tile.core.pc)).padAt k = _
    rw [u.takeFaultAt_wide _ _ rfl, State.pad, hfcur, hcur]
    rfl
  rw [hfault, hreports, hcycle, hold, hpad]
  exact ⟨_, rfl, rfl, rfl⟩

-- Forced reclaims (R460)

theorem Paddock.unreclaimed_one {p : Paddock} {d : Nat × Nat} {now : Nat} (hr : p.reclaims = [d]) (hp : p.pagesAt d.1 ≠ [])
    (hd : d.2 ≤ now) : p.unreclaimed now = [d.1] := by
  simp [Paddock.unreclaimed, hr, hp, hd]

theorem execForcedReclaim_unmet {s : State} {k : Nat} {d : Nat × Nat} (hr : (s.padAt k).reclaims = [d])
    (hp : (s.padAt k).pagesAt d.1 ≠ []) (hd : d.2 ≤ s.dtick) (hq : (s.padAt k).pending = []) :
    exec (.forcedReclaim k) s = .next (s.destroyFor k 0x20) := by
  have hpreview : (s.padAt k).preview = s.padAt k := by rw [Paddock.preview, hq]; rfl
  show execForcedReclaim k s = _
  simp [execForcedReclaim, Paddock.unreclaimed_one hr hp hd, Paddock.complies, hpreview, hp]

theorem hbmEntry_drops_ne (gs : List Nat) (p : Paddock) (g : Nat) (h : g ∉ gs) :
    (gs.foldl Paddock.dropPage p).hbmEntry g = p.hbmEntry g := by
  induction gs generalizing p with
  | nil => rfl
  | cons x xs ih =>
    rw [List.mem_cons, not_or] at h
    exact (ih _ h.2).trans (hbmEntry_drop_ne p g x h.1)

/-- Where a release empties a position, it names a page there. -/
theorem release_names_page {p : Paddock} {gs : List Nat} {pos : Nat} (hp : p.pagesAt pos ≠ [])
    (h : (gs.foldl Paddock.dropPage p).pagesAt pos = []) : ∃ g ∈ p.pagesAt pos, g ∈ gs := by
  by_contra hno
  obtain ⟨g, hg⟩ := List.exists_mem_of_ne_nil _ hp
  have hg' : g ∈ (gs.foldl Paddock.dropPage p).pagesAt pos := by
    rw [Paddock.pagesAt, List.mem_filter, drops_chan, hbmEntry_drops_ne gs p g fun hgs => hno ⟨g, hg, hgs⟩]
    exact List.mem_filter.mp hg
  rw [h] at hg'
  cases hg'

theorem execForcedReclaim_met {s : State} {k : Nat} {d : Nat × Nat} {q : Pending} {a : W64} {n : Nat}
    (hr : (s.padAt k).reclaims = [d]) (hp : (s.padAt k).pagesAt d.1 ≠ []) (hd : d.2 ≤ s.dtick)
    (hrun : (s.padAt k).state = .running) (hq : (s.padAt k).pending = [q]) (hreq : q.req = .release a n) (hfree : q.deadline = none)
    (hdone : (s.padAt k).preview.pagesAt d.1 = []) :
    exec (.forcedReclaim k) s = .next (s.modPadAt k fun p =>
      { p with pending := [{ q with deadline := some (q.due + (s.padAt k).shape.pauseMax + 65536, 6) }] }) := by
  have hone := Paddock.unreclaimed_one hr hp hd
  have hpreview : (s.padAt k).preview = ((hbmPages a n).foldl Paddock.dropPage (s.padAt k)).dropTlbs := by
    rw [Paddock.preview, hq, List.foldl_cons, List.foldl_nil, hreq]; rfl
  have hnamed := release_names_page hp (by rw [hpreview, dropTlbs_pagesAt] at hdone; exact hdone)
  have hunlimited : (s.padAt k).unlimited s.dtick q = true := by
    simpa [Paddock.unlimited, hreq, hfree, hone] using hnamed
  have hexec : exec (.forcedReclaim k) s = .next (s.modPadAt k fun p =>
      { p with pending := p.pending.map fun q =>
          if p.unlimited s.dtick q then { q with deadline := some (q.due + p.shape.pauseMax + 65536, 6) } else q }) := by
    show execForcedReclaim k s = _
    simp [execForcedReclaim, hone, Paddock.complies, hrun, hdone]
  rw [hexec, State.modPadAt_congr s k _ _ fun p hget => ?_]
  rw [State.padAt_of_get? hget] at hq hunlimited ⊢
  rw [hq, List.map_singleton, if_pos hunlimited]

end Sys2Proof.Machine

-- How paddocks end (R66, R69, R427, R444, R455, R460)

namespace Sys2Proof.Machine

/-- R224, R444, R445: what a breakpoint in a loose stint leaves of the paddock and of its tiles. -/
theorem execBreakpointStop_loose {s : State} {z : Nat} (hs : s.pad.strict = false) :
    let t := s.modPad fun p => p.stopped z
    { t.pad with tiles := [] } = { s.pad.stoppedAt z with tiles := [] } ∧
      ∀ i x, FMap.get? s.pad.tiles i = some x → t.tileOf s.cur.pad i = x.freezeHold := by
  intro t
  have hpad : t.pad = (s.pad.stoppedAt z).mapTiles fun _ => Tile.freezeHold :=
    (s.modPad_pad _).trans (if_neg (Bool.eq_false_iff.mp hs))
  refine ⟨by rw [hpad]; rfl, fun i x hx => ?_⟩
  have hget : FMap.get? t.pad.tiles i = some x.freezeHold := by
    rw [hpad]
    exact (Paddock.get?_mapTiles ..).trans (congrArg (Option.map Tile.freezeHold) hx)
  show FMap.getD t.pad.tiles i Tile.init = _
  rw [FMap.getD, hget]; rfl

/-- Settles O52: a stop by its report and mode, a halt by the seal of a tile at rest, a destruction by what leaves the map of paddocks. -/
theorem endsOfPaddocks : Obligations.EndsOfPaddocks := by
  unfold Obligations.EndsOfPaddocks
  intro s k p destroyed rests halted
  refine ⟨fun z hz hr ht => ⟨fun hq => ?_, execBreakpointStop_reported hz⟩, ?_, ?_, ?_, ?_, ?_, ?_, ?_⟩
  · have hstop := execBreakpointStop_stops hz hr hq ht
    refine ⟨fun hs => hstop.trans ?_, fun hs => ?_⟩
    · exact congrArg Host.Outcome.next (State.modPad_congr s (if_pos hs))
    · obtain ⟨hpad, htiles⟩ := execBreakpointStop_loose (z := z) hs
      refine ⟨_, hstop, hpad, fun i x _ hx => ?_⟩
      have hx := htiles i x hx
      cases hh : x.core.hold with
      | uop r =>
        dsimp only
        cases hc : r.committed with
        | true => rw [if_pos rfl, hx]; simp [Tile.freezeHold, hh, hc]
        | false => rw [if_neg Bool.false_ne_true, hx]; exact Tile.freezeHold_uop hh hc
      | _ => exact hx.trans (by rw [Tile.freezeHold, hh])
  · rintro i x r ⟨hget, ht, -, -, ha, hv, -⟩ hr hrun hf hstop hpos
    have hdue : p.faultDue = true := by simp [Paddock.faultDue, hrun, hr, hf, hstop, hpos]
    refine ⟨_, ?_, haltPad_event (k := k) (Option.isSome_of_eq_some hget) rfl ht ha hv (p.rtick - 1) p.fn evFault p.handle _ 0⟩
    show execPaddockWideFault s = _
    simp only [execPaddockWideFault, show s.pad.reports = [r] from hr, firstReport]
    rw [if_neg (by simp [show s.pad.faultDue = true from hdue])]
  · rintro i x ⟨hget, ht, -, -, ha, hv, -⟩ hr hrun hf hpos hdown hlate
    have hdone : p.jobDone = true := by simp [Paddock.jobDone, hrun, hr, hf, hpos, ht, Tile.wasDown, hdown, hlate]
    exact ⟨_, congrArg Host.Outcome.next (if_pos hdone),
      haltPad_event (k := k) (Option.isSome_of_eq_some hget) rfl ht ha hv (p.rtick - 1) p.fn evJobEnd p.handle 0 _⟩
  · intro j r hrun hget hr
    exact ⟨_, congrArg Host.Outcome.next ((if_neg (by simp [hrun])).trans (if_neg hr)), State.destroyFor_spec hget _⟩
  · intro j hrun hget
    obtain ⟨q, hreports, hinfo, hcycle⟩ := State.dieFault_reports hget
    exact ⟨_, q, congrArg Host.Outcome.next ((if_neg (by simp [hrun])).trans (if_pos rfl)), hreports, congrArg FaultInfo.cause hinfo,
      congrArg FaultInfo.t3 hinfo, hcycle⟩
  · intro j d hr hp hd hget hq
    exact ⟨_, execForcedReclaim_unmet hr hp hd hq, State.destroyFor_spec hget _⟩
  · exact fun j d q a n hr hp hd hrun hq hreq hfree hdone => execForcedReclaim_met hr hp hd hrun hq hreq hfree hdone
  · exact fun n d hh hd hs => execHoldExpiry_spec hh hd hs

end Sys2Proof.Machine

-- A new handle (R478)

namespace Sys2Proof.Machine

theorem padKey_inj {n a b : Nat} (h : padKey n a = padKey n b) : a = b := by simpa [padKey] using h

/-- Among 257 handles in a row one has no live paddock, where fewer than 256 live. -/
theorem exists_freeHandle (n start : Nat) {live : List Nat} (hlen : live.length < 256) :
    ∃ i, i < 257 ∧ padKey n ((start + i) % 65535) ∉ live := by
  by_contra hall
  have hsub : ((List.range 257).map fun i => padKey n ((start + i) % 65535)) ⊆ live := fun x hx => by
    obtain ⟨i, hi, rfl⟩ := List.mem_map.mp hx
    exact not_not.mp fun hno => hall ⟨i, List.mem_range.mp hi, hno⟩
  have hnodup : ((List.range 257).map fun i => padKey n ((start + i) % 65535)).Nodup := by
    refine List.nodup_range.map_on fun i hi j hj h => ?_
    have := padKey_inj h
    have := List.mem_range.mp hi
    have := List.mem_range.mp hj
    omega
  have := (hnodup.subperm hsub).length_le
  rw [List.length_map, List.length_range] at this
  omega

/-- Where the search for the next handle begins. -/
def Func.firstHandle (f : Func) : Nat :=
  match f.lastHandle with
  | some h => h + 1
  | none => 0

/-- Handles ascend after the last one given, those in use skipped. -/
theorem State.nextHandle_spec (s : State) (n : Nat) (hlen : (s.liveHandles n).length < 256) :
    s.nextHandle n < 65535 ∧ padKey n (s.nextHandle n) ∉ s.liveHandles n ∧
      ((s.fn n).firstHandle < 65535 → padKey n (s.fn n).firstHandle ∉ s.liveHandles n →
        s.nextHandle n = (s.fn n).firstHandle) := by
  obtain ⟨i, hi, hfree⟩ := exists_freeHandle n (s.fn n).firstHandle hlen
  have hnext : s.nextHandle n = ((((List.range 257).map fun i => ((s.fn n).firstHandle + i) % 65535).find? fun h =>
      !(s.liveHandles n).contains (padKey n h)).getD 0) := rfl
  cases hfind : ((List.range 257).map fun i => ((s.fn n).firstHandle + i) % 65535).find? fun h =>
      !(s.liveHandles n).contains (padKey n h) with
  | none =>
    have := List.find?_eq_none.mp hfind _ (List.mem_map.mpr ⟨i, List.mem_range.mpr hi, rfl⟩)
    exact absurd hfree (by simpa using this)
  | some h =>
    rw [hnext, hfind, Option.getD_some]
    obtain ⟨j, -, rfl⟩ := List.mem_map.mp (List.mem_of_find?_eq_some hfind)
    refine ⟨Nat.mod_lt _ (by decide), by simpa using List.find?_some hfind, fun hlt hnot => ?_⟩
    have hhead : (List.range 257).map (fun i => ((s.fn n).firstHandle + i) % 65535) =
        (s.fn n).firstHandle :: ((List.range 256).map fun i => ((s.fn n).firstHandle + (i + 1)) % 65535) := by
      rw [List.range_succ_eq_map, List.map_cons, List.map_map, Nat.add_zero, Nat.mod_eq_of_lt hlt]
      rfl
    rw [hhead, List.find?_cons_of_pos (by simpa using hnot)] at hfind
    exact (Option.some.inj hfind).symm

/-- R478: CREATE gives a free handle, in EMPTY. -/
theorem execCreate_spec {s : State} {c : Command} (hh : (s.fn c.fn).hold = none) (hseq : c.seq.toNat + 1 < 2 ^ 64)
    (hf : firstFail (plain c [c.arg0, c.arg1, c.arg2, c.arg3]) = none) (hlen : (s.liveHandles c.fn).length < 256) :
    ∃ (t : State) (h : Nat),
      exec (.create c) s = .next (t.done 0x01 { c with handle := BitVec.ofNat 16 h } 0 (w64 h) 0) ∧ h < 65535 ∧
      padKey c.fn h ∉ s.liveHandles c.fn ∧ t.padAt (padKey c.fn h) = { Paddock.init with fn := c.fn, handle := h } ∧
      (∀ j, j ≠ padKey c.fn h → t.padAt j = s.padAt j) ∧
      ∀ l, (s.fn c.fn).lastHandle = some l → l < 65534 → padKey c.fn (l + 1) ∉ s.liveHandles c.fn → h = l + 1 := by
  obtain ⟨hlt, hfree, hfirst⟩ := s.nextHandle_spec c.fn hlen
  have hbusy : firstFail (plain c [c.arg0, c.arg1, c.arg2, c.arg3] ++
      [(decide (256 ≤ (s.liveHandles c.fn).length), stBusy)]) = none := by
    rw [firstFail_append hf, decide_eq_false (Nat.not_le.mpr hlen)]; rfl
  refine ⟨_, s.nextHandle c.fn, State.command_passes hseq (.inl hh) hbusy, hlt, hfree, ?_, fun j hj => ?_, fun l hl hl' hnot => ?_⟩
  · exact State.padAt_of_get? (FMap.get?_put_same ..)
  · exact State.padAt_congr (FMap.get?_put_ne _ _ _ _ hj)
  · have hstart : (s.fn c.fn).firstHandle = l + 1 := by rw [Func.firstHandle, hl]
    rw [hstart] at hfirst
    exact hfirst (by omega) hnot

end Sys2Proof.Machine

-- Commands to a paddock, carried out (R59, R71, R159, R434, R457)

namespace Sys2Proof.Machine

section
variable {s : State} {pre : List (Bool × Nat)} {k : Nat} {legal : List PState} {p : Paddock} (hpre : firstFail pre = none)
  (hg : FMap.get? s.pads k = some p) (hl : p.state ∈ legal)
include hpre hg hl

/-- The checks of a row that names a paddock: the operands, then the handle and the state. -/
theorem firstFail_row : firstFail (pre ++ s.named k legal) = none :=
  (firstFail_append hpre).trans (firstFail_named_none hg hl)

theorem firstFail_row_append (rest : List (Bool × Nat)) : firstFail (pre ++ s.named k legal ++ rest) = firstFail rest :=
  firstFail_append (firstFail_row hpre hg hl)

end

/-- A bound on the latest of some due cycles. -/
theorem foldl_due_le (qs : List Pending) (n b : Nat) :
    qs.foldl (fun n q => Nat.max n q.due) n ≤ b ↔ n ≤ b ∧ ∀ q ∈ qs, q.due ≤ b := by
  induction qs generalizing n with
  | nil => simp
  | cons q qs ih => rw [List.foldl_cons, ih, List.forall_mem_cons, ← and_assoc, Nat.max_le]

section
variable {s : State} {c : Command} (hh : (s.fn c.fn).hold = none) (hseq : c.seq.toNat + 1 < 2 ^ 64) (hf : c.flags = 0)
  (hg : FMap.get? s.pads c.key = some (s.padAt c.key))
include hh hseq hf hg

-- LOAD_IMAGE

/-- The status of an image whose buffer is large enough for a header. -/
def State.imageStatus (s : State) (c : Command) : Nat :=
  if hostOk c.fn c.arg0.toNat c.arg1.toNat then
    (imageOf (s.hostRead c.fn c.arg0.toNat c.arg1.toNat)).status c.fn (capsReg s.panel.retire2)
  else stBadArg

theorem execLoadImage_eq (h2 : c.arg2 = 0) (h3 : c.arg3 = 0) (hst : (s.padAt c.key).state = .empty) :
    exec (.loadImage c) s = .next (s.loadImage c) :=
  State.command_passes hseq (.inl hh) (firstFail_row (firstFail_plain hf (by simp [h2, h3])) hg (by simp [hst]))

omit hh hseq hf hg in
theorem State.loadImage_rejected (hn : 64 ≤ c.arg1.toNat) (hst : s.imageStatus c ≠ 0) :
    s.loadImage c = s.done 0x02 c (s.imageStatus c) 0 0 := by
  simp only [State.loadImage, if_neg (Nat.not_lt.mpr hn)]
  unfold State.imageStatus at hst ⊢
  cases ho : hostOk c.fn c.arg0.toNat c.arg1.toNat with
  | true =>
    rw [ho, if_pos rfl] at hst
    simp [hst]
  | false => simp

omit hh hseq hf in
theorem State.loadImage_accepted (hn : 64 ≤ c.arg1.toNat) (hst : s.imageStatus c = 0) :
    let m := imageOf (s.hostRead c.fn c.arg0.toNat c.arg1.toNat)
    ∃ t : State, s.loadImage c = t.done 0x02 c 0 0 0 ∧ (t.padAt c.key).state = .loaded ∧ (t.padAt c.key).shape = m.shape ∧
      (t.padAt c.key).tiles = m.tilesOf ∧ (t.padAt c.key).folds = m.foldsOf := by
  intro m
  unfold State.imageStatus at hst
  cases ho : hostOk c.fn c.arg0.toNat c.arg1.toNat with
  | true =>
    rw [ho, if_pos rfl] at hst
    refine ⟨_, by simp [State.loadImage, Nat.not_lt.mpr hn, ho, hst]; rfl, ?_⟩
    rw [State.padAt_modPadAt _ hg]
    exact ⟨rfl, rfl, rfl, rfl⟩
  | false =>
    rw [ho] at hst
    cases hst

-- MBWRITE

/-- R158, R159: a host write to a mailbox reaches the tile it names, or all. -/
theorem execMbwrite_spec (hst : (s.padAt c.key).state ∈ [PState.loaded, .running, .preempted]) (h3 : c.arg3 = 0)
    (hn : c.arg1.toNat < 16) (hi : c.arg0 = 0xFFFFFFFF ∨ c.arg0.toNat < (s.padAt c.key).shape.tiles) (hlt : c.arg0.toNat < 2 ^ 32) :
    ∃ t : State, exec (.mbwrite c) s = .next (t.done 0x04 c 0 0 0) ∧ ∀ j x, FMap.get? (s.padAt c.key).tiles j = some x →
      FMap.get? (t.padAt c.key).tiles j =
        some (if c.arg0 = 0xFFFFFFFF ∨ c.arg0.toNat = j then (s.padAt c.key).mailTo c.arg1.toNat c.arg2 x else x) := by
  have hall : c.arg0.toNat = 0xFFFFFFFF ↔ c.arg0 = 0xFFFFFFFF :=
    ⟨fun h => BitVec.eq_of_toNat_eq h, fun h => by rw [h]; rfl⟩
  have hn' : bits c.arg1 3 0 = c.arg1.toNat := by simp only [bits]; omega
  have hhigh : bits c.arg1 63 4 = 0 := by simp only [bits]; omega
  have htile : (c.arg0.toNat != 0xFFFFFFFF && decide ((s.padAt c.key).shape.tiles ≤ c.arg0.toNat)) = false := by
    rcases hi with h | h
    · simp [hall.mpr h]
    · simp [Nat.not_le.mpr h]
  refine ⟨_, State.command_passes hseq (.inl hh) ((firstFail_row_append ?_ hg hst _).trans (by rw [htile]; rfl)), fun j x hx => ?_⟩
  · simpa [firstFail, hf, h3, hhigh] using hlt
  · rw [State.padAt_modPadAt _ hg]
    rw [Paddock.get?_mapTiles, hx, Option.map_some, hn']
    simp only [hall]

-- PREEMPT and MOVE

omit hh hseq hf hg in
/-- R59, R434: a request of a kind that spreads is due at the pause point a paddock stands stopped at, else at one within 1,024 cycles of
any pause point after it and not before an earlier one's. -/
theorem State.dueFrom_spreads {p : Paddock} {r : Req} (hr : r.spreads = true) :
    (p.atPause = true → s.dueFrom p r = p.rtick - 1) ∧
    (p.atPause = false → p.rtick < s.dueFrom p r ∧ (∀ x ∈ p.pending, x.req.spreads = true → x.due ≤ s.dueFrom p r) ∧
      ((∀ x ∈ p.pending, x.req.spreads = true → x.due ≤ p.rtick + 1025) → s.dueFrom p r ≤ p.rtick + 1025)) := by
  refine ⟨fun h => if_pos h, fun h => ?_⟩
  have hdue : s.dueFrom p r = (p.pending.filter (·.req.spreads)).foldl (fun n q => Nat.max n q.due)
      (p.rtick + 1 + Config.requestDelay s.free % 1025) := by simp [State.dueFrom, h, hr]
  have hmod := Nat.mod_lt (Config.requestDelay s.free) (show 0 < 1025 by decide)
  rw [hdue]
  obtain ⟨hstart, hlast⟩ := (foldl_due_le _ _ _).mp (Nat.le_refl ((p.pending.filter (·.req.spreads)).foldl
    (fun n q => Nat.max n q.due) (p.rtick + 1 + Config.requestDelay s.free % 1025)))
  refine ⟨by omega, fun x hx hs => hlast x (List.mem_filter.mpr ⟨hx, hs⟩), fun hall => (foldl_due_le _ _ _).mpr ⟨by omega, ?_⟩⟩
  intro x hx
  obtain ⟨hx, hs⟩ := List.mem_filter.mp hx
  exact hall x hx hs

omit hh hseq hf in
/-- A command's request joins those that wait. -/
theorem State.request_spreads {r : Req} (hr : r.spreads = true) :
    ∃ q, ((s.request c.key r (some c) none).padAt c.key).pending = (s.padAt c.key).pending ++ [q] ∧ q.req = r ∧ q.cmd = some c ∧
      q.deadline = none ∧ ((s.padAt c.key).atPause = true → q.due = (s.padAt c.key).rtick - 1) ∧
      ((s.padAt c.key).atPause = false → (s.padAt c.key).rtick < q.due ∧
        (∀ x ∈ (s.padAt c.key).pending, x.req.spreads = true → x.due ≤ q.due) ∧
        ((∀ x ∈ (s.padAt c.key).pending, x.req.spreads = true → x.due ≤ (s.padAt c.key).rtick + 1025) →
          q.due ≤ (s.padAt c.key).rtick + 1025)) := by
  obtain ⟨hpause, hlater⟩ := State.dueFrom_spreads (s := s) (p := s.padAt c.key) hr
  let q : Pending := { req := r, due := s.dueFrom (s.padAt c.key) r, cmd := some c, deadline := none }
  have hget : FMap.get? (s.request c.key r (some c) none).pads c.key =
      some { s.padAt c.key with pending := (s.padAt c.key).pending ++ [q] } :=
    (State.get?_modPadAt s c.key _).trans (by rw [hg]; rfl)
  refine ⟨q, ?_, rfl, rfl, rfl, hpause, hlater⟩
  rw [State.padAt_of_get? hget]

theorem execPreempt_eq (h0 : c.arg0 = 0) (h1 : c.arg1 = 0) (h2 : c.arg2 = 0) (h3 : c.arg3 = 0)
    (hst : (s.padAt c.key).state = .running) : exec (.preempt c) s = .next (s.request c.key .preempt (some c) none) :=
  State.command_passes hseq (.inl hh) (firstFail_row (firstFail_plain hf (by simp [h0, h1, h2, h3])) hg (by simp [hst]))

theorem execMove_eq (h1 : c.arg1 = 0) (h2 : c.arg2 = 0) (h3 : c.arg3 = 0) (hst : (s.padAt c.key).state = .running) :
    exec (.move c) s = .next (s.request c.key (.move c.arg0) (some c) none) :=
  State.command_passes hseq (.inl hh) (firstFail_row (firstFail_plain hf (by simp [h1, h2, h3])) hg (by simp [hst]))

-- READ

omit hh hseq hf hg in
theorem hostReach_le (fn a n : Nat) : hostReach fn a n ≤ n := by
  unfold hostReach
  split
  · next k hk =>
    have hk := List.find?_some hk
    simp only [Bool.and_eq_true, decide_eq_true_eq] at hk
    omega
  · exact Nat.le_refl n

omit hh hseq hf hg in
/-- The words of a range that READ finds. -/
theorem savedWords_eq {ws : List W64} (hws : ∀ i, i < ws.length → s.savedWord c.key (c.arg0.toNat + 8 * i) = some (ws[i]?)) :
    ((List.range ws.length).map fun i => s.savedWord c.key (c.arg0.toNat + 8 * i)) = ws.map fun w => some (some w) := by
  refine List.ext_getElem (by simp) fun i hi hi' => ?_
  have hlt : i < ws.length := by simpa using hi
  simp [hws i hlt, List.getElem?_eq_getElem hlt]

omit hh hseq hf hg in
theorem flatMap_natLE_length (ws : List W64) : (ws.flatMap fun w => natLE 8 w.toNat).length = 8 * ws.length := by
  simp [List.length_flatMap, Nat.mul_comm]

omit hh hseq hf hg in
theorem State.readOut_found {ws : List W64} (ha : c.arg0.toNat % 8 = 0) (hn : c.arg2.toNat = 8 * ws.length)
    (hws : ∀ i, i < ws.length → s.savedWord c.key (c.arg0.toNat + 8 * i) = some (ws[i]?)) :
    let bs := ws.flatMap fun w => natLE 8 w.toNat
    s.readOut c = if hostOk c.fn c.arg1.toNat c.arg2.toNat then
        (s.hostWrite c.fn c.arg1.toNat bs).done 0x0A c 0 0 0xFFFFFFFFFFFFFFFF
      else (s.hostWrite c.fn c.arg1.toNat (bs.take (hostReach c.fn c.arg1.toNat c.arg2.toNat))).done 0x0A c 0x0A 0 0 := by
  intro bs
  have hle := hostReach_le c.fn c.arg1.toNat c.arg2.toNat
  have hwords : c.arg2.toNat / 8 = ws.length := by omega
  have hfound : ¬ (c.arg0.toNat % 8 ≠ 0 ∨ c.arg2.toNat % 8 ≠ 0 ∨
      (ws.map fun w => some (some w)).any (·.isNone) = true) := by
    rintro (h | h | h)
    · exact h ha
    · omega
    · simp at h
  have hvalues : (ws.map fun w => some (some w)).map (fun w => w.join) = ws.map some := by simp
  have hbytes : ((ws.map some).flatMap fun v => natLE 8 (v.getD 0).toNat) = bs := by
    rw [List.flatMap_map]; rfl
  have hclean : (ws.map some).findIdx? (·.isNone) = none := by simp
  have hcount : (ws.map some).filter (·.isNone) = [] := by simp
  simp only [State.readOut, hwords, savedWords_eq hws, if_neg hfound, hvalues, hbytes, hclean, hcount]
  by_cases hreach : hostReach c.fn c.arg1.toNat c.arg2.toNat = c.arg2.toNat
  · rw [if_neg (by omega), if_pos (by simp [hostOk, hreach]), hreach,
      List.take_of_length_le (by rw [flatMap_natLE_length]; omega)]
    rfl
  · rw [if_pos (by omega), if_neg (by simp [hostOk, hreach])]
    rfl

theorem execRead_eq (h3 : c.arg3 = 0) (hst : (s.padAt c.key).state ∈ [PState.halted, .preempted]) :
    exec (.read c) s = .next (s.readOut c) :=
  State.command_passes hseq (.inl hh) (firstFail_row (firstFail_plain hf (by simp [h3])) hg hst)

-- DESTROY

omit hh hseq hf hg in
/-- A destroyed paddock owns no channel. -/
theorem State.destroyPad_owners (k : Nat) : (s.destroyPad k).panel.owners = s.panel.owners.filter fun o => o.2 != k := by
  obtain ⟨a, ha⟩ := s.failPending_panel k
  obtain ⟨d, hd⟩ := (s.failPending k).leaveDies_panel k
  have hempty : (s.emptyPad k).panel.owners = s.panel.owners.filter fun o => o.2 != k := by
    show (((s.failPending k).leaveDies k).panel.disown k).owners = _
    rw [hd, ha]; rfl
  rcases s.destroyPad_cases k with h | ⟨n, h⟩ <;> rw [h]
  · exact hempty
  · exact hempty

/-- R457: DESTROY of the function's own paddock. -/
theorem execDestroy_spec (h0 : c.arg0 = 0) (h1 : c.arg1 = 0) (h2 : c.arg2 = 0) (h3 : c.arg3 = 0)
    (hst : (s.padAt c.key).state ≠ .destroyed) : ∃ t : State, exec (.destroy c) s = .next (t.done 0x0B c 0 0 0) ∧
      (t.padAt c.key).state = .destroyed ∧ (t.padAt c.key).tiles = [] ∧ (∀ j, j ≠ c.key → t.padAt j = s.padAt j) ∧
      t.panel.owners = s.panel.owners.filter fun o => o.2 != c.key := by
  have hvictim := Command.victim_eq h0
  have hlegal : (s.padAt c.victim).state ∈ [PState.empty, .loaded, .running, .preempted, .halted, .held] := by
    rw [hvictim]
    cases hs : (s.padAt c.key).state with
    | destroyed => exact absurd hs hst
    | _ => decide
  have hoperands : firstFail [(c.flags != 0, stBadOpcode), (c.arg1 != 0 || c.arg2 != 0 || c.arg3 != 0 ||
      decide ((if c.fn = 0 then 192 else 0) < c.arg0.toNat), stBadArg)] = none := by
    rw [hf, h0, h1, h2, h3]; split <;> rfl
  have hexec : exec (.destroy c) s = .next ((s.destroyPad c.victim).done 0x0B c 0 0 0) :=
    State.command_passes hseq (.inl hh) (firstFail_row hoperands (by rw [hvictim]; exact hg) hlegal)
  rw [hvictim] at hexec
  refine ⟨_, hexec, ?_, ?_, fun j hj => State.padAt_congr (onlyPad_destroyPad s c.key j hj), s.destroyPad_owners c.key⟩
  all_goals rw [State.padAt_of_get? (State.get?_destroyPad hg)]; rfl

end

end Sys2Proof.Machine

-- Placing a paddock (R80, R438)

namespace Sys2Proof.Machine

theorem find?_range_some {n : Nat} {f : Nat → Bool} (h : ∃ i, i < n ∧ f i = true) :
    ∃ i, (List.range n).find? f = some i ∧ f i = true := by
  obtain ⟨i, hi, hf⟩ := h
  cases hfind : (List.range n).find? f with
  | none => exact absurd hf (List.find?_eq_none.mp hfind i (List.mem_range.mpr hi))
  | some m => exact ⟨m, rfl, List.find?_some hfind⟩

theorem find?_range_none {n : Nat} {f : Nat → Bool} (h : ∀ i, ¬ (i < n ∧ f i = true)) : (List.range n).find? f = none :=
  List.find?_eq_none.mpr fun i hi hf => h i ⟨List.mem_range.mp hi, hf⟩

section
variable {s : State} {k : Nat} {p : Paddock}

/-- R80, R82: where a placement word is legal, a legal one is taken. -/
theorem State.choosePlace_some (hw : p.shape.w ≤ 80) (hh : p.shape.h ≤ 80)
    (h : ∃ n, n < 102400 ∧ s.placeOk k p (placeWordOf n) = true) :
    ∃ word, s.choosePlace k p = some word ∧ s.placeOk k p word = true := by
  obtain ⟨n, hfind, hok⟩ := find?_range_some h
  have hsmall : ¬ 80 < Nat.max p.shape.w p.shape.h := Nat.not_lt.mpr (Nat.max_le.mpr ⟨hw, hh⟩)
  simp only [State.choosePlace, if_neg hsmall, hfind]
  split
  · next hdrawn => exact ⟨_, rfl, hdrawn⟩
  · exact ⟨_, rfl, hok⟩

theorem State.choosePlace_none (h : ∀ n, ¬ (n < 102400 ∧ s.placeOk k p (placeWordOf n) = true)) : s.choosePlace k p = none := by
  have hfind := find?_range_none h
  have hdrawn : ¬ s.placeOk k p (placeWordOf (Config.placement s.free % 102400)) = true :=
    fun hok => h _ ⟨Nat.mod_lt _ (by decide), hok⟩
  simp only [State.choosePlace, if_neg hdrawn, hfind]
  exact ite_self none

theorem State.channelsFor_of_placeOk {word : W64} (h : s.placeOk k p word = true) : ∃ chans, s.channelsFor p word = some chans := by
  simp only [State.placeOk, Bool.and_eq_true] at h
  exact Option.isSome_iff_exists.mp h.2

theorem fillChannels_length : ∀ (own : List (Option Nat)) (free : List Nat) {l : List (Option Nat)},
    fillChannels own free = some l → l.length = own.length
  | [], _, l, h => by cases h; rfl
  | some c :: ps, free, l, h => by
    obtain ⟨m, hm, rfl⟩ := Option.map_eq_some_iff.mp h
    exact congrArg (· + 1) (fillChannels_length ps free hm)
  | none :: _, [], l, h => by cases h
  | none :: ps, f :: fs, l, h => by
    obtain ⟨m, hm, rfl⟩ := Option.map_eq_some_iff.mp h
    exact congrArg (· + 1) (fillChannels_length ps fs hm)

/-- A paddock without channels gets as many as its shape asks for. -/
theorem State.channelsFor_length (hp : p.chans = []) {word : W64} {chans : List (Option Nat)}
    (h : s.channelsFor p word = some chans) : chans.length = p.shape.chan := by
  have hlen := fillChannels_length _ _ h
  rw [hlen, List.length_map, hp]
  exact List.length_replicate

/-- Marking pages FORWARD changes neither the shape nor the tiles. -/
theorem forwards_frame (gs : List Nat) (p : Paddock) :
    (gs.foldl Paddock.forward p).shape = p.shape ∧ (gs.foldl Paddock.forward p).tiles = p.tiles := by
  induction gs generalizing p with
  | nil => exact ⟨rfl, rfl⟩
  | cons g gs ih => exact ih (p.forward g)

/-- A paddock at a placement with its channels, the pages of positions that change channel marked. -/
def Paddock.stood (p : Paddock) (word : W64) (chans : List (Option Nat)) (pages old : List Nat) : Paddock :=
  { pages.foldl Paddock.forward p with place := word, chans := chans, moving := pages, oldChans := old }

/-- A paddock that has come to stand at a placement. -/
structure Stands (s t : State) (k : Nat) (word : W64) (p q : Paddock) : Prop where
  get : FMap.get? t.pads k = some q
  place : q.place = word
  shape : q.shape = p.shape
  tiles : q.tiles = p.tiles
  dtick : t.dtick = s.dtick
  fns : t.fns = s.fns
  awaits : t.panel.awaits = s.panel.awaits

theorem State.standAt_stands (hp : FMap.get? s.pads k = some p) (word : W64) (chans : List (Option Nat)) :
    ∃ q, Stands s (s.standAt k word chans) k word p q := by
  obtain ⟨hshape, htiles⟩ := forwards_frame ((changedPos p.chans chans).flatMap p.pagesAt) p
  simp only [State.standAt, State.padAt_of_get? hp]
  split
  · exact ⟨p.stood word chans _ [], (State.get?_modPadAt ..).trans (congrArg (Option.map _) hp), rfl, hshape, htiles, rfl, rfl, rfl⟩
  · exact ⟨{ p.stood word chans _ _ with nextSwitch := _ }, (State.get?_modPadAt ..).trans
      (congrArg (Option.map _) ((State.get?_modPadAt ..).trans (congrArg (Option.map _) hp))), rfl, hshape, htiles, rfl, rfl, rfl⟩

end

end Sys2Proof.Machine

-- START and RESUME (R80, R91, R437, R438)

namespace Sys2Proof.Machine

/-- On its way from a placement: RUNNING, in the release wave of the placement's length. -/
def Paddock.Leaves (q p : Paddock) (word : W64) (now : Nat) : Prop :=
  q.state = .running ∧ q.place = word ∧ q.freeze = some (.release (now + 1 + p.shape.bMax word))

/-- A RUNNING paddock leaves by the wave of its placement. -/
theorem State.release_leaves {u : State} {k : Nat} {p r : Paddock} {word : W64} {now : Nat}
    (hget : FMap.get? u.pads k = some r) (hrun : r.state = .running) (hplace : r.place = word) (hshape : r.shape = p.shape)
    (hnow : u.dtick = now) : ((u.release k).padAt k).Leaves p word now := by
  rw [State.release, State.padAt_modPadAt _ hget]
  refine ⟨hrun, hplace, ?_⟩
  rw [Paddock.wake_freeze, State.wave, hplace, hshape, hnow]

theorem Tile.unpark_wantsNotice (t : Tile) : t.unpark.wantsNotice = t.wantsNotice := by
  show (bit (Regs.rd (t.setCtl kSpmap _).ctl kTvec) 62 && !t.core.halted) = _
  rw [Tile.setCtl_rd_ne _ _ _ _ (by decide)]
  rfl

/-- A paddock restored on tiles, leaving by the given wave. -/
def Paddock.resumed (p : Paddock) (f : Freeze) (now : Nat) : Paddock :=
  { (p.mapTiles fun _ => Tile.unpark).wake f with state := .running, sliced := false, owed := p.shape.all }.beat now

/-- Neither what a restored tile gets back nor its skew estimates say whether it wants a notification. -/
theorem Paddock.resumed_quiet {p : Paddock} (h : ∀ e ∈ p.tiles, e.2.wantsNotice = false) (f : Freeze) (now : Nat) :
    ∀ e ∈ (p.resumed f now).tiles, e.2.wantsNotice = false := by
  intro e he
  obtain ⟨x, hx, rfl⟩ := List.mem_map.mp he
  obtain ⟨y, hy, rfl⟩ := List.mem_map.mp hx
  show (bit (Regs.rd (y.2.unpark.setCtl 0x0A _).ctl kTvec) 62 && !y.2.core.halted) = false
  rw [Tile.setCtl_rd_ne _ _ _ _ (by decide)]
  exact (y.2.unpark_wantsNotice).trans (h y hy)

/-- R91: a paddock put to RUNNING where it stands leaves. -/
theorem Stands.starts {s t : State} {k : Nat} {word : W64} {p q : Paddock} (h : Stands s t k word p q) (hbm : Paddock → Store) :
    (((t.modPadAt k fun p => { p with state := .running, hbm := hbm p }).release k).padAt k).Leaves p word s.dtick :=
  State.release_leaves ((State.get?_modPadAt ..).trans (congrArg (Option.map _) h.get)) rfl h.place h.shape h.dtick

/-- R438: a paddock that stands on tiles again, none of which takes a notification, leaves. -/
theorem Stands.resumes {s t : State} {k : Nat} {word : W64} {p q : Paddock} (h : Stands s t k word p q)
    (hn : ∀ e ∈ p.tiles, e.2.wantsNotice = false) :
    (((t.modPadAt k fun p => p.resumed (t.wave p) t.dtick).settle k).padAt k).Leaves p word s.dtick := by
  have hget : FMap.get? (t.modPadAt k fun p => p.resumed (t.wave p) t.dtick).pads k = some (q.resumed (t.wave q) t.dtick) :=
    (State.get?_modPadAt ..).trans (congrArg (Option.map _) h.get)
  rw [State.settle_quiet hget rfl (Paddock.resumed_quiet (by rw [h.tiles]; exact hn) _ _)]
  exact State.release_leaves ((State.get?_modPadAt ..).trans (congrArg (Option.map _) hget)) rfl h.place h.shape h.dtick

section
variable {s : State} {c : Command} (hh : (s.fn c.fn).hold = none) (hseq : c.seq.toNat + 1 < 2 ^ 64)
  (hf : firstFail (plain c [c.arg0, c.arg1, c.arg2, c.arg3]) = none)
  (hg : FMap.get? s.pads c.key = some (s.padAt c.key))
include hh hseq hf hg

theorem execStart_eq (hst : (s.padAt c.key).state = .loaded) (hb : (s.fn c.fn).nextBudget ≠ 0) :
    exec (.start c) s = .next (s.startPad c) :=
  State.command_passes hseq (.inl hh) ((firstFail_row_append hf hg (by simp [hst]) _).trans (by simp [firstFail, hb]))

omit hh hseq hf hg in
theorem State.startPad_noPlace (h : s.choosePlace c.key (s.padAt c.key) = none) : s.startPad c = s.done 0x03 c stNoPlace 0 0 := by
  simp only [State.startPad, h]

omit hh hseq hf in
theorem State.startPad_places (hc : (s.padAt c.key).chans = []) (hw : (s.padAt c.key).shape.w ≤ 80)
    (hht : (s.padAt c.key).shape.h ≤ 80) (hsave : s.saveSpaceOk (s.padAt c.key) (s.padAt c.key).shape.chan = true)
    (hfit : ∃ n, n < 102400 ∧ s.placeOk c.key (s.padAt c.key) (placeWordOf n) = true) :
    ∃ word, s.placeOk c.key (s.padAt c.key) word = true ∧
      ((s.startPad c).padAt c.key).Leaves (s.padAt c.key) word s.dtick ∧ (s.startPad c).fns = s.fns ∧
      (s.startPad c).panel.awaits = s.panel.awaits ++ [{ op := 0x03, cmd := c, pads := [c.key], res := word }] := by
  obtain ⟨word, hword, hok⟩ := State.choosePlace_some hw hht hfit
  obtain ⟨chans, hchans⟩ := State.channelsFor_of_placeOk hok
  have hlen : (!s.saveSpaceOk (s.padAt c.key) chans.length) = false := by
    rw [State.channelsFor_length hc hchans, hsave]; rfl
  obtain ⟨q, hq⟩ := State.standAt_stands (s := { s with free := s.free + 1 }) hg word chans
  simp only [State.startPad, hword, hchans, hlen, Bool.false_eq_true, if_false]
  exact ⟨word, hok, hq.starts fun p => { Store.empty with bytes := (imageOf p.image).hbmOf }, hq.fns,
    congrArg (· ++ [_]) hq.awaits⟩

omit hh hseq hf hg in
theorem State.resumePad_noPlace {k : Nat} (h : s.choosePlace k (s.padAt k) = none) : s.resumePad k = .noPlace := by
  simp only [State.resumePad, h]

omit hh hseq hf hg in
theorem State.resumePad_badLine {k : Nat} (hw : (s.padAt k).shape.w ≤ 80) (hht : (s.padAt k).shape.h ≤ 80)
    (hfit : ∃ n, n < 102400 ∧ s.placeOk k (s.padAt k) (placeWordOf n) = true) (hb : (s.padAt k).badSave ≠ []) :
    s.resumePad k = .badLine := by
  obtain ⟨word, hword, -⟩ := State.choosePlace_some hw hht hfit
  simp [State.resumePad, hword, hb]

omit hh hseq hf hg in
theorem State.resumePad_places {k : Nat} (hp : FMap.get? s.pads k = some (s.padAt k)) (hw : (s.padAt k).shape.w ≤ 80)
    (hht : (s.padAt k).shape.h ≤ 80) (hfit : ∃ n, n < 102400 ∧ s.placeOk k (s.padAt k) (placeWordOf n) = true)
    (hb : (s.padAt k).badSave = []) (hn : ∀ e ∈ (s.padAt k).tiles, e.2.wantsNotice = false) :
    ∃ t word, s.resumePad k = .ok t word ∧ s.placeOk k (s.padAt k) word = true ∧
      (t.padAt k).Leaves (s.padAt k) word s.dtick := by
  obtain ⟨word, hword, hok⟩ := State.choosePlace_some hw hht hfit
  have hgood : (!(s.padAt k).badSave.isEmpty) = false := by rw [hb]; rfl
  obtain ⟨q, hq⟩ := State.standAt_stands (s := { s with free := s.free + 1 }) hp word
    ((s.channelsFor (s.padAt k) word).getD (s.padAt k).chans)
  exact ⟨_, word, by simp only [State.resumePad, hword, hgood, Bool.false_eq_true, if_false]; rfl, hok, hq.resumes hn⟩

section
variable (hst : (s.padAt c.key).state = .preempted)
include hst

theorem execResume_noPlace (h : s.resumePad c.key = .noPlace) : exec (.resume c) s = .next (s.done 0x06 c stNoPlace 0 0) :=
  (State.command_passes hseq (.inl hh) (firstFail_row hf hg (by simp [hst]))).trans (by simp only [h])

theorem execResume_badLine (h : s.resumePad c.key = .badLine) :
    exec (.resume c) s = .next ((s.done 0x06 c stAuth 0 0).failRestore c.key) :=
  (State.command_passes hseq (.inl hh) (firstFail_row hf hg (by simp [hst]))).trans (by simp only [h])

theorem execResume_places {t : State} {word : W64} (h : s.resumePad c.key = .ok t word) :
    exec (.resume c) s = .next (t.done 0x06 c stOk word 0) :=
  (State.command_passes hseq (.inl hh) (firstFail_row hf hg (by simp [hst]))).trans (by simp only [h])

end

end

end Sys2Proof.Machine

-- The commands that make, place, ask and end paddocks (R59, R71, R80, R159, R434, R457, R478)

namespace Sys2Proof.Machine

/-- Settles O55: each row's checks pass, and its effect is what the row's own lemma says. -/
theorem paddockCommands : Obligations.PaddockCommands := by
  unfold Obligations.PaddockCommands
  intro s c hh hseq hf k p none' placed fits asks
  have hplain : none' → firstFail (plain c [c.arg0, c.arg1, c.arg2, c.arg3]) = none :=
    fun ⟨h0, h1, h2, h3⟩ => firstFail_plain hf (by simp [h0, h1, h2, h3])
  have hasks : ∀ i r, FMap.get? s.pads k = some p → r.spreads = true → exec i s = .next (s.request k r (some c) none) →
      asks i r := fun i r hg hr hexec => by
    obtain ⟨q, hq, hreq, hcmd, hdead, hpause, hlater⟩ := State.request_spreads hg hr
    exact ⟨_, q, hexec, hq, hreq, hcmd, hdead, hpause, hlater, rfl, rfl⟩
  refine ⟨fun hn hlen => execCreate_spec hh hseq (hplain hn) hlen, fun hg => ⟨fun h2 h3 hst hsize => ?_,
    fun hn hst hb hc hw hht hsave hfit => ?_, fun hn hst hb hfit => ?_, fun hn hst hfit => ?_, fun hn hst hw hht hfit hbad => ?_,
    fun hn hst hgood hw hht hfit hquiet => ?_, fun hst h3 hslot hi hlt => ?_, fun ⟨h0, h1, h2, h3⟩ hst => ?_,
    fun h1 h2 h3 hst => ?_, fun ws h3 hst ha hlen hws => ?_, fun ⟨h0, h1, h2, h3⟩ hst => ?_⟩⟩
  · have hload := execLoadImage_eq hh hseq hf hg h2 h3 hst
    refine ⟨fun hbad => by rw [hload, State.loadImage_rejected hsize hbad]; rfl, fun hok => ?_⟩
    obtain ⟨t, ht, hloaded⟩ := State.loadImage_accepted hg hsize hok
    exact ⟨t, hload.trans (congrArg Host.Outcome.next ht), hloaded⟩
  · obtain ⟨word, hok, ⟨hrun, hplace, hfreeze⟩, hfns, hawaits⟩ := State.startPad_places hg hc hw hht hsave hfit
    exact ⟨_, word, execStart_eq hh hseq (hplain hn) hg hst hb, ⟨hok, hrun, hplace, hfreeze⟩, hfns, hawaits⟩
  · rw [execStart_eq hh hseq (hplain hn) hg hst hb, State.startPad_noPlace (State.choosePlace_none hfit)]
    rfl
  · exact execResume_noPlace hh hseq (hplain hn) hg hst (State.resumePad_noPlace (State.choosePlace_none hfit))
  · have hpads : FMap.get? (s.done 0x06 c 0x07 0 0).pads k = some p := by rw [State.done_pads]; exact hg
    refine ⟨(execResume_badLine hh hseq (hplain hn) hg hst (State.resumePad_badLine hw hht hfit hbad)).trans ?_, ?_⟩
    · show Host.Outcome.next (((s.done 0x06 c 0x07 0 0).destroyPad k).event ((s.done 0x06 c 0x07 0 0).padAt k).fn 0x0A
        ((s.done 0x06 c 0x07 0 0).padAt k).handle 0x0B 0) = _
      rw [State.padAt_of_get? hpads]
    · rw [State.padAt_of_get? (State.get?_destroyPad hpads)]
      rfl
  · obtain ⟨t, word, hresume, hok, hrun, hplace, hfreeze⟩ := State.resumePad_places hg hw hht hfit hgood hquiet
    exact ⟨t, word, execResume_places hh hseq (hplain hn) hg hst hresume, hok, hrun, hplace, hfreeze⟩
  · exact execMbwrite_spec hh hseq hf hg hst h3 hslot hi hlt
  · exact hasks _ _ hg rfl (execPreempt_eq hh hseq hf hg h0 h1 h2 h3 hst)
  · exact hasks _ _ hg rfl (execMove_eq hh hseq hf hg h1 h2 h3 hst)
  · rw [execRead_eq hh hseq hf hg h3 hst, State.readOut_found ha hlen hws]
  · exact execDestroy_spec hh hseq hf hg h0 h1 h2 h3 hst

end Sys2Proof.Machine

namespace Sys2Proof

-- Words and the spans that make them up

/-- A word is a concatenation when its two spans are the parts. -/
theorem eq_append_iff (k l : Nat) (x : BitVec k) (y : BitVec l) (z : BitVec (k + l)) :
    z = x ++ y ↔ z.extractLsb' l k = x ∧ z.extractLsb' 0 l = y := by
  constructor
  · rintro rfl
    exact ⟨by rw [extract_append_high _ _ _ _ (le_refl l), Nat.sub_self, extract_all], extract_append_low x y⟩
  · rintro ⟨rfl, rfl⟩
    rw [BitVec.extractLsb'_append_extractLsb'_eq_extractLsb' (by omega), extract_all]

@[simp] theorem extract_append_extract_self (k l : Nat) (z : BitVec (k + l)) : z.extractLsb' l k ++ z.extractLsb' 0 l = z :=
  ((eq_append_iff k l _ _ z).mpr ⟨rfl, rfl⟩).symm

theorem zero_append_eq_setWidth (m : Nat) {k : Nat} (x : BitVec k) : (0 : BitVec m) ++ x = x.setWidth (m + k) := by
  apply BitVec.eq_of_toNat_eq
  simpa using (Nat.mod_eq_of_lt (x.isLt.trans_le (Nat.pow_le_pow_right (by omega) (by omega)))).symm

/-- A word is a narrower one widened with zeros when that is its low span and its other bits are zero. -/
@[simp] theorem eq_setWidth_iff {k w : Nat} (h : k ≤ w) (x : BitVec k) (z : BitVec w) :
    z = x.setWidth w ↔ z.extractLsb' k (w - k) = 0 ∧ z.extractLsb' 0 k = x := by
  obtain ⟨m, rfl⟩ := Nat.exists_eq_add_of_le' h
  rw [Nat.add_sub_cancel, ← zero_append_eq_setWidth, eq_append_iff]

@[simp] theorem extract_eq_ofBool_iff {n : Nat} (z : BitVec n) (s : Nat) (b : Bool) :
    z.extractLsb' s 1 = BitVec.ofBool b ↔ z.getLsbD s = b := by
  have h : ∀ x : BitVec 1, x = BitVec.ofBool b ↔ x.getLsbD 0 = b := by revert b; decide
  simp [h]

/-- A field holds a number that fits it when it reads as that number. -/
theorem eq_ofNat_iff {k n : Nat} (h : n < 2 ^ k) (z : BitVec k) : z = BitVec.ofNat k n ↔ z.toNat = n := by
  rw [← BitVec.toNat_inj, BitVec.toNat_ofNat, Nat.mod_eq_of_lt h]

-- Operand fields of a packed word (Table 5-3)

@[simp] theorem eq_packR_iff (d a b : BitVec 6) (fn : BitVec 8) (o : BitVec 26) :
    o = packR d a b fn ↔ opD o = d ∧ opA o = a ∧ opB o = b ∧ opFn o = fn :=
  (eq_append_iff (6 + 6 + 6) 8 _ _ _).trans (by simp [opD, opA, opB, opFn, eq_append_iff (6 + 6) 6, eq_append_iff 6 6,
    extract_extract, and_assoc])

@[simp] theorem eq_packI_iff (d a : BitVec 6) (imm : BitVec 14) (o : BitVec 26) :
    o = packI d a imm ↔ opD o = d ∧ opA o = a ∧ opImm14 o = imm :=
  (eq_append_iff (6 + 6) 14 _ _ _).trans (by simp [opD, opA, opImm14, eq_append_iff 6 6, extract_extract, and_assoc])

@[simp] theorem eq_packL_iff (d : BitVec 6) (imm : BitVec 20) (o : BitVec 26) : o = packL d imm ↔ opD o = d ∧ opImm20 o = imm :=
  eq_append_iff 6 20 d imm o

@[simp] theorem eq_packLP_iff (d : BitVec 6) (len : BitVec 12) (fn : BitVec 8) (o : BitVec 26) :
    o = packLP d len fn ↔ opD o = d ∧ opLen o = len ∧ opFn o = fn :=
  (eq_append_iff (6 + 12) 8 _ _ _).trans (by simp [opD, opLen, opFn, eq_append_iff 6 12, extract_extract, and_assoc])

@[simp] theorem eq_packEn_iff (e : En) (o : BitVec 26) : o = packEn e ↔ opEn o = e := by
  cases e
  exact (eq_append_iff (6 + 8 + 6) 6 _ _ _).trans (by simp [opEn, eq_append_iff (6 + 8) 6, eq_append_iff 6 8,
    extract_extract, and_assoc])

@[simp] theorem eq_fn2_iff (hi lo : Nat) (fn : BitVec 8) :
    fn = fn2 hi lo ↔ fn.extractLsb' 4 4 = BitVec.ofNat 4 hi ∧ fn.extractLsb' 0 4 = BitVec.ofNat 4 lo :=
  eq_append_iff 4 4 _ _ fn

@[simp] theorem eq_amoFn_iff (hi : Nat) (ord : AmoOrd) (low : BitVec 4) (fn : BitVec 8) :
    fn = amoFn hi ord low ↔ fn.extractLsb' 6 2 = BitVec.ofNat 2 hi ∧ fn.extractLsb' 4 2 = BitVec.ofNat 2 ord.code ∧
      fn.extractLsb' 0 4 = low :=
  (eq_append_iff (2 + 2) 4 _ _ _).trans (by simp [eq_append_iff 2 2, extract_extract, and_assoc])

@[simp] theorem eq_packVr_iff (v : Vr) (o : BitVec 26) :
    o = packVr v ↔ opD o = v.vd ∧ opA o = v.va ∧ opB o = v.vb ∧ o.extractLsb' 4 4 = v.md ∧
      o.extractLsb' 0 4 = BitVec.ofNat 4 v.ty.code := by
  simp [packVr, eq_packR_iff, opFn, eq_append_iff 4 4, extract_extract]

@[simp] theorem extract_opFn (o : BitVec 26) (s l : Nat) (h : s + l ≤ 8) :
    (opFn o).extractLsb' s l = o.extractLsb' s l := by simp [opFn, extract_extract _ _ _ _ _ h]

@[simp] theorem extract_opImm14 (o : BitVec 26) (s l : Nat) (h : s + l ≤ 14) :
    (opImm14 o).extractLsb' s l = o.extractLsb' s l := by simp [opImm14, extract_extract _ _ _ _ _ h]

@[simp] theorem extract_opImm20 (o : BitVec 26) (s l : Nat) (h : s + l ≤ 20) :
    (opImm20 o).extractLsb' s l = o.extractLsb' s l := by simp [opImm20, extract_extract _ _ _ _ _ h]

@[simp] theorem getElem_opFn (o : BitVec 26) (i : Nat) (h : i < 8) : (opFn o)[i] = o[i] := by
  simp [opFn, BitVec.getLsbD_eq_getElem (show i < 26 by omega)]

@[simp] theorem eq_packKwr_iff (k : BitVec 8) (a : Reg) (o : BitVec 26) :
    o = packKwr k a ↔ opD o = 0 ∧ opA o = a ∧ opB o = 0 ∧ opFn o = k := by
  simp [packKwr, opB, opFn]

-- Codes of the named sets, in fields wide enough for them

/-- A field holds the code of a name when it is read as that name. -/
theorem code_field_iff {T : Type} {ofCode : Nat → Option T} {code : T → Nat} {k : Nat} (hcode : ∀ c, ofCode (code c) = some c)
    (hof : ∀ n c, ofCode n = some c → n = code c) (hlt : ∀ c, code c < 2 ^ k) (c : T) (z : BitVec k) :
    z = BitVec.ofNat k (code c) ↔ ofCode z.toNat = some c :=
  (eq_ofNat_iff (hlt c) z).trans ⟨fun h => h ▸ hcode c, hof z.toNat c⟩

theorem IntCond.eq_code_of_ofCode (n : Nat) (c : IntCond) (h : IntCond.ofCode n = some c) : n = c.code := by
  unfold IntCond.ofCode at h
  split at h <;> cases h <;> rfl

theorem FpCond.eq_code_of_ofCode (n : Nat) (c : FpCond) (h : FpCond.ofCode n = some c) : n = c.code := by
  unfold FpCond.ofCode at h
  split at h <;> cases h <;> rfl

theorem ScalarTy.eq_code_of_ofCode (n : Nat) (c : ScalarTy) (h : ScalarTy.ofCode n = some c) : n = c.code := by
  unfold ScalarTy.ofCode at h
  split at h <;> cases h <;> rfl

theorem FpTy.eq_code_of_ofCode (n : Nat) (c : FpTy) (h : FpTy.ofCode n = some c) : n = c.code := by
  unfold FpTy.ofCode at h
  split at h <;> cases h <;> rfl

theorem RMode.eq_code_of_ofCode (n : Nat) (c : RMode) (h : RMode.ofCode n = some c) : n = c.code := by
  unfold RMode.ofCode at h
  split at h <;> cases h <;> rfl

theorem SgnOp.eq_code_of_ofCode (n : Nat) (c : SgnOp) (h : SgnOp.ofCode n = some c) : n = c.code := by
  unfold SgnOp.ofCode at h
  split at h <;> cases h <;> rfl

theorem AmoOp.eq_code_of_ofCode (n : Nat) (c : AmoOp) (h : AmoOp.ofCode n = some c) : n = c.code := by
  unfold AmoOp.ofCode at h
  split at h <;> cases h <;> rfl

theorem VTy.eq_code_of_ofCode (n : Nat) (c : VTy) (h : VTy.ofCode n = some c) : n = c.code := by
  unfold VTy.ofCode at h
  split at h <;> cases h <;> rfl

@[simp] theorem IntCond.field_iff (c : IntCond) (z : BitVec 8) : z = BitVec.ofNat 8 c.code ↔ IntCond.ofCode z.toNat = some c :=
  code_field_iff IntCond.ofCode_code IntCond.eq_code_of_ofCode (fun c => by cases c <;> decide) c z

@[simp] theorem FpCond.field_iff (c : FpCond) (z : BitVec 4) : z = BitVec.ofNat 4 c.code ↔ FpCond.ofCode z.toNat = some c :=
  code_field_iff FpCond.ofCode_code FpCond.eq_code_of_ofCode (fun c => by cases c <;> decide) c z

@[simp] theorem ScalarTy.field_iff (c : ScalarTy) (z : BitVec 4) : z = BitVec.ofNat 4 c.code ↔ ScalarTy.ofCode z.toNat = some c :=
  code_field_iff ScalarTy.ofCode_code ScalarTy.eq_code_of_ofCode (fun c => by cases c <;> decide) c z

@[simp] theorem ScalarTy.field6_iff (c : ScalarTy) (z : BitVec 6) : z = BitVec.ofNat 6 c.code ↔ ScalarTy.ofCode z.toNat = some c :=
  code_field_iff ScalarTy.ofCode_code ScalarTy.eq_code_of_ofCode (fun c => by cases c <;> decide) c z

@[simp] theorem FpTy.field_iff (c : FpTy) (z : BitVec 4) : z = BitVec.ofNat 4 c.code ↔ FpTy.ofCode z.toNat = some c :=
  code_field_iff FpTy.ofCode_code FpTy.eq_code_of_ofCode (fun c => by cases c <;> decide) c z

@[simp] theorem RMode.field_iff (c : RMode) (z : BitVec 4) : z = BitVec.ofNat 4 c.code ↔ RMode.ofCode z.toNat = some c :=
  code_field_iff RMode.ofCode_code RMode.eq_code_of_ofCode (fun c => by cases c <;> decide) c z

@[simp] theorem RMode.field2_iff (c : RMode) (z : BitVec 2) : z = BitVec.ofNat 2 c.code ↔ RMode.ofCode z.toNat = some c :=
  code_field_iff RMode.ofCode_code RMode.eq_code_of_ofCode (fun c => by cases c <;> decide) c z

@[simp] theorem SgnOp.field_iff (c : SgnOp) (z : BitVec 4) : z = BitVec.ofNat 4 c.code ↔ SgnOp.ofCode z.toNat = some c :=
  code_field_iff SgnOp.ofCode_code SgnOp.eq_code_of_ofCode (fun c => by cases c <;> decide) c z

@[simp] theorem AmoOp.field_iff (c : AmoOp) (z : BitVec 3) : z = BitVec.ofNat 3 c.code ↔ AmoOp.ofCode z.toNat = some c :=
  code_field_iff AmoOp.ofCode_code AmoOp.eq_code_of_ofCode (fun c => by cases c <;> decide) c z

@[simp] theorem VTy.field_iff (c : VTy) (z : BitVec 4) : z = BitVec.ofNat 4 c.code ↔ VTy.ofCode z.toNat = some c :=
  code_field_iff VTy.ofCode_code VTy.eq_code_of_ofCode (fun c => by cases c <;> decide) c z

@[simp] theorem AmoTy.field_iff (t : AmoTy) (b : Bool) : b = t.bit ↔ AmoTy.ofBit b = t := by
  cases t <;> cases b <;> decide

@[simp] theorem AmoOrd.field_iff (ord : AmoOrd) (z : BitVec 2) : z = BitVec.ofNat 2 ord.code ↔ AmoOrd.ofCode z.toNat = ord := by
  obtain ⟨acq, rel⟩ := ord
  revert z acq rel
  decide

/-- The one bit that SEMSIG holds in its destination field. -/
@[simp] theorem bool_field_iff (z : BitVec 6) (b : Bool) : z = BitVec.ofNat 6 b.toNat ↔ z.toNat ≤ 1 ∧ (z == 1) = b := by
  revert z b
  decide

theorem opB_eq (o : BitVec 26) : o.extractLsb' 8 6 = opB o := rfl

theorem extract_eq_zero_iff {n : Nat} (z : BitVec n) (s l : Nat) : z.extractLsb' s l = 0#l ↔ z.toNat >>> s % 2 ^ l = 0 := by
  rw [← BitVec.toNat_inj, BitVec.extractLsb'_toNat, BitVec.toNat_ofNat, Nat.zero_mod]

-- What a decoder can answer (R113)

/-- Whatever a decoder answers has a property. -/
def Answers (P : Instr → Prop) (r : Except DecodeErr Instr) : Prop := ∀ i, r = .ok i → P i

section
variable {P : Instr → Prop}

@[simp] theorem answers_error (e : DecodeErr) : Answers P (.error e) := fun _ h => by cases h

@[simp] theorem answers_ok (i : Instr) : Answers P (.ok i) ↔ P i := ⟨fun h => h i rfl, fun h _ hi => by cases hi; exact h⟩

@[simp] theorem answers_onlyIf (c : Bool) (i : Instr) : Answers P (onlyIf c i) ↔ (c = true → P i) := by
  cases c <;> simp [onlyIf]

@[simp] theorem answers_withCode {α : Type} (c : Option α) (f : α → Except DecodeErr Instr) :
    Answers P (withCode c f) ↔ ∀ x, c = some x → Answers P (f x) := by
  cases c <;> simp [withCode]

end

theorem ok_eq_ok {i j : Instr} (h : i = j) : (Except.ok i : Except DecodeErr Instr) = .ok j := congrArg _ h

theorem onlyIf_eq_ok {c : Bool} {i j : Instr} (hc : c = true) (h : i = j) : onlyIf c i = .ok j := by subst hc h; rfl

theorem withCode_eq_ok {α : Type} {c : Option α} {f : α → Except DecodeErr Instr} {j : Instr} (x : α) (hc : c = some x)
    (h : f x = .ok j) : withCode c f = .ok j := by subst hc; exact h

-- KWR by register number (Table 6-6) and UOPn

/-- The upper numbers are those of window descriptors and maps (Table 15-3). -/
theorem decodeKwr_window (k : BitVec 8) (a : Reg) (h : 0x80 ≤ k.toNat) : decodeKwr k a =
    if 0xC0 ≤ k.toNat then .kwrWmap (k.extractLsb' 0 6) a else .kwrWdesc (k.extractLsb' 0 6) a := by
  have hne : ∀ c : BitVec 8, c.toNat < 0x80 → (k == c) = false := fun c hc => by
    rw [beq_eq_false_iff_ne]
    rintro rfl
    omega
  simp [decodeKwr, hne, h]

@[simp] theorem decodeKwr_wdesc (w : BitVec 6) (a : Reg) : decodeKwr (2#2 ++ w) a = .kwrWdesc w a := by
  have h : 0x80 ≤ (2#2 ++ w).toNat ∧ ¬ 0xC0 ≤ (2#2 ++ w).toNat := by revert w; decide
  rw [decodeKwr_window _ _ h.1, if_neg h.2, extract_append_low]

@[simp] theorem decodeKwr_wmap (w : BitVec 6) (a : Reg) : decodeKwr (3#2 ++ w) a = .kwrWmap w a := by
  have h : 0x80 ≤ (3#2 ++ w).toNat ∧ 0xC0 ≤ (3#2 ++ w).toNat := by revert w; decide
  rw [decodeKwr_window _ _ h.1, if_pos h.2, extract_append_low]

/-- A number with no row of its own is read as plain KWR. -/
theorem decodeKwr_kwr (k : BitVec 8) (a : Reg) (h : kwrOwnRow k = false) : decodeKwr k a = .kwr k a := by
  simp only [kwrOwnRow, Bool.or_eq_false_iff, decide_eq_false_iff_not] at h
  obtain ⟨⟨⟨⟨⟨h1, h2⟩, h3⟩, h4⟩, h5⟩, h6⟩ := h
  simp only [decodeKwr, h1, h2, h3, h4, h5, if_neg h6, if_neg (show ¬ 0xC0 ≤ k.toNat by omega), Bool.false_eq_true, if_false]

theorem decodeSys_uopn (op : Nat) (o : BitVec 26) (h : 0x1C0 ≤ op) :
    decodeSys op o = onlyIf (opFn o == 0) (.uopn (BitVec.ofNat 6 (op - 0x1C0)) (opD o) (opA o) (opB o)) := by
  unfold decodeSys
  split
  case h_62 => exact if_pos h
  all_goals omega

-- A word that is read is the word of its instruction

/-- An instruction of a slot with its opcode and operands. -/
def IsWord (sl : Slot) (op : Nat) (o : BitVec 26) (i : Instr) : Prop := i.slot = some sl ∧ i.word = (op, o)

theorem isWord_of {sl : Slot} {op : Nat} {o w : BitVec 26} {i : Instr} (hs : i.slot = some sl) (hw : i.word = (op, w)) (h : o = w) :
    IsWord sl op o i := ⟨hs, h ▸ hw⟩

/-- Every number of KWR is read as an instruction of that number. -/
theorem decodeKwr_isWord (k : BitVec 8) (a : Reg) : IsWord .s 0x0B3 (packKwr k a) (decodeKwr k a) := by
  have hmap : 0xC0 ≤ k.toNat → k = (3 : BitVec 2) ++ k.extractLsb' 0 6 := by revert k; decide
  have hdesc : ¬ 0xC0 ≤ k.toNat → 0x80 ≤ k.toNat → k = (2 : BitVec 2) ++ k.extractLsb' 0 6 := by revert k; decide
  by_cases hw : 0x80 ≤ k.toNat
  · rw [decodeKwr_window k a hw]
    split
    · next h => exact isWord_of rfl rfl (congrArg (packKwr · a) (hmap h))
    · next h => exact isWord_of rfl rfl (congrArg (packKwr · a) (hdesc h hw))
  · clear hmap hdesc
    unfold decodeKwr
    repeat' split
    all_goals refine isWord_of rfl rfl (congrArg (packKwr · a) ?_); simp_all
    all_goals omega

theorem decodeAlu_isWord (op : Nat) (o : BitVec 26) : Answers (IsWord .s op o) (decodeAlu op o) := by
  unfold decodeAlu
  split <;> simp
  all_goals intros; refine isWord_of rfl rfl ?_
  all_goals simp [eq_append_iff (2 + 2) 16, eq_append_iff 2 2, extract_extract, extract_eq_zero_iff, *]

theorem decodeSys_isWord (op : Nat) (o : BitVec 26) (hop : op < 512) : Answers (IsWord .s op o) (decodeSys op o) := by
  by_cases huopn : 0x1C0 ≤ op
  · rw [decodeSys_uopn op o huopn, answers_onlyIf]
    intro hfn
    have hn : 0x1C0 + (BitVec.ofNat 6 (op - 0x1C0)).toNat = op := by simp; omega
    exact ⟨rfl, Prod.ext hn ((eq_packR_iff _ _ _ _ _).mpr ⟨rfl, rfl, rfl, by simpa using hfn⟩).symm⟩
  unfold decodeSys
  split <;> simp [opB_eq, huopn]
  case h_54 =>
    intro hd hb
    have ho : o = packKwr (opFn o) (opA o) := (eq_packKwr_iff _ _ _).mpr ⟨hd, rfl, hb, rfl⟩
    have h := decodeKwr_isWord (opFn o) (opA o)
    rwa [← ho] at h
  all_goals clear hop huopn; intros; refine isWord_of rfl rfl ?_
  all_goals simp [eq_append_iff 2 6, eq_append_iff 7 1, eq_append_iff (7 + 1) 6, eq_append_iff 1 3, extract_extract, *]

theorem decodeM_isWord (op : Nat) (o : BitVec 26) : Answers (IsWord .m op o) (decodeM op o) := by
  unfold decodeM
  split <;> simp
  all_goals intros; refine isWord_of rfl rfl ?_; simp [*]

theorem decodeV_isWord (op : Nat) (o : BitVec 26) : Answers (IsWord .v op o) (decodeV op o) := by
  unfold decodeV decodeVr
  split <;> simp
  all_goals intros; refine isWord_of rfl rfl ?_
  all_goals simp [eq_append_iff 4 4, eq_append_iff 2 4, eq_append_iff 1 3,
    extract_append_low (m := 1) (n := 2), extract_append_high (m := 1) (n := 2), extract_extract, *]

theorem decodeD_isWord (op : Nat) (o : BitVec 26) : Answers (IsWord .d op o) (decodeD op o) := by
  unfold decodeD
  split <;> simp
  all_goals intros; refine isWord_of rfl rfl ?_; simp [*]

/-- What a slot reads in a word is an instruction of the slot, and that word is its own. -/
theorem decodeRaw_isWord (sl : Slot) (op : Nat) (o : BitVec 26) (hop : op < 512) : Answers (IsWord sl op o) (decodeRaw sl op o) := by
  cases sl
  case s =>
    show Answers _ (if op < 0x060 then _ else _)
    split
    · exact decodeAlu_isWord op o
    · exact decodeSys_isWord op o hop
  case m => exact decodeM_isWord op o
  case v => exact decodeV_isWord op o
  case d => exact decodeD_isWord op o

-- Every instruction is read from its own word

theorem decodeRaw_of_word {sl : Slot} {i : Instr} {op : Nat} {w : BitVec 26} (hw : i.word = (op, w))
    (h : ∀ o, o = w → decodeRaw sl op o = .ok i) : decodeRaw sl i.word.1 i.word.2 = .ok i := by rw [hw]; exact h w rfl

theorem decodeRaw_uopn (n : BitVec 6) (d a b : Reg) : decodeRaw .s (0x1C0 + n.toNat) (packR d a b 0) = .ok (.uopn n d a b) := by
  show (if 0x1C0 + n.toNat < 0x060 then _ else decodeSys (0x1C0 + n.toNat) (packR d a b 0)) = _
  rw [if_neg (by omega), decodeSys_uopn _ _ (by omega)]
  exact onlyIf_eq_ok (by simp) (by simp)

/-- An instruction of a slot is read whole from its opcode and operands, legal or not; a KWR of a number that has a row of its own is
read as that row. The cases follow what a cell holds: whole fields, zeros, the code of one name or of more. -/
theorem decodeRaw_word (sl : Slot) (i : Instr) (hs : i.slot = some sl) (hk : ∀ k a, i = .kwr k a → kwrOwnRow k = false) :
    decodeRaw sl i.word.1 i.word.2 = .ok i := by
  cases i <;> cases hs
  case uopn n d a b => exact decodeRaw_uopn n d a b
  all_goals refine decodeRaw_of_word rfl fun o h => ?_
  case nop | mnop | vnop | dnop | align | halt | eret => subst h; rfl
  case br | call => exact ok_eq_ok (by rw [h])
  case addi | andi | ori | xori | movi | ldp | stp | spill | idle | semtst | semwtt | fwtt | fbar | caprd | srng
      | mgo | mma | mzero | mwb | mscl | mpop | mvwin | vchain | dcopy | dgather | dscatter | dfill | dput | dget | dputadd | damo
      | dtab | dfence =>
    simp [eq_append_iff 7 1] at h
    exact ok_eq_ok (by simp [h])
  case ld w _ _ _ | ldz w _ _ _ | st w _ _ _ =>
    simp at h
    cases w <;> exact ok_eq_ok (by simp [h])
  case cmpi c _ _ _ =>
    simp at h
    cases c <;> exact ok_eq_ok (by simp [h])
  case kwr k a =>
    simp at h
    exact onlyIf_eq_ok (by simp [h, opB_eq]) (by simp [h, decodeKwr_kwr k a (hk k a rfl)])
  case kwrWdesc | kwrWmap =>
    simp at h
    exact onlyIf_eq_ok (by simp [h, opB_eq]) (by simp [h])
  case kwrTimer | kwrPoolscope | kwrLosssel | kwrLossval | kwrTrcemit =>
    simp at h
    exact onlyIf_eq_ok (by simp [h, opB_eq]) (by simp [h]; rfl)
  case cmp c _ _ _ =>
    simp at h
    exact withCode_eq_ok c (by simp [h]) (ok_eq_ok (by simp [h]))
  case vadd v | vsub v | vmul v | vfma v | vmin v | vmax v | vabs v | vneg v | vshl v | vshr v | vsar v | vcmp v | vsel v | vrsqa v
      | vrcpa v | vtint v | vredadd v | vredmax v | vperm v =>
    simp at h
    exact withCode_eq_ok v.ty (by simp [h]) (ok_eq_ok (by simp [h]))
  case vmovs t _ _ _ _ =>
    simp [eq_append_iff 4 4] at h
    exact withCode_eq_ok t (by simp [h]) (ok_eq_ok (by simp [h]))
  case vbcast t _ _ | fmin t _ _ _ | fmax t _ _ _ | frsqa t _ _ | frcpa t _ _ | fclass t _ _ =>
    simp at h
    exact withCode_eq_ok t (by simp [h]) (onlyIf_eq_ok (by simp [h]) (by simp [h]))
  case amo op _ _ _ _ _ =>
    simp [eq_append_iff 1 3, extract_extract] at h
    exact withCode_eq_ok op (by simp [h]) (onlyIf_eq_ok (by simp [h]) (by simp [h]))
  case fadd t md _ _ _ | fsub t md _ _ _ | fmul t md _ _ _ | ffma t md _ _ _ | famoadd t md _ _ _ _ =>
    simp at h
    exact withCode_eq_ok t (by simp [h]) (withCode_eq_ok md (by simp [h]) (ok_eq_ok (by simp [h])))
  case fcmp c t _ _ _ | fsgn c t _ _ _ =>
    simp at h
    exact withCode_eq_ok t (by simp [h]) (withCode_eq_ok c (by simp [h]) (ok_eq_ok (by simp [h])))
  case vcvt td ts _ _ _ _ =>
    simp [eq_append_iff 2 4, eq_append_iff (1 + 3) 4, eq_append_iff 1 3, extract_extract] at h
    exact withCode_eq_ok td (by simp [h]) (withCode_eq_ok ts (by simp [h])
      (ok_eq_ok (by simp [h]; exact extract_append_extract_self 1 2 _)))
  case fcvt td ts md _ _ =>
    simp at h
    exact withCode_eq_ok td (by simp [h]) (withCode_eq_ok ts (by simp [h]) (withCode_eq_ok md (by simp [h])
      (ok_eq_ok (by simp [h]))))
  all_goals simp [eq_append_iff 2 6, eq_append_iff (7 + 1) 6, eq_append_iff 7 1, eq_append_iff 1 3, eq_append_iff (2 + 2) 16,
    eq_append_iff 2 2, extract_extract] at h
  all_goals exact onlyIf_eq_ok (by simp [h, opB_eq]) (by simp [h])

theorem word_opcode_lt (i : Instr) : i.word.1 < 512 := by
  cases i
  case cmpi c _ _ _ => cases c <;> exact Nat.le_of_ble_eq_true rfl
  case ld w _ _ _ | ldz w _ _ _ | st w _ _ _ => cases w <;> exact Nat.le_of_ble_eq_true rfl
  case uopn n d a b =>
    show 0x1C0 + n.toNat < 512
    omega
  all_goals exact Nat.le_of_ble_eq_true rfl

end Sys2Proof

namespace Sys2Proof.Machine

-- Syllables (Table 5-2)

/-- What a slot reads as a syllable: a legal guard and a legal instruction, each from its own fields (R113). -/
theorem decodeSyllable_eq_ok_iff (sl : Slot) (w : Syl) (y : Syllable) :
    decodeSyllable sl w = .ok y ↔
      decodeRaw sl (w.extractLsb' 39 9).toNat (w.extractLsb' 0 26) = .ok y.instr ∧ guardOf w = y.guard ∧
        y.guard.wf = true ∧ y.instr.wf = true := by
  obtain ⟨g, i⟩ := y
  unfold decodeSyllable
  cases decodeRaw sl (w.extractLsb' 39 9).toNat (w.extractLsb' 0 26) with
  | error e => simp
  | ok j =>
    by_cases hg : (guardOf w).wf = true <;> by_cases hj : j.wf = true
    · simp only [hg, hj, Bool.not_true, Bool.false_eq_true, if_false, Except.ok.injEq, Syllable.mk.injEq]
      grind
    all_goals simp [hg, hj]; grind

/-- A syllable word is made of its opcode, its guard and its operands. -/
theorem sylWord_fields (w : Syl) : sylWord (w.extractLsb' 39 9) (guardOf w) (w.extractLsb' 0 26) = w := by
  refine ((eq_append_iff (9 + 6 + 6 + 1) 26 _ _ w).mpr ⟨?_, rfl⟩).symm
  refine (eq_append_iff (9 + 6 + 6) 1 _ _ _).mpr ⟨?_, by simp [guardOf, extract_extract]⟩
  refine (eq_append_iff (9 + 6) 6 _ _ _).mpr ⟨?_, by simp [guardOf, extract_extract]⟩
  exact (eq_append_iff 9 6 _ _ _).mpr ⟨by simp [extract_extract], by simp [guardOf, extract_extract]⟩

/-- The word of a syllable, by the opcode and the operands of its instruction. -/
theorem encode_eq_sylWord (y : Syllable) : encode y = sylWord (BitVec.ofNat 9 y.instr.word.1) y.guard y.instr.word.2 := rfl

theorem decodeSyllable_encode {sl : Slot} {y : Syllable} (hy : y.wf sl = true) : decodeSyllable sl (encode y) = .ok y := by
  simp only [Syllable.wf, Bool.and_eq_true, beq_iff_eq] at hy
  obtain ⟨⟨hg, hi⟩, hs⟩ := hy
  have hk : ∀ k a, y.instr = .kwr k a → kwrOwnRow k = false := fun k a h => by
    rw [h] at hi
    exact Bool.not_eq_true' _ ▸ hi
  rw [encode_eq_sylWord, decodeSyllable_eq_ok_iff]
  simp only [sylWord_opcode, sylWord_operands, sylWord_guard, BitVec.toNat_ofNat, Nat.mod_eq_of_lt (word_opcode_lt y.instr)]
  exact ⟨decodeRaw_word sl y.instr hs hk, trivial, hg, hi⟩

theorem encode_of_decodeSyllable {sl : Slot} {w : Syl} {y : Syllable} (h : decodeSyllable sl w = .ok y) :
    encode y = w ∧ y.wf sl = true := by
  obtain ⟨hraw, hg, hgwf, hi⟩ := (decodeSyllable_eq_ok_iff sl w y).mp h
  obtain ⟨hs, hword⟩ := decodeRaw_isWord sl _ _ (w.extractLsb' 39 9).isLt _ hraw
  constructor
  · rw [encode_eq_sylWord, hword, ← hg, BitVec.ofNat_toNat, BitVec.setWidth_eq, sylWord_fields]
  · simp [Syllable.wf, hgwf, hi, hs]

-- What a slot reads in a word

/-- A slot reads an instruction of its own in that instruction's word. -/
theorem reads_of_word {sl : Slot} {op : BitVec 9} {o w : BitVec 26} {i : Instr} (hs : i.slot = some sl) (hi : i.wf = true)
    (hw : i.word = (op.toNat, w)) (h : o = w) : Reads sl op o i := fun g hg => by
  subst h
  have hop : BitVec.ofNat 9 i.word.1 = op := by rw [hw]; exact BitVec.ofNat_toNat ..
  have henc : encode { guard := g, instr := i } = sylWord op g o := by rw [encode_eq_sylWord, hop, hw]
  exact henc ▸ decodeSyllable_encode (by simp [Syllable.wf, hg, hi, hs])

/-- A legal instruction, in the word that is its own as written. -/
theorem reads_own {sl : Slot} {op : BitVec 9} {o : BitVec 26} {i : Instr} (hs : i.slot = some sl := by rfl)
    (hi : i.wf = true := by rfl) (hw : i.word = (op.toNat, o) := by rfl) : Reads sl op o i := reads_of_word hs hi hw rfl

/-- A slot reads no word whose cell answers nothing that is legal. -/
theorem readsNot_of_cell {sl : Slot} {op : BitVec 9} {o : BitVec 26} {r : Except DecodeErr Instr}
    (h : Answers (fun i => i.wf = false) r) (hr : decodeRaw sl op.toNat o = r := by rfl) : ReadsNot sl op o := fun g y hy => by
  obtain ⟨hraw, -, -, hi⟩ := (decodeSyllable_eq_ok_iff sl _ y).mp hy
  rw [sylWord_opcode, sylWord_operands, hr] at hraw
  exact absurd hi (by simp [h _ hraw])

/-- The word of an instruction that is illegal as written is not read. -/
theorem readsNot_of_word {sl : Slot} {op : BitVec 9} {o w : BitVec 26} {i : Instr} (hs : i.slot = some sl) (hi : i.wf = false)
    (hw : i.word = (op.toNat, w)) (h : o = w) (hk : ∀ k a, i ≠ .kwr k a := by rintro _ _ ⟨⟩) : ReadsNot sl op o := by
  subst h
  have hraw := decodeRaw_word sl i hs fun k a he => absurd he (hk k a)
  rw [hw] at hraw
  exact readsNot_of_cell ((answers_ok i).mpr hi) hraw

/-- A cell that holds one instruction: it reads the words whose operands are legal, and no other. -/
theorem cell_of_word {sl : Slot} {op : BitVec 9} {o w : BitVec 26} {i : Instr} {ok : Prop} (hs : i.slot = some sl)
    (hw : i.word = (op.toNat, w)) (h : o = w) (hi : i.wf = true ↔ ok) (hk : ∀ k a, i ≠ .kwr k a := by rintro _ _ ⟨⟩) :
    (ok → Reads sl op o i) ∧ (¬ ok → ReadsNot sl op o) :=
  ⟨fun h' => reads_of_word hs (hi.mpr h') hw h,
    fun h' => readsNot_of_word hs (Bool.eq_false_iff.mpr fun h'' => h' (hi.mp h'')) hw h hk⟩

/-- A cell that holds one instruction and asks for zeros. -/
theorem cell_of_onlyIf {sl : Slot} {op : BitVec 9} {o : BitVec 26} {c : Bool} {i j : Instr} {ok : Prop}
    (h : decodeRaw sl op.toNat o = onlyIf c j) (hj : j = i) (hc : c = true ∧ i.wf = true ↔ ok) :
    (ok → Reads sl op o i) ∧ (¬ ok → ReadsNot sl op o) := by
  subst hj
  refine ⟨fun hok => ?_, fun hok => readsNot_of_cell ((answers_onlyIf c j).mpr fun hct => ?_) h⟩
  · obtain ⟨hct, hi⟩ := hc.mpr hok
    exact reads_of_raw sl op o j (h.trans (onlyIf_eq_ok hct rfl)) hi
  · exact Bool.eq_false_iff.mpr fun hi => hok (hc.mp ⟨hct, hi⟩)

@[simp] theorem rrr_eq_packR (d a b : BitVec 6) (fn : BitVec 8) : rrr d a b fn = packR d a b fn := rfl

@[simp] theorem ri_eq_packI (d a : BitVec 6) (imm : BitVec 14) : ri d a imm = packI d a imm := rfl

/-- Settles O1: a word that is read is the word of its instruction, and an instruction is read from its own word. -/
theorem decodeAndEncodeAgree : Obligations.DecodeAndEncodeAgree := by
  unfold Obligations.DecodeAndEncodeAgree
  exact ⟨fun _ _ hy => decodeSyllable_encode hy, fun _ _ _ h => encode_of_decodeSyllable h⟩

end Sys2Proof.Machine

namespace Sys2Proof.Machine

-- NOPs and guards (R102, R112)

/-- Opcode 0 of every slot holds its NOP, which asks for zeros (R112). -/
theorem readsNot_nop_of_ne_zero (sl : Slot) {o : BitVec 26} (ho : o ≠ 0) : ReadsNot sl 0 o := by
  cases sl <;> exact readsNot_of_cell (r := onlyIf (o == 0) _) ((answers_onlyIf _ _).mpr fun h => absurd (beq_iff_eq.mp h) ho)

/-- No slot reads a syllable under a guard that is illegal (R102). -/
theorem decodeSyllable_illegal_guard (sl : Slot) (op : BitVec 9) (o : BitVec 26) {g : Guard} (hg : g.wf = false) :
    (decodeSyllable sl (sylWord op g o)).toOption = none := by
  cases h : decodeSyllable sl (sylWord op g o) with
  | error e => rfl
  | ok y =>
    obtain ⟨-, hy, hwf, -⟩ := (decodeSyllable_eq_ok_iff sl _ y).mp h
    rw [← hy, sylWord_guard, hg] at hwf
    cases hwf

theorem guard_wf_iff (g : Guard) : g.wf = true ↔ g.reg ≠ 0 ∨ g.bit = 0 ∧ g.neg = false := by simp [Guard.wf]

theorem State.guardHolds_iff (s : State) (g : Guard) :
    s.guardHolds g = true ↔ g.reg = 0 ∨ ((s.rd g.reg).toNat.testBit g.bit.toNat ^^ g.neg) = true := by
  rw [State.guardHolds, Bool.or_eq_true, beq_iff_eq, Bool.bne_eq_xor]
  rfl

/-- Settles O4: the cells of opcode 0, and the rules of guards. -/
theorem nopsAndGuards : Obligations.NopsAndGuards := by
  unfold Obligations.NopsAndGuards
  refine ⟨⟨reads_own, reads_own, reads_own,
      reads_own, fun sl _ => readsNot_nop_of_ne_zero sl, fun sl o g => decodeSyllable_illegal_guard sl 0 o,
      fun sl => ?_, fun s => ⟨rfl, rfl, rfl, rfl⟩⟩, guard_wf_iff, fun sl op o g => decodeSyllable_illegal_guard sl op o,
    fun s g _ => s.guardHolds_iff g⟩
  cases sl <;> rfl

end Sys2Proof.Machine

namespace Sys2Proof.Machine

-- The bundle that a tile presents (R98, R115, R133)

theorem State.step_present {s : State} {c : Ctx} {rest : List Job} (h : s.agenda = .present c :: rest)
    (hclk : State.pad { s with agenda := rest, cur := c } |>.clockOn)
    (hdead : (State.tile { s with agenda := rest, cur := c }).core.dead = false) :
    step s = State.present exec { s with agenda := rest, cur := c } := by
  simp only [step, h, runJob]
  exact if_pos (by simp only [hdead, hclk, Bool.not_false, Bool.true_or, Bool.and_self])

/-- A tile with no hold, awake and in no trap entry is due its bundle. -/
theorem State.passHold_due {s : State} (hhold : s.tile.core.hold = .none) (hhalt : s.tile.core.halted = false)
    (hent : s.tile.core.entering = false) : s.passHold = .bundle s := by simp [State.passHold, hhold, hhalt, hent]

theorem State.passHold_settled {s : State} (held waiting : List FaultInfo) (hhold : s.tile.core.hold = .none)
    (hhalt : s.tile.core.halted = false) (hent : s.tile.core.entering = false) :
    (s.settled held waiting).passHold = .bundle (s.settled held waiting) := by
  apply State.passHold_due <;> simp [State.settled, hhold, hhalt, hent]

/-- With nothing to raise and nothing to hold it, a tile issues the bundle it has read. -/
theorem State.present_go {s p : State} {bs : BundleBits} (ex : Instr → State → Out) (hf : s.tile.core.faulted = false)
    (hnow : s.raised.now = []) (htimer : s.timerDue = false)
    (hdue : (s.settled s.raised.held s.raised.waiting).passHold = .bundle p) (hplan : p.plan = .go bs) :
    s.present ex = p.fetch.1.issueBundle ex bs := by
  simp [State.present, hf, hnow, htimer, hdue, hplan]

/-- A fetch may flag words of the instruction store, and changes nothing else of the tile. -/
theorem State.fetch_tile (s : State) : ∃ is, s.fetch.1.tile = { s.tile with st := { s.tile.st with istore := is } } :=
  ⟨_, State.modTile_tile ..⟩

theorem State.fetch_rd (s : State) (r : Reg) : s.fetch.1.rd r = s.rd r := by
  obtain ⟨is, h⟩ := s.fetch_tile
  simp [State.rd, h]

theorem State.fetch_guardHolds (s : State) (g : Guard) : s.fetch.1.guardHolds g = s.guardHolds g := by
  simp [State.guardHolds, s.fetch_rd]

theorem State.fetch_resolve (s : State) (i : Instr) : s.fetch.1.resolve i = s.resolve i := by
  cases i
  case kwr k a => simp [State.resolve, s.fetch_rd]
  all_goals rfl

theorem State.fetch_ctxOk (s : State) (bs : BundleBits) (i : Instr) : s.fetch.1.ctxOk bs i = s.ctxOk bs i := by
  obtain ⟨is, h⟩ := s.fetch_tile
  cases i
  case uopn | mwb => simp [State.ctxOk, State.mwbIllegal, h]
  all_goals rfl

theorem State.fetch_syllable (s : State) (bs : BundleBits) (sl : Slot) : s.fetch.1.syllable bs sl = s.syllable bs sl := by
  simp [State.syllable, s.fetch_ctxOk]

theorem State.fetch_executing (s : State) (bs : BundleBits) (sl : Slot) : s.fetch.1.executing bs sl = s.executing bs sl := by
  simp [State.executing, s.fetch_syllable, s.fetch_guardHolds, s.fetch_resolve]

-- The syllable of a slot

theorem State.syllable_of_decode {s : State} {bs : BundleBits} {sl : Slot} {y : Syllable}
    (hd : decodeSyllable sl (bundleSyl bs sl) = .ok y) (hctx : s.ctxOk bs y.instr = true) : s.syllable bs sl = some y := by
  simp [State.syllable, hd, hctx]

theorem State.executing_of_syllable {s : State} {bs : BundleBits} {sl : Slot} {y : Syllable} (h : s.syllable bs sl = some y)
    (hg : s.guardHolds y.guard = true) (hn : y.instr.isNop = false) : s.executing bs sl = some (s.resolve y.instr) := by
  simp [State.executing, h, hg, hn]

/-- The NOP of a slot. -/
def nopOf : Slot → Instr
  | .s => .nop
  | .m => .mnop
  | .v => .vnop
  | .d => .dnop

theorem decodeSyllable_zero (sl : Slot) : decodeSyllable sl 0 = .ok { guard := Guard.none, instr := nopOf sl } := by cases sl <;> rfl

theorem isNop_nopOf (sl : Slot) : (nopOf sl).isNop = true := by cases sl <;> rfl

/-- An empty slot holds the NOP, which does not execute. -/
theorem State.syllable_of_zero (s : State) {bs : BundleBits} {sl : Slot} (h : bundleSyl bs sl = 0) :
    s.syllable bs sl = some { guard := Guard.none, instr := nopOf sl } :=
  State.syllable_of_decode (h ▸ decodeSyllable_zero sl) (by cases sl <;> rfl)

theorem State.executing_of_zero (s : State) {bs : BundleBits} {sl : Slot} (h : bundleSyl bs sl = 0) : s.executing bs sl = none := by
  simp [State.executing, s.syllable_of_zero h, isNop_nopOf]

theorem State.slotVerdict_of_zero (s : State) {bs : BundleBits} {sl : Slot} (h : bundleSyl bs sl = 0) : s.slotVerdict bs sl = .ok := by
  simp [State.slotVerdict, s.executing_of_zero h]

-- A bundle of one S syllable

section
variable {p : State} {bs : BundleBits} {y : Syllable} (hd : decodeSyllable .s (bundleSyl bs .s) = .ok y)
  (hm : bundleSyl bs .m = 0) (hv : bundleSyl bs .v = 0) (hdd : bundleSyl bs .d = 0) (hctx : p.ctxOk bs y.instr = true)
  (hg : p.guardHolds y.guard = true) (hn : y.instr.isNop = false)
include hd hm hv hdd hctx hg hn

theorem State.runList_scalar : p.runList bs = [p.resolve y.instr] := by
  simp [State.runList, p.executing_of_zero hm, p.executing_of_zero hv, p.executing_of_zero hdd,
    State.executing_of_syllable (State.syllable_of_decode hd hctx) hg hn]

theorem State.planBits_scalar (hok : p.scalarVerdict (p.resolve y.instr) = .ok) : p.planBits bs = .go bs := by
  have hill : p.illegalSlot bs = none := by
    simp [State.illegalSlot, slotOrder, State.syllable_of_decode hd hctx, p.syllable_of_zero hm, p.syllable_of_zero hv,
      p.syllable_of_zero hdd]
  have hs : p.slotVerdict bs .s = .ok := by
    simp [State.slotVerdict, State.executing_of_syllable (State.syllable_of_decode hd hctx) hg hn, hok]
  simp [State.planBits, hill, slotOrder, hs, p.slotVerdict_of_zero hm, p.slotVerdict_of_zero hv, p.slotVerdict_of_zero hdd,
    Verdict.all]

end

theorem State.plan_of_bits {p : State} {bs : BundleBits} (hpc : p.tile.core.pc.toNat ≤ 5460) (hf : p.fetch.2 = .ok bs) :
    p.plan = p.planBits bs := by simp [State.plan, hf, Nat.not_lt.mpr hpc]

/-- Settles O5: the tile is due its bundle, its plan is to issue it, and an S syllable alone is all it runs. -/
theorem stepRunsDecodedBundle : Obligations.StepRunsDecodedBundle := by
  unfold Obligations.StepRunsDecodedBundle
  intro s c rest h s1 hclk hdead hf hnow htimer hhold hhalt hent p
  have hgo : ∀ bs, p.plan = .go bs → step s = p.fetch.1.issueBundle exec bs := fun bs hplan =>
    (State.step_present h hclk hdead).trans
      (State.present_go exec hf hnow htimer (State.passHold_settled _ _ hhold hhalt hent) hplan)
  refine ⟨hgo, fun bs y hpc hfetch hd hm hv hdd hctx hg hn hok => ?_⟩
  have hplan : p.plan = .go bs := (State.plan_of_bits hpc hfetch).trans (State.planBits_scalar hd hm hv hdd hctx hg hn hok)
  have hrun : p.fetch.1.runList bs = [p.resolve y.instr] := by
    rw [← State.runList_scalar hd hm hv hdd hctx hg hn]
    simp [State.runList, p.fetch_executing]
  rw [hgo bs hplan, State.issueBundle, hrun]
  rfl

end Sys2Proof.Machine

namespace Sys2Proof.Machine

-- What an engine syllable copies as it is pushed (R107, R108, R110, R111)

/-- What an entry holds beside its instruction, its serial and its start. -/
structure Copies where
  rep : Nat := 0
  step : Int := 0
  ws : List W64 := []
  its : List (List W64) := []
  x : W64 := 0
  y : W64 := 0

/-- The repetitions and the step of an EN syllable. -/
def Copies.ofEn (e : En) : Copies := { rep := e.rep.toNat, step := e.step.toInt }

/-- An iterator record. -/
def State.iterator (s : State) (n : Nat) : List W64 := Regs.words s.tile.dr.ti (8 * n) 8

/-- The three iterator records that a first word names. -/
def State.iteratorsOf (s : State) (w0 : W64) : List (List W64) :=
  [s.iterator (bits w0 4 0), s.iterator (bits w0 12 8), s.iterator (bits w0 20 16)]

/-- The words of a matrix table. -/
def State.tableWords (s : State) (e : En) : List W64 := Regs.words s.tile.mx.mn (24 * (e.idx.toNat % 4)) 24

def State.tableCopies (s : State) (e : En) : Copies :=
  { Copies.ofEn e with ws := s.tableWords e ++ [s.formatOf (mWord (s.tableWords e) 2)] }

def State.iteratorCopies (s : State) (e : En) : Copies := { Copies.ofEn e with its := [s.iterator (e.idx.toNat % 32)] }

/-- A descriptor, with the iterator records that its first word names. -/
def State.descriptorCopies (s : State) (e : En) (ws : List W64) : Copies :=
  { Copies.ofEn e with ws := ws, its := s.iteratorsOf (ws.getD 0 0) }

def State.chainWords (s : State) (e : En) : List W64 := Regs.words s.tile.vec.ch (16 * (e.idx.toNat % 16)) 16

def State.droverWords (s : State) (e : En) : List W64 := Regs.words s.tile.dr.dd (8 * (e.idx.toNat % 32)) 8

/-- What the entry of an engine syllable copies. -/
def State.copies (s : State) : Instr → Copies
  | .mgo e | .mma e | .mzero e | .mwb e => s.tableCopies e
  | .mscl e => s.iteratorCopies e
  | .mpop e | .mvwin e => .ofEn e
  | .vchain e => s.descriptorCopies e (s.chainWords e)
  | .dcopy e | .dgather e | .dscatter e | .dfill e | .dput e | .dget e | .dputadd e | .damo e | .dtab e | .dfence e =>
    s.descriptorCopies e (s.droverWords e)
  | .vld _ a _ | .vst _ a _ | .vbcast _ _ a | .vmovs _ _ a _ _ => { x := s.rd a }
  | .vrng _ a b => { x := s.rd a, y := s.rd b }
  | _ => {}

/-- The tick of a first run: none for ANY (R108). -/
def startTick (now dly : Nat) : Option Nat := if dly = 63 then none else some (now + 1 + dly)

/-- The entry of an engine syllable. -/
def State.pushed (s : State) (sl : Slot) (i : Instr) : Entry :=
  let c := s.copies i
  { instr := i, serial := (s.tile.queue sl).serial, start := startTick s.pad.rtick (instrDelay i), pushed := s.pad.rtick,
    rep := c.rep, step := c.step, j := 0, due := (startTick s.pad.rtick (instrDelay i)).getD (s.pad.rtick + 1), ready := none,
    ws := c.ws, its := c.its, x := c.x, y := c.y }

/-- The push of an engine syllable. -/
def State.push (s : State) (sl : Slot) (i : Instr) : State :=
  s.modQueue sl fun q => q.push i s.pad.rtick (startTick s.pad.rtick (instrDelay i)) (s.copies i).rep (s.copies i).step
    (s.copies i).ws (s.copies i).its (s.copies i).x (s.copies i).y

theorem State.push_eq (s : State) (sl : Slot) (i : Instr) :
    s.push sl i = s.modTile fun t => t.setQueue sl
      { s.tile.queue sl with entries := (s.tile.queue sl).entries ++ [s.pushed sl i], serial := (s.tile.queue sl).serial + 1 } := rfl

theorem State.pushEn_eq (s : State) (sl : Slot) {i : Instr} {e : En} {ws : List W64} {its : List (List W64)}
    (hd : instrDelay i = e.dly.toNat) (hc : s.copies i = { Copies.ofEn e with ws := ws, its := its }) :
    s.pushEn sl i e ws its = s.push sl i := by
  have h63 : (e.dly = 63) = (e.dly.toNat = 63) := by rw [← BitVec.toNat_inj]; rfl
  simp only [State.pushEn, State.push, startTick, hd, hc, h63]
  rfl

/-- The one shape of every engine syllable: what its queue says, then its push. -/
theorem exec_engine {s : State} {sl : Slot} {i : Instr} (hs : i.slot = some sl) (hsl : sl ≠ .s) (hn : i.isNop = false)
    (hm : ∀ e, i = .mwb e → s.mwbIllegal e = false) : exec i s = s.issue (s.pushCheck sl i (instrDelay i)) (s.push sl i) := by
  cases i <;> cases hs
  case mnop | vnop | dnop => cases hn
  case mwb e =>
    show (if s.mwbIllegal e then _ else s.pushTable (.mwb e) e) = _
    rw [hm e rfl]
    exact congrArg (s.issue _) (s.pushEn_eq .m rfl rfl)
  case mgo | mma | mzero | mscl | mpop | mvwin => exact congrArg (s.issue _) (s.pushEn_eq .m rfl rfl)
  case vchain => exact congrArg (s.issue _) (s.pushEn_eq .v rfl rfl)
  case dcopy | dgather | dscatter | dfill | dput | dget | dputadd | damo | dtab | dfence =>
    exact congrArg (s.issue _) (s.pushEn_eq .d rfl rfl)
  case vld | vst | vadd | vsub | vmul | vfma | vmin | vmax | vabs | vneg | vand | vor | vxor | vshl | vshr | vsar | vcvt | vcmp | vsel
      | vrsqa | vrcpa | vexp2a | vlog2a | vtint | vrng | vredadd | vredmax | vbcast | vperm | vmovs => rfl
  all_goals exact absurd rfl hsl

-- The checks of a push (R108, R141, R432)

section
variable {s : State} {sl : Slot} (i : Instr) (dly : Nat)

theorem State.pushCheck_service (h : s.tile.core.svc = true) : s.pushCheck sl i dly = .fault (illegal sl i) := by
  simp [State.pushCheck, h]

theorem State.pushCheck_full (h : s.tile.core.svc = false) (hq : 16 ≤ (s.tile.queue sl).entries.length) :
    s.pushCheck sl i dly = if s.strict then .fault (timingFault sl 0x01 0 s.pad.rtick) else .stall := by
  simp [State.pushCheck, h, hq]

theorem State.pushCheck_any (h : s.tile.core.svc = false) (hq : ¬ 16 ≤ (s.tile.queue sl).entries.length) (hs : s.strict = true)
    (hd : dly = 63) : s.pushCheck sl i dly = .fault (timingFault sl 0x02 0 s.pad.rtick) := by
  simp [State.pushCheck, h, hq, hs, hd]

end

theorem State.mwbIllegal_iff (s : State) (e : En) : s.mwbIllegal e = true ↔
    bits (Regs.rd s.tile.mx.mn (24 * (e.idx.toNat % 4) + 3)) 59 57 = 4 ∧
      bits (Regs.rd s.tile.mx.mn (24 * (e.idx.toNat % 4) + 3)) 63 60 ∉ [0, 1, 4, 5] := by
  simp [State.mwbIllegal, not_or, and_assoc]

theorem exec_mwb_illegal {s : State} {e : En} (h : s.mwbIllegal e = true) :
    exec (.mwb e) s = .next (s.takeFault (illegal .m (.mwb e))) := if_pos h

-- The words of a copy

theorem Regs.getD_words (m : Regs) (base : Nat) {n k : Nat} (h : k < n) : (Regs.words m base n).getD k 0 = Regs.rd m (base + k) := by
  simp [Regs.words, h]

theorem State.getD_tableCopies (s : State) (e : En) {k : Nat} (h : k < 24) :
    (s.tableCopies e).ws.getD k 0 = Regs.rd s.tile.mx.mn (24 * (e.idx.toNat % 4) + k) := by
  have hlen : k < (s.tableWords e).length := by simpa [State.tableWords, Regs.words] using h
  rw [State.tableCopies, List.getD_append _ _ _ _ hlen]
  exact Regs.getD_words _ _ h

theorem State.getD_iteratorsOf (s : State) (w0 : W64) {k : Nat} (h : k < 8) :
    ((s.iteratorsOf w0).getD 0 []).getD k 0 = Regs.rd s.tile.dr.ti (8 * bits w0 4 0 + k) ∧
    ((s.iteratorsOf w0).getD 1 []).getD k 0 = Regs.rd s.tile.dr.ti (8 * bits w0 12 8 + k) ∧
    ((s.iteratorsOf w0).getD 2 []).getD k 0 = Regs.rd s.tile.dr.ti (8 * bits w0 20 16 + k) :=
  ⟨Regs.getD_words _ _ h, Regs.getD_words _ _ h, Regs.getD_words _ _ h⟩

theorem State.copies_table {i : Instr} {e : En} (s : State) (h : i ∈ [Instr.mgo e, .mma e, .mzero e, .mwb e]) :
    s.copies i = s.tableCopies e := by
  simp at h
  rcases h with rfl | rfl | rfl | rfl <;> rfl

theorem State.copies_en {i : Instr} {e : En} (s : State) (h : i ∈ [Instr.mpop e, .mvwin e]) : s.copies i = Copies.ofEn e := by
  simp at h
  rcases h with rfl | rfl <;> rfl

theorem State.copies_drover {i : Instr} {e : En} (s : State)
    (h : i ∈ [Instr.dcopy e, .dgather e, .dscatter e, .dfill e, .dput e, .dget e, .dputadd e, .damo e, .dtab e, .dfence e]) :
    s.copies i = s.descriptorCopies e (s.droverWords e) := by
  simp at h
  rcases h with rfl | rfl | rfl | rfl | rfl | rfl | rfl | rfl | rfl | rfl <;> rfl

theorem State.copies_register {i : Instr} {ty : VTy} {vd vb k : BitVec 6} {a : Reg} {hi : BitVec 4} (s : State)
    (h : i ∈ [Instr.vld vd a k, .vst vd a k, .vbcast ty vd a, .vmovs ty vd a vb hi]) : (s.copies i).x = s.rd a := by
  simp at h
  rcases h with rfl | rfl | rfl | rfl <;> rfl

/-- A vector syllable that is no VCHAIN runs once (R111). -/
theorem State.copies_vector {i : Instr} (s : State) (hs : i.slot = some .v) (hi : ∀ e, i ≠ .vchain e) :
    (s.copies i).rep = 0 ∧ (s.copies i).step = 0 := by
  cases i <;> cases hs
  case vchain e => exact absurd rfl (hi e)
  all_goals exact ⟨rfl, rfl⟩

/-- Settles O39: every engine syllable is issued as one push, whose checks and whose copies are said above. -/
theorem enginePushes : Obligations.EnginePushes := by
  unfold Obligations.EnginePushes
  refine ⟨fun s e h => ⟨_, rfl, exec_mwb_illegal ((s.mwbIllegal_iff e).mpr h)⟩, fun s i sl hs hsl hn hm => ?_⟩
  have hexec : exec i s = s.issue (s.pushCheck sl i (instrDelay i)) (s.push sl i) :=
    exec_engine hs hsl hn fun e he => Bool.eq_false_iff.mpr fun h => hm e he ((s.mwbIllegal_iff e).mp h)
  refine ⟨fun hsvc => ⟨illegal sl i, rfl, ?_⟩, fun hsvc hfull => ?_, fun hsvc hfull hst hd => ?_, fun hsvc hfull hd => ?_⟩
  · rw [hexec, State.pushCheck_service i _ hsvc]
    rfl
  · rw [hexec, State.pushCheck_full i _ hsvc hfull]
    cases s.strict <;> rfl
  · rw [hexec, State.pushCheck_any i _ hsvc hfull hst hd]
    rfl
  · refine ⟨s.pushed sl i, ?_, rfl, rfl, rfl, rfl, fun e he => ?_, fun e he => ?_, fun e he => ?_, fun e he => ?_, fun e he => ?_,
      fun vd a k ty vb hi he => s.copies_register he, fun vd a b he => ?_, fun hv hi => s.copies_vector (hv ▸ hs) hi⟩
    · rw [hexec, State.pushCheck_ok s sl i _ hsvc (Nat.not_le.mp hfull) hd, State.issue_ok, State.push_eq]
    · simp only [State.pushed, s.copies_table he]
      exact ⟨rfl, rfl, fun k hk => s.getD_tableCopies e hk⟩
    · simp only [State.pushed, s.copies_en he]
      exact ⟨rfl, rfl⟩
    · subst he
      exact ⟨rfl, rfl, fun k hk => Regs.getD_words _ _ hk⟩
    · subst he
      exact ⟨rfl, rfl, fun k hk => Regs.getD_words _ _ hk, fun k hk => s.getD_iteratorsOf _ hk⟩
    · simp only [State.pushed, s.copies_drover he]
      exact ⟨rfl, rfl, fun k hk => Regs.getD_words _ _ hk, fun k hk => s.getD_iteratorsOf _ hk⟩
    · subst he
      exact ⟨rfl, rfl⟩

end Sys2Proof.Machine

namespace Sys2Proof.Machine

-- Cells that read nothing

section
variable {sl : Slot} {op : BitVec 9} {o : BitVec 26}

theorem readsNot_of_error {e : DecodeErr} (hr : decodeRaw sl op.toNat o = .error e) : ReadsNot sl op o :=
  readsNot_of_cell (answers_error e) hr

theorem readsNot_of_onlyIf {c : Bool} {i : Instr} (hr : decodeRaw sl op.toNat o = onlyIf c i) (h : c = true → i.wf = false) :
    ReadsNot sl op o := readsNot_of_cell ((answers_onlyIf c i).mpr h) hr

theorem readsNot_of_withCode {α : Type} {c : Option α} {f : α → Except DecodeErr Instr}
    (hr : decodeRaw sl op.toNat o = withCode c f) (h : ∀ x, c = some x → Answers (fun i => i.wf = false) (f x)) :
    ReadsNot sl op o := readsNot_of_cell ((answers_withCode c f).mpr h) hr

/-- The code in a cell's field names nothing. -/
theorem readsNot_of_none {α : Type} {c : Option α} {f : α → Except DecodeErr Instr}
    (hr : decodeRaw sl op.toNat o = withCode c f) (hc : c = none) : ReadsNot sl op o :=
  readsNot_of_withCode hr fun x hx => by rw [hc] at hx; cases hx

/-- The second code of a cell names nothing. -/
theorem readsNot_of_none_second {α β : Type} {c : Option α} {c' : Option β} {f : α → β → Except DecodeErr Instr}
    (hr : decodeRaw sl op.toNat o = withCode c fun x => withCode c' (f x)) (hc : c' = none) : ReadsNot sl op o :=
  readsNot_of_withCode hr fun x _ => by simp [hc]

/-- The third code of a cell names nothing. -/
theorem readsNot_of_none_third {α β γ : Type} {c : Option α} {c' : Option β} {c'' : Option γ}
    {f : α → β → γ → Except DecodeErr Instr}
    (hr : decodeRaw sl op.toNat o = withCode c fun x => withCode c' fun y => withCode c'' (f x y)) (hc : c'' = none) :
    ReadsNot sl op o := readsNot_of_withCode hr fun x _ => by simp [hc]

/-- A field of a cell that names a code is not zero. -/
theorem readsNot_of_withCode_onlyIf {α : Type} {c : Option α} {b : Bool} {f : α → Instr}
    (hr : decodeRaw sl op.toNat o = withCode c fun x => onlyIf b (f x)) (hb : b = false) : ReadsNot sl op o :=
  readsNot_of_withCode hr fun x _ => by simp [hb]

end

-- The reserved cells of slot S (Tables 5-5, 5-6)

theorem decodeAlu_reserved {op : Nat} (o : BitVec 26) (h : (0x30 ≤ op ∧ op < 0x40) ∨ 0x4C ≤ op) :
    decodeAlu op o = .error .reserved := by
  unfold decodeAlu
  split
  case h_61 => rfl
  all_goals omega

theorem decodeSys_reserved {op : Nat} (o : BitVec 26) (h : op < 0x60 ∨ (0x74 ≤ op ∧ op < 0x80) ∨ (0x8B ≤ op ∧ op < 0x90) ∨
    (0x9B ≤ op ∧ op < 0xA0) ∨ (0xA8 ≤ op ∧ op < 0xB0) ∨ (0xBB ≤ op ∧ op < 0x1C0)) : decodeSys op o = .error .reserved := by
  have huopn : ¬ 0x1C0 ≤ op := by omega
  unfold decodeSys
  split
  case h_62 => exact if_neg huopn
  all_goals omega

theorem readsNot_reserved_s (op : BitVec 9) (o : BitVec 26)
    (h : (0x30 ≤ op.toNat ∧ op.toNat < 0x40) ∨ (0x4C ≤ op.toNat ∧ op.toNat < 0x60) ∨ (0x74 ≤ op.toNat ∧ op.toNat < 0x80) ∨
      (0x8B ≤ op.toNat ∧ op.toNat < 0x90) ∨ (0x9B ≤ op.toNat ∧ op.toNat < 0xA0) ∨ (0xA8 ≤ op.toNat ∧ op.toNat < 0xB0) ∨
      (0xBB ≤ op.toNat ∧ op.toNat < 0x1C0)) : ReadsNot .s op o := by
  refine readsNot_of_error (e := .reserved) ?_
  show (if op.toNat < 0x060 then _ else _) = _
  split
  · exact decodeAlu_reserved o (by omega)
  · exact decodeSys_reserved o (by omega)

-- The float cells of slot S (R173 to R180)

theorem FpTy.ofCode_eq_none {c : BitVec 4} (h6 : c ≠ 6) (h8 : c ≠ 8) : FpTy.ofCode c.toNat = none := by
  revert c
  decide

theorem RMode.ofCode_eq_none {n : Nat} (h : 4 ≤ n) : RMode.ofCode n = none := by
  unfold RMode.ofCode
  split
  case h_5 => rfl
  all_goals omega

theorem FpCond.ofCode_eq_none {n : Nat} (h : 4 ≤ n) : FpCond.ofCode n = none := by
  unfold FpCond.ofCode
  split
  case h_5 => rfl
  all_goals omega

theorem SgnOp.ofCode_eq_none {n : Nat} (h : 3 ≤ n) : SgnOp.ofCode n = none := by
  unfold SgnOp.ofCode
  split
  case h_4 => rfl
  all_goals omega

theorem ScalarTy.ofCode_eq_none {n : Nat} (h : n ∉ [2, 4, 5, 6, 8, 9, 10, 11]) : ScalarTy.ofCode n = none := by
  unfold ScalarTy.ofCode
  split
  case h_9 => rfl
  all_goals exact absurd h (by decide)

section
variable (d a b : Reg)

theorem low_opFn_rrr (md c : BitVec 4) : (opFn (rrr d a b (md ++ c))).extractLsb' 0 4 = c := by
  rw [rrr_eq_packR, opFn_packR, extract_append_low]

theorem high_opFn_rrr (md c : BitVec 4) : (opFn (rrr d a b (md ++ c))).extractLsb' 4 4 = md := by
  rw [rrr_eq_packR, opFn_packR, extract_append_high _ _ _ _ (le_refl 4), Nat.sub_self, extract_all]

theorem reads_float_arith (t : FpTy) (m : RMode) :
    Reads .s 0x040 (rrr d a b (fn2 m.code t.code)) (.fadd t m d a b) ∧
      Reads .s 0x041 (rrr d a b (fn2 m.code t.code)) (.fsub t m d a b) ∧
      Reads .s 0x042 (rrr d a b (fn2 m.code t.code)) (.fmul t m d a b) ∧
      Reads .s 0x043 (rrr d a b (fn2 m.code t.code)) (.ffma t m d a b) :=
  ⟨reads_own, reads_own, reads_own, reads_own⟩

theorem reads_float_other (t : FpTy) :
    Reads .s 0x044 (rrr d a b (fn2 0 t.code)) (.fmin t d a b) ∧ Reads .s 0x045 (rrr d a b (fn2 0 t.code)) (.fmax t d a b) ∧
      Reads .s 0x046 (rrr d a b (fn2 0 t.code)) (.fcmp .eq t d a b) ∧ Reads .s 0x046 (rrr d a b (fn2 1 t.code)) (.fcmp .lt t d a b) ∧
      Reads .s 0x046 (rrr d a b (fn2 2 t.code)) (.fcmp .le t d a b) ∧ Reads .s 0x046 (rrr d a b (fn2 3 t.code)) (.fcmp .un t d a b) ∧
      Reads .s 0x048 (rrr d a 0 (fn2 0 t.code)) (.frsqa t d a) ∧ Reads .s 0x049 (rrr d a 0 (fn2 0 t.code)) (.frcpa t d a) ∧
      Reads .s 0x04A (rrr d a 0 (fn2 0 t.code)) (.fclass t d a) ∧ Reads .s 0x04B (rrr d a b (fn2 0 t.code)) (.fsgn .j t d a b) ∧
      Reads .s 0x04B (rrr d a b (fn2 1 t.code)) (.fsgn .jn t d a b) ∧ Reads .s 0x04B (rrr d a b (fn2 2 t.code)) (.fsgn .jx t d a b) :=
  ⟨reads_own, reads_own, reads_own, reads_own, reads_own, reads_own, reads_own, reads_own, reads_own, reads_own, reads_own,
    reads_own⟩

/-- A code that is no float type's is read in no cell of Table 5-5 that holds one. -/
theorem readsNot_float_type (md : BitVec 4) {c : BitVec 4} (h6 : c ≠ 6) (h8 : c ≠ 8) :
    ∀ op ∈ ([0x040, 0x041, 0x042, 0x043, 0x044, 0x045, 0x046, 0x048, 0x049, 0x04A, 0x04B] : List (BitVec 9)),
      ReadsNot .s op (rrr d a b (md ++ c)) := by
  have hc : FpTy.ofCode ((opFn (rrr d a b (md ++ c))).extractLsb' 0 4).toNat = none := by
    rw [low_opFn_rrr]
    exact FpTy.ofCode_eq_none h6 h8
  simp only [List.forall_mem_cons]
  exact ⟨readsNot_of_none rfl hc, readsNot_of_none rfl hc, readsNot_of_none rfl hc, readsNot_of_none rfl hc,
    readsNot_of_none rfl hc, readsNot_of_none rfl hc, readsNot_of_none rfl hc, readsNot_of_none rfl hc, readsNot_of_none rfl hc,
    readsNot_of_none rfl hc, readsNot_of_none rfl hc, fun _ h => absurd h List.not_mem_nil⟩

/-- fn[7:4] beyond 3 is neither a rounding mode nor a condition. -/
theorem readsNot_float_mode {md : BitVec 4} (c : BitVec 4) (h : 4 ≤ md.toNat) :
    ∀ op ∈ ([0x040, 0x041, 0x042, 0x043, 0x046] : List (BitVec 9)), ReadsNot .s op (rrr d a b (md ++ c)) := by
  have hm : RMode.ofCode ((opFn (rrr d a b (md ++ c))).extractLsb' 4 4).toNat = none := by
    rw [high_opFn_rrr]
    exact RMode.ofCode_eq_none h
  have hk : FpCond.ofCode ((opFn (rrr d a b (md ++ c))).extractLsb' 4 4).toNat = none := by
    rw [high_opFn_rrr]
    exact FpCond.ofCode_eq_none h
  simp only [List.forall_mem_cons]
  exact ⟨readsNot_of_none_second rfl hm, readsNot_of_none_second rfl hm, readsNot_of_none_second rfl hm,
    readsNot_of_none_second rfl hm, readsNot_of_none_second rfl hk, fun _ h => absurd h List.not_mem_nil⟩

theorem readsNot_float_zero_mode {md : BitVec 4} (c : BitVec 4) (h : md ≠ 0) :
    ∀ op ∈ ([0x044, 0x045, 0x048, 0x049, 0x04A] : List (BitVec 9)), ReadsNot .s op (rrr d a b (md ++ c)) := by
  have hm : (((opFn (rrr d a b (md ++ c))).extractLsb' 4 4).toNat == 0) = false := by
    rw [high_opFn_rrr]
    exact beq_eq_false_iff_ne.mpr fun h' => h (BitVec.eq_of_toNat_eq h')
  have hmb : ∀ x, (((opFn (rrr d a b (md ++ c))).extractLsb' 4 4).toNat == 0 && x) = false := fun x => by rw [hm, Bool.false_and]
  simp only [List.forall_mem_cons]
  exact ⟨readsNot_of_withCode_onlyIf rfl hm, readsNot_of_withCode_onlyIf rfl hm, readsNot_of_withCode_onlyIf rfl (hmb _),
    readsNot_of_withCode_onlyIf rfl (hmb _), readsNot_of_withCode_onlyIf rfl (hmb _), fun _ h => absurd h List.not_mem_nil⟩

theorem readsNot_float_zero_b {b : Reg} (fn : BitVec 8) (h : b ≠ 0) :
    ∀ op ∈ ([0x048, 0x049, 0x04A] : List (BitVec 9)), ReadsNot .s op (rrr d a b fn) := by
  have hb : ∀ x, (x && opB (rrr d a b fn) == 0) = false := fun x => by
    simp only [rrr_eq_packR, opB_packR, beq_eq_false_iff_ne.mpr h, Bool.and_false]
  simp only [List.forall_mem_cons]
  exact ⟨readsNot_of_withCode_onlyIf rfl (hb _), readsNot_of_withCode_onlyIf rfl (hb _), readsNot_of_withCode_onlyIf rfl (hb _),
    fun _ h => absurd h List.not_mem_nil⟩

theorem readsNot_fsgn {md : BitVec 4} (c : BitVec 4) (h : 3 ≤ md.toNat) : ReadsNot .s 0x04B (rrr d a b (md ++ c)) :=
  readsNot_of_none_second rfl (by rw [high_opFn_rrr]; exact SgnOp.ofCode_eq_none h)

/-- FCVT has one float side at least (R178). -/
theorem fcvt_wf_iff (td ts : ScalarTy) (m : RMode) : (Instr.fcvt td ts m d a).wf = true ↔
    td ≠ ts ∧ ((td = .f16 ∨ td = .bf16 ∨ td = .f32 ∨ td = .f64) ∨ ts = .f16 ∨ ts = .bf16 ∨ ts = .f32 ∨ ts = .f64) := by
  show (td != ts && !(Instr.wf.scalarInt td && Instr.wf.scalarInt ts)) = true ↔ _
  cases td <;> cases ts <;> decide

theorem readsNot_fcvt {md c : BitVec 4}
    (h : c.toNat ∉ [2, 4, 5, 6, 8, 9, 10, 11] ∨ b.toNat ∉ [2, 4, 5, 6, 8, 9, 10, 11] ∨ 4 ≤ md.toNat) :
    ReadsNot .s 0x047 (rrr d a b (md ++ c)) := by
  rcases h with h | h | h
  · exact readsNot_of_none rfl (by rw [low_opFn_rrr]; exact ScalarTy.ofCode_eq_none h)
  · exact readsNot_of_none_second rfl (by rw [rrr_eq_packR, opB_packR]; exact ScalarTy.ofCode_eq_none h)
  · exact readsNot_of_none_third rfl (by rw [high_opFn_rrr]; exact RMode.ofCode_eq_none h)

end

-- Cells of slot S by the numbers of their operands

/-- A cell that asks for zeros and holds one instruction, legal whatever its operands are. -/
theorem cell_of_zeros {sl : Slot} {op : BitVec 9} {o : BitVec 26} {c : Bool} {i j : Instr} {ok : Prop}
    (h : decodeRaw sl op.toNat o = onlyIf c j) (hj : j = i) (hi : i.wf = true) (hc : c = true ↔ ok) :
    (ok → Reads sl op o i) ∧ (¬ ok → ReadsNot sl op o) := cell_of_onlyIf h hj (by rw [hi, eq_self, and_true, hc])

theorem toNat_append_add {m n : Nat} (x : BitVec m) (y : BitVec n) : (x ++ y).toNat = x.toNat * 2 ^ n + y.toNat := by
  rw [BitVec.toNat_append, ← Nat.shiftLeft_add_eq_or_of_lt y.isLt, Nat.shiftLeft_eq]

theorem rrr_toNat (d a b : BitVec 6) (fn : BitVec 8) :
    (rrr d a b fn).toNat = d.toNat * 2 ^ 20 + a.toNat * 2 ^ 14 + b.toNat * 2 ^ 8 + fn.toNat := by
  simp only [rrr, toNat_append_add]
  omega

theorem ri_toNat (d a : BitVec 6) (imm : BitVec 14) : (ri d a imm).toNat = d.toNat * 2 ^ 20 + a.toNat * 2 ^ 14 + imm.toNat := by
  simp only [ri, toNat_append_add]
  omega

theorem extract_beq_zero_iff {n : Nat} (z : BitVec n) (s l : Nat) :
    (z.extractLsb' s l == 0) = true ↔ z.toNat / 2 ^ s % 2 ^ l = 0 := by
  rw [beq_iff_eq]
  exact (extract_eq_zero_iff z s l).trans (by rw [Nat.shiftRight_eq_div_pow])

/-- Format RRR with no second source is format RI with a short immediate. -/
theorem rrr_eq_ri (d a : BitVec 6) (fn : BitVec 8) : rrr d a 0 fn = ri d a (fn.setWidth 14) := by
  apply BitVec.eq_of_toNat_eq
  rw [rrr_toNat, ri_toNat]
  simp only [BitVec.toNat_setWidth]
  have := fn.isLt
  simp
  omega

-- Memory and transfers (R181 to R197)

section
variable (d a b : Reg) (imm : BitVec 14) (fn : BitVec 8)

theorem reads_accesses : Reads .s 0x060 (ri d a imm) (.ld .b1 d a imm) ∧ Reads .s 0x061 (ri d a imm) (.ld .b2 d a imm) ∧
    Reads .s 0x062 (ri d a imm) (.ld .b4 d a imm) ∧ Reads .s 0x063 (ri d a imm) (.ld .b8 d a imm) ∧
    Reads .s 0x064 (ri d a imm) (.ldz .b1 d a imm) ∧ Reads .s 0x065 (ri d a imm) (.ldz .b2 d a imm) ∧
    Reads .s 0x066 (ri d a imm) (.ldz .b4 d a imm) ∧ Reads .s 0x067 (ri d a imm) (.ldz .b8 d a imm) ∧
    Reads .s 0x068 (ri d a imm) (.st .b1 d a imm) ∧ Reads .s 0x069 (ri d a imm) (.st .b2 d a imm) ∧
    Reads .s 0x06A (ri d a imm) (.st .b4 d a imm) ∧ Reads .s 0x06B (ri d a imm) (.st .b8 d a imm) :=
  ⟨reads_own, reads_own, reads_own, reads_own, reads_own, reads_own, reads_own, reads_own, reads_own, reads_own, reads_own,
    reads_own⟩

theorem readsNot_pair (h : d.toNat % 2 = 1) : ReadsNot .s 0x06C (ri d a imm) ∧ ReadsNot .s 0x06D (ri d a imm) :=
  have hd : ¬ d.toNat % 2 = 0 := by omega
  ⟨readsNot_of_word (i := .ldp d a imm) rfl (decide_eq_false hd) rfl rfl,
    readsNot_of_word (i := .stp d a imm) rfl (decide_eq_false hd) rfl rfl⟩

theorem str_wf_iff (dy : BitVec 6) : (Instr.str d a b dy).wf = true ↔ b ≠ 0 ∨ dy ≠ 0 := by
  show (!(b == 0 && dy == 0)) = true ↔ _
  simp

theorem readsNot_str (h : 64 ≤ fn.toNat ∨ b = 0 ∧ fn = 0) : ReadsNot .s 0x06E (rrr d a b fn) := by
  refine readsNot_of_onlyIf rfl fun hc => Bool.eq_false_iff.mpr fun hi => ?_
  rw [rrr_eq_packR, opFn_packR] at hc hi
  rw [opB_packR] at hi
  rw [extract_beq_zero_iff] at hc
  rcases h with h | ⟨rfl, rfl⟩
  · omega
  · exact absurd ((str_wf_iff _ _ _ _).mp hi) (by decide)

theorem cell_fill : (d ≠ 0 ∧ a = 0 ∧ imm = 0 → Reads .s 0x070 (ri d a imm) (.fill d)) ∧
    (¬ (d ≠ 0 ∧ a = 0 ∧ imm = 0) → ReadsNot .s 0x070 (ri d a imm)) := by
  refine cell_of_onlyIf rfl (congrArg Instr.fill (opD_packI d a imm)) ?_
  show _ ∧ (d != 0) = true ↔ _
  simp [and_comm]

theorem cell_ret : (d = 0 ∧ b = 0 ∧ fn = 0 → Reads .s 0x082 (rrr d a b fn) (.ret a)) ∧
    (¬ (d = 0 ∧ b = 0 ∧ fn = 0) → ReadsNot .s 0x082 (rrr d a b fn)) :=
  cell_of_zeros rfl (congrArg Instr.ret (opA_packR d a b fn)) rfl (by simp [and_assoc])

theorem cell_jr : (b = 0 ∧ fn = 0 → Reads .s 0x083 (rrr d a b fn) (.jr d a)) ∧
    (¬ (b = 0 ∧ fn = 0) → ReadsNot .s 0x083 (rrr d a b fn)) := cell_of_zeros rfl (by simp) rfl (by simp)

end

-- Atomics (R405)

section
variable (d a b : Reg)

theorem order_bits (rl ac : Bool) : BitVec.ofBool rl ++ BitVec.ofBool ac = BitVec.ofNat 2 (AmoOrd.code { acq := ac, rel := rl }) := by
  revert rl ac
  decide

theorem amoFn_eq (n : Nat) (rl ac : Bool) (low : BitVec 4) :
    BitVec.ofNat 2 n ++ BitVec.ofBool rl ++ BitVec.ofBool ac ++ low = amoFn n { acq := ac, rel := rl } low := by
  rw [amoFn, ← order_bits, BitVec.append_assoc (x₁ := BitVec.ofNat 2 n)]
  rfl

theorem amoFn_eq_of_type (rl ac : Bool) (ty : AmoTy) (k : BitVec 3) :
    (0 : BitVec 2) ++ BitVec.ofBool rl ++ BitVec.ofBool ac ++ BitVec.ofBool (ty == .i64) ++ k =
      amoFn 0 { acq := ac, rel := rl } (BitVec.ofBool ty.bit ++ k) := by
  rw [← amoFn_eq, BitVec.append_assoc (x₁ := _ ++ BitVec.ofBool ac)]
  cases ty <;> rfl

theorem readsNot_amo_code (x : BitVec 5) : ReadsNot .s 0x071 (rrr d a b (x ++ (7 : BitVec 3))) :=
  readsNot_of_none rfl (by rw [rrr_eq_packR, opFn_packR, extract_append_low]; rfl)

theorem readsNot_amocas_code (x : BitVec 5) {k : BitVec 3} (hk : k ≠ 0) : ReadsNot .s 0x072 (rrr d a b (x ++ k)) :=
  readsNot_of_onlyIf rfl fun h => by
    rw [rrr_eq_packR, opFn_packR, extract_append_low, Bool.and_eq_true, beq_iff_eq, beq_iff_eq] at h
    exact absurd h.2 hk

theorem amo_high_ne_zero {fn : BitVec 8} (h : 64 ≤ fn.toNat) : ((opFn (rrr d a b fn)).extractLsb' 6 2 == 0) = false := by
  rw [rrr_eq_packR, opFn_packR, Bool.eq_false_iff, Ne, extract_beq_zero_iff]
  omega

theorem readsNot_amo_high {fn : BitVec 8} (h : 64 ≤ fn.toNat) :
    ReadsNot .s 0x071 (rrr d a b fn) ∧ ReadsNot .s 0x072 (rrr d a b fn) :=
  ⟨readsNot_of_withCode_onlyIf rfl (amo_high_ne_zero d a b h),
    readsNot_of_onlyIf rfl fun hc => by rw [amo_high_ne_zero d a b h] at hc; cases hc⟩

theorem readsNot_famoadd {fn : BitVec 8} (h6 : fn.toNat % 16 ≠ 6) (h8 : fn.toNat % 16 ≠ 8) : ReadsNot .s 0x073 (rrr d a b fn) :=
  readsNot_of_none rfl (by
    rw [rrr_eq_packR, opFn_packR]
    revert fn
    decide)

end

-- Loops, IDLE, PPT (R148, R194)

section
variable (d : Reg) (len : BitVec 12) (lv : BitVec 2) (flags : BitVec 6)

theorem eq_packLP (fl : BitVec 6) : d ++ len ++ lv ++ fl = packLP d len (lv ++ fl) := by
  rw [packLP, BitVec.append_assoc (x₁ := d ++ len)]
  rfl

theorem loop_flags : ((d ++ len ++ lv ++ flags).extractLsb' 0 6 == 0) = true ↔ flags = 0 := by
  rw [extract_append_low, beq_iff_eq]

theorem loop_len : opLen (d ++ len ++ lv ++ flags) = len := by rw [eq_packLP, opLen_packLP]

theorem loop_level : (d ++ len ++ lv ++ flags).extractLsb' 6 2 = lv := by
  rw [extract_append_high _ _ _ _ (le_refl 6), Nat.sub_self, extract_append_low]

theorem loop_count : opD (d ++ len ++ lv ++ flags) = d := by rw [eq_packLP, opD_packLP]

theorem cell_loop : (len ≠ 0 ∧ flags = 0 → Reads .s 0x084 (d ++ len ++ lv ++ flags) (.loop d len lv)) ∧
    (¬ (len ≠ 0 ∧ flags = 0) → ReadsNot .s 0x084 (d ++ len ++ lv ++ flags)) := by
  refine cell_of_onlyIf rfl (by rw [loop_count, loop_len, loop_level]) ?_
  show _ ∧ (len != 0) = true ↔ _
  rw [loop_flags, bne_iff_ne, and_comm]

theorem cell_loopi : (len ≠ 0 ∧ flags = 0 → Reads .s 0x085 (d ++ len ++ lv ++ flags) (.loopi d len lv)) ∧
    (¬ (len ≠ 0 ∧ flags = 0) → ReadsNot .s 0x085 (d ++ len ++ lv ++ flags)) := by
  refine cell_of_onlyIf rfl (by rw [loop_count, loop_len, loop_level]) ?_
  show _ ∧ (len != 0) = true ↔ _
  rw [loop_flags, bne_iff_ne, and_comm]

theorem cell_lbrk : (len ≠ 0 ∧ flags = 0 ∧ d = 0 → Reads .s 0x086 (d ++ len ++ lv ++ flags) (.lbrk len lv)) ∧
    (¬ (len ≠ 0 ∧ flags = 0 ∧ d = 0) → ReadsNot .s 0x086 (d ++ len ++ lv ++ flags)) := by
  refine cell_of_onlyIf rfl (by rw [loop_len, loop_level]) ?_
  show _ ∧ (len != 0) = true ↔ _
  rw [Bool.and_eq_true, loop_flags, loop_count, beq_iff_eq, bne_iff_ne, and_comm]

theorem reads_ppt : Reads .s 0x088 ((0 : BitVec 14) ++ len) (.ppt len) :=
  reads_of_word rfl rfl rfl (BitVec.eq_of_toNat_eq (by
    rw [packL, zero_append_eq_setWidth 14 len, zero_append_eq_setWidth 6 (len.setWidth 20)]
    simp))

theorem readsNot_ppt {o : BitVec 26} (h : 4096 ≤ o.toNat) : ReadsNot .s 0x088 o :=
  readsNot_of_onlyIf rfl fun hc => by
    rw [Bool.and_eq_true, opD, extract_beq_zero_iff, extract_beq_zero_iff] at hc
    have := o.isLt
    omega

end

-- Synchronisation, configuration and system cells (R198 to R205, R227, R375 to R384, R410)

theorem eq_zero_iff_toNat {n : Nat} (x : BitVec n) : x = 0 ↔ x.toNat = 0 := by rw [← BitVec.toNat_inj]; simp

section
variable (d a b : Reg) (fn : BitVec 8) (imm : BitVec 14)

theorem reads_wacq : Reads .s 0x099 (rrr 0 a 0 (b.setWidth 8)) (.wacq a b) :=
  reads_of_word rfl rfl rfl ((rrr_eq_ri 0 a _).trans (congrArg (ri 0 a) (by revert b; decide)))

theorem reads_wrd : Reads .s 0x09A (rrr d 0 0 (b.setWidth 8)) (.wrd false d b) ∧
    Reads .s 0x09A (rrr d 0 0 (b.setWidth 8 ||| 64)) (.wrd true d b) :=
  ⟨reads_of_word rfl rfl rfl ((rrr_eq_ri d 0 _).trans (congrArg (ri d 0) (by revert b; decide))),
    reads_of_word rfl rfl rfl ((rrr_eq_ri d 0 _).trans (congrArg (ri d 0) (by revert b; decide)))⟩

theorem readsNot_wacq {d b : Reg} {fn : BitVec 8} (h : d ≠ 0 ∨ b ≠ 0 ∨ 64 ≤ fn.toNat) : ReadsNot .s 0x099 (rrr d a b fn) :=
  readsNot_of_onlyIf rfl fun hc => by
    rw [Bool.and_eq_true, extract_beq_zero_iff, rrr_toNat, rrr_eq_packR, opD_packR, beq_iff_eq] at hc
    simp only [ne_eq, eq_zero_iff_toNat] at h hc
    omega

theorem readsNot_wrd {a b : Reg} {fn : BitVec 8} (h : a ≠ 0 ∨ b ≠ 0 ∨ 128 ≤ fn.toNat) : ReadsNot .s 0x09A (rrr d a b fn) :=
  readsNot_of_onlyIf rfl fun hc => by
    rw [Bool.and_eq_true, extract_beq_zero_iff, rrr_toNat, rrr_eq_packR, opA_packR, beq_iff_eq] at hc
    simp only [ne_eq, eq_zero_iff_toNat] at h hc
    omega

/-- A cell of a record's word: no second source, and a record and a word that exist. -/
theorem cell_of_limits {op : BitVec 9} {o : BitVec 26} {c : Bool} {i j : Instr} {p q : Prop} [Decidable q]
    (h : decodeRaw .s op.toNat o = onlyIf c j) (hj : j = i) (hi : i.wf = decide q) (hc : c = true ↔ p) :
    (p ∧ q → Reads .s op o i) ∧ (¬ (p ∧ q) → ReadsNot .s op o) := cell_of_onlyIf h hj (by rw [hi, decide_eq_true_iff, hc])

theorem opB_beq_zero_iff : (opB (rrr d a b fn) == 0) = true ↔ b = 0 := by simp

theorem cell_fmtw : (b = 0 ∧ fn = 0 ∧ d.toNat < 16 → Reads .s 0x0A5 (rrr d a b fn) (.fmtw d a)) ∧
    (¬ (b = 0 ∧ fn = 0 ∧ d.toNat < 16) → ReadsNot .s 0x0A5 (rrr d a b fn)) := by
  rw [← and_assoc]
  exact cell_of_limits rfl (by simp) rfl (by simp)

theorem readsNot_mbrd {a : Reg} {imm : BitVec 14} (h : a ≠ 0 ∨ 16 ≤ imm.toNat) : ReadsNot .s 0x0B4 (ri d a imm) :=
  readsNot_of_onlyIf rfl fun hc => by
    rw [Bool.and_eq_true, extract_beq_zero_iff, ri_toNat, ri_eq_packI, opA_packI, beq_iff_eq] at hc
    simp only [ne_eq, eq_zero_iff_toNat] at h hc
    omega

theorem readsNot_mbwr {d : Reg} {imm : BitVec 14} (h : d ≠ 0 ∨ 16 ≤ imm.toNat) : ReadsNot .s 0x0B5 (ri d a imm) :=
  readsNot_of_onlyIf rfl fun hc => by
    rw [Bool.and_eq_true, extract_beq_zero_iff, ri_toNat, ri_eq_packI, opD_packI, beq_iff_eq] at hc
    simp only [ne_eq, eq_zero_iff_toNat] at h hc
    omega

theorem cell_msrd : (b = 0 ∧ fn.toNat ≤ 1 → Reads .s 0x0B8 (rrr d a b fn) (.msrd (fn == 1) d a)) ∧
    (¬ (b = 0 ∧ fn.toNat ≤ 1) → ReadsNot .s 0x0B8 (rrr d a b fn)) := by
  constructor
  · rintro ⟨rfl, hfn⟩
    exact reads_of_word rfl rfl rfl (congrArg (rrr d a 0) (by revert fn; decide))
  · refine fun h => readsNot_of_onlyIf rfl fun hc => absurd ?_ h
    rw [Bool.and_eq_true, opB_beq_zero_iff, rrr_eq_packR, opFn_packR, extract_beq_zero_iff] at hc
    exact ⟨hc.1, by omega⟩

theorem readsNot_trap (n : BitVec 20) (h : d ≠ 0) : ReadsNot .s 0x0B0 (d ++ n) :=
  readsNot_of_onlyIf rfl fun hc => absurd (beq_iff_eq.mp hc) (by rwa [← packL, opD_packL])

theorem readsNot_kwr (h : d ≠ 0 ∨ b ≠ 0) : ReadsNot .s 0x0B3 (rrr d a b fn) :=
  readsNot_of_onlyIf rfl fun hc => by
    rw [opB_eq, Bool.and_eq_true, rrr_eq_packR, opD_packR, opB_packR, beq_iff_eq, beq_iff_eq] at hc
    tauto

/-- KWR of a number with no row of its own (Table 6-6). -/
theorem reads_kwr {fn : BitVec 8} (h : fn ∉ ([0x0C, 0x3C, 0x77, 0x78, 0x79] : List (BitVec 8))) (hlt : fn.toNat < 0x80) :
    Reads .s 0x0B3 (rrr 0 a 0 fn) (.kwr fn a) := by
  have hrow : (!kwrOwnRow fn) = true := by revert fn; decide
  exact reads_of_word rfl hrow rfl (rrr_eq_ri 0 a fn)

/-- KWR of the numbers below 0x80 that have a row. -/
theorem reads_kwr_row (fn : BitVec 8) : (fn = 0x0C → Reads .s 0x0B3 (rrr 0 a 0 fn) (.kwrTimer a)) ∧
    (fn = 0x3C → Reads .s 0x0B3 (rrr 0 a 0 fn) (.kwrPoolscope a)) ∧ (fn = 0x77 → Reads .s 0x0B3 (rrr 0 a 0 fn) (.kwrLosssel a)) ∧
    (fn = 0x78 → Reads .s 0x0B3 (rrr 0 a 0 fn) (.kwrLossval a)) ∧ (fn = 0x79 → Reads .s 0x0B3 (rrr 0 a 0 fn) (.kwrTrcemit a)) := by
  rw [rrr_eq_ri]
  refine ⟨?_, ?_, ?_, ?_, ?_⟩ <;> (rintro rfl; exact reads_own)

theorem reads_kwrWdesc {fn : BitVec 8} (h : 0x80 ≤ fn.toNat) (hlt : fn.toNat < 0xC0) :
    Reads .s 0x0B3 (rrr 0 a 0 fn) (.kwrWdesc (BitVec.ofNat 6 (fn.toNat - 0x80)) a) := by
  have hfn : fn = (2 : BitVec 2) ++ BitVec.ofNat 6 (fn.toNat - 0x80) := by revert fn; decide
  exact reads_of_word rfl rfl rfl ((rrr_eq_ri 0 a fn).trans (congrArg (packKwr · a) hfn))

theorem reads_kwrWmap {fn : BitVec 8} (h : 0xC0 ≤ fn.toNat) :
    Reads .s 0x0B3 (rrr 0 a 0 fn) (.kwrWmap (BitVec.ofNat 6 (fn.toNat - 0xC0)) a) := by
  have hfn : fn = (3 : BitVec 2) ++ BitVec.ofNat 6 (fn.toNat - 0xC0) := by revert fn; decide
  exact reads_of_word rfl rfl rfl ((rrr_eq_ri 0 a fn).trans (congrArg (packKwr · a) hfn))

theorem cell_uopn {k : BitVec 6} {op : BitVec 9} (hop : op.toNat = 0x1C0 + k.toNat) :
    (fn = 0 → Reads .s op (rrr d a b fn) (.uopn k d a b)) ∧ (¬ fn = 0 → ReadsNot .s op (rrr d a b fn)) := by
  have hraw : decodeRaw .s op.toNat (rrr d a b fn) =
      onlyIf (opFn (rrr d a b fn) == 0) (.uopn k (opD (rrr d a b fn)) (opA (rrr d a b fn)) (opB (rrr d a b fn))) := by
    show (if op.toNat < 0x060 then _ else _) = _
    rw [if_neg (by omega), decodeSys_uopn _ _ (by omega), hop, Nat.add_sub_cancel_left, BitVec.ofNat_toNat, BitVec.setWidth_eq]
  exact cell_of_zeros hraw (by simp) rfl (by simp)

end

/-- Settles O3: the cells in the order of Table 5-5, each by its own lemma, or as the word of its instruction. -/
theorem scalarOpcodeMap : Obligations.ScalarOpcodeMap := by
  unfold Obligations.ScalarOpcodeMap
  refine ⟨readsNot_reserved_s, fun d a b c md t => ?_, fun d a b i i20 fn o len lv => ?_, fun d a b fn i i20 o n st => ?_⟩
  · refine ⟨fun hc m hm => ?_, fun hc => ?_, fun h6 h8 => readsNot_float_type d a b md h6 h8, fun h => readsNot_float_mode d a b c h,
      fun h => readsNot_float_zero_mode d a b c h, fun h => readsNot_float_zero_b d a _ h, fun h => readsNot_fsgn d a b c h,
      fun td ts m hm hd hs => ?_, fun h => readsNot_fcvt d a b h⟩
    · have ht : c = BitVec.ofNat 4 t.code := by cases t <;> exact BitVec.eq_of_toNat_eq hc
      have hmd : md = BitVec.ofNat 4 m.code := by cases m <;> exact BitVec.eq_of_toNat_eq hm
      rw [ht, hmd]
      exact reads_float_arith d a b t m
    · have ht : c = BitVec.ofNat 4 t.code := by cases t <;> exact BitVec.eq_of_toNat_eq hc
      rw [ht]
      exact reads_float_other d a b t
    · have htd : c = BitVec.ofNat 4 td.code := by cases td <;> exact BitVec.eq_of_toNat_eq hd
      have hts : b = BitVec.ofNat 6 ts.code := by cases ts <;> exact BitVec.eq_of_toNat_eq hs
      have hmd : md = BitVec.ofNat 4 m.code := by cases m <;> exact BitVec.eq_of_toNat_eq hm
      rw [htd, hts, hmd]
      exact cell_of_word rfl rfl rfl (fcvt_wf_iff d a td ts m)
  · refine ⟨reads_accesses d a i,
      fun h => ⟨reads_own rfl (decide_eq_true h), reads_own rfl (decide_eq_true h)⟩,
      readsNot_pair d a i,
      fun dy h => reads_of_word rfl ((str_wf_iff d a b dy).mpr h) rfl rfl, readsNot_str d a b fn,
      fun h => ⟨reads_own rfl (bne_iff_ne.mpr h), (cell_fill d 0 0).1 ⟨h, rfl, rfl⟩⟩,
      fun h => readsNot_of_word (i := .spill d a i) rfl (bne_eq_false_iff_eq.mpr h) rfl rfl, fun h => (cell_fill d a i).2 (by tauto),
      fun ty ac rl op k => ?_, readsNot_amo_high d a b, readsNot_famoadd d a b,
      ⟨reads_own, reads_own, reads_own, reads_own⟩,
      fun h => (cell_ret d a b fn).2 (by tauto), fun h => (cell_jr d a b fn).2 (by tauto),
      fun h => ⟨(cell_loop d len lv 0).1 ⟨h, rfl⟩, (cell_loopi d len lv 0).1 ⟨h, rfl⟩,
        (cell_lbrk 0 len lv 0).1 ⟨h, rfl, rfl⟩⟩,
      fun h => ⟨(cell_loop d len lv b).2 (by tauto), (cell_loopi d len lv b).2 (by tauto)⟩,
      fun h => (cell_lbrk d len lv b).2 (by tauto),
      ⟨reads_own, reads_ppt len, reads_own, reads_own⟩, readsNot_ppt,
      fun h => ⟨readsNot_of_onlyIf rfl fun hc => absurd (beq_iff_eq.mp hc) h,
        readsNot_of_onlyIf rfl fun hc => absurd (beq_iff_eq.mp hc) h⟩⟩
    refine ⟨fun hk => ?_, readsNot_amo_code d a b _, ?_, readsNot_amocas_code d a b _, fun t m hi hm => ?_⟩
    · have hop : k = BitVec.ofNat 3 op.code := by cases op <;> exact BitVec.eq_of_toNat_eq hk
      rw [hop]
      exact reads_of_word rfl rfl rfl (congrArg (rrr d a b) (amoFn_eq_of_type rl ac ty _))
    · exact reads_of_word rfl rfl rfl (congrArg (rrr d a b) (amoFn_eq_of_type rl ac ty 0))
    · have hmd : hi = BitVec.ofNat 2 m.code := by cases m <;> exact BitVec.eq_of_toNat_eq hm
      rw [hmd]
      cases t <;> exact reads_of_word rfl rfl rfl (congrArg (rrr d a b) (amoFn_eq m.code rl ac _))
  · refine ⟨⟨cell_of_zeros rfl (by simp) rfl (by simp), cell_of_zeros rfl (by simp) rfl (by simp), reads_own,
        reads_own, cell_of_zeros rfl (by simp) rfl (by simp), cell_of_zeros rfl (by simp) rfl (by simp),
        cell_of_zeros rfl (by simp) rfl (by simp), reads_own, reads_own⟩,
      ⟨reads_wacq a b, reads_wrd d b⟩, readsNot_wacq a, readsNot_wrd d,
      ⟨cell_of_limits rfl (by simp) rfl (opB_beq_zero_iff d a b fn), cell_of_limits rfl (by simp) rfl (opB_beq_zero_iff d a b fn),
        cell_of_limits rfl (by simp) rfl (opB_beq_zero_iff d a b fn), cell_of_limits rfl (by simp) rfl (opB_beq_zero_iff d a b fn),
        cell_of_limits rfl (by simp) rfl (opB_beq_zero_iff d a b fn), cell_fmtw d a b fn,
        cell_of_limits rfl (by simp) rfl (opB_beq_zero_iff d a b fn), cell_of_limits rfl (by simp) rfl (opB_beq_zero_iff d a b fn)⟩,
      ⟨reads_own, readsNot_trap d i20, reads_own,
        fun h => readsNot_of_onlyIf rfl fun hc => absurd (beq_iff_eq.mp hc) h, cell_of_zeros rfl (by simp) rfl (by simp [opB_eq])⟩,
      fun hd hb => ?_, readsNot_kwr d a b fn,
      ⟨reads_own, reads_own, readsNot_mbrd d, readsNot_mbwr a⟩,
      ⟨cell_of_zeros rfl (by simp) rfl (by simp), cell_of_zeros rfl (by simp) rfl (by simp), cell_msrd d a b fn,
        reads_own, reads_own, reads_own⟩,
      fun k op => cell_uopn d a b fn⟩
    subst hd hb
    obtain ⟨htimer, hscope, hsel, hval, hemit⟩ := reads_kwr_row a fn
    exact ⟨reads_kwr a, htimer, hscope, hsel, hval, hemit, reads_kwrWdesc a, reads_kwrWmap a⟩

end Sys2Proof.Machine

namespace Sys2Proof.Machine

-- The reserved cells of slots M, V and D (Tables 5-7, 5-8, 5-10)

theorem readsNot_reserved_m (op : BitVec 9) (o : BitVec 26) (h : 8 ≤ op.toNat) : ReadsNot .m op o := by
  refine readsNot_of_error (e := .reserved) ?_
  show decodeM op.toNat o = _
  unfold decodeM
  split
  case h_9 => rfl
  all_goals omega

theorem readsNot_reserved_v (op : BitVec 9) (o : BitVec 26) (h : 0x20 ≤ op.toNat) : ReadsNot .v op o := by
  refine readsNot_of_error (e := .reserved) ?_
  show decodeV op.toNat o = _
  unfold decodeV
  split
  case h_33 => rfl
  all_goals omega

theorem readsNot_reserved_d (op : BitVec 9) (o : BitVec 26) (h : 0x0B ≤ op.toNat) : ReadsNot .d op o := by
  refine readsNot_of_error (e := .reserved) ?_
  show decodeD op.toNat o = _
  unfold decodeD
  split
  case h_12 => rfl
  all_goals omega

-- EN syllables (R104, R118, R121)

section
variable (e : En)

theorem reads_tables (h : e.idx.toNat < 4) : Reads .m 1 (packEn e) (.mgo e) ∧ Reads .m 2 (packEn e) (.mma e) ∧
    Reads .m 3 (packEn e) (.mzero e) ∧ Reads .m 4 (packEn e) (.mwb e) :=
  have hi : e.mnOk = true := decide_eq_true h
  ⟨reads_own rfl hi, reads_own rfl hi, reads_own rfl hi, reads_own rfl hi⟩

theorem readsNot_tables (h : 4 ≤ e.idx.toNat) :
    ReadsNot .m 1 (packEn e) ∧ ReadsNot .m 2 (packEn e) ∧ ReadsNot .m 3 (packEn e) ∧ ReadsNot .m 4 (packEn e) :=
  have hi : e.mnOk = false := decide_eq_false (Nat.not_lt.mpr h)
  ⟨readsNot_of_word (i := .mgo e) rfl hi rfl rfl, readsNot_of_word (i := .mma e) rfl hi rfl rfl,
    readsNot_of_word (i := .mzero e) rfl hi rfl rfl, readsNot_of_word (i := .mwb e) rfl hi rfl rfl⟩

theorem reads_drover (h : e.idx.toNat < 32) : Reads .d 1 (packEn e) (.dcopy e) ∧ Reads .d 2 (packEn e) (.dgather e) ∧
    Reads .d 3 (packEn e) (.dscatter e) ∧ Reads .d 4 (packEn e) (.dfill e) ∧ Reads .d 5 (packEn e) (.dput e) ∧
    Reads .d 6 (packEn e) (.dget e) ∧ Reads .d 7 (packEn e) (.dputadd e) ∧ Reads .d 8 (packEn e) (.damo e) ∧
    Reads .d 9 (packEn e) (.dtab e) :=
  have hi : e.ddOk = true := decide_eq_true h
  ⟨reads_own rfl hi, reads_own rfl hi, reads_own rfl hi, reads_own rfl hi, reads_own rfl hi, reads_own rfl hi, reads_own rfl hi,
    reads_own rfl hi, reads_own rfl hi⟩

theorem reads_dfence (h : e.idx.toNat < 32) (hr : e.rep = 0) (hs : e.step = 0) : Reads .d 10 (packEn e) (.dfence e) := by
  refine reads_of_word rfl ?_ rfl rfl
  show (decide (e.idx.toNat < 32) && e.rep == 0 && e.step == 0) = true
  simp [h, hr, hs]

theorem reads_mpop (h : e.idx.toNat < 8) (hs : e.step = 0) : Reads .m 6 (packEn e) (.mpop e) := by
  refine reads_of_word rfl ?_ rfl rfl
  show (decide (e.idx.toNat < 8) && e.step == 0) = true
  simp [h, hs]

theorem reads_mvwin (hr : e.rep = 0) (hs : e.step = 0) : Reads .m 7 (packEn e) (.mvwin e) := by
  refine reads_of_word rfl ?_ rfl rfl
  show (e.rep == 0 && e.step == 0) = true
  simp [hr, hs]

/-- Every command of slot D names one of 32 descriptors. -/
theorem decodeD_illegal {n : Nat} {o : BitVec 26} (hn : 1 ≤ n) (h : (opEn o).ddOk = false) :
    Answers (fun i => i.wf = false) (decodeD n o) := by
  unfold decodeD
  split
  case h_1 => omega
  case h_12 => exact answers_error _
  case h_11 =>
    refine (answers_ok _).mpr ?_
    show ((opEn o).ddOk && _ && _) = false
    rw [h, Bool.false_and, Bool.false_and]
  all_goals exact (answers_ok _).mpr h

theorem readsNot_drover (h : 32 ≤ e.idx.toNat) (op : BitVec 9) (hop : 1 ≤ op.toNat) : ReadsNot .d op (packEn e) := by
  refine readsNot_of_cell (decodeD_illegal hop ?_) rfl
  rw [(eq_packEn_iff e _).mp rfl]
  exact decide_eq_false (Nat.not_lt.mpr h)

end

-- VR syllables (R120, Tables 5-8, 5-9)

/-- A cell of slot V that holds one instruction, by whether that is legal. -/
theorem cell_of_wf {op : BitVec 9} {o w : BitVec 26} {i : Instr} {ok : Bool} (hs : i.slot = some .v) (hw : i.word = (op.toNat, w))
    (h : o = w) (hi : i.wf = ok) (hk : ∀ k a, i ≠ .kwr k a := by rintro _ _ ⟨⟩) :
    (ok = true → Reads .v op o i) ∧ (ok = false → ReadsNot .v op o) :=
  ⟨fun hok => reads_of_word hs (hi.trans hok) hw h, fun hok => readsNot_of_word hs (hi.trans hok) hw h hk⟩

/-- A cell of slot V that asks for zeros, by whether they are there. -/
theorem cell_of_zeros_eq {op : BitVec 9} {o : BitVec 26} {c ok : Bool} {i j : Instr} (h : decodeRaw .v op.toNat o = onlyIf c j)
    (hj : j = i) (hi : i.wf = true) (hc : c = true ↔ ok = true) :
    (ok = true → Reads .v op o i) ∧ (ok = false → ReadsNot .v op o) := by
  rw [← Bool.not_eq_true]
  exact cell_of_zeros h hj hi hc

section
variable (d a b : BitVec 6) (ty : VTy) (md : BitVec 4)

theorem VTy.ofCode_eq_none {n : Nat} (h : 9 ≤ n) : VTy.ofCode n = none := by
  unfold VTy.ofCode
  split
  case h_10 => rfl
  all_goals omega

/-- A VR cell with a zero function field. -/
theorem cell_plain {op : BitVec 9} (f : BitVec 6 → BitVec 6 → BitVec 6 → Instr)
    (hr : ∀ o, decodeRaw .v op.toNat o = onlyIf (opFn o == 0) (f (opD o) (opA o) (opB o))) (hi : (f d a b).wf = true) :
    Reads .v op (rrr d a b 0) (f d a b) ∧ ∀ fn : BitVec 8, fn ≠ 0 → ReadsNot .v op (rrr d a b fn) := by
  have hcell := fun fn => cell_of_zeros (hr (rrr d a b fn)) (i := f d a b) (by simp) hi (ok := fn = 0) (by simp)
  exact ⟨(hcell 0).1 rfl, fun fn h => (hcell fn).2 h⟩

/-- A reserved type code is read in no cell that holds one. -/
theorem readsNot_vector_type {k : BitVec 4} (hk : 9 ≤ k.toNat) : ∀ op : BitVec 9, op ∈ ([0x03, 0x04, 0x05, 0x06, 0x07, 0x08, 0x09,
    0x0A, 0x0E, 0x0F, 0x10, 0x11, 0x12, 0x13, 0x14, 0x15, 0x18, 0x1A, 0x1B, 0x1C, 0x1D, 0x1E] : List (BitVec 9)) →
      ReadsNot .v op (rrr d a b (md ++ k)) := by
  have hf : VTy.ofCode ((opFn (rrr d a b (md ++ k))).extractLsb' 0 4).toNat = none := by
    rw [low_opFn_rrr]
    exact VTy.ofCode_eq_none hk
  have ho : VTy.ofCode ((rrr d a b (md ++ k)).extractLsb' 0 4).toNat = none := by
    rw [← extract_opFn _ 0 4 (by omega)]
    exact hf
  simp only [← List.forall_iff_forall_mem]
  exact ⟨readsNot_of_none rfl ho, readsNot_of_none rfl ho, readsNot_of_none rfl ho, readsNot_of_none rfl ho, readsNot_of_none rfl ho,
    readsNot_of_none rfl ho, readsNot_of_none rfl ho, readsNot_of_none rfl ho, readsNot_of_none rfl ho, readsNot_of_none rfl ho,
    readsNot_of_none rfl ho, readsNot_of_none rfl hf, readsNot_of_none rfl ho, readsNot_of_none rfl ho, readsNot_of_none rfl ho,
    readsNot_of_none rfl ho, readsNot_of_none rfl ho, readsNot_of_none rfl ho, readsNot_of_none rfl ho, readsNot_of_none rfl hf,
    readsNot_of_none rfl ho, readsNot_of_none rfl hf⟩

theorem readsNot_vcvt_source (p : BitVec 2) {k : BitVec 4} (fn : BitVec 8) (hk : 9 ≤ k.toNat) :
    ReadsNot .v 0x11 (rrr d a (p ++ k) fn) :=
  readsNot_of_none_second rfl (by
    rw [rrr_eq_packR, opB_packR, extract_append_low]
    exact VTy.ofCode_eq_none hk)

theorem vcvt_wf_iff (ts : VTy) (m p : BitVec 3) : (Instr.vcvt ty ts m p d a).wf = true ↔
    ty ≠ ts ∧ p.toNat * min (384 / ts.bytes) (384 / ty.bytes) < max (384 / ts.bytes) (384 / ty.bytes) ∧ m.toNat ≤ 4 ∧
      (m.toNat = 4 → ty.bytes ≤ 2) := by
  have hm : m.toNat = 4 ↔ m = 4 := by rw [← BitVec.toNat_inj]; rfl
  have hlanes : decide (p.toNat * Nat.min ts.lanes ty.lanes < Nat.max ts.lanes ty.lanes) = true ↔
      p.toNat * min (384 / ts.bytes) (384 / ty.bytes) < max (384 / ts.bytes) (384 / ty.bytes) := decide_eq_true_iff
  show vcvtOk ty ts m p = true ↔ _
  simp only [vcvtOk, Bool.and_eq_true, Bool.or_eq_true, bne_iff_ne, hlanes, decide_eq_true_iff, and_assoc, hm, ne_eq, imp_iff_not_or]

theorem float_wide_eq : (ty == .f32 || ty == .f64) = decide (ty = .f32 ∨ ty = .f64) := by cases ty <;> rfl

theorem float_narrow_eq : (ty == .f16 || ty == .bf16 || ty == .f32) = decide (ty = .f16 ∨ ty = .bf16 ∨ ty = .f32) := by
  cases ty <;> rfl

theorem fn_eq_f32 : (md ++ BitVec.ofNat 4 ty.code == (6 : BitVec 8)) = (decide (ty = .f32) && md == 0) := by
  revert md
  cases ty <;> decide

/-- VEXP2A and VLOG2A have f32 alone (R346). -/
theorem f32_cell_iff : (opFn (rrr d a b (md ++ BitVec.ofNat 4 ty.code)) == 6 && opB (rrr d a b (md ++ BitVec.ofNat 4 ty.code)) == 0) =
    true ↔ (decide (ty = .f32) && md == 0 && b == 0) = true := by
  rw [rrr_eq_packR, opFn_packR, opB_packR, fn_eq_f32]

theorem cell_vbcast : ((md == 0 && b == 0) = true → Reads .v 0x1C (rrr d a b (md ++ BitVec.ofNat 4 ty.code)) (.vbcast ty d a)) ∧
    ((md == 0 && b == 0) = false → ReadsNot .v 0x1C (rrr d a b (md ++ BitVec.ofNat 4 ty.code))) := by
  constructor
  · intro h
    obtain ⟨hmd, hb⟩ := Bool.and_eq_true_iff.mp h
    rw [beq_iff_eq.mp hmd, beq_iff_eq.mp hb]
    exact reads_own
  · intro h
    refine readsNot_of_withCode_onlyIf rfl ?_
    rwa [high_opFn_rrr, rrr_eq_packR, opB_packR]

end

/-- Settles O2: the listings by evaluation, the engine cells by their words and the limits of their entries. -/
theorem specWordsDecode : Obligations.SpecWordsDecode := by
  unfold Obligations.SpecWordsDecode
  refine ⟨by decide, ⟨readsNot_reserved_m, readsNot_reserved_v, readsNot_reserved_d, fun r st dl idx => ?_⟩,
    fun d a b ty c md hc => ?_⟩
  · let e : En := { idx := idx, rep := r, step := st, dly := dl }
    exact ⟨reads_tables e, reads_own (i := .mscl e), reads_mpop e, reads_mvwin e,
      fun h => reads_of_word (i := .vchain e) rfl (decide_eq_true h) rfl rfl, reads_drover e, reads_dfence e,
      fun h op hop _ => readsNot_drover e h op hop, readsNot_tables e⟩
  · have hty : c = BitVec.ofNat 4 ty.code := by cases ty <;> exact BitVec.eq_of_toNat_eq hc
    subst hty
    refine ⟨⟨cell_plain d a b .vld (fun _ => rfl) rfl, cell_plain d a b .vst (fun _ => rfl) rfl,
        cell_plain d a b .vand (fun _ => rfl) rfl, cell_plain d a b .vor (fun _ => rfl) rfl,
        cell_plain d a b .vxor (fun _ => rfl) rfl, cell_plain d a b .vrng (fun _ => rfl) rfl⟩,
      ⟨cell_of_wf rfl rfl rfl rfl, cell_of_wf rfl rfl rfl rfl, cell_of_wf rfl rfl rfl rfl, cell_of_wf rfl rfl rfl rfl,
        cell_of_wf rfl rfl rfl rfl, cell_of_wf rfl rfl rfl rfl, cell_of_wf rfl rfl rfl rfl, cell_of_wf rfl rfl rfl rfl,
        cell_of_wf rfl rfl rfl rfl, cell_of_wf rfl rfl rfl rfl, cell_of_wf rfl rfl rfl rfl, cell_of_wf rfl rfl rfl rfl,
        cell_of_wf rfl rfl rfl rfl, ?_, ?_, ?_, ?_, ?_, cell_of_wf rfl rfl rfl rfl, cell_of_wf rfl rfl rfl rfl, ?_,
        cell_of_wf rfl rfl rfl rfl, cell_of_wf rfl rfl rfl rfl⟩,
      fun ts cs m p hcs => ?_, fun k p fn => readsNot_vcvt_source d a p fn,
      fun op hop k hk => readsNot_vector_type d a b md hk op hop⟩
    · exact cell_of_wf rfl rfl rfl (congrArg (fun x => x && md == 0 && b == 0) (float_wide_eq ty))
    · exact cell_of_wf rfl rfl rfl (congrArg (fun x => x && md == 0 && b == 0) (float_wide_eq ty))
    · exact cell_of_zeros_eq rfl (by simp) rfl (f32_cell_iff d a b ty md)
    · exact cell_of_zeros_eq rfl (by simp) rfl (f32_cell_iff d a b ty md)
    · exact cell_of_wf rfl rfl rfl (congrArg (fun x => x && decide (md.toNat ≤ 3)) (float_narrow_eq ty))
    · exact cell_vbcast d a b ty md
    · have hts : cs = BitVec.ofNat 4 ts.code := by cases ts <;> exact BitVec.eq_of_toNat_eq hcs
      subst hts
      exact cell_of_word rfl rfl rfl (vcvt_wf_iff d a ty ts m p)

end Sys2Proof.Machine

-- What a memory-keeping change and a trace record leave (R449)

namespace Sys2Proof.Machine

theorem SameMemory.refl (s : State) : SameMemory s s := fun _ _ => rfl

theorem SameMemory.trans {s t u : State} (h : SameMemory s t) (g : SameMemory t u) : SameMemory s u :=
  fun m a => (g m a).trans (h m a)

theorem sameMemory_modCore (s : State) (f : Core → Core) : SameMemory s (s.modCore f) := sameMemory_setTile s _ rfl rfl rfl rfl

/-- What a register reads depends on the register file alone. -/
theorem State.rd_congr {s t : State} (h : t.tile.core.regs = s.tile.core.regs) (r : Reg) : t.rd r = s.rd r := by
  simp only [State.rd, h]

theorem sameMemory_traceTile (s : State) (kind aux time : Nat) (data : W64) (hk : kind ≠ 8) :
    SameMemory s (s.traceTile kind aux time data) := by
  unfold State.traceTile
  simp only [if_neg hk]
  split
  · exact .refl s
  · split
    · exact sameMemory_setTile s _ rfl rfl rfl rfl
    · exact sameMemory_setTile s _ rfl rfl rfl rfl

/-- A change of the current paddock that keeps its tiles keeps the current one. -/
theorem State.modPad_tile (s : State) {f : Paddock → Paddock} (h : (f s.pad).tiles = s.pad.tiles) : (s.modPad f).tile = s.tile := by
  simp [State.tile, h]

/-- A record changes nothing of its tile but what observes it. -/
theorem State.traceTile_tile (s : State) (kind aux time : Nat) (data : W64) :
    ∃ o, (s.traceTile kind aux time data).tile = { s.tile with obs := o } := by
  unfold State.traceTile
  dsimp only
  split
  · exact ⟨_, rfl⟩
  · split
    · exact ⟨_, State.modTile_tile ..⟩
    · have hlost := s.modTile_tile fun t => { t with obs := { s.tile.obs with seq := s.tile.obs.seq + 1, lost := s.tile.obs.lost + 1 } }
      split
      · exact ⟨_, (State.modPad_tile _ rfl).trans hlost⟩
      · exact ⟨_, hlost⟩

end Sys2Proof.Machine

-- Transfers (R147, R191)

namespace Sys2Proof.Machine

/-- A transfer is pending with its link on its way, and nothing else of the registers or of memory has changed. -/
def State.Transfers (s t : State) (target link : W64) (r : Reg) (j : Bool) : Prop :=
  t.tile.core = { s.tile.core.later r link 1 0 with xfer := some { target := target, left := 3, jump := j } } ∧
    SameMemory s t ∧ ∀ k, t.rd k = s.rd k

theorem State.transfers_link (s : State) (target link : W64) (r : Reg) (j : Bool) :
    s.Transfers ((s.later r link 1).transfer target j) target link r j := by
  have hcore : ((s.later r link 1).transfer target j).tile.core =
      { s.tile.core.later r link 1 0 with xfer := some { target := target, left := 3, jump := j } } := by simp [State.transfer]
  refine ⟨hcore, (sameMemory_modCore s _).trans (sameMemory_modCore _ _), State.rd_congr ?_⟩
  rw [hcore]
  exact Core.later_regs ..

/-- A transfer without a link: a late write of s0 is none. -/
theorem State.transfers_plain (s : State) (target : W64) (j : Bool) : s.Transfers (s.transfer target j) target 0 0 j := by
  have hcore : (s.transfer target j).tile.core =
      { s.tile.core.later 0 0 1 0 with xfer := some { target := target, left := 3, jump := j } } := by
    rw [Core.later_zero]
    simp [State.transfer]
  refine ⟨hcore, sameMemory_modCore s _, State.rd_congr ?_⟩
  rw [hcore]
  exact Core.later_regs ..

/-- The record of a CALL or a RET changes nothing of the transfer. -/
theorem State.Transfers.traced {s t : State} {target link : W64} {r : Reg} {j : Bool} (h : s.Transfers t target link r j)
    (kind aux time : Nat) (data : W64) (hk : kind ≠ 8) : s.Transfers (t.traceTile kind aux time data) target link r j := by
  obtain ⟨hcore, hmem, hrd⟩ := h
  obtain ⟨o, ho⟩ := t.traceTile_tile kind aux time data
  refine ⟨by rw [ho]; exact hcore, hmem.trans (sameMemory_traceTile t kind aux time data hk), fun k => ?_⟩
  rw [← hrd k]
  exact State.rd_congr (by rw [ho]) k

theorem State.issue_of_ok {s t : State} {v : Verdict} (h : v = .ok) : s.issue v t = .next t := by rw [h]; rfl

theorem State.issue_of_fault {s t : State} {v : Verdict} {f : FaultInfo} (h : v = .fault f) : s.issue v t = .next (s.takeFault f) := by
  rw [h]; rfl

theorem State.noDelay_ok {s : State} (h : s.inDelay = false) (i : Instr) : s.noDelay i = .ok := by simp [State.noDelay, h]

theorem State.noDelay_fault {s : State} (h : s.inDelay = true) (i : Instr) : s.noDelay i = .fault (illegal .s i) := by
  simp [State.noDelay, h]

/-- Settles O15: the one check of each of the four is that of a delay bundle; its effect is the transfer, with a link or without. -/
theorem transfersTaken : Obligations.TransfersTaken := by
  unfold Obligations.TransfersTaken
  intro s d a off pc goes
  constructor
  · intro hd
    exact ⟨⟨_, State.issue_of_ok (s.noDelay_ok hd _), s.transfers_plain _ _⟩,
      ⟨_, State.issue_of_ok (s.noDelay_ok hd _), (s.transfers_link _ _ _ _).traced 2 0 _ _ (by decide)⟩,
      ⟨_, State.issue_of_ok (s.noDelay_ok hd _), (s.transfers_plain _ _).traced 3 0 _ _ (by decide)⟩,
      ⟨_, State.issue_of_ok (s.noDelay_ok hd _), s.transfers_link _ _ _ _⟩⟩
  · intro hd i hi
    simp only [List.mem_cons, List.not_mem_nil, or_false] at hi
    refine ⟨illegal .s i, rfl, ?_⟩
    rcases hi with rfl | rfl | rfl | rfl <;> exact State.issue_of_fault (s.noDelay_fault hd _)

end Sys2Proof.Machine

-- Instructions that only give a register a value (R134, R135)

namespace Sys2Proof.Machine

/-- What a late write adds to the writes in flight: nothing where it is one of s0 without flags. -/
def writesOf (d : Reg) (v : W64) (lat : Nat) (fl : BitVec 7) : List RegWrite :=
  if d = 0 ∧ fl = 0 then [] else [{ reg := d, val := v, left := lat, flags := fl }]

theorem Core.later_eq (c : Core) (d : Reg) (v : W64) (lat : Nat) (fl : BitVec 7) :
    c.later d v lat fl = { c with pend := c.pend ++ writesOf d v lat fl } := by
  unfold Core.later writesOf
  split
  · simp
  · rfl

theorem mem_writesOf {d : Reg} {v : W64} {lat : Nat} {fl : BitVec 7} {w : RegWrite} (h : w ∈ writesOf d v lat fl) :
    w = { reg := d, val := v, left := lat, flags := fl } ∧ ¬ (d = 0 ∧ fl = 0) := by
  unfold writesOf at h
  split at h
  · exact absurd h List.not_mem_nil
  · next hz => exact ⟨List.mem_singleton.mp h, hz⟩

theorem length_writesOf (d : Reg) (v : W64) (lat : Nat) (fl : BitVec 7) :
    (writesOf d v lat fl).length = if d = 0 ∧ fl = 0 then 0 else 1 := by
  unfold writesOf
  split <;> rfl

/-- The instruction goes on with one late write of d, which sets no flag where it is a plain one. -/
def GivesLate (i : Instr) (s : State) (d : Reg) (plain : Prop) : Prop :=
  ∃ v lat fl, exec i s = .next (s.laterFl d v lat fl) ∧ 1 ≤ lat ∧ (plain → fl = 0)

theorem givesLate_of_later {i : Instr} {s : State} {d : Reg} {v : W64} {lat : Nat} {plain : Prop}
    (h : exec i s = .next (s.later d v lat)) (hl : 1 ≤ lat) : GivesLate i s d plain := ⟨v, lat, 0, h, hl, fun _ => rfl⟩

theorem givesLate_of_laterFl {i : Instr} {s : State} {d : Reg} {v : W64} {lat : Nat} {fl : BitVec 7} {plain : Prop}
    (h : exec i s = .next (s.laterFl d v lat fl)) (hl : 1 ≤ lat) (hp : ¬ plain) : GivesLate i s d plain :=
  ⟨v, lat, fl, h, hl, fun p => absurd p hp⟩

theorem one_le_ffmaLat (t : FpTy) : 1 ≤ ffmaLat t := by cases t <;> decide

/-- Settles O14: each of the instructions goes on with one late write, which the core of the current tile alone keeps. -/
theorem registerResultFrame : Obligations.RegisterResultFrame := by
  unfold Obligations.RegisterResultFrame
  intro s t i whole float d hd h
  have hg : GivesLate i s d (whole = some d) := by
    rcases hd with hd | hd
    · dsimp only [whole] at hd
      cases i
      case add | sub | mul | mulh | mulhn | div | divn | rem | remn | and | or | xor | andn | shl | shr | sar | rotl | min | max
          | minn | maxn | clz | ctz | popc | addi | andi | ori | xori | shli | shri | sari | bset | bclr | movi | cmp | cmpi | sel
          | orhi | bfx | bfxs | bfi | lea | tirr | ringr | mbrd | srng =>
        cases hd
        exact givesLate_of_later rfl (by decide)
      all_goals cases hd
    · dsimp only [float] at hd
      cases i
      case ffma ty md d a b =>
        cases hd
        exact givesLate_of_laterFl rfl (one_le_ffmaLat ty) nofun
      case fadd | fsub | fmul | fmin | fmax | fcmp | fcvt | frsqa | frcpa | fclass | fsgn =>
        cases hd
        exact givesLate_of_laterFl rfl (by decide) nofun
      all_goals cases hd
  obtain ⟨v, lat, fl, hexec, hlat, hplain⟩ := hg
  obtain rfl : s.laterFl d v lat fl = t := Host.Outcome.next.inj (hexec.symm.trans h)
  rw [State.laterFl_tile, Core.later_eq]
  refine ⟨⟨_, rfl⟩, sameMemory_modCore s _, s.laterFl_rd d v lat fl, rfl, rfl, rfl, rfl, rfl, rfl, rfl, rfl, rfl,
    _, rfl, ?_, fun hd => ?_, fun w hw => ?_⟩
  · rw [length_writesOf]; split <;> decide
  · rw [length_writesOf, if_neg fun h => hd h.1]
  · obtain ⟨rfl, hz⟩ := mem_writesOf hw
    exact ⟨rfl, hlat, hplain, fun hd hf => hz ⟨hd, hf⟩⟩

end Sys2Proof.Machine

-- Register writes that land (R135)

namespace Sys2Proof.Machine

/-- The writes of a list that land within n cycles, in landing order: those of one cycle in issue order. -/
def landing (ws : List RegWrite) (n : Nat) : List RegWrite := (List.range n).flatMap fun k => ws.filter (·.left = k + 1)

theorem landing_add (ws : List RegWrite) (m n : Nat) :
    landing ws (m + n) = landing ws m ++ (List.range n).flatMap fun k => ws.filter (·.left = m + k + 1) := by
  simp [landing, List.range_add, List.flatMap_append, List.flatMap_map]

theorem filter_append_none {α : Type} (l : List α) {m : List α} {p : α → Bool} (h : ∀ x ∈ m, ¬ p x = true) :
    (l ++ m).filter p = l.filter p := by rw [List.filter_append, List.filter_eq_nil_iff.mpr h, List.append_nil]

/-- Writes that come later than n cycles are none of those that have landed. -/
theorem landing_append_late (ws : List RegWrite) {vs : List RegWrite} {n : Nat} (h : ∀ w ∈ vs, n < w.left) :
    landing (ws ++ vs) n = landing ws n := by
  refine List.flatMap_congr fun k hk => ?_
  refine filter_append_none ws fun w hw => ?_
  have := h w hw
  have := List.mem_range.mp hk
  simp; omega

theorem filter_landing (ws : List RegWrite) (n : Nat) (p : RegWrite → Bool) : (landing ws n).filter p = landing (ws.filter p) n := by
  rw [landing, List.filter_flatMap]
  refine List.flatMap_congr fun k _ => ?_
  rw [List.filter_filter, List.filter_filter]
  exact List.filter_congr fun w _ => Bool.and_comm ..

/-- A cycle nearer. -/
def RegWrite.tick (w : RegWrite) : RegWrite := { w with left := w.left - 1 }

/-- What a write that lands makes of a register's value. -/
def RegWrite.over (r : Reg) (x : W64) (w : RegWrite) : W64 := if w.reg = r then w.val else x

theorem foldl_over_tick (r : Reg) (x : W64) (ws : List RegWrite) :
    (ws.map RegWrite.tick).foldl (RegWrite.over r) x = ws.foldl (RegWrite.over r) x := List.foldl_map

theorem foldl_over_none {r : Reg} (x : W64) {ws : List RegWrite} (h : ∀ w ∈ ws, w.reg ≠ r) : ws.foldl (RegWrite.over r) x = x := by
  induction ws with
  | nil => rfl
  | cons w ws ih =>
    rw [List.foldl_cons, RegWrite.over, if_neg (h w (by simp)), ih fun w hw => h w (by simp [hw])]

/-- Writes of other registers are of no matter. -/
theorem foldl_over_filter (r : Reg) (x : W64) (ws : List RegWrite) :
    ws.foldl (RegWrite.over r) x = (ws.filter (·.reg = r)).foldl (RegWrite.over r) x := by
  induction ws generalizing x with
  | nil => rfl
  | cons w ws ih =>
    by_cases hw : w.reg = r
    · rw [List.filter_cons_of_pos (by simpa using hw), List.foldl_cons, List.foldl_cons, ih]
    · rw [List.filter_cons_of_neg (by simpa using hw), List.foldl_cons, RegWrite.over, if_neg hw, ih]

/-- After a write of the register its older value is of no matter. -/
theorem foldl_over_some {r : Reg} (x y : W64) {ws : List RegWrite} (h : ∃ w ∈ ws, w.reg = r) :
    ws.foldl (RegWrite.over r) x = ws.foldl (RegWrite.over r) y := by
  induction ws generalizing x y with
  | nil => simp at h
  | cons w ws ih =>
    rw [List.foldl_cons, List.foldl_cons]
    by_cases hw : w.reg = r
    · rw [RegWrite.over, RegWrite.over, if_pos hw, if_pos hw]
    · obtain ⟨v, hv, hr⟩ := h
      exact ih _ _ ⟨v, (List.mem_cons.mp hv).resolve_left fun e => hw (e ▸ hr), hr⟩

theorem rd_foldl_writes {r : Reg} (hr : r ≠ 0) (ws : List RegWrite) (m : Regs) :
    Regs.rd (ws.foldl (fun m w => if w.reg = 0 then m else FMap.put m w.reg.toNat w.val) m) r.toNat =
      ws.foldl (RegWrite.over r) (Regs.rd m r.toNat) := by
  induction ws generalizing m with
  | nil => rfl
  | cons w ws ih =>
    rw [List.foldl_cons, ih, List.foldl_cons]
    congr 1
    unfold RegWrite.over
    by_cases hw : w.reg = r
    · rw [if_pos hw, if_neg (hw ▸ hr), hw, Regs.rd_put_same]
    · rw [if_neg hw]
      split
      · rfl
      · exact Regs.rd_put_ne _ _ _ _ fun h => hw (BitVec.eq_of_toNat_eq h.symm)

theorem Core.landRegs_pend (c : Core) : c.landRegs.pend = (c.pend.filter (1 < ·.left)).map RegWrite.tick := by
  show (c.pend.map RegWrite.tick).filter _ = _
  rw [List.filter_map]
  refine congrArg _ (List.filter_congr fun w _ => ?_)
  rw [Bool.eq_iff_iff]
  simp [RegWrite.tick]; omega

/-- A cycle of landing, for writes that wait a cycle or more. -/
theorem Core.landRegs_rd {r : Reg} (hr : r ≠ 0) (c : Core) (h : ∀ w ∈ c.pend, 1 ≤ w.left) :
    Regs.rd c.landRegs.regs r.toNat = (c.pend.filter (·.left = 1)).foldl (RegWrite.over r) (Regs.rd c.regs r.toNat) := by
  have hnow : (c.pend.map RegWrite.tick).filter (·.left == 0) = (c.pend.filter (·.left = 1)).map RegWrite.tick := by
    rw [List.filter_map]
    refine congrArg _ (List.filter_congr fun w hw => ?_)
    have := h w hw
    rw [Bool.eq_iff_iff]
    simp [RegWrite.tick]; omega
  rw [← foldl_over_tick, ← hnow]
  exact rd_foldl_writes hr _ _

theorem landing_landRegs (c : Core) (n : Nat) : landing c.landRegs.pend n =
    ((List.range n).flatMap fun k => c.pend.filter (·.left = k + 1 + 1)).map RegWrite.tick := by
  rw [landing, List.map_flatMap, Core.landRegs_pend]
  refine List.flatMap_congr fun k _ => ?_
  rw [List.filter_map, List.filter_filter]
  refine congrArg _ (List.filter_congr fun w _ => ?_)
  rw [Bool.eq_iff_iff]
  simp [RegWrite.tick]; omega

/-- A register n cycles on: its value under the writes that have landed on it. -/
theorem Core.landed'_rd {r : Reg} (hr : r ≠ 0) (n : Nat) (c : Core) (h : ∀ w ∈ c.pend, 1 ≤ w.left) :
    Regs.rd (c.landed' n).regs r.toNat = (landing c.pend n).foldl (RegWrite.over r) (Regs.rd c.regs r.toNat) := by
  induction n generalizing c with
  | zero => rfl
  | succ n ih =>
    have hleft : ∀ w ∈ c.landRegs.pend, 1 ≤ w.left := by
      intro w hw
      rw [c.landRegs_pend] at hw
      obtain ⟨x, hx, rfl⟩ := List.mem_map.mp hw
      have := of_decide_eq_true (List.mem_filter.mp hx).2
      exact Nat.le_sub_of_add_le this
    rw [Core.landed', ih c.landRegs hleft, landing_landRegs, foldl_over_tick, c.landRegs_rd hr h, ← List.foldl_append, landing,
      List.range_succ_eq_map, List.flatMap_cons, List.flatMap_map]

theorem State.rdAfter_eq {s : State} (n : Nat) {r : Reg} (hr : r ≠ 0) (h : ∀ w ∈ s.tile.core.pend, 1 ≤ w.left) :
    s.rdAfter n r = (landing s.tile.core.pend n).foldl (RegWrite.over r) (Regs.rd s.tile.core.regs r.toNat) := by
  rw [State.rdAfter, if_neg hr, s.tile.core.landed'_rd hr n h]

section
variable {s : State} {d : Reg} {v : W64} {lat : Nat} {fl : BitVec 7} (hl : 1 ≤ lat) (h : ∀ w ∈ s.tile.core.pend, 1 ≤ w.left)
include hl h

/-- A register with one more write in flight. -/
theorem State.laterFl_rdAfter (n : Nat) {r : Reg} (hr : r ≠ 0) : (s.laterFl d v lat fl).rdAfter n r =
    (landing (s.tile.core.pend ++ writesOf d v lat fl) n).foldl (RegWrite.over r) (Regs.rd s.tile.core.regs r.toNat) := by
  have hcore : (s.laterFl d v lat fl).tile.core = { s.tile.core with pend := s.tile.core.pend ++ writesOf d v lat fl } := by
    rw [State.laterFl_tile, Core.later_eq]
  rw [State.rdAfter_eq n hr, hcore]
  rw [hcore]
  intro w hw
  rcases List.mem_append.mp hw with hw | hw
  · exact h w hw
  · rw [(mem_writesOf hw).1]; exact hl

theorem State.rdAfter_before {n : Nat} (hn : n < lat) (r : Reg) : (s.laterFl d v lat fl).rdAfter n r = s.rdAfter n r := by
  by_cases hr : r = 0
  · rw [State.rdAfter, State.rdAfter, if_pos hr, if_pos hr]
  · rw [State.laterFl_rdAfter hl h n hr, State.rdAfter_eq n hr h, landing_append_late]
    intro w hw
    rw [(mem_writesOf hw).1]; exact hn

theorem State.rdAfter_other (n : Nat) {r : Reg} (hd : r ≠ d) : (s.laterFl d v lat fl).rdAfter n r = s.rdAfter n r := by
  by_cases hr : r = 0
  · rw [State.rdAfter, State.rdAfter, if_pos hr, if_pos hr]
  · have hnone : ∀ w ∈ writesOf d v lat fl, ¬ decide (w.reg = r) = true := fun w hw => by
      rw [(mem_writesOf hw).1]
      simpa using hd.symm
    rw [State.laterFl_rdAfter hl h n hr, State.rdAfter_eq n hr h, foldl_over_filter, filter_landing, filter_append_none _ hnone,
      ← filter_landing, ← foldl_over_filter]

/-- From its cycle on the register holds the write's value, as long as no other write has landed since. -/
theorem State.rdAfter_landed {n : Nat} (hd : d ≠ 0) (hn : lat ≤ n)
    (hlast : ∀ w ∈ s.tile.core.pend, w.reg = d → w.left ≤ lat ∨ n < w.left) : (s.laterFl d v lat fl).rdAfter n d = v := by
  obtain ⟨m, rfl⟩ : ∃ m, lat = m + 1 := ⟨lat - 1, by omega⟩
  obtain ⟨k, rfl⟩ := Nat.exists_eq_add_of_le hn
  have hw : writesOf d v (m + 1) fl = [{ reg := d, val := v, left := m + 1, flags := fl }] := if_neg fun e => hd e.1
  rw [State.laterFl_rdAfter hl h _ hd, landing_add, List.foldl_append, foldl_over_none, landing_add, List.foldl_append, hw]
  · simp [List.filter_append, RegWrite.over]
  · intro w hmem hreg
    obtain ⟨i, hi, hmem⟩ := List.mem_flatMap.mp hmem
    obtain ⟨hmem, hleft⟩ := List.mem_filter.mp hmem
    have hleft := of_decide_eq_true hleft
    have hi := List.mem_range.mp hi
    rcases List.mem_append.mp hmem with hp | hp
    · rcases hlast w hp hreg with hlast | hlast <;> omega
    · have : w.left = m + 1 := by rw [(mem_writesOf hp).1]
      omega

/-- An older write of longer latency overwrites. -/
theorem State.rdAfter_overwritten {n : Nat} (hover : ∃ w ∈ s.tile.core.pend, w.reg = d ∧ lat < w.left ∧ w.left ≤ n) :
    (s.laterFl d v lat fl).rdAfter n d = s.rdAfter n d := by
  by_cases hd : d = 0
  · rw [State.rdAfter, State.rdAfter, if_pos hd, if_pos hd]
  · obtain ⟨w, hw, hreg, hlate, hle⟩ := hover
    obtain ⟨k, rfl⟩ := Nat.exists_eq_add_of_le (hlate.le.trans hle)
    have hrest : ∀ i, (s.tile.core.pend ++ writesOf d v lat fl).filter (·.left = lat + i + 1) =
        s.tile.core.pend.filter (·.left = lat + i + 1) := fun i => filter_append_none _ fun w hw => by
      rw [(mem_writesOf hw).1]
      simp; omega
    rw [State.laterFl_rdAfter hl h _ hd, State.rdAfter_eq _ hd h, landing_add, landing_add, List.foldl_append, List.foldl_append]
    simp only [hrest]
    refine foldl_over_some _ _ ⟨w, List.mem_flatMap.mpr ⟨w.left - lat - 1, List.mem_range.mpr (by omega), ?_⟩, hreg⟩
    exact List.mem_filter.mpr ⟨hw, decide_eq_true (by omega)⟩

end

/-- Settles O13: what a register reads n cycles on is its value under the writes that have landed, in landing order. -/
theorem writesLandAtTheirLatency : Obligations.WritesLandAtTheirLatency := by
  unfold Obligations.WritesLandAtTheirLatency
  intro s d v lat fl hl h t
  exact ⟨fun n r hn => State.rdAfter_before hl h hn r, fun n r hr => State.rdAfter_other hl h n hr,
    fun hd => State.rdAfter_landed hl h hd le_rfl fun w _ _ => le_or_gt w.left lat,
    fun n hd hn hlast => State.rdAfter_landed hl h hd hn hlast, fun n hover => State.rdAfter_overwritten hl h hover,
    fun n => if_pos rfl⟩

end Sys2Proof.Machine

-- Loop levels (R148, R152)

namespace Sys2Proof.Machine

@[simp] theorem Core.level_setLevel_same (c : Core) (l : Nat) (v : Level) : (c.setLevel l v).level l = v := FMap.getD_put_same ..

theorem Core.level_setLevel_ne (c : Core) {l k : Nat} (v : Level) (h : k ≠ l) : (c.setLevel l v).level k = c.level k :=
  FMap.getD_put_ne _ _ _ _ _ h

theorem Core.level_congr {c d : Core} (h : d.levels = c.levels) (l : Nat) : d.level l = c.level l := by simp only [Core.level, h]

/-- A level that is left or finished: inactive, its counts as they are. -/
def Level.off (v : Level) : Level := { v with active := false }

@[simp] theorem Level.off_off (v : Level) : v.off.off = v.off := rfl

/-- Nothing of a core has changed but its loop levels. -/
def Core.OnlyLevels (c d : Core) : Prop := { d with levels := [] } = { c with levels := [] }

theorem Core.onlyLevels_setLevel (c : Core) (l : Nat) (v : Level) : c.OnlyLevels (c.setLevel l v) := rfl

theorem Core.OnlyLevels.trans {c d e : Core} (h : c.OnlyLevels d) (g : d.OnlyLevels e) : c.OnlyLevels e := Eq.trans g h

theorem Core.OnlyLevels.eq {c d : Core} (h : c.OnlyLevels d) : d = { c with levels := d.levels } := by
  cases c
  cases d
  simp only [Core.OnlyLevels, Core.mk.injEq] at h ⊢
  simp only [h, and_self]

/-- The levels of a list that a test names are made inactive. -/
def Core.offWhere (p : Nat → Bool) (ks : List Nat) (c : Core) : Core :=
  ks.foldl (fun c k => if p k then c.setLevel k (c.level k).off else c) c

theorem Core.onlyLevels_offWhere (p : Nat → Bool) (ks : List Nat) (c : Core) : c.OnlyLevels (c.offWhere p ks) := by
  induction ks generalizing c with
  | nil => rfl
  | cons k ks ih =>
    refine Core.OnlyLevels.trans (d := if p k then c.setLevel k (c.level k).off else c) ?_ (ih _)
    split <;> rfl

theorem Core.level_offWhere (p : Nat → Bool) (ks : List Nat) (c : Core) (j : Nat) :
    (c.offWhere p ks).level j = if j ∈ ks ∧ p j = true then (c.level j).off else c.level j := by
  induction ks generalizing c with
  | nil => simp [Core.offWhere]
  | cons k ks ih =>
    show (Core.offWhere p ks (if p k then c.setLevel k (c.level k).off else c)).level j = _
    rw [ih]
    by_cases hj : j = k
    · subst hj
      by_cases hp : p j = true <;> simp [hp]
    · have hstep : (if p k = true then c.setLevel k (c.level k).off else c).level j = c.level j := by
        split
        · exact Core.level_setLevel_ne _ _ hj
        · rfl
      simp [hstep, hj]

theorem Core.dropLevels_eq (c : Core) (l : Nat) : c.dropLevels l = c.offWhere (fun k => decide (l ≤ k)) allLevels := by
  simp only [Core.dropLevels, Core.offWhere, decide_eq_true_eq]
  rfl

theorem mem_allLevels {k : Nat} : k ∈ allLevels ↔ k < 4 := by simp [allLevels]; omega

theorem Core.onlyLevels_dropLevels (c : Core) (l : Nat) : c.OnlyLevels (c.dropLevels l) := by
  rw [Core.dropLevels_eq]; exact c.onlyLevels_offWhere _ _

/-- Levels l to 3 are left. -/
theorem Core.level_dropLevels (c : Core) (l : Nat) {k : Nat} (hk : k < 4) :
    (c.dropLevels l).level k = if l ≤ k then (c.level k).off else c.level k := by
  simp [Core.dropLevels_eq, Core.level_offWhere, mem_allLevels, hk]

end Sys2Proof.Machine

-- LOOP, LOOPI and LBRK (R148, R149, R192, R193)

namespace Sys2Proof.Machine

section
variable {s : State} {l len : Nat}

/-- Where a LOOP of level l may not stand: within a level of its own number or above, or where its body outgrows an outer one (R149). -/
theorem State.loopBad_eq_false_iff : s.loopBad l len = false ↔ ∀ k, k < 4 → (s.tile.core.level k).active = true →
    k < l ∧ s.tile.core.pc.toNat + len ≤ (s.tile.core.level k).last := by
  simp [State.loopBad, ← mem_allLevels, List.any_eq_false]

theorem State.loopCheck_ok (i : Instr) (hd : s.inDelay = false) (hb : s.loopBad l len = false) : s.loopCheck i l len = .ok := by
  simp [State.loopCheck, s.noDelay_ok hd, hb]

theorem State.loopCheck_fault (i : Instr) (h : ¬ (s.inDelay = false ∧ s.loopBad l len = false)) :
    s.loopCheck i l len = .fault (illegal .s i) := by
  cases hd : s.inDelay
  · have hb : s.loopBad l len = true := by simpa [hd] using h
    simp [State.loopCheck, s.noDelay_ok hd, hb]
  · simp [State.loopCheck, s.noDelay_fault hd]

theorem State.lbrkBad_eq_false_iff : s.lbrkBad l len = false ↔ (s.tile.core.level l).active = true ∧
    (s.tile.core.level l).first ≤ s.tile.core.pc.toNat ∧ s.tile.core.pc.toNat < (s.tile.core.level l).last ∧
      len = (s.tile.core.level l).last - s.tile.core.pc.toNat := by
  simp [State.lbrkBad, and_assoc]

theorem State.lbrkCheck_ok (i : Instr) (hd : s.inDelay = false) (hb : s.lbrkBad l len = false) : s.lbrkCheck i l len = .ok := by
  simp [State.lbrkCheck, s.noDelay_ok hd, hb]

theorem State.lbrkCheck_fault (i : Instr) (h : ¬ (s.inDelay = false ∧ s.lbrkBad l len = false)) :
    s.lbrkCheck i l len = .fault (illegal .s i) := by
  cases hd : s.inDelay
  · have hb : s.lbrkBad l len = true := by simpa [hd] using h
    simp [State.lbrkCheck, s.noDelay_ok hd, hb]
  · simp [State.lbrkCheck, s.noDelay_fault hd]

end

/-- A loop that starts with count n: skipped where n is 0, and else live over its body (R148). -/
def State.LoopStarts (s t : State) (l len : Nat) (n : W64) : Prop :=
  let c := s.tile.core
  let i := c.pc.toNat
  OnlyCore s t ∧ (n = 0 → t.tile.core = { c with next := some (c.pc + BitVec.ofNat 64 (len + 1)) }) ∧
    (n ≠ 0 → t.tile.core.level l = { active := true, first := i + 1, last := i + len, cnt := 0, trip := n } ∧
      (∀ k, k ≠ l → t.tile.core.level k = c.level k) ∧ t.tile.core.next = some (c.pc + 1) ∧
      { t.tile.core with levels := [], next := none } = { c with levels := [], next := none })

theorem State.loopStarts_startLoop (s : State) (l len : Nat) (n : W64) : s.LoopStarts (s.startLoop l len n) l len n := by
  unfold State.LoopStarts State.startLoop
  rw [State.modCore_tile]
  refine ⟨⟨_, rfl⟩, fun hn => ?_, fun hn => ?_⟩
  · exact if_pos hn
  · rw [if_neg hn]
    exact ⟨Core.level_setLevel_same .., fun k hk => Core.level_setLevel_ne _ _ hk, rfl, rfl⟩

/-- Settles O17: the checks of the three are those of R149 and R193, and the effect of a LOOP is said once for both its forms. -/
theorem loopInstructions : Obligations.LoopInstructions := by
  unfold Obligations.LoopInstructions
  intro s cnt m len lv c l i may body mayBreak
  have hmay : may ↔ s.inDelay = false ∧ s.loopBad l len.toNat = false := and_congr_right' State.loopBad_eq_false_iff.symm
  have hbreak : mayBreak ↔ s.inDelay = false ∧ s.lbrkBad l len.toNat = false := and_congr_right' State.lbrkBad_eq_false_iff.symm
  rw [hmay, hbreak]
  refine ⟨fun ⟨hd, hb⟩ => ⟨⟨_, State.issue_of_ok (State.loopCheck_ok _ hd hb), s.loopStarts_startLoop _ _ _⟩,
      ⟨_, State.issue_of_ok (State.loopCheck_ok _ hd hb), s.loopStarts_startLoop _ _ _⟩⟩, fun h j hj => ?_,
    fun ⟨hd, hb⟩ => ⟨_, State.issue_of_ok (State.lbrkCheck_ok _ hd hb), ⟨_, rfl⟩, ?_⟩,
    fun h => ⟨_, rfl, State.issue_of_fault (State.lbrkCheck_fault _ h)⟩⟩
  · simp only [List.mem_cons, List.not_mem_nil, or_false] at hj
    refine ⟨illegal .s j, rfl, ?_⟩
    rcases hj with rfl | rfl <;> exact State.issue_of_fault (State.loopCheck_fault _ h)
  · rw [State.modCore_tile]
    exact ⟨rfl, fun k hk => Core.level_dropLevels _ _ hk, congrArg (fun d : Core => { d with next := none })
      (Core.onlyLevels_dropLevels _ _)⟩

end Sys2Proof.Machine

-- The end of a bundle (R146, R150 to R152)

namespace Sys2Proof.Machine

/-- The level is active and ends on bundle i. -/
def Core.endsAt (c : Core) (i l : Nat) : Bool := (c.level l).active && (c.level l).last == i

theorem Core.endsAt_congr {c d : Core} {l : Nat} (h : d.level l = c.level l) (i : Nat) : d.endsAt i l = c.endsAt i l := by
  simp only [Core.endsAt, h]

/-- The level has iterations left. -/
def Level.more (v : Level) : Bool := decide (v.cnt.toNat + 1 < v.trip.toNat)

section
variable {c : Core} {i : Nat}

theorem Core.endTests_cons (l : Nat) (ls : List Nat) : c.endTests i (l :: ls) =
    if c.endsAt i l = false then c.endTests i ls
    else if (c.level l).more = true then (c.setLevel l { c.level l with cnt := (c.level l).cnt + 1 }, some (c.level l).first)
    else (c.setLevel l (c.level l).off).endTests i ls := by
  rw [Core.endTests]
  unfold Core.endsAt Level.more
  cases ha : (c.level l).active <;> simp [Level.off, ha]

/-- Levels that end here without iterations left are finished, and the tests go on outwards. -/
theorem Core.endTests_finished {pre : List Nat} (post : List Nat) (hn : pre.Nodup)
    (h : ∀ k ∈ pre, c.endsAt i k = true → (c.level k).more = false) :
    c.endTests i (pre ++ post) = (c.offWhere (c.endsAt i) pre).endTests i post := by
  suffices hd : ∀ d : Core, (∀ k ∈ pre, d.level k = c.level k) →
      d.endTests i (pre ++ post) = (d.offWhere (c.endsAt i) pre).endTests i post from hd c fun _ _ => rfl
  intro d hd
  induction pre generalizing d with
  | nil => rfl
  | cons k pre ih =>
    obtain ⟨hk, hn⟩ := List.nodup_cons.mp hn
    have hlevel : d.level k = c.level k := hd k (by simp)
    have hends : d.endsAt i k = c.endsAt i k := Core.endsAt_congr hlevel i
    have hih := ih hn fun j hj => h j (by simp [hj])
    rw [List.cons_append, Core.endTests_cons, hends]
    show _ = (Core.offWhere (c.endsAt i) pre (if c.endsAt i k then d.setLevel k (d.level k).off else d)).endTests i post
    cases he : c.endsAt i k
    · rw [if_pos rfl, if_neg Bool.false_ne_true]
      exact hih d fun j hj => hd j (by simp [hj])
    · rw [if_neg Bool.noConfusion, if_pos rfl, hlevel, h k (by simp) he, if_neg Bool.false_ne_true]
      refine hih _ fun j hj => ?_
      rw [Core.level_setLevel_ne _ _ (ne_of_mem_of_not_mem hj hk)]
      exact hd j (by simp [hj])

end

/-- The levels inside level l, innermost first. -/
theorem levels_split {l : Nat} (hl : l < 4) :
    ∃ pre post, [3, 2, 1, 0] = pre ++ l :: post ∧ pre.Nodup ∧ (∀ k, k ∈ pre ↔ l < k ∧ k < 4) := by
  obtain rfl | rfl | rfl | rfl : l = 0 ∨ l = 1 ∨ l = 2 ∨ l = 3 := by omega
  · exact ⟨[3, 2, 1], [], rfl, by decide, fun k => by simp; omega⟩
  · exact ⟨[3, 2], [0], rfl, by decide, fun k => by simp; omega⟩
  · exact ⟨[3], [1, 0], rfl, by decide, fun k => by simp; omega⟩
  · exact ⟨[], [2, 1, 0], rfl, by decide, fun k => by simp; omega⟩

/-- The innermost active level ends on bundle i. -/
def Core.Tested (c : Core) (i : Nat) : Prop :=
  ∃ m, m < 4 ∧ ((c.level m).active = true ∧ (c.level m).last = i) ∧ ∀ k, m < k → k < 4 → (c.level k).active = false

theorem Core.loopEnds_tested {c : Core} {i : Nat} (h : c.Tested i) : c.loopEnds i [3, 2, 1, 0] = c.endTests i [3, 2, 1, 0] := by
  obtain ⟨m, hm, ⟨hact, hlast⟩, hin⟩ := h
  obtain ⟨pre, post, hsplit, -, hpre⟩ := levels_split hm
  have hfind : [3, 2, 1, 0].find? (fun l => (c.level l).active) = some m :=
    List.find?_eq_some_iff_append.mpr ⟨hact, pre, post, hsplit, fun k hk => by simp [hin k ((hpre k).mp hk).1 ((hpre k).mp hk).2]⟩
  rw [Core.loopEnds, hfind]
  exact if_pos hlast

theorem Core.loopEnds_untested {c : Core} {i : Nat} (h : ¬ c.Tested i) : c.loopEnds i [3, 2, 1, 0] = (c, none) := by
  unfold Core.loopEnds
  split
  · next m hm =>
    obtain ⟨hact, pre, post, hsplit, hpre⟩ := List.find?_eq_some_iff_append.mp hm
    refine if_neg fun hlast => h ⟨m, ?_, ⟨hact, hlast⟩, fun k hmk hk => ?_⟩
    · have hm : m ∈ [3, 2, 1, 0] := hsplit ▸ by simp
      simp only [List.mem_cons, List.not_mem_nil, or_false] at hm
      omega
    · have hsorted : (pre ++ m :: post).Pairwise (· > ·) := hsplit ▸ by decide
      have hmem : k ∈ pre ++ m :: post := hsplit ▸ by simp only [List.mem_cons, List.not_mem_nil, or_false]; omega
      obtain ⟨-, hpost, -⟩ := List.pairwise_append.mp hsorted
      rcases List.mem_append.mp hmem with hk | hk
      · simpa using hpre k hk
      · rcases List.mem_cons.mp hk with rfl | hk
        · omega
        · exact absurd ((List.pairwise_cons.mp hpost).1 k hk) (by omega)
  · rfl

theorem Core.onlyLevels_endTests (c : Core) (i : Nat) (ls : List Nat) : c.OnlyLevels (c.endTests i ls).1 := by
  induction ls generalizing c with
  | nil => rfl
  | cons l ls ih =>
    rw [Core.endTests_cons]
    split
    · exact ih c
    · split
      · exact c.onlyLevels_setLevel _ _
      · exact (c.onlyLevels_setLevel _ _).trans (ih _)

theorem Core.onlyLevels_loopEnds (c : Core) (i : Nat) (ls : List Nat) : c.OnlyLevels (c.loopEnds i ls).1 := by
  unfold Core.loopEnds
  split
  · split
    · exact c.onlyLevels_endTests _ _
    · rfl
  · rfl

section
variable {c : Core} {i : Nat}

theorem Core.endsAt_eq_true {l : Nat} : c.endsAt i l = true ↔ (c.level l).active = true ∧ (c.level l).last = i := by
  simp [Core.endsAt]

theorem Level.more_eq_false {v : Level} : v.more = false ↔ ¬ v.cnt.toNat + 1 < v.trip.toNat := by simp [Level.more]

theorem Level.more_eq_true {v : Level} : v.more = true ↔ v.cnt.toNat + 1 < v.trip.toNat := by simp [Level.more]

/-- The innermost level that ends here with iterations left loops back, and those inside it that end here finish (R150). -/
theorem Core.endTests_loopsBack {l : Nat} (hl : l < 4) (he : c.endsAt i l = true) (hm : (c.level l).more = true)
    (hin : ∀ k, l < k → k < 4 → c.endsAt i k = true → (c.level k).more = false) :
    (c.endTests i [3, 2, 1, 0]).2 = some (c.level l).first ∧
      ∀ k, k < 4 → (c.endTests i [3, 2, 1, 0]).1.level k =
        if k = l then { c.level l with cnt := (c.level l).cnt + 1 }
        else if l < k ∧ c.endsAt i k = true then (c.level k).off else c.level k := by
  obtain ⟨pre, post, hsplit, hnodup, hpre⟩ := levels_split hl
  have hlevel : (c.offWhere (c.endsAt i) pre).level l = c.level l := by
    rw [Core.level_offWhere, if_neg fun h => absurd ((hpre l).mp h.1).1 (by omega)]
  have hends : (c.offWhere (c.endsAt i) pre).endsAt i l = true := (Core.endsAt_congr hlevel i).trans he
  rw [hsplit, Core.endTests_finished _ hnodup fun k hk => hin k ((hpre k).mp hk).1 ((hpre k).mp hk).2, Core.endTests_cons, hends,
    hlevel, if_neg Bool.noConfusion, if_pos hm]
  refine ⟨rfl, fun k hk => ?_⟩
  split
  · next hkl => rw [hkl]; exact Core.level_setLevel_same ..
  · next hkl => rw [Core.level_setLevel_ne _ _ hkl, Core.level_offWhere]; simp [hpre, hk]

/-- Where no level that ends here has iterations left, all of them finish (R150). -/
theorem Core.endTests_allFinished (h : ∀ k, k < 4 → c.endsAt i k = true → (c.level k).more = false) :
    c.endTests i [3, 2, 1, 0] = (c.offWhere (c.endsAt i) [3, 2, 1, 0], none) := by
  have hmem : ∀ k ∈ [3, 2, 1, 0], k < 4 := by decide
  exact Core.endTests_finished [] (by decide) fun k hk => h k (hmem k hk)

end

/-- A core that moves on from its bundle: a pending transfer is one bundle nearer to its target. -/
def Core.moved (c : Core) : Core :=
  { c with next := none, waitFrom := none, xfer := c.xfer.map fun x => { x with left := x.left - 1 } }

/-- The loop-end tests say what is next where no transfer reaches its target. -/
theorem Core.advance_tests {c : Core} (hn : c.next = none) (hx : ∀ x, c.xfer = some x → 2 ≤ x.left) :
    c.advance = { (c.moved.loopEnds c.pc.toNat [3, 2, 1, 0]).1 with
      pc := ((c.moved.loopEnds c.pc.toNat [3, 2, 1, 0]).2.map w64).getD (c.pc + 1) } := by
  cases hxfer : c.xfer with
  | none => simp [Core.advance, Core.moved, hxfer, hn]
  | some x =>
    have hleft : x.left ≠ 1 := by have := hx x hxfer; omega
    simp [Core.advance, Core.moved, hxfer, hn, hleft]

theorem Core.advance_arrives {c : Core} {x : Xfer} (hx : c.xfer = some x) (hl : x.left = 1) :
    c.advance = if x.jump = true then
      Core.leaveLoops { c with next := none, waitFrom := none, xfer := none, pc := x.target } x.target
    else { c with next := none, waitFrom := none, xfer := none, pc := x.target } := by
  simp [Core.advance, hx, hl]

theorem Core.advance_xfer {c : Core} (hn : c.next = none) (hx : ∀ x, c.xfer = some x → 2 ≤ x.left) :
    c.advance.xfer = c.xfer.map fun x => { x with left := x.left - 1 } := by
  rw [Core.advance_tests hn hx, (Core.onlyLevels_loopEnds ..).eq]
  rfl

theorem Core.advance_next {c : Core} (hn : c.next = none) (hx : ∀ x, c.xfer = some x → 2 ≤ x.left) : c.advance.next = none := by
  rw [Core.advance_tests hn hx, (Core.onlyLevels_loopEnds ..).eq]
  rfl

/-- Where no level is tested fetch falls through. -/
theorem Core.advance_untested {c : Core} (hn : c.next = none) (hx : ∀ x, c.xfer = some x → 2 ≤ x.left) (ht : ¬ c.Tested c.pc.toNat) :
    c.advance = { c.moved with pc := c.pc + 1 } := by
  have hends : c.moved.loopEnds c.pc.toNat [3, 2, 1, 0] = (c.moved, none) := Core.loopEnds_untested ht
  rw [Core.advance_tests hn hx, hends]
  rfl

theorem Core.not_tested_of_idle {c : Core} (h : ∀ l, l < 4 → (c.level l).active = false) (i : Nat) : ¬ c.Tested i :=
  fun ⟨m, hm, ⟨hact, _⟩, _⟩ => Bool.noConfusion ((h m hm).symm.trans hact)

/-- A level whose body does not hold the target (R152). -/
def Core.misses (c : Core) (target : W64) (k : Nat) : Bool :=
  (c.level k).active && (decide (target.toNat < (c.level k).first) || decide ((c.level k).last < target.toNat))

theorem Core.onlyLevels_leaveLoops (c : Core) (target : W64) : c.OnlyLevels (c.leaveLoops target) := by
  unfold Core.leaveLoops
  dsimp only
  split
  · exact c.onlyLevels_dropLevels _
  · rfl

/-- A taken BR or JR leaves the outermost loop that does not hold its target, and all inside it. -/
theorem Core.level_leaveLoops (c : Core) (target : W64) {l : Nat} (hl : l < 4) :
    (c.leaveLoops target).level l = if ∃ k, k ≤ l ∧ c.misses target k = true then (c.level l).off else c.level l := by
  unfold Core.leaveLoops
  change (match (List.range 4).find? (c.misses target) with | some l => c.dropLevels l | none => c).level l = _
  split
  · next m hm =>
    obtain ⟨hmiss, hm4, hfirst⟩ := List.find?_range_eq_some.mp hm
    rw [Core.level_dropLevels c m hl]
    refine if_congr ⟨fun h => ⟨m, h, hmiss⟩, fun ⟨k, hk, hkm⟩ => ?_⟩ rfl rfl
    by_contra hlm
    exact absurd (hfirst k (by omega)) (by simp [hkm])
  · next hm =>
    rw [List.find?_eq_none] at hm
    rw [if_neg fun ⟨k, hk, hkm⟩ => hm k (mem_allLevels.mpr (by omega)) hkm]

theorem Core.leaveLoops_active (c : Core) (target : W64) {l : Nat} (hl : l < 4) :
    ((c.leaveLoops target).level l).active = true ↔ (c.level l).active = true ∧
      ∀ k, k ≤ l → (c.level k).active = true → (c.level k).first ≤ target.toNat ∧ target.toNat ≤ (c.level k).last := by
  have hmiss : ∀ k, c.misses target k = true ↔ ¬ ((c.level k).active = true →
      (c.level k).first ≤ target.toNat ∧ target.toNat ≤ (c.level k).last) := by
    intro k
    simp [Core.misses]
    omega
  rw [Core.level_leaveLoops c target hl]
  simp only [hmiss]
  split
  · next h =>
    obtain ⟨k, hk, hout⟩ := h
    exact iff_of_false Bool.noConfusion fun ⟨_, hall⟩ => hout (hall k hk)
  · next h =>
    push Not at h
    exact ⟨fun ha => ⟨ha, fun k hk hka => h k hk hka⟩, And.left⟩

theorem Core.leaveLoops_counts (c : Core) (target : W64) {l : Nat} (hl : l < 4) :
    ((c.leaveLoops target).level l).cnt = (c.level l).cnt ∧ ((c.leaveLoops target).level l).trip = (c.level l).trip := by
  rw [Core.level_leaveLoops c target hl]
  split <;> exact ⟨rfl, rfl⟩

/-- Settles O16: a move to a target is `Core.advance_arrives`, and every other move makes the tests of `Core.advance_tests`. -/
theorem endOfABundle : Obligations.EndOfABundle := by
  unfold Obligations.EndOfABundle
  refine ⟨fun c x hx hn => ⟨fun hl => ?_, fun hl => ?_, fun hl hidle => ?_⟩, fun c hn hx => ?_⟩
  · rw [Core.advance_arrives hx hl]
    refine ⟨?_, ?_, fun hj l => ?_, fun hj l hl4 => ?_⟩
    · split
      · rw [(Core.onlyLevels_leaveLoops ..).eq]
      · rfl
    · split
      · rw [(Core.onlyLevels_leaveLoops ..).eq]
      · rfl
    · rw [if_neg (by simp [hj])]
      rfl
    · rw [if_pos hj]
      exact ⟨Core.leaveLoops_active _ _ hl4, Core.leaveLoops_counts _ _ hl4⟩
  · rw [Core.advance_xfer hn fun y hy => by obtain rfl : x = y := by simpa [hx] using hy
                                            exact hl, hx]
    rfl
  · have hl1 : ∀ y, c.xfer = some y → 2 ≤ y.left := by simp [hx, hl]
    have hpc1 := congrArg Core.pc (Core.advance_untested hn hl1 (Core.not_tested_of_idle hidle _))
    have hx1 : c.advance.xfer = some { x with left := 2 } := by rw [Core.advance_xfer hn hl1, hx, Option.map_some, hl]
    have hidle1 : ∀ l, l < 4 → (c.advance.level l).active = false := by
      rw [Core.advance_untested hn hl1 (Core.not_tested_of_idle hidle _)]
      exact hidle
    have hl2 : ∀ y, c.advance.xfer = some y → 2 ≤ y.left := by simp [hx1]
    have hpc2 := congrArg Core.pc (Core.advance_untested (Core.advance_next hn hl1) hl2 (Core.not_tested_of_idle hidle1 _))
    have hx2 : c.advance.advance.xfer = some { x with left := 1 } := by
      rw [Core.advance_xfer (Core.advance_next hn hl1) hl2, hx1]; rfl
    refine ⟨hpc1, by simp [hpc2, hpc1, BitVec.add_assoc], ?_⟩
    rw [Core.advance_arrives hx2 rfl]
    split
    · rw [(Core.onlyLevels_leaveLoops ..).eq]
      exact ⟨rfl, rfl⟩
    · exact ⟨rfl, rfl⟩
  · intro ends tested more
    refine ⟨?_, ?_, ?_, ?_⟩
    · intro l hl ht he hm hin
      have hends : ∀ k, ends k ↔ c.moved.endsAt c.pc.toNat k = true := fun k => Core.endsAt_eq_true.symm
      have hback := Core.endTests_loopsBack (c := c.moved) hl ((hends l).mp he) (Level.more_eq_true.mpr hm)
        fun k hlk hk hek => Level.more_eq_false.mpr (hin k hlk hk ((hends k).mpr hek))
      obtain ⟨hpc, hlevels⟩ := hback
      rw [← Core.loopEnds_tested (c := c.moved) ht] at hpc hlevels
      rw [Core.advance_tests hn hx, hpc]
      refine ⟨rfl, ?_, fun k hlk hk hek => ?_, fun k hlk hk hek => ?_, fun k hkl => ?_⟩
      · exact (hlevels l hl).trans (if_pos rfl)
      · refine (hlevels k hk).trans ?_
        rw [if_neg (by omega), if_pos ⟨hlk, (hends k).mp hek⟩]
        rfl
      · refine (hlevels k hk).trans ?_
        rw [if_neg (by omega), if_neg fun h => hek ((hends k).mpr h.2)]
        rfl
      · refine (hlevels k (by omega)).trans ?_
        rw [if_neg (by omega), if_neg (by omega)]
        rfl
    · intro ht hno
      have hends : ∀ k, ends k ↔ c.moved.endsAt c.pc.toNat k = true := fun k => Core.endsAt_eq_true.symm
      have hall := Core.endTests_allFinished (c := c.moved) (i := c.pc.toNat)
        fun k hk hek => Level.more_eq_false.mpr (hno k hk ((hends k).mpr hek))
      rw [Core.advance_tests hn hx, Core.loopEnds_tested (c := c.moved) ht, hall]
      have hmem : ∀ k, k < 4 → k ∈ [3, 2, 1, 0] := by intro k hk; simp only [List.mem_cons, List.not_mem_nil, or_false]; omega
      refine ⟨rfl, fun l hl he => ?_, fun l hl he => ?_⟩
      · exact (Core.level_offWhere ..).trans (if_pos ⟨hmem l hl, (hends l).mp he⟩)
      · exact (Core.level_offWhere ..).trans (if_neg fun h => he ((hends l).mpr h.2))
    · intro ht
      rw [Core.advance_untested hn hx ht]
      exact ⟨rfl, fun l _ => rfl⟩
    · exact Core.advance_xfer hn hx

end Sys2Proof.Machine

-- What trap entry leaves of its tile (R225, R421)

namespace Sys2Proof.Machine

/-- Nothing of a tile has changed but its control registers. -/
def Tile.OnlyCtl (t u : Tile) : Prop := ∃ ctl, u = { t with ctl := ctl }

theorem Tile.OnlyCtl.refl (t : Tile) : t.OnlyCtl t := ⟨_, rfl⟩

theorem Tile.OnlyCtl.setCtl {t u : Tile} (h : t.OnlyCtl u) (k : Nat) (v : W64) : t.OnlyCtl (u.setCtl k v) := by
  obtain ⟨ctl, rfl⟩ := h
  exact ⟨_, rfl⟩

theorem Tile.settleFrame_eq (t : Tile) :
    ∃ ctl pool fr, t.settleFrame = { t with ctl := ctl, st := { t.st with pool := pool }, core := { t.core with frame := fr } } := by
  unfold Tile.settleFrame
  split
  · split
    · exact ⟨_, _, _, rfl⟩
    · exact ⟨_, _, _, rfl⟩
  · exact ⟨_, _, _, rfl⟩

/-- A discarded run leaves the hold and the sequence frame changed, and no part of the shadow. -/
theorem Tile.seqFrame_eq (t : Tile) : ∃ ctl pool fr h, h.shadow = t.core.hold.shadow ∧
    t.seqFrame = { t with ctl := ctl, st := { t.st with pool := pool }, core := { t.core with frame := fr, hold := h } } := by
  unfold Tile.seqFrame
  split
  · next r hr =>
    split
    · exact ⟨_, _, _, _, rfl, rfl⟩
    · obtain ⟨ctl, pool, fr, h⟩ := Tile.settleFrame_eq
        { t with core := { t.core with hold := .none, frame := some { r with hbmWait := none } } }
      exact ⟨ctl, pool, fr, .none, by rw [hr]; rfl, h⟩
  · exact ⟨_, _, _, _, rfl, rfl⟩

/-- The three registers of one level of the shadow (Table 17-6). -/
def Tile.saveLevel (c : Core) (t : Tile) (l : Nat) : Tile :=
  ((t.setCtl (kShlev + l) (c.level l).shadow).setCtl (kShcnt + l) (c.level l).cnt).setCtl (kShtrip + l) (c.level l).trip

theorem Tile.OnlyCtl.saveLevel {t u : Tile} (h : t.OnlyCtl u) (c : Core) (l : Nat) : t.OnlyCtl (u.saveLevel c l) :=
  ((h.setCtl _ _).setCtl _ _).setCtl _ _

/-- The transfer's part of the shadow (Table 17-6). -/
def Core.xferShadow (c : Core) : W64 × W64 :=
  match c.xfer with
  | some x => (x.target, fld 1 63 ||| fld (x.left % 4) 61)
  | none => (0, 0)

/-- The registers of a pending transfer and of the hold (Table 17-6). -/
def Tile.saveFlow (c : Core) (t : Tile) : Tile :=
  ((t.setCtl kShxfer c.xferShadow.1).setCtl kShxst (c.xferShadow.2 ||| c.hold.shadow.2)).setCtl kShhold c.hold.shadow.1

theorem Tile.OnlyCtl.saveFlow {t u : Tile} (h : t.OnlyCtl u) (c : Core) : t.OnlyCtl (u.saveFlow c) :=
  ((h.setCtl _ _).setCtl _ _).setCtl _ _

/-- The registers of the shadow: level by level, then the transfer and the hold (R422). -/
def Tile.saveShadow (t : Tile) (c : Core) : Tile :=
  ((((t.saveLevel c 0).saveLevel c 1).saveLevel c 2).saveLevel c 3).saveFlow c

theorem Tile.onlyCtl_saveShadow (t : Tile) (c : Core) : t.OnlyCtl (t.saveShadow c) :=
  (((((OnlyCtl.refl t).saveLevel c 0).saveLevel c 1).saveLevel c 2).saveLevel c 3).saveFlow c

/-- The kind of the transfer that is pending. -/
def Core.jumps (c : Core) : Bool :=
  match c.xfer with
  | some x => x.jump
  | none => false

/-- The shadow takes its registers from the core, whose levels, transfer and hold are cleared. -/
theorem Tile.toShadow_eq (t : Tile) : ∃ ls, t.toShadow =
    { t.saveShadow t.core with core := { t.core with levels := ls, shJump := t.core.jumps, xfer := none, hold := .none } } := by
  simp only [Tile.toShadow, Tile.saveShadow, Tile.saveFlow, Tile.saveLevel, Core.jumps, Core.xferShadow, Tile.setCtl, Core.setLevel]
  exact ⟨_, rfl⟩

theorem Tile.record_eq (t : Tile) (f : FaultInfo) (svc padw : Bool) (epc : W64) :
    ∃ ctl, t.record f svc padw epc = { t with ctl := ctl } :=
  ⟨_, rfl⟩

/-- The tile whose shadow trap entry takes: its run discarded and the trap recorded. -/
def Tile.trapped (t : Tile) (f : FaultInfo) (epc : W64) : Tile := t.seqFrame.record f t.seqFrame.core.svc false epc

theorem Tile.trapped_eq (t : Tile) (f : FaultInfo) (epc : W64) : ∃ ctl pool fr h, h.shadow = t.core.hold.shadow ∧
    t.trapped f epc = { t with ctl := ctl, st := { t.st with pool := pool }, core := { t.core with frame := fr, hold := h } } := by
  obtain ⟨ctl, pool, fr, h, hhold, hseq⟩ := t.seqFrame_eq
  obtain ⟨ctl1, hrec⟩ := t.seqFrame.record_eq f t.seqFrame.core.svc false epc
  refine ⟨ctl1, pool, fr, h, hhold, ?_⟩
  rw [Tile.trapped, hrec, hseq]

/-- Trap entry changes of its tile the control registers, the bytes of a discarded run's frame, and these fields of the core. -/
theorem Tile.enterTrap_eq (t : Tile) (f : FaultInfo) (epc : W64) : ∃ pool fr ls pc, t.enterTrap f epc =
    { t with ctl := ((t.trapped f epc).saveShadow (t.trapped f epc).core).ctl, st := { t.st with pool := pool }, core := { t.core with
        frame := fr, levels := ls, shJump := t.core.jumps, xfer := none, hold := .none, ppriv := t.core.priv, priv := true,
        waitFrom := none, aligning := false, entering := true, next := none, held := t.core.held ++ t.core.waiting, waiting := [],
        trapAfter := none, pc := pc } } := by
  obtain ⟨ctl, pool, fr, h, -, htrapped⟩ := t.trapped_eq f epc
  obtain ⟨ctl2, hsave⟩ := (t.trapped f epc).onlyCtl_saveShadow (t.trapped f epc).core
  obtain ⟨ls, hshadow⟩ := (t.trapped f epc).toShadow_eq
  refine ⟨pool, fr, ls, BitVec.ofNat 64 (bits (Regs.rd ctl2 kTvec) 21 0 / 24), ?_⟩
  have hctl : ((t.trapped f epc).saveShadow (t.trapped f epc).core).ctl = ctl2 := congrArg Tile.ctl hsave
  unfold Tile.enterTrap
  dsimp only
  rw [← Tile.trapped, hctl, hshadow, hsave, htrapped]
  rfl

end Sys2Proof.Machine

-- Words made of fields (17.7)

namespace Sys2Proof.Machine

theorem bits_or (v w : W64) (hi lo : Nat) : bits (v ||| w) hi lo = bits v hi lo ||| bits w hi lo := by
  simp only [bits, BitVec.toNat_or, ← Nat.shiftRight_eq_div_pow, Nat.shiftRight_or_distrib, Nat.or_mod_two_pow]

theorem bit_or (v w : W64) (n : Nat) : bit (v ||| w) n = (bit v n || bit w n) := BitVec.getLsbD_or

/-- A word below a field has nothing in it. -/
theorem bits_of_lt {v : W64} {lo : Nat} (hi : Nat) (h : v.toNat < 2 ^ lo) : bits v hi lo = 0 := by
  rw [bits, Nat.div_eq_of_lt h, Nat.zero_mod]

theorem bit_of_lt {v : W64} {n : Nat} (h : v.toNat < 2 ^ n) : bit v n = false := Nat.testBit_lt_two_pow h

theorem fld_toNat {v lo : Nat} (h : v * 2 ^ lo < 2 ^ 64) : (fld v lo).toNat = v * 2 ^ lo := by
  rw [fld, BitVec.toNat_ofNat, Nat.mod_eq_of_lt h]

/-- What a loop level reads back from the shadow (Table 17-6). -/
theorem Level.shadow_fields {v : Level} (hf : v.first < 2 ^ 13) (hl : v.last < 2 ^ 13) :
    bit v.shadow 63 = v.active ∧ bits v.shadow 12 0 = v.first ∧ bits v.shadow 28 16 = v.last := by
  have hact : bit (fld v.active.toNat 63) 63 = v.active ∧
      bits (fld v.active.toNat 63) 12 0 = 0 ∧ bits (fld v.active.toNat 63) 28 16 = 0 := by
    cases v.active <;> decide
  obtain ⟨ha, ha0, ha16⟩ := hact
  have hlast : (fld v.last 16).toNat = v.last * 2 ^ 16 := fld_toNat (by omega)
  have hfirst : (fld v.first 0).toNat = v.first := by rw [fld_toNat (by omega), Nat.pow_zero, Nat.mul_one]
  rw [Level.shadow, Nat.mod_eq_of_lt hf, Nat.mod_eq_of_lt hl]
  refine ⟨?_, ?_, ?_⟩
  · rw [bit_or, bit_or, ha, bit_of_lt (by omega), bit_of_lt (by omega), Bool.or_false, Bool.or_false]
  · have h0 : bits (fld v.last 16) 12 0 = 0 := by rw [bits, hlast]; omega
    have h1 : bits (fld v.first 0) 12 0 = v.first := by rw [bits, hfirst]; omega
    rw [bits_or, bits_or, ha0, h0, h1, Nat.zero_or, Nat.zero_or]
  · have h0 : bits (fld v.last 16) 28 16 = v.last := by rw [bits, hlast]; omega
    have h1 : bits (fld v.first 0) 28 16 = 0 := by rw [bits, hfirst]; omega
    rw [bits_or, bits_or, ha16, h0, h1, Nat.zero_or, Nat.or_zero]

/-- What is read back of a transfer with one to three bundles to go. -/
theorem Core.xferShadow_fields {c : Core} {x : Xfer} (hx : c.xfer = some x) (hl : x.left = 1 ∨ x.left = 2 ∨ x.left = 3) :
    c.xferShadow.1 = x.target ∧ bit c.xferShadow.2 63 = true ∧ bits c.xferShadow.2 62 61 = x.left := by
  simp only [Core.xferShadow, hx, true_and]
  rcases hl with hl | hl | hl <;> rw [hl] <;> decide

/-- The transfer's part has nothing in the fields of the hold. -/
theorem Core.xferShadow_low (c : Core) :
    bit c.xferShadow.2 60 = false ∧ bits c.xferShadow.2 57 56 = 0 ∧ c.xferShadow.2.setWidth 32 = 0#32 := by
  unfold Core.xferShadow
  split
  · next x _ =>
    have hlow : ∀ n, n < 4 → bit (fld 1 63 ||| fld n 61) 60 = false ∧ bits (fld 1 63 ||| fld n 61) 57 56 = 0 ∧
      (fld 1 63 ||| fld n 61).setWidth 32 = 0#32 := by decide
    exact hlow _ (Nat.mod_lt _ (by decide))
  · decide

theorem Hold.shadow_high_none : bit Hold.none.shadow.2 63 = false ∧ bits Hold.none.shadow.2 62 61 = 0 := by decide

/-- The hold's part has nothing in the fields of the transfer. -/
theorem Hold.shadow_high (h : Hold) : bit h.shadow.2 63 = false ∧ bits h.shadow.2 62 61 = 0 := by
  cases h with
  | fbar n k tok =>
    have htok : (tok.setWidth 64).toNat < 2 ^ 61 := by
      have := tok.isLt
      rw [BitVec.toNat_setWidth]
      omega
    have hk : ∀ n, n < 4 → bit (fld 1 60 ||| fld n 56) 63 = false ∧ bits (fld 1 60 ||| fld n 56) 62 61 = 0 := by decide
    obtain ⟨hbit, hbits⟩ := hk (k % 4) (Nat.mod_lt _ (by decide))
    simp only [Hold.shadow]
    rw [bit_or, bits_or, hbit, hbits, bit_of_lt (by omega), bits_of_lt _ htok]
    decide
  | none => exact Hold.shadow_high_none
  | idle n => exact Hold.shadow_high_none
  | uop r => exact Hold.shadow_high_none

theorem Hold.shadow_fbar {n k : Nat} {tok : BitVec 32} (hk : k < 4) :
    bit (Hold.fbar n k tok).shadow.2 60 = true ∧ bits (Hold.fbar n k tok).shadow.2 57 56 = k ∧
      (Hold.fbar n k tok).shadow.2.setWidth 32 = tok := by
  have htok : (tok.setWidth 64).toNat < 2 ^ 56 := by
    have := tok.isLt
    rw [BitVec.toNat_setWidth]
    omega
  have hfields : ∀ n, n < 4 → bit (fld 1 60 ||| fld n 56) 60 = true ∧ bits (fld 1 60 ||| fld n 56) 57 56 = n ∧
    (fld 1 60 ||| fld n 56).setWidth 32 = 0#32 := by decide
  obtain ⟨hbit, hbits, hlow⟩ := hfields k hk
  simp only [Hold.shadow, Nat.mod_eq_of_lt hk]
  rw [bit_or, bits_or, BitVec.setWidth_or, hbit, hbits, hlow, bit_of_lt (by omega), bits_of_lt _ htok]
  simp

end Sys2Proof.Machine

-- ERET (R201, R425)

namespace Sys2Proof.Machine

theorem Tile.rd_setCtl (t : Tile) (k j : Nat) (v : W64) : Regs.rd (t.setCtl k v).ctl j = if j = k then v else Regs.rd t.ctl j := by
  split
  · next h => rw [h, Tile.setCtl_rd]
  · next h => exact Tile.setCtl_rd_ne _ _ _ _ h

/-- The registers of one level of the shadow. -/
theorem Tile.saveShadow_level (t : Tile) (c : Core) {l : Nat} (hl : l < 4) :
    Regs.rd (t.saveShadow c).ctl (kShlev + l) = (c.level l).shadow ∧ Regs.rd (t.saveShadow c).ctl (kShcnt + l) = (c.level l).cnt ∧
      Regs.rd (t.saveShadow c).ctl (kShtrip + l) = (c.level l).trip := by
  obtain rfl | rfl | rfl | rfl : l = 0 ∨ l = 1 ∨ l = 2 ∨ l = 3 := by omega
  all_goals simp [Tile.saveShadow, Tile.saveLevel, Tile.saveFlow, Tile.rd_setCtl, kShlev, kShcnt, kShtrip, kShxfer, kShxst, kShhold]

theorem Tile.saveShadow_flow (t : Tile) (c : Core) :
    Regs.rd (t.saveShadow c).ctl kShxfer = c.xferShadow.1 ∧ Regs.rd (t.saveShadow c).ctl kShxst = c.xferShadow.2 ||| c.hold.shadow.2 ∧
      Regs.rd (t.saveShadow c).ctl kShhold = c.hold.shadow.1 := by
  simp [Tile.saveShadow, Tile.saveFlow, Tile.rd_setCtl, kShxfer, kShxst, kShhold]

/-- The shadow leaves the trap record as it is. -/
theorem Tile.saveShadow_tepc (t : Tile) (c : Core) : Regs.rd (t.saveShadow c).ctl kTepc = Regs.rd t.ctl kTepc := by
  simp [Tile.saveShadow, Tile.saveLevel, Tile.saveFlow, Tile.rd_setCtl, kTepc, kShlev, kShcnt, kShtrip, kShxfer, kShxst, kShhold]

/-- A level as the shadow stands (Table 17-6). -/
def Tile.shadowLevel (t : Tile) (l : Nat) : Level :=
  { active := bit (Regs.rd t.ctl (kShlev + l)) 63, first := bits (Regs.rd t.ctl (kShlev + l)) 12 0,
    last := bits (Regs.rd t.ctl (kShlev + l)) 28 16, cnt := Regs.rd t.ctl (kShcnt + l), trip := Regs.rd t.ctl (kShtrip + l) }

/-- What is next on a return: the bundle of tepc, or the transfer's target when no delay bundle is left (R425). -/
def Tile.returnPc (t : Tile) : W64 :=
  if bit (Regs.rd t.ctl kShxst) 63 = true ∧ bits (Regs.rd t.ctl kShxst) 62 61 = 0 then Regs.rd t.ctl kShxfer
  else BitVec.ofNat 64 ((Regs.rd t.ctl kTepc).toNat / 24)

/-- The transfer a return restores, the bundle of the ERET counted (R425). -/
def Tile.returnXfer (t : Tile) : Option Xfer :=
  if bit (Regs.rd t.ctl kShxst) 63 = true ∧ bits (Regs.rd t.ctl kShxst) 62 61 ≠ 0 then
    some { target := Regs.rd t.ctl kShxfer, left := bits (Regs.rd t.ctl kShxst) 62 61 + 1, jump := t.core.shJump }
  else none

/-- A return changes nothing but the core, and of it the levels, the privilege, the hold, what is next and the transfer. -/
theorem Tile.leaveTrap_eq (t : Tile) : ∃ ls, t.leaveTrap = { t with core := { t.core with
    levels := ls, priv := t.core.ppriv, hold := t.shadowHold, next := some t.returnPc, xfer := t.returnXfer } } := by
  simp only [Tile.leaveTrap, Tile.returnPc, Tile.returnXfer, Tile.unshadowLevel, Tile.shadowHold, Core.setLevel, Bool.and_eq_true,
    beq_iff_eq, bne_iff_ne]
  exact ⟨_, rfl⟩

theorem Tile.leaveTrap_level (t : Tile) {l : Nat} (hl : l < 4) : t.leaveTrap.core.level l = t.shadowLevel l := by
  have hlevels : t.leaveTrap.core.levels = ((((t.core.setLevel 0 (t.shadowLevel 0)).setLevel 1 (t.shadowLevel 1)).setLevel 2
    (t.shadowLevel 2)).setLevel 3 (t.shadowLevel 3)).levels := rfl
  rw [Core.level_congr hlevels]
  obtain rfl | rfl | rfl | rfl : l = 0 ∨ l = 1 ∨ l = 2 ∨ l = 3 := by omega
  all_goals simp [Core.level_setLevel_ne]

/-- A bundle after which something other than the next in order comes: it does, and a pending transfer is one bundle nearer. -/
theorem Core.advance_next_some {c : Core} {n : W64} (hn : c.next = some n) (hx : ∀ x, c.xfer = some x → x.left ≠ 1) :
    c.advance = { c.moved with pc := n } := by
  cases hxfer : c.xfer with
  | none => simp [Core.advance, Core.moved, hxfer, hn]
  | some x => simp [Core.advance, Core.moved, hxfer, hn, hx x hxfer]

/-- The bundle of a return: its move goes to what the return names. -/
theorem Tile.returnXfer_left {t : Tile} {x : Xfer} (h : t.returnXfer = some x) : x.left ≠ 1 := by
  unfold Tile.returnXfer at h
  split at h
  · next hleft =>
    obtain rfl := Option.some.inj h
    exact fun h1 => hleft.2 (by simpa using h1)
  · simp at h

theorem Tile.advance_leaveTrap (t : Tile) : t.leaveTrap.core.advance = { t.leaveTrap.core.moved with pc := t.returnPc } := by
  obtain ⟨ls, hleave⟩ := t.leaveTrap_eq
  refine Core.advance_next_some (by rw [hleave]) fun x hx => ?_
  rw [hleave] at hx
  exact Tile.returnXfer_left hx

theorem Core.level_moved (c : Core) (pc : W64) (l : Nat) : Core.level { c.moved with pc := pc } l = c.level l := rfl

/-- What a return restores, as the shadow stands. -/
theorem Tile.leaveTrap_restores (t : Tile) : t.leaveTrap.core.hold = t.shadowHold ∧ t.leaveTrap.core.priv = t.core.ppriv ∧
    t.leaveTrap.core.regs = t.core.regs ∧ t.leaveTrap.core.advance.pc = t.returnPc ∧
    t.leaveTrap.core.advance.xfer = t.returnXfer.map (fun x => { x with left := x.left - 1 }) ∧
    ∀ l, l < 4 → t.leaveTrap.core.advance.level l = t.shadowLevel l := by
  obtain ⟨ls, hleave⟩ := t.leaveTrap_eq
  rw [Tile.advance_leaveTrap]
  refine ⟨by rw [hleave], by rw [hleave], by rw [hleave], rfl, ?_, fun l hl => (Core.level_moved ..).trans (t.leaveTrap_level hl)⟩
  rw [hleave]
  rfl

/-- What trap entry has put into the shadow, and what it keeps of the core. -/
theorem Tile.enterTrap_shadow (t : Tile) (f : FaultInfo) (epc : W64) : let u := t.enterTrap f epc
    (∀ l, l < 4 → Regs.rd u.ctl (kShlev + l) = (t.core.level l).shadow ∧ Regs.rd u.ctl (kShcnt + l) = (t.core.level l).cnt ∧
      Regs.rd u.ctl (kShtrip + l) = (t.core.level l).trip) ∧
    (Regs.rd u.ctl kShxfer = t.core.xferShadow.1 ∧ Regs.rd u.ctl kShxst = t.core.xferShadow.2 ||| t.core.hold.shadow.2 ∧
      Regs.rd u.ctl kShhold = t.core.hold.shadow.1) ∧ Regs.rd u.ctl kTepc = epc ∧ u.core.shJump = t.core.jumps := by
  obtain ⟨_, _, fr, h, hhold, htrapped⟩ := t.trapped_eq f epc
  obtain ⟨_, _, _, _, henter⟩ := t.enterTrap_eq f epc
  have hcore : (t.trapped f epc).core = { t.core with frame := fr, hold := h } := by rw [htrapped]
  have hctl : (t.enterTrap f epc).ctl = ((t.trapped f epc).saveShadow { t.core with frame := fr, hold := h }).ctl := by
    rw [← hcore, henter]
  have hjump : (t.enterTrap f epc).core.shJump = t.core.jumps := by rw [henter]
  have htepc : Regs.rd (t.trapped f epc).ctl kTepc = epc := Tile.setCtl_rd ..
  dsimp only
  rw [hctl, hjump, ← hhold]
  exact ⟨fun l hl => Tile.saveShadow_level _ _ hl, Tile.saveShadow_flow _ _, (Tile.saveShadow_tepc _ _).trans htepc, rfl⟩

/-- The hold that a return finds: the cycles of an FBAR whose advance was not seen are one at least (R422, log 44). -/
def Hold.restored : Hold → Hold
  | .fbar 0 k tok => .fbar 1 k tok
  | .uop _ => .none
  | h => h

theorem Hold.restored_eq (h : Hold) : h.restored = (match h with
    | .fbar 0 k tok => .fbar 1 k tok
    | .uop _ => .none
    | h => h) := by
  rfl

theorem Tile.shadowHold_restored {t : Tile} {h : Hold} {w : W64} (hxst : Regs.rd t.ctl kShxst = w ||| h.shadow.2)
    (hhold : Regs.rd t.ctl kShhold = h.shadow.1) (hw : bit w 60 = false ∧ bits w 57 56 = 0 ∧ w.setWidth 32 = 0#32)
    (hidle : ∀ n, h = .idle n → 0 < n ∧ n < 2 ^ 64) (hfbar : ∀ n k tok, h = .fbar n k tok → n < 2 ^ 64 ∧ k < 4) :
    t.shadowHold = h.restored := by
  obtain ⟨hw60, hw57, hw32⟩ := hw
  unfold Tile.shadowHold
  rw [hxst, hhold]
  cases h with
  | none => rfl
  | uop r => rfl
  | idle n =>
    obtain ⟨hpos, hlt⟩ := hidle n rfl
    have hn : (w64 n).toNat = n := by rw [w64, BitVec.toNat_ofNat, Nat.mod_eq_of_lt hlt]
    have hz : w ||| (0 : W64) = w := BitVec.or_zero
    simp only [Hold.shadow, hn, hz, hw60, Hold.restored, Nat.ne_of_gt hpos, if_false, Bool.false_eq_true]
  | fbar n k tok =>
    obtain ⟨hlt, hk⟩ := hfbar n k tok rfl
    obtain ⟨h60, h57, h32⟩ := Hold.shadow_fbar (n := n) (tok := tok) hk
    have hn : (Hold.fbar n k tok).shadow.1.toNat = Nat.max 1 n := by
      simp only [Hold.shadow, w64, BitVec.toNat_ofNat]
      exact Nat.mod_eq_of_lt (Nat.max_lt.mpr ⟨by decide, hlt⟩)
    have hpos : ¬ Nat.max 1 n = 0 := Nat.ne_of_gt (Nat.lt_of_lt_of_le Nat.zero_lt_one (Nat.le_max_left 1 n))
    dsimp only
    rw [hn, if_neg hpos, bit_or, bits_or, BitVec.setWidth_or, hw60, hw57, hw32, h60, h57, h32, Bool.false_or, if_pos rfl,
      Nat.zero_or, BitVec.zero_or]
    cases n with
    | zero => rfl
    | succ n => simp [Hold.restored]

theorem Tile.shadowLevel_enterTrap {t : Tile} (f : FaultInfo) (epc : W64) {l : Nat} (hl : l < 4)
    (hfirst : (t.core.level l).first < 2 ^ 13) (hlast : (t.core.level l).last < 2 ^ 13) :
    (t.enterTrap f epc).shadowLevel l = t.core.level l := by
  obtain ⟨hlevels, -⟩ := t.enterTrap_shadow f epc
  obtain ⟨hlev, hcnt, htrip⟩ := hlevels l hl
  obtain ⟨hact, hf, hla⟩ := Level.shadow_fields hfirst hlast
  simp only [Tile.shadowLevel, hlev, hcnt, htrip, hact, hf, hla]

/-- A return after entry finds the transfer that was pending, the bundle of the ERET counted, and its bundle next. -/
theorem Tile.return_enterTrap {t : Tile} (f : FaultInfo) (hpc : t.core.pc.toNat ≤ 5460)
    (hx : ∀ x, t.core.xfer = some x → x.left = 1 ∨ x.left = 2 ∨ x.left = 3) :
    (t.enterTrap f (24 * t.core.pc)).returnPc = t.core.pc ∧
      (t.enterTrap f (24 * t.core.pc)).returnXfer = t.core.xfer.map fun x => { x with left := x.left + 1 } := by
  obtain ⟨-, ⟨hxfer, hxst, -⟩, htepc, hjump⟩ := t.enterTrap_shadow f (24 * t.core.pc)
  have hepc : (24 * t.core.pc).toNat / 24 = t.core.pc.toNat := by
    have h24 : (24 : W64).toNat = 24 := by decide
    rw [BitVec.toNat_mul, h24, Nat.mod_eq_of_lt (by omega), Nat.mul_div_cancel_left _ (by decide)]
  obtain ⟨h63, h62⟩ := t.core.hold.shadow_high
  unfold Tile.returnPc Tile.returnXfer
  rw [hxfer, hxst, htepc, hjump, hepc, bit_or, bits_or, h63, h62, Bool.or_false, Nat.or_zero]
  cases hxf : t.core.xfer with
  | none =>
    have hzero : bit t.core.xferShadow.2 63 = false := by
      rw [Core.xferShadow, hxf]
      decide
    simp [hzero]
  | some x =>
    obtain ⟨htarget, hbit, hleft⟩ := Core.xferShadow_fields hxf (hx x hxf)
    have hpos : x.left ≠ 0 := by have := hx x hxf; omega
    simp [hbit, hleft, hpos, htarget, Core.jumps, hxf]

/-- The tile after an ERET that returns. -/
def Tile.eret (t : Tile) : Tile :=
  { t.leaveTrap.resumeRuns with core := { t.leaveTrap.resumeRuns.core with svc := false, returned := true } }

theorem State.execEret_returns {s : State} (hk : s.inK = true) (hd : s.inDelay = false) (he : (s.ctl kTepc).toNat % 24 = 0) :
    exec .eret s = .next (s.modTile Tile.eret) :=
  State.issue_of_ok (by simp [State.eretCheck, hk, he, s.noDelay_ok hd, failIf, Verdict.or])

theorem Tile.eret_eq (t : Tile) : ∃ ls, t.leaveTrap.core.levels = ls ∧ t.eret = { t.resumeRuns with core := { t.core with
    levels := ls, priv := t.core.ppriv, hold := t.shadowHold, next := some t.returnPc, xfer := t.returnXfer, svc := false,
    returned := true } } := by
  obtain ⟨ls, hleave⟩ := t.leaveTrap_eq
  exact ⟨ls, by rw [hleave], by rw [Tile.eret, hleave]; rfl⟩

theorem Tile.eret_level (t : Tile) {l : Nat} (hl : l < 4) : t.eret.core.level l = t.shadowLevel l := by
  obtain ⟨ls, hls, heq⟩ := t.eret_eq
  rw [← t.leaveTrap_level hl]
  exact Core.level_congr (by rw [heq, hls]) l

/-- What an ERET restores, as the shadow stands. -/
theorem Tile.eret_restores (t : Tile) : t.eret.core.hold = t.shadowHold ∧ t.eret.core.priv = t.core.ppriv ∧
    t.eret.core.svc = false ∧ t.eret.core.regs = t.core.regs ∧ t.eret.ctl = t.ctl ∧ t.eret.core.next = some t.returnPc ∧
    t.eret.core.advance.xfer = t.returnXfer.map (fun x => { x with left := x.left - 1 }) := by
  obtain ⟨ls, -, heq⟩ := t.eret_eq
  have hnext : t.eret.core.next = some t.returnPc := by rw [heq]
  have hxfer : t.eret.core.xfer = t.returnXfer := by rw [heq]
  have hadvance := Core.advance_next_some hnext fun x hx => Tile.returnXfer_left (hxfer.symm.trans hx)
  refine ⟨by rw [heq], by rw [heq], rfl, by rw [heq], by rw [heq]; rfl, hnext, ?_⟩
  rw [hadvance, Core.moved, hxfer]

theorem Tile.eret_st (t : Tile) : t.eret.st = t.st := by
  obtain ⟨ls, -, heq⟩ := t.eret_eq
  rw [heq]
  rfl

theorem Tile.eret_runs (t : Tile) : ∀ r ∈ t.eret.dr.runs, r.susp = false := by
  intro r hr
  obtain ⟨q, -, rfl⟩ := List.mem_map.mp hr
  split
  · rfl
  · next h => simpa using h

/-- Settles O21: entry followed by a return reads back each field of the shadow; the ERET as it stands is `Tile.leaveTrap_eq`. -/
theorem trapReturns : Obligations.TrapReturns := by
  unfold Obligations.TrapReturns
  refine ⟨fun t f hpc hlevels hxfer hidle hfbar => ?_, fun s => ?_⟩
  · obtain ⟨_, _, _, _, henter⟩ := t.enterTrap_eq f (24 * t.core.pc)
    obtain ⟨-, ⟨-, hxst, hhold⟩, -, -⟩ := t.enterTrap_shadow f (24 * t.core.pc)
    obtain ⟨hnext, hback⟩ := t.return_enterTrap f hpc hxfer
    obtain ⟨chold, cpriv, cregs, cpc, cxfer, clevel⟩ := (t.enterTrap f (24 * t.core.pc)).leaveTrap_restores
    refine ⟨chold.trans ((Tile.shadowHold_restored hxst hhold t.core.xferShadow_low hidle hfbar).trans (Hold.restored_eq _)),
      cpriv.trans (by rw [henter]), cregs.trans (by rw [henter]), cpc.trans hnext, ?_, fun l hl => ?_⟩
    · rw [cxfer, hback, Option.map_map]
      exact congrFun Option.map_id _
    · obtain ⟨hf, hla⟩ := hlevels l hl
      exact (clevel l hl).trans (Tile.shadowLevel_enterTrap f _ hl hf hla)
  · intro x
    refine ⟨fun hk hd he => ⟨_, State.execEret_returns hk hd he, ?_⟩, fun hk => ?_, fun hk hd => ⟨illegal .s .eret, rfl, ?_⟩,
      fun hk hd he => ?_⟩
    · obtain ⟨hhold, hpriv, hsvc, hregs, hctl, hnext, hxfer⟩ := s.tile.eret_restores
      have hst := s.tile.eret_st
      rw [State.modTile_tile]
      refine ⟨hpriv, hsvc, State.rd_congr (by rw [State.modTile_tile, hregs]), ?_, hctl, fun l hl => ?_, fun h0 => ?_, fun h0 => ?_,
        fun h => ?_, fun h63 h62 => ?_, hnext, s.tile.eret_runs⟩
      · exact sameMemory_setTile s _ (by rw [hst]) (by rw [hst]) (by rw [hst]) (by rw [hst])
      · rw [s.tile.eret_level hl]
        exact ⟨rfl, rfl, rfl, rfl, rfl⟩
      · rw [hhold]
        exact if_pos (congrArg BitVec.toNat h0)
      · rw [hhold]
        exact if_neg fun hz => h0 (BitVec.eq_of_toNat_eq hz)
      · rw [hxfer, Tile.returnXfer, if_neg fun hb => h.elim (fun hf => Bool.noConfusion (hf.symm.trans hb.1)) hb.2]
        rfl
      · rw [hxfer, Tile.returnXfer, if_pos ⟨h63, h62⟩]
        exact ⟨_, rfl, rfl, rfl⟩
    · exact State.issue_of_fault (by simp [State.eretCheck, hk, failIf, Verdict.or])
    · exact State.issue_of_fault (by simp [State.eretCheck, hk, s.noDelay_fault hd, failIf, Verdict.or])
    · exact State.issue_of_fault (by simp [State.eretCheck, hk, s.noDelay_ok hd, failIf, Verdict.or, he])

end Sys2Proof.Machine

-- What a fault leaves of its tile (R417 to R421)

namespace Sys2Proof.Machine

/-- What every fault keeps of its tile: registers, writes on their way, service, mailbox, control store, bindings and synchronisation
objects; and its level too, unless a trap is entered. -/
structure Tile.TrapKeeps (t u : Tile) : Prop where
  regs : u.core.regs = t.core.regs
  late : u.core.late = t.core.late
  svc : u.core.svc = t.core.svc
  mbox : u.mbox = t.mbox
  cstore : u.st.cstore = t.st.cstore
  binds : u.st.binds = t.st.binds
  sync : u.sync = t.sync
  priv : (u.core.priv = t.core.priv ∧ u.core.entering = t.core.entering) ∨ u.core.entering = true

theorem Tile.TrapKeeps.trans {t u v : Tile} (h : t.TrapKeeps u) (g : u.TrapKeeps v) : t.TrapKeeps v where
  regs := g.regs.trans h.regs
  late := g.late.trans h.late
  svc := g.svc.trans h.svc
  mbox := g.mbox.trans h.mbox
  cstore := g.cstore.trans h.cstore
  binds := g.binds.trans h.binds
  sync := g.sync.trans h.sync
  priv := by
    rcases g.priv with ⟨hp, he⟩ | he
    · rw [hp, he]
      exact h.priv
    · exact .inr he

theorem Tile.trapKeeps_enterTrap (t : Tile) (f : FaultInfo) (epc : W64) : t.TrapKeeps (t.enterTrap f epc) := by
  obtain ⟨_, _, _, _, henter⟩ := t.enterTrap_eq f epc
  rw [henter]
  exact ⟨rfl, rfl, rfl, rfl, rfl, rfl, rfl, .inr rfl⟩

theorem Tile.trapKeeps_freezeHold (t : Tile) : t.TrapKeeps t.freezeHold := by
  unfold Tile.freezeHold
  split
  · split
    · exact ⟨rfl, rfl, rfl, rfl, rfl, rfl, rfl, .inl ⟨rfl, rfl⟩⟩
    · obtain ⟨_, _, _, _, -, hseq⟩ := t.seqFrame_eq
      rw [hseq]
      exact ⟨rfl, rfl, rfl, rfl, rfl, rfl, rfl, .inl ⟨rfl, rfl⟩⟩
  · exact ⟨rfl, rfl, rfl, rfl, rfl, rfl, rfl, .inl ⟨rfl, rfl⟩⟩

theorem State.trapKeeps_endedHold (s : State) : s.tile.TrapKeeps s.endedHold.tile := by
  unfold State.endedHold
  split
  · split
    · rw [State.modCore_tile]
      exact ⟨rfl, rfl, rfl, rfl, rfl, rfl, rfl, .inl ⟨rfl, rfl⟩⟩
    · exact ⟨rfl, rfl, rfl, rfl, rfl, rfl, rfl, .inl ⟨rfl, rfl⟩⟩
  · exact ⟨rfl, rfl, rfl, rfl, rfl, rfl, rfl, .inl ⟨rfl, rfl⟩⟩

theorem State.trapKeeps_trapRecord (s : State) : s.tile.TrapKeeps s.trapRecord.tile := by
  obtain ⟨o, ho⟩ := s.traceTile_tile 4 0 s.recordTime (fld (bits (s.ctl kTinfo0) 31 0) 0 ||| fld ((s.ctl kTepc).toNat / 24 % 2 ^ 13) 32)
  rw [State.trapRecord, ho]
  exact ⟨rfl, rfl, rfl, rfl, rfl, rfl, rfl, .inl ⟨rfl, rfl⟩⟩

theorem Tile.trapKeeps_faulted (t : Tile) (f : FaultInfo) (svc : Bool) (epc : W64) :
    t.TrapKeeps { t.record f svc true epc with core := { (t.record f svc true epc).core with faulted := true } } :=
  ⟨rfl, rfl, rfl, rfl, rfl, rfl, rfl, .inl ⟨rfl, rfl⟩⟩

theorem State.tile_free (s : State) (n : Nat) : State.tile { s with free := n } = s.tile := rfl

theorem State.trapKeeps_paddockFault (s : State) (f : FaultInfo) (epc : W64) : s.tile.TrapKeeps (s.paddockFault f epc).tile := by
  simp only [State.paddockFault, State.tile_free]
  rw [State.modPad_tile _ rfl]
  refine Tile.TrapKeeps.trans ?_ (State.trapKeeps_trapRecord _)
  rw [State.modTile_tile]
  exact s.tile.trapKeeps_freezeHold.trans (Tile.trapKeeps_faulted _ f _ epc)

theorem State.trapKeeps_takeFaultAt (s : State) (f : FaultInfo) (epc : W64) : s.tile.TrapKeeps (s.takeFaultAt f epc).tile := by
  unfold State.takeFaultAt
  refine s.trapKeeps_endedHold.trans ?_
  split
  · exact State.trapKeeps_paddockFault _ f epc
  · refine Tile.TrapKeeps.trans ?_ (State.trapKeeps_trapRecord _)
    rw [State.modTile_tile]
    exact Tile.trapKeeps_enterTrap _ f epc

theorem State.trapKeeps_takeFault (s : State) (f : FaultInfo) : s.tile.TrapKeeps (s.takeFault f).tile := s.trapKeeps_takeFaultAt f _

end Sys2Proof.Machine

-- Loads, stores and atomics at issue (R137, R184 to R186, R406)

namespace Sys2Proof.Machine

/-- What an access of n bytes can reach (Table 7-9). -/
def State.Reaches (s : State) (x : W64) (n : Nat) (load : Bool) : Prop :=
  match s.pad.shape.target s.cur.tile x.toNat with
  | .own p => p + n ≤ 0x200000 ∧ (s.inK = true ∨ p + n ≤ s.pad.shape.penBase)
  | .table _ => load = true
  | .caps _ => load = true
  | _ => False

theorem State.poolOk_eq_true {s : State} {p n : Nat} :
    s.poolOk p n = true ↔ p + n ≤ 0x200000 ∧ (s.inK = true ∨ p + n ≤ s.pad.shape.penBase) := by
  rw [State.poolOk, Bool.and_eq_true, Bool.or_eq_true, decide_eq_true_eq, Shape.inWork, decide_eq_true_eq]
  exact Iff.rfl

theorem State.loadOk_eq_true {s : State} {x : W64} {n : Nat} : s.loadOk x.toNat n = true ↔ s.Reaches x n true := by
  unfold State.loadOk State.Reaches
  cases s.pad.shape.target s.cur.tile x.toNat <;> simp [State.poolOk_eq_true]

theorem State.storeOk_eq_true {s : State} {x : W64} {n : Nat} : s.storeOk x.toNat n = true ↔ s.Reaches x n false := by
  unfold State.storeOk State.Reaches
  cases s.pad.shape.target s.cur.tile x.toNat <;> simp [State.poolOk_eq_true]

/-- An access that its address lets through goes in flight for the next cycle, and any other is refused, MISALIGN first. -/
def State.Accesses (s : State) (i : Instr) (x : W64) (n : Nat) (load : Bool) (acc : Acc) : Prop :=
  (x.toNat % n = 0 → s.Reaches x n load →
    exec i s = .next (s.modCore fun c => { c with acc := c.acc ++ [{ acc := acc, ea := x.toNat, left := 1 }] })) ∧
  (x.toNat % n ≠ 0 → exec i s = .next (s.takeFault (sFault .misalign x))) ∧
  (x.toNat % n = 0 → ¬ s.Reaches x n load → exec i s = .next (s.takeFault (sFault .protection x)))

section
variable {s : State} {i : Instr} {x : W64} {n : Nat} {load ok : Bool} {acc : Acc} {v : Verdict}

theorem State.accesses_of_check (hok : ok = true ↔ s.Reaches x n load) (hv : v = s.memCheck x n ok)
    (h : exec i s = s.issue v (s.access acc x.toNat)) : s.Accesses i x n load acc := by
  rw [State.Accesses, h, hv, ← hok]
  refine ⟨fun ha hr => State.issue_of_ok ?_, fun ha => State.issue_of_fault ?_, fun ha hr => State.issue_of_fault ?_⟩
  · simp [State.memCheck, failIf, Verdict.or, ha, hr]
  · simp [State.memCheck, failIf, Verdict.or, ha]
  · simp [State.memCheck, failIf, Verdict.or, ha, hr]

theorem State.noSvc_ok (h : s.tile.core.svc = false) (sl : Slot) (i : Instr) : s.noSvc sl i = .ok := by simp [State.noSvc, h, failIf]

theorem State.noSvc_fault (h : s.tile.core.svc = true) (sl : Slot) (i : Instr) : s.noSvc sl i = .fault (illegal sl i) := by
  simp [State.noSvc, h, failIf]

end

/-- Settles O23: one check stands before every access, `State.memCheck`, and an atomic's stands behind that of service. -/
theorem scalarAccessIssue : Obligations.ScalarAccessIssue := by
  unfold Obligations.ScalarAccessIssue
  intro s w t ft md op o d a b off ea reach goes
  refine ⟨State.accesses_of_check State.loadOk_eq_true rfl rfl, State.accesses_of_check State.loadOk_eq_true rfl rfl,
    State.accesses_of_check State.storeOk_eq_true rfl rfl, State.accesses_of_check State.loadOk_eq_true rfl rfl,
    State.accesses_of_check State.storeOk_eq_true rfl rfl, fun hsvc => ?_, fun hsvc i hi => ?_⟩
  · exact ⟨State.accesses_of_check State.storeOk_eq_true (by rw [State.noSvc_ok hsvc]; rfl) rfl,
      State.accesses_of_check State.storeOk_eq_true (by rw [State.noSvc_ok hsvc]; rfl) rfl,
      State.accesses_of_check State.storeOk_eq_true (by rw [State.noSvc_ok hsvc]; rfl) rfl⟩
  · have hkeeps := (s.trapKeeps_takeFault (illegal .s i)).svc.trans hsvc
    refine ⟨illegal .s i, rfl, rfl, ?_, hkeeps⟩
    simp only [List.mem_cons, List.not_mem_nil, or_false] at hi
    rcases hi with rfl | rfl | rfl <;> exact State.issue_of_fault (by rw [State.noSvc_fault hsvc]; rfl)

end Sys2Proof.Machine

-- KRD, KWR and syncrst (R155, R202, R410)

namespace Sys2Proof.Machine

theorem mem_nsAdd {l : List Nat} {k j : Nat} : j ∈ nsAdd l k ↔ j = k ∨ j ∈ l := by
  induction l with
  | nil => simp [nsAdd]
  | cons x xs ih =>
    unfold nsAdd
    split
    · simp
    · split
      · next h => simp [h]
      · simp [ih, or_left_comm]

theorem uHidden_eq_true {n : Nat} :
    uHidden n = true ↔ n = 0x0C ∨ n = 0x0D ∨ (0x10 ≤ n ∧ n ≤ 0x15) ∨ (0x30 ≤ n ∧ n ≤ 0x39) ∨
    (0x40 ≤ n ∧ n ≤ 0x4F) ∨ n = 0x58 ∨ n = 0x66 ∨ (0x68 ≤ n ∧ n ≤ 0x76) ∨ n = 0x79 := by
  simp only [uHidden, Bool.or_eq_true, beq_iff_eq, decide_eq_true_eq, or_assoc]

section
variable {s : State} {k : Nat}

theorem State.kwrCheck_inK (h : s.inK = true) (k : Nat) : s.kwrCheck k = .ok := by simp [State.kwrCheck, h, failIf]

theorem State.kwrCheck_fault (h : s.inK = false) (hk : k ≠ kFpcsr) : s.kwrCheck k = .fault (sFault .privilege (w64 k)) := by
  simp [State.kwrCheck, h, failIf, hk]

theorem State.krdCheck_ok (h : s.inK = true ∨ ¬ uHidden k = true) : s.krdCheck k = .ok := by
  unfold State.krdCheck failIf
  rcases h with h | h <;> simp [h]

theorem State.krdCheck_fault (h : s.inK = false) (hk : uHidden k = true) : s.krdCheck k = .fault (sFault .privilege (w64 k)) := by
  simp [State.krdCheck, h, failIf, hk]

end

/-- A KWR of register m lands on the next cycle in K, and is refused in U unless it is fpcsr's. -/
def State.Writes (s : State) (i : Instr) (m : Nat) (v : W64) : Prop :=
  (s.inK = true → exec i s = .next (s.modCore fun c => { c with late := c.late ++ [(.ctl m v, 1)] })) ∧
  (s.inK = false → m ≠ 0x18 → exec i s = .next (s.takeFault (sFault .privilege (BitVec.ofNat 64 m))))

theorem State.writes_of_kwr {s : State} {i : Instr} {m : Nat} {v : W64} (h : exec i s = s.issue (s.kwrCheck m) (s.kwr m v)) :
    s.Writes i m v := by
  rw [State.Writes, h]
  exact ⟨fun hk => State.issue_of_ok (State.kwrCheck_inK hk m), fun hk hm => State.issue_of_fault (State.kwrCheck_fault hk hm)⟩

/-- A member's write of its fold's syncrst (R410). -/
def Fold.resync (o : Fold) (tile rtick : Nat) : Fold :=
  if o.members.contains tile then
    if o.members.all (nsAdd o.rewrote tile).contains then { o with rewrote := [], resetAt := some (rtick + o.lat) }
    else { o with rewrote := nsAdd o.rewrote tile }
  else o

theorem Fold.resync_eq (o : Fold) (tile rtick : Nat) : o.resync tile rtick =
    if tile ∉ o.members then o
    else if ∀ m ∈ o.members, m = tile ∨ m ∈ o.rewrote then { o with rewrote := [], resetAt := some (rtick + o.lat) }
    else { o with rewrote := nsAdd o.rewrote tile } := by
  unfold Fold.resync
  by_cases h : tile ∈ o.members <;> simp [h, mem_nsAdd]

theorem State.syncrstFold_folds (s : State) (f g : Nat) : FMap.get? (s.syncrstFold f).pad.folds g =
    (FMap.get? s.pad.folds g).map fun o => if g = f then o.resync s.cur.tile s.pad.rtick else o := by
  rw [State.syncrstFold, State.modPad_pad]
  by_cases hg : g = f
  · simp only [hg, if_true]
    exact FMap.get?_modify_same ..
  · simp only [hg, if_false]
    exact (FMap.get?_modify_ne _ _ _ _ hg).trans (congrFun Option.map_id _).symm

theorem State.syncrstFold_frame (s : State) (f : Nat) :
    s.syncrstFold f = s.modPad fun p => { p with folds := (s.syncrstFold f).pad.folds } := by
  refine State.modPad_congr s (f := fun p => { p with folds := FMap.modify p.folds f (·.resync s.cur.tile p.rtick) }) ?_
  rw [show (s.syncrstFold f).pad.folds = FMap.modify s.pad.folds f (·.resync s.cur.tile s.pad.rtick) from
    congrArg Paddock.folds (s.modPad_pad _)]

/-- Settles O30: every KWR is `State.writes_of_kwr`; what syncrst does to a fold is `Fold.resync`. -/
theorem controlRegisterAccess : Obligations.ControlRegisterAccess := by
  unfold Obligations.ControlRegisterAccess
  intro s d a k w n hidden writes
  have hhidden : hidden ↔ uHidden n = true := uHidden_eq_true.symm
  rw [hhidden]
  refine ⟨fun h => State.issue_of_ok (State.krdCheck_ok h), fun hk h => State.issue_of_fault (State.krdCheck_fault hk h),
    State.writes_of_kwr rfl, State.writes_of_kwr rfl, State.writes_of_kwr rfl, State.writes_of_kwr rfl, State.writes_of_kwr rfl,
    State.writes_of_kwr rfl, State.writes_of_kwr rfl, State.writes_of_kwr rfl, State.writes_of_kwr rfl, fun hk => ?_, fun hk => ?_,
    fun hk => ⟨s.syncrstFold (bits (s.rd a) 7 0), State.issue_of_ok (State.kwrCheck_inK hk _), s.syncrstFold_frame _, fun g => ?_⟩⟩
  · exact State.issue_of_ok (by simp [State.kwrCheck, failIf, kFpcsr])
  · exact State.issue_of_fault (State.kwrCheck_fault hk (by decide))
  · have hf : bits (s.rd a) 7 0 = (s.rd a).toNat % 256 := by simp [bits]
    rw [State.syncrstFold_folds, hf]
    congr 1
    funext o
    by_cases hg : g = (s.rd a).toNat % 256
    · simp only [hg, if_true, Fold.resync_eq, ne_eq, not_true_eq_false, false_or]
    · simp only [hg, if_false, ne_eq, not_false_eq_true, true_or, if_true]

end Sys2Proof.Machine

-- A load of table memory (R137, R184)

namespace Sys2Proof.Machine

/-- Where the bytes are listed in the order of their addresses, a read gives each as it is listed. -/
theorem Mem.read_eq {m : Mem} (hm : List.Pairwise (fun p q : Nat × Byte => p.1 < q.1) m) (a n : Nat) :
    Mem.read m a n = (List.range n).map fun i => Mem.rd m (a + i) := by
  induction n generalizing m a with
  | zero => rfl
  | succ n ih =>
    have hrest : (List.range n).map ((fun i => Mem.rd m (a + i)) ∘ Nat.succ) =
        (List.range n).map fun i => Mem.rd (Mem.above m a) (a + 1 + i) := by
      refine List.map_congr_left fun i _ => ?_
      rw [Mem.rd_above m a _ (by omega)]
      exact congrArg (Mem.rd m) (by omega)
    have hfirst : Mem.rd m (a + 0) = Mem.rd (Mem.above m a) a := (Mem.rd_above m a a (Nat.le_refl a)).symm
    have hp := hm.sublist (Mem.above_sublist m a)
    have hge : ∀ c ∈ Mem.above m a, a ≤ c.1 := fun c hc => Mem.mem_above m a c hm hc
    rw [List.range_succ_eq_map, List.map_cons, List.map_map, hrest, hfirst, Mem.read]
    generalize Mem.above m a = l at hp hge
    cases l with
    | nil => exact congrArg (0 :: ·) (ih .nil (a + 1))
    | cons c l =>
      obtain ⟨hlt, hl⟩ := List.pairwise_cons.mp hp
      dsimp only
      split
      · next hc =>
        have hskip : ∀ i, Mem.rd (c :: l) (a + 1 + i) = Mem.rd l (a + 1 + i) := fun i =>
          Mem.rd_append [c] l _ (by simp; omega)
        have hhere : Mem.rd (c :: l) a = c.2 := by simp [Mem.rd, FMap.getD, FMap.get?, hc]
        simp only [hskip, hhere, ih hl]
      · next hc =>
        have habsent : Mem.rd (c :: l) a = 0 := Mem.rd_absent _ _ fun x hx hxa => by
          rcases List.mem_cons.mp hx with rfl | hx
          · exact hc hxa
          · have hca := hge c (by simp)
            have hcx := hlt x hx
            omega
        rw [habsent, ih hp]

/-- A tile whose table memory lists byte 1 before byte 0, whose value is 7. -/
def unsortedTable : State :=
  let t := { Tile.init with st := { Tile.init.st with tmem := { Tile.init.st.tmem with bytes := [(1, 1), (0, 7)] } } }
  { State.reset with pads := [(0, { Paddock.init with tiles := [(0, t)] })], cur := { pad := 0, tile := 0 } }

/-- A load of byte 0 of table memory into s1. -/
def loadTable : Access := { acc := .load .b1 false 1, ea := 0x400000, left := 0 }

/-- The bytes read are those of a walk up the addresses, which has passed byte 0 when it comes to its entry. -/
theorem unsortedTable_load : (unsortedTable.perform loadTable).tile.core.pend.map (·.val) = [0] := by decide

/-- Refutes O24: the clause of table memory has no premise that its bytes are listed in the order of their addresses (Mem.wf), as that
of the pool has. The byte as listed is 7, and a load, which walks up the list, gives 0. With that premise what a load reads is as
listed (`Mem.read_eq`). -/
theorem not_loadAndStoreCycles : ¬ Obligations.LoadAndStoreCycles := by
  unfold Obligations.LoadAndStoreCycles
  intro h
  obtain ⟨-, hload, -⟩ := h
  obtain ⟨htable, -⟩ := hload unsortedTable 0x400000 0 0 .b1 false 1
  obtain ⟨⟨v, hcore, -, hbits⟩, -⟩ := htable (by decide) (by decide) (by decide)
  have hpend : (unsortedTable.tile.core.later 1 v 3 0).pend.map (·.val) = [v] := rfl
  have hv : v = 0 := List.singleton_inj.mp (hpend.symm.trans ((congrArg (·.pend.map (·.val)) hcore).symm.trans unsortedTable_load))
  have hbit := hbits 0 (by decide)
  rw [hv] at hbit
  exact absurd hbit (by decide)

end Sys2Proof.Machine

-- What a program in U cannot do (R155, R158, R160)

namespace Sys2Proof.Machine

/-- A write on its way that U may make: of fpcsr or of an engine's record. -/
def Late.ofUser (w : Late) : Prop :=
  match w with
  | .ctl k _ => k = 0x18
  | .mbox _ _ => False
  | .cstore _ _ => False
  | .bind _ _ => False
  | _ => True

/-- What an instruction of U that raises no fault leaves of its tile. -/
structure State.Bounded (s t : State) : Prop where
  priv : t.tile.core.priv = s.tile.core.priv
  mbox : t.tile.mbox = s.tile.mbox
  cstore : t.tile.st.cstore = s.tile.st.cstore
  binds : t.tile.st.binds = s.tile.st.binds
  set : t.tile.sync.set = s.tile.sync.set
  ctl : t.tile.ctl = s.tile.ctl
  late : ∃ ws, t.tile.core.late = s.tile.core.late ++ ws ∧ ∀ w ∈ ws, Late.ofUser w.1

/-- What every instruction of U leaves of its tile, a trap included. -/
def State.Confined (s t : State) : Prop :=
  (t.tile.core.priv = true → t.tile.core.entering = true) ∧
    t.tile.mbox = s.tile.mbox ∧ t.tile.st.cstore = s.tile.st.cstore ∧ t.tile.st.binds = s.tile.st.binds ∧
    t.tile.sync.set = s.tile.sync.set ∧ (t.tile.ctl = s.tile.ctl ∨ ∃ f, t = s.takeFault f) ∧
    ∃ ws, t.tile.core.late = s.tile.core.late ++ ws ∧ ∀ w ∈ ws, Late.ofUser w.1

theorem no_writes (c : Core) : ∃ ws, c.late = c.late ++ ws ∧ ∀ w ∈ ws, Late.ofUser w.1 := ⟨[], by simp, by simp⟩

theorem State.Bounded.of_tile {s t : State} (h : t.tile = s.tile) : s.Bounded t := by
  constructor
  all_goals rw [h]
  exact no_writes _

theorem State.Bounded.refl (s : State) : s.Bounded s := .of_tile rfl

theorem State.Bounded.trans {s t u : State} (h : s.Bounded t) (g : t.Bounded u) : s.Bounded u where
  priv := g.priv.trans h.priv
  mbox := g.mbox.trans h.mbox
  cstore := g.cstore.trans h.cstore
  binds := g.binds.trans h.binds
  set := g.set.trans h.set
  ctl := g.ctl.trans h.ctl
  late := by
    obtain ⟨ws, hws, hw⟩ := h.late
    obtain ⟨vs, hvs, hv⟩ := g.late
    exact ⟨ws ++ vs, by rw [hvs, hws, List.append_assoc], fun w hm => (List.mem_append.mp hm).elim (hw w) (hv w)⟩

section
variable {s : State}

/-- A change of the tile that keeps these of its parts. -/
theorem State.bounded_modTile {f : Tile → Tile} (hc : (f s.tile).core = s.tile.core) (hm : (f s.tile).mbox = s.tile.mbox)
    (hs : (f s.tile).st = s.tile.st) (hy : (f s.tile).sync.set = s.tile.sync.set) (hk : (f s.tile).ctl = s.tile.ctl) :
    s.Bounded (s.modTile f) := by
  constructor
  all_goals rw [State.modTile_tile]
  · rw [hc]
  · exact hm
  · rw [hs]
  · rw [hs]
  · exact hy
  · exact hk
  · rw [hc]
    exact no_writes _

theorem State.bounded_modCore {f : Core → Core} (hp : (f s.tile.core).priv = s.tile.core.priv)
    (hl : (f s.tile.core).late = s.tile.core.late) : s.Bounded (s.modCore f) := by
  constructor
  all_goals rw [State.modCore_tile]
  · exact hp
  · rw [hl]
    exact no_writes _

theorem State.bounded_laterFl (s : State) (d : Reg) (v : W64) (lat : Nat) (fl : BitVec 7) : s.Bounded (s.laterFl d v lat fl) :=
  State.bounded_modCore (Core.later_priv ..) (Core.later_late ..)

theorem State.bounded_later (s : State) (d : Reg) (v : W64) (lat : Nat) : s.Bounded (s.later d v lat) := s.bounded_laterFl d v lat 0

theorem State.bounded_lateW {w : Late} (h : w.ofUser) : s.Bounded (s.lateW w) := by
  unfold State.lateW
  constructor
  all_goals rw [State.modCore_tile]
  exact ⟨[(w, 1)], rfl, by simpa using h⟩

theorem State.bounded_access (a : Acc) (ea : Nat) : s.Bounded (s.access a ea) := State.bounded_modCore rfl rfl

theorem State.bounded_modSync {f : Sync → Sync} (h : (f s.tile.sync).set = s.tile.sync.set) : s.Bounded (s.modSync f) :=
  State.bounded_modTile rfl rfl rfl h rfl

theorem State.bounded_modPad {f : Paddock → Paddock} (h : (f s.pad).tiles = s.pad.tiles) : s.Bounded (s.modPad f) :=
  .of_tile (State.modPad_tile s h)

theorem State.bounded_traceTile (kind aux time : Nat) (data : W64) : s.Bounded (s.traceTile kind aux time data) := by
  obtain ⟨o, ho⟩ := s.traceTile_tile kind aux time data
  constructor
  all_goals rw [ho]
  exact no_writes _

theorem State.bounded_transfer (target : W64) (jump : Bool) : s.Bounded (s.transfer target jump) := State.bounded_modCore rfl rfl

theorem State.bounded_startLoop (l len : Nat) (n : W64) : s.Bounded (s.startLoop l len n) := by
  unfold State.startLoop
  refine State.bounded_modCore ?_ ?_
  all_goals split <;> rfl

theorem Core.OnlyLevels.bounded {c d : Core} (h : c.OnlyLevels d) : d.priv = c.priv ∧ d.late = c.late := by
  rw [h.eq]
  exact ⟨rfl, rfl⟩

theorem State.bounded_leaveLevel (l : Nat) (n : Option W64) : s.Bounded (s.modCore fun c => { c.dropLevels l with next := n }) := by
  obtain ⟨hp, hl⟩ := (s.tile.core.onlyLevels_dropLevels l).bounded
  exact State.bounded_modCore hp hl

theorem State.bounded_arrive (f : Nat) : s.Bounded (s.arrive f) := State.bounded_modPad rfl

theorem State.bounded_push (sl : Slot) (i : Instr) : s.Bounded (s.push sl i) := by
  rw [State.push_eq]
  refine State.bounded_modTile ?_ ?_ ?_ ?_ ?_
  all_goals cases sl <;> rfl

theorem State.Bounded.confined {t : State} (h : s.Bounded t) (hu : s.inK = false) : s.Confined t :=
  ⟨fun hp => Bool.noConfusion (hp.symm.trans (h.priv.trans hu)), h.mbox, h.cstore, h.binds, h.set, .inl h.ctl, h.late⟩

theorem State.confined_takeFault (hu : s.inK = false) (f : FaultInfo) : s.Confined (s.takeFault f) := by
  have h := s.trapKeeps_takeFault f
  refine ⟨fun hp => ?_, h.mbox, h.cstore, h.binds, by rw [h.sync], .inr ⟨f, rfl⟩, ?_⟩
  · rcases h.priv with ⟨hk, -⟩ | he
    · exact Bool.noConfusion (hp.symm.trans (hk.trans hu))
    · exact he
  · rw [h.late]
    exact no_writes _

/-- An instruction whose effect, where its checks let it go on, is bounded. -/
theorem State.confined_issue {t u : State} {v : Verdict} (hu : s.inK = false) (h : v = .ok → s.Bounded u)
    (hv : s.issue v u = .next t) : s.Confined t := by
  cases v with
  | ok =>
    obtain rfl := Host.Outcome.next.inj hv
    exact (h rfl).confined hu
  | stall =>
    obtain rfl := Host.Outcome.next.inj hv
    exact State.Bounded.confined (State.bounded_modCore rfl rfl) hu
  | fault f =>
    obtain rfl := Host.Outcome.next.inj hv
    exact State.confined_takeFault hu f

theorem State.confined_next {t u : State} (hu : s.inK = false) (h : s.Bounded u)
    (hv : (.next u : Host.Outcome State Fault Refusal) = .next t) : s.Confined t := by
  obtain rfl := Host.Outcome.next.inj hv
  exact h.confined hu

end

section
variable {s t : State}

theorem Verdict.or_assoc (u v w : Verdict) : (u.or v).or w = u.or (v.or w) := by cases u <;> rfl

/-- A check of K that lets an instruction go on has met K. -/
theorem failIf_inK_ok {f : FaultInfo} (h : failIf (!s.inK) f = .ok) : s.inK = true := by
  by_contra hk
  rw [Bool.not_eq_true] at hk
  simp [failIf, hk] at h

theorem State.kwrCheck_ok_inU {k : Nat} (hu : s.inK = false) (h : s.kwrCheck k = .ok) : k = 0x18 := by
  by_contra hk
  rw [State.kwrCheck_fault hu hk] at h
  exact Verdict.noConfusion h

/-- A KWR goes on in U for fpcsr alone. -/
theorem State.confined_kwr {k : Nat} {v : W64} (hu : s.inK = false) (h : s.issue (s.kwrCheck k) (s.kwr k v) = .next t) : s.Confined t :=
  State.confined_issue hu (fun hv => State.bounded_lateW (w := .ctl k v) (State.kwrCheck_ok_inU hu hv)) h

/-- What only K may do goes on nowhere in U. -/
theorem State.confined_of_K {v w : Verdict} {f : FaultInfo} {u : State} (hu : s.inK = false) (hw : w = (failIf (!s.inK) f).or v)
    (h : s.issue w u = .next t) : s.Confined t :=
  State.confined_issue hu (fun hv => Bool.noConfusion (hu.symm.trans (failIf_inK_ok ((Verdict.or_eq_ok _ _).mp (hw ▸ hv)).1))) h

theorem Sync.take_set (y : Sync) (q n : Nat) : (y.take q n).set = y.set := by
  unfold Sync.take
  split <;> rfl

theorem Sync.signal_set (y : Sync) (q n : Nat) : (y.signal q n).set = y.set := by
  unfold Sync.signal
  split <;> rfl

/-- A SEMSIG goes on in U without SET alone. -/
theorem State.semsigCheck_ok_inU {set : Bool} {i : Instr} {q : Nat} (hu : s.inK = false) (h : s.semsigCheck set i q = .ok) :
    set = false := by
  cases set with
  | false => rfl
  | true =>
    obtain ⟨-, hk⟩ := (Verdict.or_eq_ok _ _).mp h
    obtain ⟨hk, -⟩ := (Verdict.or_eq_ok _ _).mp hk
    exact Bool.noConfusion (hu.symm.trans (failIf_inK_ok hk))

theorem State.bounded_semsig (q amount : Nat) : s.Bounded (s.semsig false q amount) := State.bounded_modSync (Sync.signal_set ..)

theorem State.bounded_take (q amount : Nat) : s.Bounded (s.modSync fun y => y.take q amount) := State.bounded_modSync (Sync.take_set ..)

/-- An engine's syllable goes into its queue, and no more. -/
theorem State.confined_engine {sl : Slot} {i : Instr} (hu : s.inK = false) (hs : i.slot = some sl) (hsl : sl ≠ .s)
    (h : exec i s = .next t) : s.Confined t := by
  cases hn : i.isNop with
  | true =>
    refine State.confined_next hu (.refl s) (Eq.trans ?_ h)
    cases i
    case mnop | vnop | dnop => rfl
    case nop => exact absurd (Option.some.inj hs).symm hsl
    all_goals cases hn
  | false =>
    by_cases hm : ∀ e, i = .mwb e → s.mwbIllegal e = false
    · rw [exec_engine hs hsl hn hm] at h
      exact State.confined_issue hu (fun _ => State.bounded_push sl i) h
    · push Not at hm
      obtain ⟨e, rfl, he⟩ := hm
      have hf : exec (.mwb e) s = .next (s.takeFault (illegal .m (.mwb e))) := if_pos (by simpa using he)
      obtain rfl := Host.Outcome.next.inj (hf.symm.trans h)
      exact State.confined_takeFault hu _

/-- A syllable of slot S. -/
theorem State.confined_scalar {i : Instr} (hu : s.inK = false) (hs : i.slot = some .s) (h : exec i s = .next t) : s.Confined t := by
  cases i
  case nop => exact State.confined_next hu (.refl s) h
  case add | sub | mul | mulh | mulhn | div | divn | rem | remn | and | or | xor | andn | shl | shr | sar | rotl | min | max
      | minn | maxn | clz | ctz | popc | addi | andi | ori | xori | shli | shri | sari | bset | bclr | movi | cmp | cmpi | sel
      | orhi | bfx | bfxs | bfi | lea | tirr | ringr | mbrd | srng =>
    exact State.confined_next hu (State.bounded_later ..) h
  case fadd | fsub | fmul | ffma | fmin | fmax | fcmp | fcvt | frsqa | frcpa | fclass | fsgn =>
    exact State.confined_next hu (State.bounded_laterFl ..) h
  case mcfg | vcfg | dcfg | tirw | fmtw | ringw =>
    refine State.confined_next hu (State.bounded_lateW ?_) h
    exact trivial
  case trap => exact State.confined_next hu (State.bounded_modCore rfl rfl) h
  case fill =>
    refine State.confined_next hu ?_ h
    split
    · exact State.bounded_access ..
    · exact .refl s
  case ld | ldz | st | ldp | stp | spill | amo | amocas | famoadd =>
    exact State.confined_issue hu (fun _ => State.bounded_access ..) h
  case str =>
    refine State.confined_issue hu (fun _ => ?_) h
    split
    · exact State.bounded_modPad rfl
    · exact .refl s
  case br => exact State.confined_issue hu (fun _ => State.bounded_transfer ..) h
  case jr => exact State.confined_issue hu (fun _ => (State.bounded_later ..).trans (State.bounded_transfer ..)) h
  case ret => exact State.confined_issue hu (fun _ => (State.bounded_transfer ..).trans (State.bounded_traceTile ..)) h
  case call =>
    exact State.confined_issue hu
      (fun _ => ((State.bounded_later ..).trans (State.bounded_transfer ..)).trans (State.bounded_traceTile ..)) h
  case loop | loopi => exact State.confined_issue hu (fun _ => State.bounded_startLoop ..) h
  case lbrk => exact State.confined_issue hu (fun _ => State.bounded_leaveLevel ..) h
  case idle | ppt | align | halt | uopn => exact State.confined_issue hu (fun _ => State.bounded_modCore rfl rfl) h
  case semsig set a n q =>
    refine State.confined_issue hu (fun hv => ?_) h
    rw [State.semsigCheck_ok_inU hu hv]
    exact State.bounded_semsig ..
  case semwt => exact State.confined_issue hu (fun _ => State.bounded_take ..) h
  case semwtt =>
    refine State.confined_issue hu (fun _ => ?_) h
    split
    · exact (State.bounded_take ..).trans (State.bounded_later ..)
    · exact State.bounded_later ..
  case semtst | semrd | fwt | fwtt | wrd | krd | caprd => exact State.confined_issue hu (fun _ => State.bounded_later ..) h
  case farv => exact State.confined_issue hu (fun _ => (State.bounded_arrive _).trans (State.bounded_later ..)) h
  case fbar =>
    exact State.confined_issue hu
      (fun _ => ((State.bounded_arrive _).trans (State.bounded_later ..)).trans (State.bounded_modCore rfl rfl)) h
  case wacq => exact State.confined_issue hu (fun _ => .refl s) h
  case kwr | kwrTimer | kwrPoolscope | kwrLosssel | kwrLossval | kwrTrcemit | kwrWdesc | kwrWmap => exact State.confined_kwr hu h
  case msload | msrd => exact State.confined_of_K hu rfl h
  case mbwr | msbind => exact State.confined_of_K hu (Verdict.or_ok _).symm h
  case eret => exact State.confined_of_K hu (Verdict.or_assoc ..) h
  all_goals cases hs

end

/-- Settles O35: an engine's syllable is queued, and each of slot S is bounded where its checks let it go on in U. -/
theorem userModeIsBound : Obligations.UserModeIsBound := by
  unfold Obligations.UserModeIsBound
  intro s t i hs hu h
  obtain ⟨sl, hsl⟩ := Option.isSome_iff_exists.mp hs
  by_cases hS : sl = .s
  · exact State.confined_scalar hu (hS ▸ hsl) h
  · exact State.confined_engine hu hsl hS h

end Sys2Proof.Machine

-- An engine's look at its queue before a start (R142 to R145)

namespace Sys2Proof.Machine

theorem sameMemory_modTile (s : State) {f : Tile → Tile} (h : (f s.tile).st = s.tile.st) : SameMemory s (s.modTile f) :=
  sameMemory_setTile s _ (by rw [h]) (by rw [h]) (by rw [h]) (by rw [h])

/-- A tile's scopes are those of its control registers, whatever else of it changes. -/
theorem Paddock.pageReach_congr {p : Paddock} {x : Tile} {k : Nat} (h : x.ctl = (FMap.getD p.tiles k Tile.init).ctl) (holder a me : Nat) :
    Paddock.pageReach { p with tiles := FMap.put p.tiles k x } holder a me = p.pageReach holder a me := by
  have htile : ∀ j sh off, Tile.granuleScope (FMap.getD (FMap.put p.tiles k x) j Tile.init) sh off =
      Tile.granuleScope (FMap.getD p.tiles j Tile.init) sh off := by
    intro j sh off
    by_cases hj : j = k
    · rw [hj, FMap.getD_put_same, Tile.granuleScope, h, Tile.granuleScope]
    · rw [FMap.getD_put_ne _ _ _ _ _ hj]
  simp only [Paddock.pageReach, htile]

theorem State.outOfScope_setTile {s : State} {x : Tile} (h : x.ctl = s.tile.ctl) (o : Obj) :
    (s.setTile x).outOfScope o = s.outOfScope o := by
  simp only [State.outOfScope, State.setTile_pad, State.setTile_cur, Paddock.outOfScope, Paddock.pageReach_congr h]

@[simp] theorem Tile.setQueue_queue (t : Tile) {sl : Slot} (q : Queue) (h : sl ≠ .s) : (t.setQueue sl q).queue sl = q := by
  cases sl with
  | s => exact absurd rfl h
  | m => rfl
  | v => rfl
  | d => rfl

/-- Everything of a tile but a queue. -/
theorem Tile.setQueue_frame (t : Tile) (sl : Slot) (q : Queue) : (t.setQueue sl q).core = t.core ∧ (t.setQueue sl q).sync = t.sync ∧
    (t.setQueue sl q).dr = t.dr ∧ (t.setQueue sl q).mx = t.mx ∧ (t.setQueue sl q).st = t.st ∧ (t.setQueue sl q).ctl = t.ctl := by
  cases sl <;> exact ⟨rfl, rfl, rfl, rfl, rfl, rfl⟩

/-- An entry without the cycle from which it waits no longer, which is the model's own field (log entry 25). -/
def Entry.plain (e : Entry) : Entry := { e with ready := none }

/-- Two queues of the same entries. -/
def Queue.Same (q r : Queue) : Prop := q.serial = r.serial ∧ q.entries.map Entry.plain = r.entries.map Entry.plain

/-- The entry as an engine finds it on this cycle. -/
def State.seen (s : State) (sl : Slot) (waits : Entry → List Wait) (e : Entry) : Entry :=
  if s.strict then e else { e with ready := s.readyAt sl e (waits e) }

theorem State.seen_plain (s : State) (sl : Slot) (waits : Entry → List Wait) (e : Entry) : (s.seen sl waits e).plain = e.plain := by
  unfold State.seen
  split <;> rfl

/-- A state that differs from s in a queue of the current tile alone, where it has the entries given. -/
structure State.Looks (s : State) (sl : Slot) (es : List Entry) (u : State) : Prop where
  set : ∀ x, u.setTile x = s.setTile x
  tile : u.tile = s.tile.setQueue sl { s.tile.queue sl with entries := es }
  cur : u.cur = s.cur
  rtick : u.pad.rtick = s.pad.rtick
  shape : u.pad.shape = s.pad.shape
  strict : u.strict = s.strict
  scope : ∀ o, u.outOfScope o = s.outOfScope o
  memory : SameMemory s u

theorem Tile.setQueue_self (t : Tile) (sl : Slot) : t.setQueue sl (t.queue sl) = t := by cases sl <;> rfl

/-- The look at the waits of each entry of a queue changes nothing but the field of each that says when it waits no longer. -/
theorem State.looks_watch (s : State) (sl : Slot) (waits : Entry → List Wait) :
    s.Looks sl ((s.tile.queue sl).entries.map (s.seen sl waits)) (s.watch sl waits) := by
  by_cases hs : s.strict = true
  · have hseen : s.seen sl waits = id := funext fun e => if_pos hs
    have hwatch : s.watch sl waits = s := if_pos hs
    rw [hwatch, hseen, List.map_id]
    exact ⟨fun _ => rfl, (s.tile.setQueue_self sl).symm, rfl, rfl, rfl, rfl, fun _ => rfl, .refl s⟩
  · have hseen : s.seen sl waits = fun e => { e with ready := s.readyAt sl e (waits e) } := funext fun e => if_neg hs
    have hwatch : s.watch sl waits = s.setTile (s.tile.setQueue sl
        { s.tile.queue sl with entries := (s.tile.queue sl).entries.map fun e => { e with ready := s.readyAt sl e (waits e) } }) :=
      if_neg hs
    obtain ⟨-, -, -, -, hst, hctl⟩ := s.tile.setQueue_frame sl
      { s.tile.queue sl with entries := (s.tile.queue sl).entries.map fun e => { e with ready := s.readyAt sl e (waits e) } }
    rw [hwatch, hseen]
    refine ⟨fun x => State.setTile_setTile .., State.setTile_tile .., rfl, by rw [State.setTile_pad], by rw [State.setTile_pad],
      ?_, State.outOfScope_setTile hctl, sameMemory_setTile s _ (by rw [hst]) (by rw [hst]) (by rw [hst]) (by rw [hst])⟩
    rw [State.strict, State.setTile_pad, State.strict]

section
variable {s u : State} {sl : Slot} {e : Entry} {es : List Entry}

/-- A head that is due while no run is in progress; in a strict stint no entry behind it is due too (R144). -/
def State.HeadAt (s : State) (q : Queue) (e : Entry) (es : List Entry) : Prop :=
  q.entries = e :: es ∧ q.act = none ∧
    (s.strict = true → e.due = s.pad.rtick ∧ ∀ x ∈ es, x.start ≠ some s.pad.rtick) ∧ (s.strict = false → e.due ≤ s.pad.rtick)

theorem State.isDue_of_headAt {q : Queue} (h : s.HeadAt q e es) : s.isDue e.due = true := by
  obtain ⟨-, -, hstrict, hloose⟩ := h
  unfold State.isDue
  split
  · next hs => simpa using (hstrict hs).1
  · next hs => simpa using hloose (by simpa using hs)

theorem State.seen_due (s : State) (sl : Slot) (waits : Entry → List Wait) (e : Entry) : (s.seen sl waits e).due = e.due := by
  unfold State.seen
  split <;> rfl

theorem State.seen_start (s : State) (sl : Slot) (waits : Entry → List Wait) (e : Entry) : (s.seen sl waits e).start = e.start := by
  unfold State.seen
  split <;> rfl

theorem State.Looks.queue (hu : s.Looks sl es u) (hsl : sl ≠ .s) : u.tile.queue sl = { s.tile.queue sl with entries := es } := by
  rw [hu.tile, Tile.setQueue_queue _ _ hsl]

/-- The engine finds the head due. -/
theorem State.Looks.dueHead (hu : s.Looks sl (e :: es) u) (hsl : sl ≠ .s) (hact : (s.tile.queue sl).act = none)
    (hdue : s.isDue e.due = true) : u.dueHead sl = some e := by
  have hdue : u.isDue e.due = true := by
    rw [← hdue]
    simp only [State.isDue, hu.strict, hu.rtick]
  unfold State.dueHead
  rw [hu.queue hsl]
  simp only [hact, hdue, if_true]

/-- No entry behind the head is late. -/
theorem State.Looks.headLate (hu : s.Looks sl (e :: es) u) (hsl : sl ≠ .s) (status : Entry → W64)
    (h : s.strict = true → ∀ x ∈ es, x.start ≠ some s.pad.rtick) : u.headLate sl status = none := by
  unfold State.headLate
  rw [hu.queue hsl, hu.rtick, hu.strict]
  cases hs : s.strict with
  | false => rfl
  | true =>
    simp only [Bool.not_true, Bool.false_eq_true, if_false, List.drop_one, List.tail_cons, List.findSome?_eq_none_iff]
    exact fun x hx => if_neg (h hs x hx)

theorem State.Looks.sync (hu : s.Looks sl es u) : u.tile.sync = s.tile.sync := by
  rw [hu.tile]
  exact (s.tile.setQueue_frame sl _).2.1

/-- The waits of a start hold: none is of a poisoned semaphore, all are taken, and each acquire is in scope. -/
structure State.WaitsHold (s : State) (ws : List Wait) (y : Sync) : Prop where
  poison : s.waitPoison ws = none
  takes : s.tile.sync.takes ws = .ok y
  scope : s.waitScope ws = none

theorem State.Looks.waitsHold (hu : s.Looks sl es u) {ws : List Wait} {y : Sync} (h : s.WaitsHold ws y) : u.WaitsHold ws y where
  poison := by rw [State.waitPoison, hu.sync]; exact h.poison
  takes := by rw [hu.sync]; exact h.takes
  scope := by
    rw [State.waitScope]
    simp only [hu.scope, hu.cur]
    exact h.scope

theorem State.waitsHold_nil (s : State) : s.WaitsHold [] s.tile.sync := ⟨rfl, rfl, rfl⟩

/-- One wait that holds. -/
theorem State.waitsHold_one {w : Wait} (hn : w.n ≤ (s.tile.sync.sem w.q).toNat) (hp : w.n ≠ 0 → w.q ∉ s.tile.sync.poison)
    (hs : w.acq = true → s.outOfScope (.sem s.cur.tile w.q) = none) : s.WaitsHold [w] (s.tile.sync.take w.q w.n) where
  poison := by
    simp only [State.waitPoison, Wait.names, Sync.isPoisoned, List.find?_singleton, Option.map_eq_none_iff]
    split
    · next h =>
      simp only [Bool.and_eq_true, bne_iff_ne, ne_eq, List.contains_iff_mem] at h
      exact absurd h.2 (hp h.1)
    · rfl
  takes := by
    simp only [Sync.takes]
    exact if_pos hn
  scope := by
    simp only [State.waitScope, List.findSome?_cons, List.findSome?_nil]
    by_cases ha : w.acq = true
    · simp [ha, hs ha]
    · simp [ha]

/-- What a start comes to where its waits hold. -/
theorem State.startWhenDue_of_waitsHold {n : Need} {y : Sync} (sl : Slot) (e : Entry) (status : W64) (hb : n.busy = false)
    (hw : s.WaitsHold n.waits y) (ho : n.ops = .ready) (hc : n.checks = none) : s.startWhenDue sl e status n =
      if s.strict = true ∨ e.ready.getD s.pad.rtick ≤ s.pad.rtick then .go else .no := by
  simp [State.startWhenDue, hb, hw.poison, hw.takes, ho, hc, hw.scope]

end

end Sys2Proof.Machine

-- Starts of the Drover engine (R142, R284, R285)

namespace Sys2Proof.Machine

theorem Queue.taken_same (q : Queue) : q.taken.serial = q.serial ∧ q.taken.act = q.act ∧
    q.taken.entries.map Entry.plain = q.entries.map Entry.plain := by
  unfold Queue.taken
  split
  · next h => exact ⟨rfl, rfl, by rw [h]; rfl⟩
  · exact ⟨rfl, rfl, rfl⟩

section
variable {s u : State} {sl : Slot} {e : Entry} {es : List Entry}

theorem State.seen_map_plain (s : State) (sl : Slot) (waits : Entry → List Wait) (es : List Entry) :
    (es.map (s.seen sl waits)).map Entry.plain = es.map Entry.plain := by
  rw [List.map_map]
  exact List.map_congr_left fun e _ => s.seen_plain sl waits e

/-- The cycle from which a loose entry waits no longer, once its one wait holds. -/
theorem State.seen_ready {waits : Entry → List Wait} {w : Wait} {y : Sync} (hw : waits e = [w]) (hs : s.strict = false)
    (hy : s.WaitsHold [w] y) :
    (s.seen sl waits e).ready = some (e.ready.getD (s.pad.rtick + if w.n ≠ 0 then s.slack sl e else 0)) := by
  have hnames : [w].any Wait.names = decide (w.n ≠ 0) := by
    by_cases h : w.n = 0 <;> simp [Wait.names, h]
  unfold State.seen State.readyAt
  rw [if_neg (by simp [hs]), hw, hy.takes, hnames]
  simp only [decide_eq_true_eq]

theorem State.slack_le (s : State) (sl : Slot) (e : Entry) : s.slack sl e ≤ 64 := by
  have := Nat.mod_lt (Config.looseSlack ((s.cur.pad * 65536 + s.cur.tile) * 4 + slotNo sl) (e.j * 2 ^ 32 + e.serial.toNat) s.pad.rtick)
    (show 0 < 65 by decide)
  unfold State.slack
  omega

/-- A head that waits for nothing starts on its cycle. -/
theorem State.seen_goes_nil {waits : Entry → List Wait} (hw : waits e = [])
    (hready : s.strict = false → e.ready.getD s.pad.rtick ≤ s.pad.rtick) :
    s.strict = true ∨ (s.seen sl waits e).ready.getD s.pad.rtick ≤ s.pad.rtick := by
  cases hs : s.strict with
  | true => exact .inl rfl
  | false =>
    have hseen : (s.seen sl waits e).ready = some (e.ready.getD (s.pad.rtick + 0)) := by
      unfold State.seen State.readyAt
      rw [if_neg (by simp [hs]), hw]
      rfl
    rw [hseen]
    exact .inr (hready hs)

/-- A head whose one wait held before, or waits for nothing, starts on its cycle. -/
theorem State.seen_goes {waits : Entry → List Wait} {w : Wait} {y : Sync} (hw : waits e = [w]) (hy : s.WaitsHold [w] y)
    (hready : s.strict = false → e.ready.getD s.pad.rtick ≤ s.pad.rtick) (hlook : s.strict = true ∨ w.n = 0 ∨ e.ready ≠ none) :
    s.strict = true ∨ (s.seen sl waits e).ready.getD s.pad.rtick ≤ s.pad.rtick := by
  cases hs : s.strict with
  | true => exact .inl rfl
  | false =>
    rw [State.seen_ready hw hs hy]
    refine .inr ?_
    have hr := hready hs
    cases he : e.ready with
    | some r => simpa [he] using hr
    | none =>
      have hn : w.n = 0 := by simpa [hs, he] using hlook
      simp [hn]

end

theorem State.modQueue_tile (s : State) (sl : Slot) (f : Queue → Queue) :
    (s.modQueue sl f).tile = s.tile.setQueue sl (f (s.tile.queue sl)) := State.modTile_tile ..

theorem sameMemory_modQueue (s : State) (sl : Slot) (f : Queue → Queue) : SameMemory s (s.modQueue sl f) :=
  sameMemory_modTile s (s.tile.setQueue_frame sl _).2.2.2.2.1

theorem State.takeWaits_tile {s : State} {ws : List Wait} {y : Sync} (h : s.tile.sync.takes ws = .ok y) :
    (s.takeWaits ws).tile = { s.tile with sync := y } := by
  rw [State.takeWaits, State.modSync_tile, h]

theorem sameMemory_takeWaits (s : State) (ws : List Wait) : SameMemory s (s.takeWaits ws) := sameMemory_modTile s rfl

theorem State.noteClass_tile (s : State) (sl : Slot) (n : Need) : ∃ o, (s.noteClass sl n).tile = { s.tile with obs := o } :=
  ⟨_, State.modTile_tile ..⟩

theorem sameMemory_noteClass (s : State) (sl : Slot) (n : Need) : SameMemory s (s.noteClass sl n) := sameMemory_modTile s rfl

theorem sameMemory_cond (s : State) (f : FaultInfo) : SameMemory s (s.cond f) := sameMemory_modCore s _

-- What a Drover run takes

/-- What the look before a start leaves of a Drover entry's run. -/
theorem State.seen_droverRun (s : State) (sl : Slot) (waits : Entry → List Wait) (e : Entry) (now : Nat) :
    (s.seen sl waits e).droverRun now = e.droverRun now := by
  unfold State.seen
  split <;> rfl

theorem State.seen_instr (s : State) (sl : Slot) (waits : Entry → List Wait) (e : Entry) :
    (s.seen sl waits e).instr = e.instr ∧ (s.seen sl waits e).ws = e.ws := by
  unfold State.seen
  split <;> exact ⟨rfl, rfl⟩

theorem State.Looks.ctl {s u : State} {sl : Slot} {es : List Entry} (hu : s.Looks sl es u) (k : Nat) : u.ctl k = s.ctl k := by
  rw [State.ctl, State.ctl, hu.tile, (s.tile.setQueue_frame sl _).2.2.2.2.2]

theorem State.Looks.droverReason {s u : State} {sl : Slot} {es : List Entry} (hu : s.Looks sl es u) (r : DRun) :
    u.droverReason r = s.droverReason r := by
  unfold State.droverReason State.droverTypes
  rw [hu.shape, hu.cur, hu.strict, hu.ctl]

/-- The waits of a Drover entry. -/
def droverWaits (e : Entry) : List Wait := [dWait e.ws]

/-- The state once the D engine has looked at its queue. -/
def State.droverLook (s : State) : State := s.watch .d droverWaits

/-- What an engine finds whose head is due: its queue with each entry as seen, and no entry late behind the head. -/
theorem State.HeadAt.looks {s : State} {sl : Slot} {e : Entry} {es : List Entry} (h : s.HeadAt (s.tile.queue sl) e es) (hsl : sl ≠ .s)
    (waits : Entry → List Wait) (status : Entry → W64) :
    s.Looks sl (s.seen sl waits e :: es.map (s.seen sl waits)) (s.watch sl waits) ∧ (s.watch sl waits).headLate sl status = none ∧
      (s.watch sl waits).dueHead sl = some (s.seen sl waits e) := by
  have hu := s.looks_watch sl waits
  have hdue := s.isDue_of_headAt h
  obtain ⟨hent, hact, hstrict, -⟩ := h
  rw [hent, List.map_cons] at hu
  refine ⟨hu, hu.headLate hsl _ fun hs x hx => ?_, hu.dueHead hsl hact ?_⟩
  · obtain ⟨y, hy, rfl⟩ := List.mem_map.mp hx
    rw [State.seen_start]
    exact (hstrict hs).2 y hy
  · rw [← hdue]
    simp only [State.isDue, State.seen_due]

theorem State.droverStart_eq {s : State} {e : Entry} {es : List Entry} (h : s.HeadAt s.tile.dq e es) :
    s.droverStart = s.droverLook.startHead .d (s.seen .d droverWaits e) 0 (s.droverLook.droverNeed (s.seen .d droverWaits e))
      (fun t => t.droverGo (s.seen .d droverWaits e)) := by
  obtain ⟨-, hlate, hhead⟩ := State.HeadAt.looks (sl := .d) h (by decide) droverWaits (fun _ => 0)
  have hwatch : (s.watch .d fun e => [dWait e.ws]) = s.droverLook := rfl
  unfold State.droverStart
  rw [hwatch]
  dsimp only
  rw [show s.droverLook.headLate .d (fun _ => 0) = none from hlate]
  dsimp only
  rw [show s.droverLook.dueHead .d = _ from hhead]

-- What a due Drover entry comes to

/-- An entry that does not start: no run, semaphore or byte has changed, and in a loose stint the entries wait as they were. -/
def State.Idles (s t : State) : Prop :=
  t.tile.dr.runs = s.tile.dr.runs ∧ t.tile.sync = s.tile.sync ∧ SameMemory s t ∧
    (s.strict = false → t.tile.core = s.tile.core ∧ t.tile.dq.Same s.tile.dq ∧ t.tile.dq.act = none)

/-- An entry that starts: its run takes slot k and its semaphore's amount, and the engine is busy. -/
def State.Starts (s : State) (e : Entry) (w : Wait) (k : Nat) (t : State) : Prop :=
  ∃ r : DRun, t.tile.dr.runs = s.tile.dr.runs ++ [r] ∧ r.slot = some k ∧
    r.serial = e.serial ∧ r.j = e.j ∧ r.instr = e.instr ∧ r.ws = e.ws ∧ r.its = e.its ∧ r.s = s.pad.rtick ∧ r.issued = 0 ∧
    r.fin = none ∧ r.susp = false ∧ t.tile.dq.Same s.tile.dq ∧ t.tile.dq.act = some { s := s.pad.rtick, fin := none } ∧
    (t.tile.sync.sem w.q).toNat = (s.tile.sync.sem w.q).toNat - w.n ∧
    (∀ q, q ≠ w.q → t.tile.sync.sem q = s.tile.sync.sem q) ∧ SameMemory s t ∧ ∀ r, t.rd r = s.rd r

section
variable {s u : State} {e : Entry} {es : List Entry} {n : Need}

/-- The queue of a state that an engine has looked at. -/
theorem State.Looks.same (hu : s.Looks .d ((s.tile.queue .d).entries.map (s.seen .d droverWaits)) u) : u.tile.dq.Same s.tile.dq := by
  rw [hu.tile]
  exact ⟨rfl, s.seen_map_plain .d droverWaits _⟩

theorem State.Looks.idles_noteClass (hu : s.Looks .d ((s.tile.queue .d).entries.map (s.seen .d droverWaits)) u)
    (hact : s.tile.dq.act = none) (n : Need) : s.Idles (u.noteClass .d n) := by
  obtain ⟨o, ho⟩ := u.noteClass_tile .d n
  obtain ⟨hcore, hsync, hdr, -⟩ := s.tile.setQueue_frame .d
    { s.tile.queue .d with entries := (s.tile.queue .d).entries.map (s.seen .d droverWaits) }
  rw [State.Idles, ho]
  refine ⟨?_, ?_, hu.memory.trans (sameMemory_noteClass u .d n), fun _ => ⟨?_, hu.same, ?_⟩⟩
  all_goals rw [hu.tile]
  · rw [hdr]
  · rw [hsync]
  · rw [hcore]
  · exact hact

/-- A strict entry that faults leaves the queue, with the fault recognised at its tile. -/
theorem State.Looks.idles_fault (hu : s.Looks .d ((s.tile.queue .d).entries.map (s.seen .d droverWaits)) u)
    (hact : s.tile.dq.act = none) (hs : s.strict = true) (n : Need) (f : FaultInfo) :
    s.Idles (((u.noteClass .d n).modQueue .d Queue.drop).cond f) ∧
      (((u.noteClass .d n).modQueue .d Queue.drop).cond f).tile.core.conds = s.tile.core.conds ++ [f] := by
  obtain ⟨hruns, hsync, hmem, -⟩ := hu.idles_noteClass hact n
  have hconds : (u.noteClass .d n).tile.core.conds = s.tile.core.conds := by
    obtain ⟨o, ho⟩ := u.noteClass_tile .d n
    rw [ho, hu.tile]
    rfl
  rw [State.Idles, State.cond_tile, State.modQueue_tile]
  exact ⟨⟨hruns, hsync, (hmem.trans (sameMemory_modQueue _ .d Queue.drop)).trans (sameMemory_cond _ f),
    fun h => Bool.noConfusion (hs.symm.trans h)⟩,
    congrArg (· ++ [f]) hconds⟩

/-- A start of a Drover run of a command with walks. -/
theorem State.droverGo_tile (v : State) {e : Entry} (hf : dCmd e.instr ≠ .fence) : ∃ route seq rounds, (v.droverGo e).tile =
    { v.tile with dq := v.tile.dq.begin v.pad.rtick none, sync := { v.tile.sync with rounds := rounds }, dr := { v.tile.dr with
        runs := v.tile.dr.runs ++ [{ e.droverRun v.pad.rtick with slot := v.tile.dr.freeSlot, route := route, seq := seq }] } } := by
  unfold State.droverGo
  simp only [if_neg hf]
  split
  · rw [State.modSync_tile, State.modTile_tile, State.modQueue_tile]
    exact ⟨_, _, _, rfl⟩
  · rw [State.modTile_tile, State.modQueue_tile]
    exact ⟨_, _, _, rfl⟩

theorem sameMemory_droverGo (v : State) (e : Entry) : SameMemory v (v.droverGo e) := by
  have hbegin := sameMemory_modQueue v .d fun q => q.begin v.pad.rtick none
  unfold State.droverGo
  dsimp only
  split
  · exact hbegin.trans (sameMemory_modTile _ rfl)
  · split
    · exact (hbegin.trans (sameMemory_modTile _ rfl)).trans (sameMemory_modTile _ rfl)
    · exact hbegin.trans (sameMemory_modTile _ rfl)

theorem Sync.take_sem_toNat (y : Sync) {q n : Nat} (h : n ≤ (y.sem q).toNat) : ((y.take q n).sem q).toNat = (y.sem q).toNat - n := by
  by_cases hn : n = 0
  · rw [hn, Sync.take_zero, Nat.sub_zero]
  · have hlt := (y.sem q).isLt
    rw [Sync.take_sem _ _ _ hn, BitVec.toNat_sub_of_le]
    · rw [BitVec.toNat_ofNat, Nat.mod_eq_of_lt (by omega)]
    · rw [BitVec.le_def, BitVec.toNat_ofNat, Nat.mod_eq_of_lt (by omega)]
      exact h

theorem State.Looks.starts (hu : s.Looks .d ((s.tile.queue .d).entries.map (s.seen .d droverWaits)) u)
    (hf : dCmd e.instr ≠ .fence) {k : Nat} (hk : s.tile.dr.freeSlot = some k)
    (hw : s.WaitsHold [dWait e.ws] (s.tile.sync.take (dWait e.ws).q (dWait e.ws).n))
    (hn : (dWait e.ws).n ≤ (s.tile.sync.sem (dWait e.ws).q).toNat) :
    s.Starts e (dWait e.ws) k (((u.takeWaits [dWait e.ws]).droverGo (s.seen .d droverWaits e)).modQueue .d Queue.taken) := by
  obtain ⟨hcore, hsync, hdr, -⟩ := s.tile.setQueue_frame .d
    { s.tile.queue .d with entries := (s.tile.queue .d).entries.map (s.seen .d droverWaits) }
  have htakes := State.takeWaits_tile (hu.waitsHold hw).takes
  have htick : (u.takeWaits [dWait e.ws]).pad.rtick = s.pad.rtick := by rw [← hu.rtick, State.takeWaits, State.modSync_pad]
  obtain ⟨route, seq, rounds, hgo⟩ := (u.takeWaits [dWait e.ws]).droverGo_tile (e := s.seen .d droverWaits e)
    (by rw [(s.seen_instr _ _ e).1]; exact hf)
  rw [htick, s.seen_droverRun, htakes] at hgo
  have hdr' : u.tile.dr = s.tile.dr := by rw [hu.tile, hdr]
  obtain ⟨hserial, hact, hplain⟩ := Queue.taken_same (u.tile.dq.begin s.pad.rtick none)
  have hmem := ((hu.memory.trans (sameMemory_takeWaits u [dWait e.ws])).trans (sameMemory_droverGo _ (s.seen .d droverWaits e))).trans
    (sameMemory_modQueue _ .d Queue.taken)
  refine ⟨{ e.droverRun s.pad.rtick with slot := s.tile.dr.freeSlot, route := route, seq := seq }, ?_,
    hk, rfl, rfl, rfl, rfl, rfl, rfl, rfl, rfl, rfl, ?_, ?_, ?_, fun q hq => ?_, hmem, State.rd_congr ?_⟩
  all_goals rw [State.modQueue_tile, hgo]
  · rw [← hdr']
    rfl
  · exact ⟨hserial.trans hu.same.1, hplain.trans hu.same.2⟩
  · exact hact
  · exact Sync.take_sem_toNat _ hn
  · exact Sync.take_sem_ne _ _ _ _ hq
  · show u.tile.core.regs = _
    rw [hu.tile, hcore]

end

end Sys2Proof.Machine

-- What a due Drover entry comes to (R144, R145, R284)

namespace Sys2Proof.Machine

theorem runTiming_sub (sl : Slot) (e : Entry) {sub : Nat} (detail cycle : Nat) (status : W64) (h : sub < 256) :
    bits (runTiming sl e sub detail cycle status).t3 7 0 = sub := by
  simp only [runTiming, timingInfo, bits, BitVec.toNat_ofNat]
  omega

section
variable {s u : State} {sl : Slot} {e : Entry} {es : List Entry} {n : Need} {status : W64}

theorem State.startHead_no {go : State → State} (h : s.startWhenDue sl e status n = .no) :
    s.startHead sl e status n go = s.noteClass sl n := by
  rw [State.startHead, h]

theorem State.startHead_go {go : State → State} (h : s.startWhenDue sl e status n = .go) :
    s.startHead sl e status n go = (go (s.takeWaits n.waits)).modQueue sl Queue.taken := by
  rw [State.startHead, h]

theorem State.startHead_timing {go : State → State} {f : FaultInfo} (h : s.startWhenDue sl e status n = .fault f)
    (hf : f.cause = .timing) :
    s.startHead sl e status n go = ((s.noteClass sl n).modQueue sl Queue.drop).cond f := by
  simp only [State.startHead, h, hf, if_true]

theorem State.startWhenDue_of_busy (h : n.busy = true) : s.startWhenDue sl e status n =
    if s.strict then .fault (runTiming sl e 0x04 0 s.pad.rtick status) else .no := by
  simp [State.startWhenDue, h]

/-- One wait that is short of its amount (R142). -/
theorem State.startWhenDue_of_short {w : Wait} (hb : n.busy = false) (hw : n.waits = [w]) (hp : w.q ∉ s.tile.sync.poison)
    (hn : (s.tile.sync.sem w.q).toNat < w.n) : s.startWhenDue sl e status n =
      if s.strict then .fault (runTiming sl e 0x05 w.q s.pad.rtick status) else .no := by
  have hpoison : s.waitPoison [w] = none := by simp [State.waitPoison, Sync.isPoisoned, hp]
  have htakes : s.tile.sync.takes [w] = .error w.q := if_neg (by omega)
  simp [State.startWhenDue, hb, hw, hpoison, htakes]

/-- What a Drover entry with walks that no check refuses needs. -/
theorem State.Looks.droverNeed (hu : s.Looks .d es u) (hf : dCmd e.instr ≠ .fence)
    (hr : s.droverReason (e.droverRun s.pad.rtick) = none) : u.droverNeed (s.seen .d droverWaits e) =
      { busy := s.tile.dr.freeSlot.isNone, waits := [dWait e.ws], ops := .ready, checks := none } := by
  have hdr : u.tile.dr = s.tile.dr := by
    rw [hu.tile]
    exact (s.tile.setQueue_frame .d _).2.2.1
  obtain ⟨hinstr, hws⟩ := s.seen_instr .d droverWaits e
  have hne : (dCmd e.instr != .fence) = true := by simpa using hf
  rw [State.droverNeed, hinstr, hws, hu.rtick, s.seen_droverRun, hu.droverReason, hr, hdr, hne]
  rfl

end

section
variable {s : State} {e : Entry} {es : List Entry}

/-- The strict fault of an entry that does not start on its cycle, with its subcode (R144). -/
def State.Late (s t : State) (sub : Nat) : Prop :=
  ∃ f : FaultInfo, t.tile.core.conds = s.tile.core.conds ++ [f] ∧ f.cause = .timing ∧
    f.unit = .d ∧ f.eng = true ∧ bits f.t3 7 0 = sub

theorem State.droverLook_looks (s : State) : s.Looks .d ((s.tile.queue .d).entries.map (s.seen .d droverWaits)) s.droverLook :=
  s.looks_watch ..

section
variable (hat : s.HeadAt s.tile.dq e es) (hf : dCmd e.instr ≠ .fence) (hr : s.droverReason (e.droverRun s.pad.rtick) = none)
include hat

/-- A start that TIMING meets in a strict stint, and that a loose one puts off. -/
theorem State.droverStart_late {sub q : Nat} (hsub : sub < 256)
    (h : s.droverLook.startWhenDue .d (s.seen .d droverWaits e) 0 (s.droverLook.droverNeed (s.seen .d droverWaits e)) =
      if s.droverLook.strict then .fault (runTiming .d (s.seen .d droverWaits e) sub q s.droverLook.pad.rtick 0) else .no) :
    s.Idles s.droverStart ∧ (s.strict = true → s.Late s.droverStart sub) := by
  have hu := s.droverLook_looks
  rw [State.droverStart_eq hat]
  rw [hu.strict] at h
  cases hs : s.strict with
  | true =>
    rw [hs, if_pos rfl] at h
    rw [State.startHead_timing h rfl]
    obtain ⟨hidle, hconds⟩ := hu.idles_fault hat.2.1 hs (s.droverLook.droverNeed (s.seen .d droverWaits e))
      (runTiming .d (s.seen .d droverWaits e) sub q s.droverLook.pad.rtick 0)
    exact ⟨hidle, fun _ => ⟨_, hconds, rfl, rfl, rfl, runTiming_sub _ _ _ _ _ hsub⟩⟩
  | false =>
    rw [hs, if_neg Bool.false_ne_true] at h
    rw [State.startHead_no h]
    exact ⟨hu.idles_noteClass hat.2.1 _, fun h => Bool.noConfusion h⟩

include hf hr

theorem State.droverStart_busy (hk : s.tile.dr.freeSlot = none) :
    s.Idles s.droverStart ∧ (s.strict = true → s.Late s.droverStart 0x04) := by
  refine State.droverStart_late hat (q := 0) (by decide) (State.startWhenDue_of_busy ?_)
  rw [s.droverLook_looks.droverNeed hf hr, hk]
  rfl

theorem State.droverStart_short {k : Nat} (hk : s.tile.dr.freeSlot = some k) (hp : (dWait e.ws).q ∉ s.tile.sync.poison)
    (hn : (s.tile.sync.sem (dWait e.ws).q).toNat < (dWait e.ws).n) :
    s.Idles s.droverStart ∧ (s.strict = true → s.Late s.droverStart 0x05) := by
  have hu := s.droverLook_looks
  have hneed := hu.droverNeed hf hr
  refine State.droverStart_late hat (by decide) (State.startWhenDue_of_short (w := dWait e.ws) ?_ ?_ ?_ ?_)
  · rw [hneed, hk]
    rfl
  · rw [hneed]
  · rw [hu.sync]
    exact hp
  · rw [hu.sync]
    exact hn

section
variable (hn : (dWait e.ws).n ≤ (s.tile.sync.sem (dWait e.ws).q).toNat)
  (hw : s.WaitsHold [dWait e.ws] (s.tile.sync.take (dWait e.ws).q (dWait e.ws).n))
include hw

omit hat in
/-- Where its wait holds and a slot is free, an entry starts, or waits out its slack in a loose stint. -/
theorem State.droverStart_held {k : Nat} (hk : s.tile.dr.freeSlot = some k) :
    s.droverLook.startWhenDue .d (s.seen .d droverWaits e) 0 (s.droverLook.droverNeed (s.seen .d droverWaits e)) =
      if s.strict = true ∨ (s.seen .d droverWaits e).ready.getD s.pad.rtick ≤ s.pad.rtick then .go else .no := by
  have hu := s.droverLook_looks
  have hneed := hu.droverNeed hf hr
  rw [State.startWhenDue_of_waitsHold (y := s.tile.sync.take (dWait e.ws).q (dWait e.ws).n) .d _ 0 (by rw [hneed, hk]; rfl)
    (by rw [hneed]; exact hu.waitsHold hw) (by rw [hneed]) (by rw [hneed]), hu.strict, hu.rtick]

theorem State.droverStart_waits (hs : s.strict = false) (h : s.pad.rtick < (s.seen .d droverWaits e).ready.getD s.pad.rtick) :
    s.Idles s.droverStart ∧ (s.droverStart.tile.dq.entries.head?.bind (·.ready)) = (s.seen .d droverWaits e).ready := by
  have hu := s.droverLook_looks
  have hno : s.droverLook.startWhenDue .d (s.seen .d droverWaits e) 0 (s.droverLook.droverNeed (s.seen .d droverWaits e)) = .no := by
    cases hk : s.tile.dr.freeSlot with
    | none =>
      rw [State.startWhenDue_of_busy (by rw [hu.droverNeed hf hr, hk]; rfl), hu.strict, hs]
      rfl
    | some k =>
      rw [State.droverStart_held hf hr hw hk]
      exact if_neg fun h' => h'.elim (fun ht => Bool.noConfusion (hs.symm.trans ht)) (by omega)
  rw [State.droverStart_eq hat, State.startHead_no hno]
  refine ⟨hu.idles_noteClass hat.2.1 _, ?_⟩
  have hent : (s.tile.queue .d).entries = e :: es := hat.1
  obtain ⟨o, ho⟩ := s.droverLook.noteClass_tile .d (s.droverLook.droverNeed (s.seen .d droverWaits e))
  rw [ho, hu.tile, hent]
  rfl

include hn

theorem State.droverStart_starts {k : Nat} (hk : s.tile.dr.freeSlot = some k)
    (h : s.strict = true ∨ (s.seen .d droverWaits e).ready.getD s.pad.rtick ≤ s.pad.rtick) :
    s.Starts e (dWait e.ws) k s.droverStart := by
  have hu := s.droverLook_looks
  have hgo := State.droverStart_held hf hr hw hk
  rw [if_pos h] at hgo
  rw [State.droverStart_eq hat, State.startHead_go hgo, hu.droverNeed hf hr]
  exact hu.starts hf hk hw hn

end

end

end

end Sys2Proof.Machine

-- Starts of the vector engine (R335)

namespace Sys2Proof.Machine

theorem State.modTile_congr {s : State} {f g : Tile → Tile} (h : f s.tile = g s.tile) : s.modTile f = s.modTile g := by
  rw [State.modTile, h, State.modTile]

/-- A state that sets the same tiles as s, and a change at it. -/
theorem State.modTile_of_set {s u : State} (h : ∀ x, u.setTile x = s.setTile x) (f : Tile → Tile) :
    u.modTile f = s.modTile fun _ => f u.tile := h _

/-- What a start of the vector engine makes of its queue. -/
def State.vectorQueue (s : State) (e : Entry) (es : List Entry) : Queue :=
  ({ s.tile.vq with entries := e :: es }.begin s.pad.rtick (some (s.pad.rtick + (vTimeOf e.instr).b - 1))).taken

section
variable {s : State} {e : Entry} {es : List Entry}

/-- An instruction of the vector engine other than a chain waits for nothing and is refused nothing. -/
theorem vector_plain (h : ∀ n, e.instr ≠ .vchain n) (s : State) : vectorWaits e = [] ∧ s.vStatus e = 0 ∧
    s.vectorNeed e = plainNeed [] none ∧ s.meetTables e = s := by
  unfold vectorWaits State.vStatus State.vectorNeed State.meetTables
  cases hi : e.instr
  case vchain n => exact absurd hi (h n)
  all_goals exact ⟨rfl, rfl, rfl, rfl⟩

/-- What the start of a vector entry does. -/
def State.vectorGo (t : State) (e : Entry) : State :=
  match e.instr with
  | .vchain _ => t.chainGo e
  | i => t.modQueue .v fun q => q.begin t.pad.rtick (some (t.pad.rtick + (vTimeOf i).b - 1))

theorem vectorGo_plain (h : ∀ n, e.instr ≠ .vchain n) (t : State) :
    t.vectorGo e = t.modQueue .v fun q => q.begin t.pad.rtick (some (t.pad.rtick + (vTimeOf e.instr).b - 1)) := by
  unfold State.vectorGo
  cases hi : e.instr
  case vchain n => exact absurd hi (h n)
  all_goals rfl

theorem State.vectorStart_eq (hat : s.HeadAt s.tile.vq e es) (hv : ∀ n, e.instr ≠ .vchain n) : s.vectorStart =
    (s.watch .v vectorWaits).startHead .v (s.seen .v vectorWaits e) ((s.watch .v vectorWaits).vStatus (s.seen .v vectorWaits e))
      (plainNeed [] none) fun t => t.vectorGo (s.seen .v vectorWaits e) := by
  obtain ⟨-, hlate, hhead⟩ := State.HeadAt.looks (sl := .v) hat (by decide) vectorWaits (s.watch .v vectorWaits).vStatus
  obtain ⟨-, -, hneed, hmeet⟩ := vector_plain (e := s.seen .v vectorWaits e) (by rw [(s.seen_instr ..).1]; exact hv)
    (s.watch .v vectorWaits)
  unfold State.vectorStart
  dsimp only
  rw [hlate]
  dsimp only
  rw [hhead]
  dsimp only
  rw [hmeet, hneed]
  rfl

theorem State.vectorStart_starts (hat : s.HeadAt s.tile.vq e es) (hready : s.strict = false → e.ready.getD s.pad.rtick ≤ s.pad.rtick)
    (hv : ∀ n, e.instr ≠ .vchain n) : s.vectorStart = s.modTile fun t =>
      { t with vq := s.vectorQueue (s.seen .v vectorWaits e) (es.map (s.seen .v vectorWaits)) } := by
  obtain ⟨hu, -, -⟩ := State.HeadAt.looks (sl := .v) hat (by decide) vectorWaits fun _ => 0
  have hinstr := (s.seen_instr .v vectorWaits e).1
  have hwaits := (vector_plain hv s).1
  have hgo : (s.watch .v vectorWaits).startWhenDue .v (s.seen .v vectorWaits e) ((s.watch .v vectorWaits).vStatus (s.seen .v vectorWaits e))
      (plainNeed [] none) = .go := by
    rw [State.startWhenDue_of_waitsHold .v _ _ rfl (State.waitsHold_nil _) rfl rfl, hu.strict, hu.rtick]
    exact if_pos (State.seen_goes_nil hwaits hready)
  have htick : ((s.watch .v vectorWaits).takeWaits []).pad.rtick = s.pad.rtick := by rw [← hu.rtick, State.takeWaits, State.modSync_pad]
  rw [State.vectorStart_eq hat hv, State.startHead_go hgo, vectorGo_plain (by rw [hinstr]; exact hv),
    show (plainNeed [] none).waits = [] from rfl, htick]
  simp only [State.modQueue, State.takeWaits, State.modSync, State.modTile_modTile]
  rw [State.modTile_of_set hu.set]
  refine State.modTile_congr ?_
  rw [hu.tile]
  simp only [Tile.setQueue, Tile.queue, Sync.takes, State.vectorQueue]

theorem State.vectorQueue_spec (hat : s.HeadAt s.tile.vq e es) :
    (s.vectorQueue (s.seen .v vectorWaits e) (es.map (s.seen .v vectorWaits))).Same s.tile.vq ∧
      (s.vectorQueue (s.seen .v vectorWaits e) (es.map (s.seen .v vectorWaits))).act =
        some { s := s.pad.rtick, fin := some (s.pad.rtick + (vTimeOf e.instr).b - 1) } := by
  obtain ⟨hserial, hact, hplain⟩ := Queue.taken_same
    ({ s.tile.vq with entries := s.seen .v vectorWaits e :: es.map (s.seen .v vectorWaits) }.begin s.pad.rtick
      (some (s.pad.rtick + (vTimeOf (s.seen .v vectorWaits e).instr).b - 1)))
  refine ⟨⟨hserial, hplain.trans ?_⟩, ?_⟩
  · rw [hat.1]
    exact s.seen_map_plain .v vectorWaits (e :: es)
  · rw [← (s.seen_instr .v vectorWaits e).1]
    exact hact

end

end Sys2Proof.Machine

-- Starts of products (R310, R316, R330)

namespace Sys2Proof.Machine

/-- The entry is one of MMA: one product a run, of level 0 alone (R308, R310). -/
def Entry.isMma (e : Entry) : Prop := ∃ n, e.instr = .mma n

section
variable {e : Entry} (he : e.isMma)
include he

theorem nestLevels_mma : nestLevels e = [0] := by
  obtain ⟨n, h⟩ := he
  rw [nestLevels, h]

theorem nestTrip_mma (l : Nat) : nestTrip e l = 1 := by
  obtain ⟨n, h⟩ := he
  rw [nestTrip, h]

theorem nestSum_mma (p : Nat) (stride : Nat → Int) : nestSum e p stride = 0 := by
  obtain ⟨n, h⟩ := he
  rw [nestSum, h]

theorem nestReason_mma : nestReason e = none := by
  obtain ⟨n, h⟩ := he
  rw [nestReason, h]

theorem nestTotal_mma : nestTotal e = 1 := by simp [nestTotal, nestLevels_mma he, nestTrip_mma he]

theorem prodWaits_mma : prodWaits e 0 = [lWait e.ws 0] := by
  simp [prodWaits, levelsBegin, nestLevels_mma he, nestIndex]

theorem frameA_mma : frameA e 0 = (bits (e.ws.getD 0 0) 40 32 : Nat) + e.j * e.step := by
  rw [frameA, nestSum_mma he, Int.add_zero]
  rfl

theorem frameB_mma : frameB e 0 = (bits (e.ws.getD 1 0) 40 32 : Nat) + e.j * e.step := by
  rw [frameB, nestSum_mma he, Int.add_zero]
  rfl

theorem prodTile_mma : prodTile e 0 = (bits (e.ws.getD 2 0) 5 0 : Nat) := by
  rw [prodTile, nestSum_mma he, Int.add_zero]
  rfl

theorem matrixWaits_mma : matrixWaits e = [lWait e.ws 0] := by
  obtain ⟨n, h⟩ := he
  rw [matrixWaits, h]

end

/-- A product of an unscaled legal pair of frames that lie in the scratchpad, into a tile there is (R310, R330). -/
structure Entry.FramePair (e : Entry) (sh : Shape) (f : ProdFmt) : Prop where
  mma : e.isMma
  fmt : prodFmt (e.ws.getD 24 0) = .ok f
  plainA : f.amx = false
  plainB : f.bmx = false
  ringA : (e.ws.getD 0 0).getLsbD 63 = false
  ringB : (e.ws.getD 1 0).getLsbD 63 = false
  inA : 0 ≤ frameA e 0 ∧ frameA e 0 < bits sh.part 21 16 * 16
  inB : 0 ≤ frameB e 0 ∧ frameB e 0 < bits sh.part 21 16 * 16
  tile : bits (e.ws.getD 2 0) 5 0 < sh.nt

theorem Shape.frameOk_of_lt {sh : Shape} {a : Int} (h : 0 ≤ a ∧ a < bits sh.part 21 16 * 16) : sh.frameOk a = true := by
  obtain ⟨h0, hlt⟩ := h
  rw [Shape.frameOk, Bool.and_eq_true]
  refine ⟨decide_eq_true h0, decide_eq_true ?_⟩
  have hframes : a.toNat + 1 ≤ bits sh.part 21 16 * 16 := by omega
  calc (a.toNat + 1) * 4096 ≤ bits sh.part 21 16 * 16 * 4096 := Nat.mul_le_mul_right _ hframes
    _ = bits sh.part 21 16 * 65536 := Nat.mul_assoc ..

section
variable {s : State} {e : Entry} {f : ProdFmt} (h : e.FramePair s.pad.shape f)
include h

theorem Entry.FramePair.opRing : opRing (mWord e.ws 0) = none ∧ opRing (mWord e.ws 1) = none := by
  obtain ⟨-, -, -, -, hA, hB, -, -, -⟩ := h
  exact ⟨if_neg (by rw [bit_eq_getLsbD]; exact ne_true_of_eq_false hA), if_neg (by rw [bit_eq_getLsbD]; exact ne_true_of_eq_false hB)⟩

theorem State.prodReason_framePair : s.prodReason e 0 = none := by
  obtain ⟨hA, hB⟩ := h.opRing
  obtain ⟨hmma, hfmt, -, -, -, -, inA, inB, htile⟩ := h
  have htileOk : s.pad.shape.tileOk (prodTile e 0) = true := by
    rw [prodTile_mma hmma]
    simpa [Shape.tileOk] using htile
  unfold State.prodReason
  rw [show mWord e.ws 24 = e.ws.getD 24 0 from rfl, hfmt]
  simp [hA, hB, Shape.frameOk_of_lt inA, Shape.frameOk_of_lt inB, htileOk]

theorem State.prodOperands_framePair : s.prodOperands e 0 = .ready := by
  obtain ⟨hA, hB⟩ := h.opRing
  have hrings : s.prodRings e 0 = .ready := by
    simp [State.prodRings, hA, hB, Operands.and]
  unfold State.prodOperands
  rw [show mWord e.ws 24 = e.ws.getD 24 0 from rfl, h.fmt, hrings]
  simp [h.plainA, h.plainB, Operands.and]

theorem State.matrixNeed_framePair : s.matrixNeed e = { busy := false, waits := [lWait e.ws 0], ops := .ready, checks := none } := by
  obtain ⟨n, hn⟩ := h.mma
  have hneed : s.matrixNeed e = s.prodNeed e 0 := by rw [State.matrixNeed, hn]
  rw [hneed, State.prodNeed, State.prodOperands_framePair h, State.prodReason_framePair h, prodWaits_mma h.mma]
  simp [nestReason_mma h.mma]

end

section
variable {s : State} {e : Entry} {es : List Entry} {f : ProdFmt}

theorem State.seen_isMma (h : e.isMma) (s : State) (sl : Slot) (waits : Entry → List Wait) : (s.seen sl waits e).isMma := by
  unfold State.seen
  split <;> exact h

theorem State.seen_frames (h : e.isMma) (s : State) (sl : Slot) (waits : Entry → List Wait) :
    frameA (s.seen sl waits e) 0 = frameA e 0 ∧ frameB (s.seen sl waits e) 0 = frameB e 0 := by
  have hmma := s.seen_isMma h sl waits
  rw [frameA_mma h, frameB_mma h, frameA_mma hmma, frameB_mma hmma]
  unfold State.seen
  split <;> exact ⟨rfl, rfl⟩

theorem Entry.FramePair.seen {sh : Shape} (h : e.FramePair sh f) (s : State) (sl : Slot) (waits : Entry → List Wait) :
    (s.seen sl waits e).FramePair sh f := by
  obtain ⟨hmma, hfmt, ha, hb, hA, hB, inA, inB, htile⟩ := h
  obtain ⟨hframeA, hframeB⟩ := s.seen_frames hmma sl waits
  rw [← hframeA] at inA
  rw [← hframeB] at inB
  have hws := (s.seen_instr sl waits e).2
  exact ⟨s.seen_isMma hmma sl waits, by rw [hws]; exact hfmt, ha, hb, by rw [hws]; exact hA, by rw [hws]; exact hB, inA, inB,
    by rw [hws]; exact htile⟩

theorem State.seen_run (s : State) (sl : Slot) (waits : Entry → List Wait) (e : Entry) : (s.seen sl waits e).serial = e.serial ∧
    (s.seen sl waits e).j = e.j := by
  unfold State.seen
  split <;> exact ⟨rfl, rfl⟩

/-- A product that starts: of these frames and this tile, on this cycle. -/
def Product.Of (p : Product) (e : Entry) (f : ProdFmt) (now : Nat) : Prop :=
  p.serial = e.serial ∧ p.j = e.j ∧ p.p = 0 ∧ p.s = now ∧ p.t = f.t ∧ p.aFrame = (frameA e 0).toNat ∧ p.bFrame = (frameB e 0).toNat ∧
    p.ct = bits (e.ws.getD 2 0) 5 0 ∧ p.dead = false

/-- The start of the one product of a run: the engine is busy until its last cycle (R316). -/
theorem State.prodGo_tile (v : State) (h : e.FramePair v.pad.shape f) (hact : v.tile.mq.act = none) : ∃ p nst, p.Of e f v.pad.rtick ∧
    (v.prodGo e 0).tile = { v.tile with
      mx := { v.tile.mx with nest := nst, prods := v.tile.mx.prods ++ [p] },
      mq := { v.tile.mq with act := some { s := v.pad.rtick, fin := some (v.pad.rtick + f.t - 1) } } } := by
  obtain ⟨hA, hB⟩ := h.opRing
  have hfmt : prodFmt (mWord e.ws 24) = .ok f := h.fmt
  have hframes : v.operandFrame e 0 0 = (frameA e 0).toNat ∧ v.operandFrame e 0 1 = (frameB e 0).toNat := by
    simp [State.operandFrame, hA, hB]
  have htile : (prodTile e 0).toNat = bits (e.ws.getD 2 0) 5 0 := by rw [prodTile_mma h.mma, Int.toNat_natCast]
  unfold State.prodGo
  simp only [hfmt, nestTotal_mma h.mma]
  rw [State.modQueue_tile, State.modMatrix, State.modTile_tile]
  refine ⟨?p, ?nst, ?hof, ?htile⟩
  case htile =>
    rw [Tile.setQueue]
    simp only [Tile.queue, hact]
    rfl
  case hof => exact ⟨rfl, rfl, rfl, rfl, rfl, hframes.1, hframes.2, htile, rfl⟩

theorem sameMemory_prodGo (v : State) (e : Entry) (p : Nat) : SameMemory v (v.prodGo e p) := by
  unfold State.prodGo
  dsimp only
  split
  · exact .refl v
  · exact (sameMemory_modTile v rfl).trans (sameMemory_modQueue _ .m _)

theorem State.matrixStart_eq (hat : s.HeadAt s.tile.mq e es) : s.matrixStart =
    (s.watch .m matrixWaits).matrixHead (s.seen .m matrixWaits e) := by
  obtain ⟨hu, hlate, hhead⟩ := State.HeadAt.looks (sl := .m) hat (by decide) matrixWaits fun e => mStatus e.j 0 0
  have hq := hu.queue (by decide)
  have hdue : (s.watch .m matrixWaits).isDue (s.seen .m matrixWaits e).due = true := by
    rw [State.seen_due, ← s.isDue_of_headAt hat]
    simp only [State.isDue, hu.strict, hu.rtick]
  have hent : (s.watch .m matrixWaits).tile.mq.entries = s.seen .m matrixWaits e :: es.map (s.seen .m matrixWaits) := congrArg Queue.entries hq
  have hact : (s.watch .m matrixWaits).tile.mq.act = none := (congrArg Queue.act hq).trans hat.2.1
  unfold State.matrixStart
  dsimp only
  rw [hlate]
  dsimp only
  rw [hent, hact]
  exact if_pos hdue

end

end Sys2Proof.Machine

-- The starts of the engines (R140, R142 to R145)

namespace Sys2Proof.Machine

section
variable {s : State} {e : Entry} {es : List Entry} {f : ProdFmt}

/-- The head's product starts on its cycle (R316). -/
theorem State.matrixStart_starts (hat : s.HeadAt s.tile.mq e es) (hready : s.strict = false → e.ready.getD s.pad.rtick ≤ s.pad.rtick)
    (hlook : s.strict = true ∨ (lWait e.ws 0).n = 0 ∨ e.ready ≠ none) {y : Sync} (hw : s.WaitsHold [lWait e.ws 0] y)
    (h : e.FramePair s.pad.shape f) : ∃ p, p.Of e f s.pad.rtick ∧ s.matrixStart.tile.mx.prods = s.tile.mx.prods ++ [p] ∧
      s.matrixStart.tile.mq.act = some { s := s.pad.rtick, fin := some (s.pad.rtick + f.t - 1) } ∧ SameMemory s s.matrixStart ∧
      ∀ r, s.matrixStart.rd r = s.rd r := by
  obtain ⟨hu, -, -⟩ := State.HeadAt.looks (sl := .m) hat (by decide) matrixWaits fun _ => 0
  obtain ⟨hcore, -, -, hmx, -⟩ := s.tile.setQueue_frame .m
    { s.tile.queue .m with entries := s.seen .m matrixWaits e :: es.map (s.seen .m matrixWaits) }
  rw [State.matrixStart_eq hat]
  generalize s.watch .m matrixWaits = u at hu
  have hseen := h.seen s .m matrixWaits
  have hws := (s.seen_instr .m matrixWaits e).2
  have hneed : u.matrixNeed (s.seen .m matrixWaits e) = { busy := false, waits := [lWait e.ws 0], ops := .ready, checks := none } := by
    rw [State.matrixNeed_framePair (f := f) (by rw [hu.shape]; exact hseen), hws]
  have hgo : u.startWhenDue .m (s.seen .m matrixWaits e) (mStatus (s.seen .m matrixWaits e).j 0 0)
      (u.matrixNeed (s.seen .m matrixWaits e)) = .go := by
    rw [hneed, State.startWhenDue_of_waitsHold .m _ _ rfl (hu.waitsHold hw) rfl rfl, hu.strict, hu.rtick]
    exact if_pos (State.seen_goes (matrixWaits_mma h.mma) hw hready hlook)
  have htakes := State.takeWaits_tile (hu.waitsHold hw).takes
  have hpad : (u.takeWaits [lWait e.ws 0]).pad.rtick = s.pad.rtick ∧ (u.takeWaits [lWait e.ws 0]).pad.shape = s.pad.shape := by
    rw [← hu.rtick, ← hu.shape, State.takeWaits, State.modSync_pad]
    exact ⟨rfl, rfl⟩
  obtain ⟨n, hn⟩ := hseen.mma
  have hmatrix : ∀ v : State, v.matrixGo (s.seen .m matrixWaits e) = v.prodGo (s.seen .m matrixWaits e) 0 := fun v => by
    rw [State.matrixGo, hn]
  have hmem := ((hu.memory.trans (sameMemory_takeWaits u [lWait e.ws 0])).trans (sameMemory_prodGo _ (s.seen .m matrixWaits e) 0)).trans
    (sameMemory_modQueue _ .m Queue.taken)
  obtain ⟨p, nst, hof, htile⟩ := (u.takeWaits [lWait e.ws 0]).prodGo_tile (f := f) (e := s.seen .m matrixWaits e)
    (by rw [hpad.2]; exact hseen) (by rw [htakes, hu.tile]; exact hat.2.1)
  obtain ⟨hserial, hj⟩ := s.seen_run .m matrixWaits e
  obtain ⟨hframeA, hframeB⟩ := s.seen_frames h.mma .m matrixWaits
  rw [Product.Of, hserial, hj, hframeA, hframeB, hws, hpad.1] at hof
  rw [hpad.1] at htile
  rw [State.matrixHead, State.startHead_go hgo, hneed, hmatrix]
  refine ⟨p, hof, ?_, ?_, hmem, State.rd_congr ?_⟩
  all_goals rw [State.modQueue_tile, htile, htakes, hu.tile]
  · exact congrArg (·.prods ++ [p]) hmx
  · exact (Queue.taken_same _).2.1
  · exact congrArg Core.regs hcore

end

theorem Drover.freeSlot_spec {d : Drover} {k : Nat} (h : d.freeSlot = some k) : k < 8 ∧ (∀ r ∈ d.runs, r.slot ≠ some k) ∧
    ∀ m, m < k → ∃ r ∈ d.runs, r.slot = some m := by
  have hheld : ∀ n, n ∈ d.held ↔ ∃ r ∈ d.runs, r.slot = some n := fun n => List.mem_filterMap
  obtain ⟨hfree, hlt, hbelow⟩ := List.find?_range_eq_some.mp h
  refine ⟨List.mem_range.mp hlt, fun r hr hk => ?_, fun m hm => ?_⟩
  · have hmem := (hheld k).mpr ⟨r, hr, hk⟩
    simp [hmem] at hfree
  · have hmem := hbelow m hm
    rw [← hheld]
    simpa using hmem

theorem dCmd_ne_fence {i : Instr} (h : ∀ n, i ≠ .dfence n) : dCmd i ≠ .fence := by
  unfold dCmd
  split
  case h_9 n => exact absurd rfl (h n)
  all_goals nofun

/-- A loose entry whose wait comes to hold on this cycle starts at most 64 cycles on (R143). -/
theorem State.droverStart_slack {s : State} {e : Entry} {es : List Entry} {k : Nat} (hat : s.HeadAt s.tile.dq e es)
    (hf : dCmd e.instr ≠ .fence) (hr : s.droverReason (e.droverRun s.pad.rtick) = none) (hk : s.tile.dr.freeSlot = some k)
    (hn : (dWait e.ws).n ≤ (s.tile.sync.sem (dWait e.ws).q).toNat)
    (hw : s.WaitsHold [dWait e.ws] (s.tile.sync.take (dWait e.ws).q (dWait e.ws).n)) (hs : s.strict = false)
    (hz : (dWait e.ws).n ≠ 0) (he : e.ready = none) :
    (s.slack .d e = 0 → s.Starts e (dWait e.ws) k s.droverStart) ∧ (0 < s.slack .d e → s.Idles s.droverStart ∧
      (s.droverStart.tile.dq.entries.head?.bind (·.ready)) = some (s.pad.rtick + s.slack .d e)) := by
  have hready : (s.seen .d droverWaits e).ready = some (s.pad.rtick + s.slack .d e) := by
    rw [State.seen_ready (w := dWait e.ws) rfl hs hw, he, if_pos hz]
    rfl
  constructor
  · intro h0
    exact State.droverStart_starts hat hf hr hn hw hk (.inr (by rw [hready, h0]; exact Nat.le_refl _))
  · intro hpos
    rw [← hready]
    exact State.droverStart_waits hat hf hr hw hs (by rw [hready]; exact Nat.lt_add_of_pos_right hpos)

/-- Settles O40: each engine's start is the look at its queue followed by what the head comes to. -/
theorem engineStarts : Obligations.EngineStarts := by
  unfold Obligations.EngineStarts
  intro s e es now at' due plain same held waits late
  have hold : ∀ w, held w → s.WaitsHold [w] (s.tile.sync.take w.q w.n) := fun w ⟨hn, hp, hs⟩ => State.waitsHold_one hn hp hs
  refine ⟨rfl, fun ⟨hat, hready⟩ hv => ⟨_, congrArg _ (State.vectorStart_starts hat hready hv), State.vectorQueue_spec hat⟩, ?_,
    fun k hk => Drover.freeSlot_spec hk, fun n f ⟨hat, hready⟩ hi ⟨hw, hlook⟩ hfmt ha hb hA hB => ?_⟩
  · intro w idle starts hfence hr
    have hf := dCmd_ne_fence hfence
    refine ⟨fun k hk ⟨hat, hready⟩ ⟨hw, hlook⟩ => ?_, fun k hk hat hs hw hn he => ?_, fun hat hs hw hlt => ?_, fun k hk hat hn hp => ?_,
      fun hk hat => ?_⟩
    · exact ⟨_, rfl, State.droverStart_starts hat hf hr hw.1 (hold w hw) hk (State.seen_goes rfl (hold w hw) hready hlook)⟩
    · obtain ⟨hzero, hpos⟩ := State.droverStart_slack hat hf hr hk hw.1 (hold w hw) hs hn he
      exact ⟨_, s.slack .d e, rfl, s.slack_le .d e, hzero, hpos⟩
    · have hr0 : ∃ r, e.ready = some r := by
        cases he : e.ready with
        | some r => exact ⟨r, rfl⟩
        | none =>
          rw [he] at hlt
          exact absurd hlt (Nat.lt_irrefl _)
      obtain ⟨r, he⟩ := hr0
      refine ⟨_, rfl, (State.droverStart_waits hat hf hr (hold w hw) hs ?_).1⟩
      rw [State.seen_ready (w := dWait e.ws) rfl hs (hold w hw), he]
      rw [he] at hlt
      exact hlt
    · exact ⟨_, rfl, State.droverStart_short hat hf hr hk hp hn⟩
    · exact ⟨_, rfl, State.droverStart_busy hat hf hr hk⟩
  · intro fa fb ct sp ha0 halt hb0 hblt hct
    have hmma : e.isMma := ⟨n, hi⟩
    have hfa : frameA e 0 = fa := frameA_mma hmma
    have hfb : frameB e 0 = fb := frameB_mma hmma
    have hpair : e.FramePair s.pad.shape f :=
      ⟨hmma, hfmt, ha, hb, hA, hB, by rw [hfa]; exact ⟨ha0, mod_cast halt⟩, by rw [hfb]; exact ⟨hb0, mod_cast hblt⟩, hct⟩
    obtain ⟨p, hof, hprods, hact, hmem, hrd⟩ := State.matrixStart_starts hat hready hlook (hold _ hw) hpair
    rw [Product.Of, hfa, hfb] at hof
    obtain ⟨hserial, hj, hp, hs, ht, haf, hbf, hc, hdead⟩ := hof
    exact ⟨_, p, rfl, rfl, hprods, hserial, hj, hp, hs, ht, haf, hbf, hc, hdead, hact, hmem, hrd⟩

end Sys2Proof.Machine

-- Configuration records (R198, R199)

namespace Sys2Proof.Machine

theorem Regs.rd_put (m : Regs) (k j : Nat) (v : W64) : Regs.rd (FMap.put m k v) j = if j = k then v else Regs.rd m j := by
  split
  · next h => rw [h, Regs.rd_put_same]
  · next h => exact Regs.rd_put_ne m k j v h

/-- A late write changes one word of the registers at f of the current tile, and nothing else. -/
def LandsIn (s : State) (f : Tile → Regs) (put : Tile → Regs → Tile) (l : Late) (k : Nat) (x : W64) : Prop :=
  s.land l = s.modTile (fun t => put t (f (s.land l).tile)) ∧
    ∀ j, Regs.rd (f (s.land l).tile) j = if j = k then x else Regs.rd (f s.tile) j

theorem landsIn_of_put {s : State} {f : Tile → Regs} {put : Tile → Regs → Tile} {l : Late} {k : Nat} {x : W64}
    (hl : s.land l = s.modTile fun t => put t (FMap.put (f t) k x)) (hput : ∀ t m, f (put t m) = m) :
    LandsIn s f put l k x := by
  have hf : f (s.land l).tile = FMap.put (f s.tile) k x := by rw [hl, State.modTile_tile, hput]
  refine ⟨hl.trans (State.modTile_congr ?_), fun j => ?_⟩
  · rw [hf]
  · rw [hf, Regs.rd_put]

-- The masks of Tables 11-2, 11-3 and 12-5 as words

theorem ddMask_eq (w : Nat) : ddMask w =
    ([0xFFFFFFFF1F1F1F1F, 0x3FFFFFFFFFF, 0xFFFFFFFFFF, 0xFFFFFFFFFFFFFFFF] : List W64).getD w 0 := by
  match w with
  | 0 | 1 | 2 | 3 => decide
  | _ + 4 => rfl

theorem tiMask_eq {w : Nat} (h : w < 8) : tiMask w = ([0xFFFFFFFFFFFF, 0xFFFFFFFFFFFFFFFF, 0xFFFFFFFFFFFFFFFF,
    0xFFFFFFFFFFFFFFFF, 0xFFFFFFFFFFFFFFFF, 0xF03, 0xF0F] : List W64).getD w 0 := by
  match w, h with
  | 0, _ | 1, _ | 2, _ | 3, _ | 4, _ | 5, _ | 6, _ | 7, _ => decide

theorem rgMask_eq (w : Nat) : rgMask w = ([0xFF001FF000, 0xFFFFFFFFFFFFFFFF, 0xFFFF] : List W64).getD w 0 := by
  match w with
  | 0 | 1 | 2 => decide
  | _ + 3 => rfl

theorem State.land_rg {s : State} {r w : Nat} {v : W64} (h : w ≠ 3) : s.land (.rg r w v) =
    s.modTile fun t => { t with dr := { t.dr with rg := FMap.put t.dr.rg (4 * r + w) (v &&& rgMask w) } } := if_neg h

/-- Settles O29: every write is late, and lands in one word of its record by `landsIn_of_put`. -/
theorem configurationRecords : Obligations.ConfigurationRecords := by
  unfold Obligations.ConfigurationRecords
  intro s d r a w v x after
  refine ⟨rfl, rfl, rfl, rfl, rfl, rfl, rfl, rfl, ?_⟩
  intro one
  have lands : ∀ {f put l k m}, (s.land l = s.modTile fun t => put t (FMap.put (f t) k (v &&& m))) →
      (∀ t x, f (put t x) = x) → one f put l k m := landsIn_of_put
  clear_value one
  refine ⟨fun rr ww => lands rfl fun _ _ => rfl, fun rr ww => lands rfl fun _ _ => rfl, fun rr ww => lands ?_ fun _ _ => rfl,
    fun rr ww hw => lands ?_ fun _ _ => rfl, fun rr => lands rfl fun _ _ => rfl, fun rr ww hw => ?_, fun rr => rfl⟩
  · rw [← ddMask_eq]
    rfl
  · rw [← tiMask_eq hw]
    rfl
  · rw [← rgMask_eq]
    exact lands (State.land_rg (by omega)) fun _ _ => rfl

end Sys2Proof.Machine

-- Mailboxes, the capability list, random draws (R203 to R205)

namespace Sys2Proof.Machine

section
variable (s : State) (d a : Reg) (k : BitVec 14)

theorem State.capCheck_ok (h : (s.capOff a k).toNat % 8 = 0) : s.capCheck a k = .ok :=
  (failIf_eq_ok _ _).mpr (decide_eq_false (not_not_intro h))

theorem exec_caprd_of_lt (h : (s.capOff a k).toNat % 8 = 0) (hlt : (s.capOff a k).toNat < 4096) :
    exec (.caprd d a k) s = .next (s.later d (capWord s.panel.retire2 (s.capOff a k).toNat) 1) :=
  (State.issue_of_ok (s.capCheck_ok a k h)).trans (by rw [if_neg (Nat.not_le.mpr hlt)])

theorem exec_caprd_of_ge (h : (s.capOff a k).toNat % 8 = 0) (hge : 4096 ≤ (s.capOff a k).toNat) :
    exec (.caprd d a k) s = .next (s.later d 0 1) :=
  (State.issue_of_ok (s.capCheck_ok a k h)).trans (by rw [if_pos hge])

theorem exec_caprd_of_misaligned (h : (s.capOff a k).toNat % 8 ≠ 0) :
    exec (.caprd d a k) s = .next (s.takeFault (sFault .misalign (s.capOff a k))) :=
  State.issue_of_fault (by rw [State.capCheck, decide_eq_true h, failIf_true])

theorem State.land_mbox_rd (n j : Nat) (v : W64) :
    Regs.rd (s.land (.mbox n v)).tile.mbox j = if j = n then v else Regs.rd s.tile.mbox j := by
  rw [State.land, State.modTile_tile, Regs.rd_put]

end

/-- Settles O32: a mailbox write lands in its mailbox, and CAPRD goes on from an aligned offset alone. -/
theorem mailboxesCapabilitiesDraws : Obligations.MailboxesCapabilitiesDraws := by
  unfold Obligations.MailboxesCapabilitiesDraws
  intro s d a b n k st off z
  refine ⟨rfl, fun hk => ?_, fun hu => ?_, fun v => ⟨?_, fun j hj => ?_⟩, exec_caprd_of_lt s d a k,
    exec_caprd_of_ge s d a k, exec_caprd_of_misaligned s d a k, rfl, rfl⟩
  · exact State.issue_of_ok (by rw [State.mbwrCheck, hk]; rfl)
  · exact State.issue_of_fault (by rw [State.mbwrCheck, hu]; rfl)
  · rw [State.land_mbox_rd, if_pos rfl]
  · rw [State.land_mbox_rd, if_neg hj]

end Sys2Proof.Machine

-- Words with an error code (R187, R238)

namespace Sys2Proof.Machine

/-- The number of one bits among k places. -/
theorem popcount_eq (x k : Nat) : popcount x k = ((List.range k).filter fun i => x.testBit i).length := by
  induction k generalizing x with
  | zero => rfl
  | succ k ih =>
    have hrest : (fun i => x.testBit i) ∘ Nat.succ = fun i => (x / 2).testBit i := funext fun i => Nat.testBit_succ x i
    have hfirst : x % 2 = (x.testBit 0).toNat := by rw [Nat.testBit_zero]; rcases Nat.mod_two_eq_zero_or_one x with h | h <;> simp [h]
    rw [popcount, ih, List.range_succ_eq_map, List.filter_cons, List.filter_map, hrest, hfirst]
    cases x.testBit 0 <;> simp [Nat.add_comm]

/-- The bits of a word that an error inverts. -/
def flips (m : W64) : Nat := ((List.range 64).filter fun i => m.getLsbD i).length

theorem popcount_toNat (m : W64) : popcount m.toNat 64 = flips m := popcount_eq _ _

theorem mem_nsDel {l : List Nat} {k j : Nat} : j ∈ nsDel l k ↔ j ∈ l ∧ j ≠ k := by simp [nsDel]

namespace Store

/-- The word is poisoned, or found so when it is read. -/
def Spoiled (st : Store) (w : Nat) : Prop := w ∈ st.poison ∨ ∃ m, FMap.get? st.errs w = some m ∧ 2 ≤ flips m

section
variable (st : Store) (w : Nat)

theorem mem_meet_poison : w ∈ (st.meet w).poison ↔ st.Spoiled w := by
  unfold Store.meet Spoiled
  cases FMap.get? st.errs w with
  | none => simp
  | some m =>
    simp only [popcount_toNat, Option.some.injEq, exists_eq_left']
    split
    · next h => simp [h]
    · split
      · next h => simp [h]
      · next h0 h1 => simp [mem_nsAdd, show 2 ≤ flips m by omega]

/-- An error that is corrected is counted. -/
theorem meet_hits (h : ∀ m, FMap.get? st.errs w = some m → flips m ≤ 1) :
    (st.meet w).hits = st.hits + (FMap.get? st.errs w).elim 0 flips := by
  unfold Store.meet
  cases hm : FMap.get? st.errs w with
  | none => rfl
  | some m =>
    have hle := h m hm
    simp only [popcount_toNat]
    split
    · next h0 => simp [h0]
    · next h0 =>
      have h1 : flips m = 1 := by omega
      simp [h1]

theorem not_spoiled (hp : w ∉ st.poison) (he : FMap.get? st.errs w = none ∨ ∃ m, FMap.get? st.errs w = some m ∧ flips m ≤ 1) :
    ¬ st.Spoiled w ∧ ∀ m, FMap.get? st.errs w = some m → flips m ≤ 1 := by
  have hle : ∀ m, FMap.get? st.errs w = some m → flips m ≤ 1 := by
    rintro m hm
    rcases he with he | ⟨m', he, hle⟩
    · simp [he] at hm
    · simpa [Option.some.inj (he.symm.trans hm)] using hle
  refine ⟨?_, hle⟩
  rintro (h | ⟨m, hm, h2⟩)
  · exact hp h
  · have := hle m hm
    omega

end

section
variable {st : Store} {a : Nat}

/-- Bytes that lie in one word are written as one. -/
theorem write_oneWord {bs : List Byte} (h0 : 0 < bs.length) (h : a / 8 = (a + bs.length - 1) / 8) : st.write a bs = st.writeWord a bs := by
  have hle : bs.length ≤ 8 - a % 8 := by omega
  have hne : bs.isEmpty = false := by cases bs with | nil => simp at h0 | cons => rfl
  have hrest : ∀ (k b : Nat) (u : Store), Store.writeN k u b [] = (u, none) := fun k b u => by cases k <;> rfl
  simp [Store.write, Store.writeN, hne, List.take_of_length_le hle, List.drop_of_length_le hle, hrest]

theorem poisoned_oneWord {n : Nat} (u : Store) (h : wordsOf a n = 1) :
    u.poisoned a n = if a / 8 ∈ u.poison then some (a / 8) else none := by
  have hin : ∀ x, decide (a / 8 ≤ x ∧ x < a / 8 + 1) = true ↔ x = a / 8 := fun x => by rw [decide_eq_true_eq]; omega
  rw [Store.poisoned, h]
  split
  · next hp =>
    cases hf : u.poison.find? fun w => decide (a / 8 ≤ w ∧ w < a / 8 + 1) with
    | none => exact absurd ((hin _).mpr rfl) (List.find?_eq_none.mp hf _ hp)
    | some x => rw [(hin x).mp (List.find?_some (p := fun w => decide (a / 8 ≤ w ∧ w < a / 8 + 1)) hf)]
  · next hp =>
    refine List.find?_eq_none.mpr fun x hx hin' => hp ?_
    rwa [← (hin x).mp hin']

theorem read_oneWord {n : Nat} (h0 : 0 < n) (h : a / 8 = (a + n - 1) / 8) : st.read a n =
    (st.meet (a / 8), if a / 8 ∈ (st.meet (a / 8)).poison then .error (8 * (a / 8)) else .ok (Mem.read st.bytes a n)) := by
  have hwords : wordsOf a n = 1 := by rw [wordsOf, if_neg (by omega)]; omega
  have hmeet : st.meetAll (a / 8) 1 = st.meet (a / 8) := by
    rw [Store.meetAll]
    split
    · next he =>
      have : st.errs = [] := List.isEmpty_iff.mp he
      simp [Store.meet, this, FMap.get?]
    · rfl
  rw [Store.read, hwords, hmeet]
  simp only [poisoned_oneWord _ hwords]
  by_cases hp : a / 8 ∈ (st.meet (a / 8)).poison <;> simp [hp]

/-- What a full word's write leaves: its bytes, with no poison and no error. -/
theorem write_fullWord {bs : List Byte} (h8 : bs.length = 8) (h : a / 8 = (a + bs.length - 1) / 8) : st.write a bs =
    ({ st with bytes := Mem.write st.bytes a bs, poison := nsDel st.poison (a / 8), errs := FMap.del st.errs (a / 8) }, none) := by
  rw [write_oneWord (by omega) h, Store.writeWord, if_pos h8]

/-- What a part's write comes to: its word is met first, and refuses it where it is spoiled. -/
theorem write_part {bs : List Byte} (h0 : 0 < bs.length) (h8 : bs.length < 8) (h : a / 8 = (a + bs.length - 1) / 8) :
    (st.Spoiled (a / 8) → st.write a bs = (st.meet (a / 8), some (8 * (a / 8)))) ∧
    (¬ st.Spoiled (a / 8) → st.write a bs =
      ({ st.meet (a / 8) with bytes := Mem.write st.bytes a bs }, none)) := by
  rw [write_oneWord h0 h, Store.writeWord, if_neg (by omega), ← st.mem_meet_poison]
  refine ⟨fun hp => ?_, fun hp => ?_⟩ <;> simp [hp, Nat.mul_comm]
end

end Store

/-- Settles O28: a full word's write meets nothing, and a part's write and a read meet their word, which is spoiled or is not. -/
theorem wordsWithErrorCodes : Obligations.WordsWithErrorCodes := by
  unfold Obligations.WordsWithErrorCodes
  intro st a bs hwf h0 h w flips err u
  have hbyte : ∀ i, i < bs.length → Mem.rd (Mem.write st.bytes a bs) (a + i) = bs.getD i 0 := fun i hi => by
    rw [Mem.rd_write _ _ _ _ hwf, if_pos (by omega), Nat.add_sub_cancel_left]
  refine ⟨fun h8 => ?_, fun h8 hs => ?_, fun h8 hp he => ?_, fun x hx => Store.write_outside st a bs x hwf hx,
    fun n hn h => ⟨fun hs => ?_, fun hp he => ?_⟩⟩
  · have hu : u = _ := Store.write_fullWord h8 h
    rw [hu]
    exact ⟨fun hw => (mem_nsDel.mp hw).2 rfl, rfl, rfl, rfl, fun i hi => hbyte i (h8 ▸ hi)⟩
  · have hu : u = _ := (Store.write_part h0 h8 h).1 hs
    rw [hu]
    exact ⟨rfl, st.meet_bytes w, (st.mem_meet_poison w).mpr hs⟩
  · obtain ⟨hns, hle⟩ := st.not_spoiled w hp he
    have hu : u = _ := (Store.write_part h0 h8 h).2 hns
    rw [hu]
    refine ⟨rfl, mt (st.mem_meet_poison w).mp hns, hbyte, (st.meet_hits w hle).trans ?_⟩
    dsimp only [err]
    cases FMap.get? st.errs w <;> rfl
  · rw [Store.read_oneWord hn h, if_pos ((st.mem_meet_poison w).mpr hs)]
  · obtain ⟨hns, -⟩ := st.not_spoiled w hp he
    rw [Store.read_oneWord hn h, if_neg (mt (st.mem_meet_poison w).mp hns), Mem.read_eq ((Mem.wf_iff _).mp hwf).1]
    exact ⟨rfl, st.meet_bytes w⟩

end Sys2Proof.Machine

-- The pool under accesses of one clean word (R187, R238)

namespace Sys2Proof.Machine

theorem leNat_lt (l : List Byte) : leNat l < 256 ^ l.length := by
  induction l with
  | nil => exact Nat.one_pos
  | cons b l ih =>
    have hb := b.isLt
    rw [leNat, List.length_cons, Nat.pow_succ]
    omega

theorem map_range_getD (l : List Byte) : ((List.range l.length).map fun i => l.getD i 0) = l := by
  refine List.ext_getElem (by simp) fun i h _ => ?_
  have hi : i < l.length := by simpa using h
  simp [hi]

/-- The bytes of a write, read back. -/
theorem Mem.map_rd_write {m : Mem} (hm : Mem.wf m = true) (a : Nat) (bs : List Byte) :
    ((List.range bs.length).map fun i => Mem.rd (Mem.write m a bs) (a + i)) = bs := by
  refine (List.map_congr_left fun i hi => ?_).trans (map_range_getD bs)
  rw [Mem.rd_write _ _ _ _ hm, if_pos (by have := List.mem_range.mp hi; omega), Nat.add_sub_cancel_left]

section
variable {st : Store} {a : Nat} (he : st.errs = []) (hp : a / 8 ∉ st.poison)
include he

theorem Store.meet_clean (w : Nat) : st.meet w = st := by simp [Store.meet, he, FMap.get?]

include hp

theorem Store.read_clean {n : Nat} (hm : Mem.wf st.bytes = true) (h0 : 0 < n) (h : a / 8 = (a + n - 1) / 8) :
    st.read a n = (st, .ok ((List.range n).map fun i => Mem.rd st.bytes (a + i))) := by
  rw [Store.read_oneWord h0 h, Store.meet_clean he, if_neg hp, Mem.read_eq ((Mem.wf_iff _).mp hm).1]

theorem Store.write_clean {bs : List Byte} (h0 : 0 < bs.length) (h8 : bs.length ≤ 8) (h : a / 8 = (a + bs.length - 1) / 8) :
    st.write a bs = ({ st with bytes := Mem.write st.bytes a bs }, none) := by
  have hns : ¬ st.Spoiled (a / 8) := by
    rw [← Store.mem_meet_poison, Store.meet_clean he]
    exact hp
  rcases Nat.lt_or_eq_of_le h8 with h8 | h8
  · rw [(Store.write_part h0 h8 h).2 hns, Store.meet_clean he]
  · have hdel : nsDel st.poison (a / 8) = st.poison :=
      List.filter_eq_self.mpr fun x hx => bne_iff_ne.mpr fun hxa => hp (hxa ▸ hx)
    have herrs : FMap.del st.errs (a / 8) = st.errs := by rw [he]; rfl
    rw [Store.write_fullWord h8 h, hdel, herrs]

end

section
variable {s : State}

/-- Without SLABGUARD a write is that of the store (R321). -/
theorem State.poolWrite_unguarded (hg : bit (s.ctl kMxdbg) 0 = false) (a : Nat) (bs : List Byte) : s.poolWrite a bs =
    (s.modTile fun t => t.modPool fun p => (p.write a bs).1, (s.tile.st.pool.write a bs).2) := by
  have hslab : ∀ u : State, u.tile.ctl = s.tile.ctl → ∀ n, u.slabGuard a n = u := fun u hu n => by
    rw [State.slabGuard, State.ctl, hu, ← State.ctl, hg]
    rfl
  rw [State.poolWrite, hslab _ (by rw [State.modTile_tile, Tile.modPool_ctl]), ite_self]
  rfl

theorem State.ownOff_eq {ea off : Nat} (h : s.pad.shape.target s.cur.tile ea = .own off) : s.ownOff ea = off := by
  rw [State.ownOff, h]

/-- What a tile keeps, every tile keeps. -/
theorem State.tileOf_setTile_keeps {β : Type} (f : Tile → β) {x : Tile} (h : f x = f s.tile) (k i : Nat) :
    f ((s.setTile x).tileOf k i) = f (s.tileOf k i) := by
  rw [State.tileOf_setTile]
  split
  · next hk =>
    obtain ⟨rfl, rfl⟩ := hk
    exact h
  · rfl

/-- A byte of the current tile's pool. -/
theorem State.byteAt_setTile_pool (x : Tile) (a : Nat) :
    (s.setTile x).byteAt (.pool s.cur.pad s.cur.tile) a = Mem.rd x.st.pool.bytes a := by
  simp only [State.byteAt, State.tileOf_setTile, and_self, if_true]

/-- A tile with other bytes in its pool leaves every other memory as it was. -/
theorem State.byteAt_setTile_ne {x : Tile} (hi : x.st.istore = s.tile.st.istore) (hc : x.st.cstore = s.tile.st.cstore)
    (ht : x.st.tmem = s.tile.st.tmem) {m : MemSite} (hm : m ≠ .pool s.cur.pad s.cur.tile) (a : Nat) :
    (s.setTile x).byteAt m a = s.byteAt m a := by
  cases m with
  | pool k i =>
    have hki : ¬ (k = s.cur.pad ∧ i = s.cur.tile) := by
      rintro ⟨rfl, rfl⟩
      exact hm rfl
    simp only [State.byteAt, State.tileOf_setTile, if_neg hki]
  | istore k i => exact congrArg (Mem.rd ·.bytes a) (State.tileOf_setTile_keeps (·.st.istore) hi k i)
  | cstore k i => exact congrArg (Mem.rd ·.bytes a) (State.tileOf_setTile_keeps (·.st.cstore) hc k i)
  | table k i => exact congrArg (Mem.rd ·.bytes a) (State.tileOf_setTile_keeps (·.st.tmem) ht k i)
  | hbm k => simp only [State.byteAt, State.padOf_setTile_hbm]
  | host => rfl

end

end Sys2Proof.Machine

-- Pool atomics (R406, R407)

namespace Sys2Proof.Machine

/-- The number that n bytes of a memory make (R3). -/
def State.number (s : State) (m : MemSite) (off n : Nat) : Nat := leNat ((List.range n).map fun i => s.byteAt m (off + i))

theorem State.number_lt (s : State) (m : MemSite) (off n : Nat) : s.number m off n < 2 ^ (8 * n) := by
  have h := leNat_lt ((List.range n).map fun i => s.byteAt m (off + i))
  rwa [List.length_map, List.length_range, show 256 = 2 ^ 8 from rfl, ← Nat.pow_mul] at h

theorem sext_eq_toInt {w : Nat} (hw : 0 < w) (v : Nat) : sext w v = (BitVec.ofNat w v).toInt := by
  have h2 : 2 ^ w = 2 * 2 ^ (w - 1) := by rw [← Nat.pow_succ', Nat.succ_eq_add_one, Nat.sub_add_cancel hw]
  rw [sext, BitVec.toInt_eq_toNat_cond, BitVec.toNat_ofNat]
  by_cases h : v % 2 ^ w < 2 ^ (w - 1)
  · rw [if_pos h, if_pos (by omega)]
  · rw [if_neg h, if_neg (by omega)]

/-- The old bytes as a register receives them, sign-extended. -/
theorem toInt_loadValue {n old : Nat} (h0 : 0 < n) (h8 : n ≤ 8) :
    (loadValue true (natLE n old)).toInt = (BitVec.ofNat (8 * n) old).toInt := by
  have hmod : BitVec.ofNat (8 * n) (old % 256 ^ n) = BitVec.ofNat (8 * n) old := by
    rw [show 256 = 2 ^ 8 from rfl, ← Nat.pow_mul]
    exact BitVec.eq_of_toNat_eq (by simp)
  simp only [loadValue, if_true, length_natLE, leNat_natLE]
  rw [w64i_sext _ _ (by omega), hmod, BitVec.toInt_signExtend_of_le (by omega)]

/-- An atomic's new value fits its bytes. -/
theorem AmoOp.apply_lt (op : AmoOp) {n old : Nat} (x : Nat) (h : old < 2 ^ (8 * n)) : op.apply n old x < 2 ^ (8 * n) := by
  have hx : x % 2 ^ (8 * n) < 2 ^ (8 * n) := Nat.mod_lt _ (Nat.two_pow_pos _)
  cases op with
  | add => exact Nat.mod_lt _ (Nat.two_pow_pos _)
  | min | max => simp only [AmoOp.apply]; split <;> assumption
  | and => exact Nat.and_lt_two_pow _ hx
  | or => exact Nat.or_lt_two_pow h hx
  | xor => exact Nat.xor_lt_two_pow h hx
  | swp => exact hx

/-- The tile after an atomic: other bytes in its pool, perhaps, and a register's value on its way. -/
def Tile.afterAtomic (t : Tile) (off n : Nat) (d : Reg) (r : Option Nat × W64 × BitVec 7) : Tile :=
  { t.modPool fun p => { p with bytes := r.1.elim p.bytes fun v => Mem.write p.bytes off (natLE n v) } with
    core := t.core.later d r.2.1 5 r.2.2 }

section
variable {s : State} {ea off n : Nat} (ht : s.pad.shape.target s.cur.tile ea = .own off)
  (hwf : Mem.wf s.tile.st.pool.bytes = true) (he : s.tile.st.pool.errs = []) (hp : s.tile.st.pool.poison = [])
  (hg : bit (s.ctl kMxdbg) 0 = false) (h0 : 0 < n) (h8 : n ≤ 8) (hw : off / 8 = (off + n - 1) / 8)
include hwf he hp h0 hw

theorem State.poolRead_clean : s.poolRead off n = (s.modTile fun t => t.modPool fun _ => s.tile.st.pool,
    .ok ((List.range n).map fun i => s.byteAt (.pool s.cur.pad s.cur.tile) (off + i))) := by
  rw [State.poolRead, Store.read_clean he (by simp [hp]) hwf h0 hw]
  rfl

include ht hg h8

theorem State.atomic_eq (d : Reg) (f : Nat → Option Nat × W64 × BitVec 7) :
    s.atomic ea n d f = s.setTile (s.tile.afterAtomic off n d (f (s.number (.pool s.cur.pad s.cur.tile) off n))) := by
  rw [State.atomic, State.ownOff_eq ht, State.poolRead_clean hwf he hp h0 hw, State.number]
  dsimp only
  generalize f _ = r
  obtain ⟨_ | v, x, fl⟩ := r
  · simp [State.laterFl, State.modCore, State.modTile, Tile.afterAtomic, Tile.modPool]
  · have hwrite := Store.write_clean (bs := natLE n v) he (a := off) (by simp [hp]) (by simpa using h0) (by simpa using h8)
      (by simpa using hw)
    have hg' : bit ((s.modTile fun t => t.modPool fun _ => s.tile.st.pool).ctl kMxdbg) 0 = false := by
      rwa [State.ctl, State.modTile_tile, Tile.modPool_ctl]
    dsimp only
    rw [State.poolWrite_unguarded hg']
    simp [State.laterFl, State.modCore, State.modTile, Tile.afterAtomic, Tile.modPool, hwrite]

end

section
variable {s : State} {off n : Nat} (d : Reg) (r : Option Nat × W64 × BitVec 7)

theorem State.afterAtomic_byte (a : Nat) :
    (s.setTile (s.tile.afterAtomic off n d r)).byteAt (.pool s.cur.pad s.cur.tile) a =
      Mem.rd (r.1.elim s.tile.st.pool.bytes fun v => Mem.write s.tile.st.pool.bytes off (natLE n v)) a := State.byteAt_setTile_pool _ a

variable (hwf : Mem.wf s.tile.st.pool.bytes = true)
include hwf

theorem State.afterAtomic_memory : SameMemoryBut s (s.setTile (s.tile.afterAtomic off n d r)) off n := fun m a ha => by
  by_cases hm : m = .pool s.cur.pad s.cur.tile
  · rw [hm, State.afterAtomic_byte]
    cases r.1 with
    | none => rfl
    | some v =>
      refine (Mem.rd_write _ _ _ _ hwf).trans (if_neg ?_)
      rw [length_natLE]
      have := ha.resolve_left (not_not_intro hm)
      omega
  · exact State.byteAt_setTile_ne (x := s.tile.afterAtomic off n d r) rfl rfl rfl hm a

theorem State.afterAtomic_number : (s.setTile (s.tile.afterAtomic off n d r)).number (.pool s.cur.pad s.cur.tile) off n =
    r.1.elim (s.number (.pool s.cur.pad s.cur.tile) off n) (· % 2 ^ (8 * n)) := by
  simp only [State.number, State.afterAtomic_byte]
  cases r.1 with
  | none => rfl
  | some v =>
    have hback := Mem.map_rd_write hwf off (natLE n v)
    rw [length_natLE] at hback
    simp only [Option.elim_some, hback, leNat_natLE]
    rw [show 256 = 2 ^ 8 from rfl, ← Nat.pow_mul]

end

/-- Settles O25: each atomic is `State.atomic_clean` at its own function of the old value. -/
theorem atomicCycle : Obligations.AtomicCycle := by
  unfold Obligations.AtomicCycle
  intro s ea off k ty o d x e ht hwf he hp hg hal n num old y si back
  have hn : n = 4 ∨ n = 8 := by cases ty <;> simp [n, AmoTy.bytes]
  have hal : off % n = 0 := hal
  have hword : off / 8 = (off + n - 1) / 8 := by
    rcases hn with h | h
    · rw [h] at hal ⊢
      omega
    · rw [h] at hal ⊢
      omega
  have hspec : ∀ f t, t = s.atomic ea n d f → SameMemoryBut s t off n ∧
      t.tile.core = s.tile.core.later d (f old).2.1 5 (f old).2.2 ∧ num t = (f old).1.elim old (· % 2 ^ (8 * n)) := fun f t h => by
    rw [h, State.atomic_eq ht hwf he hp hg (by omega) (by omega) hword d f]
    exact ⟨State.afterAtomic_memory d _ hwf, by rw [State.setTile_tile]; rfl, State.afterAtomic_number d _ hwf⟩
  have hlt : old < 2 ^ (8 * n) := s.number_lt _ _ _
  have hsext : ∀ v, sext (8 * n) v = si v := sext_eq_toInt (by omega)
  have hback : ∀ {t : State}, t.tile.core = s.tile.core.later d (loadValue true (natLE n old)) 5 0 → back t := fun h =>
    ⟨_, h, toInt_loadValue (by omega) (by omega)⟩
  have hy : y % 2 ^ (8 * n) = y := Nat.mod_mod _ _
  have hsiy : sext (8 * n) x.toNat = si y := by
    rw [← hsext, sext, sext, hy]
  refine ⟨fun op t ht => ?_, fun t ht => ?_, fun ft md t hft ht => ?_⟩
  · obtain ⟨hmem, hcore, hnum⟩ := hspec (fun old => (some (op.apply n old x.toNat), loadValue true (natLE n old), 0)) t ht
    replace hnum : num t = op.apply n old x.toNat := hnum.trans (Nat.mod_eq_of_lt (AmoOp.apply_lt op _ hlt))
    refine ⟨hmem, hback hcore, ?_⟩
    cases op with
    | add => exact hnum.trans (Nat.add_mod_mod ..).symm
    | min =>
      rw [hnum]
      simp only [AmoOp.apply, hsiy, hsext]
      split
      · next h => exact (min_eq_right h.le).symm
      · next h => exact (min_eq_left (not_lt.mp h)).symm
    | max =>
      rw [hnum]
      simp only [AmoOp.apply, hsiy, hsext]
      split
      · next h => exact (max_eq_right h.le).symm
      · next h => exact (max_eq_left (not_lt.mp h)).symm
    | and | or | xor | swp => exact hnum
  · obtain ⟨hmem, hcore, hnum⟩ := hspec (fun old =>
      (if old = e.toNat % 2 ^ (8 * n) then some (x.toNat % 2 ^ (8 * n)) else none, loadValue true (natLE n old), 0)) t ht
    refine ⟨hmem, hback hcore, hnum.trans ?_⟩
    dsimp only
    split
    · next h => exact hy
    · rfl
  · have hbits : scalarBits ft.fmt x = y := by rw [scalarBits, width_fmt_fpTy, hft, Nat.mul_comm]
    obtain ⟨hmem, hcore, hnum⟩ := hspec (fun old => (some (fAdd ft.fmt md.rnd old y).pat, w64 old, (fAdd ft.fmt md.rnd old y).fl)) t
      (by rw [ht, ← hbits, ← hft]; rfl)
    exact ⟨hmem, hnum, hcore⟩

end Sys2Proof.Machine

-- SPILL and FILL (R190, R235)

namespace Sys2Proof.Machine

section
variable {s : State}

theorem Shape.area_eq_pen {sh : Shape} {off : Nat} : sh.area off = .pen ↔ sh.penBase ≤ off ∧ sh.spBytes ≤ off := by
  unfold Shape.area
  split
  · next h => simp; omega
  · split
    · next h => simp; omega
    · next h h' => simp; omega

theorem State.inPen_eq_true {ea : Nat} : s.inPen ea = true ↔ ∃ off, s.pad.shape.target s.cur.tile ea = .own off ∧
    off + 8 ≤ 0x200000 ∧ s.pad.shape.penBase ≤ off ∧ s.pad.shape.spBytes ≤ off := by
  unfold State.inPen
  split
  · next off h => simp [h, Shape.area_eq_pen, poolSize]
  · next h => simpa using fun off ho => absurd ho (h off)

variable (s)

theorem State.memCheck_ok {x : W64} {n : Nat} (h : x.toNat % n = 0) : s.memCheck x n true = .ok := by simp [State.memCheck, h]

theorem State.memCheck_misalign {x : W64} {n : Nat} (ok : Bool) (h : x.toNat % n ≠ 0) :
    s.memCheck x n ok = .fault (sFault .misalign x) := by simp [State.memCheck, h]

theorem State.memCheck_protection {x : W64} {n : Nat} (h : x.toNat % n = 0) :
    s.memCheck x n false = .fault (sFault .protection x) := by simp [State.memCheck, h]

end

-- The access cycles

/-- A full word written to a store. -/
def Store.putWord (st : Store) (a x : Nat) : Store :=
  { st with bytes := Mem.write st.bytes a (natLE 8 x), poison := nsDel st.poison (a / 8), errs := FMap.del st.errs (a / 8) }

theorem Store.write_putWord (st : Store) {a : Nat} (x : Nat) (h : a % 8 = 0) : st.write a (natLE 8 x) = (st.putWord a x, none) :=
  Store.write_fullWord (length_natLE 8 x) (by rw [length_natLE]; omega)

/-- A clean word of a store, with the number it holds. -/
structure Store.Holds (st : Store) (a x : Nat) : Prop where
  wf : Mem.wf st.bytes = true
  errs : st.errs = []
  clean : a / 8 ∉ st.poison
  bytes : ((List.range 8).map fun i => Mem.rd st.bytes (a + i)) = natLE 8 x

section
variable {st : Store} {a x : Nat}

theorem Store.holds_putWord (hwf : Mem.wf st.bytes = true) (he : st.errs = []) : (st.putWord a x).Holds a x where
  wf := Mem.wf_write _ _ _ hwf
  errs := by rw [Store.putWord, he]; rfl
  clean := fun hp => (mem_nsDel.mp hp).2 rfl
  bytes := by
    have hback := Mem.map_rd_write hwf a (natLE 8 x)
    rwa [length_natLE] at hback

/-- A word stands over a later word's write. -/
theorem Store.Holds.putWord (h : st.Holds a x) {b : Nat} (y : Nat) (hb : a + 8 ≤ b) : (st.putWord b y).Holds a x where
  wf := Mem.wf_write _ _ _ h.wf
  errs := by rw [Store.putWord, h.errs]; rfl
  clean := fun hp => h.clean (mem_nsDel.mp hp).1
  bytes := by
    rw [← h.bytes]
    refine List.map_congr_left fun i hi => (Mem.rd_write _ _ _ _ h.wf).trans (if_neg ?_)
    have := List.mem_range.mp hi
    omega

theorem Store.Holds.read (h : st.Holds a x) (ha : a % 8 = 0) : st.read a 8 = (st, .ok (natLE 8 x)) := by
  rw [Store.read_clean h.errs h.clean h.wf (by decide) (by omega), h.bytes]

theorem Store.putWord_rd (hwf : Mem.wf st.bytes = true) {y : Nat} (hy : y < a ∨ a + 8 ≤ y) :
    Mem.rd (st.putWord a x).bytes y = Mem.rd st.bytes y :=
  (Mem.rd_write _ _ _ _ hwf).trans (if_neg (by rw [length_natLE]; omega))

end

section
variable {s : State}

theorem State.poolWrite_word (hg : bit (s.ctl kMxdbg) 0 = false) {a : Nat} (x : Nat) (h : a % 8 = 0) :
    (s.poolWrite a (natLE 8 x)).1 = s.modTile fun t => t.modPool (·.putWord a x) := by
  rw [State.poolWrite_unguarded hg]
  exact congrArg (fun f => s.modTile fun t => t.modPool f) (funext fun p => by rw [Store.write_putWord p x h])

theorem getLsbD_fld_one (d : Reg) : (fld 1 d.toNat).getLsbD d.toNat = true := by
  rw [fld, BitVec.getLsbD_ofNat, Nat.one_mul, Nat.testBit_two_pow_self, Bool.and_true, decide_eq_true d.isLt]

/-- The tile after the access cycle of a SPILL: the word and its address are written, and the register is marked. -/
def Tile.afterSpill (t : Tile) (d : Reg) (off ea x : Nat) : Tile :=
  (t.modPool fun p => (p.putWord off x).putWord (spillSlot d) ea).setCtl kSpmap (Regs.rd t.ctl kSpmap ||| fld 1 d.toNat)

theorem spillSlot_aligned (d : Reg) : spillSlot d % 8 = 0 := by rw [spillSlot]; omega

theorem State.perform_spill (hg : bit (s.ctl kMxdbg) 0 = false) (d : Reg) (v : W64) {ea off : Nat} (l : Nat)
    (ht : s.pad.shape.target s.cur.tile ea = .own off) (h : off % 8 = 0) :
    s.perform { acc := .spill d v, ea := ea, left := l } = s.setTile (s.tile.afterSpill d off ea v.toNat) := by
  have hg' : bit ((s.modTile fun t => t.modPool (·.putWord off v.toNat)).ctl kMxdbg) 0 = false := by
    rwa [State.ctl, State.modTile_tile, Tile.modPool_ctl]
  simp only [State.perform, State.ownOff_eq ht, State.poolWrite_word hg _ h, State.poolWrite_word hg' _ (spillSlot_aligned d)]
  simp [State.setCtl, State.modTile, State.ctl, Tile.afterSpill, Tile.modPool]

theorem Tile.afterSpill_mark (t : Tile) (d : Reg) (off ea x : Nat) :
    (Regs.rd (t.afterSpill d off ea x).ctl kSpmap).getLsbD d.toNat = true := by
  rw [Tile.afterSpill, Tile.setCtl_rd, BitVec.getLsbD_or, getLsbD_fld_one, Bool.or_true]

/-- Both words stand, the register's below the table. -/
theorem Tile.afterSpill_holds {t : Tile} (hwf : Mem.wf t.st.pool.bytes = true) (he : t.st.pool.errs = []) (d : Reg) {off : Nat}
    (ea x : Nat) (h : off + 8 ≤ spillSlot d) :
    (t.afterSpill d off ea x).st.pool.Holds off x ∧ (t.afterSpill d off ea x).st.pool.Holds (spillSlot d) ea :=
  have hx : (t.st.pool.putWord off x).Holds off x := Store.holds_putWord hwf he
  ⟨hx.putWord ea h, Store.holds_putWord hx.wf hx.errs⟩

theorem State.afterSpill_byteAt (hwf : Mem.wf s.tile.st.pool.bytes = true) (d : Reg) (off ea x : Nat) {m : MemSite} {y : Nat}
    (h : m ≠ .pool s.cur.pad s.cur.tile ∨ (y < off ∨ off + 8 ≤ y) ∧ (y < spillSlot d ∨ spillSlot d + 8 ≤ y)) :
    (s.setTile (s.tile.afterSpill d off ea x)).byteAt m y = s.byteAt m y := by
  by_cases hm : m = .pool s.cur.pad s.cur.tile
  · obtain ⟨hy, hslot⟩ := h.resolve_left (not_not_intro hm)
    rw [hm, State.byteAt_setTile_pool]
    exact (Store.putWord_rd (Mem.wf_write _ _ _ hwf) hslot).trans (Store.putWord_rd hwf hy)
  · exact State.byteAt_setTile_ne (x := s.tile.afterSpill d off ea x) rfl rfl rfl hm y

/-- The tile after the first access of a FILL, which read an address: the mark is gone, and the second access is on its way. -/
def Tile.afterFillTable (t : Tile) (d : Reg) (older ea : Nat) : Tile :=
  { t.setCtl kSpmap (Regs.rd t.ctl kSpmap &&& ~~~fld 1 d.toNat) with
    core := { t.core with acc := t.core.acc ++ [{ acc := .fillWord d older, ea := ea, left := 1 }] } }

theorem Tile.afterFillTable_mark (t : Tile) (d : Reg) (older ea : Nat) :
    (Regs.rd (t.afterFillTable d older ea).ctl kSpmap).getLsbD d.toNat = false := by
  refine (congrArg (BitVec.getLsbD · d.toNat) (t.setCtl_rd kSpmap _)).trans ?_
  rw [BitVec.getLsbD_and, BitVec.getLsbD_not, getLsbD_fld_one, Bool.not_true, Bool.and_false, Bool.and_false]

theorem State.perform_fillTable {d : Reg} {x : Nat} (h : s.tile.st.pool.Holds (spillSlot d) x) (hx : x < 2 ^ 64) (ea l : Nat) :
    ∃ older, s.perform { acc := .fillTable d, ea := ea, left := l } = s.setTile (s.tile.afterFillTable d older x) := by
  have hnum : leNat (natLE 8 x) = x := by rw [leNat_natLE]; exact Nat.mod_eq_of_lt hx
  refine ⟨(s.tile.core.pend.filter fun w => decide (1 < w.left)).length, ?_⟩
  simp only [State.perform, State.poolRead, h.read (spillSlot_aligned d), hnum]
  simp [State.setCtl, State.modCore, State.modTile, State.ctl, Tile.afterFillTable, Tile.modPool, Tile.setCtl]

/-- The second access of a FILL brings the word back, to land two cycles on. -/
theorem State.perform_fillWord (d : Reg) (older : Nat) {ea off l x : Nat} (ht : s.pad.shape.target s.cur.tile ea = .own off)
    (ha : ea % 8 = 0) (ho : off % 8 = 0) (hpen : s.inPen ea = true) (h : s.tile.st.pool.Holds off x) :
    (s.perform { acc := .fillWord d older, ea := ea, left := l }).tile.core.pend =
      s.tile.core.pend.take older ++ { reg := d, val := w64 x, left := 2, flags := 0 } :: s.tile.core.pend.drop older := by
  have hval : loadValue false (natLE 8 x) = w64 x := by
    simp only [loadValue, leNat_natLE]
    exact BitVec.eq_of_toNat_eq (by simp [w64])
  simp only [State.perform, ha, hpen, State.ownOff_eq ht, State.poolRead, h.read ho, hval]
  simp

end

/-- Settles O26: at issue by the check of an access; then cycle by cycle, each from what the one before left in the pool. -/
theorem spillAndFill : Obligations.SpillAndFill := by
  unfold Obligations.SpillAndFill
  intro s d a o hd ea pen fly
  have hpen : s.inPen ea.toNat = true ↔ pen := State.inPen_eq_true
  refine ⟨fun hal hp => State.issue_of_ok ?_, fun hal => State.issue_of_fault (s.memCheck_misalign _ hal),
    fun hal hp => State.issue_of_fault ?_, fun hb => ?_, fun hb => ?_, fun v off ht hal hlt hbase hsp hwf he hg => ?_⟩
  · show s.memCheck ea 8 (s.inPen ea.toNat) = _
    rw [hpen.mpr hp]
    exact s.memCheck_ok hal
  · show s.memCheck ea 8 (s.inPen ea.toNat) = _
    rw [Bool.eq_false_iff.mpr (mt hpen.mp hp)]
    exact s.memCheck_protection hal
  · exact congrArg Host.Outcome.next (if_pos hb)
  · exact congrArg Host.Outcome.next (if_neg (by rw [bit, hb]; decide))
  · intro t u
    have hst : t = s.setTile (s.tile.afterSpill d off off v.toNat) := State.perform_spill hg d v 1 ht hal
    obtain ⟨hword, haddr⟩ := Tile.afterSpill_holds hwf he d off v.toNat (Nat.le_trans hlt (Nat.le_add_right _ (8 * d.toNat)))
    rw [← State.setTile_tile s (s.tile.afterSpill d off off v.toNat), ← hst] at hword haddr
    obtain ⟨older, hu⟩ : ∃ older, u = t.setTile (t.tile.afterFillTable d older off) := State.perform_fillTable haddr (by omega) _ 1
    clear_value u t
    refine ⟨?_, fun m x hx => ?_, ?_, older, ?_, ?_⟩
    · rw [hst, State.ctl, State.setTile_tile]
      exact Tile.afterSpill_mark ..
    · rw [hst]
      exact State.afterSpill_byteAt hwf d off off _ hx
    · rw [hu, State.ctl, State.setTile_tile]
      exact Tile.afterFillTable_mark ..
    · rw [hu, hst, State.setTile_tile, State.setTile_tile]
      rfl
    · have hshape : u.pad.shape = s.pad.shape := by rw [hu, hst, State.setTile_pad, State.setTile_pad]
      have hcur : u.cur = s.cur := by rw [hu, hst]; rfl
      have htu : u.pad.shape.target u.cur.tile off = .own off := by rw [hshape, hcur, ht]
      have hpool : u.tile.st.pool.Holds off v.toNat := by rw [hu, State.setTile_tile]; exact hword
      have hin : u.inPen off = true := by
        rw [State.inPen_eq_true, hshape, hcur]
        exact ⟨off, ht, by omega, hbase, hsp⟩
      rw [State.perform_fillWord d older htu hal hal hin hpool]
      exact ⟨_, List.mem_append_right _ (List.mem_cons_self ..), rfl, by simp [w64], rfl⟩

end Sys2Proof.Machine

-- The integer cells of slot S (R164 to R166)

namespace Sys2Proof.Machine

section
variable {d a b : Reg} {fn : BitVec 8} {op : BitVec 9} {j : Instr}

/-- A cell that asks for fn 0 reads no other word. -/
theorem readsNot_fn (hr : decodeRaw .s op.toNat (rrr d a b fn) = onlyIf (opFn (rrr d a b fn) == 0) j) (h : fn ≠ 0) :
    ReadsNot .s op (rrr d a b fn) :=
  readsNot_of_onlyIf hr fun hc => absurd (beq_iff_eq.mp hc) (by rwa [rrr_eq_packR, opFn_packR])

/-- A cell that asks for fn 0 and b 0 reads no other word. -/
theorem readsNot_fn_b (hr : decodeRaw .s op.toNat (rrr d a b fn) = onlyIf (opFn (rrr d a b fn) == 0 && opB (rrr d a b fn) == 0) j)
    (h : fn ≠ 0 ∨ b ≠ 0) : ReadsNot .s op (rrr d a b fn) := readsNot_of_onlyIf hr fun hc => by
  simp only [rrr_eq_packR, opFn_packR, opB_packR, Bool.and_eq_true, beq_iff_eq] at hc
  tauto

/-- A cell whose immediate is 0 to 63 reads no other word. -/
theorem readsNot_imm6 {i : BitVec 14} (hr : decodeRaw .s op.toNat (ri d a i) = onlyIf ((ri d a i).extractLsb' 6 8 == 0) j)
    (h : 64 ≤ i.toNat) : ReadsNot .s op (ri d a i) := readsNot_of_onlyIf hr fun hc => by
  rw [extract_beq_zero_iff, ri_toNat] at hc
  have := i.isLt
  omega

/-- A cell that reads the low k bits of fn reads no word with another bit set. -/
theorem readsNot_fn_high {k l : Nat} (hr : decodeRaw .s op.toNat (rrr d a b fn) = onlyIf ((opFn (rrr d a b fn)).extractLsb' k l == 0) j)
    (hkl : k + l = 8) (h : 2 ^ k ≤ fn.toNat) : ReadsNot .s op (rrr d a b fn) := readsNot_of_onlyIf hr fun hc => by
  rw [extract_beq_zero_iff, rrr_eq_packR, opFn_packR, Nat.mod_eq_of_lt] at hc
  · exact absurd hc (Nat.div_pos h (Nat.two_pow_pos k)).ne'
  · have := fn.isLt
    exact Nat.div_lt_of_lt_mul (by rwa [← Nat.pow_add, hkl])

end

-- Results of Table 7-2

theorem toInt_w64i {z : Int} (hlo : -2 ^ 63 ≤ z) (hhi : z < 2 ^ 63) : (w64i z).toInt = z := by
  rw [w64i, BitVec.toInt_ofInt]
  exact Int.bmod_eq_of_le (by omega) (by omega)

theorem toNat_w64 {n : Nat} (h : n < 2 ^ 64) : (w64 n).toNat = n := by
  rw [w64, BitVec.toNat_ofNat, Nat.mod_eq_of_lt h]

theorem toInt_bounds (x : W64) : -2 ^ 63 ≤ x.toInt ∧ x.toInt < 2 ^ 63 := ⟨x.le_toInt, x.toInt_lt⟩

section
variable (x y : W64)

theorem toNat_sub_add : ((x - y).toNat + y.toNat) % 2 ^ 64 = x.toNat := by rw [← BitVec.toNat_add, BitVec.sub_add_cancel]

theorem getLsbD_andn {i : Nat} (hi : i < 64) : (x &&& ~~~y).getLsbD i = (x.getLsbD i && !y.getLsbD i) := by
  rw [BitVec.getLsbD_and, BitVec.getLsbD_not, decide_eq_true hi, Bool.true_and]

theorem mulHigh_toInt : (mulHigh x y).toInt = x.toInt * y.toInt / 2 ^ 64 := by
  obtain ⟨hx, hx'⟩ := toInt_bounds x
  obtain ⟨hy, hy'⟩ := toInt_bounds y
  refine toInt_w64i ?_ ?_
  · rw [Int.le_ediv_iff_mul_le (by decide)]
    nlinarith
  · rw [Int.ediv_lt_iff_lt_mul (by decide)]
    nlinarith

theorem mulHighN_toNat : (mulHighN x y).toNat = x.toNat * y.toNat / 2 ^ 64 :=
  toNat_w64 (Nat.div_lt_of_lt_mul (Nat.mul_lt_mul'' x.isLt y.isLt))

theorem shiftLeft_toNat (n : Nat) : (x <<< n).toNat = x.toNat * 2 ^ n % 2 ^ 64 := by
  rw [BitVec.toNat_shiftLeft, Nat.shiftLeft_eq]

theorem ushiftRight_toNat (n : Nat) : (x >>> n).toNat = x.toNat / 2 ^ n := by
  rw [BitVec.toNat_ushiftRight, Nat.shiftRight_eq_div_pow]

theorem sshiftRight_toInt (n : Nat) : (x.sshiftRight n).toInt = x.toInt / 2 ^ n := by
  rw [BitVec.toInt_sshiftRight, Int.shiftRight_eq_div_pow]
  norm_cast

/-- Bit i of the source is bit i + n of its rotation. -/
theorem rotateLeft_getLsbD {n : Nat} (hn : n < 64) {i : Nat} (hi : i < 64) :
    (x.rotateLeft n).getLsbD ((i + n) % 64) = x.getLsbD i := by
  rw [BitVec.getLsbD_rotateLeft, Nat.mod_eq_of_lt hn]
  by_cases h : i + n < 64
  · rw [Nat.mod_eq_of_lt h]
    simp [h]
  · have hm : (i + n) % 64 = i + n - 64 := by omega
    rw [hm, decide_eq_true (by omega), cond_true]
    congr 1
    omega

theorem minS_toInt : (minS x y).toInt = min x.toInt y.toInt := by
  simp only [minS, BitVec.slt_iff_toInt_lt]
  split
  · next h => exact (min_eq_right h.le).symm
  · next h => exact (min_eq_left (not_lt.mp h)).symm

theorem maxS_toInt : (maxS x y).toInt = max x.toInt y.toInt := by
  simp only [maxS, BitVec.slt_iff_toInt_lt]
  split
  · next h => exact (max_eq_right h.le).symm
  · next h => exact (max_eq_left (not_lt.mp h)).symm

theorem minU_toNat : (minU x y).toNat = min x.toNat y.toNat := by
  simp only [minU, BitVec.ult_iff_lt, BitVec.lt_def]
  split
  · next h => exact (min_eq_right h.le).symm
  · next h => exact (min_eq_left (not_lt.mp h)).symm

theorem maxU_toNat : (maxU x y).toNat = max x.toNat y.toNat := by
  simp only [maxU, BitVec.ult_iff_lt, BitVec.lt_def]
  split
  · next h => exact (max_eq_right h.le).symm
  · next h => exact (max_eq_left (not_lt.mp h)).symm

/-- The leading zero bits among the low n are the highest ones, and a one bit follows them. -/
theorem clzN_spec (n : Nat) : clzN x n ≤ n ∧ (∀ i, n - clzN x n ≤ i → i < n → x.getLsbD i = false) ∧
    (clzN x n < n → x.getLsbD (n - 1 - clzN x n) = true) := by
  induction n with
  | zero => exact ⟨Nat.le_refl 0, fun i _ hi => absurd hi (Nat.not_lt_zero i), fun h => absurd h (Nat.not_lt_zero _)⟩
  | succ n ih =>
    obtain ⟨hle, hzero, hone⟩ := ih
    rw [clzN]
    split
    · next hb => exact ⟨Nat.zero_le _, fun i hi hi' => by omega, fun _ => hb⟩
    · next hb =>
      refine ⟨Nat.succ_le_succ hle, fun i hi hi' => ?_, fun h => ?_⟩
      · rcases Nat.lt_succ_iff_lt_or_eq.mp hi' with hi' | rfl
        · exact hzero i (by omega) hi'
        · exact Bool.eq_false_iff.mpr hb
      · rw [show n + 1 - 1 - (clzN x n + 1) = n - 1 - clzN x n by omega]
        exact hone (Nat.lt_of_succ_lt_succ h)

/-- The trailing zero bits from bit 64 - n on are the lowest ones, and a one bit follows them. -/
theorem ctzN_spec {n : Nat} (hn : n ≤ 64) : ctzN x n ≤ n ∧ (∀ i, 64 - n ≤ i → i < 64 - n + ctzN x n → x.getLsbD i = false) ∧
    (ctzN x n < n → x.getLsbD (64 - n + ctzN x n) = true) := by
  induction n with
  | zero => exact ⟨Nat.le_refl 0, fun i h hi => by rw [ctzN] at hi; omega, fun h => absurd h (Nat.not_lt_zero _)⟩
  | succ n ih =>
    obtain ⟨hle, hzero, hone⟩ := ih (by omega)
    have hfirst : 64 - (n + 1) = 63 - n := by omega
    rw [ctzN, hfirst]
    split
    · next hb => exact ⟨Nat.zero_le _, fun i hi hi' => by omega, fun _ => hb⟩
    · next hb =>
      refine ⟨Nat.succ_le_succ hle, fun i hi hi' => ?_, fun h => ?_⟩
      · rcases Nat.eq_or_lt_of_le hi with rfl | hi
        · exact Bool.eq_false_iff.mpr hb
        · exact hzero i (by omega) (by omega)
      · rw [show 63 - n + (ctzN x n + 1) = 64 - n + ctzN x n by omega]
        exact hone (Nat.lt_of_succ_lt_succ h)

theorem shamt_lt : shamt x < 64 := Nat.mod_lt _ (by decide)

theorem clz_spec : (w64 (clzN x 64)).toNat ≤ 64 ∧ (∀ i, 64 - (w64 (clzN x 64)).toNat ≤ i → x.getLsbD i = false) ∧
    ((w64 (clzN x 64)).toNat < 64 → x.getLsbD (63 - (w64 (clzN x 64)).toNat) = true) := by
  obtain ⟨hle, hzero, hone⟩ := clzN_spec x 64
  rw [toNat_w64 (by omega)]
  refine ⟨hle, fun i hi => ?_, hone⟩
  by_cases hi' : i < 64
  · exact hzero i hi hi'
  · exact BitVec.getLsbD_of_ge x i (by omega)

theorem ctz_spec : (w64 (ctzN x 64)).toNat ≤ 64 ∧ (∀ i, i < (w64 (ctzN x 64)).toNat → x.getLsbD i = false) ∧
    ((w64 (ctzN x 64)).toNat < 64 → x.getLsbD (w64 (ctzN x 64)).toNat = true) := by
  obtain ⟨hle, hzero, hone⟩ := ctzN_spec x (Nat.le_refl 64)
  rw [toNat_w64 (by omega)]
  rw [Nat.sub_self, Nat.zero_add] at hzero hone
  exact ⟨hle, fun i => hzero i (Nat.zero_le i), hone⟩

theorem popc_toNat : (w64 (popcount x.toNat 64)).toNat = flips x := by
  rw [popcount_toNat]
  exact toNat_w64 (Nat.lt_of_le_of_lt (List.length_filter_le ..) (by simp))

end

/-- Settles O8: each result by its own lemma, each cell as the word of its instruction. -/
theorem integerResults : Obligations.IntegerResults := by
  unfold Obligations.IntegerResults
  refine ⟨fun s d a b => ?_, fun d a b => ?_⟩
  · intro x y n
    exact ⟨⟨_, rfl, BitVec.toNat_add x y⟩, ⟨_, rfl, toNat_sub_add x y⟩, ⟨_, rfl, BitVec.toNat_mul x y⟩, ⟨_, rfl, mulHigh_toInt x y⟩,
      ⟨_, rfl, mulHighN_toNat x y⟩, ⟨_, rfl, fun i _ => BitVec.getLsbD_and⟩, ⟨_, rfl, fun i _ => BitVec.getLsbD_or⟩,
      ⟨_, rfl, fun i _ => BitVec.getLsbD_xor⟩, ⟨_, rfl, fun i => getLsbD_andn x y⟩, ⟨_, rfl, shiftLeft_toNat x n⟩,
      ⟨_, rfl, ushiftRight_toNat x n⟩, ⟨_, rfl, sshiftRight_toInt x n⟩,
      ⟨_, rfl, fun i hi => rotateLeft_getLsbD x (shamt_lt y) hi⟩, ⟨_, rfl, clz_spec x⟩, ⟨_, rfl, ctz_spec x⟩,
      ⟨_, rfl, popc_toNat x⟩, ⟨_, rfl, minS_toInt x y⟩, ⟨_, rfl, maxS_toInt x y⟩,
      ⟨_, rfl, minU_toNat x y⟩, ⟨_, rfl, maxU_toNat x y⟩⟩
  · refine ⟨reads_own, reads_own, reads_own, reads_own, reads_own, reads_own, reads_own, reads_own, reads_own, reads_own, reads_own,
      reads_own, reads_own, reads_own, reads_own, reads_own, reads_own, reads_own, reads_own, reads_own, fun hb fn => ?_, ?_⟩
    · exact ⟨readsNot_fn_b rfl (.inr hb), readsNot_fn_b rfl (.inr hb), readsNot_fn_b rfl (.inr hb)⟩
    · simp only [List.forall_mem_cons]
      exact ⟨fun _ => readsNot_fn rfl, fun _ => readsNot_fn rfl, fun _ => readsNot_fn rfl, fun _ => readsNot_fn rfl,
        fun _ => readsNot_fn rfl, fun _ => readsNot_fn rfl, fun _ => readsNot_fn rfl, fun _ => readsNot_fn rfl,
        fun _ => readsNot_fn rfl, fun _ => readsNot_fn rfl, fun _ => readsNot_fn rfl, fun _ => readsNot_fn rfl,
        fun _ => readsNot_fn rfl, fun _ => readsNot_fn rfl, fun _ => readsNot_fn rfl, fun _ => readsNot_fn rfl,
        fun _ => readsNot_fn rfl, fun _ h => readsNot_fn_b rfl (.inl h), fun _ h => readsNot_fn_b rfl (.inl h),
        fun _ h => readsNot_fn_b rfl (.inl h), fun _ => readsNot_fn rfl, fun _ => readsNot_fn rfl, fun _ => readsNot_fn rfl,
        fun _ => readsNot_fn rfl, fun _ h => absurd h List.not_mem_nil⟩

end Sys2Proof.Machine

-- Quotients, remainders and immediates (R165, R166)

namespace Sys2Proof.Machine

section
variable (x y : W64)

theorem div_rem_zero {y : W64} (h : y = 0) : divS x y = -1 ∧ divU x y = -1 ∧ remS x y = x ∧ remU x y = x :=
  ⟨if_pos h, if_pos h, if_pos h, if_pos h⟩

theorem toInt_ne_zero {y : W64} (h : y ≠ 0) : y.toInt ≠ 0 := fun hy => h (BitVec.eq_of_toInt_eq (by simpa using hy))

theorem ne_zero_of_toInt {y : W64} (h : y.toInt = -1) : y ≠ 0 := by
  rintro rfl
  simp at h

theorem divS_overflow (hx : x.toInt = -2 ^ 63) (hy : y.toInt = -1) : divS x y = x := by
  rw [divS, if_neg (ne_zero_of_toInt hy), if_pos ⟨hx, hy⟩]

theorem remS_overflow (hx : x.toInt = -2 ^ 63) (hy : y.toInt = -1) : remS x y = 0 := by
  rw [remS, if_neg (ne_zero_of_toInt hy), if_pos ⟨hx, hy⟩]

theorem divU_toNat (h : y ≠ 0) : (divU x y).toNat = x.toNat / y.toNat := by
  rw [divU, if_neg h]
  exact toNat_w64 (Nat.lt_of_le_of_lt (Nat.div_le_self ..) x.isLt)

theorem remU_toNat (h : y ≠ 0) : (remU x y).toNat = x.toNat % y.toNat := by
  rw [remU, if_neg h]
  exact toNat_w64 (Nat.lt_of_le_of_lt (Nat.mod_le ..) x.isLt)

end

/-- A remainder is smaller than its divisor, and takes the sign of its dividend. -/
theorem tmod_spec (a : Int) {b : Int} (hb : b ≠ 0) : (a.tmod b).natAbs < b.natAbs ∧ (0 < a.tmod b → 0 < a) ∧ (a.tmod b < 0 → a < 0) := by
  refine ⟨?_, fun h => ?_, fun h => ?_⟩
  · rw [Int.natAbs_tmod]
    exact Nat.mod_lt _ (Int.natAbs_pos.mpr hb)
  · by_contra hn
    have := Int.tmod_nonneg (a := -a) b (by omega)
    rw [Int.neg_tmod] at this
    omega
  · by_contra hn
    have := Int.tmod_nonneg (a := a) b (by omega)
    omega

section
variable {x y : W64} (hy : y ≠ 0) (ho : ¬ (x.toInt = -2 ^ 63 ∧ y.toInt = -1))
include hy ho

/-- Every other quotient is a number of 64 bits. -/
theorem divS_toInt : (divS x y).toInt = x.toInt.tdiv y.toInt := by
  obtain ⟨hx, hx'⟩ := toInt_bounds x
  have habs : (x.toInt.tdiv y.toInt).natAbs ≤ x.toInt.natAbs := by
    rw [Int.natAbs_tdiv]
    exact Nat.div_le_self ..
  obtain ⟨hlt, -, -⟩ := tmod_spec x.toInt (toInt_ne_zero hy)
  have hsum := Int.mul_tdiv_add_tmod x.toInt y.toInt
  have hne : x.toInt.tdiv y.toInt ≠ 2 ^ 63 := fun h => by
    rw [h] at hsum
    omega
  rw [divS, if_neg hy, if_neg ho]
  exact toInt_w64i (by omega) (by omega)

theorem remS_toInt : (remS x y).toInt = x.toInt.tmod y.toInt := by
  obtain ⟨hlt, -, -⟩ := tmod_spec x.toInt (toInt_ne_zero hy)
  obtain ⟨hylo, hyhi⟩ := toInt_bounds y
  rw [remS, if_neg hy, if_neg ho, Int.mul_comm, ← Int.tmod_def]
  exact toInt_w64i (by omega) (by omega)

end

theorem toNat_add_imm14 (x : W64) (i : BitVec 14) : (x + imm14 i).toNat = ((x.toNat + i.toInt) % 2 ^ 64).toNat := by
  have hi : (imm14 i).toNat = (i.toInt % 2 ^ 64).toNat := BitVec.toNat_ofInt i.toInt
  rw [BitVec.toNat_add, hi]
  omega

/-- Settles O9: quotients and remainders by the three cases of R165, immediates by the lemmas of the register forms. -/
theorem divisionAndImmediates : Obligations.DivisionAndImmediates := by
  unfold Obligations.DivisionAndImmediates
  refine ⟨⟨fun s d a b => ?_, fun d a b => ⟨reads_own, reads_own, reads_own, reads_own⟩⟩, fun s d a i n => ?_, fun d a i n => ?_⟩
  · intro x y
    refine ⟨fun hy => ?_, fun hx hy => ?_, fun hy ho => ?_, fun hy => ?_⟩
    · obtain ⟨hdiv, hdivn, hrem, hremn⟩ := div_rem_zero x hy
      exact ⟨⟨_, rfl, congrArg BitVec.toNat hdiv⟩, ⟨_, rfl, congrArg BitVec.toNat hdivn⟩, ⟨_, rfl, hrem⟩, ⟨_, rfl, hremn⟩⟩
    · exact ⟨⟨_, rfl, (congrArg _ (divS_overflow x y hx hy)).trans hx⟩, ⟨_, rfl, remS_overflow x y hx hy⟩⟩
    · obtain ⟨hlt, hpos, hneg⟩ := tmod_spec x.toInt (toInt_ne_zero hy)
      exact ⟨x.toInt.tdiv y.toInt, x.toInt.tmod y.toInt, (Int.tdiv_mul_add_tmod ..).symm,
        by rwa [Int.abs_eq_natAbs, Int.abs_eq_natAbs, Nat.cast_lt], hpos, hneg, ⟨_, rfl, divS_toInt hy ho⟩, ⟨_, rfl, remS_toInt hy ho⟩⟩
    · have hy0 : 0 < y.toNat := Nat.pos_of_ne_zero fun h => hy (BitVec.eq_of_toNat_eq (by simpa using h))
      exact ⟨x.toNat / y.toNat, x.toNat % y.toNat, (Nat.div_add_mod' ..).symm, Nat.mod_lt _ hy0, ⟨_, rfl, divU_toNat x y hy⟩,
        ⟨_, rfl, remU_toNat x y hy⟩⟩
  · exact ⟨⟨_, rfl, toNat_add_imm14 _ i⟩, ⟨_, rfl, fun k _ => BitVec.getLsbD_and⟩, ⟨_, rfl, fun k _ => BitVec.getLsbD_or⟩,
      ⟨_, rfl, fun k _ => BitVec.getLsbD_xor⟩, ⟨_, rfl, shiftLeft_toNat _ _⟩, ⟨_, rfl, ushiftRight_toNat _ _⟩,
      ⟨_, rfl, sshiftRight_toInt _ _⟩⟩
  · exact ⟨reads_own, reads_own, reads_own, reads_own, reads_own, reads_own, reads_own,
      fun h => ⟨readsNot_imm6 rfl h, readsNot_imm6 rfl h, readsNot_imm6 rfl h⟩⟩

end Sys2Proof.Machine

-- Comparisons, selection, constants, bit fields (R167 to R172)

namespace Sys2Proof.Machine

-- Words

section
variable (d a b : Reg)

theorem IntCond.ofCode_eq_none {n : Nat} (h : 6 ≤ n) : IntCond.ofCode n = none := by
  unfold IntCond.ofCode
  split
  case h_7 => rfl
  all_goals omega

theorem orhi_word (t h : BitVec 2) (i : BitVec 16) : d ++ t ++ h ++ i = packL d (t ++ h ++ i) := by
  rw [packL, BitVec.append_assoc (x₁ := d ++ t), BitVec.append_assoc (x₁ := d), BitVec.append_assoc (x₁ := t)]
  rfl

theorem readsNot_orhi {t : BitVec 2} (h : BitVec 2) (i : BitVec 16) (ht : t ≠ 0) : ReadsNot .s 0x029 (d ++ t ++ h ++ i) :=
  readsNot_of_onlyIf rfl fun hc => by
    rw [extract_append_high _ _ _ _ (by omega), extract_append_high _ _ _ _ (by omega)] at hc
    rw [extract_append_low] at hc
    exact absurd (beq_iff_eq.mp hc) ht

/-- A bit field must lie in its word (R170). -/
theorem reads_bitField {pos l : BitVec 6} (h : pos.toNat + l.toNat + 1 ≤ 64) :
    Reads .s 0x02A (rrr d a pos (l.setWidth 8)) (.bfx d a pos l) ∧ Reads .s 0x02B (rrr d a pos (l.setWidth 8)) (.bfxs d a pos l) ∧
      Reads .s 0x02C (rrr d a pos (l.setWidth 8)) (.bfi d a pos l) :=
  ⟨reads_own rfl (decide_eq_true h), reads_own rfl (decide_eq_true h), reads_own rfl (decide_eq_true h)⟩

theorem readsNot_bitField {pos : BitVec 6} {fn : BitVec 8} (h : 64 ≤ fn.toNat ∨ 64 ≤ pos.toNat + fn.toNat) :
    ReadsNot .s 0x02A (rrr d a pos fn) ∧ ReadsNot .s 0x02B (rrr d a pos fn) ∧ ReadsNot .s 0x02C (rrr d a pos fn) := by
  have hlen : ((opFn (rrr d a pos fn)).extractLsb' 6 2 == 0) = true →
      decide ((opB (rrr d a pos fn)).toNat + ((opFn (rrr d a pos fn)).extractLsb' 0 6).toNat + 1 ≤ 64) = false := fun hc => by
    rw [rrr_eq_packR, opFn_packR] at hc ⊢
    rw [extract_beq_zero_iff] at hc
    rw [opB_packR, decide_eq_false_iff_not, BitVec.extractLsb'_toNat]
    have := fn.isLt
    omega
  exact ⟨readsNot_of_onlyIf rfl hlen, readsNot_of_onlyIf rfl hlen, readsNot_of_onlyIf rfl hlen⟩

end

-- Results

section
variable (x y : W64)

theorem boolW_toNat (b : Bool) : (boolW b).toNat = b.toNat := by cases b <;> rfl

theorem beq_toNat : (x == y) = decide (x.toNat = y.toNat) := by
  rw [Bool.eq_iff_iff, beq_iff_eq, decide_eq_true_eq, BitVec.toNat_inj]

section
variable {k : Nat}

theorem getLsbD_fieldOf (pos len : Nat) (hk : k < 64) :
    (w64 (fieldOf x pos len)).getLsbD k = (decide (k < len) && x.getLsbD (pos + k)) := by
  rw [w64, BitVec.getLsbD_ofNat, fieldOf, Nat.testBit_mod_two_pow, Nat.testBit_div_two_pow, decide_eq_true hk, Bool.true_and,
    Nat.add_comm]
  rfl

/-- The sign-extended field repeats its highest bit. -/
theorem getLsbD_sext_fieldOf (pos : Nat) {len : Nat} (h0 : 0 < len) (hl : len ≤ 64) (hk : k < 64) :
    (w64i (sext len (fieldOf x pos len))).getLsbD k = x.getLsbD (pos + min k (len - 1)) := by
  have hfield : ∀ j, j < len → (BitVec.ofNat len (fieldOf x pos len)).getLsbD j = x.getLsbD (pos + j) := fun j hj => by
    rw [BitVec.getLsbD_ofNat, fieldOf, Nat.testBit_mod_two_pow, Nat.testBit_div_two_pow, decide_eq_true hj, Bool.true_and, Bool.true_and,
      Nat.add_comm]
    rfl
  rw [w64i_sext _ _ h0, BitVec.getLsbD_signExtend, decide_eq_true hk, Bool.true_and]
  split
  · next h => rw [hfield k h, min_eq_left (by omega)]
  · next h => rw [BitVec.msb_eq_getLsbD_last, hfield _ (by omega), min_eq_right (by omega)]

theorem getLsbD_insertField (pos : Nat) {len : Nat} (hk : k < 64) : (insertField x y pos len).getLsbD k =
    if pos ≤ k ∧ k < pos + len then y.getLsbD (k - pos) else x.getLsbD k := by
  have hmask : (BitVec.ofNat 64 ((2 ^ len - 1) * 2 ^ pos)).getLsbD k = decide (pos ≤ k ∧ k < pos + len) := by
    rw [BitVec.getLsbD_ofNat, Nat.testBit_mul_two_pow, Nat.testBit_two_pow_sub_one, decide_eq_true hk, Bool.true_and, ← Bool.decide_and]
    exact decide_eq_decide.mpr (by omega)
  simp only [insertField, BitVec.getLsbD_or, BitVec.getLsbD_and, BitVec.getLsbD_not, BitVec.getLsbD_shiftLeft, hmask]
  by_cases h : pos ≤ k ∧ k < pos + len
  · simp [h, hk]
  · simp [h, hk]

theorem getLsbD_one_shiftLeft (n : Nat) (hk : k < 64) : ((1 : W64) <<< n).getLsbD k = decide (k = n) := by
  show (1#64 <<< n).getLsbD k = _
  rw [BitVec.getLsbD_shiftLeft, BitVec.getLsbD_one, Bool.eq_iff_iff]
  simp only [Bool.and_eq_true, Bool.not_eq_true', decide_eq_true_eq, decide_eq_false_iff_not]
  omega

/-- ORHI sets bits in one quarter of the word alone. -/
theorem getLsbD_or_quarter (i : BitVec 16) (n : Nat) (hk : k < 64) : (x ||| i.setWidth 64 <<< n).getLsbD k =
    (x.getLsbD k || (decide (n ≤ k ∧ k < n + 16) && i.getLsbD (k - n))) := by
  rw [BitVec.getLsbD_or, BitVec.getLsbD_shiftLeft, BitVec.getLsbD_setWidth]
  by_cases hn : n ≤ k
  · by_cases hi : k < n + 16
    · simp [hk, hn, hi, Nat.not_lt.mpr hn, show k - n < 64 by omega]
    · simp [hi, BitVec.getLsbD_of_ge i (k - n) (by omega)]
  · simp [hn, Nat.not_le.mp hn]

theorem toNat_add_shiftLeft (n : Nat) : (x + y <<< n).toNat = (x.toNat + y.toNat * 2 ^ n) % 2 ^ 64 := by
  rw [BitVec.toNat_add, shiftLeft_toNat, Nat.add_mod_mod]

end
end

/-- Settles O10: results by the lemmas above, words as those of their instructions. -/
theorem compareSelectConstants : Obligations.CompareSelectConstants := by
  unfold Obligations.CompareSelectConstants
  refine ⟨⟨fun s d a b c i => ?_, fun d a b c i => ?_⟩, fun s d a b i20 i16 h pos l n sh => ?_, fun d a b i20 i16 h pos l n sh i => ?_⟩
  · intro x truth
    have hholds : ∀ y k, (boolW (IntCond.holds k x y)).toNat = (truth y k).toNat := fun y k => by
      rw [boolW_toNat]
      cases k with
      | eq => rw [IntCond.holds, beq_toNat]
      | ne => rw [IntCond.holds, bne, beq_toNat, ← decide_not]
      | lt | le | ltn | len => rfl
    exact ⟨fun k => ⟨_, rfl, hholds _ k⟩, fun k => ⟨_, rfl, hholds _ k⟩,
      ⟨_, rfl, fun hc => if_pos hc, fun hc => if_neg (not_not_intro hc)⟩⟩
  · exact ⟨reads_own, reads_own, reads_own, reads_own, reads_own, reads_own, fun fn hfn => readsNot_of_none rfl (by
      rw [rrr_eq_packR, opFn_packR]; exact IntCond.ofCode_eq_none hfn), reads_own, reads_own, reads_own, reads_own, reads_own, reads_own,
      reads_own, fun fn hfn => readsNot_fn_high (k := 6) (l := 2) rfl rfl hfn⟩
  · intro x len
    have hl := l.isLt
    refine ⟨⟨_, rfl, BitVec.toInt_signExtend_of_le (by decide)⟩, ⟨_, rfl, fun k => getLsbD_or_quarter _ i16 _⟩,
      fun hlen => ⟨⟨_, rfl, fun k hk => getLsbD_fieldOf x _ _ hk⟩, ⟨_, rfl, fun k hk => getLsbD_sext_fieldOf x _ (by omega) (by omega) hk⟩,
        ⟨_, rfl, fun k hk => getLsbD_insertField _ x _ hk⟩⟩, ⟨_, rfl, fun k hk => ?_⟩,
      ⟨_, rfl, fun k hk => ?_⟩, ⟨_, rfl, toNat_add_shiftLeft _ _ _⟩⟩
    · rw [BitVec.getLsbD_or, getLsbD_one_shiftLeft _ hk]
    · rw [getLsbD_andn _ _ hk, getLsbD_one_shiftLeft _ hk]
  · refine ⟨reads_own, reads_of_word rfl rfl rfl (orhi_word d 0 h i16), fun t ht => readsNot_orhi d h i16 ht, reads_bitField d a,
      fun fn hfn => readsNot_bitField d a hfn, reads_own, reads_own, fun hi => ⟨readsNot_imm6 rfl hi, readsNot_imm6 rfl hi⟩, reads_own,
      fun fn hfn => readsNot_fn_high (k := 3) (l := 5) rfl rfl hfn⟩

end Sys2Proof.Machine
